-- ==== Sys2Proof/Word.lean ====
section
/-! DEFINITION. The word types of the YL-6400 model and the shape of its sparse tables.
A table lists (key, value) pairs with strictly rising keys and lists no value equal to its default, so that equal
tables are equal data. -/

namespace Sys2Proof

/-- A 32-bit register (05 R153). -/
abbrev Word := BitVec 32

/-- A 64-bit value: an even register pair (05 R166), a pointer, a control register. -/
abbrev Dword := BitVec 64

/-- One byte of memory (00 R6). -/
abbrev Byte := BitVec 8

/-- A 32-lane mask, bit i for lane i (05 R153). -/
abbrev Mask := BitVec 32

/-- A sparse table: keys strictly rising, no entry equal to the table's default value. -/
abbrev Tab (α : Type) := List (Nat × α)

end Sys2Proof
end

