-- ==== Sys2Proof/Syntax.lean ====
section
/-! DEFINITION. The syntax: one constructor of `Instr` for each row of spec/opcode_table.json.
The first group are the instructions of one 64-bit word (09 R308 to R328); the second group are the steps of the
device's other agents (95), each with the agent it belongs to and the outside input it carries. -/

namespace Sys2Proof

/-- Register specifiers (09 R312). -/
inductive Reg where
  | v (n : Fin 128)
  | s (n : Fin 64)
  | a (n : Fin 16)
  | k (n : Fin 12)
  | zero
  | lane
  deriving DecidableEq, Repr

/-- Predicate field (09 R311). -/
inductive Pred where
  | always
  | bitSet (k : Fin 12)
  | bitClear (k : Fin 12)
  deriving DecidableEq, Repr

/-- Stop bit and predicate of a full-form word (09 R308, R310). -/
structure Hdr where
  stop : Bool
  pred : Pred
  deriving DecidableEq, Repr

/-- Type suffixes (09 R318). -/
inductive Ty where
  | i8 | i16 | i32 | i64 | n8 | n16 | n32 | n64 | b32 | b64
  | f16 | bf16 | f32 | f64 | e4m3 | e5m2 | e3m2 | e2m3 | e2m1
  | bfp2 | bfp3 | bfp4 | bfp5 | bfp6 | bfp7 | bfp8
  deriving DecidableEq, Repr

/-- Scope codes (09 R320, 00 R3). -/
inductive Scope where
  | clutch | core | column | die | pkg | sys
  deriving DecidableEq, Repr

/-- Ordering and scope of a memory access (09 R317). -/
inductive MOrd where
  | relaxed
  | acq (s : Scope)
  | rel (s : Scope)
  | ar (s : Scope)
  deriving DecidableEq, Repr

/-- Rounding codes (09 R320); `mode` is code 0, "from FPMODE". -/
inductive Rnd where
  | mode | rne | rtz | rup | rdn | rna | sr
  deriving DecidableEq, Repr

/-- Comparison codes (10 R338). -/
inductive Cmp where
  | eq | ne | lt | le | gt | ge
  deriving DecidableEq, Repr

/-- The last register source, or imm19 in its place (09 R315). -/
inductive Opnd where
  | reg (r : Reg)
  | imm (i : BitVec 19)
  deriving DecidableEq, Repr

/-- Source b of the CMP layout (10 R338). -/
inductive CmpOpnd where
  | reg (r : Reg)
  | imm (i : BitVec 16)
  deriving DecidableEq, Repr

/-- A register or a 5-bit immediate (10 R347, R351, 11 R394). -/
inductive Opnd5 where
  | reg (r : Reg)
  | imm (i : BitVec 5)
  deriving DecidableEq, Repr

/-- A memory operand (09 R317). -/
structure MemOp where
  base : Reg
  idx  : Reg
  pol  : Option (Fin 64)
  off  : BitVec 8
  deriving DecidableEq, Repr

/-- Fields read by `aget` (10 R345). -/
inductive AField where
  | ptr | base | limit | perm
  deriving DecidableEq, Repr

/-- Modes of `shfl` (10 R347). -/
inductive ShflMode where
  | idx | up | down | xor
  deriving DecidableEq, Repr

/-- Functions of `vote` (10 R349). -/
inductive VoteFn where
  | ballot | any | all | uni | first | lead
  deriving DecidableEq, Repr

/-- Operations of `redux` and `scan` (10 R350). -/
inductive RedOp where
  | add | min | max | and | or | xor
  deriving DecidableEq, Repr

/-- Operations of `kop` (10 R354). -/
inductive KOp where
  | and | or | xor | andn | mov | not
  deriving DecidableEq, Repr

/-- Operations of `atom` and `red` (10 R365). -/
inductive AtomOp where
  | add | sub | and | or | xor | min | max | xchg | cas | incw | decw | fadd | fmin | fmax
  deriving DecidableEq, Repr

/-- Kinds of `fence` (10 R363). -/
inductive FenceKind where
  | acq | rel | ar
  deriving DecidableEq, Repr

/-- Register counts of `ldv` and `stv` (10 R358). -/
inductive VecN where
  | x2 | x4 | x8 | x16
  deriving DecidableEq, Repr

/-- Fields read by `tlget` (12 R438), but for `.clr`, which is a row of its own. -/
inductive TlField where
  | issued | done | err | detail
  deriving DecidableEq, Repr

/-- One slot of a dual word (09 R323, R325). -/
inductive SlotOp where
  | add | sub | mul | and | or | xor | shl | shr | sar | minI | maxI | minN | maxN | andn
  | fadd | fsub | fmul | fmin | fmax
  deriving DecidableEq, Repr

/-- Immediate-form slot operations (09 R325). -/
inductive SlotImmOp where
  | add | sub | mul | and | or | xor | shl | shr | sar | minI | maxI
  deriving DecidableEq, Repr

/-- Unary slot operations (09 R325). -/
inductive SlotUnOp where
  | mov | not | neg | popc | clz
  deriving DecidableEq, Repr

/-- Mask slot operations (09 R325). -/
inductive SlotKOp where
  | and | or | xor | andn | mov
  deriving DecidableEq, Repr

/-- Comparisons of the `kcmp` slot (09 R325). -/
inductive SlotCmp where
  | eq | ne | lt | ge
  deriving DecidableEq, Repr

/-- One slot of a dual word (09 R321 to R325). -/
inductive Slot where
  | bin (op : SlotOp) (d s : Reg)
  | binImm (op : SlotImmOp) (d s : Reg) (i : BitVec 8)
  | un (op : SlotUnOp) (d s : Reg)
  | movi (d : Reg) (i : BitVec 8)
  | aadv (d : Fin 16) (i : BitVec 8)
  | kop (op : SlotKOp) (d s : Fin 12)
  | kcmp (c : SlotCmp) (d : Fin 12) (s : Reg) (i : BitVec 8)
  | nop
  deriving DecidableEq, Repr

/-- Who issues in an issue cycle: a quadrant of a SIMT core, or a host core (04 R139, 05 R199). -/
inductive IssueUnit where
  | quad (core : Fin 256) (q : Fin 4)
  | host (col : Fin 64)
  deriving DecidableEq, Repr

/-- The blocks of device register space (03 R98). -/
inductive Block where
  | column (c : Fin 64)
  | die (t : Fin 4)
  | package
  deriving DecidableEq, Repr

/-- Who makes a register access (02 R79 to R82, 03 R93, R101). -/
inductive Requester where
  | mgmtA | mgmtB | hostLink | firmware | supervisor | user
  deriving DecidableEq, Repr

/-- Directions of a column vertical bus (01 R25). -/
inductive VDir where
  | up | down
  deriving DecidableEq, Repr

/-- Links that may change width: the six die links and the sixteen UALink ports (01 R38, R42). -/
inductive LinkId where
  | dl (n : Fin 6)
  | ual (p : Fin 16)
  deriving DecidableEq, Repr

/-- Who asks for a width change (01 R45). -/
inductive WidthAgent where
  | pmc | linkLayer | firmware
  deriving DecidableEq, Repr

/-- The outcome of the retraining of a width change (01 R46, R48). -/
inductive Retrain where
  | atRequested | atNarrowest | lost
  deriving DecidableEq, Repr

/-- Operation of an inbound UALink request (03 R96, 07 R278). -/
inductive UalOp where
  | read (len : Nat)
  | write (data : List Byte)
  | atomic (op : AtomOp) (t : Ty) (b cmp : Dword)
  deriving DecidableEq, Repr

/-- A firmware image as the boot ROM judges it (02 R87, R88). `digest` stands for the signed content. -/
structure Image where
  size       : Nat
  keyHash    : BitVec 512
  digest     : BitVec 512
  signature  : BitVec 4096
  secVersion : Nat
  deriving DecidableEq, Repr

/-- Ways to the PMC: sources of a firmware image, transports of SPDM (02 R87, R90). -/
inductive ImageSource where
  | pcie | mgmtA | mgmtB
  deriving DecidableEq, Repr

/-- SPDM measurement requested (02 R90). -/
inductive SpdmMeasure where
  | certificates | bootRom | firmware | fuses | partition
  deriving DecidableEq, Repr

/-- An SPDM request (02 R90): how it comes, over MCTP on a management port or over PCIe DOE, and what it asks for. -/
structure SpdmRequest where
  way : ImageSource
  what : SpdmMeasure
  deriving DecidableEq, Repr

/-- The instructions and steps: one constructor per row of spec/opcode_table.json. -/
inductive Instr where
  -- integer (10 R339 to R344)
  | add (h : Hdr) (t : Ty) (d a : Reg) (b : Opnd)
  | sub (h : Hdr) (t : Ty) (d a : Reg) (b : Opnd)
  | addc (h : Hdr) (d a b : Reg) (c : Opnd)
  | subb (h : Hdr) (d a b : Reg) (c : Opnd)
  | mul (h : Hdr) (t : Ty) (d a : Reg) (b : Opnd)
  | mulh (h : Hdr) (t : Ty) (d a : Reg) (b : Opnd)
  | mad (h : Hdr) (t : Ty) (d a b : Reg) (c : Opnd)
  | div (h : Hdr) (t : Ty) (d a : Reg) (b : Opnd)
  | rem (h : Hdr) (t : Ty) (d a : Reg) (b : Opnd)
  | neg (h : Hdr) (t : Ty) (d a : Reg)
  | abs (h : Hdr) (t : Ty) (d a : Reg)
  | min (h : Hdr) (t : Ty) (d a : Reg) (b : Opnd)
  | max (h : Hdr) (t : Ty) (d a : Reg) (b : Opnd)
  | and (h : Hdr) (t : Ty) (d a : Reg) (b : Opnd)
  | or (h : Hdr) (t : Ty) (d a : Reg) (b : Opnd)
  | xor (h : Hdr) (t : Ty) (d a : Reg) (b : Opnd)
  | not (h : Hdr) (t : Ty) (d a : Reg)
  | andn (h : Hdr) (t : Ty) (d a : Reg) (b : Opnd)
  | shl (h : Hdr) (t : Ty) (d a : Reg) (b : Opnd)
  | shr (h : Hdr) (t : Ty) (d a : Reg) (b : Opnd)
  | sar (h : Hdr) (t : Ty) (d a : Reg) (b : Opnd)
  | rotl (h : Hdr) (t : Ty) (d a : Reg) (b : Opnd)
  | clz (h : Hdr) (t : Ty) (d a : Reg)
  | ctz (h : Hdr) (t : Ty) (d a : Reg)
  | popc (h : Hdr) (t : Ty) (d a : Reg)
  | brev (h : Hdr) (t : Ty) (d a : Reg)
  | bfx (h : Hdr) (t : Ty) (d a b : Reg) (c : Opnd)
  | bfi (h : Hdr) (t : Ty) (d a b : Reg) (c : Opnd)
  | sel (h : Hdr) (t : Ty) (d a b : Reg) (c : Opnd)
  | cmp (h : Hdr) (cc : Cmp) (t : Ty) (d a : Reg) (b : CmpOpnd)
  | isat (h : Hdr) (t src : Ty) (d a : Reg)
  -- address registers (10 R345)
  | aset (h : Hdr) (pr pw px : Bool) (d a b c : Reg)
  | aadv (h : Hdr) (d a : Reg) (b : Opnd)
  | aget (h : Hdr) (f : AField) (d a : Reg)
  | amov (h : Hdr) (d a : Reg)
  -- moves and lane exchange (10 R346 to R351)
  | mov (h : Hdr) (t : Ty) (d a : Reg)
  | movi (h : Hdr) (d : Reg) (i : BitVec 20)
  | movh (h : Hdr) (d : Reg) (i : BitVec 20)
  | shfl (h : Hdr) (m : ShflMode) (t : Ty) (d a : Reg) (b : Opnd5)
  | bcast (h : Hdr) (t : Ty) (d a : Reg) (b : Opnd)
  | vote (h : Hdr) (f : VoteFn) (d a : Reg)
  | redux (h : Hdr) (op : RedOp) (t : Ty) (d a : Reg)
  | scan (h : Hdr) (op : RedOp) (excl : Bool) (t : Ty) (d a : Reg)
  | pack (h : Hdr) (t : Ty) (sat : Bool) (d a : Reg) (b : Opnd5)
  | unpack (h : Hdr) (t : Ty) (d a : Reg) (b : Opnd)
  -- control flow and masks (10 R352 to R356)
  | br (h : Hdr) (disp : BitVec 20)
  | brx (h : Hdr) (a : Reg)
  | call (h : Hdr) (n : BitVec 5) (disp : BitVec 20)
  | callx (h : Hdr) (n : BitVec 5) (a : Reg)
  | ret (h : Hdr)
  | exit (h : Hdr)
  | kjoin (h : Hdr) (k : Fin 12)
  | kleave (h : Hdr) (k : Fin 12)
  | kwait (h : Hdr) (k : Fin 12)
  | kop (h : Hdr) (op : KOp) (d : Fin 12) (a : Reg) (b : Opnd)
  | kcmp (h : Hdr) (cc : Cmp) (t : Ty) (k : Fin 12) (a : Reg) (b : CmpOpnd)
  | yield (h : Hdr)
  | nop (h : Hdr)
  -- memory (10 R357 to R363)
  | ld (h : Hdr) (t : Ty) (o : MOrd) (d : Reg) (m : MemOp)
  | st (h : Hdr) (t : Ty) (o : MOrd) (d : Reg) (m : MemOp)
  | ldv (h : Hdr) (n : VecN) (d : Reg) (m : MemOp)
  | stv (h : Hdr) (n : VecN) (d : Reg) (m : MemOp)
  | prf (h : Hdr) (sliceOnly : Bool) (m : MemOp)
  | fence (h : Hdr) (f : FenceKind) (s : Scope)
  | cwb (h : Hdr) (m : Option MemOp)
  | cinv (h : Hdr) (m : Option MemOp)
  -- queues (10 R364)
  | qpush (h : Hdr) (t : Ty) (d : Reg) (q : Fin 16)
  | qpop (h : Hdr) (t : Ty) (d : Reg) (q : Fin 16)
  | qcfgSet (h : Hdr) (a : Reg) (q : Fin 16)
  | qcfgGet (h : Hdr) (d : Reg) (q : Fin 16)
  | ldx (h : Hdr) (t : Ty) (o : MOrd) (d : Reg) (m : MemOp)
  -- atomics and regions (10 R365 to R381)
  | atom (h : Hdr) (op : AtomOp) (t : Ty) (o : MOrd) (d base b : Reg)
  | red (h : Hdr) (op : AtomOp) (t : Ty) (o : MOrd) (base b : Reg)
  | atxBegin (h : Hdr) (d : Reg) (disp : BitVec 20)
  | atxEnd (h : Hdr) (d : Reg)
  | atxAbort (h : Hdr) (code : BitVec 8)
  | atxPin (h : Hdr) (a : Reg)
  | atxStat (h : Hdr) (d : Reg)
  -- floating point (11 R385 to R395)
  | fadd (h : Hdr) (t : Ty) (rm : Rnd) (d a : Reg) (b : Opnd)
  | fsub (h : Hdr) (t : Ty) (rm : Rnd) (d a : Reg) (b : Opnd)
  | fmul (h : Hdr) (t : Ty) (rm : Rnd) (d a : Reg) (b : Opnd)
  | fma (h : Hdr) (t : Ty) (rm : Rnd) (d a b : Reg) (c : Opnd)
  | fdiv (h : Hdr) (t : Ty) (rm : Rnd) (d a : Reg) (b : Opnd)
  | fsqrt (h : Hdr) (t : Ty) (rm : Rnd) (d a : Reg)
  | frcp (h : Hdr) (d a : Reg)
  | frsq (h : Hdr) (d a : Reg)
  | fex2 (h : Hdr) (d a : Reg)
  | flg2 (h : Hdr) (d a : Reg)
  | fsin (h : Hdr) (d a : Reg)
  | fcos (h : Hdr) (d a : Reg)
  | fmin (h : Hdr) (t : Ty) (d a : Reg) (b : Opnd)
  | fmax (h : Hdr) (t : Ty) (d a : Reg) (b : Opnd)
  | fcmp (h : Hdr) (cc : Cmp) (t : Ty) (d a : Reg) (b : CmpOpnd)
  | fcls (h : Hdr) (t : Ty) (d a : Reg)
  | frnd (h : Hdr) (t : Ty) (rm : Rnd) (d a : Reg)
  | fscl (h : Hdr) (t : Ty) (rm : Rnd) (d a : Reg) (b : Opnd)
  | fcvt (h : Hdr) (dt st : Ty) (rm : Rnd) (sat : Bool) (elem : BitVec 3) (d a : Reg)
  | icvt (h : Hdr) (dt st : Ty) (rm : Rnd) (sat : Bool) (d a : Reg)
  | fdot2 (h : Hdr) (t : Ty) (rm : Rnd) (d a b c : Reg)
  | fdot4 (h : Hdr) (t : Ty) (rm : Rnd) (d a b c : Reg)
  | fpk (h : Hdr) (t : Ty) (rm : Rnd) (sat : Bool) (d a : Reg) (b : Opnd5)
  -- matrix and rings (11 R399 to R421)
  | mjob (h : Hdr) (e : Fin 8) (a b : Reg)
  | mcmp (h : Hdr) (fmt : BitVec 5) (hi : Bool) (d a m : Reg)
  | mplane (h : Hdr) (a b c : Reg)
  | mnplane (h : Hdr) (d a c : Reg)
  | mscl (h : Hdr) (fmt : BitVec 5) (st : Ty) (asValue : Bool) (d a : Reg)
  | ringCfg (h : Hdr) (n : Fin 8) (a : Reg)
  | ringAcq (h : Hdr) (n r : Fin 8) (d : Reg)
  | ringRel (h : Hdr) (n r : Fin 8)
  -- engines and weight store (12 R423 to R438)
  | cpy (h : Hdr) (e : Fin 8) (a : Reg)
  | astr (h : Hdr) (e : Fin 8) (a : Reg)
  | nmeGth (h : Hdr) (e : Fin 8) (a : Reg)
  | nmeRed (h : Hdr) (e : Fin 8) (a : Reg)
  | nmeCvt (h : Hdr) (e : Fin 8) (a : Reg)
  | winst (h : Hdr) (e : Fin 8) (a : Reg)
  | wqry (h : Hdr) (d a : Reg)
  | tlwait (h : Hdr) (e : Fin 8) (a : Reg)
  | tlget (h : Hdr) (f : TlField) (d : Reg) (e : Fin 8)
  | tlgetClr (h : Hdr) (d : Reg) (e : Fin 8)
  -- vertical FIFO, leap, launch, join (12 R439 to R442)
  | vfsend (h : Hdr) (a : Reg)
  | vfrecv (h : Hdr) (d : Reg)
  | vffree (h : Hdr) (d : Reg)
  | leap (h : Hdr) (a : Reg)
  | launch (h : Hdr) (s : Scope) (a b : Reg)
  | join (h : Hdr) (d a : Reg)
  -- barriers and sync-engine objects (12 R443 to R447)
  | barArr (h : Hdr) (n : Fin 16) (cnt : BitVec 6)
  | barWait (h : Hdr) (n : Fin 16)
  | sbarArr (h : Hdr) (a : Reg)
  | sbarWait (h : Hdr) (a : Reg)
  | waitaddr (h : Hdr) (s : Scope) (cc : Cmp) (t : Ty) (a b : Reg)
  | wake (h : Hdr) (a : Reg)
  | deqInit (h : Hdr) (a b : Reg) (lc : BitVec 5)
  | deqPush (h : Hdr) (a b : Reg)
  | deqPop (h : Hdr) (d a : Reg)
  | deqSteal (h : Hdr) (d a : Reg)
  -- system (12 R448 to R459)
  | sysr (h : Hdr) (d : Reg) (n : BitVec 12)
  | sysw (h : Hdr) (n : BitVec 12) (a : Reg)
  | scall (h : Hdr) (i : BitVec 16)
  | brk (h : Hdr) (i : BitVec 16)
  | tret (h : Hdr)
  | wfi (h : Hdr)
  | tlbinvVa (h : Hdr) (ctx : BitVec 8) (a : Reg)
  | tlbinvCtx (h : Hdr) (ctx : BitVec 8)
  | tlbinvAll (h : Hdr)
  | icinvLine (h : Hdr) (a : Reg)
  | icinvAll (h : Hdr)
  | halt (h : Hdr)
  | ipi (h : Hdr) (a : Reg)
  | dualWord (stop : Bool) (s0 s1 : Slot)
  -- issue and results (04 R139, 05 R173)
  | issueCycle (u : IssueUnit)
  | longResultWrite (cid n : Nat) (lanes : Mask)
  -- waits that end
  | kwaitRelease (cid : Nat) (k : Fin 12)
  | queueWaitResume (cid : Nat)
  | ringAcqResume (cid : Nat)
  | vfifoWaitResume (cid : Nat)
  | tlwaitReturn (cid : Nat)
  | joinReturn (cid : Nat)
  | waitaddrReread (cid : Nat)
  | sbarWaitResume (cid : Nat)
  | barWaitResume (cid : Nat)
  | launchQueueResume (cid : Nat)
  | leapLand (cid : Nat)
  | registerRecall (cid : Nat)
  | windowParking (cid : Nat)
  | regionCommit (cid : Nat)
  | engineAsyncDelivery (cid : Nat)
  | interruptEntry (col : Fin 64)
  | timerExpiry (col : Fin 64)
  -- engines
  | copyChunk (cmd : Nat)
  | streamElement (cmd : Nat)
  | nmeCommandRun (cmd : Nat)
  | matrixTile (core : Fin 256)
  | matrixJobComplete (core : Fin 256)
  | engineCommandComplete (cmd : Nat)
  -- the weight store (06 R238 to R244)
  | installStart (cmd : Nat)
  | installUnitProgram (cmd : Nat) (failed : Bool)
  | installCommit (cmd : Nat)
  | installComplete (cmd : Nat)
  | readingRoomFill (unit : Nat) (flashError : Bool)
  -- caches and tokens (06 R221 to R231)
  | cacheFill (l1 line : Nat)
  | l1EvictTimeout (l1 line : Nat)
  | cwqDrain (col : Fin 64) (n : Nat)
  | transientRequest (die : Fin 4) (line : Nat) (write : Bool)
  | tokenResponse (src dst : Fin 4)
  | transientTimeout (die : Fin 4) (line : Nat)
  | persistentActivate (line : Nat)
  | persistentDeactivate (line : Nat)
  | tokenWriteback (src dst : Fin 4)
  | syncEngineAtomic (die : Fin 4)
  -- translation, pager, promotion (06 R204 to R220)
  | pageWalk (l1 ctx : Nat) (va : Dword)
  | pagerRecord
  | pgfDoneWrite (tag : BitVec 16) (fail : Bool)
  | pgfHeadWrite (v : Word)
  | promoGo (die : Fin 4) (v : Dword)
  | promotionComplete (die : Fin 4)
  -- launch and scheduling (03, 04)
  | tokenEnqueue (b : Block) (line : Fin 8) (tok : BitVec 512) (whole : Bool)
  | launchRecordCheck (b : Block) (line : Fin 8)
  | dependenceEvaluation (launch : Nat)
  | preTranslation (gang : Nat)
  | gangReserve (gang : Nat)
  | gangDispatch (gang : Nat)
  | preemption (gang : Nat)
  | preemptResume (gang : Nat)
  | requeue (gang : Nat)
  | migrationRequest (col : Fin 64)
  | migration (gang : Nat)
  | taskTermination (task : Nat)
  | ctxRefresh (ctx : BitVec 8)
  | ctxKill (ctx : BitVec 8)
  | killComplete
  | llCfgWrite (b : Block) (line : Fin 8) (v : Dword)
  -- host, peers, registers (03)
  | cxlMemWrite (dpa : Nat) (data : BitVec 512) (mask : BitVec 64)
  | cxlMemRead (dpa : Nat)
  | bar0Access (off size : Nat) (write : Option Dword)
  | ualinkRequest (peer : BitVec 10) (off : Nat) (op : UalOp)
  | registerWrite (r : Requester) (addr : Nat) (write : Option Dword)
  -- vertical bus and bank (01 R25 to R37)
  | vbusBeat (col : Fin 64) (dir : VDir) (bad : List Nat)
  | vbusRepair (col : Fin 64) (dir : VDir) (group : Nat) (found : List Nat)
  | bankRead (col : Fin 64) (bo : Nat)
  | bankPartialWrite (col : Fin 64) (bo : Nat) (data : BitVec 1024) (mask : BitVec 128)
  | patrolScrub (col : Fin 64)
  | scrubCfgWrite (r : Requester) (col : Fin 64) (v : Dword)
  -- power and heat (02)
  | powerEstimate
  | weightRefit (kind : Fin 3) (energy : Int)
  | capLoopPass (amps : Nat)
  | thermalStepDown (col : Fin 64)
  | thermalStepUp (col : Fin 64)
  | rampGuardTick (demand : Nat)
  | ballastStop
  | valvePass
  | valveForceWrite (r : Requester) (col : Fin 64) (v : Dword)
  | coolantAlarm (tower : Fin 4) (inlet flow : Nat)
  | emergencyBegin (col : Fin 64) (bank : Bool) (temp : BitVec 8)
  | emergencyEnd
  | emergencyTimeout
  | capFrame (port : Bool) (bytes : List Byte)
  | partMapWrite (r : Requester) (v : Dword)
  | partCfgWrite (r : Requester) (p : Fin 16) (v : Dword)
  | devCapWrite (r : Requester) (v : Dword)
  | curLimWrite (r : Requester) (v : Dword)
  | govTjWrite (r : Requester) (v : Dword)
  | govTbWrite (r : Requester) (v : Dword)
  | mgmtSemAcquire (r : Requester) (v : Dword)
  | mgmtSemRelease (r : Requester)
  | mgmtLeaseExpiry
  | logClear (r : Requester)
  | logIndexSet (r : Requester) (i : BitVec 13)
  | hbmSplitLock (v : Dword)
  | wearSetWrite (v : Dword)
  | corePgWrite (r : Requester) (col : Fin 64) (v : Dword)
  | coreGate (core : Fin 256)
  | coreUngate (core : Fin 256)
  | widthChangeRequest (l : LinkId) (a : WidthAgent) (w : Nat)
  | widthChange (l : LinkId) (o : Retrain)
  -- reset, firmware, attestation (02 R87 to R90)
  | reset
  | firmwareImage (src : ImageSource) (img : Image)
  | spdmRequest (q : SpdmRequest)
  | powerLoss
  | cxlCacheSnoop (line : Nat) (invalidate : Bool)
  | sensorRefresh (col : Fin 64) (tj tb : BitVec 8)
  deriving DecidableEq, Repr

end Sys2Proof
end

