-- ==== Sys2Proof/Machine/Types.lean ====
section
/-! DEFINITION. The codes and sizes of the syntax' small types: type codes (09 R318), register specifiers (09 R312),
scopes, orderings and roundings (09 R320), comparisons (10 R338), and the matrix format codes (11 R396). -/

namespace Sys2Proof.Machine

/-- Type codes (09 R318). -/
def tyCode : Ty → BitVec 5
  | .i8 => 1 | .i16 => 2 | .i32 => 3 | .i64 => 4 | .n8 => 5 | .n16 => 6 | .n32 => 7 | .n64 => 8
  | .b32 => 9 | .b64 => 10 | .f16 => 11 | .bf16 => 12 | .f32 => 13 | .f64 => 14 | .e4m3 => 15
  | .e5m2 => 16 | .e3m2 => 17 | .e2m3 => 18 | .e2m1 => 19 | .bfp2 => 20 | .bfp3 => 21 | .bfp4 => 22
  | .bfp5 => 23 | .bfp6 => 24 | .bfp7 => 25 | .bfp8 => 26

/-- Type of a code; codes 0 and 27 to 31 are reserved (09 R318). -/
def tyOfCode (c : BitVec 5) : Option Ty :=
  match c.toNat with
  | 1 => some .i8 | 2 => some .i16 | 3 => some .i32 | 4 => some .i64 | 5 => some .n8
  | 6 => some .n16 | 7 => some .n32 | 8 => some .n64 | 9 => some .b32 | 10 => some .b64
  | 11 => some .f16 | 12 => some .bf16 | 13 => some .f32 | 14 => some .f64 | 15 => some .e4m3
  | 16 => some .e5m2 | 17 => some .e3m2 | 18 => some .e2m3 | 19 => some .e2m1 | 20 => some .bfp2
  | 21 => some .bfp3 | 22 => some .bfp4 | 23 => some .bfp5 | 24 => some .bfp6 | 25 => some .bfp7
  | 26 => some .bfp8 | _ => none

/-- Width of a type in bits (08 R280); a block value is held in 32 bits of a register (11 R392). -/
def tyBits : Ty → Nat
  | .i8 | .n8 | .e4m3 | .e5m2 => 8
  | .i16 | .n16 | .f16 | .bf16 => 16
  | .i32 | .n32 | .b32 | .f32 => 32
  | .i64 | .n64 | .b64 | .f64 => 64
  | .e3m2 | .e2m3 => 6
  | .e2m1 => 4
  | .bfp2 | .bfp3 | .bfp4 | .bfp5 | .bfp6 | .bfp7 | .bfp8 => 32

/-- A type whose operands are register pairs (10 R337). -/
def tyWide (t : Ty) : Bool := tyBits t == 64

/-- The signed integer types. -/
def tySigned : Ty → Bool
  | .i8 | .i16 | .i32 | .i64 => true
  | _ => false

/-- The integer types. -/
def tyInt : Ty → Bool
  | .i8 | .i16 | .i32 | .i64 | .n8 | .n16 | .n32 | .n64 => true
  | _ => false

/-- Bits that a narrow element takes in a register or in memory (08 R282): FP6 elements take a byte. -/
def elemBits : Ty → Nat
  | .e3m2 | .e2m3 => 8
  | t => tyBits t

/-- Mantissa width m of a block type. -/
def bfpBits : Ty → Option Nat
  | .bfp2 => some 2 | .bfp3 => some 3 | .bfp4 => some 4 | .bfp5 => some 5 | .bfp6 => some 6
  | .bfp7 => some 7 | .bfp8 => some 8
  | _ => none

/-- Access size in bytes of a type of 10 R357; none for the others. -/
def memSize : Ty → Option Nat
  | .i8 | .n8 => some 1
  | .i16 | .n16 | .f16 | .bf16 => some 2
  | .i32 | .n32 | .b32 | .f32 => some 4
  | .i64 | .n64 | .b64 | .f64 => some 8
  | _ => none

/-- Register specifiers (09 R312). -/
def regCode : Reg → BitVec 8
  | .v n => BitVec.ofNat 8 n.val
  | .s n => BitVec.ofNat 8 (0x80 + n.val)
  | .a n => BitVec.ofNat 8 (0xC0 + n.val)
  | .k n => BitVec.ofNat 8 (0xD0 + n.val)
  | .zero => 0xF0
  | .lane => 0xF1

/-- Register of a specifier; the codes of 09 R312 that name none are reserved. -/
def regOfCode (c : BitVec 8) : Option Reg :=
  if h : c.toNat < 128 then some (.v ⟨c.toNat, h⟩)
  else if h : c.toNat - 128 < 64 then some (.s ⟨c.toNat - 128, h⟩)
  else if h : c.toNat - 192 < 16 then some (.a ⟨c.toNat - 192, h⟩)
  else if h : c.toNat - 208 < 12 then some (.k ⟨c.toNat - 208, h⟩)
  else if c = 0xF0 then some .zero
  else if c = 0xF1 then some .lane
  else none

/-- Predicate codes (09 R311). -/
def predCode : Pred → BitVec 5
  | .always => 0
  | .bitSet k => BitVec.ofNat 5 (1 + k.val)
  | .bitClear k => BitVec.ofNat 5 (0x11 + k.val)

/-- Predicate of a code; 0x0D to 0x10 and 0x1D to 0x1F are reserved (09 R311). -/
def predOfCode (c : BitVec 5) : Option Pred :=
  if c.toNat = 0 then some .always
  else if h : c.toNat - 1 < 12 then some (.bitSet ⟨c.toNat - 1, h⟩)
  else if c.toNat < 0x11 then none
  else if h : c.toNat - 0x11 < 12 then some (.bitClear ⟨c.toNat - 0x11, h⟩)
  else none

/-- Scope codes (09 R320). -/
def scopeCode : Scope → BitVec 3
  | .clutch => 0 | .core => 1 | .column => 2 | .die => 3 | .pkg => 4 | .sys => 5

/-- Scope of a code; 6 and 7 are reserved. -/
def scopeOfCode (c : BitVec 3) : Option Scope :=
  match c.toNat with
  | 0 => some .clutch | 1 => some .core | 2 => some .column | 3 => some .die | 4 => some .pkg
  | 5 => some .sys | _ => none

/-- Rank of a scope: a wider scope has the higher rank (00 R3). -/
def scopeRank (s : Scope) : Nat := (scopeCode s).toNat

/-- Rounding codes (09 R320). -/
def rndCode : Rnd → BitVec 3
  | .mode => 0 | .rne => 1 | .rtz => 2 | .rup => 3 | .rdn => 4 | .rna => 5 | .sr => 6

/-- Rounding of a code; 7 is reserved. -/
def rndOfCode (c : BitVec 3) : Option Rnd :=
  match c.toNat with
  | 0 => some .mode | 1 => some .rne | 2 => some .rtz | 3 => some .rup | 4 => some .rdn
  | 5 => some .rna | 6 => some .sr | _ => none

/-- Comparison codes (10 R338). -/
def cmpCode : Cmp → BitVec 3
  | .eq => 0 | .ne => 1 | .lt => 2 | .le => 3 | .gt => 4 | .ge => 5

/-- Comparison of a code; 6 and 7 are reserved. -/
def cmpOfCode (c : BitVec 3) : Option Cmp :=
  match c.toNat with
  | 0 => some .eq | 1 => some .ne | 2 => some .lt | 3 => some .le | 4 => some .gt
  | 5 => some .ge | _ => none

/-- Ordering and scope fields of a memory access: ORD [4:3], SCOPE [2:0] (09 R317, R320). -/
def mordCode : MOrd → BitVec 5
  | .relaxed => 0
  | .acq s => 1#2 ++ scopeCode s
  | .rel s => 2#2 ++ scopeCode s
  | .ar s => 3#2 ++ scopeCode s

/-- Ordering of ORD and SCOPE; a non-zero SCOPE with ORD 0 is refused (09 R317). -/
def mordOfCode (c : BitVec 5) : Option MOrd :=
  match (c.extractLsb' 3 2).toNat, scopeOfCode (c.extractLsb' 0 3) with
  | 0, _ => if c = 0 then some .relaxed else none
  | 1, some s => some (.acq s)
  | 2, some s => some (.rel s)
  | 3, some s => some (.ar s)
  | _, _ => none

/-- Type of a matrix format code 1 to 9 and 12 to 18 (11 R396); codes 10, 11 and 19 are INT8, INT4, INT32. -/
def mfmtTy (c : Nat) : Option Ty :=
  match c with
  | 1 => some .f64 | 2 => some .f32 | 3 => some .bf16 | 4 => some .f16 | 5 => some .e4m3
  | 6 => some .e5m2 | 7 => some .e3m2 | 8 => some .e2m3 | 9 => some .e2m1
  | 12 => some .bfp2 | 13 => some .bfp3 | 14 => some .bfp4 | 15 => some .bfp5 | 16 => some .bfp6
  | 17 => some .bfp7 | 18 => some .bfp8
  | _ => none

/-- The float formats: exponent bits and mantissa bits (08 R280); `none` for the other types. -/
def fltShape : Ty → Option (Nat × Nat)
  | .f64 => some (11, 52) | .f32 => some (8, 23) | .bf16 => some (8, 7) | .f16 => some (5, 10)
  | .e5m2 => some (5, 2) | .e4m3 => some (4, 3) | .e3m2 => some (3, 2) | .e2m3 => some (2, 3)
  | .e2m1 => some (2, 1)
  | _ => none

/-- Float target `d` holds every value of float source `s` (08 R295). -/
def holdsAll (d s : Ty) : Bool :=
  d == s ||
  match d, s with
  | .f64, .f32 | .f64, .bf16 | .f64, .f16 | .f64, .e5m2 | .f64, .e4m3 | .f64, .e3m2 | .f64, .e2m3
  | .f64, .e2m1 => true
  | .f32, .bf16 | .f32, .f16 | .f32, .e5m2 | .f32, .e4m3 | .f32, .e3m2 | .f32, .e2m3
  | .f32, .e2m1 => true
  | .bf16, .e5m2 | .bf16, .e4m3 | .bf16, .e3m2 | .bf16, .e2m3 | .bf16, .e2m1 => true
  | .f16, .e5m2 | .f16, .e4m3 | .f16, .e3m2 | .f16, .e2m3 | .f16, .e2m1 => true
  | .e5m2, .e3m2 | .e5m2, .e2m1 => true
  | .e4m3, .e3m2 | .e4m3, .e2m3 | .e4m3, .e2m1 => true
  | .e3m2, .e2m1 | .e2m3, .e2m1 => true
  | _, _ => false

/-- A conversion narrows unless 08 R295 lists it as exact (11 R383). -/
def narrows (d s : Ty) : Bool :=
  match fltShape d, fltShape s with
  | some _, some _ => !holdsAll d s
  | _, _ => true

end Sys2Proof.Machine
end

