-- ==== Sys2Proof/Machine/WordCheck.lean ====
section
/-! DEFINITION. Check 2 of 09 R326 for every instruction word: types and function codes (R318, R319), classes of
every field (R312, R313, 10 R337), immediates (R316). A word that fails any of them is ILLEGAL. -/

namespace Sys2Proof.Machine

/-- Even number, as a 64-bit operand needs (09 R313). -/
def regEven : Reg → Bool
  | .v n => n.val % 2 == 0
  | .s n => n.val % 2 == 0
  | _ => true

def isVec : Reg → Bool | .v _ => true | _ => false
def isScl : Reg → Bool | .s _ => true | _ => false
def isAdr : Reg → Bool | .a _ => true | _ => false
def isMsk : Reg → Bool | .k _ => true | _ => false

/-- Uniform sources: scalar, address and mask registers and `zero` (09 R313). -/
def isUni : Reg → Bool | .v _ => false | .lane => false | _ => true

/-- A data destination (10 R337): vector, scalar or `zero`, even when the type is wide. -/
def okDst (wide : Bool) (d : Reg) : Bool :=
  (isVec d || isScl d || d == .zero) && (!wide || regEven d)

/-- A destination that is a vector or a scalar register. -/
def okDstVS (wide : Bool) (d : Reg) : Bool := (isVec d || isScl d) && (!wide || regEven d)

/-- A data source (10 R337) whose destination is vector-like when `vd`. -/
def okSrc (vd wide : Bool) (r : Reg) : Bool :=
  (match r with
   | .v _ => vd | .lane => vd | .s _ => true | .zero => true | _ => false) && (!wide || regEven r)

/-- The destination takes the sources of a vector D: it is a vector register or `zero` (log 13). -/
def vecLike (d : Reg) : Bool := isVec d || d == .zero

/-- imm19 is an operand of the type (09 R316). -/
def okImm19 (t : Ty) (i : BitVec 19) : Bool :=
  match t with
  | .f16 | .bf16 => i.extractLsb' 16 3 == 0
  | .i8 | .i16 | .i32 | .i64 | .n8 | .n16 | .n32 | .n64 | .b32 | .b64 | .f32 | .f64 => true
  | _ => false

/-- Register source or imm19 of type t (09 R315). -/
def okOpnd (vd : Bool) (t : Ty) (b : Opnd) : Bool :=
  match b with
  | .reg r => okSrc vd (tyWide t) r
  | .imm i => okImm19 t i

/-- 32-bit register source or imm19. -/
def okOpnd32 (vd : Bool) (b : Opnd) : Bool :=
  match b with
  | .reg r => okSrc vd false r
  | .imm _ => true

def okCmpOpnd (vd : Bool) (t : Ty) (b : CmpOpnd) : Bool :=
  match b with
  | .reg r => okSrc vd (tyWide t) r
  | .imm _ => true

/-- A base: an address register, an even vector or an even scalar register (09 R317). -/
def okBase (r : Reg) : Bool := isAdr r || ((isVec r || isScl r) && regEven r)

/-- A uniform base: an address register or an even scalar register. -/
def okBaseU (r : Reg) : Bool := isAdr r || (isScl r && regEven r)

/-- A memory operand (09 R317); uniform when the destination is scalar (10 R358). -/
def okMem (uni : Bool) (m : MemOp) : Bool :=
  (if uni then okBaseU m.base else okBase m.base) &&
  (if uni then isScl m.idx || m.idx == .zero else isVec m.idx || isScl m.idx || m.idx == .zero)

def tyI (t : Ty) : Bool := t == .i32 || t == .n32 || t == .i64 || t == .n64
def tyB (t : Ty) : Bool := t == .b32 || t == .b64
def tyF (t : Ty) : Bool := t == .f16 || t == .bf16 || t == .f32 || t == .f64

def okBin (tys : Ty → Bool) (t : Ty) (d a : Reg) (b : Opnd) : Bool :=
  tys t && okDst (tyWide t) d && okSrc (vecLike d) (tyWide t) a && okOpnd (vecLike d) t b

def okShift (tys : Ty → Bool) (t : Ty) (d a : Reg) (b : Opnd) : Bool :=
  tys t && okDst (tyWide t) d && okSrc (vecLike d) (tyWide t) a && okOpnd32 (vecLike d) b

def okUn (tys : Ty → Bool) (t : Ty) (d a : Reg) : Bool :=
  tys t && okDst (tyWide t) d && okSrc (vecLike d) (tyWide t) a

/-- Rounding of an FP instruction that does not narrow: never stochastic, and code 0 with an immediate (11 R383). -/
def okRnd (rm : Rnd) (b : Opnd) : Bool :=
  rm != .sr && (match b with | .reg _ => true | .imm _ => rm == .mode)

def okFBin (t : Ty) (rm : Rnd) (d a : Reg) (b : Opnd) : Bool := okBin tyF t d a b && okRnd rm b

def isRelaxed : MOrd → Bool | .relaxed => true | _ => false
def ordAcq : MOrd → Bool | .relaxed => true | .acq _ => true | _ => false
def ordRel : MOrd → Bool | .relaxed => true | .rel _ => true | _ => false

def okLd (t : Ty) (o : MOrd) (d : Reg) (m : MemOp) : Bool :=
  (memSize t).isSome && ordAcq o && okDst (tyWide t) d && okMem (isScl d) m

def vecCount : VecN → Nat | .x2 => 2 | .x4 => 4 | .x8 => 8 | .x16 => 16

/-- Register range of `ldv` and `stv` (10 R361). -/
def okVecRange (n : VecN) (d : Reg) : Bool :=
  match d with
  | .v k => k.val % vecCount n == 0 && ((k.val < 16) == (k.val + vecCount n - 1 < 16))
  | _ => false

/-- Types of an atomic operation (10 R365). -/
def okAtomTy (op : AtomOp) (t : Ty) : Bool :=
  match op with
  | .add | .sub | .min | .max => tyI t
  | .and | .or | .xor | .xchg | .cas => tyB t
  | .incw | .decw => t == .n32
  | .fadd | .fmin | .fmax => t == .f32 || t == .f64

def okAtomB (t : Ty) (b : Reg) : Bool :=
  (isVec b || isScl b || b == .zero) && (!tyWide t || regEven b)

/-- Types of a reduction (10 R350). -/
def okRedTy (op : RedOp) (t : Ty) : Bool :=
  match op with
  | .add | .min | .max => tyI t || t == .f32
  | _ => tyB t

/-- The pairing and element rules of `fcvt` (11 R390). -/
def okFcvt (dt st : Ty) (rm : Rnd) (elem : BitVec 3) : Bool :=
  let ff := fun t => t == Ty.f32 || t == .f16 || t == .bf16
  (match bfpBits dt, bfpBits st with
   | none, none => (fltShape dt).isSome && (fltShape st).isSome
   | some _, none => ff st
   | none, some _ => ff dt
   | some _, some _ => false) &&
  (rm != .sr || narrows dt st) &&
  (if (bfpBits st).isSome || tyBits st ≥ 32 then elem == 0 else elem.toNat < 32 / elemBits st)

/-- The pairing of `icvt` (11 R393). -/
def okIcvt (dt st : Ty) : Bool := (tyInt dt && tyF st) || (tyF dt && tyInt st)

def okFpkTy (t : Ty) : Bool :=
  t == .f16 || t == .bf16 || t == .e4m3 || t == .e5m2 || t == .e3m2 || t == .e2m3 || t == .e2m1

/-- System registers (12 R449): width, per lane, lowest privilege that reads, lowest that writes, host cores only. -/
structure SysInfo where
  width   : Nat
  perLane : Bool
  read    : Nat
  write   : Option Nat
  host    : Bool
  deriving DecidableEq, Repr

/-- The table of system registers (12 R449). -/
def sysInfo (n : Nat) : Option SysInfo :=
  match n with
  | 0x000 => some ⟨64, false, 0, none, false⟩
  | 0x001 => some ⟨32, false, 0, some 0, false⟩
  | 0x002 => some ⟨32, false, 0, some 0, false⟩
  | 0x003 => some ⟨32, false, 0, none, false⟩
  | 0x004 => some ⟨32, false, 0, some 0, false⟩
  | 0x005 => some ⟨32, false, 0, none, false⟩
  | 0x006 => some ⟨32, true, 0, some 0, false⟩
  | 0x007 => some ⟨32, false, 0, some 1, false⟩
  | 0x008 | 0x009 | 0x00A | 0x00B | 0x00C | 0x00D | 0x00E | 0x00F => some ⟨32, true, 0, none, false⟩
  | 0x010 | 0x011 => some ⟨32, false, 0, none, false⟩
  | 0x012 => some ⟨64, false, 0, some 0, false⟩
  | 0x013 => some ⟨64, false, 0, none, false⟩
  | 0x014 => some ⟨64, false, 0, none, false⟩
  | 0x020 => some ⟨64, false, 0, some 0, false⟩
  | 0x021 => some ⟨32, false, 0, none, false⟩
  | 0x022 => some ⟨64, false, 0, none, false⟩
  | 0x023 => some ⟨32, false, 0, none, false⟩
  | 0x030 => some ⟨64, false, 0, some 0, true⟩
  | 0x031 => some ⟨64, false, 1, some 1, true⟩
  | 0x032 => some ⟨64, false, 2, some 2, true⟩
  | 0x033 | 0x034 => some ⟨64, false, 1, some 1, true⟩
  | 0x035 | 0x036 | 0x037 | 0x038 => some ⟨32, false, 1, some 1, true⟩
  | 0x039 => some ⟨64, false, 1, some 1, true⟩
  | 0x040 => some ⟨64, false, 1, some 1, false⟩
  | 0x041 => some ⟨64, false, 1, none, false⟩
  | 0x042 | 0x043 | 0x044 | 0x045 => some ⟨64, false, 1, some 2, false⟩
  | 0x046 | 0x047 => some ⟨64, false, 1, none, false⟩
  | 0x048 | 0x049 => some ⟨64, false, 2, some 2, true⟩
  | _ => none

def okSysr (d : Reg) (n : BitVec 12) : Bool :=
  match sysInfo n.toNat with
  | none => false
  | some i => (if i.perLane then isVec d else isVec d || isScl d) && (i.width != 64 || regEven d)

def okSysw (n : BitVec 12) (a : Reg) : Bool :=
  match sysInfo n.toNat with
  | none => false
  | some i => i.write.isSome && (if i.perLane then isVec a else isScl a) && (i.width != 64 || regEven a)

/-- A slot source for destination d (09 R323). -/
def okSlotSrc (d s : Reg) : Bool := okSrc (isVec d) false s

/-- Operands of one slot of a dual word (09 R323). -/
def okSlot : Slot → Bool
  | .bin _ d s => okDstVS false d && okSlotSrc d s
  | .binImm op d s i => okDstVS false d && okSlotSrc d s &&
      (match op with | .shl | .shr | .sar => i.toNat < 32 | _ => true)
  | .un _ d s => okDstVS false d && okSlotSrc d s
  | .movi d _ => okDstVS false d
  | .aadv _ _ => true
  | .kop _ _ _ => true
  | .kcmp _ _ s _ => isVec s || isScl s
  | .nop => true

/-- Rule "the scalar destination of four registers": a multiple of 4 (12 R442, R447). -/
def okQuad : Reg → Bool | .s n => n.val % 4 == 0 | _ => false

def noB (b : Opnd) : Bool := b == .reg (.v 0)

/-- Check 2 of 09 R326. The steps of the other agents carry no word: always true of them. -/
def wordOk : Instr → Bool
  | .add _ t d a b | .sub _ t d a b | .mul _ t d a b | .mulh _ t d a b | .div _ t d a b
  | .rem _ t d a b | .min _ t d a b | .max _ t d a b => okBin tyI t d a b
  | .addc _ d a b c | .subb _ d a b c =>
      okDst true d && okSrc (vecLike d) false a && okSrc (vecLike d) false b && okOpnd32 (vecLike d) c
  | .mad _ t d a b c => okBin tyI t d a c && okSrc (vecLike d) (tyWide t) b
  | .neg _ t d a | .abs _ t d a => okUn (fun t => t == .i32 || t == .i64) t d a
  | .and _ t d a b | .or _ t d a b | .xor _ t d a b | .andn _ t d a b => okBin tyB t d a b
  | .not _ t d a | .brev _ t d a => okUn tyB t d a
  | .shl _ t d a b | .shr _ t d a b | .rotl _ t d a b => okShift tyB t d a b
  | .sar _ t d a b => okShift (fun t => t == .i32 || t == .i64) t d a b
  | .clz _ t d a | .ctz _ t d a | .popc _ t d a =>
      tyB t && okDst false d && okSrc (vecLike d) (tyWide t) a
  | .bfx _ t d a b c => okShift tyI t d a c && okSrc (vecLike d) false b
  | .bfi _ t d a b c => okShift tyB t d a c && okSrc (vecLike d) false b
  | .sel _ t d a b c => okShift tyB t d a c && okSrc (vecLike d) (tyWide t) b
  | .cmp _ _ t d a b => tyI t && okDst false d && okSrc (vecLike d) (tyWide t) a && okCmpOpnd (vecLike d) t b
  | .isat _ t src d a =>
      (t == .i8 || t == .i16 || t == .i32 || t == .n8 || t == .n16 || t == .n32) && tyI src &&
      okDst false d && okSrc (vecLike d) (tyWide src) a
  | .aset _ _ _ _ d a b c => isAdr d && isScl a && regEven a && isScl b && regEven b &&
      (c == .zero || (isScl c && regEven c))
  | .aadv _ d a b => isAdr d && isAdr a && (match b with | .reg r => isScl r | .imm _ => true)
  | .aget _ f d a => okDstVS (f != .perm) d && isAdr a
  | .amov _ d a => isAdr d && isAdr a
  | .mov _ t d a =>
      (t == .b32 && okDst false d || t == .b32 && isMsk d || t == .b64 && okDst true d) &&
      (match a with
       | .v _ => true | .lane => true | .s _ => true | .zero => true | .k _ => t == .b32 | .a _ => false) &&
      (vecLike d || isUni a) && (!tyWide t || regEven a)
  | .movi _ d _ | .movh _ d _ => okDstVS false d
  | .shfl _ _ t d a b => tyB t && isVec d && isVec a && (!tyWide t || (regEven d && regEven a)) &&
      (match b with | .reg r => isVec r || isScl r || r == .zero | .imm _ => true)
  | .bcast _ t d a b => tyB t && okDstVS (tyWide t) d && isVec a && (!tyWide t || regEven a) &&
      (match b with | .reg r => isScl r | .imm _ => true)
  | .vote _ f d a =>
      (match f with
       | .ballot => okDstVS false d || isMsk d
       | _ => okDstVS false d) &&
      (match f with | .lead => a == .zero | _ => okSrc true false a)
  | .redux _ op t d a => okRedTy op t && okDstVS (tyWide t) d && okSrc true (tyWide t) a
  | .scan _ op _ t d a => okRedTy op t && isVec d && (!tyWide t || regEven d) && okSrc true (tyWide t) a
  | .pack _ t _ d a b =>
      (t == .i16 || t == .n16 || t == .i8 || t == .n8) && okDstVS false d && okSrc (isVec d) false a &&
      (match b with | .reg r => okSrc (isVec d) false r | .imm _ => true)
  | .unpack _ t d a b =>
      (t == .i16 || t == .n16 || t == .i8 || t == .n8) && okDstVS false d && okSrc (isVec d) false a &&
      okOpnd32 (isVec d) b
  | .br _ _ | .ret _ | .exit _ | .yield _ | .nop _ | .kjoin _ _ | .kleave _ _ | .kwait _ _ => true
  | .brx _ a => okBase a
  | .call _ n _ => 1 ≤ n.toNat && n.toNat ≤ 13
  | .callx _ n a => 1 ≤ n.toNat && n.toNat ≤ 13 && okBase a
  | .kop _ op _ a b =>
      (isMsk a || isScl a || a == .zero) &&
      (match op with
       | .mov | .not => noB b
       | _ => match b with | .reg r => isMsk r || isScl r || r == .zero | .imm _ => true)
  | .kcmp _ _ t _ a b => tyI t && okSrc true (tyWide t) a && okCmpOpnd true t b
  | .ld _ t o d m => okLd t o d m
  | .ldx _ t o d m => okLd t o d m && m.pol.isSome
  | .st _ t o d m => (memSize t).isSome && ordRel o && okSrc true (tyWide t) d && okMem false m
  | .ldv _ n d m | .stv _ n d m => okVecRange n d && okMem false m
  | .prf _ _ m => okMem false m
  | .fence _ _ _ => true
  | .cwb _ m | .cinv _ m => (match m with | some m => okMem false m && m.pol.isNone | none => true)
  | .qpush _ t d _ | .qpop _ t d _ =>
      (memSize t).isSome && !tyF t && isVec d && (!tyWide t || regEven d)
  | .qcfgSet _ a _ => isScl a && regEven a
  | .qcfgGet _ d _ => isScl d && regEven d
  | .atom _ op t _ d base b =>
      okAtomTy op t && okBase base && okAtomB t b && (!tyWide t || regEven d) &&
      (match op with | .cas => isVec d | _ => isVec d || d == .zero)
  | .red _ op t o base b =>
      okAtomTy op t && ordRel o && okBase base && okAtomB t b && op != .xchg && op != .cas
  | .atxBegin _ d _ | .atxEnd _ d | .atxStat _ d => isScl d
  | .atxAbort _ _ => true
  | .atxPin _ a => isVec a || isScl a
  | .fadd _ t rm d a b | .fsub _ t rm d a b | .fmul _ t rm d a b | .fdiv _ t rm d a b => okFBin t rm d a b
  | .fma _ t rm d a b c => okFBin t rm d a c && okSrc (vecLike d) (tyWide t) b
  | .fsqrt _ t rm d a | .frnd _ t rm d a => okUn tyF t d a && rm != .sr
  | .frcp _ d a | .frsq _ d a | .fex2 _ d a | .flg2 _ d a | .fsin _ d a | .fcos _ d a =>
      okDst false d && okSrc (vecLike d) false a
  | .fmin _ t d a b | .fmax _ t d a b => okBin tyF t d a b
  | .fcmp _ _ t d a b => tyF t && (okDst false d || isMsk d) &&
      okSrc (vecLike d || isMsk d) (tyWide t) a && okCmpOpnd (vecLike d || isMsk d) t b
  | .fcls _ t d a => tyF t && okDst false d && okSrc (vecLike d) (tyWide t) a
  | .fscl _ t rm d a b => okShift tyF t d a b && okRnd rm b
  | .fcvt _ dt st rm _ elem d a => okFcvt dt st rm elem && okDst (tyWide dt) d && okSrc (vecLike d) (tyWide st) a
  | .icvt _ dt st _ _ d a => okIcvt dt st && okDst (tyWide dt) d && okSrc (vecLike d) (tyWide st) a
  | .fdot2 _ t rm d a b c => (t == .f16 || t == .bf16) && rm != .sr && okDst false d &&
      okSrc (vecLike d) false a && okSrc (vecLike d) false b && okSrc (vecLike d) false c
  | .fdot4 _ t rm d a b c => (t == .e4m3 || t == .e5m2 || t == .e3m2 || t == .e2m3) && rm != .sr &&
      okDst false d && okSrc (vecLike d) false a && okSrc (vecLike d) false b && okSrc (vecLike d) false c
  | .fpk _ t _ _ d a b => okFpkTy t && okDstVS false d && okSrc (isVec d) false a &&
      (match b with | .reg r => okSrc (isVec d) false r | .imm _ => true)
  | .mjob _ _ a b => okBase a && (isVec b || isScl b)
  | .mcmp _ fmt _ d a m => 2 ≤ fmt.toNat && fmt.toNat ≤ 18 && isVec d && isVec a && isScl m
  | .mplane _ a b c => isScl a && regEven a && isVec b && isScl c
  | .mnplane _ d a c => isVec d && isScl a && regEven a && isScl c
  | .mscl _ fmt st _ d a => 5 ≤ fmt.toNat && fmt.toNat ≤ 9 && (st == .f16 || st == .bf16 || st == .f32) &&
      okDstVS false d && okSrc true false a
  | .ringCfg _ _ a => isScl a && regEven a
  | .ringAcq _ _ _ d => okDstVS false d
  | .ringRel _ _ _ => true
  | .cpy _ _ a | .astr _ _ a | .nmeGth _ _ a | .nmeRed _ _ a | .nmeCvt _ _ a | .winst _ _ a => okBase a
  | .wqry _ d a => okDstVS true d && okBase a && (isVec d || isUni a)
  | .tlwait _ _ a => a == .zero || (isScl a && regEven a)
  | .tlget _ _ d _ | .tlgetClr _ d _ => okDstVS true d
  | .vfsend _ a => isVec a
  | .vfrecv _ d => isVec d
  | .vffree _ d => okDstVS false d
  | .leap _ a => okBase a
  | .launch _ _ a b => okBaseU a && okBaseU b
  | .join _ d a => okQuad d && okBaseU a
  | .barArr _ _ cnt => 1 ≤ cnt.toNat && cnt.toNat ≤ 48
  | .barWait _ _ => true
  | .sbarArr _ a | .sbarWait _ a | .wake _ a => okBase a
  | .waitaddr _ _ _ t a b => tyI t && okBase a && (b == .zero || (isScl b && (!tyWide t || regEven b)))
  | .deqInit _ a b lc => okBase a && isScl b && regEven b && 1 ≤ lc.toNat && lc.toNat ≤ 24
  | .deqPush _ a b => okBase a && isScl b && regEven b
  | .deqPop _ d a | .deqSteal _ d a => okQuad d && okBase a
  | .sysr _ d n => okSysr d n
  | .sysw _ n a => okSysw n a
  | .scall _ _ | .brk _ _ | .tret _ | .wfi _ | .icinvAll _ | .halt _ => true
  | .tlbinvVa _ _ a => isScl a && regEven a
  | .tlbinvCtx _ _ | .tlbinvAll _ => true
  | .icinvLine _ a => okBase a
  | .ipi _ a => isScl a
  | .dualWord _ s0 s1 => okSlot s0 && okSlot s1
  | .issueCycle .. | .longResultWrite .. | .kwaitRelease .. | .queueWaitResume .. | .ringAcqResume ..
  | .vfifoWaitResume .. | .tlwaitReturn .. | .joinReturn .. | .waitaddrReread .. | .sbarWaitResume ..
  | .barWaitResume .. | .launchQueueResume .. | .leapLand .. | .registerRecall .. | .windowParking ..
  | .regionCommit .. | .engineAsyncDelivery .. | .interruptEntry .. | .timerExpiry .. | .copyChunk ..
  | .streamElement .. | .nmeCommandRun .. | .matrixTile .. | .matrixJobComplete ..
  | .engineCommandComplete .. | .installStart .. | .installUnitProgram .. | .installCommit ..
  | .installComplete .. | .readingRoomFill .. | .cacheFill .. | .l1EvictTimeout .. | .cwqDrain ..
  | .transientRequest .. | .tokenResponse .. | .transientTimeout .. | .persistentActivate ..
  | .persistentDeactivate .. | .tokenWriteback .. | .syncEngineAtomic .. | .pageWalk .. | .pagerRecord
  | .pgfDoneWrite .. | .pgfHeadWrite .. | .promoGo .. | .promotionComplete .. | .tokenEnqueue ..
  | .launchRecordCheck .. | .dependenceEvaluation .. | .preTranslation .. | .gangReserve ..
  | .gangDispatch .. | .preemption .. | .preemptResume .. | .requeue .. | .migrationRequest ..
  | .migration .. | .taskTermination .. | .ctxRefresh .. | .ctxKill .. | .killComplete
  | .llCfgWrite .. | .cxlMemWrite .. | .cxlMemRead .. | .bar0Access .. | .ualinkRequest ..
  | .registerWrite .. | .vbusBeat .. | .vbusRepair .. | .bankRead .. | .bankPartialWrite ..
  | .patrolScrub .. | .scrubCfgWrite .. | .powerEstimate | .weightRefit .. | .capLoopPass ..
  | .thermalStepDown .. | .thermalStepUp .. | .rampGuardTick .. | .ballastStop | .valvePass
  | .valveForceWrite .. | .coolantAlarm .. | .emergencyBegin .. | .emergencyEnd | .emergencyTimeout
  | .capFrame .. | .partMapWrite .. | .partCfgWrite .. | .devCapWrite .. | .curLimWrite ..
  | .govTjWrite .. | .govTbWrite .. | .mgmtSemAcquire .. | .mgmtSemRelease .. | .mgmtLeaseExpiry
  | .logClear .. | .logIndexSet .. | .hbmSplitLock .. | .wearSetWrite .. | .corePgWrite ..
  | .coreGate .. | .coreUngate .. | .widthChangeRequest .. | .widthChange .. | .reset
  | .firmwareImage .. | .spdmRequest .. | .powerLoss | .cxlCacheSnoop .. | .sensorRefresh .. => true

/-- Does the constructor stand for an instruction word (09), and not for a step of another agent (95)? -/
def isWord : Instr → Bool
  | .issueCycle .. | .longResultWrite .. | .kwaitRelease .. | .queueWaitResume .. | .ringAcqResume ..
  | .vfifoWaitResume .. | .tlwaitReturn .. | .joinReturn .. | .waitaddrReread .. | .sbarWaitResume ..
  | .barWaitResume .. | .launchQueueResume .. | .leapLand .. | .registerRecall .. | .windowParking ..
  | .regionCommit .. | .engineAsyncDelivery .. | .interruptEntry .. | .timerExpiry .. | .copyChunk ..
  | .streamElement .. | .nmeCommandRun .. | .matrixTile .. | .matrixJobComplete ..
  | .engineCommandComplete .. | .installStart .. | .installUnitProgram .. | .installCommit ..
  | .installComplete .. | .readingRoomFill .. | .cacheFill .. | .l1EvictTimeout .. | .cwqDrain ..
  | .transientRequest .. | .tokenResponse .. | .transientTimeout .. | .persistentActivate ..
  | .persistentDeactivate .. | .tokenWriteback .. | .syncEngineAtomic .. | .pageWalk .. | .pagerRecord
  | .pgfDoneWrite .. | .pgfHeadWrite .. | .promoGo .. | .promotionComplete .. | .tokenEnqueue ..
  | .launchRecordCheck .. | .dependenceEvaluation .. | .preTranslation .. | .gangReserve ..
  | .gangDispatch .. | .preemption .. | .preemptResume .. | .requeue .. | .migrationRequest ..
  | .migration .. | .taskTermination .. | .ctxRefresh .. | .ctxKill .. | .killComplete
  | .llCfgWrite .. | .cxlMemWrite .. | .cxlMemRead .. | .bar0Access .. | .ualinkRequest ..
  | .registerWrite .. | .vbusBeat .. | .vbusRepair .. | .bankRead .. | .bankPartialWrite ..
  | .patrolScrub .. | .scrubCfgWrite .. | .powerEstimate | .weightRefit .. | .capLoopPass ..
  | .thermalStepDown .. | .thermalStepUp .. | .rampGuardTick .. | .ballastStop | .valvePass
  | .valveForceWrite .. | .coolantAlarm .. | .emergencyBegin .. | .emergencyEnd | .emergencyTimeout
  | .capFrame .. | .partMapWrite .. | .partCfgWrite .. | .devCapWrite .. | .curLimWrite ..
  | .govTjWrite .. | .govTbWrite .. | .mgmtSemAcquire .. | .mgmtSemRelease .. | .mgmtLeaseExpiry
  | .logClear .. | .logIndexSet .. | .hbmSplitLock .. | .wearSetWrite .. | .corePgWrite ..
  | .coreGate .. | .coreUngate .. | .widthChangeRequest .. | .widthChange .. | .reset
  | .firmwareImage .. | .spdmRequest .. | .powerLoss | .cxlCacheSnoop .. | .sensorRefresh .. => false
  | _ => true

end Sys2Proof.Machine
end

