-- ==== Sys2Proof/WellFormed.lean ====
section
/-! DEFINITION. Well-formed instructions: those whose word passes check 2 of 09 R326. The checks themselves are in
Sys2Proof/Machine/WordCheck.lean. The steps of the other agents are always well-formed. -/

namespace Sys2Proof

/-- The instruction passes every check of its word that does not depend on the machine (09 R326, check 2). -/
def wellFormed (i : Instr) : Bool := Machine.wordOk i

/-- Well-formedness as a proposition. -/
abbrev WellFormed (i : Instr) : Prop := wellFormed i = true

end Sys2Proof
end

