-- ==== Sys2Proof/Decode.lean ====
section
/-! DEFINITION. The decoder (09 R308 to R328) on any 64-bit word and on any bytes, and after it the encoder, written
from the same tables of the spec. A refused word is refused by name. -/

namespace Sys2Proof

open Machine

/-- Why a word is refused: the checks 1 and 2 of 09 R326; both raise ILLEGAL. -/
inductive Reject where
  /-- Check 1: an unassigned opcode (09 R328) or slot opcode (09 R325). -/
  | unassigned
  /-- Check 2: a predicate, function code, specifier, unused field or field-C rule fails (09 R311 to R320). -/
  | badField
  /-- Check 2: a class, type or pairing rule of the instruction fails (09 R313, R316, R323). -/
  | badOperand
  /-- Fewer than eight bytes. -/
  | short
  deriving DecidableEq, Repr

/-- The fields of the full form (09 R310). -/
structure Fields where
  stop : Bool
  op   : BitVec 8
  pred : BitVec 5
  fn   : BitVec 5
  d    : BitVec 8
  a    : BitVec 8
  b    : BitVec 8
  c    : BitVec 20
  deriving DecidableEq, Repr

/-- Cut a full-form word into its fields (09 R310). -/
def fieldsOf (w : BitVec 64) : Fields where
  stop := w.getLsbD 63
  op   := w.extractLsb' 54 8
  pred := w.extractLsb' 49 5
  fn   := w.extractLsb' 44 5
  d    := w.extractLsb' 36 8
  a    := w.extractLsb' 28 8
  b    := w.extractLsb' 20 8
  c    := w.extractLsb' 0 20

/-- Lay fields out as a full-form word, form bit 0 (09 R310). -/
def wordOf (f : Fields) : BitVec 64 :=
  BitVec.ofBool f.stop ++ 0#1 ++ f.op ++ f.pred ++ f.fn ++ f.d ++ f.a ++ f.b ++ f.c

/-! ### Readers of one field -/

/-- The bits of an unused field are zero (09 R313). -/
def need (p : Bool) : Option Unit := if p then some () else none

/-- REG or IMM layout with the immediate in place of source b (09 R315). -/
def opndB (f : Fields) : Option Opnd :=
  if f.c.getLsbD 19 then
    if f.b = 0 then some (.imm (f.c.extractLsb' 0 19)) else none
  else if f.c = 0 then (regOfCode f.b).map .reg else none

/-- REG or IMM layout of a three-source word: source c or the immediate (09 R315). -/
def opndC (f : Fields) : Option Opnd :=
  if f.c.getLsbD 19 then some (.imm (f.c.extractLsb' 0 19))
  else if f.c.extractLsb' 8 11 = 0 then (regOfCode (f.c.extractLsb' 0 8)).map .reg else none

/-- RND layout with two sources (11 R383). -/
def rndB (f : Fields) : Option (Rnd × Opnd) :=
  if f.c.getLsbD 19 then
    if f.b = 0 then some (.mode, .imm (f.c.extractLsb' 0 19)) else none
  else if f.c.extractLsb' 0 16 = 0 then do
    let rm ← rndOfCode (f.c.extractLsb' 16 3)
    let r ← regOfCode f.b
    some (rm, .reg r)
  else none

/-- RND layout with three sources (11 R383). -/
def rndC (f : Fields) : Option (Rnd × Opnd) :=
  if f.c.getLsbD 19 then some (.mode, .imm (f.c.extractLsb' 0 19))
  else if f.c.extractLsb' 8 8 = 0 then do
    let rm ← rndOfCode (f.c.extractLsb' 16 3)
    let r ← regOfCode (f.c.extractLsb' 0 8)
    some (rm, .reg r)
  else none

/-- RND layout of a one-source instruction: C[19] = 0, [15:0] zero (11 R385, R389). -/
def rndOnly (f : Fields) : Option Rnd :=
  if f.b = 0 ∧ f.c.extractLsb' 19 1 = 0 ∧ f.c.extractLsb' 0 16 = 0 then rndOfCode (f.c.extractLsb' 16 3) else none

/-- CMP layout (10 R338). -/
def cmpB (f : Fields) : Option (Cmp × CmpOpnd) := do
  let cc ← cmpOfCode (f.c.extractLsb' 16 3)
  if f.c.getLsbD 19 then
    if f.b = 0 then some (cc, .imm (f.c.extractLsb' 0 16)) else none
  else if f.c.extractLsb' 0 16 = 0 then do
    let r ← regOfCode f.b
    some (cc, .reg r)
  else none

/-- A policy operand: PE and POL (09 R317). -/
def polOf (f : Fields) : Option (Option (Fin 64)) :=
  if f.c.getLsbD 14 then some (some ⟨(f.c.extractLsb' 8 6).toNat, (f.c.extractLsb' 8 6).isLt⟩)
  else if f.c.extractLsb' 8 6 = 0 then some none else none

/-- MEM layout: ordering and memory operand (09 R317). -/
def memOf (f : Fields) : Option (MOrd × MemOp) := do
  let o ← mordOfCode (f.c.extractLsb' 15 5)
  let base ← regOfCode f.a
  let idx ← regOfCode f.b
  let pol ← polOf f
  some (o, ⟨base, idx, pol, f.c.extractLsb' 0 8⟩)

/-- A register or a 5-bit immediate at bit `lo` of C, with I in C[19] (10 R347, R351, 11 R394). The caller checks
the other bits. -/
def opnd5 (lo : Nat) (f : Fields) : Option Opnd5 :=
  if f.c.getLsbD 19 then
    if f.b = 0 then some (.imm (f.c.extractLsb' lo 5)) else none
  else if f.c.extractLsb' lo 5 = 0 then (regOfCode f.b).map .reg else none

def finOf8 (c : BitVec 3) : Fin 8 := ⟨c.toNat, c.isLt⟩
def finOf16 (c : BitVec 4) : Fin 16 := ⟨c.toNat, c.isLt⟩

/-- A mask specifier. -/
def mskOf (c : BitVec 8) : Option (Fin 12) :=
  match regOfCode c with
  | some (.k n) => some n
  | _ => none

/-- An address specifier. -/
def adrOf (c : BitVec 8) : Option (Fin 16) :=
  match regOfCode c with
  | some (.a n) => some n
  | _ => none

/-! ### Shapes of instructions -/

/-- `op.T d, a, b` (10 R339). -/
def p2 (mk : Hdr → Ty → Reg → Reg → Opnd → Instr) (h : Hdr) (f : Fields) : Option Instr := do
  let t ← tyOfCode f.fn
  let d ← regOfCode f.d
  let a ← regOfCode f.a
  let b ← opndB f
  some (mk h t d a b)

/-- `op.T d, a` (10 R340). -/
def p1 (mk : Hdr → Ty → Reg → Reg → Instr) (h : Hdr) (f : Fields) : Option Instr := do
  let t ← tyOfCode f.fn
  let d ← regOfCode f.d
  let a ← regOfCode f.a
  need (f.b == 0 && f.c == 0)
  some (mk h t d a)

/-- `op.T d, a, b, c` (10 R341). -/
def p3 (mk : Hdr → Ty → Reg → Reg → Reg → Opnd → Instr) (h : Hdr) (f : Fields) : Option Instr := do
  let t ← tyOfCode f.fn
  let d ← regOfCode f.d
  let a ← regOfCode f.a
  let b ← regOfCode f.b
  let c ← opndC f
  some (mk h t d a b c)

/-- `addc` and `subb`: FN 7 (10 R342). -/
def p3n (mk : Hdr → Reg → Reg → Reg → Opnd → Instr) (h : Hdr) (f : Fields) : Option Instr := do
  need (f.fn == 7)
  let d ← regOfCode f.d
  let a ← regOfCode f.a
  let b ← regOfCode f.b
  let c ← opndC f
  some (mk h d a b c)

/-- `op.T.rm d, a, b` (11 R385). -/
def pf2 (mk : Hdr → Ty → Rnd → Reg → Reg → Opnd → Instr) (h : Hdr) (f : Fields) : Option Instr := do
  let t ← tyOfCode f.fn
  let d ← regOfCode f.d
  let a ← regOfCode f.a
  let (rm, b) ← rndB f
  some (mk h t rm d a b)

/-- `op.T.rm d, a` (11 R385, R389). -/
def pf1 (mk : Hdr → Ty → Rnd → Reg → Reg → Instr) (h : Hdr) (f : Fields) : Option Instr := do
  let t ← tyOfCode f.fn
  let d ← regOfCode f.d
  let a ← regOfCode f.a
  let rm ← rndOnly f
  some (mk h t rm d a)

/-- `op.f32 d, a` (11 R387). -/
def pfs (mk : Hdr → Reg → Reg → Instr) (h : Hdr) (f : Fields) : Option Instr := do
  need (f.fn == 13 && f.b == 0 && f.c == 0)
  let d ← regOfCode f.d
  let a ← regOfCode f.a
  some (mk h d a)

/-- A word whose every field but OP, PRED and S is zero (09 R328). -/
def p0 (i : Hdr → Instr) (h : Hdr) (f : Fields) : Option Instr := do
  need (f.fn == 0 && f.d == 0 && f.a == 0 && f.b == 0 && f.c == 0)
  some (i h)

/-- `op [base]`, only A used (12 R445, R446). -/
def pA (mk : Hdr → Reg → Instr) (h : Hdr) (f : Fields) : Option Instr := do
  need (f.fn == 0 && f.d == 0 && f.b == 0 && f.c == 0)
  let a ← regOfCode f.a
  some (mk h a)

/-- `op d`, only D used. -/
def pD (mk : Hdr → Reg → Instr) (h : Hdr) (f : Fields) : Option Instr := do
  need (f.fn == 0 && f.a == 0 && f.b == 0 && f.c == 0)
  let d ← regOfCode f.d
  some (mk h d)

/-- `op d, a`, FN 0 and C zero. -/
def pDA (mk : Hdr → Reg → Reg → Instr) (h : Hdr) (f : Fields) : Option Instr := do
  need (f.fn == 0 && f.b == 0 && f.c == 0)
  let d ← regOfCode f.d
  let a ← regOfCode f.a
  some (mk h d a)

/-- `op e, [base]` (12 R423). -/
def pE (mk : Hdr → Fin 8 → Reg → Instr) (h : Hdr) (f : Fields) : Option Instr := do
  need (f.fn == 0 && f.d == 0 && f.b == 0 && f.c.extractLsb' 3 17 == 0)
  let a ← regOfCode f.a
  some (mk h (finOf8 (f.c.extractLsb' 0 3)) a)

/-- `op kN` in D (10 R353). -/
def pK (mk : Hdr → Fin 12 → Instr) (h : Hdr) (f : Fields) : Option Instr := do
  need (f.fn == 0 && f.a == 0 && f.b == 0 && f.c == 0)
  let k ← mskOf f.d
  some (mk h k)

/-- `ld`, `st`, `ldx` (10 R358). -/
def pMem (mk : Hdr → Ty → MOrd → Reg → MemOp → Instr) (h : Hdr) (f : Fields) : Option Instr := do
  let t ← tyOfCode f.fn
  let d ← regOfCode f.d
  let (o, m) ← memOf f
  some (mk h t o d m)

/-- Register counts (10 R358). -/
def vecNOf (c : BitVec 5) : Option VecN :=
  match c.toNat with
  | 1 => some .x2 | 2 => some .x4 | 3 => some .x8 | 4 => some .x16 | _ => none

/-- `ldv`, `stv` (10 R358, R361). -/
def pVec (mk : Hdr → VecN → Reg → MemOp → Instr) (h : Hdr) (f : Fields) : Option Instr := do
  let n ← vecNOf f.fn
  let d ← regOfCode f.d
  let (o, m) ← memOf f
  need (isRelaxed o)
  some (mk h n d m)

/-- `cwb`, `cinv` (10 R358, R362). -/
def pCw (mk : Hdr → Option MemOp → Instr) (h : Hdr) (f : Fields) : Option Instr := do
  need (f.d == 0)
  match f.fn.toNat with
  | 0 => do
      let (o, m) ← memOf f
      need (isRelaxed o)
      some (mk h (some m))
  | 1 => do
      need (f.a == 0 && f.b == 0 && f.c == 0)
      some (mk h none)
  | _ => none

/-- `qpush`, `qpop` (10 R364). -/
def pQ (mk : Hdr → Ty → Reg → Fin 16 → Instr) (h : Hdr) (f : Fields) : Option Instr := do
  let t ← tyOfCode f.fn
  let d ← regOfCode f.d
  need (f.a == 0 && f.b == 0 && f.c.extractLsb' 4 16 == 0)
  some (mk h t d (finOf16 (f.c.extractLsb' 0 4)))

/-- Atomic operations (10 R365). -/
def atomOfCode (c : BitVec 4) : Option AtomOp :=
  match c.toNat with
  | 0 => some .add | 1 => some .sub | 2 => some .and | 3 => some .or | 4 => some .xor | 5 => some .min
  | 6 => some .max | 7 => some .xchg | 8 => some .cas | 9 => some .incw | 10 => some .decw
  | 11 => some .fadd | 12 => some .fmin | 13 => some .fmax | _ => none

def atomCode : AtomOp → BitVec 4
  | .add => 0 | .sub => 1 | .and => 2 | .or => 3 | .xor => 4 | .min => 5 | .max => 6 | .xchg => 7
  | .cas => 8 | .incw => 9 | .decw => 10 | .fadd => 11 | .fmin => 12 | .fmax => 13

/-- Operations of `redux` and `scan` (10 R350). -/
def redOfCode (c : BitVec 4) : Option RedOp :=
  match c.toNat with
  | 0 => some .add | 1 => some .min | 2 => some .max | 3 => some .and | 4 => some .or | 5 => some .xor
  | _ => none

def redCode : RedOp → BitVec 4
  | .add => 0 | .min => 1 | .max => 2 | .and => 3 | .or => 4 | .xor => 5

def shflOfCode (c : BitVec 2) : ShflMode :=
  match c.toNat with
  | 0 => .idx | 1 => .up | 2 => .down | _ => .xor

def shflCode : ShflMode → BitVec 2
  | .idx => 0 | .up => 1 | .down => 2 | .xor => 3

def voteOfCode (c : BitVec 5) : Option VoteFn :=
  match c.toNat with
  | 1 => some .ballot | 2 => some .any | 3 => some .all | 4 => some .uni | 5 => some .first
  | 6 => some .lead | _ => none

def voteCode : VoteFn → BitVec 5
  | .ballot => 1 | .any => 2 | .all => 3 | .uni => 4 | .first => 5 | .lead => 6

def kopOfCode (c : BitVec 5) : Option KOp :=
  match c.toNat with
  | 1 => some .and | 2 => some .or | 3 => some .xor | 4 => some .andn | 5 => some .mov | 6 => some .not
  | _ => none

def kopCode : KOp → BitVec 5
  | .and => 1 | .or => 2 | .xor => 3 | .andn => 4 | .mov => 5 | .not => 6

def agetOfCode (c : BitVec 5) : Option AField :=
  match c.toNat with
  | 1 => some .ptr | 2 => some .base | 3 => some .limit | 4 => some .perm | _ => none

def agetCode : AField → BitVec 5
  | .ptr => 1 | .base => 2 | .limit => 3 | .perm => 4

def fenceOfCode (c : BitVec 5) : Option FenceKind :=
  match c.toNat with
  | 1 => some .acq | 2 => some .rel | 3 => some .ar | _ => none

def fenceCode : FenceKind → BitVec 5
  | .acq => 1 | .rel => 2 | .ar => 3

def tlOfCode (c : BitVec 5) : Option TlField :=
  match c.toNat with
  | 1 => some .issued | 2 => some .done | 3 => some .err | 4 => some .detail | _ => none

def tlCode : TlField → BitVec 5
  | .issued => 1 | .done => 2 | .err => 3 | .detail => 4

def vecNCode : VecN → BitVec 5
  | .x2 => 1 | .x4 => 2 | .x8 => 3 | .x16 => 4

/-! ### The full form, one reader per row of OP[7:4] (09 R328) -/

def parse0 (h : Hdr) (f : Fields) : Option Instr :=
  match (f.op.extractLsb' 0 4).toNat with
  | 0x0 => p2 .add h f
  | 0x1 => p2 .sub h f
  | 0x2 => p3n .addc h f
  | 0x3 => p3n .subb h f
  | 0x4 => p2 .mul h f
  | 0x5 => p2 .mulh h f
  | 0x6 => p3 .mad h f
  | 0x7 => p2 .div h f
  | 0x8 => p2 .rem h f
  | 0x9 => p1 .neg h f
  | 0xA => p1 .abs h f
  | 0xB => p2 .min h f
  | 0xC => p2 .max h f
  | 0xD => p2 .and h f
  | 0xE => p2 .or h f
  | _ => p2 .xor h f

def parse1 (h : Hdr) (f : Fields) : Option Instr :=
  match (f.op.extractLsb' 0 4).toNat with
  | 0x0 => p1 .not h f
  | 0x1 => p2 .andn h f
  | 0x2 => p2 .shl h f
  | 0x3 => p2 .shr h f
  | 0x4 => p2 .sar h f
  | 0x5 => p2 .rotl h f
  | 0x6 => p1 .clz h f
  | 0x7 => p1 .ctz h f
  | 0x8 => p1 .popc h f
  | 0x9 => p1 .brev h f
  | 0xA => p3 .bfx h f
  | 0xB => p3 .bfi h f
  | 0xC => p3 .sel h f
  | 0xD => do
      let t ← tyOfCode f.fn
      let d ← regOfCode f.d
      let a ← regOfCode f.a
      let (cc, b) ← cmpB f
      some (.cmp h cc t d a b)
  | 0xE => do
      let t ← tyOfCode f.fn
      let src ← tyOfCode (f.c.extractLsb' 0 5)
      let d ← regOfCode f.d
      let a ← regOfCode f.a
      need (f.b == 0 && f.c.extractLsb' 5 15 == 0)
      some (.isat h t src d a)
  | _ => none

def parse2 (h : Hdr) (f : Fields) : Option Instr :=
  match (f.op.extractLsb' 0 4).toNat with
  | 0x0 => do
      need (f.fn.extractLsb' 3 2 == 0 && f.c.extractLsb' 8 12 == 0)
      let d ← regOfCode f.d
      let a ← regOfCode f.a
      let b ← regOfCode f.b
      let c ← regOfCode (f.c.extractLsb' 0 8)
      some (.aset h (f.fn.getLsbD 0) (f.fn.getLsbD 1) (f.fn.getLsbD 2) d a b c)
  | 0x1 => do
      need (f.fn == 0)
      let d ← regOfCode f.d
      let a ← regOfCode f.a
      let b ← opndB f
      some (.aadv h d a b)
  | 0x2 => do
      let fl ← agetOfCode f.fn
      let d ← regOfCode f.d
      let a ← regOfCode f.a
      need (f.b == 0 && f.c == 0)
      some (.aget h fl d a)
  | 0x3 => pDA .amov h f
  | 0x4 => p1 .mov h f
  | 0x5 => do
      need (f.fn == 9 && f.a == 0 && f.b == 0)
      let d ← regOfCode f.d
      some (.movi h d f.c)
  | 0x6 => do
      need (f.fn == 9 && f.a == 0 && f.b == 0)
      let d ← regOfCode f.d
      some (.movh h d f.c)
  | 0x7 => do
      let t ← tyOfCode f.fn
      let d ← regOfCode f.d
      let a ← regOfCode f.a
      let b ← opnd5 8 f
      need (f.c.extractLsb' 13 6 == 0 && f.c.extractLsb' 2 6 == 0)
      some (.shfl h (shflOfCode (f.c.extractLsb' 0 2)) t d a b)
  | 0x8 => p2 .bcast h f
  | 0x9 => do
      let v ← voteOfCode f.fn
      let d ← regOfCode f.d
      let a ← regOfCode f.a
      need (f.b == 0 && f.c == 0)
      some (.vote h v d a)
  | 0xA => do
      let t ← tyOfCode f.fn
      let op ← redOfCode (f.c.extractLsb' 0 4)
      let d ← regOfCode f.d
      let a ← regOfCode f.a
      need (f.b == 0 && f.c.extractLsb' 4 16 == 0)
      some (.redux h op t d a)
  | 0xB => do
      let t ← tyOfCode f.fn
      let op ← redOfCode (f.c.extractLsb' 0 4)
      let d ← regOfCode f.d
      let a ← regOfCode f.a
      need (f.b == 0 && f.c.extractLsb' 5 15 == 0)
      some (.scan h op (f.c.getLsbD 4) t d a)
  | 0xC => do
      let t ← tyOfCode f.fn
      let d ← regOfCode f.d
      let a ← regOfCode f.a
      let b ← opnd5 0 f
      need (f.c.extractLsb' 5 13 == 0)
      some (.pack h t (f.c.getLsbD 18) d a b)
  | 0xD => p2 .unpack h f
  | _ => none

def parse3 (h : Hdr) (f : Fields) : Option Instr :=
  match (f.op.extractLsb' 0 4).toNat with
  | 0x0 => do
      need (f.fn == 0 && f.d == 0 && f.a == 0 && f.b == 0)
      some (.br h f.c)
  | 0x1 => pA .brx h f
  | 0x2 => do
      need (f.d == 0 && f.a == 0 && f.b == 0)
      some (.call h f.fn f.c)
  | 0x3 => do
      need (f.d == 0 && f.b == 0 && f.c == 0)
      let a ← regOfCode f.a
      some (.callx h f.fn a)
  | 0x4 => p0 .ret h f
  | 0x5 => p0 .exit h f
  | 0x6 => pK .kjoin h f
  | 0x7 => pK .kleave h f
  | 0x8 => pK .kwait h f
  | 0x9 => do
      let op ← kopOfCode f.fn
      let k ← mskOf f.d
      let a ← regOfCode f.a
      let b ← opndB f
      some (.kop h op k a b)
  | 0xA => do
      let t ← tyOfCode f.fn
      let k ← mskOf f.d
      let a ← regOfCode f.a
      let (cc, b) ← cmpB f
      some (.kcmp h cc t k a b)
  | 0xB => p0 .yield h f
  | 0xC => p0 .nop h f
  | _ => none

def parse4 (h : Hdr) (f : Fields) : Option Instr :=
  match (f.op.extractLsb' 0 4).toNat with
  | 0x0 => pMem .ld h f
  | 0x1 => pMem .st h f
  | 0x2 => pVec .ldv h f
  | 0x3 => pVec .stv h f
  | 0x4 => do
      need (f.d == 0 && f.fn.extractLsb' 1 4 == 0)
      let (o, m) ← memOf f
      need (isRelaxed o)
      some (.prf h (f.fn.getLsbD 0) m)
  | 0x5 => do
      let k ← fenceOfCode f.fn
      let sc ← scopeOfCode (f.c.extractLsb' 15 3)
      need (f.d == 0 && f.a == 0 && f.b == 0 && f.c.extractLsb' 18 2 == 0 && f.c.extractLsb' 0 15 == 0)
      some (.fence h k sc)
  | 0x6 => pCw .cwb h f
  | 0x7 => pCw .cinv h f
  | 0x8 => pQ .qpush h f
  | 0x9 => pQ .qpop h f
  | 0xA => do
      need (f.b == 0 && f.c.extractLsb' 4 16 == 0)
      match f.fn.toNat with
      | 1 => do
          need (f.d == 0)
          let a ← regOfCode f.a
          some (.qcfgSet h a (finOf16 (f.c.extractLsb' 0 4)))
      | 2 => do
          need (f.a == 0)
          let d ← regOfCode f.d
          some (.qcfgGet h d (finOf16 (f.c.extractLsb' 0 4)))
      | _ => none
  | 0xB => pMem .ldx h f
  | _ => none

def parse5 (h : Hdr) (f : Fields) : Option Instr :=
  match (f.op.extractLsb' 0 4).toNat with
  | 0x0 => do
      let t ← tyOfCode f.fn
      let o ← mordOfCode (f.c.extractLsb' 15 5)
      let op ← atomOfCode (f.c.extractLsb' 0 4)
      let d ← regOfCode f.d
      let a ← regOfCode f.a
      let b ← regOfCode f.b
      need (f.c.extractLsb' 4 11 == 0)
      some (.atom h op t o d a b)
  | 0x1 => do
      let t ← tyOfCode f.fn
      let o ← mordOfCode (f.c.extractLsb' 15 5)
      let op ← atomOfCode (f.c.extractLsb' 0 4)
      let a ← regOfCode f.a
      let b ← regOfCode f.b
      need (f.d == 0 && f.c.extractLsb' 4 11 == 0)
      some (.red h op t o a b)
  | 0x2 => do
      need (f.fn == 0 && f.a == 0 && f.b == 0)
      let d ← regOfCode f.d
      some (.atxBegin h d f.c)
  | 0x3 => pD .atxEnd h f
  | 0x4 => do
      need (f.fn == 0 && f.d == 0 && f.a == 0 && f.b == 0 && f.c.extractLsb' 8 12 == 0)
      some (.atxAbort h (f.c.extractLsb' 0 8))
  | 0x5 => pA .atxPin h f
  | 0x6 => pD .atxStat h f
  | _ => none

def parse6 (h : Hdr) (f : Fields) : Option Instr :=
  match (f.op.extractLsb' 0 4).toNat with
  | 0x0 => pf2 .fadd h f
  | 0x1 => pf2 .fsub h f
  | 0x2 => pf2 .fmul h f
  | 0x3 => do
      let t ← tyOfCode f.fn
      let d ← regOfCode f.d
      let a ← regOfCode f.a
      let b ← regOfCode f.b
      let (rm, c) ← rndC f
      some (.fma h t rm d a b c)
  | 0x4 => pf2 .fdiv h f
  | 0x5 => pf1 .fsqrt h f
  | 0x6 => pfs .frcp h f
  | 0x7 => pfs .frsq h f
  | 0x8 => pfs .fex2 h f
  | 0x9 => pfs .flg2 h f
  | 0xA => pfs .fsin h f
  | 0xB => pfs .fcos h f
  | 0xC => p2 .fmin h f
  | 0xD => p2 .fmax h f
  | 0xE => do
      let t ← tyOfCode f.fn
      let d ← regOfCode f.d
      let a ← regOfCode f.a
      let (cc, b) ← cmpB f
      some (.fcmp h cc t d a b)
  | _ => p1 .fcls h f

def parse7 (h : Hdr) (f : Fields) : Option Instr :=
  match (f.op.extractLsb' 0 4).toNat with
  | 0x0 => pf1 .frnd h f
  | 0x1 => pf2 .fscl h f
  | 0x2 => do
      let dt ← tyOfCode f.fn
      let st ← tyOfCode (f.c.extractLsb' 0 5)
      let rm ← rndOfCode (f.c.extractLsb' 5 3)
      let d ← regOfCode f.d
      let a ← regOfCode f.a
      need (f.b == 0 && f.c.extractLsb' 12 8 == 0)
      some (.fcvt h dt st rm (f.c.getLsbD 8) (f.c.extractLsb' 9 3) d a)
  | 0x3 => do
      let dt ← tyOfCode f.fn
      let st ← tyOfCode (f.c.extractLsb' 0 5)
      let rm ← rndOfCode (f.c.extractLsb' 5 3)
      let d ← regOfCode f.d
      let a ← regOfCode f.a
      need (f.b == 0 && f.c.extractLsb' 9 11 == 0)
      some (.icvt h dt st rm (f.c.getLsbD 8) d a)
  | 0x4 => do
      need (f.fn == 13 && f.c.extractLsb' 13 3 == 0 && f.c.extractLsb' 19 1 == 0)
      let t ← tyOfCode (f.c.extractLsb' 8 5)
      let rm ← rndOfCode (f.c.extractLsb' 16 3)
      let d ← regOfCode f.d
      let a ← regOfCode f.a
      let b ← regOfCode f.b
      let c ← regOfCode (f.c.extractLsb' 0 8)
      some (.fdot2 h t rm d a b c)
  | 0x5 => do
      need (f.fn == 13 && f.c.extractLsb' 13 3 == 0 && f.c.extractLsb' 19 1 == 0)
      let t ← tyOfCode (f.c.extractLsb' 8 5)
      let rm ← rndOfCode (f.c.extractLsb' 16 3)
      let d ← regOfCode f.d
      let a ← regOfCode f.a
      let b ← regOfCode f.b
      let c ← regOfCode (f.c.extractLsb' 0 8)
      some (.fdot4 h t rm d a b c)
  | 0x6 => do
      let t ← tyOfCode f.fn
      let rm ← rndOfCode (f.c.extractLsb' 16 3)
      let d ← regOfCode f.d
      let a ← regOfCode f.a
      let b ← opnd5 0 f
      need (f.c.extractLsb' 5 10 == 0)
      some (.fpk h t rm (f.c.getLsbD 15) d a b)
  | _ => none

def parse8 (h : Hdr) (f : Fields) : Option Instr := do
  need (f.fn == 0)
  match (f.op.extractLsb' 0 4).toNat with
  | 0x0 => do
      need (f.d == 0 && f.c.extractLsb' 3 17 == 0)
      let a ← regOfCode f.a
      let b ← regOfCode f.b
      some (.mjob h (finOf8 (f.c.extractLsb' 0 3)) a b)
  | 0x1 => do
      let d ← regOfCode f.d
      let a ← regOfCode f.a
      let m ← regOfCode f.b
      need (f.c.extractLsb' 6 14 == 0)
      some (.mcmp h (f.c.extractLsb' 0 5) (f.c.getLsbD 5) d a m)
  | 0x2 => do
      let a ← regOfCode f.a
      let b ← regOfCode f.b
      let c ← regOfCode (f.c.extractLsb' 0 8)
      need (f.d == 0 && f.c.extractLsb' 8 12 == 0)
      some (.mplane h a b c)
  | 0x3 => do
      let d ← regOfCode f.d
      let a ← regOfCode f.a
      let c ← regOfCode (f.c.extractLsb' 0 8)
      need (f.b == 0 && f.c.extractLsb' 8 12 == 0)
      some (.mnplane h d a c)
  | 0x4 => do
      let st ← tyOfCode (f.c.extractLsb' 5 5)
      let d ← regOfCode f.d
      let a ← regOfCode f.a
      need (f.b == 0 && f.c.extractLsb' 11 9 == 0)
      some (.mscl h (f.c.extractLsb' 0 5) st (f.c.getLsbD 10) d a)
  | 0x5 => do
      let a ← regOfCode f.a
      need (f.d == 0 && f.b == 0 && f.c.extractLsb' 3 17 == 0)
      some (.ringCfg h (finOf8 (f.c.extractLsb' 0 3)) a)
  | 0x6 => do
      let d ← regOfCode f.d
      need (f.a == 0 && f.b == 0 && f.c.extractLsb' 6 14 == 0)
      some (.ringAcq h (finOf8 (f.c.extractLsb' 0 3)) (finOf8 (f.c.extractLsb' 3 3)) d)
  | 0x7 => do
      need (f.d == 0 && f.a == 0 && f.b == 0 && f.c.extractLsb' 6 14 == 0)
      some (.ringRel h (finOf8 (f.c.extractLsb' 0 3)) (finOf8 (f.c.extractLsb' 3 3)))
  | _ => none

def parse9 (h : Hdr) (f : Fields) : Option Instr :=
  match (f.op.extractLsb' 0 4).toNat with
  | 0x0 => pE .cpy h f
  | 0x1 => pE .astr h f
  | 0x2 => pE .nmeGth h f
  | 0x3 => pE .nmeRed h f
  | 0x4 => pE .nmeCvt h f
  | 0x5 => pE .winst h f
  | 0x6 => pDA .wqry h f
  | 0x7 => pE .tlwait h f
  | 0x8 => do
      let d ← regOfCode f.d
      need (f.a == 0 && f.b == 0 && f.c.extractLsb' 3 17 == 0)
      if f.fn = 5 then some (.tlgetClr h d (finOf8 (f.c.extractLsb' 0 3)))
      else do
        let fl ← tlOfCode f.fn
        some (.tlget h fl d (finOf8 (f.c.extractLsb' 0 3)))
  | 0x9 => pA .vfsend h f
  | 0xA => pD .vfrecv h f
  | 0xB => pD .vffree h f
  | 0xC => pA .leap h f
  | 0xD => do
      let sc ← scopeOfCode (f.c.extractLsb' 15 3)
      let a ← regOfCode f.a
      let b ← regOfCode f.b
      need (f.fn == 0 && f.d == 0 && f.c.extractLsb' 18 2 == 0 && f.c.extractLsb' 0 15 == 0)
      some (.launch h sc a b)
  | 0xE => pDA .join h f
  | _ => none

def parseA (h : Hdr) (f : Fields) : Option Instr :=
  match (f.op.extractLsb' 0 4).toNat with
  | 0x0 => do
      need (f.fn == 0 && f.d == 0 && f.a == 0 && f.b == 0 && f.c.extractLsb' 10 10 == 0)
      some (.barArr h (finOf16 (f.c.extractLsb' 0 4)) (f.c.extractLsb' 4 6))
  | 0x1 => do
      need (f.fn == 0 && f.d == 0 && f.a == 0 && f.b == 0 && f.c.extractLsb' 4 16 == 0)
      some (.barWait h (finOf16 (f.c.extractLsb' 0 4)))
  | 0x2 => pA .sbarArr h f
  | 0x3 => pA .sbarWait h f
  | 0x4 => do
      let t ← tyOfCode f.fn
      let cc ← cmpOfCode (f.c.extractLsb' 16 3)
      let sc ← scopeOfCode (f.c.extractLsb' 13 3)
      let a ← regOfCode f.a
      let b ← regOfCode f.b
      need (f.d == 0 && f.c.extractLsb' 19 1 == 0 && f.c.extractLsb' 0 13 == 0)
      some (.waitaddr h sc cc t a b)
  | 0x5 => pA .wake h f
  | 0x6 => do
      let a ← regOfCode f.a
      let b ← regOfCode f.b
      need (f.fn == 0 && f.d == 0 && f.c.extractLsb' 5 15 == 0)
      some (.deqInit h a b (f.c.extractLsb' 0 5))
  | 0x7 => do
      let a ← regOfCode f.a
      let b ← regOfCode f.b
      need (f.fn == 0 && f.d == 0 && f.c == 0)
      some (.deqPush h a b)
  | 0x8 => pDA .deqPop h f
  | 0x9 => pDA .deqSteal h f
  | _ => none

def parseB (h : Hdr) (f : Fields) : Option Instr :=
  match (f.op.extractLsb' 0 4).toNat with
  | 0x0 => do
      let d ← regOfCode f.d
      need (f.fn == 0 && f.a == 0 && f.b == 0 && f.c.extractLsb' 12 8 == 0)
      some (.sysr h d (f.c.extractLsb' 0 12))
  | 0x1 => do
      let a ← regOfCode f.a
      need (f.fn == 0 && f.d == 0 && f.b == 0 && f.c.extractLsb' 12 8 == 0)
      some (.sysw h (f.c.extractLsb' 0 12) a)
  | 0x2 => do
      need (f.fn == 0 && f.d == 0 && f.a == 0 && f.b == 0 && f.c.extractLsb' 16 4 == 0)
      some (.scall h (f.c.extractLsb' 0 16))
  | 0x3 => do
      need (f.fn == 0 && f.d == 0 && f.a == 0 && f.b == 0 && f.c.extractLsb' 16 4 == 0)
      some (.brk h (f.c.extractLsb' 0 16))
  | 0x4 => p0 .tret h f
  | 0x5 => p0 .wfi h f
  | 0x6 => do
      need (f.d == 0 && f.b == 0 && f.c.extractLsb' 8 12 == 0)
      let a ← regOfCode f.a
      match f.fn.toNat with
      | 1 => some (.tlbinvVa h (f.c.extractLsb' 0 8) a)
      | 2 => do
          need (a == .zero)
          some (.tlbinvCtx h (f.c.extractLsb' 0 8))
      | 3 => do
          need (a == .zero && f.c == 0)
          some (.tlbinvAll h)
      | _ => none
  | 0x7 => do
      need (f.d == 0 && f.b == 0 && f.c == 0)
      match f.fn.toNat with
      | 1 => do
          let a ← regOfCode f.a
          some (.icinvLine h a)
      | 2 => do
          need (f.a == 0)
          some (.icinvAll h)
      | _ => none
  | 0x8 => p0 .halt h f
  | 0x9 => pA .ipi h f
  | _ => none

/-- Instruction of a full-form word whose opcode is assigned. -/
def parseFull (f : Fields) : Option Instr := do
  let p ← predOfCode f.pred
  let h : Hdr := ⟨f.stop, p⟩
  match (f.op.extractLsb' 4 4).toNat with
  | 0x0 => parse0 h f
  | 0x1 => parse1 h f
  | 0x2 => parse2 h f
  | 0x3 => parse3 h f
  | 0x4 => parse4 h f
  | 0x5 => parse5 h f
  | 0x6 => parse6 h f
  | 0x7 => parse7 h f
  | 0x8 => parse8 h f
  | 0x9 => parse9 h f
  | 0xA => parseA h f
  | 0xB => parseB h f
  | _ => none

/-- Assigned opcodes: how many of each row of 09 R328 are in use, from column 0 on. -/
def assigned (op : BitVec 8) : Bool :=
  let lo := (op.extractLsb' 0 4).toNat
  match (op.extractLsb' 4 4).toNat with
  | 0x0 => true
  | 0x1 => lo < 15
  | 0x2 => lo < 14
  | 0x3 => lo < 13
  | 0x4 => lo < 12
  | 0x5 => lo < 7
  | 0x6 => true
  | 0x7 => lo < 7
  | 0x8 => lo < 8
  | 0x9 => lo < 15
  | 0xA => lo < 10
  | 0xB => lo < 10
  | _ => false

/-! ### The dual form (09 R321 to R325) -/

/-- The fields of one slot: opcode, destination, source, imm8 (09 R321). -/
structure SlotFields where
  op : BitVec 7
  d  : BitVec 8
  s  : BitVec 8
  i  : BitVec 8
  deriving DecidableEq, Repr

def slot0Of (w : BitVec 64) : SlotFields :=
  ⟨w.extractLsb' 55 7, w.extractLsb' 47 8, w.extractLsb' 39 8, w.extractLsb' 31 8⟩

def slot1Of (w : BitVec 64) : SlotFields :=
  ⟨w.extractLsb' 24 7, w.extractLsb' 16 8, w.extractLsb' 8 8, w.extractLsb' 0 8⟩

def slotWord (f : SlotFields) : BitVec 31 := f.op ++ f.d ++ f.s ++ f.i

/-- Slot opcodes in use (09 R325). -/
def slotAssigned (op : BitVec 7) : Bool :=
  let n := op.toNat
  (1 ≤ n && n ≤ 0x24) || (0x30 ≤ n && n ≤ 0x35) || (0x38 ≤ n && n ≤ 0x3B) || n == 0x3F

def sBin (op : SlotOp) (f : SlotFields) : Option Slot := do
  let d ← regOfCode f.d
  let s ← regOfCode f.s
  need (f.i == 0)
  some (.bin op d s)

def sImm (op : SlotImmOp) (f : SlotFields) : Option Slot := do
  let d ← regOfCode f.d
  let s ← regOfCode f.s
  some (.binImm op d s f.i)

def sUn (op : SlotUnOp) (f : SlotFields) : Option Slot := do
  let d ← regOfCode f.d
  let s ← regOfCode f.s
  need (f.i == 0)
  some (.un op d s)

def sKop (op : SlotKOp) (f : SlotFields) : Option Slot := do
  let d ← mskOf f.d
  let s ← mskOf f.s
  need (f.i == 0)
  some (.kop op d s)

def sKcmp (c : SlotCmp) (f : SlotFields) : Option Slot := do
  let d ← mskOf f.d
  let s ← regOfCode f.s
  some (.kcmp c d s f.i)

/-- One slot (09 R325). -/
def parseSlot (f : SlotFields) : Option Slot :=
  match f.op.toNat with
  | 0x01 => sBin .add f
  | 0x02 => sImm .add f
  | 0x03 => sBin .sub f
  | 0x04 => sImm .sub f
  | 0x05 => sBin .mul f
  | 0x06 => sImm .mul f
  | 0x07 => sBin .and f
  | 0x08 => sImm .and f
  | 0x09 => sBin .or f
  | 0x0A => sImm .or f
  | 0x0B => sBin .xor f
  | 0x0C => sImm .xor f
  | 0x0D => sBin .shl f
  | 0x0E => sImm .shl f
  | 0x0F => sBin .shr f
  | 0x10 => sImm .shr f
  | 0x11 => sBin .sar f
  | 0x12 => sImm .sar f
  | 0x13 => sBin .minI f
  | 0x14 => sImm .minI f
  | 0x15 => sBin .maxI f
  | 0x16 => sImm .maxI f
  | 0x17 => sBin .minN f
  | 0x18 => sBin .maxN f
  | 0x19 => sUn .mov f
  | 0x1A => do
      let d ← regOfCode f.d
      need (f.s == 0xF0)
      some (.movi d f.i)
  | 0x1B => sBin .andn f
  | 0x1C => sUn .not f
  | 0x1D => sUn .neg f
  | 0x1E => sUn .popc f
  | 0x1F => sUn .clz f
  | 0x20 => sBin .fadd f
  | 0x21 => sBin .fsub f
  | 0x22 => sBin .fmul f
  | 0x23 => sBin .fmin f
  | 0x24 => sBin .fmax f
  | 0x30 => do
      let d ← adrOf f.d
      need (f.s == 0xF0)
      some (.aadv d f.i)
  | 0x31 => sKop .and f
  | 0x32 => sKop .or f
  | 0x33 => sKop .xor f
  | 0x34 => sKop .andn f
  | 0x35 => sKop .mov f
  | 0x38 => sKcmp .eq f
  | 0x39 => sKcmp .ne f
  | 0x3A => sKcmp .lt f
  | 0x3B => sKcmp .ge f
  | 0x3F => do
      need (f.d == 0 && f.s == 0 && f.i == 0)
      some .nop
  | _ => none

/-! ### Decoding -/

/-- The instruction whose fields the word holds; classes and types are not checked yet. -/
def parse (w : BitVec 64) : Option Instr :=
  if w.getLsbD 62 then do
    let s0 ← parseSlot (slot0Of w)
    let s1 ← parseSlot (slot1Of w)
    some (.dualWord (w.getLsbD 63) s0 s1)
  else parseFull (fieldsOf w)

/-- Check 1 of 09 R326. -/
def opAssigned (w : BitVec 64) : Bool :=
  if w.getLsbD 62 then slotAssigned (slot0Of w).op && slotAssigned (slot1Of w).op
  else assigned (fieldsOf w).op

/-- Decode one word: checks 1 and 2 of 09 R326. -/
def decode (w : BitVec 64) : Except Reject Instr :=
  if opAssigned w then
    match parse w with
    | none => .error .badField
    | some i => if wellFormed i then .ok i else .error .badOperand
  else .error .unassigned

/-- A 64-bit word from eight bytes, lowest address first (00 R6, 09 R308). -/
def wordOfBytes : List Byte → Option (BitVec 64)
  | b0 :: b1 :: b2 :: b3 :: b4 :: b5 :: b6 :: b7 :: _ =>
      some (b7 ++ b6 ++ b5 ++ b4 ++ b3 ++ b2 ++ b1 ++ b0)
  | _ => none

/-- Decode the first eight bytes. -/
def decodeBytes (bs : List Byte) : Except Reject Instr :=
  match wordOfBytes bs with
  | some w => decode w
  | none => .error .short

/-! ### Encoding -/

/-- Field C of REG or IMM with two sources. -/
def encOpndB (b : Opnd) : BitVec 8 × BitVec 20 :=
  match b with
  | .reg r => (regCode r, 0)
  | .imm i => (0, 1#1 ++ i)

/-- Field C of REG or IMM with three sources. -/
def encOpndC (c : Opnd) : BitVec 20 :=
  match c with
  | .reg r => 0#12 ++ regCode r
  | .imm i => 1#1 ++ i

/-- Fields B and C of the RND layout with two sources. -/
def encRndB (rm : Rnd) (b : Opnd) : BitVec 8 × BitVec 20 :=
  match b with
  | .reg r => (regCode r, 0#1 ++ rndCode rm ++ 0#16)
  | .imm i => (0, 1#1 ++ i)

/-- Field C of the RND layout with three sources. -/
def encRndC (rm : Rnd) (c : Opnd) : BitVec 20 :=
  match c with
  | .reg r => 0#1 ++ rndCode rm ++ 0#8 ++ regCode r
  | .imm i => 1#1 ++ i

def encRndOnly (rm : Rnd) : BitVec 20 := 0#1 ++ rndCode rm ++ 0#16

/-- Fields B and C of the CMP layout. -/
def encCmp (cc : Cmp) (b : CmpOpnd) : BitVec 8 × BitVec 20 :=
  match b with
  | .reg r => (regCode r, 0#1 ++ cmpCode cc ++ 0#16)
  | .imm i => (0, 1#1 ++ cmpCode cc ++ i)

/-- Field C of the MEM layout. -/
def encMem (o : MOrd) (m : MemOp) : BitVec 20 :=
  mordCode o ++ (match m.pol with
    | some p => 1#1 ++ BitVec.ofNat 6 p.val
    | none => 0#7) ++ m.off

/-- Field B and the I and imm5 parts of field C, imm5 at bit `lo`. -/
def encOpnd5 (lo : Nat) (b : Opnd5) : BitVec 8 × BitVec 20 :=
  match b with
  | .reg r => (regCode r, 0)
  | .imm i => (0, (1#20 <<< 19) ||| ((i.setWidth 20) <<< lo))

def enc (h : Hdr) (op : BitVec 8) (fn : BitVec 5) (d a b : BitVec 8) (c : BitVec 20) : Fields :=
  ⟨h.stop, op, predCode h.pred, fn, d, a, b, c⟩

def e2 (h : Hdr) (op : BitVec 8) (t : Ty) (d a : Reg) (b : Opnd) : Fields :=
  enc h op (tyCode t) (regCode d) (regCode a) (encOpndB b).1 (encOpndB b).2

def e1 (h : Hdr) (op : BitVec 8) (t : Ty) (d a : Reg) : Fields :=
  enc h op (tyCode t) (regCode d) (regCode a) 0 0

def e3 (h : Hdr) (op : BitVec 8) (fn : BitVec 5) (d a b : Reg) (c : Opnd) : Fields :=
  enc h op fn (regCode d) (regCode a) (regCode b) (encOpndC c)

def ef2 (h : Hdr) (op : BitVec 8) (t : Ty) (rm : Rnd) (d a : Reg) (b : Opnd) : Fields :=
  enc h op (tyCode t) (regCode d) (regCode a) (encRndB rm b).1 (encRndB rm b).2

def ef1 (h : Hdr) (op : BitVec 8) (t : Ty) (rm : Rnd) (d a : Reg) : Fields :=
  enc h op (tyCode t) (regCode d) (regCode a) 0 (encRndOnly rm)

def efs (h : Hdr) (op : BitVec 8) (d a : Reg) : Fields :=
  enc h op 13 (regCode d) (regCode a) 0 0

def eMem (h : Hdr) (op : BitVec 8) (fn : BitVec 5) (d : BitVec 8) (o : MOrd) (m : MemOp) : Fields :=
  enc h op fn d (regCode m.base) (regCode m.idx) (encMem o m)

def eE (h : Hdr) (op : BitVec 8) (e : Fin 8) (a : Reg) : Fields :=
  enc h op 0 0 (regCode a) 0 (BitVec.ofNat 20 e.val)

def kCode (k : Fin 12) : BitVec 8 := regCode (.k k)

/-- The fields of a full-form word; `none` for a dual word and for the steps of other agents. -/
def encFields : Instr → Option Fields
  | .add h t d a b => some (e2 h 0x00 t d a b)
  | .sub h t d a b => some (e2 h 0x01 t d a b)
  | .addc h d a b c => some (e3 h 0x02 7 d a b c)
  | .subb h d a b c => some (e3 h 0x03 7 d a b c)
  | .mul h t d a b => some (e2 h 0x04 t d a b)
  | .mulh h t d a b => some (e2 h 0x05 t d a b)
  | .mad h t d a b c => some (e3 h 0x06 (tyCode t) d a b c)
  | .div h t d a b => some (e2 h 0x07 t d a b)
  | .rem h t d a b => some (e2 h 0x08 t d a b)
  | .neg h t d a => some (e1 h 0x09 t d a)
  | .abs h t d a => some (e1 h 0x0A t d a)
  | .min h t d a b => some (e2 h 0x0B t d a b)
  | .max h t d a b => some (e2 h 0x0C t d a b)
  | .and h t d a b => some (e2 h 0x0D t d a b)
  | .or h t d a b => some (e2 h 0x0E t d a b)
  | .xor h t d a b => some (e2 h 0x0F t d a b)
  | .not h t d a => some (e1 h 0x10 t d a)
  | .andn h t d a b => some (e2 h 0x11 t d a b)
  | .shl h t d a b => some (e2 h 0x12 t d a b)
  | .shr h t d a b => some (e2 h 0x13 t d a b)
  | .sar h t d a b => some (e2 h 0x14 t d a b)
  | .rotl h t d a b => some (e2 h 0x15 t d a b)
  | .clz h t d a => some (e1 h 0x16 t d a)
  | .ctz h t d a => some (e1 h 0x17 t d a)
  | .popc h t d a => some (e1 h 0x18 t d a)
  | .brev h t d a => some (e1 h 0x19 t d a)
  | .bfx h t d a b c => some (e3 h 0x1A (tyCode t) d a b c)
  | .bfi h t d a b c => some (e3 h 0x1B (tyCode t) d a b c)
  | .sel h t d a b c => some (e3 h 0x1C (tyCode t) d a b c)
  | .cmp h cc t d a b =>
      some (enc h 0x1D (tyCode t) (regCode d) (regCode a) (encCmp cc b).1 (encCmp cc b).2)
  | .isat h t src d a => some (enc h 0x1E (tyCode t) (regCode d) (regCode a) 0 (0#15 ++ tyCode src))
  | .aset h pr pw px d a b c =>
      some (enc h 0x20 (0#2 ++ BitVec.ofBool px ++ BitVec.ofBool pw ++ BitVec.ofBool pr) (regCode d) (regCode a)
        (regCode b) (0#12 ++ regCode c))
  | .aadv h d a b => some (enc h 0x21 0 (regCode d) (regCode a) (encOpndB b).1 (encOpndB b).2)
  | .aget h f d a => some (enc h 0x22 (agetCode f) (regCode d) (regCode a) 0 0)
  | .amov h d a => some (enc h 0x23 0 (regCode d) (regCode a) 0 0)
  | .mov h t d a => some (e1 h 0x24 t d a)
  | .movi h d i => some (enc h 0x25 9 (regCode d) 0 0 i)
  | .movh h d i => some (enc h 0x26 9 (regCode d) 0 0 i)
  | .shfl h m t d a b =>
      some (enc h 0x27 (tyCode t) (regCode d) (regCode a) (encOpnd5 8 b).1
        ((encOpnd5 8 b).2 ||| (shflCode m).setWidth 20))
  | .bcast h t d a b => some (e2 h 0x28 t d a b)
  | .vote h f d a => some (enc h 0x29 (voteCode f) (regCode d) (regCode a) 0 0)
  | .redux h op t d a => some (enc h 0x2A (tyCode t) (regCode d) (regCode a) 0 (0#16 ++ redCode op))
  | .scan h op x t d a =>
      some (enc h 0x2B (tyCode t) (regCode d) (regCode a) 0 (0#15 ++ BitVec.ofBool x ++ redCode op))
  | .pack h t sat d a b =>
      some (enc h 0x2C (tyCode t) (regCode d) (regCode a) (encOpnd5 0 b).1
        ((encOpnd5 0 b).2 ||| (0#1 ++ BitVec.ofBool sat ++ 0#18)))
  | .unpack h t d a b => some (e2 h 0x2D t d a b)
  | .br h i => some (enc h 0x30 0 0 0 0 i)
  | .brx h a => some (enc h 0x31 0 0 (regCode a) 0 0)
  | .call h n i => some (enc h 0x32 n 0 0 0 i)
  | .callx h n a => some (enc h 0x33 n 0 (regCode a) 0 0)
  | .ret h => some (enc h 0x34 0 0 0 0 0)
  | .exit h => some (enc h 0x35 0 0 0 0 0)
  | .kjoin h k => some (enc h 0x36 0 (kCode k) 0 0 0)
  | .kleave h k => some (enc h 0x37 0 (kCode k) 0 0 0)
  | .kwait h k => some (enc h 0x38 0 (kCode k) 0 0 0)
  | .kop h op k a b => some (enc h 0x39 (kopCode op) (kCode k) (regCode a) (encOpndB b).1 (encOpndB b).2)
  | .kcmp h cc t k a b =>
      some (enc h 0x3A (tyCode t) (kCode k) (regCode a) (encCmp cc b).1 (encCmp cc b).2)
  | .yield h => some (enc h 0x3B 0 0 0 0 0)
  | .nop h => some (enc h 0x3C 0 0 0 0 0)
  | .ld h t o d m => some (eMem h 0x40 (tyCode t) (regCode d) o m)
  | .st h t o d m => some (eMem h 0x41 (tyCode t) (regCode d) o m)
  | .ldv h n d m => some (eMem h 0x42 (vecNCode n) (regCode d) .relaxed m)
  | .stv h n d m => some (eMem h 0x43 (vecNCode n) (regCode d) .relaxed m)
  | .prf h sl m => some (eMem h 0x44 (0#4 ++ BitVec.ofBool sl) 0 .relaxed m)
  | .fence h k s => some (enc h 0x45 (fenceCode k) 0 0 0 (0#2 ++ scopeCode s ++ 0#15))
  | .cwb h m => match m with
      | some m => some (eMem h 0x46 0 0 .relaxed m)
      | none => some (enc h 0x46 1 0 0 0 0)
  | .cinv h m => match m with
      | some m => some (eMem h 0x47 0 0 .relaxed m)
      | none => some (enc h 0x47 1 0 0 0 0)
  | .qpush h t d q => some (enc h 0x48 (tyCode t) (regCode d) 0 0 (BitVec.ofNat 20 q.val))
  | .qpop h t d q => some (enc h 0x49 (tyCode t) (regCode d) 0 0 (BitVec.ofNat 20 q.val))
  | .qcfgSet h a q => some (enc h 0x4A 1 0 (regCode a) 0 (BitVec.ofNat 20 q.val))
  | .qcfgGet h d q => some (enc h 0x4A 2 (regCode d) 0 0 (BitVec.ofNat 20 q.val))
  | .ldx h t o d m => some (eMem h 0x4B (tyCode t) (regCode d) o m)
  | .atom h op t o d base b =>
      some (enc h 0x50 (tyCode t) (regCode d) (regCode base) (regCode b) (mordCode o ++ 0#11 ++ atomCode op))
  | .red h op t o base b =>
      some (enc h 0x51 (tyCode t) 0 (regCode base) (regCode b) (mordCode o ++ 0#11 ++ atomCode op))
  | .atxBegin h d i => some (enc h 0x52 0 (regCode d) 0 0 i)
  | .atxEnd h d => some (enc h 0x53 0 (regCode d) 0 0 0)
  | .atxAbort h c => some (enc h 0x54 0 0 0 0 (0#12 ++ c))
  | .atxPin h a => some (enc h 0x55 0 0 (regCode a) 0 0)
  | .atxStat h d => some (enc h 0x56 0 (regCode d) 0 0 0)
  | .fadd h t rm d a b => some (ef2 h 0x60 t rm d a b)
  | .fsub h t rm d a b => some (ef2 h 0x61 t rm d a b)
  | .fmul h t rm d a b => some (ef2 h 0x62 t rm d a b)
  | .fma h t rm d a b c =>
      some (enc h 0x63 (tyCode t) (regCode d) (regCode a) (regCode b) (encRndC rm c))
  | .fdiv h t rm d a b => some (ef2 h 0x64 t rm d a b)
  | .fsqrt h t rm d a => some (ef1 h 0x65 t rm d a)
  | .frcp h d a => some (efs h 0x66 d a)
  | .frsq h d a => some (efs h 0x67 d a)
  | .fex2 h d a => some (efs h 0x68 d a)
  | .flg2 h d a => some (efs h 0x69 d a)
  | .fsin h d a => some (efs h 0x6A d a)
  | .fcos h d a => some (efs h 0x6B d a)
  | .fmin h t d a b => some (e2 h 0x6C t d a b)
  | .fmax h t d a b => some (e2 h 0x6D t d a b)
  | .fcmp h cc t d a b =>
      some (enc h 0x6E (tyCode t) (regCode d) (regCode a) (encCmp cc b).1 (encCmp cc b).2)
  | .fcls h t d a => some (e1 h 0x6F t d a)
  | .frnd h t rm d a => some (ef1 h 0x70 t rm d a)
  | .fscl h t rm d a b => some (ef2 h 0x71 t rm d a b)
  | .fcvt h dt st rm sat el d a =>
      some (enc h 0x72 (tyCode dt) (regCode d) (regCode a) 0
        (0#8 ++ el ++ BitVec.ofBool sat ++ rndCode rm ++ tyCode st))
  | .icvt h dt st rm sat d a =>
      some (enc h 0x73 (tyCode dt) (regCode d) (regCode a) 0
        (0#11 ++ BitVec.ofBool sat ++ rndCode rm ++ tyCode st))
  | .fdot2 h t rm d a b c =>
      some (enc h 0x74 13 (regCode d) (regCode a) (regCode b)
        (0#1 ++ rndCode rm ++ 0#3 ++ tyCode t ++ regCode c))
  | .fdot4 h t rm d a b c =>
      some (enc h 0x75 13 (regCode d) (regCode a) (regCode b)
        (0#1 ++ rndCode rm ++ 0#3 ++ tyCode t ++ regCode c))
  | .fpk h t rm sat d a b =>
      some (enc h 0x76 (tyCode t) (regCode d) (regCode a) (encOpnd5 0 b).1
        ((encOpnd5 0 b).2 ||| (0#1 ++ rndCode rm ++ BitVec.ofBool sat ++ 0#15)))
  | .mjob h e a b => some (enc h 0x80 0 0 (regCode a) (regCode b) (BitVec.ofNat 20 e.val))
  | .mcmp h fmt hi d a m =>
      some (enc h 0x81 0 (regCode d) (regCode a) (regCode m) (0#14 ++ BitVec.ofBool hi ++ fmt))
  | .mplane h a b c => some (enc h 0x82 0 0 (regCode a) (regCode b) (0#12 ++ regCode c))
  | .mnplane h d a c => some (enc h 0x83 0 (regCode d) (regCode a) 0 (0#12 ++ regCode c))
  | .mscl h fmt st v d a =>
      some (enc h 0x84 0 (regCode d) (regCode a) 0 (0#9 ++ BitVec.ofBool v ++ tyCode st ++ fmt))
  | .ringCfg h n a => some (enc h 0x85 0 0 (regCode a) 0 (BitVec.ofNat 20 n.val))
  | .ringAcq h n r d =>
      some (enc h 0x86 0 (regCode d) 0 0 (0#14 ++ BitVec.ofNat 3 r.val ++ BitVec.ofNat 3 n.val))
  | .ringRel h n r =>
      some (enc h 0x87 0 0 0 0 (0#14 ++ BitVec.ofNat 3 r.val ++ BitVec.ofNat 3 n.val))
  | .cpy h e a => some (eE h 0x90 e a)
  | .astr h e a => some (eE h 0x91 e a)
  | .nmeGth h e a => some (eE h 0x92 e a)
  | .nmeRed h e a => some (eE h 0x93 e a)
  | .nmeCvt h e a => some (eE h 0x94 e a)
  | .winst h e a => some (eE h 0x95 e a)
  | .wqry h d a => some (enc h 0x96 0 (regCode d) (regCode a) 0 0)
  | .tlwait h e a => some (eE h 0x97 e a)
  | .tlget h f d e => some (enc h 0x98 (tlCode f) (regCode d) 0 0 (BitVec.ofNat 20 e.val))
  | .tlgetClr h d e => some (enc h 0x98 5 (regCode d) 0 0 (BitVec.ofNat 20 e.val))
  | .vfsend h a => some (enc h 0x99 0 0 (regCode a) 0 0)
  | .vfrecv h d => some (enc h 0x9A 0 (regCode d) 0 0 0)
  | .vffree h d => some (enc h 0x9B 0 (regCode d) 0 0 0)
  | .leap h a => some (enc h 0x9C 0 0 (regCode a) 0 0)
  | .launch h s a b => some (enc h 0x9D 0 0 (regCode a) (regCode b) (0#2 ++ scopeCode s ++ 0#15))
  | .join h d a => some (enc h 0x9E 0 (regCode d) (regCode a) 0 0)
  | .barArr h n cnt => some (enc h 0xA0 0 0 0 0 (0#10 ++ cnt ++ BitVec.ofNat 4 n.val))
  | .barWait h n => some (enc h 0xA1 0 0 0 0 (BitVec.ofNat 20 n.val))
  | .sbarArr h a => some (enc h 0xA2 0 0 (regCode a) 0 0)
  | .sbarWait h a => some (enc h 0xA3 0 0 (regCode a) 0 0)
  | .waitaddr h s cc t a b =>
      some (enc h 0xA4 (tyCode t) 0 (regCode a) (regCode b) (0#1 ++ cmpCode cc ++ scopeCode s ++ 0#13))
  | .wake h a => some (enc h 0xA5 0 0 (regCode a) 0 0)
  | .deqInit h a b lc => some (enc h 0xA6 0 0 (regCode a) (regCode b) (0#15 ++ lc))
  | .deqPush h a b => some (enc h 0xA7 0 0 (regCode a) (regCode b) 0)
  | .deqPop h d a => some (enc h 0xA8 0 (regCode d) (regCode a) 0 0)
  | .deqSteal h d a => some (enc h 0xA9 0 (regCode d) (regCode a) 0 0)
  | .sysr h d n => some (enc h 0xB0 0 (regCode d) 0 0 (0#8 ++ n))
  | .sysw h n a => some (enc h 0xB1 0 0 (regCode a) 0 (0#8 ++ n))
  | .scall h i => some (enc h 0xB2 0 0 0 0 (0#4 ++ i))
  | .brk h i => some (enc h 0xB3 0 0 0 0 (0#4 ++ i))
  | .tret h => some (enc h 0xB4 0 0 0 0 0)
  | .wfi h => some (enc h 0xB5 0 0 0 0 0)
  | .tlbinvVa h ctx a => some (enc h 0xB6 1 0 (regCode a) 0 (0#12 ++ ctx))
  | .tlbinvCtx h ctx => some (enc h 0xB6 2 0 0xF0 0 (0#12 ++ ctx))
  | .tlbinvAll h => some (enc h 0xB6 3 0 0xF0 0 0)
  | .icinvLine h a => some (enc h 0xB7 1 0 (regCode a) 0 0)
  | .icinvAll h => some (enc h 0xB7 2 0 0 0 0)
  | .halt h => some (enc h 0xB8 0 0 0 0 0)
  | .ipi h a => some (enc h 0xB9 0 0 (regCode a) 0 0)
  | _ => none

def slotOpCode : SlotOp → BitVec 7
  | .add => 0x01 | .sub => 0x03 | .mul => 0x05 | .and => 0x07 | .or => 0x09 | .xor => 0x0B | .shl => 0x0D
  | .shr => 0x0F | .sar => 0x11 | .minI => 0x13 | .maxI => 0x15 | .minN => 0x17 | .maxN => 0x18
  | .andn => 0x1B | .fadd => 0x20 | .fsub => 0x21 | .fmul => 0x22 | .fmin => 0x23 | .fmax => 0x24

def slotImmCode : SlotImmOp → BitVec 7
  | .add => 0x02 | .sub => 0x04 | .mul => 0x06 | .and => 0x08 | .or => 0x0A | .xor => 0x0C | .shl => 0x0E
  | .shr => 0x10 | .sar => 0x12 | .minI => 0x14 | .maxI => 0x16

def slotUnCode : SlotUnOp → BitVec 7
  | .mov => 0x19 | .not => 0x1C | .neg => 0x1D | .popc => 0x1E | .clz => 0x1F

def slotKCode : SlotKOp → BitVec 7
  | .and => 0x31 | .or => 0x32 | .xor => 0x33 | .andn => 0x34 | .mov => 0x35

def slotCmpCode : SlotCmp → BitVec 7
  | .eq => 0x38 | .ne => 0x39 | .lt => 0x3A | .ge => 0x3B

/-- The fields of one slot (09 R325). -/
def encSlot : Slot → SlotFields
  | .bin op d s => ⟨slotOpCode op, regCode d, regCode s, 0⟩
  | .binImm op d s i => ⟨slotImmCode op, regCode d, regCode s, i⟩
  | .un op d s => ⟨slotUnCode op, regCode d, regCode s, 0⟩
  | .movi d i => ⟨0x1A, regCode d, 0xF0, i⟩
  | .aadv d i => ⟨0x30, regCode (.a d), 0xF0, i⟩
  | .kop op d s => ⟨slotKCode op, kCode d, kCode s, 0⟩
  | .kcmp c d s i => ⟨slotCmpCode c, kCode d, regCode s, i⟩
  | .nop => ⟨0x3F, 0, 0, 0⟩

/-- The word of an instruction; `none` for the steps of other agents, which have no word. -/
def encode : Instr → Option (BitVec 64)
  | .dualWord st s0 s1 => some (BitVec.ofBool st ++ 1#1 ++ slotWord (encSlot s0) ++ slotWord (encSlot s1))
  | i => (encFields i).map wordOf

/-! ### The host's view -/

/-- The instruction the decoder reads from a table word: one 64-bit word, bits above `nbits` zero. -/
def decodeTableWord (nbits w : Nat) : Option Instr :=
  match decode (BitVec.ofNat 64 (w % 2 ^ nbits)) with
  | .ok i => some i
  | .error _ => none

end Sys2Proof
end

