-- ==== Sys2Proof/Config.lean ====
section
/-! DEFINITION. What one implementation fixes and the free values (log 10, 11, 12). Every constant below is opaque:
nothing in Lean can evaluate it, so no statement rests on a value of it. -/

namespace Sys2Proof.Config

/-- A value the spec leaves open, one for each value of the state's counter `fresh` (log 11). -/
opaque freeWord : Nat → BitVec 32
/-- A stack word of a host core whose address does not translate (log 20), by the counter and the word's number. -/
opaque freeStack : Nat → Nat → BitVec 32
/-- As `freeWord`, 64 bits. -/
opaque freeDword : Nat → BitVec 64
/-- As `freeWord`, one byte. -/
opaque freeByte : Nat → BitVec 8
/-- A choice between two allowed behaviours, for each value of the counter `fresh`. -/
opaque freeBool : Nat → Bool
/-- A choice among finitely or unboundedly many allowed behaviours. -/
opaque freeNat : Nat → Nat
/-- `TSC` ticks that pass between two steps (02 R51; log 12). -/
opaque tscTicks : Nat → Nat
/-- Choice of `frcp`, `frsq`, `fex2`, `flg2`, `fsin`, `fcos` within their bound, a fixed function of operation number and
input (08 R294): an offset that the meaning reduces to the candidates the bound allows. -/
opaque approx : Nat → BitVec 32 → Nat
/-- Free flash blocks of a wear zone when the device is delivered (06 R244). -/
opaque zoneBlocks : Nat → BitVec 32
/-- Factory weight of event i of domain kind k (02 R55), binary32. -/
opaque factoryWeight : Nat → Nat → BitVec 32
/-- Factory table G_k at 10 °C points (02 R53), in milliwatts per volt squared. -/
opaque leakage : Nat → Nat → Nat
/-- The four fused key slots, and whether a slot is revoked (02 R88). -/
opaque keySlot : Nat → BitVec 512
opaque keyRevoked : Nat → Bool
/-- The fused minimum security version (02 R88). -/
opaque minSecVersion : Nat
/-- Outcome of RSASSA-PSS verification of a digest under a key hash (02 R88), a function of outside standards. -/
opaque rsaVerify : BitVec 512 → BitVec 512 → BitVec 4096 → Bool
/-- HMAC-SHA-256 of a frame's bytes 0 to 47 under a key, truncated to 16 bytes (02 R67). -/
opaque hmac : BitVec 256 → List (BitVec 8) → BitVec 128
/-- Answers of the SPDM responder that the spec does not give bit by bit (02 R90): 1 the boot ROM, 2 the firmware image before one has
been accepted, 3 the fuses (log 10). -/
opaque spdmFixed : Nat → List (BitVec 8)
/-- Certificates (02 R90): their root is a key derived from a fused secret and the measured image. -/
opaque spdmCerts : Option (BitVec 512) → List (BitVec 8)
/-- Does event i occur in domains of kind k (02 R52)? The spec lists the events, not the kinds they occur in. -/
opaque eventIn : Nat → Nat → Bool
/-- Flow floor of a tower that firmware sets (02 R76). -/
opaque flowFloor : Nat → Nat
/-- DATA of a management-log entry by its code and its fields, whose places the spec does not give (02 R86; log 22). -/
opaque logData : Nat → List Nat → BitVec 128
/-- Domain voltage in millivolts (02 R49) chosen by firmware at start-up. -/
opaque millivolts : Nat → Nat

end Sys2Proof.Config
end

