-- ==== Sys2Proof/Machine/Tab.lean ====
section
/-! DEFINITION. Sparse tables (see `Tab` in Sys2Proof/Word.lean): a list of (key, value) pairs with strictly rising keys that
lists no value equal to the table's default. Memory is such a table of bytes. -/

namespace Sys2Proof.Machine

/-- Value at a key; the default where no entry stands. -/
def tget {α : Type} (d : α) : Tab α → Nat → α
  | [], _ => d
  | (k, v) :: t, n => if n = k then v else tget d t n

/-- Insert or replace an entry, whatever its value. -/
def tset {α : Type} : Tab α → Nat → α → Tab α
  | [], n, x => [(n, x)]
  | (k, v) :: t, n, x =>
      if n < k then (n, x) :: (k, v) :: t
      else if n = k then (n, x) :: t
      else (k, v) :: tset t n x

/-- Remove the entries of a key. -/
def tdel {α : Type} : Tab α → Nat → Tab α
  | [], _ => []
  | (k, v) :: t, n => if n = k then tdel t n else (k, v) :: tdel t n

/-- Write a value: writing the default removes the entry, so equal tables are equal data. -/
def tput {α : Type} [DecidableEq α] (d : α) (t : Tab α) (n : Nat) (x : α) : Tab α :=
  if x = d then tdel t n else tset t n x

/-- Every key of a table is at least `n` and keys rise strictly. -/
def tsorted {α : Type} : Nat → Tab α → Bool
  | _, [] => true
  | n, (k, _) :: t => decide (n ≤ k) && tsorted (k + 1) t

/-- The canonical form of a table. -/
def twf {α : Type} [DecidableEq α] (d : α) (t : Tab α) : Bool :=
  tsorted 0 t && t.all (fun p => decide (p.2 ≠ d))

/-- Update the value at a key. -/
def tupd {α : Type} [DecidableEq α] (d : α) (t : Tab α) (n : Nat) (f : α → α) : Tab α := tput d t n (f (tget d t n))

/-- The entries of a partial map that hold a value, in rising key order. -/
def tsome {α : Type} (t : Tab (Option α)) : List (Nat × α) :=
  t.filterMap (fun p => p.2.map (fun v => (p.1, v)))

/-- The least key not in use at or above `n`. -/
def tfresh {α : Type} (n : Nat) : Tab α → Nat
  | [] => n
  | (k, _) :: t => tfresh (max n (k + 1)) t

end Sys2Proof.Machine
end

