-- ==== Sys2Proof/Machine/Bits.lean ====
section
/-! DEFINITION. Bits, bytes and lane masks: little-endian byte lists (00 R6), 128-byte lines as 1,024 bits, and masks of
32 lanes. -/

namespace Sys2Proof.Machine

/-- Bytes of a value, lowest address first (00 R6). -/
def leBytes : Nat → Nat → List Byte
  | 0, _ => []
  | n + 1, x => BitVec.ofNat 8 x :: leBytes n (x / 256)

/-- Value of bytes, lowest address first (00 R6). -/
def leNat : List Byte → Nat
  | [] => 0
  | b :: t => b.toNat + 256 * leNat t

/-- Byte i of a line. -/
def lineByte (d : BitVec 1024) (i : Nat) : Byte := d.extractLsb' (8 * i) 8

/-- Replace byte i of a line. -/
def lineSet (d : BitVec 1024) (i : Nat) (b : Byte) : BitVec 1024 :=
  (d &&& ~~~((0xFF#1024) <<< (8 * i))) ||| ((b.setWidth 1024) <<< (8 * i))

/-- Bit i of a byte mask set. -/
def bit128 (m : BitVec 128) (i : Nat) : BitVec 128 := m ||| ((1#128) <<< i)

/-- Bytes of `new` where the mask is set, bytes of `old` elsewhere. -/
def lineMerge (old new : BitVec 1024) (m : BitVec 128) : BitVec 1024 :=
  (List.range 128).foldl (fun d i => if m.getLsbD i then lineSet d i (lineByte new i) else d) old

/-- The set of lanes below 32 for which `f` holds. -/
def maskOf (f : Nat → Bool) : Mask :=
  (List.range 32).foldl (fun m i => if f i then m ||| ((1#32) <<< i) else m) 0

/-- The lanes of a mask in increasing order. -/
def lanesOf (m : Mask) : List Nat := (List.range 32).filter (fun i => m.getLsbD i)

/-- One lane's mask. -/
def laneBit (i : Nat) : Mask := (1#32) <<< i

/-- Field [lo + w − 1 : lo] of a natural number. -/
def bits (x lo w : Nat) : Nat := (x / 2 ^ lo) % 2 ^ w

/-- Replace field [lo + w − 1 : lo]. -/
def setBits (x lo w v : Nat) : Nat :=
  x - bits x lo w * 2 ^ lo + (v % 2 ^ w) * 2 ^ lo

/-- Round up to a multiple of n (n > 0). -/
def alignUp (x n : Nat) : Nat := (x + n - 1) / n * n

/-- Two's-complement value of the low w bits. -/
def sgn (w x : Nat) : Int :=
  let y := x % 2 ^ w
  if 2 * y < 2 ^ w then (y : Int) else (y : Int) - (2 ^ w : Nat)

/-- The low w bits of an integer. -/
def wrapNat (w : Nat) (x : Int) : Nat := (x % (2 ^ w : Nat)).toNat

/-- Is the number at most n, as the clamp of 12 R447 needs. -/
def natMin (a b : Nat) : Nat := if a ≤ b then a else b

/-- The first element that satisfies p, with its place. -/
def findIdxFrom {α : Type} (p : α → Bool) : Nat → List α → Option (Nat × α)
  | _, [] => none
  | n, x :: t => if p x then some (n, x) else findIdxFrom p (n + 1) t

/-- Replace element i of a list. -/
def listSet {α : Type} : List α → Nat → α → List α
  | [], _, _ => []
  | _ :: t, 0, x => x :: t
  | y :: t, n + 1, x => y :: listSet t n x

/-- Element i of a list. -/
def listGet {α : Type} : List α → Nat → Option α
  | [], _ => none
  | x :: _, 0 => some x
  | _ :: t, n + 1 => listGet t n

end Sys2Proof.Machine
end

