-- ==== Sys2Proof/Machine/Flags.lean ====
section
/-! DEFINITION. Arithmetic and its flags: integer results (10 R339 to R344, 08 R299), floating-point results as the exact value
rounded once (08 R286 to R298, 11 R385 to R395), block formats and MX scales. Operands and results are bit patterns. -/

namespace Sys2Proof.Machine

/-- The six sticky flags (08 R284). -/
abbrev Fl := BitVec 6

def fInvalid : Fl := 1
def fDivzero : Fl := 2
def fOverflow : Fl := 4
def fUnderflow : Fl := 8
def fInexact : Fl := 16
def fSat : Fl := 32

/-- A flag when the condition holds. -/
def flagIf (b : Bool) (f : Fl) : Fl := if b then f else 0

/-! ### Integers -/

/-- An operand as an integer: signed for `.i` types (10 R338). -/
def intOf (t : Ty) (x : Nat) : Int := if tySigned t then sgn (tyBits t) x else ((x % 2 ^ tyBits t : Nat) : Int)

def iAdd (w a b : Nat) : Nat := (a + b) % 2 ^ w
def iSub (w a b : Nat) : Nat := wrapNat w ((a : Int) - (b : Int))
def iMul (w a b : Nat) : Nat := (a * b) % 2 ^ w
def iMulh (t : Ty) (a b : Nat) : Nat :=
  wrapNat (tyBits t) ((intOf t a * intOf t b) / ((2 ^ tyBits t : Nat) : Int))

/-- Quotient and flags (08 R299). -/
def iDiv (t : Ty) (a b : Nat) : Nat × Fl :=
  if b % 2 ^ tyBits t = 0 then (0, fDivzero)
  else (wrapNat (tyBits t) (Int.tdiv (intOf t a) (intOf t b)), 0)

/-- Remainder and flags (08 R299). -/
def iRem (t : Ty) (a b : Nat) : Nat × Fl :=
  if b % 2 ^ tyBits t = 0 then (a % 2 ^ tyBits t, fDivzero)
  else (wrapNat (tyBits t) (Int.tmod (intOf t a) (intOf t b)), 0)

def iMin (t : Ty) (a b : Nat) : Nat := if intOf t a ≤ intOf t b then a else b
def iMax (t : Ty) (a b : Nat) : Nat := if intOf t a ≤ intOf t b then b else a
def iNeg (w a : Nat) : Nat := wrapNat w (-(a : Int))
def iAbs (t : Ty) (a : Nat) : Nat := wrapNat (tyBits t) (Int.natAbs (intOf t a) : Int)
def iAnd (a b : Nat) : Nat := a &&& b
def iOr (a b : Nat) : Nat := a ||| b
def iXor (a b : Nat) : Nat := a ^^^ b
def iNot (w a : Nat) : Nat := 2 ^ w - 1 - a % 2 ^ w
def iAndn (w a b : Nat) : Nat := a &&& iNot w b

/-- The four shifts; n is the unsigned count (10 R339). -/
def iShl (w a n : Nat) : Nat := if w ≤ n then 0 else (a * 2 ^ n) % 2 ^ w
def iShr (w a n : Nat) : Nat := if w ≤ n then 0 else a / 2 ^ n
def iSar (w a n : Nat) : Nat := wrapNat w (sgn w a / ((2 ^ (if w ≤ n then w else n) : Nat) : Int))
def iRotl (w a n : Nat) : Nat := (a * 2 ^ (n % w)) % 2 ^ w + a / 2 ^ (w - n % w)

/-- Counts of zero and set bits (10 R340). -/
def iClz (w a : Nat) : Nat := if a = 0 then w else w - 1 - Nat.log2 a
def iCtzFrom (a : Nat) : Nat → Nat → Nat
  | 0, k => k
  | n + 1, k => if a.testBit k then k else iCtzFrom a n (k + 1)
def iCtz (w a : Nat) : Nat := iCtzFrom a w 0
def iPopc (w a : Nat) : Nat := ((List.range w).filter (fun i => a.testBit i)).length
def iBrev (w a : Nat) : Nat :=
  (List.range w).foldl (fun r i => if a.testBit i then r + 2 ^ (w - 1 - i) else r) 0

/-- `bfx` (10 R341). -/
def iBfx (t : Ty) (a b c : Nat) : Nat :=
  let w := tyBits t
  let pos := natMin (b % 256) w
  let len := natMin (c % 256) (w - pos)
  let f := bits a pos len
  if len = 0 then 0 else if tySigned t then wrapNat w (sgn len f) else f

/-- `bfi` (10 R341): d is the prior content of D. -/
def iBfi (w d a b c : Nat) : Nat :=
  let pos := natMin (b % 256) w
  let len := natMin (c % 256) (w - pos)
  if len = 0 then d else setBits d pos len (a % 2 ^ len)

/-- A comparison relation on integers (10 R338). -/
def cmpInt (cc : Cmp) (x y : Int) : Bool :=
  match cc with
  | .eq => decide (x = y) | .ne => decide (x ≠ y) | .lt => decide (x < y) | .le => decide (x ≤ y)
  | .gt => decide (y < x) | .ge => decide (y ≤ x)

def iCmp (cc : Cmp) (t : Ty) (a b : Nat) : Bool := cmpInt cc (intOf t a) (intOf t b)

/-- Smallest and largest value of an integer type. -/
def tyMin (t : Ty) : Int := if tySigned t then -((2 ^ (tyBits t - 1) : Nat) : Int) else 0
def tyMax (t : Ty) : Int := if tySigned t then ((2 ^ (tyBits t - 1) : Nat) : Int) - 1 else ((2 ^ tyBits t : Nat) : Int) - 1

/-- Clamp to the range of a type, SAT when clamped (08 R296, 10 R344). -/
def clampTo (t : Ty) (x : Int) : Int × Fl :=
  if x < tyMin t then (tyMin t, fSat) else if tyMax t < x then (tyMax t, fSat) else (x, 0)

/-- A value of type t extended to a register of 32 or 64 bits (10 R344, 11 R393). -/
def extTo (t : Ty) (x : Int) : Nat := wrapNat (if tyWide t then 64 else 32) x

/-- `isat` (10 R344). -/
def iSat (t src : Ty) (a : Nat) : Nat × Fl :=
  let r := clampTo t (intOf src a)
  (wrapNat 32 r.1, r.2)

/-- `pack` (10 R351): d is the prior content of D. -/
def iPack (t : Ty) (sat : Bool) (d a b : Nat) : Nat × Fl :=
  let w := tyBits t
  let e := b % (32 / w)
  let r := if sat then clampTo t (sgn 32 a) else ((a : Int), 0)
  (setBits d (w * e) w (wrapNat w r.1), r.2)

/-- `unpack` (10 R351). -/
def iUnpack (t : Ty) (a b : Nat) : Nat :=
  let w := tyBits t
  let f := bits a (w * (b % (32 / w))) w
  if tySigned t then wrapNat 32 (sgn w f) else f

/-! ### Floating-point values -/

/-- A decoded value: NaN (signalling or not), infinity, or (−1)^neg × m × 2^e. -/
inductive Fp where
  | nan (sig : Bool)
  | inf (neg : Bool)
  | fin (neg : Bool) (m : Nat) (e : Int)
  deriving DecidableEq, Repr

def shapeOf (t : Ty) : Nat × Nat := (fltShape t).getD (8, 23)
def expBits (t : Ty) : Nat := (shapeOf t).1
def manBits (t : Ty) : Nat := (shapeOf t).2
def fltBias (t : Ty) : Int := (2 ^ (expBits t - 1) : Nat) - 1

/-- Formats with infinities (08 R280). -/
def hasInf (t : Ty) : Bool := t == .f64 || t == .f32 || t == .bf16 || t == .f16 || t == .e5m2

/-- Formats without NaN (08 R280). -/
def noNan (t : Ty) : Bool := t == .e3m2 || t == .e2m3 || t == .e2m1

/-- Formats whose subnormals FTZ flushes (08 R290). -/
def ftzTy (t : Ty) : Bool := t == .f64 || t == .f32 || t == .bf16 || t == .f16

/-- Value of a code (08 R280). -/
def fpDecode (t : Ty) (x : Nat) : Fp :=
  let mw := manBits t
  let ew := expBits t
  let m := x % 2 ^ mw
  let ex := bits x mw ew
  let neg : Bool := bits x (mw + ew) 1 = 1
  if hasInf t && ex = 2 ^ ew - 1 then
    (if m = 0 then .inf neg else .nan (ftzTy t && decide (m < 2 ^ (mw - 1))))
  else if t = .e4m3 ∧ ex = 15 ∧ m = 7 then .nan false
  else if ex = 0 then .fin neg m (1 - fltBias t - mw)
  else .fin neg (m + 2 ^ mw) ((ex : Int) - fltBias t - mw)

/-- An input of vector arithmetic: a subnormal reads as zero of its sign under FTZ (08 R290). -/
def fpRead (ftz : Bool) (t : Ty) (x : Nat) : Fp :=
  match fpDecode t x with
  | .fin neg m e => if ftz && ftzTy t && decide (m < 2 ^ manBits t) then .fin neg 0 e else .fin neg m e
  | v => v

def signBit (t : Ty) (neg : Bool) : Nat := if neg then 2 ^ (manBits t + expBits t) else 0

/-- The canonical NaN (08 R288); the formats without one deliver +max. -/
def canonNan (t : Ty) : Nat :=
  match t with
  | .f64 => 0x7FF8000000000000 | .f32 => 0x7FC00000 | .bf16 => 0x7FC0 | .f16 => 0x7E00
  | .e5m2 => 0x7E | .e4m3 => 0x7F | .e3m2 => 0x1F | .e2m3 => 0x1F | .e2m1 => 7
  | _ => 0

/-- A NaN delivered into a format; INVALID into one without NaN (08 R288, R295). -/
def giveNan (t : Ty) (inv : Bool) : Nat × Fl := (canonNan t, flagIf (inv || noNan t) fInvalid)

def infCode (t : Ty) (neg : Bool) : Nat := signBit t neg + (2 ^ expBits t - 1) * 2 ^ manBits t

/-- Code of the largest finite value. -/
def maxCode (t : Ty) (neg : Bool) : Nat :=
  signBit t neg + (if hasInf t then (2 ^ expBits t - 1) * 2 ^ manBits t - 1
    else if t = .e4m3 then 0x7E else 2 ^ (expBits t + manBits t) - 1)

/-- Largest finite value as n × 2^q. -/
def maxFin (t : Ty) : Nat × Int :=
  match fpDecode t (maxCode t false) with
  | .fin _ m e => (m, e)
  | _ => (0, 0)

/-- An exact magnitude: (m + δ) × 2^e, where 0 < δ < 1 when `sticky` and δ = 0 otherwise. -/
structure Exact where
  m      : Nat
  e      : Int
  sticky : Bool
  deriving DecidableEq, Repr

/-- Round a magnitude to a multiple of 2^q (08 R286, R291): the multiple and whether it is inexact. `s24` is the random
number of stochastic rounding. -/
def roundAt (rm : Rnd) (s24 : Nat) (neg : Bool) (x : Exact) (q : Int) : Nat × Bool :=
  if q ≤ x.e then (x.m * 2 ^ (x.e - q).toNat, x.sticky)
  else
    let sh0 := (q - x.e).toNat
    let far : Bool := Nat.log2 x.m + 40 < sh0
    let m := if far then 0 else x.m
    let sh := if far then 1 else sh0
    let sticky := if far then x.sticky || decide (x.m ≠ 0) else x.sticky
    let n := m / 2 ^ sh
    let r := m % 2 ^ sh
    let half := 2 ^ (sh - 1)
    let inex : Bool := decide (r ≠ 0) || sticky
    let up : Bool := match rm with
      | .rtz => false
      | .rup => inex && !neg
      | .rdn => inex && neg
      | .rna => decide (half ≤ r)
      | .sr => inex && decide (s24 < r * 2 ^ 24 / 2 ^ sh)
      | _ => decide (half < r) || (decide (r = half) && (sticky || n % 2 = 1))
    (if up then n + 1 else n, inex)

/-- Exponent of the leading bit of a non-zero magnitude. -/
def leadOf (x : Exact) : Int := (Nat.log2 x.m : Int) + x.e

/-- Smallest normal exponent. -/
def eMin (t : Ty) : Int := 1 - fltBias t

/-- Code of n × 2^q, n below 2^(M+1) and q as `roundAt` chose it. -/
def packFin (t : Ty) (neg : Bool) (n : Nat) (q : Int) : Nat :=
  signBit t neg + (if n < 2 ^ manBits t then n
    else (q + manBits t + fltBias t).toNat * 2 ^ manBits t + (n - 2 ^ manBits t))

/-- n × 2^q exceeds the largest finite value. -/
def exceeds (t : Ty) (n : Nat) (q : Int) : Bool :=
  let mx := maxFin t
  decide (mx.2 < q) || (decide (q = mx.2) && decide (mx.1 < n))

/-- What an overflow delivers (08 R287, R295). -/
def overflowTo (t : Ty) (rm : Rnd) (sat neg : Bool) : Nat × Fl :=
  if noNan t || (sat && (fltShape t).isSome) then (maxCode t neg, fSat ||| fInexact)
  else if t = .e4m3 then (canonNan t, fOverflow ||| fInexact)
  else
    let toMax : Bool := match rm with
      | .rtz => true | .rup => neg | .rdn => !neg | _ => false
    (if toMax then maxCode t neg else infCode t neg, fOverflow ||| fInexact)

/-- Round an exact value into a format and set its flags (08 R286 to R291). -/
def fpRound (t : Ty) (rm : Rnd) (ftz sat : Bool) (s24 : Nat) (neg : Bool) (x : Exact) : Nat × Fl :=
  if x.m = 0 ∧ x.sticky = false then (signBit t neg, 0)
  else
    let mw : Int := manBits t
    let q0 := leadOf x - mw
    let q := if q0 < eMin t - mw then eMin t - mw else q0
    let r0 := roundAt rm s24 neg x q0
    let r := roundAt rm s24 neg x q
    let tiny : Bool := decide (r0.1 ≠ 0) && (decide (q0 < eMin t - mw) &&
      !(decide (q0 + 1 = eMin t - mw) && decide (r0.1 = 2 ^ (manBits t + 1))))
    let n := if r.1 = 2 ^ (manBits t + 1) then 2 ^ manBits t else r.1
    let q := if r.1 = 2 ^ (manBits t + 1) then q + 1 else q
    if exceeds t n q then overflowTo t rm sat neg
    else if ftz && ftzTy t && decide (n ≠ 0) && decide (n < 2 ^ manBits t) then (signBit t neg, fUnderflow ||| fInexact)
    else (packFin t neg n q, flagIf r.2 fInexact ||| flagIf (tiny && r.2) fUnderflow)

/-- A signed integer times a power of two, as sign and magnitude. -/
def exactOf (x : Int) (e : Int) : Exact := { m := x.natAbs, e := e, sticky := false }

/-- Signed integer of a finite value at exponent `e0` at or below its own. -/
def intAt (neg : Bool) (m : Nat) (e e0 : Int) : Int :=
  let v : Int := ((m * 2 ^ (e - e0).toNat : Nat) : Int)
  if neg then -v else v

def minInt (a b : Int) : Int := if a ≤ b then a else b

/-- Sign of an exact zero sum (08 R293): that of two zeros of equal sign, else + but for RDN. -/
def zeroSign (rm : Rnd) (na nb bothZero : Bool) : Bool := if bothZero && na == nb then na else rm == .rdn

/-- The sum of two finite values, rounded once. -/
def fpSumFin (t : Ty) (rm : Rnd) (ftz : Bool) (na : Bool) (ma : Nat) (ea : Int) (nb : Bool) (mb : Nat) (eb : Int) : Nat × Fl :=
  let e0 := minInt (if ma = 0 then eb else ea) (if mb = 0 then ea else eb)
  let x := (if ma = 0 then 0 else intAt na ma ea e0) + (if mb = 0 then 0 else intAt nb mb eb e0)
  if x = 0 then (signBit t (zeroSign rm na nb (ma = 0 && mb = 0)), 0)
  else fpRound t rm ftz false 0 (decide (x < 0)) (exactOf x e0)

/-- Addition of decoded values into format t (08 R293). -/
def fpAddV (t : Ty) (rm : Rnd) (ftz : Bool) (a b : Fp) : Nat × Fl :=
  match a, b with
  | .nan s, .nan r => giveNan t (s || r)
  | .nan s, _ => giveNan t s
  | _, .nan r => giveNan t r
  | .inf x, .inf y => if x == y then (infCode t x, 0) else giveNan t true
  | .inf x, _ => (infCode t x, 0)
  | _, .inf y => (infCode t y, 0)
  | .fin na ma ea, .fin nb mb eb => fpSumFin t rm ftz na ma ea nb mb eb

def fpNegV : Fp → Fp
  | .nan s => .nan s
  | .inf n => .inf (!n)
  | .fin n m e => .fin (!n) m e

/-- An exact product as a decoded value; `none` for 0 × ∞. A NaN stays one. -/
def fpMulV (a b : Fp) : Option Fp :=
  match a, b with
  | .nan s, .nan r => some (.nan (s || r))
  | .nan s, _ => some (.nan s)
  | _, .nan r => some (.nan r)
  | .inf x, .inf y => some (.inf (x != y))
  | .inf x, .fin n m _ => if m = 0 then none else some (.inf (x != n))
  | .fin n m _, .inf y => if m = 0 then none else some (.inf (n != y))
  | .fin na ma ea, .fin nb mb eb => some (.fin (na != nb) (ma * mb) (ea + eb))

/-- Deliver a decoded value into a format, rounded once. -/
def fpGive (t : Ty) (rm : Rnd) (ftz : Bool) (v : Fp) : Nat × Fl :=
  match v with
  | .nan s => giveNan t s
  | .inf n => (infCode t n, 0)
  | .fin n m e => fpRound t rm ftz false 0 n { m := m, e := e, sticky := false }

def fpAdd (t : Ty) (rm : Rnd) (ftz : Bool) (a b : Nat) : Nat × Fl := fpAddV t rm ftz (fpRead ftz t a) (fpRead ftz t b)
def fpSub (t : Ty) (rm : Rnd) (ftz : Bool) (a b : Nat) : Nat × Fl :=
  fpAddV t rm ftz (fpRead ftz t a) (fpNegV (fpRead ftz t b))

def fpMul (t : Ty) (rm : Rnd) (ftz : Bool) (a b : Nat) : Nat × Fl :=
  match fpMulV (fpRead ftz t a) (fpRead ftz t b) with
  | none => giveNan t true
  | some v => fpGive t rm ftz v

/-- Fused multiply-add (08 R293): 0 × ∞ is invalid whatever c holds. -/
def fpFma (t : Ty) (rm : Rnd) (ftz : Bool) (a b c : Nat) : Nat × Fl :=
  match fpMulV (fpRead ftz t a) (fpRead ftz t b) with
  | none => giveNan t true
  | some p => fpAddV t rm ftz p (fpRead ftz t c)

/-- Division (08 R293). -/
def fpDiv (t : Ty) (rm : Rnd) (ftz : Bool) (a b : Nat) : Nat × Fl :=
  match fpRead ftz t a, fpRead ftz t b with
  | .nan s, .nan r => giveNan t (s || r)
  | .nan s, _ => giveNan t s
  | _, .nan r => giveNan t r
  | .inf _, .inf _ => giveNan t true
  | .inf x, .fin n _ _ => (infCode t (x != n), 0)
  | .fin n _ _, .inf y => (signBit t (n != y), 0)
  | .fin na ma ea, .fin nb mb eb =>
    if mb = 0 then (if ma = 0 then giveNan t true else (infCode t (na != nb), fDivzero))
    else
      let k := manBits t + 8 + Nat.log2 mb
      let num := ma * 2 ^ k
      fpRound t rm ftz false 0 (na != nb)
        { m := num / mb, e := ea - eb - k, sticky := decide (num % mb ≠ 0) }

/-- Integer square root by bits, from bit k − 1 down. -/
def isqrtFrom (x : Nat) : Nat → Nat → Nat
  | 0, r => r
  | k + 1, r => if (r + 2 ^ k) * (r + 2 ^ k) ≤ x then isqrtFrom x k (r + 2 ^ k) else isqrtFrom x k r

def isqrt (x : Nat) : Nat := isqrtFrom x (Nat.log2 x / 2 + 1) 0

/-- Square root (08 R293). -/
def fpSqrt (t : Ty) (rm : Rnd) (ftz : Bool) (a : Nat) : Nat × Fl :=
  match fpRead ftz t a with
  | .nan s => giveNan t s
  | .inf n => if n then giveNan t true else (infCode t false, 0)
  | .fin n m e =>
    if m = 0 then (signBit t n, 0)
    else if n then giveNan t true
    else
      let k0 := 2 * manBits t + 12
      let k := if (e - k0) % 2 = 0 then k0 else k0 + 1
      let x := m * 2 ^ k
      let r := isqrt x
      fpRound t rm ftz false 0 false { m := r, e := (e - k) / 2, sticky := decide (r * r ≠ x) }

/-- Order of two finite values or infinities, −0 below +0 when `zeros`. -/
def fpKey (zeros : Bool) : Fp → Int × Nat × Int
  | .nan _ => (0, 0, 0)
  | .inf n => (if n then -2 else 2, 0, 0)
  | .fin n m e => if m = 0 then ((if zeros then (if n then -1 else 1) else 0), 0, 0) else (if n then -1 else 1, m, e)

/-- a ≤ b for two values that are no NaN; `zeros` orders −0 below +0. -/
def fpLe (zeros : Bool) (a b : Fp) : Bool :=
  match a, b with
  | .inf x, .inf y => x || !y
  | .inf x, _ => x
  | _, .inf y => !y
  | .fin na ma ea, .fin nb mb eb =>
    let e0 := minInt ea eb
    let x := intAt na ma ea e0
    let y := intAt nb mb eb e0
    if x = 0 ∧ y = 0 ∧ zeros then (na || !nb) else decide (x ≤ y)
  | _, _ => false

def isNan : Fp → Bool | .nan _ => true | _ => false
def isSig : Fp → Bool | .nan s => s | _ => false

/-- Bits of a value read under FTZ. -/
def ftzCode (ftz : Bool) (t : Ty) (x : Nat) : Nat :=
  match fpRead ftz t x with
  | .fin n 0 _ => signBit t n
  | _ => x % 2 ^ (1 + manBits t + expBits t)

/-- `fmin` and `fmax` (11 R386). -/
def fpMinMax (t : Ty) (ftz maxi : Bool) (a b : Nat) : Nat × Fl :=
  let x := fpRead ftz t a
  let y := fpRead ftz t b
  let f := flagIf (isSig x || isSig y) fInvalid
  if isNan x && isNan y then (canonNan t, f)
  else if isNan x then (ftzCode ftz t b, f)
  else if isNan y then (ftzCode ftz t a, f)
  else if fpLe true x y != maxi then (ftzCode ftz t a, f) else (ftzCode ftz t b, f)

/-- `fcmp` (11 R388). -/
def fpCmp (t : Ty) (ftz : Bool) (cc : Cmp) (a b : Nat) : Bool × Fl :=
  let x := fpRead ftz t a
  let y := fpRead ftz t b
  let ordered : Bool := match cc with | .eq => false | .ne => false | _ => true
  if isNan x || isNan y then (cc == .ne, flagIf (isSig x || isSig y || ordered) fInvalid)
  else
    let le := fpLe false x y
    let ge := fpLe false y x
    (match cc with
     | .eq => le && ge | .ne => !(le && ge) | .lt => le && !ge | .le => le | .gt => ge && !le | .ge => ge, 0)

/-- `fcls` (11 R389). -/
def fpClass (t : Ty) (a : Nat) : Nat :=
  match fpDecode t a with
  | .nan s => if s then 1 else 2
  | .inf n => if n then 4 else 512
  | .fin n m _ =>
    if m = 0 then (if n then 32 else 64)
    else if m < 2 ^ manBits t then (if n then 16 else 128)
    else (if n then 8 else 256)

/-- `frnd` (11 R389). -/
def fpInt (t : Ty) (rm : Rnd) (ftz : Bool) (a : Nat) : Nat × Fl :=
  match fpRead ftz t a with
  | .nan s => giveNan t s
  | .inf n => (infCode t n, 0)
  | .fin n m e =>
    if m = 0 then (signBit t n, 0)
    else if 0 ≤ e then (a % 2 ^ (1 + manBits t + expBits t), 0)
    else
      let r := roundAt rm 0 n { m := m, e := e, sticky := false } 0
      let g := fpRound t rm false false 0 n { m := r.1, e := 0, sticky := false }
      (g.1, flagIf r.2 fInexact)

/-- `fscl` (11 R389): b is a signed 32-bit integer. -/
def fpScale (t : Ty) (rm : Rnd) (ftz : Bool) (a b : Nat) : Nat × Fl :=
  match fpRead ftz t a with
  | .nan s => giveNan t s
  | .inf n => (infCode t n, 0)
  | .fin n m e =>
    if m = 0 then (signBit t n, 0)
    else fpRound t rm ftz false 0 n { m := m, e := e + sgn 32 b, sticky := false }

/-! ### Conversions (08 R295 to R297) -/

/-- Convert a decoded value of source type into a float format. `exact` when the target holds every source value; FTZ flushes a subnormal
result of these too (log 110). -/
def fpConvV (d : Ty) (rm : Rnd) (ftz sat exact : Bool) (s24 : Nat) (v : Fp) : Nat × Fl :=
  match v with
  | .nan s => giveNan d s
  | .inf n =>
    if exact then (infCode d n, 0)
    else if noNan d || sat then (maxCode d n, fSat)
    else if hasInf d then (infCode d n, 0)
    else (canonNan d, fInvalid)
  | .fin n m e => fpRound d rm ftz sat s24 n { m := m, e := e, sticky := false }

/-- Float to float (08 R295). -/
def fpConv (d s : Ty) (rm : Rnd) (ftz sat : Bool) (s24 a : Nat) : Nat × Fl :=
  fpConvV d rm ftz sat (holdsAll d s) s24 (fpRead ftz s a)

/-- Float to integer (08 R296), as an integer. -/
def fpToInt (d s : Ty) (rm : Rnd) (ftz : Bool) (s24 a : Nat) : Int × Fl :=
  match fpRead ftz s a with
  | .nan _ => (0, fInvalid)
  | .inf n => (if n then tyMin d else tyMax d, fSat)
  | .fin n m e =>
    let r := roundAt rm s24 n { m := m, e := e, sticky := false } 0
    let v : Int := if n then -(r.1 : Int) else (r.1 : Int)
    let c := clampTo d v
    (c.1, c.2 ||| flagIf r.2 fInexact)

/-- Integer to float (08 R296, R295). -/
def fpOfInt (d : Ty) (rm : Rnd) (ftz sat : Bool) (s24 : Nat) (x : Int) : Nat × Fl :=
  fpRound d rm ftz sat s24 (decide (x < 0)) (exactOf x 0)

/-- Floor of log2 of the largest magnitude among finite values; `none` when all are zero. -/
def maxLead (vs : List Fp) : Option Int :=
  vs.foldl (fun acc v =>
    match v with
    | .fin _ m e =>
      if m = 0 then acc
      else
        let l := (Nat.log2 m : Int) + e
        match acc with
        | none => some l
        | some k => if k < l then some l else some k
    | _ => acc) none

def anySpecial (vs : List Fp) : Bool := vs.any (fun v => match v with | .fin _ _ _ => false | _ => true)

/-- Block exponent of a conversion to BFPm (08 R297). -/
def bfpExp (vs : List Fp) : Nat :=
  if anySpecial vs then 0xFF
  else match maxLead vs with
    | none => 0
    | some l => (l + 127).toNat

/-- One element of a block conversion: t (as an integer) and flags (08 R297). -/
def bfpElem (m : Nat) (rm : Rnd) (s24 blockE : Nat) (v : Fp) : Int × Fl :=
  if blockE = 0xFF then (0, fInvalid)
  else match v with
    | .fin n k e =>
      let q : Int := (blockE : Int) - 127 - ((m : Int) - 2)
      let r := roundAt rm s24 n { m := k, e := e, sticky := false } q
      let x : Int := if n then -(r.1 : Int) else (r.1 : Int)
      let hi : Int := ((2 ^ (m - 1) : Nat) : Int) - 1
      let lo : Int := -((2 ^ (m - 1) : Nat) : Int)
      if hi < x then (hi, fSat ||| fInexact)
      else if x < lo then (lo, fSat ||| fInexact)
      else (x, flagIf r.2 fInexact)
    | _ => (0, fInvalid)

/-- Value of a BFPm element t with block exponent E (08 R281). -/
def bfpValue (m t blockE : Nat) : Fp :=
  if blockE = 0xFF then .nan false
  else
    let x := sgn m t
    .fin (decide (x < 0)) x.natAbs ((blockE : Int) - 127 - ((m : Int) - 2))

/-- emax of a format in 08 R298. -/
def mxEmax (t : Ty) : Int :=
  match t with | .e4m3 => 8 | .e5m2 => 15 | .e3m2 => 4 | _ => 2

/-- MX scale byte of a block (08 R298). -/
def mxScale (t : Ty) (vs : List Fp) : Nat × Fl :=
  if anySpecial vs then (0xFF, fInvalid)
  else match maxLead vs with
    | none => (127, 0)
    | some l =>
      let x := l - mxEmax t
      ((if x < -127 then 0 else if 127 < x then 254 else (x + 127).toNat), 0)

/-- `fdot2`, `fdot4` (11 R395): the exact sum of products and c, rounded once. -/
def fpDot (rm : Rnd) (ftz : Bool) (ps : List (Fp × Fp)) (c : Fp) : Nat × Fl :=
  let prods := ps.map (fun p => fpMulV p.1 p.2)
  let ins := c :: (ps.map (·.1) ++ ps.map (·.2))
  let terms := c :: prods.filterMap id
  let posInf := terms.any (fun v => v == Fp.inf false)
  let negInf := terms.any (fun v => v == Fp.inf true)
  let bad := prods.any (·.isNone) || (posInf && negInf)
  if bad || terms.any isNan then (canonNan .f32, flagIf (bad || ins.any isSig) fInvalid)
  else if posInf then (infCode .f32 false, 0)
  else if negInf then (infCode .f32 true, 0)
  else
    let fins := terms.filterMap (fun v => match v with | .fin n m e => some (n, m, e) | _ => none)
    let e0 := fins.foldl (fun a (p : Bool × Nat × Int) => if p.2.1 = 0 then a else minInt a p.2.2) 0
    let sum := fins.foldl (fun (a : Int) p => a + (if p.2.1 = 0 then 0 else intAt p.1 p.2.1 p.2.2 e0)) 0
    if sum = 0 then
      let allNegZero := fins.all (fun p => p.1 && decide (p.2.1 = 0))
      let allPosZero := fins.all (fun p => !p.1 && decide (p.2.1 = 0))
      (signBit .f32 (if allNegZero then true else if allPosZero then false else rm == .rdn), 0)
    else fpRound .f32 rm ftz false 0 (decide (sum < 0)) (exactOf sum e0)

/-! ### Atomic operations (10 R365) -/

/-- The new value of an atomic operation on `old`; `cmp` is the prior content of D of `.cas`. -/
def atomNew (op : AtomOp) (t : Ty) (old b cmp : Nat) : Nat :=
  match op with
  | .add => iAdd (tyBits t) old b
  | .sub => iSub (tyBits t) old b
  | .and => iAnd old b
  | .or => iOr old b
  | .xor => iXor old b
  | .min => iMin t old b
  | .max => iMax t old b
  | .xchg => b
  | .cas => if old = cmp then b else old
  | .incw => if b ≤ old then 0 else old + 1
  | .decw => if old = 0 ∨ b < old then b else old - 1
  | .fadd => (fpAdd t .rne false old b).1
  | .fmin => (fpMinMax t false false old b).1
  | .fmax => (fpMinMax t false true old b).1

/-! ### The operations of bounded error (08 R294, 11 R387) -/

/-- Fraction bits of the fixed-point values below. -/
def fixF : Nat := 384
def fixOne : Int := ((2 ^ 384 : Nat) : Int)

/-- π/2 and ln 2, truncated to `fixF` fraction bits. -/
def halfPi : Int :=
  0x1921fb54442d18469898cc51701b839a252049c1114cf98e804177d4c76273644a29410f31c6809bbdf2a33679a748636
def ln2 : Int :=
  0xb17217f7d1cf79abc9e3b39803f2f6af40f343267298b62d8a0d175b8baafa2be7b876206debac98559552fb4afa1b10

/-- Product of fixed-point values. -/
def fixMul (a b : Int) : Int := a * b / fixOne

/-- Taylor sum: `term` is the next term, multiplied by `z` and divided by the factors (n + 1) … (n + step) each time. -/
def taylor (z : Int) (step : Nat) : Nat → Nat → Int → Int
  | 0, _, _ => 0
  | k + 1, n, term =>
    let den : Int := if step = 1 then ((n + 1 : Nat) : Int) else (((n + 1) * (n + 2) : Nat) : Int)
    term + taylor z step k (n + step) (fixMul term z / den)

/-- 2^f for a fraction 0 ≤ f < 1. -/
def fixExp2 (f : Int) : Int := taylor (fixMul f ln2) 1 90 0 fixOne

/-- atanh series: Σ p/(2k+1), p multiplied by z each time. -/
def atanhSum (z : Int) : Nat → Nat → Int → Int
  | 0, _, _ => 0
  | k + 1, n, p => p / ((n : Nat) : Int) + atanhSum z k (n + 2) (fixMul p z)

/-- log2 of m / 2^k for 2^k ≤ m < 2^(k+1). -/
def fixLog2 (m k : Nat) : Int :=
  let s : Int := ((m : Int) - ((2 ^ k : Nat) : Int)) * fixOne / ((m : Int) + ((2 ^ k : Nat) : Int))
  2 * atanhSum (fixMul s s) 130 1 s * fixOne / ln2

/-- sin and cos of r, |r| ≤ π/4. -/
def fixSin (r : Int) : Int := taylor (-(fixMul r r)) 2 45 1 r
def fixCos (r : Int) : Int := taylor (-(fixMul r r)) 2 45 0 fixOne

/-- sin or cos of m × 2^e (a dyadic), by reduction modulo π/2. -/
def fixTrig (cos : Bool) (neg : Bool) (m : Nat) (e : Int) : Int :=
  let x0 : Int := if 0 ≤ e + 384 then ((m * 2 ^ (e + 384).toNat : Nat) : Int) else ((m / 2 ^ (-(e + 384)).toNat : Nat) : Int)
  let x := if neg then -x0 else x0
  let k := (2 * x + halfPi) / (2 * halfPi)
  let r := x - k * halfPi
  let quad := ((k + (if cos then 1 else 0)) % 4).toNat
  match quad with
  | 0 => fixSin r
  | 1 => fixCos r
  | 2 => -(fixSin r)
  | _ => -(fixCos r)

/-- Place of a finite FP32 code, or an infinity, in increasing order; ±0 is 0. -/
def f32Ord (x : Nat) : Int := if x < 0x80000000 then (x : Int) else -((x - 0x80000000 : Nat) : Int)

/-- Code of a place in the order, cut at the infinities. -/
def f32OfOrd (k : Int) : Nat :=
  if k < 0 then 0x80000000 + (if k < -0x7F800000 then 0x7F800000 else k.natAbs)
  else (if 0x7F800000 < k then 0x7F800000 else k.natAbs)

/-- Place of the nearest FP32 not above (`down`) or not below a value x × 2^e; overflow counts as an infinity. -/
def f32Place (down : Bool) (x e : Int) : Int :=
  if x = 0 then 0
  else
    let r := fpRound .f32 .rtz false false 0 (decide (x < 0)) (exactOf x e)
    let o := f32Ord r.1
    let o := if r.2 &&& fOverflow ≠ 0 then (if x < 0 then -0x7F800000 else 0x7F800000) else o
    if r.2 &&& fInexact = 0 ∨ r.2 &&& fOverflow ≠ 0 then o
    else if x < 0 then (if down then o - 1 else o) else (if down then o else o + 1)

/-- A result within a bound around the exact value y × 2^e: the bound is `ulps` units in the last place, or 2^−21 when
`ulps` is 0. The choice is `Config.approx`, a fixed function of the operation and the input. UNDERFLOW is that of the exact value, not of the
one chosen (log 109). -/
def approxNear (op : Nat) (a : Nat) (ftz : Bool) (ulps : Nat) (y e : Int) (exact : Bool) : Nat × Fl :=
  let lead := (Nat.log2 y.natAbs : Int) + e
  let q := if lead - 23 < -149 then (-149 : Int) else lead - 23
  let b := if ulps = 0 then (-21 : Int) else q
  let e0 := minInt e b
  let yy := y * ((2 ^ (e - e0).toNat : Nat) : Int)
  let w := (if ulps = 0 then (1 : Int) else (ulps : Int)) * ((2 ^ (b - e0).toNat : Nat) : Int)
  let lo := f32Place false (yy - w) e0
  let hi := f32Place true (yy + w) e0
  let n := (hi - lo + 1).toNat
  let r := f32OfOrd (lo + ((Config.approx op (BitVec.ofNat 32 a) % (if n = 0 then 1 else n) : Nat) : Int))
  let isExact : Bool := exact && (match fpDecode .f32 r with
    | .fin n m k => decide (intAt n m k (minInt k e) = y * ((2 ^ (e - minInt k e).toNat : Nat) : Int))
    | _ => false)
  let inf : Bool := r % 0x80000000 = 0x7F800000
  let sub : Bool := r % 0x80000000 ≠ 0 && r % 0x80000000 < 0x800000
  if inf then (r, fOverflow ||| fInexact)
  else if ftz && sub then (r / 0x80000000 * 0x80000000, fUnderflow ||| fInexact)
  else (r, flagIf (!isExact) fInexact ||| flagIf (!isExact && decide (lead < -126)) fUnderflow)

/-- `frcp` (11 R387): the quotient to `fixF` bits below its leading place. -/
def fpRcp (ftz : Bool) (a : Nat) : Nat × Fl :=
  match fpRead ftz .f32 a with
  | .nan s => giveNan .f32 s
  | .inf n => (signBit .f32 n, 0)
  | .fin n m e =>
    if m = 0 then (infCode .f32 n, fDivzero)
    else
      let y : Int := ((2 ^ 384 : Nat) : Int) / (m : Int)
      approxNear 0 a ftz 1 (if n then -y else y) (-e - 384) (decide (2 ^ 384 % m = 0))

/-- `frsq` (11 R387). -/
def fpRsq (ftz : Bool) (a : Nat) : Nat × Fl :=
  match fpRead ftz .f32 a with
  | .nan s => giveNan .f32 s
  | .inf n => if n then giveNan .f32 true else (signBit .f32 false, 0)
  | .fin n m e =>
    if m = 0 then (infCode .f32 n, fDivzero)
    else if n then giveNan .f32 true
    else
      let m2 := if e % 2 = 0 then m else 2 * m
      let e2 := if e % 2 = 0 then e else e - 1
      let num := 2 ^ 600 / m2
      let y := isqrt num
      approxNear 1 a ftz 1 (y : Int) (-(e2 / 2) - 300) (decide (2 ^ 600 % m2 = 0) && decide (y * y = num))

/-- `fex2` (11 R387). -/
def fpEx2 (ftz : Bool) (a : Nat) : Nat × Fl :=
  match fpRead ftz .f32 a with
  | .nan s => giveNan .f32 s
  | .inf n => if n then (0, 0) else (infCode .f32 false, 0)
  | .fin n m e =>
    let x := intAt n m e (-149)
    let one : Int := ((2 ^ 149 : Nat) : Int)
    if m = 0 then (0x3F800000, 0)
    else if 128 * one < x then (infCode .f32 false, fOverflow ||| fInexact)
    else if x < -150 * one then (0, fUnderflow ||| fInexact)
    else
      let k := x / one
      let f := x % one
      if f = 0 then approxNear 2 a ftz 2 1 k true
      else approxNear 2 a ftz 2 (fixExp2 (f * ((2 ^ 235 : Nat) : Int))) (k - 384) false

/-- `flg2` (11 R387). -/
def fpLg2 (ftz : Bool) (a : Nat) : Nat × Fl :=
  match fpRead ftz .f32 a with
  | .nan s => giveNan .f32 s
  | .inf n => if n then giveNan .f32 true else (infCode .f32 false, 0)
  | .fin n m e =>
    if m = 0 then (infCode .f32 true, fDivzero)
    else if n then giveNan .f32 true
    else
      let k := Nat.log2 m
      let lead := (k : Int) + e
      if m = 2 ^ k then (if lead = 0 then (0, 0) else approxNear 3 a ftz 2 lead 0 true)
      else approxNear 3 a ftz 2 (lead * fixOne + fixLog2 m k) (-384) false

/-- `fsin` and `fcos` (11 R387). -/
def fpTrig (cos : Bool) (ftz : Bool) (a : Nat) : Nat × Fl :=
  match fpRead ftz .f32 a with
  | .nan s => giveNan .f32 s
  | .inf _ => giveNan .f32 true
  | .fin n m e =>
    if m = 0 then (if cos then (0x3F800000, 0) else (signBit .f32 n, 0))
    else
      let big : Bool := decide (2 ^ 20 < m * 2 ^ e.toNat) && decide (0 ≤ e) ||
        (decide (e < 0) && decide (2 ^ 20 * 2 ^ (-e).toNat < m))
      approxNear (if cos then 5 else 4) a ftz (if big then 0 else 2) (fixTrig cos n m e) (-384) false

/-! ### The flags that an operation can raise (10 R379) -/

/-- What can come of finite values that are multiples of 2^q, of at most `prec` significant bits, from magnitude 2^lo up to `mx`, in
format t: overflow or clamping of the largest, a tiny inexact or flushed result, rounding. -/
def rangeFl (t : Ty) (ftz sat : Bool) (q lo : Int) (prec : Nat) (mx : Exact) : Fl :=
  let out := (fpRound t .rup false sat 0 false mx).2 &&& (fOverflow ||| fSat)
  let tiny : Bool := decide (lo < eMin t) && (decide (q < eMin t - manBits t) || (ftz && ftzTy t))
  out ||| flagIf tiny fUnderflow ||| flagIf (tiny || decide (out ≠ 0) || decide (manBits t + 1 < prec)) fInexact

/-- What NaN and infinity sources of type s can raise in a conversion to float format d (08 R295). -/
def specialFl (d s : Ty) (sat : Bool) : Fl :=
  flagIf (ftzTy s || (!noNan s && noNan d)) fInvalid |||
  (if hasInf s && !holdsAll d s then (if noNan d || sat then fSat else if hasInf d then 0 else fInvalid) else 0)

/-- Of `fcvt` and `fpk` (08 R295, R297). -/
def cvtFl (d s : Ty) (sat ftz : Bool) : Fl :=
  match bfpBits d, bfpBits s with
  | some _, _ => fInvalid ||| fSat ||| fInexact
  | none, some m =>
    let q : Int := -127 - ((m : Int) - 2)
    rangeFl d ftz sat q q (m - 1) { m := 2 ^ (m - 1), e := q + 254, sticky := false }
  | none, none =>
    let q := eMin s - manBits s
    specialFl d s sat |||
      rangeFl d ftz sat q (if ftz && ftzTy s then eMin s else q) (manBits s + 1) { m := (maxFin s).1, e := (maxFin s).2, sticky := false }

/-- Of `icvt` (08 R295, R296): to an integer, or from one. -/
def icvtFl (d s : Ty) (sat ftz : Bool) : Fl :=
  if tyInt d then fInvalid ||| fSat ||| fInexact
  else
    let n := if tySigned s then tyBits s - 1 else tyBits s
    rangeFl d ftz sat 0 0 n { m := if tySigned s then 2 ^ n else 2 ^ n - 1, e := 0, sticky := false }

/-- Of a clamp of type s into type d (10 R344). -/
def clampFl (d s : Ty) : Fl := flagIf (decide (tyMin s < tyMin d) || decide (tyMax d < tyMax s)) fSat

/-- Of a sum: a tiny sum of values of one format is exact, so that UNDERFLOW comes from FTZ alone (08 R289, R290). -/
def sumFl (ftz : Bool) : Fl := fInvalid ||| fOverflow ||| fInexact ||| flagIf ftz fUnderflow

/-- Of a product. -/
def mulFl : Fl := fInvalid ||| fOverflow ||| fUnderflow ||| fInexact

/-- Of a dot product (11 R395): only products of `.bf16` reach below the FP32 range. -/
def dotFl (t : Ty) : Fl := fInvalid ||| fOverflow ||| fInexact ||| flagIf (t == .bf16) fUnderflow

end Sys2Proof.Machine
end

