-- ==== Sys2Proof/Machine/Effects.lean ====
section
/-! DEFINITION. What a word reads, writes and needs, as far as the shared steps of issue use it: predicate and stop bit, the
registers read and written (05 R171 to R174), the long class (R171), privilege (09 R326), the kind of core (05 R197,
12 R454), and the rules of an atomic region (10 R370, R372). -/

namespace Sys2Proof.Machine

/-- The registers of an operand: itself, with its successor when 64 bits wide. -/
def rg (wide : Bool) : Reg → List Reg
  | .v n => .v n :: (if h : wide = true ∧ n.val + 1 < 128 then [.v ⟨n.val + 1, h.2⟩] else [])
  | .s n => .s n :: (if h : wide = true ∧ n.val + 1 < 64 then [.s ⟨n.val + 1, h.2⟩] else [])
  | .a n => [.a n]
  | .k n => [.k n]
  | .zero => []
  | .lane => []

/-- n registers from r on. -/
def rgN (n : Nat) : Reg → List Reg
  | .v k => (List.range n).filterMap (fun i => if h : k.val + i < 128 then some (.v ⟨k.val + i, h⟩) else none)
  | .s k => (List.range n).filterMap (fun i => if h : k.val + i < 64 then some (.s ⟨k.val + i, h⟩) else none)
  | r => [r]

def rgO (wide : Bool) : Opnd → List Reg
  | .reg r => rg wide r
  | .imm _ => []

def rgC (wide : Bool) : CmpOpnd → List Reg
  | .reg r => rg wide r
  | .imm _ => []

def rg5 : Opnd5 → List Reg
  | .reg r => rg false r
  | .imm _ => []

/-- Base, index and policy of a memory operand. -/
def rgM (m : MemOp) : List Reg :=
  rg true m.base ++ rg false m.idx ++ (match m.pol with | some p => [.s p] | none => [])

def rgMO : Option MemOp → List Reg
  | some m => rgM m
  | none => []

/-- Registers that a slot of a dual word reads and writes (09 R323, R325). -/
def slotReads : Slot → List Reg
  | .bin _ d s => rg false d ++ rg false s
  | .binImm _ _ s _ => rg false s
  | .un _ _ s => rg false s
  | .movi _ _ => []
  | .aadv d _ => [.a d]
  | .kop op d s => (match op with | .mov => [.k s] | _ => [.k d, .k s])
  | .kcmp _ d s _ => .k d :: rg false s
  | .nop => []

def slotWrites : Slot → List Reg
  | .bin _ d _ => rg false d
  | .binImm _ d _ _ => rg false d
  | .un _ d _ => rg false d
  | .movi d _ => rg false d
  | .aadv d _ => [.a d]
  | .kop _ d _ => [.k d]
  | .kcmp _ d _ _ => [.k d]
  | .nop => []

/-- Link words of a call with advance 8n (05 R167). -/
def linkRegs (n : BitVec 5) : List Reg :=
  (if h : 8 * n.toNat + 14 < 128 then [.v ⟨8 * n.toNat + 14, h⟩] else []) ++
  (if h : 8 * n.toNat + 15 < 128 then [.v ⟨8 * n.toNat + 15, h⟩] else [])

/-- What the issue of a word uses. `long`: its D are of the long class. `own`: it treats region tags itself (10 R372).
`forbid`: not performed inside a region (10 R370). `fl`: the flags that it can raise, `flz` under FTZ (08 R284, R290). `simt`: ILLEGAL on a host core (05 R197);
`host`: ILLEGAL on a SIMT core. `cross`: it reads registers of lanes that do not execute. `back`: it may be a backward branch (05 R160).
`drain`: on a host core it follows every pending result (12 R462). `link`: it reads the link words of its lanes (05 R168). -/
structure WordInfo where
  hdr    : Hdr
  reads  : List Reg
  writes : List Reg
  long   : Bool
  own    : Bool
  forbid : Bool
  fl     : BitVec 6
  flz    : BitVec 6
  priv   : Nat
  simt   : Bool
  host   : Bool
  cross  : Bool
  back   : Bool
  late   : Bool
  drain  : Bool
  link   : Bool
  deriving DecidableEq, Repr

/-- A short-class word. -/
def wi (h : Hdr) (reads writes : List Reg) : WordInfo :=
  { hdr := h, reads := reads, writes := writes, long := false, own := false, forbid := false, fl := 0, flz := 0, priv := 0,
    simt := false, host := false, cross := false, back := true, late := false, drain := false, link := false }

def WordInfo.mkLong (w : WordInfo) : WordInfo := { w with long := true }
def WordInfo.mkOwn (w : WordInfo) : WordInfo := { w with own := true }
def WordInfo.mkForbid (w : WordInfo) : WordInfo := { w with forbid := true }
def WordInfo.mkFl (w : WordInfo) (m : BitVec 6) : WordInfo := { w with fl := m, flz := m }
/-- Flags that depend on FTZ. -/
def WordInfo.mkFls (w : WordInfo) (f : Bool → BitVec 6) : WordInfo := { w with fl := f false, flz := f true }
def WordInfo.mkPriv (w : WordInfo) (n : Nat) : WordInfo := { w with priv := n }
def WordInfo.mkSimt (w : WordInfo) : WordInfo := { w with simt := true }
def WordInfo.mkHost (w : WordInfo) : WordInfo := { w with host := true }
/-- Trap entry and `tret` are not branches (05 R160). -/
def WordInfo.noBack (w : WordInfo) : WordInfo := { w with back := false }
/-- The destination is written when the region ends (10 R369). -/
def WordInfo.mkLate (w : WordInfo) : WordInfo := { w with late := true }
def WordInfo.mkDrain (w : WordInfo) : WordInfo := { w with drain := true }
def WordInfo.mkLink (w : WordInfo) : WordInfo := { w with link := true }
def WordInfo.mkCross (w : WordInfo) : WordInfo := { w with cross := true }

/-- Scope `.sys` (10 R370). -/
def isSys (o : MOrd) : Bool :=
  match o with | .relaxed => false | .acq s => s == .sys | .rel s => s == .sys | .ar s => s == .sys

def WordInfo.forbidIf (w : WordInfo) (b : Bool) : WordInfo := { w with forbid := b }

/-- Two-source and one-source forms. -/
def wi2 (h : Hdr) (wide : Bool) (d a : Reg) (b : Opnd) : WordInfo := wi h (rg wide a ++ rgO wide b) (rg wide d)
def wi1 (h : Hdr) (wide : Bool) (d a : Reg) : WordInfo := wi h (rg wide a) (rg wide d)

/-- The quads of `join`, `deq.pop` and `deq.steal`. -/
def rg4 (r : Reg) : List Reg := rgN 4 r

/-- Flags of a reduction or scan (10 R350). -/
def redFl (op : RedOp) (t : Ty) (ftz : Bool) : BitVec 6 :=
  if t == .f32 then (match op with | .add => sumFl ftz | _ => fInvalid) else 0

/-- Flags of a slot (09 R325). -/
def slotFl (ftz : Bool) : Slot → BitVec 6
  | .bin .fadd _ _ | .bin .fsub _ _ => sumFl ftz
  | .bin .fmul _ _ => mulFl
  | .bin .fmin _ _ | .bin .fmax _ _ => fInvalid
  | _ => 0

/-- The facts of every word. Event steps have none. -/
def infoOf : Instr → Option WordInfo
  | .add h t d a b | .sub h t d a b => some (wi2 h (tyWide t) d a b).mkOwn
  | .mul h t d a b | .mulh h t d a b | .min h t d a b | .max h t d a b | .and h t d a b | .or h t d a b
  | .xor h t d a b | .andn h t d a b => some (wi2 h (tyWide t) d a b)
  | .div h t d a b | .rem h t d a b => some ((wi2 h (tyWide t) d a b).mkFl fDivzero)
  | .addc h d a b c | .subb h d a b c => some (wi h (rg false a ++ rg false b ++ rgO false c) (rg true d))
  | .mad h t d a b c => some (wi h (rg (tyWide t) a ++ rg (tyWide t) b ++ rgO (tyWide t) c) (rg (tyWide t) d))
  | .neg h t d a | .abs h t d a | .not h t d a | .brev h t d a => some (wi1 h (tyWide t) d a)
  | .shl h t d a b | .shr h t d a b | .sar h t d a b | .rotl h t d a b =>
      some (wi h (rg (tyWide t) a ++ rgO false b) (rg (tyWide t) d))
  | .clz h t d a | .ctz h t d a | .popc h t d a => some (wi h (rg (tyWide t) a) (rg false d))
  | .bfx h t d a b c => some (wi h (rg (tyWide t) a ++ rg false b ++ rgO false c) (rg (tyWide t) d))
  | .bfi h t d a b c =>
      some (wi h (rg (tyWide t) d ++ rg (tyWide t) a ++ rg false b ++ rgO false c) (rg (tyWide t) d))
  | .sel h t d a b c => some (wi h (rg (tyWide t) a ++ rg (tyWide t) b ++ rgO false c) (rg (tyWide t) d))
  | .cmp h _ t d a b => some (wi h (rg (tyWide t) a ++ rgC (tyWide t) b) (rg false d)).mkOwn
  | .isat h t src d a => some ((wi h (rg (tyWide src) a) (rg false d)).mkFl (clampFl t src))
  | .aset h _ _ _ d a b c => some (wi h (rg true a ++ rg true b ++ rg true c) [d])
  | .aadv h d a b => some (wi h (a :: rgO false b) [d])
  | .aget h f d a => some (wi h [a] (rg (f != .perm) d))
  | .amov h d a => some (wi h [a] [d])
  | .mov h t d a => some (wi1 h (tyWide t) d a).mkOwn
  | .movi h d _ => some (wi h [] (rg false d))
  | .movh h d _ => some (wi h (rg false d) (rg false d))
  | .shfl h _ t d a b => some (wi h (rg (tyWide t) a ++ rg5 b) (rg (tyWide t) d)).mkLong.mkCross.mkOwn
  | .bcast h t d a b => some (wi h (rg (tyWide t) a ++ rgO false b) (rg (tyWide t) d)).mkLong.mkCross.mkOwn
  | .vote h _ d a => some (wi h (rg false a) (rg false d)).mkLong
  | .redux h op t d a | .scan h op _ t d a => some ((wi1 h (tyWide t) d a).mkLong.mkFls (redFl op t))
  | .pack h t sat d a b => some ((wi h (rg false d ++ rg false a ++ rg5 b) (rg false d)).mkFl (if sat then clampFl t .i32 else 0))
  | .unpack h _ d a b => some (wi h (rg false a ++ rgO false b) (rg false d))
  | .br h _ => some (wi h [] [])
  | .brx h a => some (wi h (rg true a) [])
  | .call h n _ => some (wi h [] (linkRegs n))
  | .callx h n a => some (wi h (rg true a) (linkRegs n))
  | .ret h => some (wi h [] []).mkLink
  | .exit h => some (wi h [] []).mkForbid
  | .kjoin h k | .kleave h k => some (wi h [.k k] [.k k])
  | .kwait h k => some (wi h [.k k] []).mkForbid
  | .kop h _ d a b => some (wi h (rg false a ++ (if noB b then [] else rgO false b)) [.k d])
  | .kcmp h _ t k a b => some (wi h (.k k :: (rg (tyWide t) a ++ rgC (tyWide t) b)) [.k k]).mkOwn
  | .yield h | .nop h => some (wi h [] [])
  | .ld h t o d m | .ldx h t o d m => some ((wi h (rgM m) (rg (tyWide t) d)).mkLong.forbidIf (isSys o))
  | .st h t o d m => some ((wi h (rg (tyWide t) d ++ rgM m) []).mkOwn.forbidIf (isSys o))
  | .ldv h n d m => some (wi h (rgM m) (rgN (vecCount n) d)).mkLong
  | .stv h n d m => some (wi h (rgN (vecCount n) d ++ rgM m) [])
  | .prf h _ m => some (wi h (rgM m) []).mkOwn
  | .fence h _ s => some ((wi h [] []).forbidIf (s == .sys))
  | .cwb h m | .cinv h m => some (wi h (rgMO m) []).mkOwn
  | .qpush h t d _ => some (wi h (rg (tyWide t) d) []).mkForbid.mkSimt
  | .qpop h t d _ => some (wi h [] (rg (tyWide t) d)).mkLong.mkForbid.mkSimt
  | .qcfgSet h a _ => some (wi h (rg true a) []).mkForbid.mkSimt
  | .qcfgGet h d _ => some (wi h [] (rg true d)).mkLong.mkForbid.mkSimt
  | .atom h op t _ d base b =>
      some (wi h (rg true base ++ rg (tyWide t) b ++ (if op == .cas then rg (tyWide t) d else [])) (rg (tyWide t) d)).mkLong.mkForbid
  | .red h _ t _ base b => some (wi h (rg true base ++ rg (tyWide t) b) []).mkForbid
  | .atxBegin h _ _ => some (wi h [] [])
  | .atxEnd h d => some (wi h [] (rg false d)).mkLong.mkLate.mkOwn
  | .atxAbort h _ => some (wi h [] [])
  | .atxPin h a => some (wi h (rg false a) []).mkOwn
  | .atxStat h d => some (wi h [] (rg false d)).mkLong
  | .fadd h t _ d a b | .fsub h t _ d a b => some ((wi2 h (tyWide t) d a b).mkFls sumFl)
  | .fmul h t _ d a b => some ((wi2 h (tyWide t) d a b).mkFl mulFl)
  | .fmin h t d a b | .fmax h t d a b => some ((wi2 h (tyWide t) d a b).mkFl fInvalid)
  | .fdiv h t _ d a b => some ((wi2 h (tyWide t) d a b).mkFl (mulFl ||| fDivzero)).mkLong
  | .fma h t _ d a b c =>
      some ((wi h (rg (tyWide t) a ++ rg (tyWide t) b ++ rgO (tyWide t) c) (rg (tyWide t) d)).mkFl mulFl)
  | .fsqrt h t _ d a => some ((wi1 h (tyWide t) d a).mkFl (fInvalid ||| fInexact)).mkLong
  | .frnd h t _ d a => some ((wi1 h (tyWide t) d a).mkFl (fInvalid ||| fInexact))
  | .frcp h d a => some ((wi1 h false d a).mkFls (fun ftz => fInvalid ||| fDivzero ||| fUnderflow ||| fInexact ||| flagIf (!ftz) fOverflow)).mkLong
  | .frsq h d a | .flg2 h d a => some ((wi1 h false d a).mkFl (fInvalid ||| fDivzero ||| fInexact)).mkLong
  | .fex2 h d a => some ((wi1 h false d a).mkFl mulFl).mkLong
  | .fsin h d a => some ((wi1 h false d a).mkFl (fInvalid ||| fUnderflow ||| fInexact)).mkLong
  | .fcos h d a => some ((wi1 h false d a).mkFls (fun ftz => fInvalid ||| fInexact ||| flagIf ftz fUnderflow)).mkLong
  | .fcmp h _ t d a b =>
      some ((wi h ((if isMsk d then rg false d else []) ++ rg (tyWide t) a ++ rgC (tyWide t) b) (rg false d)).mkFl fInvalid)
  | .fcls h t d a => some (wi h (rg (tyWide t) a) (rg false d))
  | .fscl h t _ d a b => some ((wi h (rg (tyWide t) a ++ rgO false b) (rg (tyWide t) d)).mkFl mulFl)
  | .fcvt h dt st _ sat _ d a => some ((wi h (rg (tyWide st) a) (rg (tyWide dt) d)).mkFls (cvtFl dt st sat))
  | .icvt h dt st _ sat d a => some ((wi h (rg (tyWide st) a) (rg (tyWide dt) d)).mkFls (icvtFl dt st sat))
  | .fdot2 h t _ d a b c | .fdot4 h t _ d a b c =>
      some ((wi h (rg false a ++ rg false b ++ rg false c) (rg false d)).mkFl (dotFl t))
  | .fpk h t _ sat d a b => some ((wi h (rg false d ++ rg false a ++ rg5 b) (rg false d)).mkFls (cvtFl t .f32 sat))
  | .mjob h _ a b => some (wi h (rg true a ++ rg false b) []).mkForbid.mkSimt
  | .mcmp h _ _ d a m => some (wi h (rg false a) (rg false d ++ rg false m)).mkForbid.mkSimt.mkLong
  | .mplane h a b c =>
      some (wi h (rg true a ++ rg false b ++ rg false c) []).mkForbid.mkSimt
  | .mnplane h d a c => some (wi h (rg true a ++ rg false c) (rg false d)).mkForbid.mkSimt.mkLong
  | .mscl h _ _ _ d a => some (wi h (rg false a) (rg false d)).mkForbid.mkSimt.mkLong
  | .ringCfg h _ a => some (wi h (rg true a) []).mkForbid.mkSimt
  | .ringAcq h _ _ d => some (wi h [] (rg false d)).mkForbid.mkSimt.mkLong
  | .ringRel h _ _ => some (wi h [] []).mkForbid.mkSimt
  | .cpy h _ a | .nmeGth h _ a | .nmeRed h _ a | .nmeCvt h _ a | .winst h _ a => some (wi h (rg true a) []).mkForbid
  | .astr h _ a => some (wi h (rg true a) []).mkForbid.mkSimt
  | .wqry h d a => some (wi h (rg true a) (rg true d)).mkForbid.mkLong
  | .tlwait h _ a => some (wi h (rg true a) []).mkForbid
  | .tlget h _ d _ | .tlgetClr h d _ => some (wi h [] (rg true d)).mkForbid.mkLong
  | .vfsend h a => some (wi h (rg false a) []).mkForbid.mkSimt.mkCross
  | .vfrecv h d | .vffree h d => some (wi h [] (rg false d)).mkForbid.mkSimt.mkLong
  | .leap h a => some (wi h (rg true a) []).mkForbid.mkSimt
  | .launch h _ a b => some (wi h (rg true a ++ rg true b) []).mkForbid
  | .join h d a => some (wi h (rg true a) (rg4 d)).mkForbid.mkLong
  | .barArr h _ _ | .barWait h _ => some (wi h [] []).mkForbid.mkSimt
  | .sbarArr h a | .sbarWait h a | .wake h a => some (wi h (rg true a) []).mkForbid
  | .waitaddr h _ _ t a b => some (wi h (rg true a ++ rg (tyWide t) b) []).mkForbid
  | .deqInit h a b _ | .deqPush h a b => some (wi h (rg true a ++ rg true b) []).mkForbid
  | .deqPop h d a | .deqSteal h d a => some (wi h (rg true a) (rg4 d)).mkForbid.mkLong
  | .sysr h d n =>
      let k := (sysInfo n.toNat).getD ⟨32, false, 0, none, false⟩
      let w := (wi h [] (rg (k.width == 64) d)).mkPriv k.read
      some (if k.host then w.mkHost else w)
  | .sysw h n a =>
      let k := (sysInfo n.toNat).getD ⟨32, false, 0, none, false⟩
      let w := ((wi h (rg (k.width == 64) a) []).mkPriv (k.write.getD 0)).mkForbid
      let w := if n = 0x033 then w.mkDrain else w
      some (if k.host then w.mkHost else w)
  | .scall h _ | .brk h _ => some (wi h [] []).mkForbid
  | .tret h => some (wi h [] []).mkForbid.noBack
  | .wfi h => some ((wi h [] []).mkForbid.mkPriv 1).mkHost
  | .tlbinvVa h _ a => some ((wi h (rg true a) []).mkForbid.mkPriv 1)
  | .tlbinvCtx h _ | .tlbinvAll h => some ((wi h [] []).mkForbid.mkPriv 1)
  | .icinvLine h a => some (wi h (rg true a) []).mkForbid
  | .icinvAll h => some (wi h [] []).mkForbid
  | .halt h => some ((wi h [] []).mkForbid.mkPriv 2).mkHost
  | .ipi h a => some ((wi h (rg false a) []).mkForbid.mkPriv 1)
  | .dualWord st s0 s1 =>
      some ((wi { stop := st, pred := .always } (slotReads s0 ++ slotReads s1) (slotWrites s0 ++ slotWrites s1)).mkOwn.mkFls
        (fun ftz => slotFl ftz s0 ||| slotFl ftz s1))
  | _ => none

end Sys2Proof.Machine
end

