-- ==== Sys2Proof/Machine/State.lean ====
section
/-! DEFINITION. The state of the machine as plain data: everything the spec names (INVENTORY.md, "State"), and
`State.reset`. Tables are canonical sparse lists (Sys2Proof/Word.lean); a table's default is said at its field. -/

namespace Sys2Proof.Machine

/-- Why the machine stops. -/
inductive Fault where
  /-- Raised by `step` alone, when the device has no supply (02 R78, 06 R240) and the next thing to happen is not a reset: the
  device holds no state and no agent of it acts. Safe: the model stops where the device is dead. -/
  | railsOff
  deriving DecidableEq, Repr

/-- Why an instruction has no meaning. -/
inductive Refusal where
  /-- The instruction has no meaning in the model yet, by its mnemonic. Safe: the model stops. -/
  | notModelled (mnemonic : String)
  deriving DecidableEq, Repr

/-! ### Lanes and clutches (05 R153) -/

/-- A symbolic tag SYM(slot, c) of width 32 or 64 (10 R372). -/
structure Sym where
  slot : Nat
  c    : Dword
  wide : Bool
  deriving DecidableEq, Repr

/-- A lane. Tables: `v` keys 0 to 15, default 0; `stack` by stack word, default `none` (0 on a SIMT core, the word at
`HSTK_BASE` + 4i on a host core); `levelIdx` default 0; `savedWbv` by level, default 0; `tags` by storage place, default
`none` (concrete); `bad` by stack word, default false (poisoned row, 05 R169). -/
structure Lane where
  pc       : BitVec 53
  wbv      : BitVec 13
  exited   : Bool
  kwait    : Option (Fin 12)
  v        : Tab Word
  stack    : Tab (Option Word)
  lfsr     : Word
  levelIdx : Tab Word
  savedWbv : Tab (BitVec 13)
  depth    : Nat
  fbPc     : BitVec 53
  fbWbv    : BitVec 13
  arrived  : Bool
  tags     : Tab (Option Sym)
  bad      : Tab Bool
  deriving DecidableEq, Repr

/-- The lane of a clutch that a table does not list: exited. -/
def Lane.none : Lane :=
  { pc := 0, wbv := 0, exited := true, kwait := .none, v := [], stack := [], lfsr := 1, levelIdx := [], savedWbv := [],
    depth := 0, fbPc := 0, fbWbv := 0, arrived := false, tags := [], bad := [] }

/-- An address register (05 R170). -/
structure AReg where
  ptr   : Dword
  base  : BitVec 56
  limit : BitVec 56
  r     : Bool
  w     : Bool
  x     : Bool
  deriving DecidableEq, Repr

def AReg.zero : AReg := { ptr := 0, base := 0, limit := 0, r := false, w := false, x := false }

/-- One trap state: of a SIMT clutch (key 0) or of one level of a host core (12 R456 to R458). `lanes` is the set L; `rc`, `grp` and `rot` the
rotation state at entry (05 R161). -/
structure TrapSet where
  pc     : Dword
  cause  : Word
  addr   : Dword
  mask   : Word
  lanes  : Mask
  inTrap : Bool
  rc     : Nat
  grp    : Mask
  rot    : Bool
  deriving DecidableEq, Repr

def TrapSet.zero : TrapSet := { pc := 0, cause := 0, addr := 0, mask := 0, lanes := 0, inTrap := false, rc := 0, grp := 0, rot := false }

/-- Where a pending result goes: global vector register j or stack word w of a lane, a scalar, a mask register. -/
inductive Dst where
  | g (lane j : Nat)
  | st (lane w : Nat)
  | s (n : Nat)
  | k (n : Nat)
  deriving DecidableEq, Repr

/-- Where a pending value comes from: known, or a read of physical bytes through an L1 (`chunks`: address and length; two
when a page boundary is crossed) or of a core's scratchpad, extended under type `t` (10 R357), or a reply still awaited. -/
inductive PSrc where
  | val (lo hi : Word)
  | mem (chunks : List (Nat × Nat)) (t : Ty)
  | scr (core off : Nat) (t : Ty)
  | reply
  deriving DecidableEq, Repr

/-- One lane's part of a pending long-class result (05 R173). -/
structure PAcc where
  lane : Nat
  lo   : Dst
  hi   : Option Dst
  src  : PSrc
  deriving DecidableEq, Repr

/-- The pending result of one word. `acq` is the scope of an acquiring load, whose effect runs when the result is written. -/
structure Pend where
  id   : Nat
  accs : List PAcc
  acq  : Option Scope
  deriving DecidableEq, Repr

/-- What a clutch waits for (04 R138). -/
inductive WaitKind where
  | queue | ring | vfifo | tlwait | join | waitaddr | sbar | bar | launchLine | leap | regionCtx | commit | command
  | jobQueue | pager | translation | wfi | tokens | reply
  deriving DecidableEq, Repr

/-- A waiting word: it stands at the issue address and is executed again when its wait ends. -/
structure Wait where
  kind  : WaitKind
  instr : Instr
  deriving DecidableEq, Repr

/-- What took a load slot (10 R371): an aligned 32-bit load, the two halves of an aligned 64-bit load, or another load. -/
inductive SlotKind where
  | one | lo | hi | part
  deriving DecidableEq, Repr

/-- A load slot of a region: one 32-bit word at word address `pa`, as lane `lane` named it (10 R371). -/
structure LoadSlot where
  lane   : Nat
  pa     : Nat
  va     : Nat
  obs    : Word
  pinned : Bool
  kind   : SlotKind
  deriving DecidableEq, Repr

/-- A recorded constraint (10 R373): `symLeft` when the tagged operand stands first. -/
structure Constr where
  cc      : Cmp
  signed  : Bool
  wide    : Bool
  slot    : Nat
  c       : Dword
  y       : Dword
  symLeft : Bool
  lane    : Nat
  result  : Bool
  deriving DecidableEq, Repr

/-- A buffered store (10 R374): its bytes at physical chunks, its value, and its tag. -/
structure RStore where
  lane   : Nat
  chunks : List (Nat × Nat)
  size   : Nat
  val    : Nat
  sym    : Option Sym
  deriving DecidableEq, Repr

/-- The region context of a clutch with an open region (10 R368). `hold` is the `TSC` at which hold mode began; `held` the
lines whose token the attempt keeps. `stores` lists the buffered stores, newest first; `entries` the lane and 32-bit word of
each store entry. `endReg` is sD of the last `atx.end` executed. `sTags` tags scalar registers. `wrote`
and `wroteA` list the registers written in the region, `flagged` the flags that it could have raised (10 R379). -/
structure Region where
  p       : Mask
  statusR : Fin 64
  endReg  : Option (Fin 64)
  slots   : List LoadSlot
  constrs : List Constr
  stores  : List RStore
  entries : List (Nat × Nat)
  words   : Nat
  hold    : Option Nat
  held    : List Nat
  sTags   : Tab (Option Sym)
  wrote   : List Dst
  wroteA  : List Nat
  flagged : BitVec 6
  deriving DecidableEq, Repr

/-- A PAGE fault of a region that waits for the pager (06 R217): the faulting address, the lanes that faulted, and the fallback. -/
structure RegionFault where
  addr : Dword
  mask : Mask
  fb   : BitVec 53
  deriving DecidableEq, Repr

/-- A clutch (05 R153), SIMT or host (05 R196). Host core c is clutch c; SIMT clutches have identifiers from 64 on.
Tables: `lanes` default `Lane.none`; `s` default 0; `a` default zero; `k` default 0; `traps` default zero. `core` is 4 times
the column plus the position for a SIMT core, 256 plus the column for a host core. `hazard` lists the storage whose long-class
result counts as pending until a stop (05 R174). `atStop` holds the next issue address and the lanes of a word that has
just completed a stop (12 R427). `windowOut` when its window is parked (05 R169). `waitCount` counts issue cycles (04 R139); `waitArg` is the count that a
waiting `tlwait` took, the place of a waiting `leap` in its column's order, or the line of a waiting `waitaddr`. -/
structure Clutch where
  task       : Option Nat
  index      : Nat
  lanes      : Tab Lane
  s          : Tab Word
  a          : Tab AReg
  k          : Tab Mask
  flags      : BitVec 6
  fpmode     : Word
  rc         : Nat
  grp        : Mask
  rot        : Bool
  traps      : Tab TrapSet
  level      : Fin 3
  ie         : Bool
  inflight   : List Pend
  hazard     : List Dst
  parked     : Bool
  wait       : Option Wait
  engStat    : Word
  sbarGen    : Word
  wearZone   : BitVec 7
  arrived    : BitVec 16
  seen       : BitVec 16
  region     : Option Region
  regionAddr : BitVec 53
  regionF    : Nat
  pagerTag   : Option RegionFault
  core       : Nat
  slot       : Nat
  quad       : Nat
  pad        : Option Nat
  homeCore   : Nat
  homeSlot   : Nat
  leapTo     : Option Nat
  windowOut  : Bool
  atStop     : Option (BitVec 53 × Mask)
  waitCount  : Nat
  waitArg    : Nat
  yielded    : Bool
  deriving DecidableEq, Repr

/-! ### Engines (12 R422, R426; 11 R413) -/

/-- An engine context. `finished` lists completed commands above `done`; `cflags` the unmerged flags of each command,
default 0; `scopes` lists commands of package scope; `failer` the clutch that issued the failing command. -/
structure EngCtx where
  issued   : Nat
  done     : Nat
  finished : List Nat
  code     : Byte
  sub      : Byte
  deliv    : Bool
  ovf      : Bool
  cmd      : Dword
  detail   : Dword
  cflags   : Tab (BitVec 6)
  pkgCmds  : List Nat
  failer   : Option Nat
  deriving DecidableEq, Repr

def EngCtx.zero : EngCtx :=
  { issued := 0, done := 0, finished := [], code := 0, sub := 0, deliv := false, ovf := false, cmd := 0, detail := 0,
    cflags := [], pkgCmds := [], failer := .none }

/-- Whose engine contexts: a task's or a host core's. -/
inductive EngRef where
  | task (t : Nat)
  | host (col : Nat)
  deriving DecidableEq, Repr

/-- What a command does: the copy, access, near-memory, install and matrix engines. -/
inductive CmdKind where
  | copy | stream | gather | reduce | convert | install | matrix
  deriving DecidableEq, Repr

/-- An outstanding command: its 128-byte block read at issue (12 R423, 11 R412), how far it has come (bytes copied,
elements placed, units programmed, tiles written), the context and
privilege of its translations, whether it is over, whether it runs on as an orphan (04 R144), and the physical ranges, address and length,
that a copy has written (07 R273). -/
structure Cmd where
  ref      : EngRef
  e        : Nat
  n        : Nat
  issuer   : Nat
  kind     : CmdKind
  ctx      : Nat
  user     : Bool
  core     : Nat
  block    : BitVec 1024
  blockVa  : Nat
  progress : Nat
  ended    : Bool
  orphan   : Bool
  stopped  : Bool
  dests    : List (Nat × Nat)
  deriving DecidableEq, Repr

/-! ### Tasks, gangs, launches (03, 04) -/

/-- An extent-table entry (06 R211). -/
structure Extent where
  vbase : BitVec 40
  pages : BitVec 20
  r     : Bool
  w     : Bool
  stale : Bool
  map   : BitVec 52
  kind  : BitVec 2
  deriving DecidableEq, Repr

def Extent.zero : Extent := { vbase := 0, pages := 0, r := false, w := false, stale := false, map := 0, kind := 0 }

/-- A brood barrier (05 R154). -/
structure Bar where
  e  : BitVec 6
  a  : BitVec 6
  ph : Bool
  deriving DecidableEq, Repr

def Bar.zero : Bar := { e := 0, a := 0, ph := false }

/-- Where a task stands. -/
inductive TaskState where
  | resident | preempted
  deriving DecidableEq, Repr

/-- A task (05 R154, 04 R133 to R135). Tables: `extents` default zero; `queues` default 0 (OFF); `qAddr` the faulting
address of the stream of a queue, default 0; `rings` default 0 (unconfigured); `bars` default zero; `engs` default zero;
`pub` the values last written to the timeline area, default 0. `image` is the image slot in use. -/
structure Task where
  gang     : Nat
  launch   : Nat
  ctx      : Nat
  number   : Nat
  core     : Nat
  prio     : Nat
  user     : Bool
  state    : TaskState
  order    : Nat
  stackN   : Nat
  handler  : Dword
  spOff    : Nat
  szS      : Nat
  szQ      : Nat
  szG      : Nat
  szJ      : Nat
  regions  : Nat
  engines  : Nat
  cbBase   : Nat
  cbLen    : Nat
  extents  : Tab Extent
  queues   : Tab Dword
  qAddr    : Tab Dword
  rings    : Tab (BitVec 128)
  bars     : Tab Bar
  engs     : Tab EngCtx
  engTrap  : Byte
  clutches : List Nat
  pub      : Tab Nat
  image    : Option Nat
  imageSp  : Tab Byte
  fifos    : Tab (List (BitVec 1024))
  failed   : Option (Nat × Nat)
  deriving DecidableEq, Repr

/-- Where a gang stands (04 R124 to R128, R141 to R144). -/
inductive GangState where
  | held | translating | ready | resident | migrating | preempted | requeued | ended
  deriving DecidableEq, Repr

/-- A gang: tasks `first` to `first + count - 1` of a launch, of which `tasks` are dispatched. `extents` is the extent table that
pre-translation built, `store` its ranges of the extent store, `affinity` A(c) by column (04 R128, R130); `reserved` the cores
held for it, `cores` those it was given, `target` the instance it reserves in, and `die` the die it goes to (R126, R127); `stack` the stack areas (column, bytes) and `pubs` the published counts
by task number, both kept across a requeue (R135, R144); `over_` the task numbers that have terminated; `fail` the code with which an
`ended` gang's tasks end. While it migrates, `seats` holds for each of `tasks` the core, scratchpad offset and column-bank base reserved at
the target (R148), and `doomed` says that a pre-emption waits for the migration's end (R151). -/
structure Gang where
  launch   : Nat
  first    : Nat
  count    : Nat
  state    : GangState
  tasks    : List Nat
  requeues : Nat
  order    : Nat
  fail     : Nat
  extents  : Tab Extent
  store    : List (Nat × Nat)
  affinity : Tab Nat
  die      : Option Nat
  target   : Option Nat
  reserved : List Nat
  cores    : List Nat
  stack    : List (Nat × Nat)
  pubs     : Tab (Tab Nat)
  over_    : List Nat
  seats    : List (Nat × Nat × Nat)
  doomed   : Bool
  deriving DecidableEq, Repr

/-- Where a launch stands (04 R124). -/
inductive LaunchState where
  | waiting | ready | dispatched
  deriving DecidableEq, Repr

/-- A launch token in a line's queue (03 R102, R105): `parent` is the launch and the number of the task that wrote it, `join` the join record that took the increment of R119, 0 for none;
`orphan` says that its parent has failed (R121), `cancelled` that it was cancelled in the queue (R103, R110). -/
structure Tok where
  bits   : BitVec 512
  ctx    : Nat
  host   : Bool
  join   : Nat
  parent : Option (Nat × Nat)
  serial : Nat
  orphan : Bool
  cancelled : Bool
  deriving DecidableEq, Repr

/-- A held or dispatched launch (03 R111, 04 R124). `record` is the launch record, `deps` its dependence list and `met` the
places of the dependences already met; `n` tasks in all, `left` not yet terminated. -/
structure Launch where
  tok    : Tok
  block  : Nat
  line   : Nat
  record : BitVec 2048
  state  : LaunchState
  deps   : List (BitVec 128)
  met    : List Nat
  n      : Nat
  left   : Nat
  deriving DecidableEq, Repr

/-- A launch line (03 R102 to R104). -/
structure Line where
  queue   : List Tok
  cfg     : Dword
  err     : Byte
  drops   : BitVec 16
  lastSeq : Word
  deriving DecidableEq, Repr

def Line.zero : Line := { queue := [], cfg := 0, err := 0, drops := 0, lastSeq := 0 }

/-! ### Caches and coherence (06 R221 to R231) -/

/-- A line of an L1 (06 R221, R225, R239). `born` is the `TSC` at which the line first became dirty. -/
structure L1Line where
  data   : BitVec 1024
  valid  : BitVec 128
  dirty  : BitVec 128
  poison : Bool
  ver    : Option Word
  born   : Nat
  deriving DecidableEq, Repr

/-- An entry of a column write queue (06 R222, 07 R261). `accepted` is its place in the order in which its die's catalogue accepted
writes. -/
structure CwqEntry where
  line     : Nat
  data     : BitVec 1024
  mask     : BitVec 128
  accepted : Option Nat
  poison   : Bool
  deriving DecidableEq, Repr

/-- A slice's copy of a line (06 R223): of the weight aperture, with its version and data (R239); of its column bank, with the bytes
(`mask`) not yet written back, and with every byte once it was read from the array (`whole`, R233); of any other home, whose
performed bytes stand in memory. -/
structure SliceLine where
  ver    : Option Word
  data   : BitVec 1024
  mask   : BitVec 128
  whole  : Bool
  poison : Bool
  deriving DecidableEq, Repr

def SliceLine.empty : SliceLine := { ver := none, data := 0, mask := 0, whole := false, poison := false }

/-- A request to a column bank that waits for its vertical bus (01 R28, R29): the read of a line, its write-back, or an atomic on it, which
stands in the home die's queue. -/
inductive BankReq where
  | read (line : Nat)
  | writeBack (line : Nat)
  | atomic (line : Nat)
  deriving DecidableEq, Repr

/-- A write of the bank read-modify-write unit whose read has returned and checked (01 R29): its line, bytes, and their mask. -/
structure BankWrite where
  line : Nat
  data : BitVec 1024
  mask : BitVec 128
  deriving DecidableEq, Repr

/-- A transient request (06 R229): how often it has failed and when it was last sent. -/
structure TokReq where
  die   : Nat
  write : Bool
  sent  : Nat
  fails : Nat
  deriving DecidableEq, Repr

/-- A line's tokens (06 R228 to R231, 01 R40): tokens held by each die, default 0; the holder of the owner flag (`none`
while it travels); requests; the arbiter's queue and its active request; whether the home die's sync engine keeps one of them for a
`waitaddr`. -/
structure LineTok where
  held   : Tab Nat
  owner  : Option Nat
  reqs   : List TokReq
  queue  : List (Nat × Nat)
  active : Option Nat
  watch  : Bool
  deriving DecidableEq, Repr

/-- A message of tokens on a die link, in the order accepted (01 R39): `wb` on WB, else on TOK. -/
structure TokMsg where
  src   : Nat
  dst   : Nat
  wb    : Bool
  line  : Nat
  n     : Nat
  owner : Bool
  deriving DecidableEq, Repr

/-- A cached translation (06 R209): of an L1 TLB, or of a column TLB with `tlb` = 320 + column. -/
structure TlbEntry where
  tlb   : Nat
  ctx   : Nat
  va    : Nat
  size  : Nat
  frame : Nat
  perm  : BitVec 8
  deriving DecidableEq, Repr

/-- A translated extent table that a column's launcher keeps for a record (03 R122): the context, the record's address, the extents,
and by place in the record the declared extent and its frames. -/
structure ExtCached where
  col    : Nat
  ctx    : Nat
  record : Nat
  exts   : List Extent
  frames : List (Nat × Nat × List Nat)
  deriving DecidableEq, Repr

/-- An operation queued at a home die's sync engine (06 R224), or, with `die` 4 + c, at the bank read-modify-write unit of column c: an atomic of
one lane; `pend` is its pending result, 0 for none. -/
structure SyncOp where
  die   : Nat
  cid   : Nat
  pend  : Nat
  lane  : Nat
  pa    : Nat
  op    : AtomOp
  t     : Ty
  b     : Dword
  cmp   : Dword
  ret   : Bool
  deriving DecidableEq, Repr

/-! ### Columns and host cores -/

/-- One direction of a vertical bus (01 R25 to R31). `fails` by group, default 0; `spares` used; `swapped` lanes; `retries`
on the present lane map; `repair` the groups under repair; `newMap` from a swap until the beat in progress has passed; `drainFails` the
failures by group of the drain write in progress (R30), default 0. -/
structure VBus where
  fails   : Tab Nat
  spares  : List Nat
  swapped : List (Nat × Nat)
  retries : Nat
  failed  : Bool
  repair  : List Nat
  newMap  : Bool
  drainFails : Tab Nat
  deriving DecidableEq, Repr

def VBus.zero : VBus :=
  { fails := [], spares := [], swapped := [], retries := 0, failed := false, repair := [], newMap := false, drainFails := [] }

/-- A host core's registers (12 R449, R458, R460; 05 R196, R198). -/
structure HostCore where
  uvec      : Dword
  svec      : Dword
  fvec      : Dword
  hstkBase  : Dword
  hstkLimit : Dword
  hctx      : Byte
  intEn     : BitVec 4
  ipi       : Bool
  gov       : Bool
  pager     : Bool
  timecmp   : Dword
  halted    : Bool
  engs      : Tab EngCtx
  engTrap   : BitVec 4
  deriving DecidableEq, Repr

/-- A column. `beat` is the line whose beat on the down direction is to be sent again, `held` the bank requests that wait behind it or for
a lane repair, oldest first, `rmw` the writes of read-modify-writes in flight, and `late` those that failed three times in a repair (01 R28
to R30). Tables: `slice` by line, default `none`; `fresh` lists 64 KiB blocks that read as zero (06 R232);
`allocs` the column-bank allocations (base, length); `images` image slots in use; `stackUsed` bytes of the stack area.
`therm`, `ramp` and `duty` count steps of 25 % below full duty; `thermAt` is the `TSC` of the last step down while a sensor stays at
its threshold, `coolAt` that since which both sensors are cool or of the last step up (02 R57); `migrSince` that since which the
thermal limit has held the column at 50 % or lower (04 R147). -/
structure Column where
  host      : HostCore
  therm     : Nat
  thermAt   : Option Nat
  coolAt    : Option Nat
  ramp      : Nat
  duty      : Nat
  govIe     : Bool
  govPend   : Bool
  throttle  : Dword
  valve     : Byte
  tj        : Byte
  tb        : Byte
  vfValue   : Byte
  vfEn      : Bool
  period    : Byte
  scrubPos  : Nat
  eccLog    : BitVec 128
  vbusLog   : BitVec 128
  up        : VBus
  down      : VBus
  beat      : Option Nat
  held      : List BankReq
  rmw       : List BankWrite
  late      : List BankWrite
  cwq       : List CwqEntry
  slice     : Tab (Option SliceLine)
  fresh     : List Nat
  allocs    : List (Nat × Nat)
  images    : List Nat
  stackUsed : Nat
  corePg    : BitVec 4
  gated     : BitVec 4
  schedEvt  : Dword
  migrSince : Option Nat
  deriving DecidableEq, Repr

/-- A core: the job queue of its matrix engine, command identifiers oldest first (11 R413), and, by quadrant and task, the slot
after the one that issued last, by 4 × task + quadrant (04 R139), default 0. -/
structure CoreSt where
  jobs     : List Nat
  lastSlot : Tab Nat
  deriving DecidableEq, Repr

def CoreSt.zero : CoreSt := { jobs := [], lastSlot := [] }

/-! ### Dies, links, promotion, pager -/

/-- `PROMO_CMD` of a die and the promotion it runs (06 R219, R220). `asked` is a GO whose checks wait for the entries of their walk (06 R228). -/
structure Promo where
  ctx    : Byte
  busy   : Bool
  result : BitVec 2
  va     : BitVec 35
  dest   : BitVec 52
  runCtx : Nat
  runVa  : Nat
  runDst : Nat
  runPte : Nat
  killed : Bool
  asked  : Option Dword
  deriving DecidableEq, Repr

def Promo.zero : Promo :=
  { ctx := 0, busy := false, result := 0, va := 0, dest := 0, runCtx := 0, runVa := 0, runDst := 0, runPte := 0, killed := false, asked := none }

/-- A die link or a UALink port (01 R45 to R48). `pending` is the change under way, `next` those that wait, repairs first; `usable` is the widest width that repairs have left. -/
structure Link where
  width   : Nat
  usable  : Nat
  pending : Option (WidthAgent × Nat)
  next    : List (WidthAgent × Nat)
  lost    : Bool
  deriving DecidableEq, Repr

def Link.full : Link := { width := 4, usable := 4, pending := none, next := [], lost := false }

/-- What a fault record is for (06 R215, R217). -/
inductive FaultFor where
  | gangTranslation (gang : Nat)
  | requeued (gang : Nat)
  | region (cid : Nat)
  deriving DecidableEq, Repr

/-- A fault that goes to the pager (06 R216): an open record once `tag` is given; `answer` is the FAIL of a `PGF_DONE` that has not taken
effect yet. -/
structure PagerFault where
  ctx    : Nat
  page   : Nat
  access : BitVec 8
  col    : Nat
  tsc    : Dword
  kind   : Byte
  users  : List FaultFor
  tag    : Option (BitVec 16)
  answer : Option Bool
  deriving DecidableEq, Repr

/-! ### Weight store (06 R234 to R245) -/

/-- A wear zone (06 R244). -/
structure Zone where
  remain  : Word
  charged : Word
  free    : Word
  deriving DecidableEq, Repr

/-- An install between step 3 and its end (06 R240): the extent, the target units in order, the source's physical bytes
(address and length), the units programmed, the failed tries of the next, and the units whose old blocks it replaces. -/
structure Install where
  cmd       : Nat
  ext       : Nat
  units     : List Nat
  src       : List (Nat × Nat)
  done      : Nat
  fails     : Nat
  committed : Bool
  old       : List Nat
  deriving DecidableEq, Repr

/-- A weight line that a load waits for (06 R238, R241): of a clutch (`who` twice its number) or of a command (`who` twice its identifier
and 1). Its tag check passed under version `ver`; `old` is its content then, once a commit has replaced the version; `got` what the
controller returned, and whether it is poisoned. -/
structure WeightAsk where
  who  : Nat
  core : Nat
  line : Nat
  ver  : Word
  old  : Option (BitVec 1024)
  got  : Option (BitVec 1024 × Bool)
  deriving DecidableEq, Repr

/-- The weight store. `ver` by extent, default 0; `flash` the committed bytes by aperture offset, default 0; `mapped` the
units that map a block; `staged` bytes programmed into fresh blocks; `zones` default `none` (as delivered); `room` the
reading room: (unit, version), most recent first; `asks` the weight lines that loads wait for. -/
structure Weights where
  ver      : Tab Word
  flash    : Tab Byte
  mapped   : List Nat
  staged   : Tab Byte
  zones    : Tab (Option Zone)
  room     : List (Nat × Word)
  installs : List Install
  asks     : List WeightAsk
  deriving DecidableEq, Repr

/-! ### Power, management, boot -/

/-- A partition (02 R60, R63 to R66). `duty` is the cap limit in steps below 100 %; `margin` passes with margin. -/
structure Part where
  cfg    : Dword
  duty   : Nat
  margin : Nat
  cause  : BitVec 128
  deriving DecidableEq, Repr

/-- Power model and caps (02 R52 to R73). `tally` holds the events that the model counts exactly since the last estimate, `counts` the activity of the last 10 µs, by 24 × block + event, default 0: block
4c + d for column c's share of die d of its tower (lower, upper, base, bank), 256 + t for base-die events of tower t that
belong to no column. `totals` sums events by 24 × kind + event, and by 72 + kind static energy in pJ / 10^4, over the second;
`weights` by 24 × kind + event, default `none` (factory); `cov` by 576 × kind + 24 × row + column, default `none`
(10^6 × identity). `ests` are device powers in mW since the last cap-loop pass, and `partEsts` sums over them: partition p's
power by p, its event power by 16 + p (mW), the core-rail part of that in mA by 32 + p. `rankCap` defaults to no cap; `shunt`
holds readings of the HBM, flash and SerDes rails in mW. Currents are in A: of the work, the allowance, the ballast, its floor,
its peak. `unmet` lists limits (0 device, 1 current, 2 + p partition, 18 + r rank), `alarms` towers in a coolant alarm. -/
structure Power where
  tally     : Tab Nat
  counts    : Tab Nat
  totals    : Tab Nat
  weights   : Tab (Option Word)
  cov       : Tab (Option Rat)
  domainPwr : Tab Word
  ests      : List Nat
  partEsts  : Tab Nat
  rankCap   : Tab Word
  devCap    : Word
  curLim    : BitVec 16
  govTj     : Byte
  govTb     : Byte
  shunt     : Tab Nat
  current   : Nat
  allow     : Nat
  ballast   : Nat
  floor     : Nat
  ballastPk : Nat
  ballastAt : Option Nat
  unmet     : List Nat
  alarms    : List Nat
  deriving DecidableEq, Repr

/-- Management (02 R67 to R70, R80 to R86). `semWrites` lists the writes of `MGMT_SEM` at `TSC` `semAt` as (SOURCE, owner code, value), in the
order of R81, and `semBase` holds OWNER, LEASE and TSC before them. `log` by slot, default 0; `seq` by source, default 0; `index` by
requester, default 0; `latch` by 2^44 × requester + register address, default `none`. -/
structure Mgmt where
  owner    : BitVec 2
  lease    : Byte
  acqTsc   : Dword
  semAt    : Dword
  semBase  : BitVec 2 × Byte × Dword
  semWrites : List (Nat × Nat × Nat)
  lastCtl  : Dword
  log      : Tab (BitVec 256)
  tail     : Word
  lost     : Word
  seq      : Tab Word
  index    : Tab (BitVec 13)
  latch    : Tab (Option Dword)
  capSeq   : Word
  capValid : Bool
  frameKey : Option (BitVec 256)
  deriving DecidableEq, Repr

/-- Start-up (02 R87, R89): in the boot ROM, firmware running, or a fatal device error (01 R48, 02 R78). -/
inductive Boot where
  | rom | running | fatal | railsOff
  deriving DecidableEq, Repr

/-- A cached context entry (03 R108). -/
structure CtxEnt where
  valid : Bool
  bad   : Bool
  part  : BitVec 4
  prio  : BitVec 3
  user  : Bool
  vec   : BitVec 11
  root  : BitVec 52
  deriving DecidableEq, Repr

def CtxEnt.zero : CtxEnt :=
  { valid := false, bad := false, part := 0, prio := 0, user := false, vec := 0, root := 0 }

/-- Registers of the package block and the scheduler's own state. -/
structure Pkg where
  ctxTable  : BitVec 52
  ctxCmd    : BitVec 10
  ctxBusy   : Bool
  partMap   : Dword
  hbmP      : BitVec 7
  hbmW      : BitVec 7
  hbmLock   : Bool
  rrSize    : BitVec 9
  extSize   : BitVec 12
  migCfg    : BitVec 16
  pgfCfg    : BitVec 19
  pgfBase   : Dword
  pgfTail   : Word
  pgfHead   : Word
  wearSet   : Dword
  ualGrant  : Tab (BitVec 128)
  storeUsed : List (Nat × Nat)
  order     : Nat
  serial    : Nat
  deriving DecidableEq, Repr

/-- The completion last given to a requester outside the device (log 14). -/
inductive Reply where
  | none
  | ok (data : List Byte)
  | error (code : Byte)
  deriving DecidableEq, Repr

/-- The whole machine. `hostHas` lists the device lines that the host caches (03 R92). Tables: `mem` performed bytes by physical address, default 0 (log 3); `poison` by line, default
false; `scratch` by 2 MiB × core + offset, default 0 (log 3); `l1` by L1 and line; `bankErr` flipped bits by 64-bit
word of the bank tier, default none (log 7); `icache` words fetched and kept, by L1 and address, default `none`;
`fifos` by 256 × gang + 2 × pair (+ 1 for down), default empty: a pair's FIFOs belong to the gang that holds both cores (05 R187); `ethRate` the configured rate of an Ethernet port in Gb/s,
default 800 (01 R43; log 96); partial maps default `none`. -/
structure State where
  mem      : List Host.Cell
  poison   : Tab Bool
  bankErr  : Tab (List Nat)
  scratch  : Tab Byte
  tsc      : Dword
  clutches : Tab (Option Clutch)
  tasks    : Tab (Option Task)
  gangs    : Tab (Option Gang)
  launches : Tab (Option Launch)
  lines    : Tab Line
  cmds     : Tab (Option Cmd)
  l1       : Tab (Tab (Option L1Line))
  icache   : Tab (Tab (Option Dword))
  toks     : Tab (Option LineTok)
  hostHas  : List Nat
  msgs     : List TokMsg
  tlb      : List TlbEntry
  extCache : List ExtCached
  sync     : List SyncOp
  cols     : Tab (Option Column)
  cores    : Tab CoreSt
  fifos    : Tab (List (BitVec 1024))
  promo    : Tab Promo
  links    : Tab Link
  uals     : Tab Link
  ethRate  : Tab Nat
  pager    : List PagerFault
  ctxs     : Tab CtxEnt
  weights  : Weights
  power    : Power
  parts    : Tab (Option Part)
  mgmt     : Mgmt
  boot     : Boot
  bootSrc  : Option ImageSource
  image    : Option (BitVec 512)
  pkg      : Pkg
  emerg    : Option Nat
  msix     : List Nat
  reply    : Reply
  /-- The clutch that issues next: a field of the model (log 1). -/
  cur      : Nat
  /-- `cur` was chosen by an issue cycle and its word is due (log 1). -/
  issuing  : Bool
  /-- The steps of other agents that come next: a field of the model (log 1). -/
  agenda   : List Instr
  /-- The counter that free values are applied to: a field of the model (log 11). -/
  fresh    : Nat
  deriving DecidableEq, Repr

/-! ### Reset -/

def HostCore.reset : HostCore :=
  { uvec := 0, svec := 0, fvec := 0, hstkBase := 0, hstkLimit := 0, hctx := 0, intEn := 0, ipi := false, gov := false,
    pager := false, timecmp := 0xFFFFFFFFFFFFFFFF, halted := false, engs := [], engTrap := 0 }

def Column.reset : Column :=
  { host := HostCore.reset, therm := 0, thermAt := none, coolAt := none, ramp := 0, duty := 0, govIe := false,
    govPend := false, throttle := 0, valve := 0xFF, tj := 0, tb := 0, vfValue := 255, vfEn := false, period := 12,
    scrubPos := 0, eccLog := 0, vbusLog := 0, up := VBus.zero, down := VBus.zero, beat := none, held := [], rmw := [], late := [], cwq := [], slice := [], fresh := [],
    allocs := [], images := [], stackUsed := 0, corePg := 0, gated := 0, schedEvt := 0, migrSince := none }

/-- Partition p at reset (02 R60): VALID 1 in `PART_CFG0` else 0, RANK 7, PCAP 0xFF_FFFF; `CAP_CAUSE.RANK` 7 (R66). -/
def Part.reset (p : Nat) : Part :=
  { cfg := 0xFFFFFF0E ||| (if p = 0 then 1 else 0), duty := 0, margin := 0, cause := 0x70 }

def Weights.reset : Weights :=
  { ver := [], flash := [], mapped := [], staged := [], zones := [], room := [], installs := [], asks := [] }

def Power.reset : Power :=
  { tally := [], counts := [], totals := [], weights := [], cov := [], domainPwr := [], ests := [], partEsts := [], rankCap := [],
    devCap := 22000, curLim := 30000, govTj := 105, govTb := 92, shunt := [], current := 3000, allow := 3000,
    ballast := 0, floor := 3000, ballastPk := 0, ballastAt := none, unmet := [], alarms := [] }

def Mgmt.reset : Mgmt :=
  { owner := 0, lease := 100, acqTsc := 0, semAt := 0, semBase := (0, 0, 0), semWrites := [], lastCtl := 0, log := [], tail := 0, lost := 0, seq := [], index := [],
    latch := [], capSeq := 0, capValid := false, frameKey := none }

def Pkg.reset : Pkg :=
  { ctxTable := 0, ctxCmd := 0, ctxBusy := false, partMap := 0, hbmP := 32, hbmW := 16, hbmLock := false, rrSize := 64,
    extSize := 64, migCfg := 0x0A0B, pgfCfg := 0, pgfBase := 0, pgfTail := 0, pgfHead := 0, wearSet := 0, ualGrant := [],
    storeUsed := [], order := 0, serial := 0 }

/-- The machine right after reset. The host cores' clutches stand in no table: `clutchAt` gives them (log 2). -/
def State.reset : State :=
  { mem := [], poison := [], bankErr := [], scratch := [], tsc := 0, clutches := [], tasks := [], gangs := [],
    launches := [], lines := [], cmds := [], l1 := [], icache := [], toks := [], hostHas := [], msgs := [], tlb := [], extCache := [], sync := [],
    cols := [], cores := [], fifos := [], promo := [], links := [], uals := [], ethRate := [], pager := [], ctxs := [],
    weights := Weights.reset, power := Power.reset, parts := [], mgmt := Mgmt.reset, boot := .rom, bootSrc := none,
    image := none, pkg := Pkg.reset, emerg := none, msix := [], reply := .none, cur := 0, issuing := false,
    agenda := [], fresh := 0 }

end Sys2Proof.Machine
end

