-- ==== Sys2Proof/Machine/Access.lean ====
section
/-! DEFINITION. Named access to the parts of the state: clutches, lanes, tasks, columns, the counter of free values, the
management log, and the numbers of cores, columns and dies (00 R2). -/

namespace Sys2Proof.Machine

/-! ### Numbers (00 R2, 01 R13) -/

/-- Column of a core: SIMT cores 0 to 255 are 4 × column + position, host cores 256 + column. -/
def colOf (core : Nat) : Nat := if core < 256 then core / 4 else core - 256

/-- Die (tower) of a column. -/
def dieOf (col : Nat) : Nat := col / 16

/-- Pair of a SIMT core: 2 × column + (0 for a, 1 for b). Positions: lo-a 0, lo-b 1, hi-a 2, hi-b 3. -/
def pairOf (core : Nat) : Nat := 2 * (core / 4) + core % 2

/-- Does the core stand on the upper tier? -/
def upperTier (core : Nat) : Bool := 2 ≤ core % 4

/-! ### Clutches and lanes -/

/-- A clutch that does not exist: no lane of it is eligible. -/
def deadClutch : Clutch :=
  { task := none, index := 0, lanes := [], s := [], a := [], k := [], flags := 0, fpmode := 0, rc := 0, grp := 0, rot := false,
    traps := [], level := 0, ie := false, inflight := [], hazard := [], parked := false, wait := none, engStat := 0,
    sbarGen := 0, wearZone := 0, arrived := 0, seen := 0, region := none, regionAddr := 0, regionF := 0, pagerTag := none,
    core := 0, slot := 0, quad := 0, pad := none, homeCore := 0, homeSlot := 0, leapTo := none, windowOut := false, atStop := none,
    waitCount := 0, waitArg := 0, yielded := false }

/-- A lane at the start of a task or of a host core: not exited, LFSR 1 + lane (05 R155). -/
def startLane (i : Nat) (pc : BitVec 53) : Lane :=
  { Lane.none with pc := pc, exited := false, lfsr := BitVec.ofNat 32 (1 + i) }

/-- The clutch of host core `col` at reset: one lane, firmware level (05 R196, 12 R450; log 2). -/
def hostClutch (col : Nat) : Clutch :=
  { deadClutch with lanes := [(0, startLane 0 0)], level := 2, core := 256 + col, homeCore := 256 + col }

/-- A clutch by its identifier. -/
def clutchAt (s : State) (cid : Nat) : Clutch :=
  match tget none s.clutches cid with
  | some c => c
  | none => if cid < 64 then hostClutch cid else deadClutch

def setClutch (s : State) (cid : Nat) (c : Clutch) : State :=
  { s with clutches := tput none s.clutches cid (some c) }

def modClutch (s : State) (cid : Nat) (f : Clutch → Clutch) : State := setClutch s cid (f (clutchAt s cid))

/-- Does the clutch run on a host core (05 R196)? -/
def isHost (c : Clutch) : Bool := 256 ≤ c.core

def laneAt (c : Clutch) (i : Nat) : Lane := tget Lane.none c.lanes i

def setLane (c : Clutch) (i : Nat) (l : Lane) : Clutch := { c with lanes := tput Lane.none c.lanes i l }

def modLane (c : Clutch) (i : Nat) (f : Lane → Lane) : Clutch := setLane c i (f (laneAt c i))

/-- Apply `f` to every lane of a mask. -/
def modLanes (c : Clutch) (m : Mask) (f : Nat → Lane → Lane) : Clutch :=
  (lanesOf m).foldl (fun c i => modLane c i (f i)) c

/-- The number of lanes that a clutch has: one on a host core (05 R196). -/
def laneCount (c : Clutch) : Nat := if isHost c then 1 else 32

/-! ### Partial maps of the state -/

def taskAt (s : State) (t : Nat) : Option Task := tget none s.tasks t
def setTask (s : State) (t : Nat) (x : Task) : State := { s with tasks := tput none s.tasks t (some x) }
def modTask (s : State) (t : Nat) (f : Task → Task) : State :=
  match taskAt s t with
  | some x => setTask s t (f x)
  | none => s

def gangAt (s : State) (g : Nat) : Option Gang := tget none s.gangs g
def setGang (s : State) (g : Nat) (x : Gang) : State := { s with gangs := tput none s.gangs g (some x) }

def launchAt (s : State) (l : Nat) : Option Launch := tget none s.launches l
def setLaunch (s : State) (l : Nat) (x : Launch) : State := { s with launches := tput none s.launches l (some x) }

def cmdAt (s : State) (i : Nat) : Option Cmd := tget none s.cmds i
def setCmd (s : State) (i : Nat) (x : Cmd) : State := { s with cmds := tput none s.cmds i (some x) }
def delCmd (s : State) (i : Nat) : State := { s with cmds := tdel s.cmds i }

def colAt (s : State) (c : Nat) : Column := (tget none s.cols c).getD Column.reset
def setCol (s : State) (c : Nat) (x : Column) : State := { s with cols := tput none s.cols c (some x) }
def modCol (s : State) (c : Nat) (f : Column → Column) : State := setCol s c (f (colAt s c))

def hostAt (s : State) (c : Nat) : HostCore := (colAt s c).host
def modHost (s : State) (c : Nat) (f : HostCore → HostCore) : State :=
  modCol s c (fun x => { x with host := f x.host })

def coreAt (s : State) (c : Nat) : CoreSt := tget CoreSt.zero s.cores c
def setCore (s : State) (c : Nat) (x : CoreSt) : State := { s with cores := tput CoreSt.zero s.cores c x }

def lineAt (s : State) (k : Nat) : Line := tget Line.zero s.lines k
def setLine (s : State) (k : Nat) (x : Line) : State := { s with lines := tput Line.zero s.lines k x }

def ctxAt (s : State) (n : Nat) : CtxEnt := tget CtxEnt.zero s.ctxs n

def partAt (s : State) (p : Nat) : Part := (tget none s.parts p).getD (Part.reset p)
def setPart (s : State) (p : Nat) (x : Part) : State := { s with parts := tput none s.parts p (some x) }

def promoAt (s : State) (d : Nat) : Promo := tget Promo.zero s.promo d
/-- The engine of a die promotes a range (06 R220). -/
def promoRuns (s : State) (d : Nat) : Bool := (promoAt s d).busy && (promoAt s d).asked.isNone

def setPromo (s : State) (d : Nat) (x : Promo) : State := { s with promo := tput Promo.zero s.promo d x }

/-- The context in which a clutch's accesses translate: its task's, or `HCTX` (12 R449). -/
def ctxOf (s : State) (c : Clutch) : Nat :=
  match c.task with
  | some t => match taskAt s t with
    | some x => x.ctx
    | none => 0
  | none => (hostAt s (colOf c.core)).hctx.toNat

/-- Does the clutch run at user privilege? -/
def userLevel (c : Clutch) : Bool := c.level == 0

/-- Engine contexts of a task or a host core. -/
def engAt (s : State) (r : EngRef) (e : Nat) : EngCtx :=
  match r with
  | .task t => match taskAt s t with
    | some x => tget EngCtx.zero x.engs e
    | none => EngCtx.zero
  | .host c => tget EngCtx.zero (hostAt s c).engs e

def setEng (s : State) (r : EngRef) (e : Nat) (x : EngCtx) : State :=
  match r with
  | .task t => modTask s t (fun k => { k with engs := tput EngCtx.zero k.engs e x })
  | .host c => modHost s c (fun k => { k with engs := tput EngCtx.zero k.engs e x })

/-- The engine contexts a clutch uses (12 R422). -/
def engRef (c : Clutch) : EngRef :=
  match c.task with
  | some t => .task t
  | none => .host (colOf c.core)

/-- The number of engine contexts (12 R422). -/
def engCount (s : State) (c : Clutch) : Nat :=
  match c.task with
  | some t => match taskAt s t with
    | some x => x.engines
    | none => 0
  | none => 4

/-- Partition of a column (02 R60). -/
def partOf (s : State) (col : Nat) : Nat := bits s.pkg.partMap.toNat (4 * (col / 4)) 4

/-- The column's group belongs to a valid partition (02 R60). -/
def assignedCol (s : State) (col : Nat) : Bool := (partAt s (partOf s col)).cfg.getLsbD 0

/-! ### Free values (log 11) -/

def freeW (s : State) : Word × State := (Config.freeWord s.fresh, { s with fresh := s.fresh + 1 })
def freeD (s : State) : Dword × State := (Config.freeDword s.fresh, { s with fresh := s.fresh + 1 })
def freeB (s : State) : Byte × State := (Config.freeByte s.fresh, { s with fresh := s.fresh + 1 })
def freeF (s : State) : Bool × State := (Config.freeBool s.fresh, { s with fresh := s.fresh + 1 })
def freeN (s : State) : Nat × State := (Config.freeNat s.fresh, { s with fresh := s.fresh + 1 })

/-! ### The management log (02 R83) -/

/-- Where an entry goes: before those of the same `TSC` and a higher source, which move up one slot. `n` entries stand below. -/
def logPlace (e : BitVec 256) : Nat → Nat → Tab (BitVec 256) → Tab (BitVec 256)
  | 0, n, log => tput 0 log (n % 8192) e
  | fuel + 1, n, log =>
    let p := tget 0 log ((n + 8191) % 8192)
    if p ≠ 0 ∧ p.setWidth 64 = e.setWidth 64 ∧ (e.extractLsb' 64 8).toNat < (p.extractLsb' 64 8).toNat then
      logPlace e fuel (n + 8191) (tput 0 log (n % 8192) p)
    else tput 0 log (n % 8192) e

/-- Post an entry: TSC, SOURCE, CLASS, CODE, SEQ of the source, DATA, in the order of R83; the oldest is overwritten when full. -/
def logPost (s : State) (source cls code : Nat) (data : BitVec 128) : State :=
  let m := s.mgmt
  let q := tget 0 m.seq source
  let e : BitVec 256 := data ++ q ++ BitVec.ofNat 16 code ++ BitVec.ofNat 8 cls ++ BitVec.ofNat 8 source ++ s.tsc
  { s with mgmt := { m with
      log := logPlace e 8191 (m.tail.toNat % 8192) (tput 0 m.log (m.tail.toNat % 8192) 0)
      tail := m.tail + 1
      lost := if tget 0 m.log (m.tail.toNat % 8192) ≠ 0 then m.lost + 1 else m.lost
      seq := tput 0 m.seq source (q + 1) } }

/-- Raise an MSI-X vector; 0 raises none but for a fatal error (03 R95). -/
def raiseVec (s : State) (v : Nat) : State := if v = 0 then s else { s with msix := s.msix ++ [v] }

end Sys2Proof.Machine
end

