-- ==== Sys2Proof/Machine/Phys.lean ====
section
/-! DEFINITION. Physical memory: the map of 01 R16 to R23, performed bytes (07 R250), poison (06 R225), bank reads and writes
with ECC (01 R32), tokens (06 R228), L1s and column write queues (06 R221, R222), and what a release and an acquire of
each scope do (07 R261). -/

namespace Sys2Proof.Machine

/-! ### The physical map (01 R16) -/

/-- What a physical address names. -/
inductive PaKind where
  | hbm
  | bank (col bo : Nat)
  | regs
  | weight (off : Nat)
  | sys
  | hole
  deriving DecidableEq, Repr

def gib : Nat := 0x40000000
def hbmTop : Nat := 0xC000000000
def bankBase : Nat := 0x10000000000
def regBase : Nat := 0x20000000000

/-- Offset of an address in the register space, which fills half of the range between its base and twice its base. -/
def regOff (pa : Nat) : Nat := pa % regBase

def weightBase : Nat := 0x100000000000
def sysBase : Nat := 0x8000000000000

/-- What an address of the system region reaches: a host physical address, or an offset of a UALink peer (03 R97). -/
inductive SysPart where
  | host (pa : Nat)
  | peer (i off : Nat)
  deriving DecidableEq, Repr

def peerBase : Nat := 0xC000000000000

def sysPart (pa : Nat) : SysPart :=
  if pa < peerBase then .host (pa - sysBase) else .peer ((pa - peerBase) / (1024 * gib)) ((pa - peerBase) % (1024 * gib))

/-- Decode of 01 R16; the blocks of device register space by 03 R98; the weight aperture is a hole until
`HBM_SPLIT.LOCK` is set (06 R236). -/
def paKind (s : State) (pa : Nat) : PaKind :=
  if pa < hbmTop then .hbm
  else if bankBase ≤ pa ∧ pa < bankBase + 64 * (4 * gib) then .bank ((pa - bankBase) / (4 * gib)) ((pa - bankBase) % (4 * gib))
  else if regBase ≤ pa ∧ pa < regBase + 1024 * gib then
    if (pa - regBase) / 0x20000 < 64 ∨ (0x800000 ≤ pa - regBase ∧ pa - regBase < 0x880000) ∨
       (0x900000 ≤ pa - regBase ∧ pa - regBase < 0x920000) then .regs else .hole
  else if weightBase ≤ pa ∧ pa < weightBase + 16384 * gib then
    if s.pkg.hbmLock then .weight (pa - weightBase) else .hole
  else if sysBase ≤ pa ∧ pa < 0x10000000000000 then .sys
  else .hole

/-- Stack and stack offset of an HBM address (01 R20), and the pool: 0 package, 1 tower, 2 stack-local. -/
def hbmDecode (s : State) (pa : Nat) : Nat × Nat × Nat :=
  let p := s.pkg.hbmP.toNat
  let w := s.pkg.hbmW.toNat
  let l := 64 - p - w
  if pa < 12 * p * gib then
    let g := pa / 2048
    (g % 12, g / 12 * 2048 + pa % 2048, 0)
  else if pa < 12 * (p + w) * gib then
    let o := pa - 12 * p * gib
    let t := o / (3 * w * gib)
    let o := o % (3 * w * gib)
    let g := o / 2048
    (3 * t + g % 3, p * gib + g / 3 * 2048 + o % 2048, 1)
  else
    let o := pa - 12 * (p + w) * gib
    (o / (l * gib), (p + w) * gib + o % (l * gib), 2)

/-- XOR of n fields of width w from bit lo on. -/
def foldXor (x lo w : Nat) : Nat → Nat
  | 0 => 0
  | n + 1 => (bits x lo w) ^^^ foldXor x (lo + w) w n

def fold4 (pa : Nat) : Nat := foldXor pa 7 4 11
def fold6 (pa : Nat) : Nat := foldXor pa 7 6 7

/-- Tower of the agent that serves a register block (03 R98): slice c, the die scheduler of tower t, or T0. -/
def regTower (off : Nat) : Nat :=
  if off / 0x20000 < 64 then off / 0x20000 / 16 else if off < 0x880000 then (off - 0x800000) / 0x20000 else 0

/-- Home tower of a line (01 R22). -/
def homeTower (s : State) (pa : Nat) : Nat :=
  match paKind s pa with
  | .hbm => (hbmDecode s pa).1 / 3
  | .bank c _ => c / 16
  | .regs => regTower (pa - regBase)
  | _ => fold6 pa / 16

/-- Home slice of a line (01 R22); register space has none. -/
def homeSlice (s : State) (pa : Nat) : Option Nat :=
  match paKind s pa with
  | .hbm => some (16 * ((hbmDecode s pa).1 / 3) + fold4 pa)
  | .bank c _ => some c
  | .regs => none
  | .hole => none
  | _ => some (fold6 pa)

/-- Effective reading-room size (06 R235). -/
def rrGib (s : State) : Nat :=
  if 64 ≤ s.pkg.rrSize.toNat ∧ s.pkg.rrSize.toNat ≤ 256 then s.pkg.rrSize.toNat else 64

/-- Bytes of the reserved ranges (06 R236). -/
def reservedBytes (s : State) : Nat := rrGib s * gib + s.pkg.extSize.toNat * 0x1000000 + gib

/-- First byte of the reserved ranges; they exist once LOCK is set (06 R236). -/
def reservedBase (s : State) : Nat := 12 * s.pkg.hbmP.toNat * gib - reservedBytes s

/-- First byte and length of the extent store (06 R236, R237). -/
def storeBase (s : State) : Nat := 12 * s.pkg.hbmP.toNat * gib - rrGib s * gib - s.pkg.extSize.toNat * 0x1000000
def storeLen (s : State) : Nat := if s.pkg.hbmLock then s.pkg.extSize.toNat * 0x1000000 else 0

/-- Does [pa, pa + n) meet a reserved range? -/
def meetsReserved (s : State) (pa n : Nat) : Bool :=
  s.pkg.hbmLock && decide (pa < 12 * s.pkg.hbmP.toNat * gib) && decide (reservedBase s < pa + n)

/-! ### Bank reads and writes (01 R31, R32, R35 to R37) -/

/-- Post an event of the bank ECC (01 R35, R37); the management log gets the fields of R35 as they describe it (02 R86). -/
def postEcc (s : State) (c : Nat) (ue scrub : Bool) (bo word bit : Nat) : State :=
  let k := colAt s c
  let old := k.eccLog.toNat
  let cnt := bits old 48 16
  let cnt' := if ue then cnt else natMin (cnt + 1) 0xFFFF
  let latch : Bool := bits old 0 1 = 0 ∨ (ue = true ∧ bits old 1 1 = 0)
  let fields := 1 + (if ue then 2 else 0) + (if scrub then 8 else 0) + bits bo 7 2 * 2 ^ 8 + bits bo 9 4 * 2 ^ 10
    + bits bo 20 12 * 2 ^ 14 + bits bo 13 7 * 2 ^ 26 + word * 2 ^ 33 + (if ue then 0 else bit * 2 ^ 37)
  let ovf := if latch then bits old 2 1 else 1
  let entry := fun (body : Nat) => BitVec.ofNat 128 (setBits (setBits body 2 1 ovf) 48 16 cnt')
  let event := entry (fields + s.tsc.toNat * 2 ^ 64)
  let s := setCol s c { k with eccLog := if latch then event else entry old }
  if ue then logPost s (0x10 + c) 3 0x22 event else s

/-- Post an event of the vertical bus: kind 0 retry, 1 swap, 2 FAIL (01 R36, R37); the management log gets the fields of R36 as they describe
it (02 R86). -/
def postVbus (s : State) (c : Nat) (down : Bool) (kind group lane attempts spare : Nat) : State :=
  let k := colAt s c
  let old := k.vbusLog.toNat
  let oldRank := bits old 2 1 + 2 * bits old 3 1
  let latch : Bool := bits old 0 1 = 0 ∨ oldRank < kind
  let fields := 1 + (if down then 2 else 0) + (if kind = 1 then 4 else 0) + (if kind = 2 then 8 else 0) + group * 2 ^ 8
    + (if kind = 1 then lane * 2 ^ 15 + spare * 2 ^ 24 else 0) + attempts * 2 ^ 20
  let ovf := if latch then bits old 4 1 else 1
  let event := BitVec.ofNat 128 (setBits (setBits fields 32 16 (bits old 32 16)) 4 1 ovf + s.tsc.toNat * 2 ^ 64)
  let s := setCol s c { k with vbusLog := if latch then event else BitVec.ofNat 128 (setBits old 4 1 1) }
  if kind = 1 then logPost s (0x10 + c) 3 0x20 event
  else if kind = 2 then logPost s (0x10 + c) 3 0x21 event else s

/-- Uncorrectable error of a 64-bit word: two or more flipped bits (01 R32; log 7). -/
def wordUe (s : State) (w : Nat) : Bool := 2 ≤ (tget [] s.bankErr w).length

/-- The 64 KiB block of a column bank is fresh: it reads as zero (06 R232). -/
def isFresh (s : State) (c bo : Nat) : Bool := (colAt s c).fresh.contains (bo / 65536)

/-- Bank offset of a line of a column bank. -/
def lineBo (line : Nat) : Nat := (line * 128 - bankBase) % (4 * gib)

/-- Some word of a line of column bank c holds an uncorrectable error; a fresh block holds none (06 R232). -/
def lineUe (s : State) (c line : Nat) : Bool :=
  !isFresh s c (lineBo line) && (List.range 16).any (fun i => wordUe s (16 * line + i))

/-- A direction of the column's vertical bus has FAILED: reads return poisoned lines and writes are discarded (01 R31; log 80). -/
def busFailed (s : State) (c : Nat) : Bool := (colAt s c).up.failed || (colAt s c).down.failed

/-- A beat of the direction is to be sent again: it has failed, or the direction has a new lane map (01 R28, R29). -/
def VBus.again (v : VBus) : Bool := !v.failed && (decide (0 < v.retries) || v.newMap)

/-- A lane repair runs on the column's vertical bus (01 R29). -/
def repairing (s : State) (c : Nat) : Bool := !(colAt s c).up.repair.isEmpty || !(colAt s c).down.repair.isEmpty

/-- New requests to the bank wait: for a lane repair, or behind a beat that is to be sent again (01 R28, R29). -/
def bankBusy (s : State) (c : Nat) : Bool :=
  !busFailed s c && (repairing s c || (colAt s c).up.again || (colAt s c).down.again)

/-- Writes of the bank read-modify-write unit that have not reached the array, those to be written first in front (01 R29, R30). -/
def unitWrites (k : Column) : List BankWrite := k.late ++ k.rmw

/-- The unit keeps the line locked (01 R29). -/
def lineLocked (s : State) (c line : Nat) : Bool := (unitWrites (colAt s c)).any (fun w => decide (w.line = line))

/-- Read one line from the bank array: errors are logged, a single-bit error is corrected in place (01 R32). The line comes
back poisoned on an uncorrectable error or on a FAILED bus (01 R31); a fresh block reads as zero (06 R232). Errors in several words are
taken from word 0 up (log 112). -/
def bankReadLine (s : State) (c line : Nat) (scrub : Bool) : State × Bool :=
  let bo := lineBo line
  if busFailed s c then (s, true)
  else if isFresh s c bo then (s, false)
  else
    (List.range 16).foldl (fun (p : State × Bool) i =>
      let w := 16 * line + i
      match tget [] p.1.bankErr w with
      | [] => p
      | [b] => ({ postEcc p.1 c false scrub bo i b with bankErr := tput [] p.1.bankErr w [] }, p.2)
      | _ => (postEcc p.1 c true scrub bo i 0, true)) (s, false)

/-- Clear the fresh bit of a block at its first write: its bytes become zero, in new codewords. -/
def unfresh (s : State) (c bo : Nat) : State :=
  if isFresh s c bo then
    let lo := bankBase + c * (4 * gib) + bo / 65536 * 65536
    let s := modCol s c (fun k => { k with fresh := k.fresh.filter (fun b => decide (b ≠ bo / 65536)) })
    { s with mem := s.mem.filter (fun x => decide (x.1 < lo) || decide (lo + 65536 ≤ x.1)),
             bankErr := s.bankErr.filter (fun x => decide (x.1 < lo / 8) || decide (lo / 8 + 8192 ≤ x.1)) }
  else s

/-- Store the masked bytes of a line into memory. -/
def memPutLine (s : State) (line : Nat) (data : BitVec 1024) (mask : BitVec 128) : State :=
  let put := fun m i => if mask.getLsbD i then tput 0 m (128 * line + i) (lineByte data i) else m
  { s with mem := (List.range 128).foldl put s.mem }

/-- The bytes that a mask covers of 64-bit word i of a line. -/
def maskWord (mask : BitVec 128) (i : Nat) : Nat := (mask.extractLsb' (8 * i) 8).toNat

/-- Some 64-bit word of the line is written in part: the write is a read-modify-write (01 R32). -/
def isPartial (mask : BitVec 128) : Bool := (List.range 16).any (fun i => maskWord mask i ≠ 0 && maskWord mask i ≠ 255)

/-- The unit reads and checks the old words that a write covers in part: errors are logged, a single one is corrected (01 R32). -/
def bankCheckOld (s : State) (c line : Nat) (mask : BitVec 128) : State :=
  let bo := lineBo line
  if isFresh s c bo then s
  else (List.range 16).foldl (fun s i =>
    if maskWord mask i = 0 ∨ maskWord mask i = 255 then s
    else match tget [] s.bankErr (16 * line + i) with
      | [] => s
      | [b] => { postEcc s c false false bo i b with bankErr := tput [] s.bankErr (16 * line + i) [] }
      | _ => postEcc s c true false bo i 0) s

/-- Store bytes of a line in the array: a whole line makes new codewords in every word, otherwise a word with an uncorrectable error keeps
its pattern (01 R32). A FAILED bus discards them (R31). -/
def bankPut (s : State) (c line : Nat) (data : BitVec 1024) (mask : BitVec 128) : State :=
  if busFailed s c then s
  else
    let s := unfresh s c (lineBo line)
    let full : Bool := mask = BitVec.allOnes 128
    let errs := (List.range 16).foldl (fun t i =>
      if maskWord mask i ≠ 0 ∧ (full = true ∨ (tget [] t (16 * line + i)).length ≤ 1) then tput [] t (16 * line + i) [] else t) s.bankErr
    memPutLine { s with bankErr := errs } line data mask

/-- Write bytes of a line to the bank array (01 R31, R32). -/
def bankWriteLine (s : State) (c line : Nat) (data : BitVec 1024) (mask : BitVec 128) : State :=
  if busFailed s c then s else bankPut (bankCheckOld s c line mask) c line data mask

/-! ### Performed bytes (07 R250) -/

/-- The slice holds every byte of the line. -/
def SliceLine.full (l : SliceLine) : Bool := l.whole || l.mask == BitVec.allOnes 128

/-- A byte of column bank c below its slice: of a write of the unit that has not reached the array, else of the array. -/
def bankByte (s : State) (c bo pa : Nat) : Byte :=
  match (unitWrites (colAt s c)).find? (fun w => decide (w.line = pa / 128) && w.mask.getLsbD (pa % 128)) with
  | some w => lineByte w.data (pa % 128)
  | none => if isFresh s c bo then 0 else tget 0 s.mem pa

/-- The performed value of a byte: bytes that the slice of a column-bank line holds stand over the bank's. -/
def perfByte (s : State) (pa : Nat) : Byte :=
  match paKind s pa with
  | .bank c bo =>
    match tget none (colAt s c).slice (pa / 128) with
    | some l => if l.whole || l.mask.getLsbD (pa % 128) then lineByte l.data (pa % 128) else bankByte s c bo pa
    | none => bankByte s c bo pa
  | .weight off => tget 0 s.weights.flash off
  | _ => tget 0 s.mem pa

/-- The performed value of n bytes. -/
def perfNat (s : State) (pa n : Nat) : Nat := leNat ((List.range n).map (fun i => perfByte s (pa + i)))

/-- The performed value of a line. -/
def perfLine (s : State) (line : Nat) : BitVec 1024 :=
  (List.range 128).foldl (fun d i => lineSet d i (perfByte s (128 * line + i))) 0

/-! ### Slices (01 R13, 06 R223, R233) -/

/-- Lines that a slice holds: 8 MiB, 512 MiB in all (01 R13, 00 R4). -/
def sliceCap : Nat := 65536

def sliceAt (s : State) (c line : Nat) : Option SliceLine := tget none (colAt s c).slice line

def setSlice (s : State) (c line : Nat) (x : Option SliceLine) : State :=
  modCol s c (fun k => { k with slice := tput none k.slice line x })

/-- Slice c gives a line up; bytes not yet written back go to the bank array first (06 R233). -/
def sliceOut (s : State) (c line : Nat) : State :=
  match sliceAt s c line with
  | none => s
  | some l => if l.mask = 0 then setSlice s c line none else bankWriteLine (setSlice s c line none) c line l.data l.mask

/-- A line of a slice may leave it: one with bytes to write back waits for the bus, and while the unit keeps it locked (01 R29). -/
def mayLeave (s : State) (c : Nat) (q : Nat × Option SliceLine) : Bool :=
  (!bankBusy s c && !lineLocked s c q.1) || (match q.2 with | some l => l.mask = 0 | none => true)

/-- Slice c cannot take a line now: it is full (01 R13, 00 R4), and none of its lines may leave it. -/
def sliceFull (s : State) (c line : Nat) : Bool :=
  let k := (colAt s c).slice
  (tget none k line).isNone && decide (sliceCap ≤ k.length) && !k.any (mayLeave s c)

/-- Room for a line in slice c: a full slice gives up a line of its choice (06 R227; log 89). -/
def sliceRoom (s : State) (c line : Nat) : State :=
  let k := (colAt s c).slice
  if (tget none k line).isSome || decide (k.length < sliceCap) then s
  else
    let out := k.filter (mayLeave s c)
    sliceOut { s with fresh := s.fresh + 1 } c ((listGet out (Config.freeNat s.fresh % out.length)).getD (k.headD (line, none))).1

/-- A line enters slice c; a slice that cannot take it stays as it is. -/
def sliceEnter (s : State) (c line : Nat) (x : SliceLine) : State :=
  if sliceFull s c line then s else setSlice (sliceRoom s c line) c line (some x)

/-- Slice c caches a line of another home (06 R223). -/
def sliceTouch (s : State) (c line : Nat) : State :=
  match paKind s (128 * line) with
  | .hbm | .sys => if (sliceAt s c line).isSome then s else sliceEnter s c line SliceLine.empty
  | _ => s

/-- A read at the home: a column-bank line of which the slice does not hold every byte is read from the array, and the slice keeps
it, with its poison (01 R32, 06 R225, R233). -/
def bankFetch (s : State) (line : Nat) : State :=
  match paKind s (128 * line) with
  | .bank c _ =>
    let l := (sliceAt s c line).getD SliceLine.empty
    if l.full then s
    else
      let r := bankReadLine s c line false
      sliceEnter r.1 c line { l with data := perfLine s line, whole := true, poison := l.poison || r.2 }
  | _ => s

/-- A read of the line at its home waits: the slice misses, and the bus is busy or the unit keeps the line locked (01 R28, R29). -/
def bankHeld (s : State) (line : Nat) : Bool :=
  match paKind s (128 * line) with
  | .bank c _ => (bankBusy s c || lineLocked s c line) && !((sliceAt s c line).getD SliceLine.empty).full
  | _ => false

/-- Slice c holds a request to its bank, behind those that came before (01 R29). The first read that meets a beat of the down direction
which is to be sent again is the read of that beat (R28). -/
def holdReq (s : State) (c : Nat) (r : BankReq) : State :=
  let k := colAt s c
  match r with
  | .read l =>
    if k.held.contains r || k.beat == some l then s
    else if k.beat.isNone && k.down.again && !repairing s c then setCol s c { k with beat := some l }
    else setCol s c { k with held := k.held ++ [r] }
  | .writeBack _ => if k.held.contains r then s else setCol s c { k with held := k.held ++ [r] }
  | .atomic _ => setCol s c { k with held := k.held ++ [r] }

/-- The read that an agent waits for joins the held requests. -/
def holdRead (s : State) (line : Nat) : State :=
  match paKind s (128 * line) with
  | .bank c _ => if bankHeld s line then holdReq s c (.read line) else s
  | _ => s

def holdReads (s : State) (ls : List Nat) : State := ls.foldl holdRead s

/-! ### Weight lines (06 R234 to R239) -/

/-- Extent and install unit of a line of the weight aperture. -/
def weightExt (line : Nat) : Nat := (128 * line - weightBase) / gib
def weightUnit (line : Nat) : Nat := (128 * line - weightBase) / 65536

/-- Current version of an extent, which every L1 and slice knows (06 R239; log 4). -/
def verOf (s : State) (e : Nat) : Word := tget 0 s.weights.ver e

/-- A weight line held by an L1 at the current version. -/
def weightL1 (s : State) (i line : Nat) : Option L1Line :=
  match tget none (tget [] s.l1 i) line with
  | some l => if l.ver = some (verOf s (weightExt line)) ∧ l.valid ≠ 0 then some l else none
  | none => none

/-- A weight line held by the slice of the core's column at the current version. -/
def weightSlice (s : State) (i line : Nat) : Option SliceLine :=
  match tget none (colAt s (colOf i)).slice line with
  | some l => if l.ver = some (verOf s (weightExt line)) then some l else none
  | none => none

/-- The reading room holds the line's unit at the current version (06 R238). -/
def inRoom (s : State) (line : Nat) : Bool := s.weights.room.contains (weightUnit line, verOf s (weightExt line))

/-- Is the line poisoned for a reader at a slice (06 R225, 01 R31, R32)? -/
def linePoison (s : State) (line : Nat) : Bool :=
  tget false s.poison line ||
  match paKind s (128 * line) with
  | .bank c _ =>
    match sliceAt s c line with
    | some l => l.poison || (!l.full && (busFailed s c || lineUe s c line))
    | none => busFailed s c || lineUe s c line
  | _ => false

/-- Perform a write of the masked bytes of a line (07 R250). A whole line clears poison, a part keeps it (06 R225). -/
def performLine (s : State) (line : Nat) (data : BitVec 1024) (mask : BitVec 128) (poison : Bool) : State :=
  let full : Bool := mask = BitVec.allOnes 128
  let s := { s with poison := tput false s.poison line (if full then false else tget false s.poison line || poison) }
  match paKind s (128 * line) with
  | .bank c _ =>
    let old := (sliceAt s c line).getD SliceLine.empty
    setSlice (sliceRoom s c line) c line (some { old with
      data := lineMerge old.data data mask, mask := old.mask ||| mask, poison := old.poison && !full })
  | .hole => s
  | .weight _ => s
  | _ => memPutLine s line data mask

/-- Slice c writes back its dirty bytes of a column-bank line and drops it (06 R233). -/
def sliceDrop (s : State) (line : Nat) : State :=
  match paKind s (128 * line) with
  | .bank c _ => sliceOut s c line
  | _ => s

/-- Perform a write of some bytes at a physical address, line by line. -/
def performBytes (s : State) (pa : Nat) : List Byte → State
  | [] => s
  | b :: t =>
    performBytes (performLine s (pa / 128) (lineSet 0 (pa % 128) b) (bit128 0 (pa % 128)) false) (pa + 1) t

/-! ### Tokens (06 R228 to R231) -/

/-- A line that no table lists has all four tokens and the owner flag at its home die (log 8). -/
def tokAt (s : State) (line : Nat) : LineTok :=
  (tget none s.toks line).getD
    { held := [(homeTower s (128 * line), 4)], owner := some (homeTower s (128 * line)), reqs := [], queue := [], active := none,
      watch := false }

def setTok (s : State) (line : Nat) (x : LineTok) : State := { s with toks := tput none s.toks line (some x) }

/-- Clutches whose hold-mode attempt keeps a token of the line (07 R276), other than `me`. -/
def holders (s : State) (line : Nat) (me : Option Nat) : List Nat :=
  (tsome s.clutches).filterMap (fun p =>
    match p.2.region with
    | some r => if r.hold.isSome && r.held.contains line && decide (me ≠ some p.1) then some p.1 else none
    | none => none)

/-- Rank keys of a hold-mode attempt, the oldest first (07 R276). -/
def holdRank (c : Clutch) (r : Region) : List Nat :=
  [r.hold.getD 0, colOf c.core, if isHost c then 4 else c.core % 4, if c.pad.isSome then 1 else 0, c.pad.getD c.slot]

/-- Lexicographic order. -/
def lexLt : List Nat → List Nat → Bool
  | a :: x, b :: y => decide (a < b) || (decide (a = b) && lexLt x y)
  | _, _ => false

/-- Does attempt `a` rank above attempt `b`? -/
def outranks (s : State) (a b : Nat) : Bool :=
  match (clutchAt s a).region, (clutchAt s b).region with
  | some x, some y => x.hold.isSome && lexLt (holdRank (clutchAt s a) x) (holdRank (clutchAt s b) y)
  | _, _ => false

/-- Clutches with a hold-mode attempt. -/
def attempts (s : State) : List Nat :=
  ((tsome s.clutches).filter (fun p => match p.2.region with | some r => r.hold.isSome | none => false)).map (·.1)

/-- The oldest hold-mode attempt of the package: every plain writer waits for it (07 R276). -/
def oldestHold (s : State) (cid : Nat) : Bool :=
  (attempts s).contains cid && (attempts s).all (fun o => decide (o = cid) || outranks s cid o)

/-- The host gives up its copy of a device line before a device agent gets a token for it (BACK_INVALIDATE, 03 R92, 07 R279). -/
def recallHost (s : State) (line : Nat) : State :=
  if s.hostHas.contains line then { s with hostHas := s.hostHas.filter (fun l => l ≠ line) } else s

/-- Another die's persistent request for the line is active: every token goes to that die (06 R230), but for the oldest hold-mode attempt
`me` (07 R276). The active request is numbered die + 4 for a write. -/
def claimed (s : State) (line die : Nat) (me : Option Nat) : Bool :=
  match (tokAt s line).active with
  | some q => q % 4 != die && !(match me with | some c => oldestHold s c | none => false)
  | none => false

/-- Clutches in `waitaddr` on a word of the line read it again (12 R446). -/
def rereads (s : State) (line : Nat) : List Instr :=
  ((tsome s.clutches).filter (fun p => match p.2.wait with
    | some w => w.kind == .waitaddr && decide (p.2.waitArg = line)
    | none => false)).map (fun p => Instr.waitaddrReread p.1)

/-- A request to write takes the token of a watch; its sync engine asks again, and each waiter reads again (06 R231). -/
def unwatch (s : State) (line : Nat) : State :=
  if (tokAt s line).watch then
    { setTok s line { tokAt s line with watch := false } with agenda := rereads s line ++ s.agenda }
  else s

/-- The line is of a column bank whose slice cannot take it now. -/
def noRoom (s : State) (line : Nat) : Bool :=
  match paKind s (128 * line) with
  | .bank c _ => sliceFull s c line
  | _ => false

/-- Gather all four tokens at a die at once (06 R229, R230); `none` while a hold-mode attempt keeps one, another die's request is active,
or the home slice cannot take the line. -/
def gatherAll (s : State) (die line : Nat) (me : Option Nat) : Option State :=
  if (holders s line me).isEmpty && !claimed s line die me && !noRoom s line then
    let s := unwatch (recallHost s line) line
    let s := setTok s line { tokAt s line with held := [(die, 4)], owner := some die }
    some { s with msgs := s.msgs.filter (fun m => m.line ≠ line) }
  else none

/-- Tokens of a line at a die that its agents may give up: those beyond the ones that hold-mode attempts keep (07 R276). -/
def spare (s : State) (line die : Nat) : Nat :=
  tget 0 (tokAt s line).held die - ((holders s line none).filter (fun c => decide (dieOf (colOf (clutchAt s c).core) = die))).length

/-- 1 for the die whose sync engine watches the line for a clutch in `waitaddr` (06 R231). -/
def watched (s : State) (line die : Nat) : Nat :=
  if (tokAt s line).watch && decide (homeTower s (128 * line) = die) && !(rereads s line).isEmpty then 1 else 0

/-- A watch is over once its die has no token left to give. -/
def watchEnd (s : State) (line src : Nat) : State :=
  if homeTower s (128 * line) = src ∧ spare s line src = 0 then unwatch s line else s

/-- Move tokens of a line from one die to another, with the owner flag when asked. -/
def moveTok (s : State) (line src dst n : Nat) (flag : Bool) : State :=
  let t := tokAt s line
  let h := tput 0 t.held src (tget 0 t.held src - n)
  watchEnd (setTok s line { t with held := tput 0 h dst (tget 0 h dst + n), owner := if flag then some dst else t.owner }) line src

/-- The dies' spare tokens of a line come to a die: the end of its persistent request (06 R230). -/
def takeSpare (s : State) (line die : Nat) : List Nat → State
  | [] => s
  | d :: t =>
    let n := spare s line d
    takeSpare (if d = die ∨ n = 0 then s
      else moveTok s line d die n (decide ((tokAt s line).owner = some d) && decide (n = tget 0 (tokAt s line).held d))) line die t

/-- A die obtains a token of a line, from the holder of the owner flag, which leaves a watch its token (06 R231), else by a persistent
request (06 R229, R230); `none` while tokens travel, are kept, or go to another die. -/
def fetchTok (s : State) (die line : Nat) (me : Option Nat) : Option State :=
  if claimed s line die me then none
  else
    let s := recallHost s line
    match (tokAt s line).owner with
    | none => none
    | some d =>
      let n := spare s line d - watched s line d
      if 2 ≤ tget 0 (tokAt s line).held d - watched s line d ∧ 1 ≤ n then some (moveTok s line d die 1 false)
      else if n = 1 then some (moveTok s line d die 1 true)
      else
        let t := takeSpare s line die [0, 1, 2, 3]
        if 1 ≤ spare t line die then some t else none

/-- A read at a die takes place while its catalogue holds a token (06 R228), which the host's copy gives way to (03 R92). -/
def gatherOne (s : State) (die line : Nat) : Option State :=
  if 1 ≤ tget 0 (tokAt s line).held die then some (recallHost s line) else fetchTok s die line none

/-- One token at a die that no hold-mode attempt keeps yet, for the attempt or commit of clutch `me` (07 R276). -/
def gatherSpare (s : State) (die line me : Nat) : Option State :=
  if 1 ≤ spare s line die then some (recallHost s line) else fetchTok s die line (some me)

/-! ### Transient requests (06 R229, R230, 01 R39) -/

/-- Send tokens of a line from a die, with the flag when asked. Tokens on TOK go to an agent of another die: the host gives its copy up
first (03 R92). -/
def sendTok (s : State) (wb : Bool) (line src dst n : Nat) (flag : Bool) : State :=
  let s := if wb then s else recallHost s line
  let t := tokAt s line
  let s := setTok s line { t with held := tput 0 t.held src (tget 0 t.held src - n), owner := if flag then none else t.owner }
  watchEnd { s with msgs := s.msgs ++ [{ src := src, dst := dst, wb := wb, line := line, n := n, owner := flag }] } line src

/-- The answer of one holder to a transient request (06 R229); a read leaves a watch its token (R231). -/
def answerTransient (line dst : Nat) (write : Bool) (s : State) (src : Nat) : State :=
  let k := spare s line src - (if write then 0 else watched s line src)
  let own : Bool := (tokAt s line).owner = some src
  let all : Bool := k = tget 0 (tokAt s line).held src
  if k = 0 ∨ src = dst then s
  else if write then sendTok s false line src dst k (own && all)
  else if !own then s
  else sendTok s false line src dst 1 (decide (tget 0 (tokAt s line).held src - watched s line src = 1))

def answerAll (s : State) (line dst : Nat) (write : Bool) : State := [0, 1, 2, 3].foldl (answerTransient line dst write) s

/-- A die holds the tokens that a request needs. -/
def satisfied (s : State) (line die : Nat) (write : Bool) : Bool :=
  decide ((if write then 4 else 1) ≤ tget 0 (tokAt s line).held die)

/-- Outstanding requests of a die, transient and persistent. -/
def requestsOf (s : State) (die : Nat) : Nat :=
  ((tsome s.toks).map (fun p => (p.2.reqs.filter (fun r => decide (r.die = die))).length +
    (p.2.queue.filter (fun q => decide (q.2 % 4 = die))).length +
    (match p.2.active with | some q => if q % 4 = die then 1 else 0 | none => 0))).foldl (· + ·) 0

/-- A die sends a transient request, at most one for a line and 256 in all (06 R230), and the holders answer. -/
def transientRequest (s : State) (die line : Nat) (write : Bool) : State :=
  let t := tokAt s line
  if satisfied s line die write || t.reqs.any (fun r => decide (r.die = die)) ||
      t.queue.any (fun q => decide (q.2 % 4 = die)) || (t.active.any (fun q => decide (q % 4 = die))) ||
      decide (256 ≤ requestsOf s die) then s
  else answerAll (setTok s line { t with reqs := t.reqs ++ [{ die := die, write := write, sent := s.tsc.toNat, fails := 0 }] }) line die write

/-- While a request is active, tokens that reach another die, or that a hold-mode attempt there no longer keeps, go on to the requester
(06 R230, 07 R276). The active request is numbered die + 4 for a write. -/
def forwardActive (s : State) (line die : Nat) : State :=
  match (tokAt s line).active with
  | none => s
  | some q =>
    let k := spare s line die
    if q % 4 = die ∨ k = 0 then s
    else sendTok s false line die (q % 4) k (decide ((tokAt s line).owner = some die) && decide (k = tget 0 (tokAt s line).held die))

def forwardLines (s : State) (die : Nat) (ls : List Nat) : State := ls.foldl (fun s l => forwardActive s l die) s

/-! ### L1s and column write queues -/

def l1At (s : State) (i line : Nat) : Option L1Line := tget none (tget [] s.l1 i) line

def setL1 (s : State) (i line : Nat) (x : Option L1Line) : State :=
  { s with l1 := tput [] s.l1 i (tput none (tget [] s.l1 i) line x) }

def L1Line.empty : L1Line := { data := 0, valid := 0, dirty := 0, poison := false, ver := none, born := 0 }

/-- Lines that an L1 holds: 256 KiB (06 R221). -/
def l1Cap : Nat := 2048

/-- A store of one byte into an L1: the line is allocated without reading memory (06 R221). -/
def l1StoreByte (s : State) (i pa : Nat) (b : Byte) : State :=
  let l := (l1At s i (pa / 128)).getD L1Line.empty
  setL1 s i (pa / 128) (some { l with
    data := lineSet l.data (pa % 128) b
    dirty := bit128 l.dirty (pa % 128)
    born := if l.dirty = 0 then s.tsc.toNat else l.born })

def l1Store (s : State) (i pa : Nat) : List Byte → State
  | [] => s
  | b :: t => l1Store (l1StoreByte s i pa b) i (pa + 1) t

/-- Remove the first entry of a line from a queue. -/
def cwqTake (line : Nat) : List CwqEntry → Option (CwqEntry × List CwqEntry)
  | [] => none
  | e :: t => if e.line = line then some (e, t) else (cwqTake line t).map (fun p => (p.1, e :: p.2))

/-- The oldest entry of a line drains: ownership is obtained and its bytes are performed in the slice (06 R222). -/
def drainHead (s : State) (col line : Nat) : Option State :=
  match cwqTake line (colAt s col).cwq with
  | none => some s
  | some (e, rest) =>
    match gatherAll s (dieOf col) line none with
    | none => none
    | some s =>
      let s := performLine (modCol s col (fun k => { k with cwq := rest })) line e.data e.mask e.poison
      some (sliceTouch s col line)

def drainHeads (s : State) (line : Nat) : List Nat → Option State
  | [] => some s
  | c :: t => match drainHead s c line with
    | none => none
    | some s => drainHeads s line t

/-- Columns of a die. -/
def dieCols (d : Nat) : List Nat := (List.range 16).map (fun k => 16 * d + k)

/-- A pair joins a list in the order of its first part. -/
def insFst (a : Nat × Nat) : List (Nat × Nat) → List (Nat × Nat)
  | [] => [a]
  | b :: t => if a.1 < b.1 then a :: b :: t else b :: insFst a t

/-- The accepted entries of a line in a die, in the die's order of writes to it: place and column (07 R261). -/
def acceptedOf (s : State) (die line : Nat) : List (Nat × Nat) :=
  ((dieCols die).flatMap (fun c => (colAt s c).cwq.filterMap (fun e =>
    if e.line = line then e.accepted.map (fun n => (n, c)) else none))).foldl (fun l a => insFst a l) []

/-- The oldest entry of a line in a column drains, after the writes to the line that its die has accepted before it (07 R261). -/
def drainLine (s : State) (col line : Nat) : Option State :=
  match cwqTake line (colAt s col).cwq with
  | none => some s
  | some (e, _) =>
    let before := (acceptedOf s (dieOf col) line).filter (fun a => match e.accepted with | some n => decide (a.1 < n) | none => true)
    match drainHeads s line (before.map (·.2)) with
    | none => none
    | some s => drainHead s col line

/-- Drain the entries of the listed lines, one entry for each listing. -/
def drainLines (s : State) (col : Nat) : List Nat → Option State
  | [] => some s
  | l :: t => match drainLine s col l with
    | none => none
    | some s => drainLines s col t

/-- Merge a write into an entry that is not being drained, or append it (06 R222). -/
def cwqMerge (line : Nat) (data : BitVec 1024) (mask : BitVec 128) (poison : Bool) : List CwqEntry → List CwqEntry
  | [] => [{ line := line, data := data, mask := mask, accepted := none, poison := poison }]
  | e :: t =>
    if e.line = line ∧ e.accepted = none then
      { e with data := lineMerge e.data data mask, mask := e.mask ||| mask, poison := e.poison || poison } :: t
    else e :: cwqMerge line data mask poison t

/-- Put dirty bytes into the column write queue; a full queue drains its oldest entry first (06 R222). -/
def cwqPush (s : State) (col line : Nat) (data : BitVec 1024) (mask : BitVec 128) (poison : Bool) : Option State :=
  let full := 256 ≤ (colAt s col).cwq.length
  match (if full then (match (colAt s col).cwq with | [] => some s | e :: _ => drainLine s col e.line) else some s) with
  | none => none
  | some s => some (modCol s col (fun k => { k with cwq := cwqMerge line data mask poison k.cwq }))

/-- Write back the dirty bytes of an L1 line; the line stays, clean (06 R221). -/
def wbLine (s : State) (i line : Nat) : Option State :=
  match l1At s i line with
  | none => some s
  | some l =>
    if l.dirty = 0 then some s
    else match cwqPush s (colOf i) line l.data l.dirty l.poison with
      | none => none
      | some s =>
        let whole : Bool := l.dirty = BitVec.allOnes 128
        some (setL1 s i line (some { l with valid := l.valid ||| l.dirty, dirty := 0, poison := l.poison && !whole }))

/-- Write back and drop a line (06 R221). -/
def evictLine (s : State) (i line : Nat) : Option State :=
  match wbLine s i line with
  | none => none
  | some s => some (setL1 s i line none)

/-- Room for a line in an L1: a full L1 evicts a line of its choice (06 R221, R227; log 89), but none of those to keep; `none` while no
line can leave. -/
def l1Room (s : State) (i : Nat) (keep : List Nat) (line : Nat) : Option State :=
  let k := tget [] s.l1 i
  if (tget none k line).isSome || decide (k.length < l1Cap) then some s
  else
    let t := { s with fresh := s.fresh + 1 }
    let out := k.filterMap (fun q => if keep.contains q.1 then none else evictLine t i q.1)
    listGet out (Config.freeNat s.fresh % out.length)

/-- An L1 allocates a line, with no byte of it (06 R221). -/
def l1Alloc (i : Nat) (keep : List Nat) (s : State) (line : Nat) : Option State :=
  (l1Room s i keep line).map (fun s => if (l1At s i line).isSome then s else setL1 s i line (some L1Line.empty))

/-- An L1 allocates lines in order. -/
def l1Allocs (i : Nat) (keep : List Nat) (s : State) : List Nat → Option State
  | [] => some s
  | l :: t => match l1Alloc i keep s l with
    | none => none
    | some s => l1Allocs i keep s t

/-- Room for the lines of chunks in an L1. -/
def l1Fit (s : State) (i : Nat) (chunks : List (Nat × Nat)) : Option State :=
  let ls := chunks.flatMap (fun c => [c.1 / 128, (c.1 + c.2 - 1) / 128])
  l1Allocs i ls s ls

/-- The lines an L1 holds. -/
def l1Lines (s : State) (i : Nat) : List Nat := (tsome (tget [] s.l1 i)).map (·.1)

def wbLines (s : State) (i : Nat) : List Nat → Option State
  | [] => some s
  | l :: t => match wbLine s i l with
    | none => none
    | some s => wbLines s i t

def evictLines (s : State) (i : Nat) : List Nat → Option State
  | [] => some s
  | l :: t => match evictLine s i l with
    | none => none
    | some s => evictLines s i t

/-! ### Release and acquire (07 R261) -/

/-- The next place in a die's order of accepted writes. -/
def nextPlace (s : State) (die : Nat) : Nat :=
  (dieCols die).foldl (fun m c => (colAt s c).cwq.foldl (fun m e => match e.accepted with | some n => max m (n + 1) | none => m) m) 0

/-- Entries that their die accepts, in order, from a place on. -/
def acceptFrom (n : Nat) : List CwqEntry → List CwqEntry
  | [] => []
  | e :: t => if e.accepted = none then { e with accepted := some n } :: acceptFrom (n + 1) t else e :: acceptFrom n t

/-- The die's catalogue accepts every entry of a column's queue (07 R261). -/
def acceptCol (s : State) (col : Nat) : State :=
  modCol s col (fun k => { k with cwq := acceptFrom (nextPlace s (dieOf col)) k.cwq })

/-- Perform every accepted entry of columns (07 R261, package scope). -/
def drainCols (s : State) : List Nat → Option State
  | [] => some s
  | c :: t => match drainLines s c (((colAt s c).cwq.filter (·.accepted.isSome)).map (·.line)) with
    | none => none
    | some s => drainCols s t

/-- A release at a scope by an agent of core i (07 R261): at package scope every entry that its die has accepted is performed,
also those of columns that the clutch has left (05 R192); `none` while an accepted write cannot be performed. -/
def releaseOp (s : State) (i : Nat) (sc : Scope) : Option State :=
  if scopeRank sc < 2 then some s
  else match wbLines s i (l1Lines s i) with
    | none => none
    | some s =>
      if scopeRank sc < 3 then some s
      else
        let s := acceptCol s (colOf i)
        if scopeRank sc < 4 then some s else drainCols s (dieCols (dieOf (colOf i)))

/-- Invalidate every clean byte of an L1 (07 R261). -/
def l1Clean (s : State) (i : Nat) : State :=
  { s with l1 := tput [] s.l1 i ((tget [] s.l1 i).filterMap (fun p =>
      match p.2 with
      | some l => if l.dirty = 0 then none else some (p.1, some { l with valid := 0, ver := none })
      | none => none)) }

/-- The invalidation that ends an acquire at a scope. -/
def acquireOp (s : State) (i : Nat) (sc : Scope) : State := if scopeRank sc < 2 then s else l1Clean s i

/-- Perform every accepted entry of a line in a die, in the die's order (07 R262). -/
def drainAccepted (s : State) (die line : Nat) : Option State := drainHeads s line ((acceptedOf s die line).map (·.2))

/-- A read at a die's slice or sync engine (06 R228, 07 R262): accepted writes to the line are performed, the die holds a token, and a
column-bank line comes from the array where its slice misses; `none` while one of these waits. -/
def readAt (s : State) (die line : Nat) : Option State :=
  match drainAccepted s die line with
  | none => none
  | some s =>
    if bankHeld s line then none
    else (gatherOne s die line).map (fun s => bankFetch s line)

/-- A read of the line at a die would find it there as it is: no accepted write waits, the die holds a token, the host has no copy, and
the slice of a column-bank line holds all of it. -/
def lineReady (s : State) (die line : Nat) : Bool :=
  (acceptedOf s die line).isEmpty && decide (1 ≤ tget 0 (tokAt s line).held die) && !s.hostHas.contains line &&
  (match paKind s (128 * line) with
   | .bank c _ => ((sliceAt s c line).getD SliceLine.empty).full
   | _ => true)

def readsAt (s : State) (die : Nat) : List Nat → Option State
  | [] => some s
  | l :: t => match readAt s die l with
    | none => none
    | some s => readsAt s die t

/-- Read the lines of bytes at their homes (07 R262); none while one waits. -/
def homeReads (s : State) : List Nat → Option State
  | [] => some s
  | pa :: t => match readAt s (homeTower s pa) (pa / 128) with
    | none => none
    | some s => homeReads s t

/-- A byte of a queued write to the line is poisoned (06 R225). -/
def cwqPoison (s : State) (col line : Nat) : Bool := (colAt s col).cwq.any (fun e => decide (e.line = line) && e.poison)

/-- Bytes of a line as core i's column sees them: queued bytes over performed ones (06 R222). -/
def columnLine (s : State) (col line : Nat) : BitVec 1024 :=
  ((colAt s col).cwq.filter (fun e => decide (e.line = line))).foldl (fun d e => lineMerge d e.data e.mask) (perfLine s line)

/-- Put a weight line into an L1 that has room and its column's slice, at the current version (06 R238, R239). -/
def weightPut (s : State) (i line : Nat) (data : BitVec 1024) (poison : Bool) : State :=
  let v := some (verOf s (weightExt line))
  let s := sliceEnter s (colOf i) line { SliceLine.empty with ver := v, data := data, poison := poison }
  setL1 s i line (some { L1Line.empty with data := data, valid := BitVec.allOnes 128, poison := poison, ver := v })

/-- Fill a weight line: from the slice, else from the reading room, whose unit becomes the most recent. -/
def weightFill (s : State) (i line : Nat) : State :=
  match weightSlice s i line with
  | some l => weightPut s i line l.data l.poison
  | none =>
    let u := (weightUnit line, verOf s (weightExt line))
    let s := if s.weights.room.contains u then { s with weights := { s.weights with room := u :: s.weights.room.erase u } } else s
    weightPut s i line (perfLine s line) false

/-- Is the line in the weight aperture? -/
def isWeight (s : State) (line : Nat) : Bool :=
  match paKind s (128 * line) with | .weight _ => true | _ => false

/-- Fill a line of an L1 from below, keeping dirty bytes (06 R221, R222; 07 R262). -/
def cacheFillOp (s : State) (i line : Nat) : Option State :=
  match l1Room s i [line] line with
  | none => none
  | some s =>
  if isWeight s line then some (weightFill s i line) else
  let col := colOf i
  match readAt s (dieOf col) line with
  | none => none
  | some s =>
    let s := sliceTouch s col line
    let p := linePoison s line || cwqPoison s col line
    let below := columnLine s col line
    let l := (l1At s i line).getD L1Line.empty
    some (setL1 s i line (some { l with
      data := lineMerge below l.data l.dirty, valid := BitVec.allOnes 128, poison := p || l.poison }))

/-- The bytes [pa, pa + n) are in the L1 (all of one line). -/
def l1Has (s : State) (i pa n : Nat) : Bool :=
  match l1At s i (pa / 128) with
  | none => false
  | some l => (!isWeight s (pa / 128) || (weightL1 s i (pa / 128)).isSome) &&
      (List.range n).all (fun k => (l.valid ||| l.dirty).getLsbD ((pa + k) % 128))

/-- Split [pa, pa + n) at line boundaries. -/
def splitLines (pa n : Nat) : List (Nat × Nat) :=
  if n = 0 then [] else
  let a := natMin n (128 - pa % 128)
  if a = n then [(pa, n)] else [(pa, a), (pa + a, n - a)]

/-- Read the bytes of one line's part through the L1, filling it on a miss. -/
def l1Read (s : State) (i pa n : Nat) : Option (State × List Byte) :=
  let s? := if l1Has s i pa n then some s else cacheFillOp s i (pa / 128)
  match s? with
  | none => none
  | some s => some (s, (List.range n).map (fun k => lineByte ((l1At s i (pa / 128)).getD L1Line.empty).data ((pa + k) % 128)))

def l1ReadParts (s : State) (i : Nat) : List (Nat × Nat) → Option (State × List Byte)
  | [] => some (s, [])
  | (pa, n) :: t => match l1Read s i pa n with
    | none => none
    | some (s, b) => match l1ReadParts s i t with
      | none => none
      | some (s, r) => some (s, b ++ r)

/-- Read chunks of physical bytes through an L1. -/
def readChunks (s : State) (i : Nat) (chunks : List (Nat × Nat)) : Option (State × List Byte) :=
  l1ReadParts s i (chunks.flatMap (fun c => splitLines c.1 c.2))

/-- An acquiring read at column scope or wider (07 R261): dirty bytes of the line go to the queue; at die scope or wider
the queue's entries of the line are performed first; the read then takes the queue and the slice. -/
def acquireRead (s : State) (i : Nat) (sc : Scope) (pa n : Nat) : Option (State × List Byte) :=
  let line := pa / 128
  match wbLine s i line with
  | none => none
  | some s =>
    let col := colOf i
    let s? := if scopeRank sc < 3 then some s
      else drainLines s col (((colAt s col).cwq.filter (fun e => decide (e.line = line))).map (·.line))
    match s? with
    | none => none
    | some s => match readAt s (dieOf col) line with
      | none => none
      | some s =>
        let s := sliceTouch s col line
        let d := columnLine s col line
        some (s, (List.range n).map (fun k => lineByte d ((pa + k) % 128)))

def acquireParts (s : State) (i : Nat) (sc : Scope) : List (Nat × Nat) → Option (State × List Byte)
  | [] => some (s, [])
  | (pa, n) :: t => match acquireRead s i sc pa n with
    | none => none
    | some (s, b) => match acquireParts s i sc t with
      | none => none
      | some (s, r) => some (s, b ++ r)

/-- Read with an optional acquire: clutch and core scope read through the L1. -/
def readOrd (s : State) (i : Nat) (acq : Option Scope) (chunks : List (Nat × Nat)) : Option (State × List Byte) :=
  match acq with
  | none => readChunks s i chunks
  | some sc =>
    if scopeRank sc < 2 then readChunks s i chunks
    else acquireParts s i sc (chunks.flatMap (fun c => splitLines c.1 c.2))

/-- Store bytes at chunks through an L1 that has room for their lines. -/
def storeChunks (s : State) (i : Nat) : List (Nat × Nat) → List Byte → State
  | [], _ => s
  | (pa, n) :: t, bs => storeChunks (l1Store s i pa (bs.take n)) i t (bs.drop n)

/-- Store bytes at chunks through an L1, which makes room for their lines (06 R221); `none` while it has none. -/
def storeL1 (s : State) (i : Nat) (chunks : List (Nat × Nat)) (bs : List Byte) : Option State :=
  (l1Fit s i chunks).map (fun s => storeChunks s i chunks bs)

/-- A releasing store enters the column write queue past the L1 (07 R261). -/
def storeQueue (s : State) (i pa : Nat) : List Byte → Option State
  | [] => some s
  | b :: t =>
    match evictLine s i (pa / 128) with
    | none => none
    | some s => match cwqPush s (colOf i) (pa / 128) (lineSet 0 (pa % 128) b) (bit128 0 (pa % 128)) false with
      | none => none
      | some s => storeQueue s i (pa + 1) t

/-- Before an atomic on a line: the core drops it, its column's queue drains its entries (07 R265), and the writes that its die has accepted
to the line are performed (R262). -/
def atomicPrep (s : State) (i line : Nat) : Option State :=
  match evictLine s i line with
  | none => none
  | some s => match drainLines s (colOf i) (((colAt s (colOf i)).cwq.filter (fun e => decide (e.line = line))).map (·.line)) with
    | none => none
    | some s => drainAccepted s (dieOf (colOf i)) line

/-- Write n bytes at a physical address with all tokens at a die: an engine, the sync engine or the host (07 R250). -/
def performAt (s : State) (die pa : Nat) (bs : List Byte) : Option State :=
  match gatherAll s die (pa / 128) none with
  | none => none
  | some s => match (if (pa + bs.length - 1) / 128 = pa / 128 then some s else gatherAll s die ((pa + bs.length - 1) / 128) none) with
    | none => none
    | some s => some (performBytes s pa bs)

end Sys2Proof.Machine
end

