-- ==== Sys2Proof/Machine/Xlat.lean ====
section
/-! DEFINITION. Windows (06 R200 to R203), page-table walks (R204 to R207), TLBs (R209), extent tables (R211 to R213), and the
checks that each lane of an access makes in order (R214). -/

namespace Sys2Proof.Machine

/-- Trap causes (12 R455). -/
def cIllegal : Nat := 0x01
def cPairing : Nat := 0x02
def cPrivilege : Nat := 0x03
def cMisalign : Nat := 0x04
def cBounds : Nat := 0x05
def cWindow : Nat := 0x06
def cPage : Nat := 0x07
def cProtection : Nat := 0x08
def cFormatDiv : Nat := 0x09
def cJobCombo : Nat := 0x0A
def cStack : Nat := 0x0B
def cHazard : Nat := 0x0C
def cBreak : Nat := 0x0D
def cSyscall : Nat := 0x0E
def cFifo : Nat := 0x0F
def cLeap : Nat := 0x10
def cPoison : Nat := 0x11
def cAsync : Nat := 0x12

/-- Kinds of access (06 R207). -/
inductive AccKind where
  | load | store | atomic | fetch
  deriving DecidableEq, Repr

/-- The windows of the generic address space (06 R200). -/
inductive Window where
  | global | weight | colBank | scratch | hole
  deriving DecidableEq, Repr

def scratchBase : Nat := 0xFFFF0000000000
def colBankBase : Nat := 0xFE000000000000
def weightVa : Nat := 0x80000000000000

def windowOf (va : Nat) : Window :=
  if va < weightVa then .global
  else if va < weightVa + 0x100000000000 then .weight
  else if colBankBase ≤ va ∧ va < colBankBase + 0x100000000 then .colBank
  else if scratchBase ≤ va ∧ va < scratchBase + 0x200000 then .scratch
  else .hole

/-! ### Walks -/

/-- The result of a walk: a fault, or a page's frame, size and leaf bits [8:2] (R, W, X, U, PLACE, I); `wait` while its entries have not
been read. -/
inductive WalkRes where
  | page
  | protection
  | wait
  | ok (frame size perm : Nat)
  deriving DecidableEq, Repr

/-- [pa, pa + n) lies wholly in the pool of a PLACE (01 R20). -/
def inPool (s : State) (place pa n : Nat) : Bool :=
  let p := 12 * s.pkg.hbmP.toNat * gib
  let w := 12 * (s.pkg.hbmP.toNat + s.pkg.hbmW.toNat) * gib
  match place with
  | 0 => pa + n ≤ p
  | 1 => p ≤ pa && pa + n ≤ w
  | 2 => w ≤ pa && pa + n ≤ hbmTop
  | _ => false

/-- Some part of [pa, pa + n) lies in a hole (01 R17). -/
def meetsHole (s : State) (pa n : Nat) : Bool := paKind s pa = .hole || paKind s (pa + n - 1) = .hole

/-- A leaf is malformed (06 R206); `weight` for a weight-window address. -/
def badLeaf (s : State) (weight : Bool) (e frame size : Nat) : Bool :=
  let place := bits e 6 2
  let inWeight := weightBase ≤ frame && frame + size ≤ weightBase + 16384 * gib
  bits e 9 3 ≠ 0 || bits e 56 4 ≠ 0 || place = 3 || frame % size ≠ 0 ||
  (weight && (!inWeight || bits e 3 1 = 1 || place ≠ 0)) ||
  (!weight && ((weightBase ≤ frame && frame < weightBase + 16384 * gib) || bits e 8 1 = 1)) ||
  (if frame < hbmTop then !inPool s place frame size else place ≠ 0) ||
  meetsReserved s frame size

/-- A table entry is malformed (06 R206). -/
def badTable (s : State) (e next size : Nat) : Bool :=
  bits e 9 3 ≠ 0 || bits e 56 4 ≠ 0 || bits e 2 7 ≠ 0 || next % size ≠ 0 || meetsHole s next size

/-- Walk the levels that remain, outermost first: (low bit of the index, its width, size of the next table). -/
def walkFrom (s : State) (va table : Nat) : List (Nat × Nat × Nat) → WalkRes
  | [] => .protection
  | (lo, w, nextSize) :: rest =>
    let e := perfNat s (table + 8 * bits va lo w) 8
    let addr := bits e 12 44 * 256
    let weight := windowOf va = .weight
    if bits e 0 1 = 0 then .page
    else if bits e 1 1 = 1 then
      if 30 < lo then .protection
      else if badLeaf s weight e addr (2 ^ lo) then .protection
      else if meetsHole s addr (2 ^ lo) then .protection
      else .ok addr (2 ^ lo) (bits e 2 7)
    else if lo = 16 then .protection
    else if badTable s e addr nextSize then .protection
    else walkFrom s va addr rest

/-- The levels: the low bit of each index, its width, and the size of the next table (06 R204). -/
def walkLevels : List (Nat × Nat × Nat) := [(48, 8, 4096), (39, 9, 4096), (30, 9, 4096), (21, 9, 256), (16, 5, 0)]

/-- The five-level table (06 R204). -/
def walk (s : State) (ctx va : Nat) : WalkRes :=
  if (ctxAt s ctx).bad then .protection
  else walkFrom s va (ctxAt s ctx).root.toNat walkLevels

/-- Lines of the table entries that a walk reads, outermost first (06 R204). -/
def walkLinesFrom (s : State) (va table : Nat) : List (Nat × Nat × Nat) → List Nat
  | [] => []
  | (lo, w, nextSize) :: rest =>
    let pa := table + 8 * bits va lo w
    let e := perfNat s pa 8
    let addr := bits e 12 44 * 256
    pa / 128 :: (if bits e 0 1 = 0 ∨ bits e 1 1 = 1 ∨ badTable s e addr nextSize = true then [] else walkLinesFrom s va addr rest)

def walkLines (s : State) (ctx va : Nat) : List Nat :=
  if (ctxAt s ctx).bad then [] else walkLinesFrom s va (ctxAt s ctx).root.toNat walkLevels

/-- The entries that a walk of a die's unit reads are there (06 R208, R228, 01 R32). -/
def walkReady (s : State) (die ctx va : Nat) : Bool := (walkLines s ctx va).all (lineReady s die)

/-- A cached translation of a TLB. -/
def tlbIn (s : State) (tlb ctx va : Nat) : Option TlbEntry :=
  s.tlb.find? (fun e => e.tlb = tlb && e.ctx = ctx && e.va = va / e.size * e.size)

/-- A cached translation: of the core's L1 TLB, and of the column TLB where that misses (06 R209). -/
def tlbFind (s : State) (core ctx va : Nat) : Option TlbEntry :=
  match tlbIn s core ctx va with
  | some e => some e
  | none => tlbIn s (320 + colOf core) ctx va

/-- A walk enters the L1 TLB of the core and the TLB of its column; a full TLB drops its oldest entry (06 R209). -/
def tlbInsert (s : State) (core : Nat) (e : Nat → TlbEntry) : State :=
  let col := 320 + colOf core
  let put := fun (l : List TlbEntry) (t cap : Nat) =>
    e t :: ((l.filter (fun x => decide (x.tlb = t) && decide (x ≠ e t))).take (cap - 1) ++ l.filter (fun x => decide (x.tlb ≠ t)))
  { s with tlb := put (put s.tlb col 4096) core 128 }

/-- A walk of the unit of the core's die: its entries are read there (01 R32, 06 R208, R228), and a valid translation is kept; an invalid
entry never is. Reads that must wait for a column bank join its held requests. -/
def pageWalk (s : State) (core ctx va : Nat) : State :=
  match readsAt s (dieOf (colOf core)) (walkLines s ctx va) with
  | none => holdReads s (walkLines s ctx va)
  | some s => match walk s ctx va with
    | .ok f sz p => tlbInsert s core (fun t =>
        { tlb := t, ctx := ctx, va := va / sz * sz, size := sz, frame := f, perm := BitVec.ofNat 8 p })
    | _ => s

/-- Translation by TLB or walk, without a check of permissions; an access waits for the entries of its walk. Every access that misses
meets the walk's fault (06 R210). -/
def lookup (s : State) (core ctx va : Nat) : WalkRes :=
  match tlbFind s core ctx va with
  | some e => .ok e.frame e.size e.perm.toNat
  | none => if walkReady s (dieOf (colOf core)) ctx va then walk s ctx va else .wait

/-- The permissions of a leaf allow the access (06 R207). -/
def permits (perm : Nat) (acc : AccKind) (user : Bool) : Bool :=
  (match acc with
   | .load => bits perm 0 1 = 1
   | .store => bits perm 1 1 = 1
   | .atomic => bits perm 1 1 = 1
   | .fetch => bits perm 2 1 = 1) && (!user || bits perm 3 1 = 1)

/-- A promotion holds the range back (06 R220, step 1). -/
def promoHolds (s : State) (ctx va : Nat) : Bool :=
  (List.range 4).any (fun d => promoRuns s d && (promoAt s d).runCtx = ctx && (promoAt s d).runVa = va / 0x200000)

/-- Why an address does not translate. -/
inductive XErr where
  | trap (cause : Nat)
  | wait
  deriving DecidableEq, Repr

/-- Translate one address by tables: the physical address. -/
def xlTable (s : State) (core ctx : Nat) (user : Bool) (va : Nat) (acc : AccKind) : Except XErr Nat :=
  if promoHolds s ctx va then .error .wait
  else match lookup s core ctx va with
    | .page => .error (.trap cPage)
    | .protection => .error (.trap cProtection)
    | .wait => .error .wait
    | .ok f sz p => if permits p acc user then .ok (f + va % sz) else .error (.trap cProtection)

/-! ### Extent tables (06 R211 to R213) -/

def extLo (e : Extent) : Nat := e.vbase.toNat * 65536
def extLen (e : Extent) : Nat := e.pages.toNat * 65536

/-- The global or weight extent that an access hits. -/
def extHit (t : Task) (va n : Nat) : Option Extent :=
  ((List.range 16).map (tget Extent.zero t.extents)).find? (fun e =>
    e.pages ≠ 0 && !e.stale && e.map ≠ 0 && (e.kind = 0 || e.kind = 1) && extLo e ≤ va && va + n ≤ extLo e + extLen e)

/-- The column-bank extent of a task. -/
def colExt (t : Task) : Option Extent :=
  ((List.range 16).map (tget Extent.zero t.extents)).find? (fun e => e.pages ≠ 0 && e.kind = 2)

/-- A declared permission allows the access. -/
def declares (e : Extent) (acc : AccKind) : Bool :=
  match acc with | .load => e.r | .store => e.w | .atomic => e.w | .fetch => false

/-- Physical address of the frame-map entry of an address (06 R212). -/
def frameAt (e : Extent) (va : Nat) : Nat := e.map.toNat + 8 * ((va - extLo e) / 65536)

/-- Physical address through a frame map (06 R212). -/
def frameOf (s : State) (e : Extent) (va : Nat) : Nat := bits (perfNat s (frameAt e va) 8) 0 36 * 65536 + va % 65536

/-- Translate one address of an access of a global or weight window; `hit` is the extent that the whole access hits. -/
def xlOne (s : State) (core ctx : Nat) (user : Bool) (hit : Option Extent) (va : Nat) (acc : AccKind) : Except XErr Nat :=
  match hit with
  | some e =>
    if promoHolds s ctx va then .error .wait
    else if !declares e acc then .error (.trap cProtection)
    else if lineReady s (dieOf (colOf core)) (frameAt e va / 128) then .ok (frameOf s e va) else .error .wait
  | none => xlTable s core ctx user va acc

/-- What an access that waits for a translation has read meanwhile: its entry of the frame map, or its walk (06 R212, R209). -/
def xlTake (s : State) (core ctx : Nat) (hit : Option Extent) (va : Nat) : State :=
  if promoHolds s ctx va then s
  else match hit with
  | some e => (readAt s (dieOf (colOf core)) (frameAt e va / 128)).getD (holdRead s (frameAt e va / 128))
  | none => if (tlbFind s core ctx va).isSome then s else pageWalk s core ctx va

/-- Translate a range of at most 64 KiB: one chunk for each page. PAGE of either page comes before PROTECTION (06 R214). -/
def xlRange (s : State) (core ctx : Nat) (user : Bool) (hit : Option Extent) (va n : Nat) (acc : AccKind) :
    Except XErr (List (Nat × Nat)) :=
  let a := natMin n (65536 - va % 65536)
  if a = n then (xlOne s core ctx user hit va acc).map (fun pa => [(pa, n)])
  else match xlOne s core ctx user hit va acc, xlOne s core ctx user hit (va + a) acc with
    | .ok pa, .ok pb => .ok [(pa, a), (pb, n - a)]
    | .error .wait, _ => .error .wait
    | _, .error .wait => .error .wait
    | .error (.trap k), .error (.trap j) => .error (.trap (if k = cPage ∨ j = cPage then cPage else k))
    | .error e, .ok _ => .error e
    | .ok _, .error e => .error e

/-! ### The checks of an access (06 R214) -/

/-- Where an access goes. -/
inductive Place where
  | scratch (core off : Nat)
  | phys (chunks : List (Nat × Nat))
  | dev (pa : Nat)
  deriving DecidableEq, Repr

/-- Bytes of a task's scratchpad allocation (05 R175). -/
def allocLen (t : Task) : Nat := t.szS + t.szQ + t.szG + t.szJ

/-- The line is poisoned where a miss of core i reads it: in the column's queue or at its home (06 R222, R225). -/
def belowPoison (s : State) (i line : Nat) : Bool := linePoison s line || cwqPoison s (colOf i) line

/-- The chunk list touches a poisoned line as core i reads it (06 R225): through its L1, or past it for an acquiring read at column scope or
wider (07 R261). -/
def chunksPoison (s : State) (i : Nat) (past : Bool) (chunks : List (Nat × Nat)) : Bool :=
  (chunks.flatMap (fun c => splitLines c.1 c.2)).any (fun c =>
    if isWeight s (c.1 / 128) then
      match weightL1 s i (c.1 / 128) with
      | some l => l.poison
      | none => match weightSlice s i (c.1 / 128) with
        | some l => l.poison
        | none => false
    else match l1At s i (c.1 / 128) with
    | some l => l.poison || ((past || !l1Has s i c.1 c.2) && belowPoison s i (c.1 / 128))
    | none => belowPoison s i (c.1 / 128))

/-- An atomic meets a poisoned line: in its core's L1, its column's queue, or at home (06 R225, 10 R366). -/
def atomPoison (s : State) (i : Nat) (chunks : List (Nat × Nat)) : Bool :=
  chunks.any (fun c => belowPoison s i (c.1 / 128) || (match l1At s i (c.1 / 128) with | some l => l.poison | none => false))

/-- An atomic of the bank read-modify-write unit meets a poisoned line: as any atomic, or in the array, once the slice has written it back
(01 R31, R32, 06 R233). -/
def unitPoison (s : State) (i : Nat) (chunks : List (Nat × Nat)) : Bool :=
  atomPoison s i chunks || chunks.any (fun c =>
    match paKind s c.1 with
    | .bank col _ => (bankReadLine (sliceDrop s (c.1 / 128)) col (c.1 / 128) false).2
    | _ => false)

/-- Where an access looks for poison: in its core's L1, past it (an acquiring read at column scope or wider), at the slice (an engine or
a sync engine, 07 R269), or nowhere (it only translates). -/
inductive PView where
  | l1 | past | slice | none
  deriving DecidableEq, Repr

/-- The parameters of an access: who makes it and how. -/
structure Req where
  core   : Nat
  ctx    : Nat
  user   : Bool
  host   : Bool
  landed : Bool
  task   : Option Task
  areg   : Option AReg
  acc    : AccKind
  align  : Nat
  devOk  : Bool
  view   : PView
  deriving DecidableEq, Repr

/-- The chunk list touches a line that is poisoned at its slice. -/
def slicePoison (s : State) (chunks : List (Nat × Nat)) : Bool :=
  (chunks.flatMap (fun c => splitLines c.1 c.2)).any (fun c => linePoison s (c.1 / 128))

/-- Check of a translated access: registers, holes and poison. -/
def checkPhys (s : State) (q : Req) (chunks : List (Nat × Nat)) (n : Nat) : Except XErr Place :=
  match chunks with
  | [] => .error (.trap cProtection)
  | (pa, _) :: _ =>
    if chunks.any (fun c => paKind s c.1 = .hole) then .error (.trap cProtection)
    else if chunks.any (fun c => paKind s c.1 = .regs) then
      if q.devOk && n = 8 && pa % 8 = 0 && chunks.length = 1 then .ok (.dev pa) else .error (.trap cProtection)
    else if (q.acc = .load || q.acc = .atomic) && (match q.view with
        | .l1 => if q.acc = .atomic then atomPoison s q.core chunks else chunksPoison s q.core false chunks
        | .past => chunksPoison s q.core true chunks
        | .slice => slicePoison s chunks
        | .none => false) then .error (.trap cPoison)
    else .ok (.phys chunks)

/-- Every check of R214 for one lane, in its order; LEAP_TARGET of a landed clutch's scratchpad access (05 R194) stands after WINDOW (log
118). -/
def locate (s : State) (q : Req) (ea : Dword) (n : Nat) : Except XErr Place :=
  let va := ea.toNat
  let win := windowOf va
  if win = .hole ∨ windowOf (va + n - 1) ≠ win then .error (.trap cWindow)
  else if q.host ∧ (win = .colBank ∨ win = .scratch) then .error (.trap cWindow)
  else if win = .scratch ∧ q.landed then .error (.trap cLeap)
  else if q.align ≠ 0 ∧ va % q.align ≠ 0 then .error (.trap cMisalign)
  else if (match q.areg with
           | some a => va < a.base.toNat || a.limit.toNat < va + n
           | none => false) then .error (.trap cBounds)
  else if (match win, q.task with
           | .scratch, some t => decide (allocLen t < va - scratchBase + n)
           | .colBank, some t => decide (t.cbLen < va - colBankBase + n)
           | .scratch, none => true
           | .colBank, none => true
           | _, _ => false) then .error (.trap cBounds)
  else if (match q.areg, q.acc with
           | some a, .load => !a.r
           | some a, .store => !a.w
           | some a, .atomic => !a.w
           | _, _ => false) then .error (.trap cProtection)
  else match win, q.task with
    | .scratch, some t => .ok (.scratch t.core (t.spOff + (va - scratchBase)))
    | .colBank, some t =>
      match colExt t with
      | none => .error (.trap cProtection)
      | some e =>
        if declares e q.acc then
          let ch := [(bankBase + colOf t.core * (4 * gib) + t.cbBase + (va - colBankBase), n)]
          if q.acc = .atomic && q.view = .l1 && unitPoison s q.core ch then .error (.trap cPoison) else checkPhys s q ch n
        else .error (.trap cProtection)
    | .weight, _ =>
      if q.acc = .store ∨ q.acc = .atomic then .error (.trap cProtection)
      else match xlRange s q.core q.ctx q.user (q.task.bind (fun t => extHit t va n)) va n q.acc with
        | .error e => .error e
        | .ok ch => checkPhys s q ch n
    | _, _ =>
      match xlRange s q.core q.ctx q.user (q.task.bind (fun t => extHit t va n)) va n q.acc with
      | .error e => .error e
      | .ok ch => checkPhys s q ch n

/-- The entries of walks are read at a die, one walk after another, where they are not there yet; none while one waits. -/
def walksFrom (s : State) (die ctx : Nat) : List Nat → Option State
  | [] => some s
  | va :: t =>
    if walkReady s die ctx va then walksFrom s die ctx t
    else match readsAt s die (walkLines s ctx va) with
    | none => none
    | some s => walksFrom s die ctx t

/-- The entries of walks are at a die, all of them; none while one waits. -/
def walksAt (s : State) (die ctx : Nat) (vas : List Nat) : Option State :=
  (walksFrom s die ctx vas).bind (fun t => if vas.all (walkReady t die ctx) then some t else none)

/-- What an access that waits has read meanwhile, page by page. -/
def accessTake (q : Req) (ea : Dword) (n : Nat) (s : State) : State :=
  let va := ea.toNat
  let a := natMin n (65536 - va % 65536)
  let hit := q.task.bind (fun t => extHit t va n)
  match windowOf va with
  | .global | .weight =>
    let s := xlTake s q.core q.ctx hit va
    if a = n then s else xlTake s q.core q.ctx hit (va + a)
  | _ => s

/-- The translation of an access by an agent other than a clutch is read; none while it waits. -/
def takeAccess (s : State) (q : Req) (va n : Nat) : Option State :=
  let t := accessTake q (BitVec.ofNat 64 va) n s
  match locate t { q with view := .none } (BitVec.ofNat 64 va) n with
  | .error .wait => none
  | _ => some t

/-- The request of a lane of a clutch. -/
def reqOf (s : State) (c : Clutch) (areg : Option AReg) (acc : AccKind) (align : Nat) (devOk : Bool) : Req :=
  { core := c.core, ctx := ctxOf s c, user := userLevel c, host := isHost c, landed := c.pad.isSome,
    task := c.task.bind (taskAt s), areg := areg, acc := acc, align := align, devOk := devOk,
    view := .l1 }

/-! ### Scratchpad bytes (05 R175) -/

def spGet (s : State) (core off : Nat) : Byte := tget 0 s.scratch (0x200000 * core + off)

def spPut (s : State) (core off : Nat) (b : Byte) : State :=
  { s with scratch := tput 0 s.scratch (0x200000 * core + off) b }

def spRead (s : State) (core off n : Nat) : List Byte := (List.range n).map (fun k => spGet s core (off + k))

def spWrite (s : State) (core off : Nat) : List Byte → State
  | [] => s
  | b :: t => spWrite (spPut s core off b) core (off + 1) t

/-! ### Fetch (09 R309) -/

/-- What a fetch gives: a word, a precise trap, or a wait. -/
inductive FetchRes where
  | word (w : BitVec 64)
  | trap (cause : Nat)
  | wait
  deriving DecidableEq, Repr

/-- Fetch at an issue address: global window, X of its page, never registers, then through the instruction cache: a kept
word may still be fetched in place of a rewritten one. -/
def fetchAt (s : State) (c : Clutch) (ia : BitVec 53) : FetchRes × State :=
  let va := ia.toNat * 8
  if windowOf va ≠ .global then (.trap cWindow, s)
  else match xlTable s c.core (ctxOf s c) (userLevel c) va .fetch with
    | .error .wait => (.wait, xlTake s c.core (ctxOf s c) none va)
    | .error (.trap k) => (.trap k, s)
    | .ok pa =>
      match paKind s pa with
      | .regs => (.trap cProtection, s)
      | .hole => (.trap cProtection, s)
      | .weight _ => (.trap cProtection, s)
      | _ =>
        match readAt s (dieOf (colOf c.core)) (pa / 128) with
        | none => (.wait, holdRead s (pa / 128))
        | some s =>
          if linePoison s (pa / 128) then (.trap cPoison, s) else
          let new : Dword := BitVec.ofNat 64 (perfNat s pa 8)
          let kept := tget none (tget [] s.icache c.core) (pa / 8)
          match kept with
          | none =>
            (.word new, { s with icache := tput [] s.icache c.core (tput none (tget [] s.icache c.core) (pa / 8) (some new)) })
          | some old =>
            if old = new then (.word new, s)
            else if Config.freeBool s.fresh then (.word old, { s with fresh := s.fresh + 1 })
            else (.word new, { s with
              fresh := s.fresh + 1
              icache := tput [] s.icache c.core (tput none (tget [] s.icache c.core) (pa / 8) (some new)) })

end Sys2Proof.Machine
end

