-- ==== Sys2Proof/Machine/Ops.lean ====
section
/-! DEFINITION. Registers through the window (05 R166), pending results (R173), issue (R158 to R160), region aborts (10 R379),
taking an exception and returning from it (12 R455 to R459), faults that go to the pager (06 R215), and the frame that
every instruction word runs in (09 R326). -/

namespace Sys2Proof.Machine

/-! ### Registers -/

/-- Stack word that vj names, j ≥ 16 (05 R166). -/
def stackWord (l : Lane) (j : Nat) : Nat := 8 * l.wbv.toNat + (j - 16)

/-- Storage that vj names in a lane (05 R166). -/
def vPlace (c : Clutch) (lane j : Nat) : Dst :=
  if j < 16 then .g lane j else .st lane (stackWord (laneAt c lane) j)

/-- A byte as core i sees it, without a fill. -/
def coreByte (s : State) (i pa : Nat) : Byte :=
  let below := lineByte (columnLine s (colOf i) (pa / 128)) (pa % 128)
  match l1At s i (pa / 128) with
  | some l => if (l.valid ||| l.dirty).getLsbD (pa % 128) then lineByte l.data (pa % 128) else below
  | none => below

/-- Stack word w of a host core that is not resident: its word at `HSTK_BASE` + 4w (05 R198, 12 R462). Before software sets
the range it reads 0 (log 2); where the address does not translate, its value is open (log 20). -/
def hostStackWord (s : State) (c : Clutch) (w : Nat) : Word :=
  let h := hostAt s (colOf c.core)
  if h.hstkBase = 0 ∧ h.hstkLimit = 0 then 0
  else match xlTable s c.core (ctxOf s c) false (h.hstkBase.toNat + 4 * w) .load with
    | .ok pa => BitVec.ofNat 32 (leNat ((List.range 4).map (fun k => coreByte s c.core (pa + k))))
    | .error _ => Config.freeStack s.fresh w

/-- Content of a place. -/
def getPlace (s : State) (c : Clutch) (d : Dst) : Word :=
  match d with
  | .g i j => tget 0 (laneAt c i).v j
  | .st i w => match tget none (laneAt c i).stack w with
    | some x => x
    | none => if isHost c then hostStackWord s c w else 0
  | .s n => tget 0 c.s n
  | .k n => tget 0 c.k n

/-- Write a place. The masks of a host core are one bit wide (05 R196). -/
def setPlace (c : Clutch) (d : Dst) (x : Word) : Clutch :=
  match d with
  | .g i j => modLane c i (fun l => { l with v := tput 0 l.v j x })
  | .st i w => modLane c i (fun l => { l with stack := tput none l.stack w (some x), bad := tput false l.bad w false })
  | .s n => { c with s := tput 0 c.s n x }
  | .k n => { c with k := tput 0 c.k n (if isHost c then x &&& 1 else x) }

def getV (s : State) (c : Clutch) (lane j : Nat) : Word := getPlace s c (vPlace c lane j)
def setV (c : Clutch) (lane j : Nat) (x : Word) : Clutch := setPlace c (vPlace c lane j) x
def getS (c : Clutch) (n : Nat) : Word := tget 0 c.s n
def setS (c : Clutch) (n : Nat) (x : Word) : Clutch := setPlace c (.s n) x
def getK (c : Clutch) (n : Nat) : Mask := tget 0 c.k n
def setK (c : Clutch) (n : Nat) (x : Mask) : Clutch := setPlace c (.k n) x
def getA (c : Clutch) (n : Nat) : AReg := tget AReg.zero c.a n
def setA (c : Clutch) (n : Nat) (x : AReg) : Clutch := { c with a := tput AReg.zero c.a n x }

/-- Storage that a register names in a lane; none for address registers, `zero` and `lane`. -/
def placeOf (c : Clutch) (lane : Nat) : Reg → Option Dst
  | .v j => some (vPlace c lane j.val)
  | .s n => some (.s n.val)
  | .k n => some (.k n.val)
  | _ => none

/-- 32-bit value of a register in a lane (09 R312, 05 R166). -/
def rd32 (s : State) (c : Clutch) (lane : Nat) : Reg → Word
  | .v j => getV s c lane j.val
  | .s n => getS c n.val
  | .k n => getK c n.val
  | .lane => BitVec.ofNat 32 lane
  | .zero => 0
  | .a _ => 0

/-- 64-bit value: an even register and its successor (05 R166). -/
def rd64 (s : State) (c : Clutch) (lane : Nat) : Reg → Dword
  | .v j => getV s c lane (j.val + 1) ++ getV s c lane j.val
  | .s n => getS c (n.val + 1) ++ getS c n.val
  | .a n => (getA c n.val).ptr
  | r => (rd32 s c lane r).setWidth 64

def rdN (s : State) (c : Clutch) (lane : Nat) (wide : Bool) (r : Reg) : Nat :=
  if wide then (rd64 s c lane r).toNat else (rd32 s c lane r).toNat

/-- Write a 32-bit or 64-bit value to a register in a lane; `zero` discards (09 R313). -/
def wr (c : Clutch) (lane : Nat) (wide : Bool) (r : Reg) (x : Nat) : Clutch :=
  match r with
  | .v j =>
    let c := setV c lane j.val (BitVec.ofNat 32 x)
    if wide then setV c lane (j.val + 1) (BitVec.ofNat 32 (x / 2 ^ 32)) else c
  | .s n =>
    let c := setS c n.val (BitVec.ofNat 32 x)
    if wide then setS c (n.val + 1) (BitVec.ofNat 32 (x / 2 ^ 32)) else c
  | .k n => setK c n.val (BitVec.ofNat 32 x)
  | _ => c

/-- The lowest lane of a mask. -/
def lowLane (m : Mask) : Nat := (lanesOf m).headD 0

/-- Write one result per executing lane: a vector destination in each, a uniform one once, with the value of the lowest
executing lane (09 R314). -/
def wrAll (c : Clutch) (ex : Mask) (wide : Bool) (d : Reg) (f : Nat → Nat) : Clutch :=
  if isVec d then (lanesOf ex).foldl (fun c i => wr c i wide d (f i)) c
  else wr c (lowLane ex) wide d (f (lowLane ex))

/-! ### Issue (05 R158 to R160) -/

/-- Is a lane eligible (05 R158, 10 R368, R369, 12 R457)? -/
def eligible (c : Clutch) (i : Nat) : Bool :=
  let l := laneAt c i
  !l.exited && l.kwait.isNone &&
  (match c.region with
   | some r => r.p.getLsbD i && !l.arrived
   | none => true) &&
  (isHost c || !(tget TrapSet.zero c.traps 0).inTrap || (tget TrapSet.zero c.traps 0).lanes.getLsbD i)

def eligMask (c : Clutch) : Mask := maskOf (eligible c)

/-- Smallest `pcv` over a non-empty list of lanes. -/
def minPc (c : Clutch) : List Nat → BitVec 53
  | [] => 0
  | [i] => (laneAt c i).pc
  | i :: t => if (laneAt c i).pc ≤ minPc c t then (laneAt c i).pc else minPc c t

/-- An issue: its address, the lanes at it, and the clutch with a spent rotation dropped (05 R160). -/
structure Issue where
  ia : BitVec 53
  at_ : Mask
  c  : Clutch
  deriving DecidableEq, Repr

/-- Issue address and lanes of a clutch; none when no lane is eligible (05 R158, R160). -/
def issueOf (c : Clutch) : Option Issue :=
  let e := eligMask c
  if e = 0 then none
  else
    let c := if c.rot ∧ c.grp &&& e = 0 then { c with rot := false, rc := 0 } else c
    let ia := minPc c (lanesOf (if c.rot then c.grp &&& e else e))
    some { ia := ia, at_ := maskOf (fun i => e.getLsbD i && decide ((laneAt c i).pc = ia)), c := c }

/-- The lanes at the issue address that execute (05 R159). -/
def execMask (c : Clutch) (p : Pred) (at_ : Mask) : Mask :=
  match p with
  | .always => at_
  | .bitSet k => at_ &&& getK c k.val
  | .bitClear k => at_ &&& ~~~(getK c k.val)

/-- Firmware runs (02 R87), and no thermal emergency gates the clocks (02 R77). -/
def live (s : State) : Bool := s.boot == .running && s.emerg.isNone

/-- May the clutch issue at all: the cores are released (02 R87) and clocked, its window is resident (05 R169), and its task is
resident and has not failed (04 R138). -/
def runs (s : State) (c : Clutch) : Bool :=
  live s && !c.windowOut &&
  match c.task with
  | none => isHost c && !(hostAt s (colOf c.core)).halted
  | some t => match taskAt s t with
    | none => false
    | some x => x.failed.isNone && x.state == .resident &&
      (match gangAt s x.gang with
       | some g => g.state == .resident
       | none => false)

/-! ### Lane masks (05 R163, R164) -/

/-- Release the lanes waiting on mask k when every lane whose bit is set waits on it (05 R164). -/
def kwaitTry (c : Clutch) (k : Fin 12) : Clutch :=
  let waiting := maskOf (fun i => decide ((laneAt c i).kwait = some k))
  let need := if isHost c then getK c k.val &&& 1 else getK c k.val
  if c.region.isNone ∧ waiting ≠ 0 ∧ need &&& ~~~waiting = 0 then modLanes c waiting (fun _ l => { l with kwait := none }) else c

/-- Evaluate every mask, when a lane waits at all. -/
def kwaitAll (c : Clutch) : Clutch :=
  if c.lanes.any (fun p => p.2.kwait.isSome) then (List.finRange 12).foldl kwaitTry c else c

/-- Lanes exit: the exit bit is set and the lanes' bits leave every mask (05 R163). -/
def exitLanes (c : Clutch) (m : Mask) : Clutch :=
  let c := modLanes c m (fun _ l => { l with exited := true })
  (List.range 12).foldl (fun c k => setK c k (getK c k &&& ~~~m)) c

/-! ### Pending results (05 R173, R174) -/

/-- Loaded bytes extended under a type (10 R357), as a 64-bit number. -/
def extendLoad (t : Ty) (x : Nat) : Nat :=
  let w := 8 * (memSize t).getD 4
  if tySigned t && w < 32 then wrapNat 32 (sgn w x) else x % 2 ^ w

/-- Write a value to the destinations of one lane's pending part; a mask register that changes may release lanes (05 R164). -/
def landAcc (c : Clutch) (a : PAcc) (x : Nat) : Clutch :=
  let c := setPlace c a.lo (BitVec.ofNat 32 x)
  match a.lo, a.hi with
  | .k _, _ => kwaitAll c
  | _, some d => setPlace c d (BitVec.ofNat 32 (x / 2 ^ 32))
  | _, none => c

/-- The value of a pending part, read now (06 R221, 07 R251); none while it must wait. -/
def accValue (s : State) (cid : Nat) (acq : Option Scope) (src : PSrc) : Option (State × Nat) :=
  match src with
  | .val lo hi => some (s, lo.toNat + 2 ^ 32 * hi.toNat)
  | .mem ch t => match readOrd s (clutchAt s cid).core acq ch with
    | none => none
    | some (s, b) => some (s, extendLoad t (leNat b))
  | .scr core off t => some (s, extendLoad t (leNat (spRead s core off ((memSize t).getD 4))))
  | .reply => none

/-- Replace the pending result `id` of a clutch. -/
def modPend (s : State) (cid id : Nat) (f : Pend → Pend) : State :=
  modClutch s cid (fun c => { c with inflight := c.inflight.map (fun p => if p.id = id then f p else p) })

/-- No part of a pending result is left, nor an operation of it that a sync engine has still to perform (07 R266). -/
def pendOver (s : State) (cid : Nat) (p : Pend) : Bool :=
  p.accs.isEmpty && !s.sync.any (fun o => decide (o.cid = cid) && decide (o.pend = p.id))

/-- Drop the pending results that are over; a finished acquire invalidates (07 R261). -/
def reapPend (s : State) (cid : Nat) : State :=
  let c := clutchAt s cid
  let left := c.inflight.filter (fun p => !pendOver s cid p)
  let s := (c.inflight.filter (pendOver s cid)).foldl (fun s p =>
    match p.acq with
    | some sc => acquireOp s c.core sc
    | none => s) s
  modClutch s cid (fun c => { c with inflight := left, parked := c.parked && !left.isEmpty })

/-- Complete the first listed parts of a pending result; stops at one that must wait. -/
def completeAccs (s : State) (cid id : Nat) (acq : Option Scope) : List PAcc → Option State
  | [] => some s
  | a :: t => match accValue s cid acq a.src with
    | none => none
    | some (s, x) =>
      let s := modClutch s cid (fun c => landAcc c a x)
      let s := modPend s cid id (fun p => { p with accs := p.accs.filter (fun b => decide (b ≠ a)) })
      completeAccs s cid id acq t

/-- The current bytes of a line are at a die with all four tokens: writes that the die has accepted are performed first (07 R262), and a
column-bank line comes from the array where its slice misses (06 R224, R250). -/
def ownLine (s : State) (die line : Nat) : Option State :=
  match readAt s die line with
  | none => none
  | some s => gatherAll s die line none

/-- An L1 forgets its clean bytes of a line. -/
def l1Forget (s : State) (i line : Nat) : State :=
  match l1At s i line with
  | none => s
  | some l => setL1 s i line (if l.dirty = 0 then none else some { l with valid := 0 })

/-- The unit of column bank c may read and write a line: the bus is idle and the line not locked (01 R29, 06 R233). -/
def unitIdle (s : State) (c line : Nat) : Bool := !bankBusy s c && !lineLocked s c line

/-- The unit may read a line now, though its write may have to wait for a beat of the up direction that is to be sent again (01 R28,
R29). -/
def unitReads (s : State) (c line : Nat) : Bool := !repairing s c && !(colAt s c).down.again && !lineLocked s c line

/-- The unit may take a line of which the slice has no byte to write back. -/
def unitEarly (s : State) (c line : Nat) : Bool := unitReads s c line && ((sliceAt s c line).getD SliceLine.empty).mask == 0

/-- Bytes at a place of a line, as data and mask. -/
def placeBytes (off : Nat) (bs : List Byte) : BitVec 1024 × BitVec 128 :=
  (bs.zip (List.range bs.length)).foldl (fun a b => (lineSet a.1 (off + b.2) b.1, bit128 a.2 (off + b.2))) (0, 0)

/-- One read-modify-write of n bytes by the unit of column bank c (06 R224, R233): the slice writes the line back and drops it, the unit
reads, computes and writes. From a poisoned line nothing is written and the value is open (01 R31; log 80). `none` while it waits. -/
def unitRmw (s : State) (c pa n : Nat) (f : Nat → Nat) : Option (State × Nat) :=
  let line := pa / 128
  if !(unitIdle s c line || unitEarly s c line) then none
  else match gatherAll s (dieOf c) line none with
  | none => none
  | some s =>
    let wait := !unitIdle s c line
    let r := bankReadLine (sliceDrop s line) c line false
    if r.2 then
      let (x, s) := freeD r.1
      some (s, x.toNat % 2 ^ (8 * n))
    else
      let old := perfNat r.1 pa n
      let w := placeBytes (pa % 128) (leBytes n (f old))
      some (if wait then modCol r.1 c (fun k => { k with rmw := k.rmw ++ [{ line := line, data := w.1, mask := w.2 }] })
        else bankPut r.1 c line w.1 w.2, old)

/-- The read, change and write of a queued operation: at its home die with all four tokens (07 R250), or in a bank read-modify-write unit;
the state and the old value. -/
def syncRmw (s : State) (o : SyncOp) : Option (State × Nat) :=
  let n := (memSize o.t).getD 4
  let f := fun old => atomNew o.op o.t old o.b.toNat o.cmp.toNat
  if 4 ≤ o.die then unitRmw s (o.die - 4) o.pa n f
  else (ownLine s o.die (o.pa / 128)).map (fun s => (performBytes s o.pa (leBytes n (f (perfNat s o.pa n))), perfNat s o.pa n))

/-- Perform one queued operation (06 R224). The core that issued it keeps no clean byte of the line from before it (07 R265). -/
def syncPerform (s : State) (o : SyncOp) : Option State :=
  match syncRmw s o with
  | none => none
  | some (s, old) =>
    let s := l1Forget { s with sync := s.sync.erase o } (clutchAt s o.cid).core (o.pa / 128)
    some (if o.ret then modPend s o.cid o.pend (fun p => { p with accs := p.accs.map (fun a =>
        if a.lane = o.lane then { a with src := .val (BitVec.ofNat 32 old) (BitVec.ofNat 32 (old / 2 ^ 32)) } else a) })
      else s)

/-- Perform the queue of a die up to and including every operation of a clutch's pending result. -/
def syncUntil (cid id : Nat) : Nat → State → Option State
  | 0, s => some s
  | k + 1, s =>
    match s.sync.find? (fun o => decide (o.cid = cid) && decide (o.pend = id)) with
    | none => some s
    | some o => match s.sync.find? (fun p => decide (p.die = o.die)) with
      | none => some s
      | some p => match syncPerform s p with
        | none => none
        | some s => syncUntil cid id k s

/-- Complete one pending result. -/
def completePend (s : State) (cid id : Nat) : Option State :=
  match syncUntil cid id s.sync.length s with
  | none => none
  | some s => match (clutchAt s cid).inflight.find? (fun p => p.id = id) with
    | none => some s
    | some p => match completeAccs s cid id p.acq p.accs with
      | none => none
      | some s => some (reapPend s cid)

def completeIds (s : State) (cid : Nat) : List Nat → Option State
  | [] => some s
  | i :: t => match completePend s cid i with
    | none => none
    | some s => completeIds s cid t

/-- Complete every pending result of a clutch, in issue order (05 R173). -/
def completeAll (s : State) (cid : Nat) : Option State :=
  match completeIds s cid ((clutchAt s cid).inflight.map (·.id)) with
  | none => none
  | some s => some (modClutch s cid (fun c => { c with parked := false }))

/-- What `leap`, trap entry and `tret` do as a stop does (05 R173): every result is written and none counts as pending. -/
def stopAll (s : State) (cid : Nat) : Option State :=
  (completeAll s cid).map (fun s => modClutch s cid (fun c => { c with hazard := [] }))

/-- Two byte ranges meet. -/
def meets (a n b m : Nat) : Bool := a < b + m && b < a + n

/-- The source of a pending part reads bytes of a place. -/
def srcMeets (p : Place) (x : PSrc) : Bool :=
  match p, x with
  | .phys ch, .mem ch2 _ => ch.any (fun a => ch2.any (fun b => meets a.1 a.2 b.1 b.2))
  | .scratch core off, .scr core2 off2 t => core = core2 && meets off 64 off2 ((memSize t).getD 4)
  | _, _ => false

/-- A lane of a pending result reads bytes of a place. -/
def laneMeets (ps : List Place) (accs : List PAcc) (lane : Nat) : Bool :=
  accs.any (fun a => a.lane = lane && ps.any (fun p => srcMeets p a.src))

/-- The place that a pending part reads. -/
def srcPlace : PSrc → List Place
  | .mem ch _ => [.phys ch]
  | .scr core off _ => [.scratch core off]
  | _ => []

/-- The pending loads that must have their values before places are touched, by result and lane: those of the same bytes, and those before
them of bytes that these read (07 R249, R251). The results stand newest first. -/
def bindNeeds (ps : List Place) : List Pend → List (Nat × Nat)
  | [] => []
  | p :: t =>
    let accs := p.accs.filter (fun a => laneMeets ps p.accs a.lane)
    bindNeeds (ps ++ accs.flatMap (fun a => srcPlace a.src)) t ++ accs.map (fun a => (p.id, a.lane))

/-- Read the named lanes of a pending result now, each lane's access whole (07 R248). -/
def bindAccs (s : State) (cid id : Nat) (acq : Option Scope) (need : List (Nat × Nat)) : List PAcc → Option State
  | [] => some s
  | a :: t =>
    if need.contains (id, a.lane) && !(match a.src with | .val _ _ => true | .reply => true | _ => false) then
      match accValue s cid acq a.src with
      | none => none
      | some (s, x) =>
        bindAccs (modPend s cid id (fun p => { p with accs := p.accs.map (fun b =>
          if b = a then { b with src := .val (BitVec.ofNat 32 x) (BitVec.ofNat 32 (x / 2 ^ 32)) } else b) })) cid id acq need t
    else bindAccs s cid id acq need t

def bindPends (s : State) (cid : Nat) (need : List (Nat × Nat)) : List Pend → Option State
  | [] => some s
  | p :: t => match bindAccs s cid p.id p.acq need p.accs with
    | none => none
    | some s => bindPends s cid need t

/-- Before places are touched, the listed pending loads of a clutch have their values where they must, in word order (07 R249, R251). -/
def bindBefore (s : State) (cid : Nat) (ps : List Place) (pends : List Pend) : Option State :=
  bindPends s cid (bindNeeds ps pends.reverse) pends

def bindOverlaps (s : State) (cid : Nat) (ps : List Place) : Option State := bindBefore s cid ps (clutchAt s cid).inflight

/-- A fresh identifier of a pending result; 0 is none's. -/
def freshId (c : Clutch) : Nat := c.inflight.foldl (fun m p => max m (p.id + 1)) 1

/-- Make a result pending: one part per executing lane, or one for a uniform destination (09 R314). -/
def addPend (c : Clutch) (accs : List PAcc) (acq : Option Scope) : Clutch :=
  { c with inflight := c.inflight ++ [{ id := freshId c, accs := accs, acq := acq }] }

/-- Part of a pending result for a register in a lane; none for `zero`. -/
def accFor (c : Clutch) (lane : Nat) (wide : Bool) (d : Reg) (src : PSrc) : List PAcc :=
  match placeOf c lane d with
  | none => []
  | some lo =>
    let hi := if wide then (match d with
      | .v j => some (vPlace c lane (j.val + 1))
      | .s n => some (.s (n.val + 1))
      | _ => none) else none
    [{ lane := lane, lo := lo, hi := hi, src := src }]

/-- A known value as the source of a pending part. -/
def known (x : Nat) : PSrc := .val (BitVec.ofNat 32 x) (BitVec.ofNat 32 (x / 2 ^ 32))

/-- Pending known results, one per executing lane (or once for a uniform destination). -/
def pendAll (c : Clutch) (ex : Mask) (wide : Bool) (d : Reg) (f : Nat → Nat) : Clutch :=
  let accs := if isVec d then (lanesOf ex).flatMap (fun i => accFor c i wide d (known (f i)))
    else accFor c (lowLane ex) wide d (known (f (lowLane ex)))
  if accs.isEmpty then c else addPend c accs none

/-! ### Region tags (10 R372) -/

/-- Table key of the tag of vj in a lane: storage, not name. -/
def tagKey (l : Lane) (j : Nat) : Nat := if j < 16 then j else 16 + stackWord l j

/-- Tag of a register in a lane of P; 64-bit tags stand at both halves. -/
def tagOf (c : Clutch) (lane : Nat) (r : Reg) : Option Sym :=
  match c.region with
  | none => none
  | some g => match r with
    | .v j => tget none (laneAt c lane).tags (tagKey (laneAt c lane) j.val)
    | .s n => tget none g.sTags n.val
    | _ => none

def setTag (c : Clutch) (lane : Nat) (r : Reg) (x : Option Sym) : Clutch :=
  match c.region with
  | none => c
  | some g => match r with
    | .v j => modLane c lane (fun l => { l with tags := tput none l.tags (tagKey l j.val) x })
    | .s n => { c with region := some { g with sTags := tput none g.sTags n.val x } }
    | _ => c

/-- Pin a slot; the two slots of a 64-bit load together (10 R372). -/
def pinSlot (c : Clutch) (k : Nat) : Clutch :=
  match c.region with
  | none => c
  | some g =>
    let pin := fun l i => match listGet l i with
      | some (x : LoadSlot) => listSet l i { x with pinned := true }
      | none => l
    let one := pin g.slots k
    let two := match listGet g.slots k with
      | some x => if x.kind = .lo then pin one (k + 1) else one
      | none => one
    { c with region := some { g with slots := two } }

/-- Pin the slot of a register's tag. -/
def pinReg (c : Clutch) (lane : Nat) (r : Reg) : Clutch :=
  match tagOf c lane r with
  | some t => pinSlot c t.slot
  | none => c

def pinRegs (c : Clutch) (ex : Mask) (rs : List Reg) : Clutch :=
  (lanesOf ex).foldl (fun c i => rs.foldl (fun c r => pinReg c i r) c) c

/-- Remove the tags of the registers of a destination. -/
def untagRegs (c : Clutch) (ex : Mask) (rs : List Reg) : Clutch :=
  (lanesOf ex).foldl (fun c i => rs.foldl (fun c r => setTag c i r none) c) c

/-! ### Ends of a region (10 R378, R379) -/

def stClean : Nat := 0
def stRepaired : Nat := 1
def stConflict : Nat := 16
def stConstraint : Nat := 17
def stCapacity : Nat := 18
def stLength : Nat := 19
def stIllegal : Nat := 20
def stFault : Nat := 21
def stPreempt : Nat := 22
def stExplicit : Nat := 23

/-- Free values for the registers that the region wrote (10 R379; log 11). -/
def havoc (s : State) (cid : Nat) : List Dst → State
  | [] => s
  | d :: t =>
    let (x, s) := freeW s
    havoc (modClutch s cid (fun c => setPlace c d x)) cid t

def havocA (s : State) (cid : Nat) : List Nat → State
  | [] => s
  | n :: t =>
    let (p, s) := freeD s
    let (b, s) := freeD s
    let (l, s) := freeD s
    let (w, s) := freeW s
    let r : AReg := { ptr := p, base := b.setWidth 56, limit := l.setWidth 56, r := w.getLsbD 0, w := w.getLsbD 1, x := w.getLsbD 2 }
    havocA (modClutch s cid (fun c => setA c n r)) cid t

/-- The effects of an abort on its clutch (10 R379): fallback `pcv` and `wbv`, depth 0, the status, if any, to sD of the opening
`atx.begin`; masks that the region wrote change, and may release lanes (05 R164). -/
def regionOut (s : State) (cid : Nat) (status : Option Nat) : State :=
  match (clutchAt s cid).region with
  | none => s
  | some g =>
    let s := havocA (havoc s cid g.wrote) cid g.wroteA
    let (w, s) := freeW s
    modClutch s cid (fun c =>
      let c := modLanes c g.p (fun _ l => { l with pc := l.fbPc, wbv := l.fbWbv, depth := 0, arrived := false, tags := [] })
      let conf : Bool := match status with | some x => decide (x % 256 = 16) || decide (x % 256 = 17) | none => false
      kwaitAll { c with
        region := none
        wait := none
        s := match status with | some x => tput 0 c.s g.statusR.val (BitVec.ofNat 32 x) | none => c.s
        flags := (c.flags &&& ~~~g.flagged) ||| (w.setWidth 6 &&& g.flagged)
        regionF := if conf then natMin (c.regionF + 1) 4 else c.regionF })

/-- A region ends without a commit: the effects on its clutch, and the tokens that its attempt kept go where an active request claims them
(06 R230, 07 R276). -/
def regionEnd (s : State) (cid : Nat) (status : Option Nat) : State :=
  let c := clutchAt s cid
  forwardLines (regionOut s cid status) (dieOf (colOf c.core)) (match c.region with | some g => g.held | none => [])

/-- An abort with a status. -/
def regionAbort (s : State) (cid : Nat) (status : Nat) : State := regionEnd s cid (some status)

/-! ### Taking an exception (12 R455 to R459) -/

/-- The STACK limit of a clutch: its task's, or that of R198. -/
def stackLimit (s : State) (c : Clutch) : Nat :=
  match c.task with
  | some t => match taskAt s t with
    | some x => x.stackN
    | none => 0
  | none =>
    let h := hostAt s (colOf c.core)
    if h.hstkLimit.toNat ≤ h.hstkBase.toNat then 0 else (h.hstkLimit.toNat - h.hstkBase.toNat) / 32

/-- A lane of the clutch has room for a handler's window. -/
def windowFits (s : State) (c : Clutch) (lane adv : Nat) : Bool :=
  8 * ((laneAt c lane).wbv.toNat + adv) + 112 ≤ 8 * stackLimit s c

/-- Terminate a task with a code (03 R120): no lane of it issues again; its end is the step of R156. -/
def failTask (s : State) (t code reason : Nat) : State :=
  match taskAt s t with
  | none => s
  | some x =>
    let s := setTask s t { x with failed := (match x.failed with | some f => some f | none => some (code, reason)) }
    x.clutches.foldl (fun s cid => modClutch s cid (fun c =>
      { c with
        lanes := c.lanes.map (fun p => (p.1, { p.2 with exited := true, kwait := none, arrived := false }))
        inflight := []
        parked := false
        wait := none
        region := none
        atStop := none })) s

/-- `STATUS` level bits and `TRAP_CAUSE` (12 R456). -/
def causeWord (code intno : Nat) (plevel : Fin 3) (pie int : Bool) : Word :=
  BitVec.ofNat 32 (code % 256 + intno % 16 * 256 + plevel.val * 65536 + (if pie then 2 ^ 18 else 0) + (if int then 2 ^ 31 else 0))

/-- Byte address of a word address. -/
def byteAddr (pc : BitVec 53) : Dword := BitVec.ofNat 64 (pc.toNat * 8)

/-- Entry of a SIMT clutch (12 R457): lanes `l` at the issue address, `TRAP_PC` as given. -/
def trapSimt (s : State) (cid cause : Nat) (addr : Dword) (mask l : Mask) (tpc : BitVec 53) : State :=
  let c := clutchAt s cid
  match c.task with
  | none => s
  | some t => match taskAt s t with
    | none => s
    | some x =>
      if x.handler = 0 ∨ (tget TrapSet.zero c.traps 0).inTrap then failTask s t cause 0
      else if !(lanesOf l).all (fun i => windowFits s c i 14) then failTask s t cStack 0
      else
        let set : TrapSet := { pc := byteAddr tpc, cause := causeWord cause 0 c.level false false, addr := addr, mask := mask,
                               lanes := l, inTrap := true, rc := c.rc, grp := c.grp, rot := c.rot }
        let h : BitVec 53 := BitVec.ofNat 53 (x.handler.toNat / 8)
        let c := { c with traps := tput TrapSet.zero c.traps 0 set, wait := none }
        setClutch s cid (modLanes c l (fun _ y =>
          { y with savedWbv := tput 0 y.savedWbv 0 y.wbv, wbv := y.wbv + 14, pc := h }))

/-- Vector of a level of a host core. -/
def vectorOf (h : HostCore) (lv : Nat) : Dword := if lv = 0 then h.uvec else if lv = 1 then h.svec else h.fvec

/-- The level that takes a host trap, from level `lv` up (12 R458): the level and the cause, none above firmware. -/
def trapLevel (s : State) (c : Clutch) (cause : Nat) : Nat → Nat → Option (Nat × Nat)
  | 0, _ => none
  | fuel + 1, lv =>
    if 2 < lv then none
    else if !windowFits s c 0 14 then trapLevel s c cStack fuel (lv + 1)
    else if (tget TrapSet.zero c.traps lv).inTrap ∨ vectorOf (hostAt s (colOf c.core)) lv = 0 then trapLevel s c cause fuel (lv + 1)
    else some (lv, cause)

/-- Entry of a host core (12 R458). `int` is the number of an interrupt. -/
def trapHost (s : State) (cid cause : Nat) (int : Option Nat) (addr : Dword) (mask : Mask) (tpc : BitVec 53) : State :=
  let c := clutchAt s cid
  let cur := c.level.val
  let start := if int.isSome then 1 else if cause = cSyscall then natMin (cur + 1) 2
    else if cur = 0 ∧ (hostAt s (colOf c.core)).uvec = 0 then 1 else cur
  match trapLevel s c cause 3 start with
  | none => modHost (setClutch s cid { c with wait := none }) (colOf c.core) (fun h => { h with halted := true })
  | some (lv, code) =>
    let isInt : Bool := int.isSome && decide (code ≠ cStack)
    let set : TrapSet :=
      { pc := byteAddr tpc, cause := causeWord (if isInt then 0 else code) (if isInt then int.getD 0 else 0) c.level c.ie isInt,
        addr := addr, mask := mask, lanes := 1, inTrap := true, rc := c.rc, grp := c.grp, rot := c.rot }
    let h : BitVec 53 := BitVec.ofNat 53 (bits (vectorOf (hostAt s (colOf c.core)) lv).toNat 3 53)
    let c := { c with traps := tput TrapSet.zero c.traps lv set, level := Fin.ofNat 3 lv, ie := false, wait := none }
    setClutch s cid (modLane c 0 (fun y => { y with savedWbv := tput 0 y.savedWbv lv y.wbv, wbv := y.wbv + 14, pc := h }))

/-- A clutch that cannot go on: it waits, and the word stands at its issue address (04 R138). -/
def waitFor (s : State) (cid : Nat) (k : WaitKind) (i : Instr) : State :=
  modClutch s cid (fun c => { c with wait := some { kind := k, instr := i } })

/-- Take a trap (12 R457, R458): every pending result is completed, an open region ends first with FAULT and `TRAP_PC` is
then its fallback address (10 R379, R455). `l` are the lanes at the issue address, `tpc` the word `TRAP_PC` names. -/
def takeTrap (s : State) (cid cause : Nat) (addr : Dword) (mask l : Mask) (tpc : BitVec 53) (i : Instr) : State :=
  match stopAll s cid with
  | none => waitFor s cid .tokens i
  | some s =>
    let c := clutchAt s cid
    match c.region with
    | some g =>
      let s := regionAbort s cid stFault
      let c := clutchAt s cid
      let fb := (laneAt c (lowLane g.p)).pc
      let l := maskOf (fun k => eligible c k && decide ((laneAt c k).pc = fb))
      if isHost c then trapHost s cid cause none addr mask fb else trapSimt s cid cause addr mask l fb
    | none => if isHost c then trapHost s cid cause none addr mask tpc else trapSimt s cid cause addr mask l tpc

/-- Return from a handler (12 R459): `pcv` and `wbv` of the lanes of L, the rotation state (05 R161), INTRAP clear, and on a host core
LEVEL and IE. -/
def trapReturn (s : State) (cid : Nat) : State :=
  let c := clutchAt s cid
  let lv := if isHost c then c.level.val else 0
  let set := tget TrapSet.zero c.traps lv
  let c := modLanes c set.lanes (fun _ l =>
    { l with pc := BitVec.ofNat 53 (bits set.pc.toNat 3 53), wbv := tget 0 l.savedWbv lv })
  let c := { c with traps := tput TrapSet.zero c.traps lv { set with inTrap := false }, rc := set.rc, grp := set.grp, rot := set.rot }
  if isHost c then
    let pl := bits set.cause.toNat 16 2
    setClutch s cid { c with level := Fin.ofNat 3 pl, ie := set.cause.getLsbD 18 || decide (pl = 0) }
  else setClutch s cid c

/-! ### Faults that go to the pager (06 R215 to R218) -/

/-- File a fault with the pager: it joins an unanswered record of its page (06 R216). -/
def pagerFile (s : State) (ctx page col : Nat) (access kind : Nat) (u : FaultFor) : State :=
  if s.pager.any (fun p => p.ctx = ctx && p.page = page) then
    { s with pager := s.pager.map (fun p => if p.ctx = ctx && p.page = page then { p with users := p.users ++ [u] } else p) }
  else
    { s with pager := s.pager ++ [{ ctx := ctx, page := page, access := BitVec.ofNat 8 access, col := col, tsc := s.tsc,
                                    kind := BitVec.ofNat 8 kind, users := [u], tag := none, answer := none }] }

/-- `ACCESS` of a fault record (06 R216). -/
def accBits (acc : AccKind) : Nat := match acc with | .load => 1 | .store => 2 | .atomic => 3 | .fetch => 4

/-- The launch record's IDEMPOTENT flag of a task (03 R111: FLAGS bit 0 at byte 0x28). -/
def idempotent (s : State) (t : Task) : Bool :=
  match launchAt s t.launch with
  | some l => l.record.getLsbD (8 * 0x28)
  | none => false

/-- The address at which an access that begins at `addr` finds PAGE: there, or in the next page when its own is present (06 R216). -/
def faultAt (s : State) (core ctx addr : Nat) : Nat :=
  if lookup s core ctx addr = .page then addr else addr / 65536 * 65536 + 65536

/-- A PAGE fault of a lane (06 R215): in a region the region aborts with FAULT and the pager answers; in a task of an
IDEMPOTENT launch with fewer than 8 requeues the gang is requeued (04 R144); else the precise trap. A page inside a declared extent whose
entry is stale or has MAP 0 faults in the same way (log 115). -/
def pageFault (s : State) (cid : Nat) (addr : Dword) (mask l : Mask) (ia : BitVec 53) (acc : AccKind) (i : Instr) : State :=
  let c := clutchAt s cid
  let page := faultAt s c.core (ctxOf s c) addr.toNat / 65536
  match c.region with
  | some g =>
    if s.pkg.pgfCfg.getLsbD 0 then
      match completeAll s cid with
      | none => waitFor s cid .tokens i
      | some s =>
        let s := waitFor (regionAbort s cid stFault) cid .pager i
        let s := modClutch s cid (fun c => { c with
          pagerTag := some { addr := addr, mask := mask, fb := (laneAt c (lowLane g.p)).pc } })
        pagerFile s (ctxOf s c) page (colOf c.core) (accBits acc) 2 (.region cid)
    else takeTrap s cid cPage addr mask l ia i
  | none =>
    match c.task.bind (taskAt s) with
    | none => takeTrap s cid cPage addr mask l ia i
    | some t => match gangAt s t.gang with
      | none => takeTrap s cid cPage addr mask l ia i
      | some g =>
        if idempotent s t && decide (g.requeues < 8) then
          pagerFile (setGang s t.gang { g with state := .requeued }) t.ctx page (colOf c.core) (accBits acc) 1
            (.requeued t.gang)
        else takeTrap s cid cPage addr mask l ia i

/-! ### The frame of an instruction word (09 R326, 05 R159 to R174) -/

/-- What a word's own effect gives: it is done, `jumped` being the lanes whose `pcv` it set; a precise trap, with which
nothing of it happens; a PAGE fault; a wait, with the state it leaves; an abort of the open region. -/
inductive Res where
  | done (s : State) (jumped : Mask)
  | trap (cause : Nat) (addr : Dword) (mask : Mask)
  | page (addr : Dword) (mask : Mask) (acc : AccKind)
  | wait (k : WaitKind) (s : State)
  | abort (status : Nat)
  | enter (s : State)

/-- What a word's effect is given: its clutch, issue address, the lanes at it and those that execute. -/
structure Ctx where
  cid : Nat
  ia  : BitVec 53
  at_ : Mask
  ex  : Mask
  deriving DecidableEq, Repr

/-- Specifier in `TRAP_ADDR` of HAZARD (05 R174). -/
def specOf (r : Reg) : Dword := (regCode r).setWidth 64

/-- The first register among `rs` that some executing lane finds in a list of places. -/
def findReg (c : Clutch) (ex : Mask) (p : Nat → Dst → Bool) (rs : List Reg) : Option Reg :=
  rs.find? (fun r => (lanesOf ex).any (fun i => match placeOf c i r with | some d => p i d | none => false))

/-- Source lane of `shfl` (10 R347). -/
def shflLane (host : Bool) (m : ShflMode) (i bb : Nat) : Nat :=
  if host then 0
  else match m with
    | .idx => bb % 32
    | .up => if i < bb then i else i - bb
    | .down => if 31 < i + bb then i else i + bb
    | .xor => i ^^^ (bb % 32)

/-- Source lane of `bcast` (10 R348). -/
def bcastLane (host : Bool) (b : Nat) : Nat := if host then 0 else b % 32

/-- The lanes whose registers A a word reads: those of other lanes for `shfl`, `bcast` and `vfsend` (10 R347, R348, 05 R186). -/
def srcLanes (s : State) (c : Clutch) (i : Instr) (ex : Mask) : Mask :=
  match i with
  | .shfl _ m _ _ _ b => maskOf (fun j => (lanesOf ex).any (fun n => decide (shflLane (isHost c) m n
      (match b with | .reg r => (rd32 s c n r).toNat | .imm x => x.toNat) = j)))
  | .bcast _ _ _ _ b => laneBit (bcastLane (isHost c)
      (match b with | .reg r => (rd32 s c (lowLane ex) r).toNat | .imm x => x.toNat))
  | .vfsend _ _ => BitVec.allOnes 32
  | _ => ex

/-- Register A of a word that reads it in other lanes. -/
def crossRegs : Instr → List Reg
  | .shfl _ _ t _ a _ => rg (tyWide t) a
  | .bcast _ t _ a _ => rg (tyWide t) a
  | .vfsend _ a => rg false a
  | _ => []

/-- The plane descriptor in A names FP64, whose elements are even pairs (11 R396, R397). -/
def planePair (s : State) (c : Clutch) (ex : Mask) (a : Reg) : Bool := decide (bits (rd64 s c (lowLane ex) a).toNat 56 5 = 1)

/-- The register pair that a plane word names when its format is FP64: of the elements that `mplane` reads or `mnplane` writes. -/
def pairReg (s : State) (c : Clutch) (ex : Mask) : Instr → Option Reg
  | .mplane _ a b _ => if planePair s c ex a then some b else none
  | .mnplane _ d a _ => if planePair s c ex a then some d else none
  | _ => none

/-- An odd first register of such a pair is ILLEGAL (05 R166). -/
def oddPair (s : State) (c : Clutch) (ex : Mask) (i : Instr) : Bool :=
  decide (ex ≠ 0) && (match pairReg s c ex i with | some r => !regEven r | none => false)

/-- The registers that a word reads in its own lanes. -/
def ownRegs (s : State) (c : Clutch) (w : WordInfo) (ex : Mask) : Instr → List Reg
  | .shfl _ _ _ _ _ b => rg5 b
  | .bcast _ _ _ _ b => rgO false b
  | .vfsend _ _ => []
  | .mplane h a b d => w.reads ++ ((pairReg s c ex (.mplane h a b d)).map (rg true)).getD []
  | _ => w.reads

/-- The registers that a word writes. -/
def outRegs (s : State) (c : Clutch) (w : WordInfo) (ex : Mask) : Instr → List Reg
  | .mnplane h d a k => w.writes ++ ((pairReg s c ex (.mnplane h d a k)).map (rg true)).getD []
  | _ => w.writes

/-- The link words that `ret` reads (05 R168). -/
def linkPlaces (c : Clutch) (w : WordInfo) (ex : Mask) : List Dst :=
  if w.link then (lanesOf ex).flatMap (fun n =>
    let b := (laneAt c n).wbv.toNat
    if b = 0 then [] else [.st n (8 * b - 2), .st n (8 * b - 1)])
  else []

/-- The first register that a word reads in a lane where `p` holds of its storage. -/
def findRead (s : State) (c : Clutch) (w : WordInfo) (i : Instr) (ex : Mask) (p : Nat → Dst → Bool) : Option Reg :=
  match findReg c (srcLanes s c i ex) p (crossRegs i) with
  | some r => some r
  | none => findReg c ex p (ownRegs s c w ex i)

/-- The register of a pending result that a word reads or writes (05 R174), its predicate's mask first. -/
def hazardOf (s : State) (c : Clutch) (w : WordInfo) (i : Instr) (ex : Mask) : Option Reg :=
  let pk : List Reg := match w.hdr.pred with | .always => [] | .bitSet k => [.k k] | .bitClear k => [.k k]
  match pk.find? (fun r => match placeOf c 0 r with | some d => c.hazard.contains d | none => false) with
  | some r => some r
  | none =>
    if ex = 0 then none
    else match findRead s c w i ex (fun _ d => c.hazard.contains d) with
      | some r => some r
      | none => findReg c ex (fun _ d => c.hazard.contains d) (outRegs s c w ex i)

/-- A link word that `ret` reads counts as pending (05 R174). -/
def linkHazard (c : Clutch) (w : WordInfo) (ex : Mask) : Bool := (linkPlaces c w ex).any (fun d => c.hazard.contains d)

/-- A link word of a returning lane is a poisoned row (05 R168, R169). -/
def retPoison (c : Clutch) (i : Nat) : Bool :=
  let w := (laneAt c i).wbv.toNat
  decide (w ≠ 0) && (tget false (laneAt c i).bad (8 * w - 2) || tget false (laneAt c i).bad (8 * w - 1))

/-- A word reads a poisoned stack row (05 R169): the lanes that trap. -/
def badRows (s : State) (c : Clutch) (w : WordInfo) (i : Instr) (at_ ex : Mask) : Option Mask :=
  match i with
  | .ret _ => if (lanesOf ex).any (retPoison c) then some (maskOf (fun n => ex.getLsbD n && retPoison c n)) else none
  | _ => if (findRead s c w i ex (fun _ d => match d with | .st n j => tget false (laneAt c n).bad j | _ => false)).isSome then some at_
      else none

/-- A place is the destination of a pending result. -/
def awaits (c : Clutch) (d : Dst) : Bool :=
  c.inflight.any (fun p => p.accs.any (fun a => decide (a.lo = d) || decide (a.hi = some d)))

/-- The mask of a word's predicate. -/
def predMask (w : WordInfo) : Option (Fin 12) :=
  match w.hdr.pred with | .always => none | .bitSet k => some k | .bitClear k => some k

/-- A host core's word meets a pending result, its predicate's mask whether or not it executes (05 R199), or moves its register stack
(12 R462); or an acquiring load is pending; or the clutch is parked (05 R173). -/
def mustComplete (c : Clutch) (w : WordInfo) (ex : Mask) : Bool :=
  c.parked || c.inflight.any (fun p => p.acq.isSome) ||
  (isHost c && (w.drain || (match predMask w with | some k => awaits c (.k k.val) | none => false) ||
    (findReg c ex (fun _ d => awaits c d) (w.reads ++ w.writes)).isSome || (linkPlaces c w ex).any (awaits c)))

/-- Places that a word writes in its executing lanes. -/
def writtenPlaces (c : Clutch) (w : WordInfo) (ex : Mask) : List Dst :=
  (w.writes.flatMap (fun r =>
    if isVec r then (lanesOf ex).filterMap (fun i => placeOf c i r) else (placeOf c 0 r).toList)).eraseDups

/-- Rotation after a word (05 R160). `e` are the lanes that were eligible, `before` the clutch before the word. -/
def rotate (before after : Clutch) (ia : BitVec 53) (e : Mask) (backward : Bool) : Clutch :=
  if !backward then after
  else if after.rot then { after with rot := false, rc := 0 }
  else if (lanesOf e).any (fun i => decide (ia < (laneAt before i).pc)) then
    if after.rc + 1 = 64 then
      let above := (lanesOf e).filter (fun i => decide (ia < (laneAt after i).pc))
      let h := minPc after above
      { after with grp := maskOf (fun i => e.getLsbD i && decide ((laneAt after i).pc = h)), rot := !above.isEmpty, rc := 0 }
    else { after with rc := after.rc + 1 }
  else after

/-- The lanes at the issue address that did not branch go to the next word. -/
def advance (c : Clutch) (x : Ctx) (jumped : Mask) : Clutch :=
  modLanes c (x.at_ &&& ~~~jumped) (fun _ l => { l with pc := x.ia + 1 })

/-- A lane has branched backwards (05 R160). -/
def branchedBack (c : Clutch) (x : Ctx) (w : WordInfo) (jumped : Mask) : Bool :=
  w.back && (lanesOf (x.ex &&& jumped)).any (fun i => !(laneAt c i).exited && decide ((laneAt c i).pc < x.ia))

/-- The storage that counts as pending after a word (05 R174). -/
def markPending (c : Clutch) (w : WordInfo) (places : List Dst) : Clutch :=
  { c with hazard := if w.hdr.stop then [] else if w.long then c.hazard ++ places else c.hazard, wait := none }

/-- What an open region counts of a word (10 R368, R379). `c0` is the clutch before the word. -/
def regionWord (c c0 : Clutch) (x : Ctx) (w : WordInfo) (places : List Dst) : Clutch :=
  match c.region with
  | none => c
  | some g => { c with region := some { g with
      words := if c0.region.isSome then g.words + 1 else g.words
      wrote := (g.wrote ++ (if c0.region.isSome && !w.late then places else [])).eraseDups
      wroteA := (g.wroteA ++ (if x.ex = 0 then [] else w.writes.filterMap (fun r => match r with | .a n => some n.val | _ => none))).eraseDups
      flagged := if x.ex = 0 then g.flagged else g.flagged ||| (if c0.fpmode.getLsbD 3 then w.flz else w.fl) } }

/-- The trap set that `sysr` shows: that of the current level on a host core (12 R458). -/
def trapNo (c : Clutch) : Nat := if isHost c then c.level.val else 0
def trapSet (c : Clutch) : TrapSet := tget TrapSet.zero c.traps (trapNo c)

/-- The stop bit (05 R173), and where an engine error may be delivered (12 R427): at no word of a handler, `tret` among them
(12 R463), nor of a region. -/
def stopMark (c : Clutch) (x : Ctx) (w : WordInfo) (handling : Bool) : Clutch :=
  let c := if w.hdr.stop then { c with parked := !c.inflight.isEmpty } else c
  if (w.hdr.stop || isHost c) && !handling && c.region.isNone then { c with atStop := (issueOf c).map (fun p => (p.ia, x.at_)) } else c

/-- After a word is done: `pcv` of the lanes at the issue address that did not branch, rotation, pending registers, the
region's word count, `kwait` releases, and the stop (05 R159, R160, R164, R173, 12 R427). `c0` is the clutch before it. -/
def finish (s : State) (x : Ctx) (w : WordInfo) (c0 : Clutch) (jumped : Mask) : State :=
  let c := advance (clutchAt s x.cid) x jumped
  let c := rotate c0 c x.ia (eligMask c0) (branchedBack c x w jumped)
  let places := if x.ex = 0 then [] else writtenPlaces c0 w x.ex
  setClutch s x.cid (stopMark (kwaitAll (regionWord (markPending c w places) c0 x w places)) x w (trapSet c0).inTrap)

/-- The line of an address that a clutch's access reaches below its L1. -/
def lineBelow (s : State) (c : Clutch) (va : Nat) : Option Nat :=
  match locate s { reqOf s c none .load 0 false with view := .none } (BitVec.ofNat 64 va) 1 with
  | .ok (.phys ((pa, _) :: _)) =>
    if (match l1At s c.core (pa / 128) with | some l => l.poison | none => false) then none else some (pa / 128)
  | _ => none

/-- A word that raises POISON has read the poisoned line of its access, and a bank read is checked and logged (01 R32). -/
def poisonSeen (s : State) (cid cause : Nat) (addr : Dword) : State :=
  if cause ≠ cPoison then s
  else match lineBelow s (clutchAt s cid) addr.toNat with
    | none => s
    | some l =>
      if linePoison s l then bankFetch s l
      else match lineBelow s (clutchAt s cid) (addr.toNat / 128 * 128 + 128) with
        | none => s
        | some l => bankFetch s l

/-- Check 5 of 09 R326: the level is too low, or a word writes `STATUS` on a SIMT core (12 R450). -/
def privFails (c : Clutch) (i : Instr) (w : WordInfo) : Bool :=
  decide (c.level.val < w.priv) || (match i with | .sysw _ n _ => n == 0x007 && !isHost c | _ => false)

/-- Checks 3 to 6 of 09 R326, the rules of a region, then the word's own effect. `body` is called when a lane executes. -/
def runBody (s : State) (x : Ctx) (w : WordInfo) (i : Instr) (c0 : Clutch) (pairing : Bool) (body : Ctx → State → Res) : State :=
  let word : Dword := ((encode i).getD 0)
  let c := clutchAt s x.cid
  if (w.simt && isHost c) || (w.host && !isHost c) || oddPair s c x.ex i then takeTrap s x.cid cIllegal word x.at_ x.at_ x.ia i
  else if pairing then takeTrap s x.cid cPairing word x.at_ x.at_ x.ia i
  else if x.ex ≠ 0 ∧ privFails c i w then takeTrap s x.cid cPrivilege 0 x.at_ x.at_ x.ia i
  else match badRows s c w i x.at_ x.ex with
  | some m =>
    let (a, s) := freeD s
    takeTrap s x.cid cPoison a m x.at_ x.ia i
  | none =>
  match (if c.fpmode.getLsbD 31 then hazardOf s c w i x.ex else none) with
  | some r => takeTrap s x.cid cHazard (specOf r) x.at_ x.at_ x.ia i
  | none =>
  if c.fpmode.getLsbD 31 && linkHazard c w x.ex then
    let (a, s) := freeD s
    takeTrap s x.cid cHazard a x.at_ x.at_ x.ia i
  else match c.region with
  | some g =>
    if 4096 ≤ g.words then regionAbort s x.cid stLength
    else if x.ex ≠ 0 ∧ w.forbid then regionAbort s x.cid stIllegal
    else go s c
  | none => go s c
where
  go (s : State) (c : Clutch) : State :=
    if x.ex = 0 then finish s x w c0 0
    else
      let c := if w.own || c.region.isNone then c else untagRegs (pinRegs c x.ex w.reads) x.ex w.writes
      match body x (setClutch s x.cid c) with
      | .done s j => finish s x w c0 j
      | .trap cause addr mask =>
        takeTrap (poisonSeen s x.cid cause addr) x.cid cause addr mask x.at_ (if cause = cBreak ∨ cause = cSyscall then x.ia + 1 else x.ia) i
      | .page addr mask acc => pageFault s x.cid addr mask x.at_ x.ia acc i
      | .wait k s => waitFor s x.cid k i
      | .abort status => regionAbort s x.cid status
      | .enter s => s

/-- Addresses of the rows that a word reads on a host core and that are not resident (05 R198, 12 R462). -/
def stackVas (s : State) (c : Clutch) (w : WordInfo) (ex : Mask) : List Nat :=
  let h := hostAt s (colOf c.core)
  if !isHost c || decide (ex = 0) || decide (h.hstkBase = 0 ∧ h.hstkLimit = 0) then []
  else (w.reads.filterMap (placeOf c 0) ++ linkPlaces c w ex).filterMap (fun d =>
    match d with
    | .st i j => if (tget none (laneAt c i).stack j).isNone then some (h.hstkBase.toNat + 4 * j) else none
    | _ => none)

/-- Such a row can be read now: its address translates, or faults, and its bytes are in the L1 or at the slice (06 R228, 07 R262). -/
def stackReady (s : State) (c : Clutch) (va : Nat) : Bool :=
  match xlTable s c.core (ctxOf s c) false va .load with
  | .ok pa => l1Has s c.core pa 4 || lineReady s (dieOf (colOf c.core)) (pa / 128)
  | .error .wait => false
  | .error (.trap _) => true

/-- What a word that waits for such a row has read meanwhile. -/
def stackTake (c : Clutch) (s : State) (va : Nat) : State :=
  let s := xlTake s c.core (ctxOf s c) none va
  match xlTable s c.core (ctxOf s c) false va .load with
  | .ok pa =>
    if l1Has s c.core pa 4 then s
    else (readAt s (dieOf (colOf c.core)) (pa / 128)).getD (holdRead s (pa / 128))
  | .error _ => s

/-- Run one instruction word for the clutch `cur` at its issue address. With no eligible lane, or while its task does not
run, nothing happens (04 R138). Results that must land first may release lanes of a `kwait` (05 R164): the lanes at the issue address
are those of the clutch then, and a word that is no longer at it does not issue (05 R158). -/
def runWord (s : State) (i : Instr) (w : WordInfo) (pairing : Bool) (body : Ctx → State → Res) : State :=
  let cid := s.cur
  let c := clutchAt s cid
  if !runs s c then s
  else match issueOf c with
    | none => s
    | some p =>
      let s0 := s
      let s := setClutch s cid { p.c with atStop := none }
      let ex := execMask p.c w.hdr.pred p.at_
      if mustComplete p.c w ex then
        match completeAll s0 cid with
        | none => waitFor s cid .tokens i
        | some s => match issueOf (clutchAt s cid) with
          | none => s
          | some q => if q.ia = p.ia then after (setClutch s cid { q.c with atStop := none }) q.ia q.at_ else s
      else after s p.ia p.at_
where
  after (s : State) (ia : BitVec 53) (at_ : Mask) : State :=
    let c := clutchAt s s.cur
    let ex := execMask c w.hdr.pred at_
    let vas := stackVas s c w ex
    if vas.all (stackReady s c) then runBody s { cid := s.cur, ia := ia, at_ := at_, ex := ex } w i c pairing body
    else waitFor (vas.foldl (stackTake c) s) s.cur .translation i

/-- A word of the opcode table: its facts, then `runWord`. -/
def word (i : Instr) (s : State) (body : Ctx → State → Res) : Host.Outcome State Fault Refusal :=
  match infoOf i with
  | some w => .next (runWord s i w false body)
  | none => .next s

end Sys2Proof.Machine
end

