-- ==== Sys2Proof/Machine/Operands.lean ====
section
/-! DEFINITION. Operands: sources and immediates (09 R313 to R316, 10 R337, R338), effective addresses (09 R317), and the checks
of the lanes of an access (06 R214). -/

namespace Sys2Proof.Machine

/-- imm19 as a full-width operand (09 R316). -/
def immFull (t : Ty) (i : BitVec 19) : Nat :=
  match t with
  | .n8 | .n16 | .n32 | .n64 => i.toNat
  | .f32 => i.toNat * 2 ^ 13
  | .f64 => i.toNat * 2 ^ 45
  | .f16 | .bf16 => i.toNat % 2 ^ 16
  | _ => wrapNat (tyBits t) (sgn 19 i.toNat)

/-- imm19 in place of a 32-bit operand (10 R337). -/
def imm32 (t : Ty) (i : BitVec 19) : Nat :=
  match t with
  | .n8 | .n16 | .n32 | .n64 => i.toNat
  | _ => wrapNat 32 (sgn 19 i.toNat)

/-- The last source of type t (09 R315). -/
def opN (s : State) (c : Clutch) (lane : Nat) (t : Ty) : Opnd → Nat
  | .reg r => rdN s c lane (tyWide t) r
  | .imm i => immFull t i

/-- The last source as a 32-bit operand. -/
def op32 (s : State) (c : Clutch) (lane : Nat) (t : Ty) : Opnd → Nat
  | .reg r => (rd32 s c lane r).toNat
  | .imm i => imm32 t i

/-- imm16 of the CMP layout for an integer comparison (10 R338) and for `fcmp` (11 R388). -/
def cmpImm (t : Ty) (i : BitVec 16) : Nat :=
  match t with
  | .n32 | .n64 => i.toNat
  | .f16 | .bf16 => i.toNat
  | .f32 => i.toNat * 2 ^ 16
  | .f64 => i.toNat * 2 ^ 48
  | _ => wrapNat (tyBits t) (sgn 16 i.toNat)

def opCmp (s : State) (c : Clutch) (lane : Nat) (t : Ty) : CmpOpnd → Nat
  | .reg r => rdN s c lane (tyWide t) r
  | .imm i => cmpImm t i

def op5 (s : State) (c : Clutch) (lane : Nat) : Opnd5 → Nat
  | .reg r => (rd32 s c lane r).toNat
  | .imm i => i.toNat

/-- The address register through which a base goes (05 R170). -/
def baseReg (c : Clutch) : Reg → Option AReg
  | .a n => some (getA c n.val)
  | _ => none

/-- The 64-bit base of a lane (09 R317). -/
def baseVal (s : State) (c : Clutch) (lane : Nat) (r : Reg) : Dword := rd64 s c lane r

/-- Effective address of a memory operand (09 R317). -/
def eaOf (s : State) (c : Clutch) (lane : Nat) (m : MemOp) (size : Nat) : Dword :=
  let idx : BitVec 64 := match m.idx with
    | .zero => 0
    | r => (rd32 s c lane r).signExtend 64
  baseVal s c lane m.base + idx * BitVec.ofNat 64 size + (m.off.signExtend 64) * BitVec.ofNat 64 size

/-- What the lanes of an access found. -/
inductive Checked where
  | ok (ps : List (Nat × Place))
  | stop (r : Res)

/-- The outcome of the lanes of an access (06 R214) from that of each lane: no lane accesses memory when one fails; the cause is
that of the lowest failing lane, the mask that of every failing lane. While a lane waits for its translation the word does, and `take` reads
what its lanes need. -/
def gatherChecks (s : State) (acc : AccKind) (lanes : List Nat) (ea : Nat → Dword) (one : Nat → Except XErr Place)
    (take : Nat → State → State) : Checked :=
  let rs := lanes.map (fun i => (i, one i))
  let bad : List (Nat × XErr) := rs.filterMap (fun p => match p.2 with | .error e => some (p.1, e) | .ok _ => none)
  let waits := Checked.stop (.wait .translation (lanes.foldl (fun s i => take i s) s))
  if bad.any (fun p => p.2 == .wait) then waits
  else match bad with
  | [] => .ok (rs.filterMap (fun p => match p.2 with | .ok x => some (p.1, x) | .error _ => none))
  | (_, .wait) :: _ => waits
  | (i, .trap k) :: _ =>
    let mask := maskOf (fun k => bad.any (fun p => decide (p.1 = k)))
    if k = cPage then .stop (.page (ea i) mask acc) else .stop (.trap k (ea i) mask)

/-- The translation of an object whose window the word allows, or not: in another window PROTECTION comes before all but WINDOW
(12 R435, R444; log 55). -/
def windowed (allowed : Bool) (r : Except XErr Place) : Except XErr Place :=
  if allowed then r
  else match r with
    | .error (.trap k) => if k = cWindow then .error (.trap k) else .error (.trap cProtection)
    | _ => .error (.trap cProtection)

/-- The checks of the lanes of an access (06 R214). `reach` refuses device registers (03 R101). -/
def checkLanes (s : State) (q : Req) (lanes : List Nat) (ea : Nat → Dword) (n : Nat) (reach : Nat → Bool) : Checked :=
  gatherChecks s q.acc lanes ea (fun i => match locate s q (ea i) n with
    | .ok (.dev pa) => if reach pa then Except.ok (Place.dev pa) else .error (XErr.trap cProtection)
    | r => r) (fun i => accessTake q (ea i) n)

/-- A place that a region may not reach (10 R370). -/
def regionBars (s : State) : Place → Bool
  | .scratch _ _ => true
  | .dev _ => true
  | .phys ch => ch.any (fun c => paKind s c.1 == .sys)

/-- Executing lanes of an access: all, or the lowest one when the destination is uniform (10 R358). -/
def accLanes (ex : Mask) (uniform : Bool) : List Nat := if uniform then [lowLane ex] else lanesOf ex

/-- Read the bytes of a place now: an immediate load by an agent of core i. -/
def readPlace (s : State) (i : Nat) (p : Place) (n : Nat) : Option (State × List Byte) :=
  match p with
  | .scratch core off => some (s, spRead s core off n)
  | .phys ch => readChunks s i ch
  | .dev _ => some (s, [])

/-- Store bytes at a place through core i (06 R221). A store to a weight place never happens. -/
def writePlace (s : State) (i : Nat) (p : Place) (bs : List Byte) : Option State :=
  match p with
  | .scratch core off => some (spWrite s core off bs)
  | .phys ch => storeL1 s i ch bs
  | .dev _ => some s

/-- The home tower of a physical address serves its sync-engine object (06 R224). -/
def placePa : Place → Nat
  | .phys ((pa, _) :: _) => pa
  | .dev pa => pa
  | _ => 0

/-- ALU words: one result per executing lane, at once (05 R172). -/
def aluWord (d : Reg) (wide : Bool) (f : State → Clutch → Nat → Nat × Fl) (x : Ctx) (s : State) : Res :=
  let c := clutchAt s x.cid
  let fl := (lanesOf x.ex).foldl (fun (a : Fl) i => a ||| (f s c i).2) 0
  let c' := wrAll c x.ex wide d (fun i => (f s c i).1)
  .done (setClutch s x.cid { c' with flags := c'.flags ||| fl }) 0

/-- Long-class ALU words: the results are pending (05 R173). -/
def aluLong (d : Reg) (wide : Bool) (f : State → Clutch → Nat → Nat × Fl) (x : Ctx) (s : State) : Res :=
  let c := clutchAt s x.cid
  let fl := (lanesOf x.ex).foldl (fun (a : Fl) i => a ||| (f s c i).2) 0
  let c' := pendAll c x.ex wide d (fun i => (f s c i).1)
  .done (setClutch s x.cid { c' with flags := c'.flags ||| fl }) 0

/-- A result without flags. -/
def pureFn (f : State → Clutch → Nat → Nat) (s : State) (c : Clutch) (i : Nat) : Nat × Fl := (f s c i, 0)

/-- Step a lane's LFSR (08 R292). -/
def lfsrStep (x : Word) : Word := (x >>> 1) ^^^ (if x.getLsbD 0 then 0x80200003 else 0)

/-- Rounding of `FPMODE.RM` (08 R283). -/
def rmOf (c : Clutch) : Rnd :=
  match bits c.fpmode.toNat 0 3 with
  | 1 => .rtz | 2 => .rup | 3 => .rdn | 4 => .rna | _ => .rne

/-- Rounding that a code names (09 R320, 08 R286); `narrow` for a conversion that narrows. -/
def rndOf (c : Clutch) (rm : Rnd) (narrow : Bool) : Rnd :=
  match rm with
  | .mode => if narrow && c.fpmode.getLsbD 4 then .sr else rmOf c
  | r => r

def ftzOf (c : Clutch) : Bool := c.fpmode.getLsbD 3

/-- Scopes that a word's ordering names. -/
def acqScope (o : MOrd) : Option Scope := match o with | .acq s => some s | .ar s => some s | _ => none
def relScope (o : MOrd) : Option Scope := match o with | .rel s => some s | .ar s => some s | _ => none

/-- A release before a word, when it names one; none while it must wait (07 R261). -/
def relFirst (s : State) (i : Nat) : Option Scope → Option State
  | none => some s
  | some sc => releaseOp s i sc

end Sys2Proof.Machine
end

