-- ==== Sys2Proof/Machine/Tags.lean ====
section
/-! DEFINITION. Symbolic tags inside an atomic region (10 R372, R373): moves, additions, subtractions and comparisons. -/

namespace Sys2Proof.Machine

/-- The register and its successor when wide. -/
def nextReg : Reg → Reg
  | .v n => if h : n.val + 1 < 128 then .v ⟨n.val + 1, h⟩ else .v n
  | .s n => if h : n.val + 1 < 64 then .s ⟨n.val + 1, h⟩ else .s n
  | r => r

/-- Tag of a whole operand of matching width. -/
def fullTag (c : Clutch) (lane : Nat) (wide : Bool) (r : Reg) : Option Sym :=
  match tagOf c lane r with
  | none => none
  | some t =>
    if t.wide != wide then none
    else if wide && decide (tagOf c lane (nextReg r) ≠ some t) then none
    else some t

/-- Some register of the operand carries a tag. -/
def anyTag (c : Clutch) (lane : Nat) (wide : Bool) (r : Reg) : Bool := (rg wide r).any (fun q => (tagOf c lane q).isSome)

def tagDest (c : Clutch) (lane : Nat) (wide : Bool) (d : Reg) (t : Option Sym) : Clutch :=
  let c := setTag c lane d t
  if wide then setTag c lane (nextReg d) t else c

def pinOperand (c : Clutch) (lane : Nat) (wide : Bool) (r : Reg) : Clutch := (rg wide r).foldl (fun c q => pinReg c lane q) c

/-- What an operand of a tagged operation is: a register, or a known value. -/
inductive TagSrc where
  | reg (r : Reg)
  | val
  deriving DecidableEq, Repr

def srcTag (c : Clutch) (lane : Nat) (wide : Bool) : TagSrc → Option Sym
  | .reg r => fullTag c lane wide r
  | .val => none

def srcAny (c : Clutch) (lane : Nat) (wide : Bool) : TagSrc → Bool
  | .reg r => anyTag c lane wide r
  | .val => false

/-- Does the operand have a tag that is not concrete? `pin` pins it. -/
def srcPin (c0 c : Clutch) (lane : Nat) (wide : Bool) : TagSrc → Clutch
  | .reg r => (rg wide r).foldl (fun c q => match tagOf c0 lane q with | some t => pinSlot c t.slot | none => c) c
  | .val => c

/-- SYM plus or minus a concrete value (10 R372). -/
def symAdd (t : Sym) (sub : Bool) (y : Nat) : Sym :=
  let w := if t.wide then 64 else 32
  { t with c := BitVec.ofNat 64 (if sub then iSub w (t.c.toNat % 2 ^ w) (y % 2 ^ w) else iAdd w t.c.toNat y) }

/-- Tags of `add` (`sub` false) and `sub` in one lane; `c0` is the clutch before the word. -/
def tagAddSub (c0 c : Clutch) (lane : Nat) (sub wide : Bool) (d : Reg) (a b : TagSrc) (x y : Nat) : Clutch :=
  if c0.region.isNone then c
  else match srcTag c0 lane wide a, srcTag c0 lane wide b with
    | some t, none =>
      if srcAny c0 lane wide b then tagDest (srcPin c0 (srcPin c0 c lane wide a) lane wide b) lane wide d none
      else tagDest c lane wide d (some (symAdd t sub y))
    | none, some t =>
      if sub || srcAny c0 lane wide a then tagDest (srcPin c0 (srcPin c0 c lane wide a) lane wide b) lane wide d none
      else tagDest c lane wide d (some (symAdd t false x))
    | _, _ => tagDest (srcPin c0 (srcPin c0 c lane wide a) lane wide b) lane wide d none

/-- Tags of `mov` in one lane. -/
def tagMov (c0 c : Clutch) (lane : Nat) (wide : Bool) (d a : Reg) : Clutch :=
  if c0.region.isNone then c
  else match fullTag c0 lane wide a with
    | some t => if isVec d || isScl d then tagDest c lane wide d (some t)
        else if d == .zero then c else srcPin c0 c lane wide (.reg a)
    | none => tagDest (srcPin c0 c lane wide (.reg a)) lane wide d none

/-- The constraint that a comparison records in one lane, none when it records none (10 R372, R373). -/
def constrOf (c0 : Clutch) (lane : Nat) (cc : Cmp) (sgnd wide : Bool) (a b : TagSrc) (x y : Nat) (r : Bool) : Option Constr :=
  match srcTag c0 lane wide a, srcTag c0 lane wide b with
  | some t, none => if srcAny c0 lane wide b then none
      else some { cc := cc, signed := sgnd, wide := wide, slot := t.slot, c := t.c, y := BitVec.ofNat 64 y, symLeft := true,
                  lane := lane, result := r }
  | none, some t => if srcAny c0 lane wide a then none
      else some { cc := cc, signed := sgnd, wide := wide, slot := t.slot, c := t.c, y := BitVec.ofNat 64 x, symLeft := false,
                  lane := lane, result := r }
  | _, _ => none

/-- Record constraints, each once; none when the region's 64 are exceeded (10 R375). -/
def addConstrs (c : Clutch) : List Constr → Option Clutch
  | [] => some c
  | k :: t => match c.region with
    | none => some c
    | some g =>
      if g.constrs.contains k then addConstrs c t
      else if 64 ≤ g.constrs.length then none
      else addConstrs { c with region := some { g with constrs := g.constrs ++ [k] } } t

/-- Tags of a comparison over its lanes; none for CAPACITY. The destination is concrete. -/
def tagCmp (c0 c : Clutch) (lanes : List Nat) (cc : Cmp) (sgnd wide : Bool) (d : Reg) (a b : TagSrc)
    (x y : Nat → Nat) (r : Nat → Bool) : Option Clutch :=
  if c0.region.isNone then some c
  else
    let ks := lanes.filterMap (fun i => constrOf c0 i cc sgnd wide a b (x i) (y i) (r i))
    let c := lanes.foldl (fun c i =>
      if (constrOf c0 i cc sgnd wide a b (x i) (y i) (r i)).isSome then c
      else srcPin c0 (srcPin c0 c i wide a) i wide b) c
    let c := lanes.foldl (fun c i => setTag c i d none) c
    addConstrs c ks

end Sys2Proof.Machine
end

