-- ==== Sys2Proof/Machine/Integer.lean ====
section
/-! DEFINITION. Integer instructions (10 R339 to R344, 08 R299). -/

namespace Sys2Proof.Machine

abbrev Out := Host.Outcome State Fault Refusal

/-- Two-source words whose second source has the word's type. -/
def binWord (t : Ty) (d a : Reg) (b : Opnd) (f : Nat → Nat → Nat × Fl) : Ctx → State → Res :=
  aluWord d (tyWide t) (fun s c i => f (rdN s c i (tyWide t) a) (opN s c i t b))

/-- Two-source words whose second source is a 32-bit operand (10 R339). -/
def shiftWord (t : Ty) (d a : Reg) (b : Opnd) (f : Nat → Nat → Nat) : Ctx → State → Res :=
  aluWord d (tyWide t) (fun s c i => (f (rdN s c i (tyWide t) a) (op32 s c i t b), 0))

/-- One-source words. -/
def unWord (wide : Bool) (t : Ty) (d a : Reg) (f : Nat → Nat) : Ctx → State → Res :=
  aluWord d wide (fun s c i => (f (rdN s c i (tyWide t) a), 0))

def opndSrc : Opnd → TagSrc | .reg r => .reg r | .imm _ => .val
def cmpSrc : CmpOpnd → TagSrc | .reg r => .reg r | .imm _ => .val

/-- Lanes whose operands a word with destination D uses for tags: a uniform destination takes the lowest lane's (10 R372). -/
def tagLanes (ex : Mask) (d : Reg) : List Nat := if isScl d then [lowLane ex] else lanesOf ex

/-- `add` and `sub` with their region tags (10 R339, R372). -/
def addSubWord (sub : Bool) (t : Ty) (d a : Reg) (b : Opnd) (x : Ctx) (s : State) : Res :=
  let w := tyWide t
  let f := fun (s : State) (c : Clutch) (i : Nat) =>
    ((if sub then iSub (tyBits t) (rdN s c i w a) (opN s c i t b) else iAdd (tyBits t) (rdN s c i w a) (opN s c i t b)), (0 : Fl))
  let c0 := clutchAt s x.cid
  match aluWord d w f x s with
  | .done s1 j =>
    if c0.region.isNone then .done s1 j
    else
      let c1 := (tagLanes x.ex d).foldl (fun c i =>
        tagAddSub c0 c i sub w d (.reg a) (opndSrc b) (rdN s c0 i w a) (opN s c0 i t b)) (clutchAt s1 x.cid)
      .done (setClutch s1 x.cid c1) j
  | r => r

def execAdd (h : Hdr) (t : Ty) (d a : Reg) (b : Opnd) (s : State) : Out :=
  word (.add h t d a b) s (addSubWord false t d a b)

def execSub (h : Hdr) (t : Ty) (d a : Reg) (b : Opnd) (s : State) : Out :=
  word (.sub h t d a b) s (addSubWord true t d a b)

/-- The two results of `addc` and `subb`, low word first (10 R342). -/
def addcVal (a b c : Nat) : Nat := (a + b + c % 2) % 2 ^ 32 + (a + b + c % 2) / 2 ^ 32 * 2 ^ 32
def subbVal (a b c : Nat) : Nat :=
  wrapNat 32 ((a : Int) - (b : Int) - ((c % 2 : Nat) : Int)) + (if a < b + c % 2 then 2 ^ 32 else 0)

def execAddc (h : Hdr) (d a b : Reg) (c : Opnd) (s : State) : Out :=
  word (.addc h d a b c) s (aluWord d true (fun s k i =>
    (addcVal (rd32 s k i a).toNat (rd32 s k i b).toNat (op32 s k i .n32 c), 0)))

def execSubb (h : Hdr) (d a b : Reg) (c : Opnd) (s : State) : Out :=
  word (.subb h d a b c) s (aluWord d true (fun s k i =>
    (subbVal (rd32 s k i a).toNat (rd32 s k i b).toNat (op32 s k i .n32 c), 0)))

def execMul (h : Hdr) (t : Ty) (d a : Reg) (b : Opnd) (s : State) : Out :=
  word (.mul h t d a b) s (binWord t d a b (fun x y => (iMul (tyBits t) x y, 0)))

def execMulh (h : Hdr) (t : Ty) (d a : Reg) (b : Opnd) (s : State) : Out :=
  word (.mulh h t d a b) s (binWord t d a b (fun x y => (iMulh t x y, 0)))

def execMad (h : Hdr) (t : Ty) (d a b : Reg) (c : Opnd) (s : State) : Out :=
  word (.mad h t d a b c) s (aluWord d (tyWide t) (fun s k i =>
    (iAdd (tyBits t) (iMul (tyBits t) (rdN s k i (tyWide t) a) (rdN s k i (tyWide t) b)) (opN s k i t c), 0)))

def execDiv (h : Hdr) (t : Ty) (d a : Reg) (b : Opnd) (s : State) : Out :=
  word (.div h t d a b) s (binWord t d a b (iDiv t))

def execRem (h : Hdr) (t : Ty) (d a : Reg) (b : Opnd) (s : State) : Out :=
  word (.rem h t d a b) s (binWord t d a b (iRem t))

def execNeg (h : Hdr) (t : Ty) (d a : Reg) (s : State) : Out :=
  word (.neg h t d a) s (unWord (tyWide t) t d a (iNeg (tyBits t)))

def execAbs (h : Hdr) (t : Ty) (d a : Reg) (s : State) : Out :=
  word (.abs h t d a) s (unWord (tyWide t) t d a (iAbs t))

def execMin (h : Hdr) (t : Ty) (d a : Reg) (b : Opnd) (s : State) : Out :=
  word (.min h t d a b) s (binWord t d a b (fun x y => (iMin t x y, 0)))

def execMax (h : Hdr) (t : Ty) (d a : Reg) (b : Opnd) (s : State) : Out :=
  word (.max h t d a b) s (binWord t d a b (fun x y => (iMax t x y, 0)))

def execAnd (h : Hdr) (t : Ty) (d a : Reg) (b : Opnd) (s : State) : Out :=
  word (.and h t d a b) s (binWord t d a b (fun x y => (iAnd x y, 0)))

def execOr (h : Hdr) (t : Ty) (d a : Reg) (b : Opnd) (s : State) : Out :=
  word (.or h t d a b) s (binWord t d a b (fun x y => (iOr x y, 0)))

def execXor (h : Hdr) (t : Ty) (d a : Reg) (b : Opnd) (s : State) : Out :=
  word (.xor h t d a b) s (binWord t d a b (fun x y => (iXor x y, 0)))

def execNot (h : Hdr) (t : Ty) (d a : Reg) (s : State) : Out :=
  word (.not h t d a) s (unWord (tyWide t) t d a (iNot (tyBits t)))

def execAndn (h : Hdr) (t : Ty) (d a : Reg) (b : Opnd) (s : State) : Out :=
  word (.andn h t d a b) s (binWord t d a b (fun x y => (iAndn (tyBits t) x y, 0)))

def execShl (h : Hdr) (t : Ty) (d a : Reg) (b : Opnd) (s : State) : Out :=
  word (.shl h t d a b) s (shiftWord t d a b (iShl (tyBits t)))

def execShr (h : Hdr) (t : Ty) (d a : Reg) (b : Opnd) (s : State) : Out :=
  word (.shr h t d a b) s (shiftWord t d a b (iShr (tyBits t)))

def execSar (h : Hdr) (t : Ty) (d a : Reg) (b : Opnd) (s : State) : Out :=
  word (.sar h t d a b) s (shiftWord t d a b (iSar (tyBits t)))

def execRotl (h : Hdr) (t : Ty) (d a : Reg) (b : Opnd) (s : State) : Out :=
  word (.rotl h t d a b) s (shiftWord t d a b (iRotl (tyBits t)))

def execClz (h : Hdr) (t : Ty) (d a : Reg) (s : State) : Out :=
  word (.clz h t d a) s (unWord false t d a (iClz (tyBits t)))

def execCtz (h : Hdr) (t : Ty) (d a : Reg) (s : State) : Out :=
  word (.ctz h t d a) s (unWord false t d a (iCtz (tyBits t)))

def execPopc (h : Hdr) (t : Ty) (d a : Reg) (s : State) : Out :=
  word (.popc h t d a) s (unWord false t d a (iPopc (tyBits t)))

def execBrev (h : Hdr) (t : Ty) (d a : Reg) (s : State) : Out :=
  word (.brev h t d a) s (unWord (tyWide t) t d a (iBrev (tyBits t)))

def execBfx (h : Hdr) (t : Ty) (d a b : Reg) (c : Opnd) (s : State) : Out :=
  word (.bfx h t d a b c) s (aluWord d (tyWide t) (fun s k i =>
    (iBfx t (rdN s k i (tyWide t) a) (rd32 s k i b).toNat (op32 s k i t c), 0)))

def execBfi (h : Hdr) (t : Ty) (d a b : Reg) (c : Opnd) (s : State) : Out :=
  word (.bfi h t d a b c) s (aluWord d (tyWide t) (fun s k i =>
    (iBfi (tyBits t) (rdN s k i (tyWide t) d) (rdN s k i (tyWide t) a) (rd32 s k i b).toNat (op32 s k i t c), 0)))

def execSel (h : Hdr) (t : Ty) (d a b : Reg) (c : Opnd) (s : State) : Out :=
  word (.sel h t d a b c) s (aluWord d (tyWide t) (fun s k i =>
    (if op32 s k i t c = 0 then rdN s k i (tyWide t) b else rdN s k i (tyWide t) a, 0)))

/-- `cmp` with its constraints inside a region (10 R343, R372). -/
def cmpWord (cc : Cmp) (t : Ty) (d a : Reg) (b : CmpOpnd) (x : Ctx) (s : State) : Res :=
  let w := tyWide t
  let c0 := clutchAt s x.cid
  let res := fun i => iCmp cc t (rdN s c0 i w a) (opCmp s c0 i t b)
  let c1 := wrAll c0 x.ex false d (fun i => if res i then 1 else 0)
  match tagCmp c0 c1 (lanesOf x.ex) cc (tySigned t) w d (.reg a) (cmpSrc b) (fun i => rdN s c0 i w a) (fun i => opCmp s c0 i t b) res with
  | none => .abort stCapacity
  | some c => .done (setClutch s x.cid c) 0

def execCmp (h : Hdr) (cc : Cmp) (t : Ty) (d a : Reg) (b : CmpOpnd) (s : State) : Out :=
  word (.cmp h cc t d a b) s (cmpWord cc t d a b)

def execIsat (h : Hdr) (t src : Ty) (d a : Reg) (s : State) : Out :=
  word (.isat h t src d a) s (aluWord d false (fun s c i => iSat t src (rdN s c i (tyWide src) a)))

end Sys2Proof.Machine
end

