-- ==== Sys2Proof/Machine/Moves.lean ====
section
/-! DEFINITION. Address registers, moves and lane exchange (10 R345 to R351). -/

namespace Sys2Proof.Machine

/-! ### Address registers (10 R345) -/

def aNum : Reg → Nat | .a n => n.val | _ => 0

def execAset (h : Hdr) (pr pw px : Bool) (d a b c : Reg) (s : State) : Out :=
  word (.aset h pr pw px d a b c) s (fun x s =>
    let k := clutchAt s x.cid
    let base := rd64 s k 0 a
    let ptr := if c == .zero then (base.setWidth 56).setWidth 64 else rd64 s k 0 c
    .done (setClutch s x.cid (setA k (aNum d)
      { ptr := ptr, base := base.setWidth 56, limit := (rd64 s k 0 b).setWidth 56, r := pr, w := pw, x := px })) 0)

/-- The new pointer of `aadv` lies in [BASE, LIMIT) (05 R170). -/
def aadvOk (r : AReg) (n : Dword) : Bool := r.base.toNat ≤ n.toNat && n.toNat < r.limit.toNat

def execAadv (h : Hdr) (d a : Reg) (b : Opnd) (s : State) : Out :=
  word (.aadv h d a b) s (fun x s =>
    let k := clutchAt s x.cid
    let r := getA k (aNum a)
    let n := r.ptr + (BitVec.ofNat 32 (op32 s k 0 .i32 b)).signExtend 64
    if aadvOk r n then .done (setClutch s x.cid (setA k (aNum d) { r with ptr := n })) 0
    else .trap cBounds n x.ex)

def agetVal (f : AField) (r : AReg) : Nat :=
  match f with
  | .ptr => r.ptr.toNat
  | .base => r.base.toNat
  | .limit => r.limit.toNat
  | .perm => (if r.r then 1 else 0) + (if r.w then 2 else 0) + (if r.x then 4 else 0)

def execAget (h : Hdr) (f : AField) (d a : Reg) (s : State) : Out :=
  word (.aget h f d a) s (aluWord d (f != .perm) (fun _ c _ => (agetVal f (getA c (aNum a)), 0)))

def execAmov (h : Hdr) (d a : Reg) (s : State) : Out :=
  word (.amov h d a) s (fun x s =>
    let k := clutchAt s x.cid
    .done (setClutch s x.cid (setA k (aNum d) (getA k (aNum a)))) 0)

/-! ### Moves (10 R346) -/

def execMov (h : Hdr) (t : Ty) (d a : Reg) (s : State) : Out :=
  word (.mov h t d a) s (fun x s =>
    let c0 := clutchAt s x.cid
    match aluWord d (tyWide t) (fun s c i => (rdN s c i (tyWide t) a, 0)) x s with
    | .done s1 j =>
      if c0.region.isNone then .done s1 j
      else .done (setClutch s1 x.cid ((tagLanes x.ex d).foldl (fun c i => tagMov c0 c i (tyWide t) d a) (clutchAt s1 x.cid))) j
    | r => r)

def execMovi (h : Hdr) (d : Reg) (i : BitVec 20) (s : State) : Out :=
  word (.movi h d i) s (aluWord d false (fun _ _ _ => ((i.signExtend 32).toNat, 0)))

def execMovh (h : Hdr) (d : Reg) (i : BitVec 20) (s : State) : Out :=
  word (.movh h d i) s (aluWord d false (fun s c k => (i.toNat * 4096 + (rd32 s c k d).toNat % 4096, 0)))

/-! ### Lane exchange (10 R347 to R350) -/

/-- Pin, in each executing lane, the tag of the register read in another lane (10 R372). -/
def pinCross (c : Clutch) (ex : Mask) (rs : List Reg) (j : Nat → Nat) : Clutch :=
  (lanesOf ex).foldl (fun c i => rs.foldl (fun c r => pinReg c (j i) r) c) c

def execShfl (h : Hdr) (m : ShflMode) (t : Ty) (d a : Reg) (b : Opnd5) (s : State) : Out :=
  word (.shfl h m t d a b) s (fun x s =>
    let c := clutchAt s x.cid
    let j := fun i => shflLane (isHost c) m i (op5 s c i b)
    let s := setClutch s x.cid (untagRegs (pinCross (pinRegs c x.ex (rg5 b)) x.ex (rg (tyWide t) a) j) x.ex (rg (tyWide t) d))
    aluLong d (tyWide t) (fun s c i => (rdN s c (j i) (tyWide t) a, 0)) x s)

def execBcast (h : Hdr) (t : Ty) (d a : Reg) (b : Opnd) (s : State) : Out :=
  word (.bcast h t d a b) s (fun x s =>
    let c := clutchAt s x.cid
    let j := bcastLane (isHost c) (op32 s c (lowLane x.ex) .b32 b)
    let s := setClutch s x.cid (untagRegs (pinCross (pinRegs c x.ex (rgO false b)) x.ex (rg (tyWide t) a) (fun _ => j)) x.ex
      (rg (tyWide t) d))
    aluLong d (tyWide t) (fun s c _ => (rdN s c j (tyWide t) a, 0)) x s)

/-- Result of `vote` over the executing lanes (10 R349). -/
def voteVal (f : VoteFn) (ex : Mask) (a : Nat → Nat) : Nat :=
  let ls := lanesOf ex
  match f with
  | .ballot => (maskOf (fun i => ex.getLsbD i && decide (a i ≠ 0))).toNat
  | .any => if ls.any (fun i => decide (a i ≠ 0)) then 1 else 0
  | .all => if ls.all (fun i => decide (a i ≠ 0)) then 1 else 0
  | .uni => if ls.all (fun i => decide (a i = a (lowLane ex))) then 1 else 0
  | .first => (ls.find? (fun i => decide (a i ≠ 0))).getD 32
  | .lead => lowLane ex

def execVote (h : Hdr) (f : VoteFn) (d a : Reg) (s : State) : Out :=
  word (.vote h f d a) s (fun x s =>
    aluLong d false (fun s c _ => (voteVal f x.ex (fun i => (rd32 s c i a).toNat), 0)) x s)

/-- Identity of a reduction (10 R350). -/
def redIdent (op : RedOp) (t : Ty) : Nat :=
  match op with
  | .add => if t == .f32 then 0x80000000 else 0
  | .min => if t == .f32 then 0x7F800000 else wrapNat (tyBits t) (tyMax t)
  | .max => if t == .f32 then 0xFF800000 else wrapNat (tyBits t) (tyMin t)
  | .and => 2 ^ tyBits t - 1
  | .or => 0
  | .xor => 0

/-- One step of a reduction (10 R350). -/
def redStep (rm : Rnd) (ftz : Bool) (op : RedOp) (t : Ty) (x y : Nat) : Nat × Fl :=
  match op with
  | .add => if t == .f32 then fpAdd t rm ftz x y else (iAdd (tyBits t) x y, 0)
  | .min => if t == .f32 then fpMinMax t ftz false x y else (iMin t x y, 0)
  | .max => if t == .f32 then fpMinMax t ftz true x y else (iMax t x y, 0)
  | .and => (iAnd x y, 0)
  | .or => (iOr x y, 0)
  | .xor => (iXor x y, 0)

/-- Running results over a list of (lane, value): before and after each step, flags, and the total (10 R350). -/
def redRun (f : Nat → Nat → Nat × Fl) : List (Nat × Nat) → Nat → Fl → List (Nat × Nat × Nat) × Nat × Fl
  | [], t, fl => ([], t, fl)
  | (i, a) :: rest, t, fl =>
    let r := f t a
    let q := redRun f rest r.1 (fl ||| r.2)
    ((i, t, r.1) :: q.1, q.2)

/-- Reduction over the executing lanes. -/
def redAll (s : State) (c : Clutch) (ex : Mask) (op : RedOp) (t : Ty) (a : Reg) : List (Nat × Nat × Nat) × Nat × Fl :=
  redRun (redStep (rmOf c) (ftzOf c) op t) ((lanesOf ex).map (fun i => (i, rdN s c i (tyWide t) a))) (redIdent op t) 0

def execRedux (h : Hdr) (op : RedOp) (t : Ty) (d a : Reg) (s : State) : Out :=
  word (.redux h op t d a) s (fun x s =>
    aluLong d (tyWide t) (fun s c _ => (redAll s c x.ex op t a).2) x s)

def execScan (h : Hdr) (op : RedOp) (excl : Bool) (t : Ty) (d a : Reg) (s : State) : Out :=
  word (.scan h op excl t d a) s (fun x s =>
    aluLong d (tyWide t) (fun s c i =>
      let r := redAll s c x.ex op t a
      (match r.1.find? (fun p => p.1 = i) with
       | some p => if excl then p.2.1 else p.2.2
       | none => 0, r.2.2)) x s)

/-! ### Packing (10 R351) -/

def execPack (h : Hdr) (t : Ty) (sat : Bool) (d a : Reg) (b : Opnd5) (s : State) : Out :=
  word (.pack h t sat d a b) s (aluWord d false (fun s c i =>
    iPack t sat (rd32 s c i d).toNat (rd32 s c i a).toNat (op5 s c i b)))

def execUnpack (h : Hdr) (t : Ty) (d a : Reg) (b : Opnd) (s : State) : Out :=
  word (.unpack h t d a b) s (aluWord d false (fun s c i =>
    (iUnpack t (rd32 s c i a).toNat (op32 s c i t b), 0)))

end Sys2Proof.Machine
end

