-- ==== Sys2Proof/Machine/Control.lean ====
section
/-! DEFINITION. Control flow and masks (10 R352 to R356, 05 R163 to R168). -/

namespace Sys2Proof.Machine

/-- Target of a DISP field (09 R315). -/
def dispTo (ia : BitVec 53) (d : BitVec 20) : BitVec 53 := ia + d.signExtend 53

/-- Word address of a 64-bit target. -/
def wordAddr (t : Dword) : BitVec 53 := BitVec.ofNat 53 (bits t.toNat 3 53)

/-- Executing lanes go to their targets. -/
def jumpLanes (c : Clutch) (ex : Mask) (tgt : Nat → BitVec 53) : Clutch := modLanes c ex (fun i l => { l with pc := tgt i })

/-- The cause with which a target is refused (10 R352), 0 for none. -/
def targetFault (c : Clutch) (r : Reg) (t : Dword) : Nat :=
  if bits t.toNat 56 8 ≠ 0 then cWindow
  else if bits t.toNat 0 3 ≠ 0 then cMisalign
  else match baseReg c r with
    | none => 0
    | some a =>
      if t.toNat < a.base.toNat ∨ a.limit.toNat ≤ t.toNat then cBounds
      else if !a.x then cProtection else 0

/-- The trap of the lowest failing lane; `cause` gives 0 for a lane that passes. -/
def laneTrap (ex : Mask) (cause : Nat → Nat) (addr : Nat → Dword) : Option Res :=
  match (lanesOf ex).find? (fun i => decide (cause i ≠ 0)) with
  | none => none
  | some i => some (.trap (cause i) (addr i) (maskOf (fun k => ex.getLsbD k && decide (cause k ≠ 0))))

/-- A call of advance 8n by one lane (05 R167): the two link words, the window, the target. `wbv` is taken modulo 2^13, which a host
core's stack range can pass (log 111). -/
def callLane (c : Clutch) (i n : Nat) (ia : BitVec 53) (tgt : BitVec 53) : Clutch :=
  let link : Nat := (ia + 1).toNat * 16 + n
  let c := setV c i (8 * n + 14) (BitVec.ofNat 32 link)
  let c := setV c i (8 * n + 15) (BitVec.ofNat 32 (link / 2 ^ 32))
  modLane c i (fun l => { l with wbv := l.wbv + BitVec.ofNat 13 n, pc := tgt })

def callLanes (c : Clutch) (n : Nat) (ia : BitVec 53) (tgt : Nat → BitVec 53) : List Nat → Clutch
  | [] => c
  | i :: t => callLanes (callLane c i n ia (tgt i)) n ia tgt t

/-- The lane has no room for a window advanced by n (05 R167, R198). -/
def callFault (s : State) (c : Clutch) (i n : Nat) : Nat := if windowFits s c i n then 0 else cStack

def execBr (h : Hdr) (disp : BitVec 20) (s : State) : Out :=
  word (.br h disp) s (fun x s =>
    .done (modClutch s x.cid (fun c => jumpLanes c x.ex (fun _ => dispTo x.ia disp))) x.ex)

def execBrx (h : Hdr) (a : Reg) (s : State) : Out :=
  word (.brx h a) s (fun x s =>
    let c := clutchAt s x.cid
    let t := fun i => baseVal s c i a
    match laneTrap x.ex (fun i => targetFault c a (t i)) t with
    | some r => r
    | none => .done (setClutch s x.cid (jumpLanes c x.ex (fun i => wordAddr (t i)))) x.ex)

def execCall (h : Hdr) (n : BitVec 5) (disp : BitVec 20) (s : State) : Out :=
  word (.call h n disp) s (fun x s =>
    let c := clutchAt s x.cid
    match laneTrap x.ex (fun i => callFault s c i n.toNat) (fun _ => 0) with
    | some r => r
    | none => .done (setClutch s x.cid (callLanes c n.toNat x.ia (fun _ => dispTo x.ia disp) (lanesOf x.ex))) x.ex)

def execCallx (h : Hdr) (n : BitVec 5) (a : Reg) (s : State) : Out :=
  word (.callx h n a) s (fun x s =>
    let c := clutchAt s x.cid
    let t := fun i => baseVal s c i a
    let f := fun i => if targetFault c a (t i) ≠ 0 then targetFault c a (t i) else callFault s c i n.toNat
    match laneTrap x.ex f (fun i => if targetFault c a (t i) ≠ 0 then t i else 0) with
    | some r => r
    | none => .done (setClutch s x.cid (callLanes c n.toNat x.ia (fun i => wordAddr (t i)) (lanesOf x.ex))) x.ex)

/-- The link of a lane whose window base is w > 0 (05 R168). -/
def linkOf (s : State) (c : Clutch) (i w : Nat) : Nat :=
  (getPlace s c (.st i (8 * w - 2))).toNat + 2 ^ 32 * (getPlace s c (.st i (8 * w - 1))).toNat

/-- Lanes of a mask that return by exit (05 R168). -/
def retExits (c : Clutch) (ex : Mask) : Mask := maskOf (fun i => ex.getLsbD i && decide ((laneAt c i).wbv = 0))

/-- The link of a returning lane is refused (05 R168). -/
def retFault (s : State) (c : Clutch) (i : Nat) : Nat :=
  let w := (laneAt c i).wbv.toNat
  let n := linkOf s c i w % 16
  if w = 0 then 0 else if n = 0 ∨ 13 < n ∨ w < n then cStack else 0

def execRet (h : Hdr) (s : State) : Out :=
  word (.ret h) s (fun x s =>
    let c := clutchAt s x.cid
    let out := retExits c x.ex
    match laneTrap x.ex (retFault s c) (fun _ => 0) with
    | some r => r
    | none =>
      if c.region.isSome ∧ out ≠ 0 then .abort stIllegal
      else
        let back := x.ex &&& ~~~out
        let c1 := modLanes c back (fun i l =>
          let k := linkOf s c i l.wbv.toNat
          { l with wbv := l.wbv - BitVec.ofNat 13 (k % 16), pc := BitVec.ofNat 53 (k / 16) })
        .done (setClutch s x.cid (exitLanes c1 out)) back)

def execExit (h : Hdr) (s : State) : Out :=
  word (.exit h) s (fun x s => .done (modClutch s x.cid (fun c => exitLanes c x.ex)) 0)

def execKjoin (h : Hdr) (k : Fin 12) (s : State) : Out :=
  word (.kjoin h k) s (fun x s => .done (modClutch s x.cid (fun c => setK c k.val (getK c k.val ||| x.ex))) 0)

def execKleave (h : Hdr) (k : Fin 12) (s : State) : Out :=
  word (.kleave h k) s (fun x s => .done (modClutch s x.cid (fun c => setK c k.val (getK c k.val &&& ~~~x.ex))) 0)

/-- Lanes arrive; the release is evaluated when the word is done (05 R164; log 16). -/
def execKwait (h : Hdr) (k : Fin 12) (s : State) : Out :=
  word (.kwait h k) s (fun x s =>
    .done (modClutch s x.cid (fun c => modLanes c x.ex (fun _ l => { l with kwait := some k }))) 0)

def kopVal (op : KOp) (a b : Mask) : Mask :=
  match op with
  | .and => a &&& b | .or => a ||| b | .xor => a ^^^ b | .andn => a &&& ~~~b | .mov => a | .not => ~~~a

def execKop (h : Hdr) (op : KOp) (d : Fin 12) (a : Reg) (b : Opnd) (s : State) : Out :=
  word (.kop h op d a b) s (fun x s =>
    let c := clutchAt s x.cid
    let bv := match op with
      | .mov => 0
      | .not => 0
      | _ => op32 s c 0 .b32 b
    .done (setClutch s x.cid (setK c d.val (kopVal op (rd32 s c 0 a) (BitVec.ofNat 32 bv)))) 0)

/-- Bits of executing lanes take the comparison, the others keep theirs (10 R355). -/
def kcmpMask (old ex : Mask) (r : Nat → Bool) : Mask :=
  (old &&& ~~~ex) ||| maskOf (fun i => ex.getLsbD i && r i)

def execKcmp (h : Hdr) (cc : Cmp) (t : Ty) (k : Fin 12) (a : Reg) (b : CmpOpnd) (s : State) : Out :=
  word (.kcmp h cc t k a b) s (fun x s =>
    let w := tyWide t
    let c := clutchAt s x.cid
    let res := fun i => iCmp cc t (rdN s c i w a) (opCmp s c i t b)
    let c1 := setK c k.val (kcmpMask (getK c k.val) x.ex res)
    match tagCmp c c1 (lanesOf x.ex) cc (tySigned t) w .zero (.reg a) (cmpSrc b) (fun i => rdN s c i w a) (fun i => opCmp s c i t b) res with
    | none => .abort stCapacity
    | some c => .done (setClutch s x.cid c) 0)

def execYield (h : Hdr) (s : State) : Out :=
  word (.yield h) s (fun x s => .done (modClutch s x.cid (fun c => { c with yielded := true })) 0)

def execNop (h : Hdr) (s : State) : Out :=
  word (.nop h) s (fun _ s => .done s 0)

end Sys2Proof.Machine
end

