-- ==== Sys2Proof/Machine/Dual.lean ====
section
/-! DEFINITION. Dual words (09 R321 to R325): both slots read before either writes, slot 1 prevails. -/

namespace Sys2Proof.Machine

/-- Vector registers that a slot reads, for bank pairing (09 R324). -/
def slotBankRegs (z : Slot) : List Nat :=
  let v : Reg → List Nat := fun r => match r with | .v n => [n.val] | _ => []
  match z with
  | .bin _ d s => v d ++ v s
  | .binImm _ _ s _ => v s
  | .un _ _ s => v s
  | .kcmp _ _ s _ => v s
  | _ => []

/-- Some bank is read by both slots (09 R324). -/
def pairClash (s0 s1 : Slot) : Bool :=
  (slotBankRegs s0).any (fun a => (slotBankRegs s1).any (fun b => a % 4 = b % 4))

/-- Result of a register-form slot (09 R325). -/
def slotBin (rm : Rnd) (ftz : Bool) (op : SlotOp) (a b : Nat) : Nat × Fl :=
  match op with
  | .add => (iAdd 32 a b, 0) | .sub => (iSub 32 a b, 0) | .mul => (iMul 32 a b, 0)
  | .and => (iAnd a b, 0) | .or => (iOr a b, 0) | .xor => (iXor a b, 0) | .andn => (iAndn 32 a b, 0)
  | .shl => (iShl 32 a (b % 32), 0) | .shr => (iShr 32 a (b % 32), 0) | .sar => (iSar 32 a (b % 32), 0)
  | .minI => (iMin .i32 a b, 0) | .maxI => (iMax .i32 a b, 0)
  | .minN => (iMin .n32 a b, 0) | .maxN => (iMax .n32 a b, 0)
  | .fadd => fpAdd .f32 rm ftz a b | .fsub => fpSub .f32 rm ftz a b | .fmul => fpMul .f32 rm ftz a b
  | .fmin => fpMinMax .f32 ftz false a b | .fmax => fpMinMax .f32 ftz true a b

/-- Immediate of a slot: sign-extended, for shifts zero-extended (09 R323). -/
def slotImm (op : SlotImmOp) (i : BitVec 8) : Nat :=
  match op with
  | .shl | .shr | .sar => i.toNat
  | _ => (i.signExtend 32).toNat

def slotBinImm (op : SlotImmOp) (a b : Nat) : Nat :=
  match op with
  | .add => iAdd 32 a b | .sub => iSub 32 a b | .mul => iMul 32 a b
  | .and => iAnd a b | .or => iOr a b | .xor => iXor a b
  | .shl => iShl 32 a b | .shr => iShr 32 a b | .sar => iSar 32 a b
  | .minI => iMin .i32 a b | .maxI => iMax .i32 a b

def slotUn (op : SlotUnOp) (a : Nat) : Nat :=
  match op with
  | .mov => a | .not => iNot 32 a | .neg => iNeg 32 a | .popc => iPopc 32 a | .clz => iClz 32 a

def slotK (op : SlotKOp) (a b : Mask) : Mask :=
  match op with
  | .and => a &&& b | .or => a ||| b | .xor => a ^^^ b | .andn => a &&& ~~~b | .mov => b

def slotCc (c : SlotCmp) : Cmp := match c with | .eq => .eq | .ne => .ne | .lt => .lt | .ge => .ge

/-- A data result of a slot in a lane of the clutch before the word: value and flags; none for the other kinds. -/
def slotVal (s : State) (c0 : Clutch) (i : Nat) : Slot → Option (Reg × Nat × Fl)
  | .bin op d r => some (d, slotBin (rmOf c0) (ftzOf c0) op (rd32 s c0 i d).toNat (rd32 s c0 i r).toNat)
  | .binImm op d r m => some (d, slotBinImm op (rd32 s c0 i r).toNat (slotImm op m), 0)
  | .un op d r => some (d, slotUn op (rd32 s c0 i r).toNat, 0)
  | .movi d m => some (d, (m.signExtend 32).toNat, 0)
  | _ => none

/-- Write a slot's results into `c`; `c0` is the clutch before the word. -/
def slotWrite (s : State) (c0 : Clutch) (ex : Mask) (z : Slot) (c : Clutch) : Clutch :=
  match z with
  | .kop op d r => setK c d.val (slotK op (getK c0 d.val) (getK c0 r.val))
  | .kcmp cc d r m =>
    setK c d.val (kcmpMask (getK c0 d.val) ex (fun i =>
      cmpInt (slotCc cc) (sgn 32 (rd32 s c0 i r).toNat) (sgn 8 m.toNat)))
  | .aadv d m =>
    let r := getA c0 d.val
    setA c d.val { r with ptr := r.ptr + m.signExtend 64 }
  | .nop => c
  | _ =>
    match slotVal s c0 (lowLane ex) z with
    | none => c
    | some (d, _, _) =>
      let f := fun i => match slotVal s c0 i z with | some p => p.2 | none => (0, 0)
      let c1 := wrAll c ex false d (fun i => (f i).1)
      { c1 with flags := c1.flags ||| (lanesOf ex).foldl (fun (a : Fl) i => a ||| (f i).2) 0 }

/-- A slot's trap: an `aadv` that leaves its range (05 R170). -/
def slotTrap (c0 : Clutch) (ex : Mask) : Slot → Option Res
  | .aadv d m =>
    let r := getA c0 d.val
    let n := r.ptr + m.signExtend 64
    if aadvOk r n then none else some (.trap cBounds n ex)
  | _ => none

/-- Region tags of a slot (10 R372): as its full-form counterpart; none for CAPACITY. -/
def slotTags (s : State) (c0 : Clutch) (ex : Mask) (z : Slot) (c : Clutch) : Option Clutch :=
  if c0.region.isNone then some c
  else
    let pinAll := fun (c : Clutch) => (lanesOf ex).foldl (fun c i => (slotReads z).foldl (fun c r => srcPin c0 c i false (.reg r)) c) c
    let plain := fun (c : Clutch) => untagRegs (pinAll c) ex (slotWrites z)
    match z with
    | .bin .add d r => some ((tagLanes ex d).foldl (fun c i =>
        tagAddSub c0 c i false false d (.reg d) (.reg r) (rd32 s c0 i d).toNat (rd32 s c0 i r).toNat) c)
    | .bin .sub d r => some ((tagLanes ex d).foldl (fun c i =>
        tagAddSub c0 c i true false d (.reg d) (.reg r) (rd32 s c0 i d).toNat (rd32 s c0 i r).toNat) c)
    | .binImm .add d r m => some ((tagLanes ex d).foldl (fun c i =>
        tagAddSub c0 c i false false d (.reg r) .val (rd32 s c0 i r).toNat (slotImm .add m)) c)
    | .binImm .sub d r m => some ((tagLanes ex d).foldl (fun c i =>
        tagAddSub c0 c i true false d (.reg r) .val (rd32 s c0 i r).toNat (slotImm .sub m)) c)
    | .un .mov d r => some ((tagLanes ex d).foldl (fun c i => tagMov c0 c i false d r) c)
    | .kcmp cc _ r m =>
      tagCmp c0 c (lanesOf ex) (slotCc cc) true false .zero (.reg r) .val (fun i => (rd32 s c0 i r).toNat)
        (fun _ => (m.signExtend 32).toNat) (fun i => cmpInt (slotCc cc) (sgn 32 (rd32 s c0 i r).toNat) (sgn 8 m.toNat))
    | _ => some (plain c)

def dualWord (s0 s1 : Slot) (x : Ctx) (s : State) : Res :=
  let c0 := clutchAt s x.cid
  match slotTrap c0 x.ex s0, slotTrap c0 x.ex s1 with
  | some r, _ => r
  | none, some r => r
  | none, none =>
    let c := slotWrite s c0 x.ex s1 (slotWrite s c0 x.ex s0 c0)
    match slotTags s c0 x.ex s0 c with
    | none => .abort stCapacity
    | some c => match slotTags s c0 x.ex s1 c with
      | none => .abort stCapacity
      | some c => .done (setClutch s x.cid c) 0

def execDualWord (stop : Bool) (s0 s1 : Slot) (s : State) : Out :=
  match infoOf (.dualWord stop s0 s1) with
  | some w => .next (runWord s (.dualWord stop s0 s1) w (pairClash s0 s1) (dualWord s0 s1))
  | none => .next s

end Sys2Proof.Machine
end

