-- ==== Sys2Proof/Machine/Float.lean ====
section
/-! DEFINITION. Floating-point instructions, comparisons, conversions and dot products (11 R382 to R395). -/

namespace Sys2Proof.Machine

/-- Two-source floating-point words (11 R385). -/
def fbin (t : Ty) (rm : Rnd) (a : Reg) (b : Opnd) (f : Ty → Rnd → Bool → Nat → Nat → Nat × Fl)
    (s : State) (c : Clutch) (i : Nat) : Nat × Fl :=
  f t (rndOf c rm false) (ftzOf c) (rdN s c i (tyWide t) a) (opN s c i t b)

def execFadd (h : Hdr) (t : Ty) (rm : Rnd) (d a : Reg) (b : Opnd) (s : State) : Out :=
  word (.fadd h t rm d a b) s (aluWord d (tyWide t) (fbin t rm a b fpAdd))

def execFsub (h : Hdr) (t : Ty) (rm : Rnd) (d a : Reg) (b : Opnd) (s : State) : Out :=
  word (.fsub h t rm d a b) s (aluWord d (tyWide t) (fbin t rm a b fpSub))

def execFmul (h : Hdr) (t : Ty) (rm : Rnd) (d a : Reg) (b : Opnd) (s : State) : Out :=
  word (.fmul h t rm d a b) s (aluWord d (tyWide t) (fbin t rm a b fpMul))

def execFma (h : Hdr) (t : Ty) (rm : Rnd) (d a b : Reg) (c : Opnd) (s : State) : Out :=
  word (.fma h t rm d a b c) s (aluWord d (tyWide t) (fun s k i =>
    fpFma t (rndOf k rm false) (ftzOf k) (rdN s k i (tyWide t) a) (rdN s k i (tyWide t) b) (opN s k i t c)))

def execFdiv (h : Hdr) (t : Ty) (rm : Rnd) (d a : Reg) (b : Opnd) (s : State) : Out :=
  word (.fdiv h t rm d a b) s (aluLong d (tyWide t) (fbin t rm a b fpDiv))

def execFsqrt (h : Hdr) (t : Ty) (rm : Rnd) (d a : Reg) (s : State) : Out :=
  word (.fsqrt h t rm d a) s (aluLong d (tyWide t) (fun s c i =>
    fpSqrt t (rndOf c rm false) (ftzOf c) (rdN s c i (tyWide t) a)))

/-- The operations of bounded error (11 R387). -/
def fspecial (a : Reg) (f : Bool → Nat → Nat × Fl) (s : State) (c : Clutch) (i : Nat) : Nat × Fl :=
  f (ftzOf c) (rd32 s c i a).toNat

def execFrcp (h : Hdr) (d a : Reg) (s : State) : Out :=
  word (.frcp h d a) s (aluLong d false (fspecial a fpRcp))

def execFrsq (h : Hdr) (d a : Reg) (s : State) : Out :=
  word (.frsq h d a) s (aluLong d false (fspecial a fpRsq))

def execFex2 (h : Hdr) (d a : Reg) (s : State) : Out :=
  word (.fex2 h d a) s (aluLong d false (fspecial a fpEx2))

def execFlg2 (h : Hdr) (d a : Reg) (s : State) : Out :=
  word (.flg2 h d a) s (aluLong d false (fspecial a fpLg2))

def execFsin (h : Hdr) (d a : Reg) (s : State) : Out :=
  word (.fsin h d a) s (aluLong d false (fspecial a (fpTrig false)))

def execFcos (h : Hdr) (d a : Reg) (s : State) : Out :=
  word (.fcos h d a) s (aluLong d false (fspecial a (fpTrig true)))

def execFmin (h : Hdr) (t : Ty) (d a : Reg) (b : Opnd) (s : State) : Out :=
  word (.fmin h t d a b) s (aluWord d (tyWide t) (fun s c i =>
    fpMinMax t (ftzOf c) false (rdN s c i (tyWide t) a) (opN s c i t b)))

def execFmax (h : Hdr) (t : Ty) (d a : Reg) (b : Opnd) (s : State) : Out :=
  word (.fmax h t d a b) s (aluWord d (tyWide t) (fun s c i =>
    fpMinMax t (ftzOf c) true (rdN s c i (tyWide t) a) (opN s c i t b)))

def execFcmp (h : Hdr) (cc : Cmp) (t : Ty) (d a : Reg) (b : CmpOpnd) (s : State) : Out :=
  word (.fcmp h cc t d a b) s (fun x s =>
    let f := fun (s : State) (c : Clutch) (i : Nat) => fpCmp t (ftzOf c) cc (rdN s c i (tyWide t) a) (opCmp s c i t b)
    match d with
    | .k n =>
      let c := clutchAt s x.cid
      let fl := (lanesOf x.ex).foldl (fun (z : Fl) i => z ||| (f s c i).2) 0
      let c1 := setK c n.val (kcmpMask (getK c n.val) x.ex (fun i => (f s c i).1))
      .done (setClutch s x.cid { c1 with flags := c1.flags ||| fl }) 0
    | _ => aluWord d false (fun s c i => (if (f s c i).1 then 1 else 0, (f s c i).2)) x s)

def execFcls (h : Hdr) (t : Ty) (d a : Reg) (s : State) : Out :=
  word (.fcls h t d a) s (aluWord d false (fun s c i => (fpClass t (rdN s c i (tyWide t) a), 0)))

def execFrnd (h : Hdr) (t : Ty) (rm : Rnd) (d a : Reg) (s : State) : Out :=
  word (.frnd h t rm d a) s (aluWord d (tyWide t) (fun s c i =>
    fpInt t (rndOf c rm false) (ftzOf c) (rdN s c i (tyWide t) a)))

/-- The integer operand of `fscl`: an immediate is sign-extended (11 R389). -/
def execFscl (h : Hdr) (t : Ty) (rm : Rnd) (d a : Reg) (b : Opnd) (s : State) : Out :=
  word (.fscl h t rm d a b) s (aluWord d (tyWide t) (fun s c i =>
    fpScale t (rndOf c rm false) (ftzOf c) (rdN s c i (tyWide t) a) (op32 s c i .i32 b)))

/-! ### Conversions (11 R390 to R394) -/

/-- Random number of a lane: its LFSR stepped once (08 R291). -/
def lane24 (c : Clutch) (i : Nat) : Nat := (lfsrStep (laneAt c i).lfsr).toNat % 2 ^ 24

/-- Step the LFSR of every executing lane when the word rounds stochastically (08 R291). -/
def stepLfsr (c : Clutch) (ex : Mask) (rm : Rnd) : Clutch :=
  if rm == .sr then modLanes c ex (fun _ l => { l with lfsr := lfsrStep l.lfsr }) else c

/-- A converting word: results from the clutch before it, then the LFSRs step. -/
def convWord (d : Reg) (wide : Bool) (rm : Clutch → Rnd) (f : State → Clutch → Nat → Nat × Fl) (x : Ctx) (s : State) : Res :=
  let r := rm (clutchAt s x.cid)
  match aluWord d wide f x s with
  | .done s1 j => .done (modClutch s1 x.cid (fun c => stepLfsr c x.ex r)) j
  | q => q

/-- The block of a vector conversion: executing lanes' values, +0 for the others (11 R392). -/
def laneBlock (s : State) (c : Clutch) (ex : Mask) (v : State → Clutch → Nat → Fp) : List Fp :=
  (List.range 32).map (fun i => if ex.getLsbD i then v s c i else .fin false 0 0)

/-- A source element read under FTZ (11 R391). -/
def srcElem (st : Ty) (elem : Nat) (a : Reg) (s : State) (c : Clutch) (i : Nat) : Nat :=
  if tyBits st < 32 then bits (rd32 s c i a).toNat (elemBits st * elem) (elemBits st) else rdN s c i (tyWide st) a

/-- Result of `fcvt` in a lane. -/
def fcvtVal (dt st : Ty) (rm : Rnd) (sat : Bool) (elem : Nat) (a : Reg) (ex : Mask) (s : State) (c : Clutch) (i : Nat) : Nat × Fl :=
  let r := rndOf c rm (narrows dt st)
  let s24 := lane24 c i
  match bfpBits dt, bfpBits st with
  | some m, _ =>
    let v := fun (s : State) (c : Clutch) (k : Nat) => fpRead (ftzOf c) st (srcElem st elem a s c k)
    let e := bfpExp (laneBlock s c ex v)
    let q := bfpElem m r s24 e (v s c i)
    (e * 256 + wrapNat m q.1, q.2)
  | none, some m =>
    let w := (rd32 s c i a).toNat
    fpConvV dt r (ftzOf c) sat false s24 (bfpValue m (bits w 0 m) (bits w 8 8))
  | none, none => fpConv dt st r (ftzOf c) sat s24 (srcElem st elem a s c i)

def execFcvt (h : Hdr) (dt st : Ty) (rm : Rnd) (sat : Bool) (elem : BitVec 3) (d a : Reg) (s : State) : Out :=
  word (.fcvt h dt st rm sat elem d a) s (fun x s =>
    convWord d (tyWide dt) (fun c => rndOf c rm (narrows dt st)) (fcvtVal dt st rm sat elem.toNat a x.ex) x s)

/-- Result of `icvt` in a lane (11 R393, 08 R296). -/
def icvtVal (dt st : Ty) (rm : Rnd) (sat : Bool) (a : Reg) (s : State) (c : Clutch) (i : Nat) : Nat × Fl :=
  let r := rndOf c rm true
  let v := rdN s c i (tyWide st) a
  if tyInt dt then
    let q := fpToInt dt st r (ftzOf c) (lane24 c i) v
    (extTo dt q.1, q.2)
  else fpOfInt dt r (ftzOf c) sat (lane24 c i) (intOf st v)

def execIcvt (h : Hdr) (dt st : Ty) (rm : Rnd) (sat : Bool) (d a : Reg) (s : State) : Out :=
  word (.icvt h dt st rm sat d a) s (fun x s =>
    convWord d (tyWide dt) (fun c => rndOf c rm true) (icvtVal dt st rm sat a) x s)

/-- Result of `fpk` in a lane (11 R394). -/
def fpkVal (t : Ty) (rm : Rnd) (sat : Bool) (d a : Reg) (b : Opnd5) (s : State) (c : Clutch) (i : Nat) : Nat × Fl :=
  let w := elemBits t
  let e := op5 s c i b % (32 / w)
  let q := fpConv t .f32 (rndOf c rm true) (ftzOf c) sat (lane24 c i) (rd32 s c i a).toNat
  (setBits (rd32 s c i d).toNat (w * e) w q.1, q.2)

def execFpk (h : Hdr) (t : Ty) (rm : Rnd) (sat : Bool) (d a : Reg) (b : Opnd5) (s : State) : Out :=
  word (.fpk h t rm sat d a b) s (fun x s =>
    convWord d false (fun c => rndOf c rm true) (fpkVal t rm sat d a b) x s)

/-! ### Dot products (11 R395) -/

/-- The n packed elements of a register, read under FTZ. -/
def packed (ftz : Bool) (t : Ty) (n x : Nat) : List Fp :=
  (List.range n).map (fun e => fpRead ftz t (bits x (elemBits t * e) (elemBits t)))

def dotVal (t : Ty) (n : Nat) (rm : Rnd) (a b c : Reg) (s : State) (k : Clutch) (i : Nat) : Nat × Fl :=
  fpDot (rndOf k rm false) (ftzOf k)
    ((packed (ftzOf k) t n (rd32 s k i a).toNat).zip (packed (ftzOf k) t n (rd32 s k i b).toNat))
    (fpRead (ftzOf k) .f32 (rd32 s k i c).toNat)

def execFdot2 (h : Hdr) (t : Ty) (rm : Rnd) (d a b c : Reg) (s : State) : Out :=
  word (.fdot2 h t rm d a b c) s (aluWord d false (dotVal t 2 rm a b c))

def execFdot4 (h : Hdr) (t : Ty) (rm : Rnd) (d a b c : Reg) (s : State) : Out :=
  word (.fdot4 h t rm d a b c) s (aluWord d false (dotVal t 4 rm a b c))

end Sys2Proof.Machine
end

