-- ==== Sys2Proof/Machine/Occup.lean ====
section
/-! DEFINITION. Occupancy of cores and columns (04 R133 to R136, 05 R193, R194) and the duty of column governors (02 R56, R59,
R60). -/

namespace Sys2Proof.Machine

/-! ### Tasks and clutches on a core -/

/-- Resident tasks of a core, with their identifiers. -/
def tasksOn (s : State) (core : Nat) : List (Nat × Task) :=
  (tsome s.tasks).filter (fun p => decide (p.2.core = core) && p.2.state == .resident)

/-- The task of a clutch is resident. -/
def clutchIn (s : State) (c : Clutch) : Bool :=
  match c.task.bind (taskAt s) with
  | some t => t.state == .resident
  | none => false

/-- Clutches that issue on a core, each once. -/
def clutchesOn (s : State) (core : Nat) : List (Nat × Clutch) :=
  ((((tsome s.clutches).map (·.1)).eraseDups).map (fun i => (i, clutchAt s i))).filter (fun p => decide (p.2.core = core) && clutchIn s p.2)

/-- Landed clutches of a core. -/
def landedOn (s : State) (core : Nat) : List (Nat × Clutch) := (clutchesOn s core).filter (fun p => p.2.pad.isSome)

def sumBy {α : Type} (f : α → Nat) (l : List α) : Nat := l.foldl (fun n x => n + f x) 0

/-- Tasks of migrating gangs for which seats are reserved on a core, with their scratchpad offsets there (04 R148). -/
def seatsOn (s : State) (core : Nat) : List (Task × Nat) :=
  (tsome s.gangs).flatMap (fun p => ((p.2.tasks.zip p.2.seats).filter (fun q => decide (q.2.1 = core))).filterMap
    (fun q => (taskAt s q.1).map (fun x => (x, q.2.2.1))))

/-- Clutch slots held on a core: home slots, also of clutches that have left by `leap`, landed clutches (05 R194), and reserved seats. -/
def slotsHeld (s : State) (core : Nat) : Nat :=
  ((tsome s.clutches).filter (fun p => decide (p.2.homeCore = core) && clutchIn s p.2)).length +
  (landedOn s core).length + sumBy (fun p => p.1.clutches.length) (seatsOn s core)

/-- Engine contexts that a migrated task left running on a core (04 R148). -/
def leftEngines (s : State) (core : Nat) : Nat :=
  (((tsome s.cmds).filter (fun p =>
    decide (p.2.core = core) && !p.2.ended && !p.2.orphan &&
    (match p.2.ref with
     | .task t => (match taskAt s t with | some x => decide (x.core ≠ core) && x.state == .resident | none => false)
     | .host _ => false))).map (fun p => (match p.2.ref with | .task t => t | .host c => c, p.2.e))).eraseDups.length

def regionsUsed (s : State) (core : Nat) : Nat :=
  sumBy (fun p => p.2.regions) (tasksOn s core) + sumBy (fun p => p.1.regions) (seatsOn s core)
def enginesUsed (s : State) (core : Nat) : Nat :=
  sumBy (fun p => p.2.engines) (tasksOn s core) + leftEngines s core + sumBy (fun p => p.1.engines) (seatsOn s core)

/-! ### Burrow (04 R134) -/

/-- The burrow of a column bank begins here; column-bank allocations lie below it. -/
def burrowBase : Nat := 0xE0000000

/-- Image slots of 3 MiB fill the burrow's end; what lies before them holds the register-stack spill of the column's tasks. -/
def imageBase : Nat := 0xF4000000
def imageBytes : Nat := 0x300000
def imageSlots : Nat := (4 * gib - imageBase) / imageBytes

/-- First line of image slot k of a column, and of the column's stack area. -/
def imageLine (col k : Nat) : Nat := (bankBase + col * (4 * gib) + imageBase + k * imageBytes) / 128
def stackLine (col : Nat) : Nat := (bankBase + col * (4 * gib) + burrowBase) / 128
def stackArea : Nat := imageBase - burrowBase

/-! ### Scratchpad ranges (04 R133) -/

/-- Insert a range into a list sorted by its first byte. -/
def insRange (a : Nat × Nat) : List (Nat × Nat) → List (Nat × Nat)
  | [] => [a]
  | b :: t => if a.1 ≤ b.1 then a :: b :: t else b :: insRange a t

def sortRanges (l : List (Nat × Nat)) : List (Nat × Nat) := l.foldl (fun r a => insRange a r) []

/-- Free ranges between sorted allocations, up to `top`. -/
def gaps (top : Nat) : Nat → List (Nat × Nat) → List (Nat × Nat)
  | lo, [] => if lo < top then [(lo, top - lo)] else []
  | lo, (a, n) :: t => if lo < a then (lo, a - lo) :: gaps top (max lo (a + n)) t else gaps top (max lo (a + n)) t

/-- The lowest place for n bytes. -/
def firstFit (top n : Nat) (used : List (Nat × Nat)) : Option Nat :=
  ((gaps top 0 (sortRanges used)).find? (fun g => decide (n ≤ g.2))).map (·.1)

def spUsed (s : State) (core : Nat) : List (Nat × Nat) :=
  ((tasksOn s core).filter (fun p => decide (allocLen p.2 ≠ 0))).map (fun p => (p.2.spOff, allocLen p.2)) ++
    ((seatsOn s core).filter (fun p => decide (allocLen p.1 ≠ 0))).map (fun p => (p.2, allocLen p.1))

def spFreeMax (s : State) (core : Nat) : Nat :=
  ((gaps 0x200000 0 (sortRanges (spUsed s core))).map (·.2)).foldl max 0

/-- `CORE_OCC` of a core (04 R136). -/
def coreOcc (s : State) (core : Nat) : Nat :=
  spFreeMax s core / 4096 + (clutchesOn s core).length * 2 ^ 10 + regionsUsed s core * 2 ^ 16 + enginesUsed s core * 2 ^ 19
    + (landedOn s core).length * 2 ^ 23 + (tasksOn s core).length * 2 ^ 26

/-! ### Power gating (05 R189, R190) -/

def fifoAt (s : State) (k : Nat) : List (BitVec 1024) := tget [] s.fifos k

/-- Clutches that wait for a landing place in a column. -/
def leapsTo (s : State) (col : Nat) : List (Nat × Clutch) := (tsome s.clutches).filter (fun p => decide (p.2.leapTo = some col))

/-- The conditions under which a core may be gated. -/
def mayGate (s : State) (core : Nat) : Bool :=
  (tasksOn s core).isEmpty && (clutchesOn s core).isEmpty && decide (slotsHeld s core = 0) &&
  !s.fifos.any (fun p => decide (p.1 % 256 / 2 = pairOf core))

/-- Gated, or requested for gating. -/
def gateAsked (s : State) (core : Nat) : Bool := (colAt s (colOf core)).corePg.getLsbD (core % 4)
def isGated (s : State) (core : Nat) : Bool := (colAt s (colOf core)).gated.getLsbD (core % 4)

/-- Gate a requested core when its conditions hold; its L1 is written back and emptied first. -/
def gateCore (s : State) (core : Nat) : State :=
  if gateAsked s core && !isGated s core && mayGate s core then
    match evictLines s core (l1Lines s core) with
    | none => s
    | some s => modCol s (colOf core) (fun k => { k with gated := k.gated ||| ((1#4) <<< (core % 4)) })
  else s

/-- Ungate a core that is no longer requested; its L1 starts empty. -/
def ungateCore (s : State) (core : Nat) : State :=
  if !gateAsked s core && isGated s core then
    let s := modCol s (colOf core) (fun k => { k with gated := k.gated &&& ~~~((1#4) <<< (core % 4)) })
    { s with l1 := tput [] s.l1 core [] }
  else s

/-- The cores of a column follow `CORE_PG`; a request that comes in a thermal emergency is served at its end (02 R77). -/
def gateColumn (s : State) (c : Nat) : State :=
  (List.range 4).foldl (fun s p => if gateAsked s (4 * c + p) then gateCore s (4 * c + p) else ungateCore s (4 * c + p)) s

/-- `CORE_PG` of a column. -/
def corePgVal (s : State) (c : Nat) : Nat :=
  let k := colAt s c
  k.corePg.toNat + k.gated.toNat * 16 + (k.corePg &&& ~~~k.gated).toNat * 256

/-! ### Duty (02 R56, R59) -/

/-- Steps of 25 % below full duty: the lowest of the four limits. -/
def dutySteps (s : State) (c : Nat) : Nat :=
  let k := colAt s c
  if !assignedCol s c then 3
  else max k.therm (max k.ramp (partAt s (partOf s c)).duty)

/-- Bring a column's duty to its limits; a lower duty is one throttle event (02 R59). -/
def settle (s : State) (c : Nat) : State :=
  let new := dutySteps s c
  let k := colAt s c
  if new = k.duty then s
  else if new < k.duty then setCol s c { k with duty := new }
  else setCol s c { k with
    duty := new
    throttle := k.throttle + 1
    govPend := k.govPend || k.govIe
    host := if k.govIe && !k.govPend then { k.host with gov := true } else k.host }

/-- Every column's duty. -/
def settleAll (s : State) : State := (List.range 64).foldl settle s

/-- A sensor of the column has reached its threshold; both are at least 5 °C below (02 R57). -/
def isHot (s : State) (c : Nat) : Bool :=
  decide (s.power.govTj.toNat ≤ (colAt s c).tj.toNat) || decide (s.power.govTb.toNat ≤ (colAt s c).tb.toNat)
def isCool (s : State) (c : Nat) : Bool :=
  decide ((colAt s c).tj.toNat + 5 ≤ s.power.govTj.toNat) && decide ((colAt s c).tb.toNat + 5 ≤ s.power.govTb.toNat)

/-- After a change of a sensor or a threshold: a condition that lapses forgets its time, one that begins takes it. -/
def heatWatch (s : State) (c : Nat) : State :=
  let k := colAt s c
  setCol s c { k with
    thermAt := if isHot s c then k.thermAt else none
    coolAt := if isCool s c then some (k.coolAt.getD s.tsc.toNat) else none }

/-- Columns of a partition. -/
def partCols (s : State) (p : Nat) : List Nat := (List.range 64).filter (fun c => decide (partOf s c = p))

/-- `GOV_STATUS` of a column (02 R58). EMERG shows through the management ports only. -/
def govStatus (s : State) (c : Nat) (mgmt : Bool) : Nat :=
  let k := colAt s c
  let cap := (partAt s (partOf s c)).duty
  let b := fun (x : Bool) (n : Nat) => if x then 2 ^ n else 0
  k.duty % 4 + b (decide (0 < k.therm ∧ k.therm = k.duty)) 2 + b (assignedCol s c && decide (0 < cap ∧ cap = k.duty)) 3
    + b (decide (0 < k.ramp)) 4 + b (mgmt && s.emerg.isSome) 5 + b (!assignedCol s c) 6 + k.tj.toNat * 2 ^ 8 + k.tb.toNat * 2 ^ 16
    + (if k.vfEn then k.vfValue else k.valve).toNat * 2 ^ 24 + b k.govIe 32 + b k.govPend 33

/-- `CAP_CAUSE` of a partition (02 R66): THROTTLED and DUTY are live. A partition that is not valid has none and reads 0. -/
def capCause (s : State) (p : Nat) : Nat :=
  let x := partAt s p
  if !x.cfg.getLsbD 0 then 0
  else
    let d := ((partCols s p).map (fun c => (colAt s c).duty)).foldl max 0
    setBits (setBits x.cause.toNat 8 2 d) 0 1 (if d = 0 then 0 else 1)

end Sys2Proof.Machine
end

