-- ==== Sys2Proof/Machine/DevRegs.lean ====
section
/-! DEFINITION. Device register space (03 R98 to R104) and the management rules of its registers (02 R79 to R86): names of
addresses, who may read and write, reads with latches, and writes. -/

namespace Sys2Proof.Machine

/-! ### Names of register addresses -/

/-- A register, or one half of a 16-byte register (`hi`). Launch lines are keyed by 8 × block + line: column c is block c, die t
64 + t, the package 68. -/
inductive DReg where
  | absent
  | lineData (key dw : Nat)
  | llCfg (key : Nat)
  | llStatus (key : Nat)
  | govStatus (c : Nat)
  | throttleEvt (c : Nat)
  | bankEcc (c : Nat) (hi : Bool)
  | vbusErr (c : Nat) (hi : Bool)
  | valveForce (c : Nat)
  | scrubCfg (c : Nat)
  | coreOcc (c p : Nat)
  | schedEvt (c : Nat)
  | corePg (c : Nat)
  | promoCmd (t : Nat) (hi : Bool)
  | ctxTable | ctxCmd | partMap
  | partCfg (p : Nat)
  | capCause (p : Nat) (hi : Bool)
  | devCap | curLim | govTj | govTb | hbmSplit
  | mgmtSem (hi : Bool)
  | logLost | logCtl | logTail
  | logEntry (k : Nat)
  | capSeq
  | domainPwr (n : Nat)
  | ualGrant (g : Nat) (hi : Bool)
  | migCfg | pgfCfg | pgfBase | pgfTail | pgfHead | pgfDone | rrCfg | wearSet | extStore
  deriving DecidableEq, Repr

/-- Registers that every block has (03 R99); `k` is the block's number. -/
def lineReg (k o : Nat) : Option DReg :=
  if o < 0x200 then some (.lineData (8 * k + o / 64) (o % 64 / 8))
  else if o < 0x10000 then some .absent
  else if o < 0x10040 then some (.llCfg (8 * k + (o - 0x10000) / 8))
  else if o < 0x10080 then some (.llStatus (8 * k + (o - 0x10040) / 8))
  else none

/-- Column block (03 R100, 04 R136, R150, 05 R189). -/
def colReg (c o : Nat) : DReg :=
  if o = 0x10100 then .govStatus c
  else if o = 0x10108 then .throttleEvt c
  else if o = 0x10110 then .bankEcc c false
  else if o = 0x10118 then .bankEcc c true
  else if o = 0x10120 then .vbusErr c false
  else if o = 0x10128 then .vbusErr c true
  else if o = 0x10130 then .valveForce c
  else if o = 0x10138 then .scrubCfg c
  else if 0x12000 ≤ o ∧ o < 0x12020 then .coreOcc c ((o - 0x12000) / 8)
  else if o = 0x12020 then .schedEvt c
  else if o = 0x12040 then .corePg c
  else .absent

/-- Die block (06 R219). -/
def dieReg (t o : Nat) : DReg :=
  if o = 0x12130 then .promoCmd t false else if o = 0x12138 then .promoCmd t true else .absent

/-- Package block (03 R100, 04 R149, 06 R218, R235, R237, R244). -/
def pkgReg (o : Nat) : DReg :=
  if o = 0x10100 then .ctxTable
  else if o = 0x10108 then .ctxCmd
  else if o = 0x10110 then .partMap
  else if 0x10118 ≤ o ∧ o < 0x10198 then .partCfg ((o - 0x10118) / 8)
  else if 0x10200 ≤ o ∧ o < 0x10300 then .capCause ((o - 0x10200) / 16) (decide (8 ≤ o % 16))
  else if o = 0x10300 then .devCap
  else if o = 0x10308 then .curLim
  else if o = 0x10310 then .govTj
  else if o = 0x10318 then .govTb
  else if o = 0x10320 then .hbmSplit
  else if o = 0x10330 then .mgmtSem false
  else if o = 0x10338 then .mgmtSem true
  else if o = 0x10340 then .logLost
  else if o = 0x10348 then .logCtl
  else if o = 0x10350 then .logTail
  else if 0x10360 ≤ o ∧ o < 0x10380 then .logEntry ((o - 0x10360) / 8)
  else if o = 0x10380 then .capSeq
  else if 0x10400 ≤ o ∧ o < 0x10480 then .domainPwr ((o - 0x10400) / 8)
  else if 0x11000 ≤ o ∧ o < 0x11400 then .ualGrant ((o - 0x11000) / 16) (decide (8 ≤ o % 16))
  else if o = 0x12000 then .migCfg
  else if o = 0x12100 then .pgfCfg
  else if o = 0x12108 then .pgfBase
  else if o = 0x12110 then .pgfTail
  else if o = 0x12118 then .pgfHead
  else if o = 0x12120 then .pgfDone
  else if o = 0x12128 then .rrCfg
  else if o = 0x12140 then .wearSet
  else if o = 0x12150 then .extStore
  else .absent

/-- The register at an 8-byte aligned offset of device register space; none in a hole (03 R98). -/
def regAt (off : Nat) : Option DReg :=
  let o := off % 0x20000
  let b := off / 0x20000
  if b < 64 then some ((lineReg b o).getD (colReg b o))
  else if b < 68 then some ((lineReg b o).getD (dieReg (b - 64) o))
  else if b = 72 then some ((lineReg 68 o).getD (pkgReg o))
  else none

/-! ### Who may read and write (02 R79 to R82, 03 R93, R101) -/

/-- Number of a requester for its latch and index. -/
def reqNo : Requester → Nat
  | .mgmtA => 0 | .mgmtB => 1 | .hostLink => 2 | .firmware => 3 | .supervisor => 4 | .user => 5

/-- SOURCE of a requester (02 R85). -/
def reqSource : Requester → Nat
  | .mgmtA => 2 | .mgmtB => 3 | .hostLink => 4 | .firmware => 1 | .supervisor => 1 | .user => 1

/-- Code of a requester in `MGMT_SEM.OWNER`; 0 for one that cannot own it (02 R81). -/
def ownCode : Requester → Nat
  | .mgmtA => 1 | .mgmtB => 2 | .firmware => 3 | _ => 0

def isMgmt : Requester → Bool
  | .mgmtA => true | .mgmtB => true | _ => false

/-- Registers that only firmware reaches (03 R93). -/
def fwOnly : DReg → Bool
  | .hbmSplit => true | .mgmtSem _ => true | .wearSet => true | .rrCfg => true | _ => false

/-- The log registers (02 R84). -/
def isLogReg : DReg → Bool
  | .logLost => true | .logCtl => true | .logTail => true | .logEntry _ => true | _ => false

def isLine : DReg → Bool
  | .lineData _ _ => true | _ => false

/-- `MGMT_SEM`, which only firmware and the management ports read (02 R81). -/
def isSem : DReg → Bool
  | .mgmtSem _ => true | _ => false

/-- May the requester read the register? Registers that firmware alone writes read for others too, but for `MGMT_SEM`; reserved bytes of
a launch page are no launch line (log 99). -/
def canRead (r : Requester) (d : DReg) : Bool :=
  match r with
  | .mgmtA => true
  | .mgmtB => true
  | .firmware => true
  | .hostLink => !isSem d && !isLine d
  | .supervisor => !isSem d && !isLogReg d
  | .user => isLine d

/-- Registers written only by control writes, whatever the value (02 R80). -/
def isControl : DReg → Bool
  | .partMap => true | .partCfg _ => true | .devCap => true | .curLim => true | .govTj => true | .govTb => true
  | .valveForce _ => true | .scrubCfg _ => true
  | _ => false

/-- A control write (02 R80): a write of `LOG_CTL` that sets CLR is one. -/
def controlWrite (d : DReg) (v : Dword) : Bool := isControl d || (d == .logCtl && v.getLsbD 13)

/-- May the requester write the register at all? -/
def canWrite (r : Requester) (d : DReg) : Bool :=
  let errLog := match d with | .bankEcc _ _ => true | .vbusErr _ _ => true | _ => false
  match r with
  | .firmware => true
  | .mgmtA | .mgmtB =>
    isControl d || errLog || (match d with
      | .mgmtSem _ => true | .logCtl => true | .govStatus _ => true | .corePg _ => true | _ => false)
  | .hostLink => !isLine d && !fwOnly d && !isControl d && !errLog && decide (d ≠ .extStore) && decide (d ≠ .capSeq)
  | .supervisor =>
    !fwOnly d && !isControl d && !errLog && !isLogReg d && decide (d ≠ .extStore) && decide (d ≠ .capSeq)
  | .user => isLine d

/-- The requester that a clutch is (03 R101). -/
def reqOfLevel (lv : Fin 3) : Requester := if lv = 2 then .firmware else if lv = 1 then .supervisor else .user

/-! ### Reads -/

def lineStatus (x : Line) : Nat :=
  natMin x.queue.length 8 + x.err.toNat * 2 ^ 8 + x.drops.toNat * 2 ^ 16 + x.lastSeq.toNat * 2 ^ 32

/-- Value of a register as a requester sees it, without the latch. -/
def regVal (s : State) (r : Requester) (d : DReg) : Nat :=
  let half := fun (x : Nat) (hi : Bool) => if hi then bits x 64 64 else bits x 0 64
  match d with
  | .absent => 0
  | .lineData k dw => if dw = 0 then lineStatus (lineAt s k) else 0
  | .llCfg k => (lineAt s k).cfg.toNat
  | .llStatus k => lineStatus (lineAt s k)
  | .govStatus c => govStatus s c (isMgmt r)
  | .throttleEvt c => (colAt s c).throttle.toNat
  | .bankEcc c hi => half (colAt s c).eccLog.toNat hi
  | .vbusErr c hi => half (colAt s c).vbusLog.toNat hi
  | .valveForce c => (colAt s c).vfValue.toNat + (if (colAt s c).vfEn then 256 else 0)
  | .scrubCfg c => (colAt s c).period.toNat
  | .coreOcc c p => coreOcc s (4 * c + p)
  | .schedEvt c => (colAt s c).schedEvt.toNat
  | .corePg c => corePgVal s c
  | .promoCmd t hi =>
    let p := promoAt s t
    if hi then p.dest.toNat
    else p.ctx.toNat + (if p.busy then 2 ^ 9 else 0) + p.result.toNat * 2 ^ 10 + p.va.toNat * 2 ^ 29
  | .ctxTable => s.pkg.ctxTable.toNat
  | .ctxCmd => s.pkg.ctxCmd.toNat + (if s.pkg.ctxBusy then 2 ^ 10 else 0)
  | .partMap => s.pkg.partMap.toNat
  | .partCfg p => (partAt s p).cfg.toNat
  | .capCause p hi => half (capCause s p) hi
  | .devCap => s.power.devCap.toNat
  | .curLim => s.power.curLim.toNat
  | .govTj => s.power.govTj.toNat
  | .govTb => s.power.govTb.toNat
  | .hbmSplit => s.pkg.hbmP.toNat + s.pkg.hbmW.toNat * 2 ^ 8 + (if s.pkg.hbmLock then 2 ^ 31 else 0)
  | .mgmtSem hi => if hi then s.mgmt.acqTsc.toNat else s.mgmt.owner.toNat + s.mgmt.lease.toNat * 2 ^ 8
  | .logLost => s.mgmt.lost.toNat
  | .logCtl => (tget 0 s.mgmt.index (reqNo r)).toNat
  | .logTail => s.mgmt.tail.toNat
  | .logEntry k => bits (tget 0 s.mgmt.log (tget 0 s.mgmt.index (reqNo r)).toNat).toNat (64 * k) 64
  | .capSeq => s.mgmt.capSeq.toNat + (if s.mgmt.capValid then 2 ^ 32 else 0)
  | .domainPwr n => (tget 0 s.power.domainPwr n).toNat
  | .ualGrant g hi => half (tget 0 s.pkg.ualGrant g).toNat hi
  | .migCfg => s.pkg.migCfg.toNat
  | .pgfCfg => s.pkg.pgfCfg.toNat
  | .pgfBase => s.pkg.pgfBase.toNat
  | .pgfTail => s.pkg.pgfTail.toNat
  | .pgfHead => s.pkg.pgfHead.toNat
  | .pgfDone => 0
  | .rrCfg => s.pkg.rrSize.toNat
  | .wearSet => s.pkg.wearSet.toNat
  | .extStore => s.pkg.extSize.toNat

/-- The two halves of a 16-byte register: the lower half's upper half, and whether this is an upper half. -/
def upperOf : DReg → Option DReg
  | .bankEcc c false => some (.bankEcc c true)
  | .vbusErr c false => some (.vbusErr c true)
  | .promoCmd t false => some (.promoCmd t true)
  | .capCause p false => some (.capCause p true)
  | .mgmtSem false => some (.mgmtSem true)
  | .ualGrant g false => some (.ualGrant g true)
  | _ => none

/-- Read 8 bytes of a register (03 R101): a lower half latches its upper half for the next read of that by the same requester,
whose number is `who`. -/
def regReadBy (s : State) (r : Requester) (who off : Nat) : Dword × State :=
  match regAt off with
  | none => (0, s)
  | some d =>
    let key := 2 ^ 44 * who + off
    let put := fun (k : Nat) (x : Option Dword) => { s with mgmt := { s.mgmt with latch := tput none s.mgmt.latch k x } }
    match upperOf d with
    | some u => (BitVec.ofNat 64 (regVal s r d), put (key + 8) (some (BitVec.ofNat 64 (regVal s r u))))
    | none =>
      match tget none s.mgmt.latch key with
      | some x => (x, put key none)
      | none => (BitVec.ofNat 64 (regVal s r d), s)

/-- A read by a management port, the host link or firmware. -/
def regRead (s : State) (r : Requester) (off : Nat) : Dword × State := regReadBy s r (reqNo r) off

/-- Number of a device agent as a requester: firmware is one (02 R84), every other core is one of its own (03 R101). -/
def agentNo (level core : Nat) : Nat := if level = 2 then reqNo .firmware else 8 + core

/-! ### Writes -/

/-- Refuse a write (02 R82): it is logged, and the reason code goes to the requester's transport. -/
def refuse (s : State) (r : Requester) (off code : Nat) : State × Option Nat :=
  (logPost s (reqSource r) 5 0x40 (Config.logData 0x40 [regBase + off, code, reqNo r]), some code)

/-- Acts of other parts of the device that a register write starts: they come next. -/
def startNext (s : State) (is : List Instr) : State := { s with agenda := is ++ s.agenda }

/-- Block and line of a launch-line key. -/
def blockOf (key : Nat) : Block :=
  let b := key / 8
  if h : b < 64 then .column ⟨b, h⟩ else if h : b - 64 < 4 then .die ⟨b - 64, h⟩ else .package

/-- Drop a token at a line (03 R102). -/
def dropToken (s : State) (key : Nat) : State :=
  let x := lineAt s key
  let s := setLine s key { x with drops := if x.drops = 0xFFFF then x.drops else x.drops + 1 }
  if x.cfg.getLsbD 3 then raiseVec s (bits x.cfg.toNat 12 11) else s

/-- The value of a control write lies outside its field's range (02 R62). -/
def outOfRange (s : State) (d : DReg) (v : Nat) : Bool :=
  match d with
  | .curLim => decide (s.power.curLim.toNat < bits v 0 16)
  | .govTj => decide (bits v 0 8 < 95) || decide (110 < bits v 0 8)
  | .govTb => decide (bits v 0 8 < 85) || decide (95 < bits v 0 8)
  | _ => false

/-- OWNER, LEASE and TSC of `MGMT_SEM` after one write of its lower half, (SOURCE, owner code, value), at a `TSC` (02 R81; log 23). -/
def semStep (tsc : Dword) (b : BitVec 2 × Byte × Dword) (w : Nat × Nat × Nat) : BitVec 2 × Byte × Dword :=
  let code := bits w.2.2 0 2
  let was : Bool := b.1.toNat = w.2.1
  let acq : Bool := b.1 = 0 ∧ code = w.2.1
  (if acq then BitVec.ofNat 2 w.2.1 else if was && decide (code = 0) then 0 else b.1,
   if was || acq then BitVec.ofNat 8 (bits w.2.2 8 8) else b.2.1, if acq then tsc else b.2.2)

/-- Writes at one `TSC` stand in the order of their source numbers (02 R81). -/
def insSem (w : Nat × Nat × Nat) : List (Nat × Nat × Nat) → List (Nat × Nat × Nat)
  | [] => [w]
  | x :: t => if w.1 < x.1 then w :: x :: t else x :: insSem w t

/-- `MGMT_SEM`, lower half: the writes at the present `TSC` count in the order of their source numbers, whichever came first here (02
R81). -/
def semWrite (s : State) (r : Requester) (v : Nat) : State :=
  let m := s.mgmt
  let same : Bool := !m.semWrites.isEmpty && decide (m.semAt = s.tsc)
  let base := if same then m.semBase else (m.owner, m.lease, m.acqTsc)
  let ws := insSem (reqSource r, ownCode r, v) (if same then m.semWrites else [])
  let e := ws.foldl (semStep s.tsc) base
  { s with mgmt := { m with
      owner := e.1, lease := e.2.1, acqTsc := e.2.2, semAt := s.tsc, semBase := base, semWrites := ws
      lastCtl := if e.1 ≠ m.owner ∧ e.1 ≠ 0 then s.tsc else m.lastCtl } }

/-- `HBM_SPLIT` (01 R18, R19). -/
def splitWrite (s : State) (v : Nat) : State :=
  if s.pkg.hbmLock then s
  else
    let p := bits v 0 7
    let w := bits v 8 7
    let s := { s with pkg := { s.pkg with hbmP := BitVec.ofNat 7 p, hbmW := BitVec.ofNat 7 w, hbmLock := decide (bits v 31 1 = 1) } }
    if bits v 31 1 = 0 then s
    else if 64 < p + w ∨ 12 * p * gib < reservedBytes s then
      logPost { s with pkg := { s.pkg with hbmP := 32, hbmW := 16, rrSize := 64, extSize := 64 } } 0 3 0x23 (Config.logData 0x23 [p, w])
    else s

/-- Free blocks of a zone as delivered: at most the 2^19 blocks of 64 KiB of its flash die (00 R4, 06 R243; log 11). -/
def factoryFree (z : Nat) : Word := BitVec.ofNat 32 (natMin (Config.zoneBlocks z).toNat 524288)

def zoneAt (s : State) (z : Nat) : Zone :=
  (tget none s.weights.zones z).getD { remain := 0, charged := 0, free := factoryFree z }

/-- `WEAR_SET` (06 R244). -/
def wearWrite (s : State) (v : Dword) : State :=
  let z := bits v.toNat 0 7
  let old := zoneAt s z
  { s with
    pkg := { s.pkg with wearSet := v &&& 0xFFFFFFFF0000007F }
    weights := { s.weights with zones := tput none s.weights.zones z (some { old with
      remain := BitVec.ofNat 32 (bits v.toNat 32 32), charged := 0 }) } }

/-- `LOG_CTL` (02 R84). -/
def logCtlWrite (s : State) (r : Requester) (v : Nat) : State :=
  let m := { s.mgmt with index := tput 0 s.mgmt.index (reqNo r) (BitVec.ofNat 13 (bits v 0 13)) }
  { s with mgmt := if bits v 13 1 = 1 then { m with log := [], tail := 0, lost := 0 } else m }

/-- W1C bits 0 and `b` of the lower half of an error log, and its counter of 16 bits at `lo` (01 R35, R36). -/
def errLogWrite (old v b lo : Nat) : Nat :=
  let x := if bits v 0 1 = 1 then setBits old 0 1 0 else old
  let x := if bits v b 1 = 1 then setBits x b 1 0 else x
  setBits x lo 16 (bits v lo 16)

/-- The write of a register, once it is allowed. -/
def regSet (s : State) (r : Requester) (d : DReg) (v : Dword) : State :=
  let n := v.toNat
  match d with
  | .lineData k _ => dropToken s k
  | .llCfg k => startNext s [.llCfgWrite (blockOf k) (Fin.ofNat 8 k) v]
  | .llStatus k => setLine s k { lineAt s k with drops := BitVec.ofNat 16 (bits n 16 16) }
  | .govStatus c => modCol s c (fun k => { k with govIe := v.getLsbD 32, govPend := k.govPend && !v.getLsbD 33 })
  | .bankEcc c false => modCol s c (fun k => { k with eccLog := BitVec.ofNat 128 (errLogWrite k.eccLog.toNat n 2 48) })
  | .vbusErr c false => modCol s c (fun k => { k with vbusLog := BitVec.ofNat 128 (errLogWrite k.vbusLog.toNat n 4 32) })
  | .valveForce c => modCol s c (fun k => { k with
      vfValue := BitVec.ofNat 8 (max 64 (bits n 0 8)), vfEn := v.getLsbD 8,
      valve := if k.vfEn && !v.getLsbD 8 then k.vfValue else k.valve })
  | .scrubCfg c => modCol s c (fun k => { k with period := BitVec.ofNat 8 (bits n 0 8), scrubPos := 0 })
  | .schedEvt c => modCol s c (fun k => { k with schedEvt := v })
  | .corePg c =>
    let s := modCol s c (fun k => { k with corePg := BitVec.ofNat 4 (bits n 0 4) })
    if s.emerg.isSome then s else gateColumn s c
  | .promoCmd t true => setPromo s t { promoAt s t with dest := BitVec.ofNat 52 n }
  | .promoCmd t false =>
    let p := promoAt s t
    if v.getLsbD 8 then (if p.busy then s else startNext s [.promoGo (Fin.ofNat 4 t) v])
    else setPromo s t { p with ctx := BitVec.ofNat 8 n, va := BitVec.ofNat 35 (bits n 29 35) }
  | .ctxTable => { s with pkg := { s.pkg with ctxTable := BitVec.ofNat 52 (bits n 8 44 * 256) } }
  | .ctxCmd =>
    if s.pkg.ctxBusy then s
    else
      let s := { s with pkg := { s.pkg with ctxCmd := BitVec.ofNat 10 n } }
      if bits n 8 2 = 1 then startNext { s with pkg := { s.pkg with ctxBusy := true } } [.ctxRefresh (BitVec.ofNat 8 n)]
      else if bits n 8 2 = 2 then
        startNext { s with pkg := { s.pkg with ctxBusy := true } } [.ctxKill (BitVec.ofNat 8 n), .killComplete]
      else s
  | .partMap => settleAll { s with pkg := { s.pkg with partMap := v } }
  | .partCfg p => settleAll (setPart s p { partAt s p with cfg := v &&& 0xFFFFFF0F })
  | .devCap => { s with power := { s.power with devCap := BitVec.ofNat 32 n } }
  | .curLim => { s with power := { s.power with curLim := BitVec.ofNat 16 n } }
  | .govTj => (List.range 64).foldl heatWatch { s with power := { s.power with govTj := BitVec.ofNat 8 n } }
  | .govTb => (List.range 64).foldl heatWatch { s with power := { s.power with govTb := BitVec.ofNat 8 n } }
  | .hbmSplit => splitWrite s n
  | .mgmtSem false => semWrite s r n
  | .logCtl => logCtlWrite s r n
  | .capSeq => { s with mgmt := { s.mgmt with capSeq := BitVec.ofNat 32 n, capValid := v.getLsbD 32 } }
  | .ualGrant g hi =>
    let old := (tget 0 s.pkg.ualGrant g).toNat
    let x := if hi then setBits old 64 64 n else setBits old 0 64 (v &&& 0xFFFFFF0FFFFF000F : Dword).toNat
    { s with pkg := { s.pkg with ualGrant := tput 0 s.pkg.ualGrant g (BitVec.ofNat 128 x) } }
  | .migCfg => { s with pkg := { s.pkg with migCfg := BitVec.ofNat 16 n } }
  | .pgfCfg => { s with pkg := { s.pkg with pgfCfg := BitVec.ofNat 19 n } }
  | .pgfBase => { s with pkg := { s.pkg with pgfBase := BitVec.ofNat 64 (n / 2 ^ 17 * 2 ^ 17) } }
  | .pgfHead => startNext s [.pgfHeadWrite (BitVec.ofNat 32 n)]
  | .pgfDone => startNext s [.pgfDoneWrite (BitVec.ofNat 16 n) (v.getLsbD 16)]
  | .rrCfg => if s.pkg.hbmLock then s else { s with pkg := { s.pkg with rrSize := BitVec.ofNat 9 n } }
  | .wearSet => wearWrite s v
  | .extStore => if s.pkg.hbmLock then s else { s with pkg := { s.pkg with extSize := BitVec.ofNat 12 n } }
  | _ => s

/-- Write 8 bytes of a register by a requester: the new state, and a reason code when it is refused (02 R62, R80 to R82). -/
def regWrite (s : State) (r : Requester) (off : Nat) (v : Dword) : State × Option Nat :=
  match regAt off with
  | none => (s, none)
  | some d =>
    if r == .supervisor && d == .extStore then (s, none)
    else if !canWrite r d then refuse s r off 0x52
    else if controlWrite d v then
      if ownCode r = 0 then refuse s r off 0x52
      else if s.mgmt.owner.toNat ≠ ownCode r then refuse s r off 0x51
      else if outOfRange s d v.toNat then refuse s r off 0x53
      else (regSet { s with mgmt := { s.mgmt with lastCtl := s.tsc } } r d v, none)
    else (regSet s r d v, none)

/-- A register access of a device agent reaches its register: privilege allows it (03 R101, 02 R58). Supervisor code reaches `EXT_STORE`,
which ignores its writes (06 R237). -/
def devReach (lv : Fin 3) (write : Bool) (pa : Nat) : Bool :=
  match regAt (regOff pa) with
  | none => false
  | some d =>
    if write then canWrite (reqOfLevel lv) d || (reqOfLevel lv == .supervisor && d == .extStore) else canRead (reqOfLevel lv) d

end Sys2Proof.Machine
end

