-- ==== Sys2Proof/Machine/Tracked.lean ====
section
/-! DEFINITION. Tracked loads and buffered stores of an atomic region (10 R371, R374, R375), and the tokens that hold mode keeps
(10 R380, 07 R276). -/

namespace Sys2Proof.Machine

/-! ### Hold mode (07 R276) -/

/-- An attempt gives up its token of a line. -/
def dropHeld (s : State) (line cid : Nat) : State :=
  modClutch s cid (fun c => { c with region := c.region.map (fun r => { r with held := r.held.filter (fun l => decide (l ≠ line)) }) })

/-- Attempts of lower rank surrender their tokens of a line. -/
def surrender (s : State) (line cid : Nat) : State :=
  ((holders s line (some cid)).filter (fun o => outranks s cid o)).foldl (fun s o => dropHeld s line o) s

/-- Take and keep one token of a line for a hold-mode attempt; none while tokens travel or attempts of higher rank keep them all. -/
def takeHold (s : State) (cid line : Nat) : Option State :=
  let c := clutchAt s cid
  match c.region with
  | none => some s
  | some r =>
    if r.hold.isNone || r.held.contains line then some s
    else
      let s := if (holders s line (some cid)).length < 4 then s
        else match (holders s line (some cid)).find? (fun o => outranks s cid o) with
          | some o => dropHeld s line o
          | none => s
      if (holders s line (some cid)).length < 4 then
        (gatherSpare s (dieOf (colOf c.core)) line cid).map (fun s =>
          modClutch s cid (fun c => { c with region := c.region.map (fun r => { r with held := r.held ++ [line] }) }))
      else none

/-- Every tracked load of a hold-mode attempt takes one token of each line that it reads, new slots or none (07 R276, 10 R380). -/
def holdLines (s : State) (cid : Nat) : List Nat → Option State
  | [] => some s
  | l :: t => match takeHold s cid l with
    | none => none
    | some s => holdLines s cid t

/-! ### Bytes -/

/-- Physical addresses of the bytes of chunks, in address order. -/
def bytePas (chunks : List (Nat × Nat)) : List Nat := chunks.flatMap (fun c => (List.range c.2).map (fun k => c.1 + k))

/-- Word addresses that bytes touch, with the virtual address of each word. -/
def wordsOf (ea : Nat) (chunks : List (Nat × Nat)) : List (Nat × Nat) :=
  let bs := (bytePas chunks).zip ((List.range (bytePas chunks).length).map (fun j => (ea + j) / 4 * 4))
  (bs.map (fun b => (b.1 / 4, b.2))).eraseDups

/-- Byte of a buffered store at a physical address. -/
def rsByte (r : RStore) (pa : Nat) : Option Byte :=
  (((bytePas r.chunks).zip (leBytes r.size r.val)).find? (fun b => decide (b.1 = pa))).map (·.2)

/-- The newest buffered store to a byte. -/
def storeAt (g : Region) (pa : Nat) : Option RStore := g.stores.find? (fun r => (bytePas r.chunks).contains pa)

/-- Load slot of a lane for a word. -/
def slotAt (g : Region) (lane w : Nat) : Option (Nat × LoadSlot) :=
  findIdxFrom (fun x => decide (x.lane = lane) && decide (x.pa = w)) 0 g.slots

/-- What a tracked load of one lane gives. -/
inductive TrackRes where
  | ok (s : State) (x : Nat) (t : Option Sym)
  | capacity
  | wait

/-- Take new slots for words, of the kinds given, observing each word through the core's L1. -/
def newSlots (s : State) (cid lane : Nat) : List (Nat × Nat × SlotKind) → TrackRes
  | [] => .ok s 0 none
  | (w, va, k) :: t =>
    match (clutchAt s cid).region with
    | none => .ok s 0 none
    | some g =>
      if 64 ≤ g.slots.length then .capacity
      else match readChunks s (clutchAt s cid).core [(4 * w, 4)] with
        | none => .wait
        | some (s, b) =>
          let x : LoadSlot :=
            { lane := lane, pa := w, va := va, obs := BitVec.ofNat 32 (leNat b), pinned := decide (k = .part), kind := k }
          newSlots (modClutch s cid (fun c =>
            { c with region := c.region.map (fun g => { g with slots := g.slots ++ [x] }) })) cid lane t

/-- The byte that a region's load finds: the newest store of the region to it, else the observed word. -/
def regionByte (g : Region) (lane pa : Nat) : Byte :=
  match storeAt g pa with
  | some r => (rsByte r pa).getD 0
  | none => match slotAt g lane (pa / 4) with
    | some (_, x) => x.obs.extractLsb' (8 * (pa % 4)) 8
    | none => 0

/-- Last row of R371: slots for words not covered, every touched slot pinned, and the slots of forwarded stores. -/
def trackOther (s : State) (cid lane ea : Nat) (chunks : List (Nat × Nat)) : TrackRes :=
  match (clutchAt s cid).region with
  | none => .ok s 0 none
  | some g =>
    let ws := wordsOf ea chunks
    match newSlots s cid lane ((ws.filter (fun w => (slotAt g lane w.1).isNone)).map (fun w => (w.1, w.2, SlotKind.part))) with
    | .ok s _ _ =>
      match (clutchAt s cid).region with
      | none => .ok s 0 none
      | some g =>
        let touched := ws.filterMap (fun w => (slotAt g lane w.1).map (·.1))
        let fwd := (bytePas chunks).filterMap (fun pa => ((storeAt g pa).bind (·.sym)).map (·.slot))
        let x := leNat ((bytePas chunks).map (regionByte g lane))
        .ok (modClutch s cid (fun c => (touched ++ fwd).foldl pinSlot c)) x none
    | r => r

/-- Lines of chunks, in the order of their bytes. -/
def chunkLines (chunks : List (Nat × Nat)) : List Nat := ((bytePas chunks).map (· / 128)).eraseDups

/-- A tracked load of one lane outside hold mode (10 R371). -/
def trackSlots (s : State) (cid lane ea : Nat) (chunks : List (Nat × Nat)) (n : Nat) : TrackRes :=
  match (clutchAt s cid).region with
  | none => .ok s 0 none
  | some g =>
    let sym := fun k wide => some { slot := k, c := 0, wide := wide : Sym }
    match g.stores.find? (fun r => (bytePas r.chunks).any (fun b => (bytePas chunks).contains b)) with
    | some r => if r.chunks = chunks ∧ r.size = n then .ok s r.val r.sym else trackOther s cid lane ea chunks
    | none =>
      if n = 4 ∧ ea % 4 = 0 then
        match wordsOf ea chunks with
        | [w] =>
          match slotAt g lane w.1 with
          | none => match newSlots s cid lane [(w.1, w.2, .one)] with
            | .ok s _ _ => (match (clutchAt s cid).region.bind (fun g => slotAt g lane w.1) with
              | some (k, x) => .ok s x.obs.toNat (sym k false)
              | none => .ok s 0 none)
            | r => r
          | some (k, x) => if x.kind = .one then .ok s x.obs.toNat (sym k false) else trackOther s cid lane ea chunks
        | _ => trackOther s cid lane ea chunks
      else if n = 8 ∧ ea % 8 = 0 then
        match wordsOf ea chunks with
        | [w0, w1] =>
          match slotAt g lane w0.1, slotAt g lane w1.1 with
          | none, none => match newSlots s cid lane [(w0.1, w0.2, .lo), (w1.1, w1.2, .hi)] with
            | .ok s _ _ => (match (clutchAt s cid).region.bind (fun g => slotAt g lane w0.1),
                                  (clutchAt s cid).region.bind (fun g => slotAt g lane w1.1) with
              | some (k, x), some (_, y) => .ok s (x.obs.toNat + 2 ^ 32 * y.obs.toNat) (sym k true)
              | _, _ => .ok s 0 none)
            | r => r
          | some (k, x), some (_, y) =>
            if x.kind = .lo ∧ y.kind = .hi then .ok s (x.obs.toNat + 2 ^ 32 * y.obs.toNat) (sym k true)
            else trackOther s cid lane ea chunks
          | _, _ => trackOther s cid lane ea chunks
        | _ => trackOther s cid lane ea chunks
      else trackOther s cid lane ea chunks

/-- A tracked load of one lane (10 R371, R380). -/
def trackLoad (s : State) (cid lane ea : Nat) (chunks : List (Nat × Nat)) (n : Nat) : TrackRes :=
  match holdLines s cid (chunkLines chunks) with
  | none => .wait
  | some s => trackSlots s cid lane ea chunks n

/-- One lane's tracked load with its destination: the raw bytes and the tag. -/
def trackLanes (s : State) (cid n : Nat) : List (Nat × Nat × List (Nat × Nat)) → Option (TrackRes × List (Nat × Nat × Option Sym))
  | [] => some (.ok s 0 none, [])
  | (lane, ea, ch) :: t =>
    match trackLoad s cid lane ea ch n with
    | .ok s x tag => (trackLanes s cid n t).map (fun p => (p.1, (lane, x, tag) :: p.2))
    | r => some (r, [])

/-- Buffer the store of one lane (10 R374); none when it needs more than 64 entries (R375). -/
def bufferStore (c : Clutch) (lane : Nat) (chunks : List (Nat × Nat)) (n x : Nat) (t : Option Sym) : Option Clutch :=
  match c.region with
  | none => some c
  | some g =>
    let ws := ((bytePas chunks).map (fun b => (lane, b / 4))).eraseDups
    let entries := g.entries ++ ws.filter (fun w => !g.entries.contains w)
    if 64 < entries.length then none
    else
      let r : RStore := { lane := lane, chunks := chunks, size := n, val := x % 2 ^ (8 * n), sym := t }
      let old := g.stores.filter (fun o => (bytePas o.chunks).any (fun b => !(bytePas chunks).contains b))
      some { c with region := some { g with stores := r :: old, entries := entries } }

def bufferStores (c : Clutch) (n : Nat) : List (Nat × List (Nat × Nat) × Nat × Option Sym) → Option Clutch
  | [] => some c
  | (lane, ch, x, t) :: r => match bufferStore c lane ch n x t with
    | none => none
    | some c => bufferStores c n r

end Sys2Proof.Machine
end

