-- ==== Sys2Proof/Machine/Memory.lean ====
section
/-! DEFINITION. Loads, stores, prefetches, fences and cache words (10 R357 to R363), and atomics (10 R365, R366, 06 R224, 07 R265,
R266). -/

namespace Sys2Proof.Machine

/-! ### Shared steps -/

/-- The bytes of an operation queued at a sync engine meet a place. -/
def syncMeets (o : SyncOp) : Place → Bool
  | .phys ch => ch.any (fun c => meets o.pa ((memSize o.t).getD 4) c.1 c.2)
  | _ => false

/-- Perform the queued operations of a clutch that satisfy `p`, each after those before it at its die (06 R224). -/
def syncWhere (cid : Nat) (p : SyncOp → Bool) : Nat → State → Option State
  | 0, s => some s
  | k + 1, s =>
    match s.sync.find? (fun o => decide (o.cid = cid) && p o) with
    | none => some s
    | some o => match s.sync.find? (fun q => decide (q.die = o.die)) with
      | none => some s
      | some q => match syncPerform s q with
        | none => none
        | some s => syncWhere cid p k s

/-- Every earlier load of a clutch has its value, and its queued atomics are performed (07 R257). -/
def settleOps (s : State) (cid : Nat) : Option State :=
  match completeAll s cid with
  | none => none
  | some s => syncWhere cid (fun _ => true) s.sync.length s

/-- Before a word of a clutch touches places: its own queued atomics there are performed (07 R251, R265). -/
def syncFirst (s : State) (cid : Nat) (ps : List Place) : Option State :=
  syncWhere cid (fun o => ps.any (syncMeets o)) s.sync.length s

/-- A release by a clutch (07 R257, R261): its earlier loads have their values and its atomics are performed, then the step of
the scope. -/
def releaseAll (s : State) (cid : Nat) (sc : Scope) : Option State :=
  match settleOps s cid with
  | none => none
  | some s => releaseOp s (clutchAt s cid).core sc

def releaseOpt (s : State) (cid : Nat) : Option Scope → Option State
  | none => some s
  | some sc => releaseAll s cid sc

/-- Weight lines that core i does not have and whose unit the reading room does not hold (06 R238). -/
def weightMisses (s : State) (i : Nat) (ps : List (Nat × Place)) : List Nat :=
  (ps.flatMap (fun p => match p.2 with
    | .phys ch => (ch.flatMap (fun c => splitLines c.1 c.2)).map (fun c => c.1 / 128)
    | _ => [])).filter (fun l => isWeight s l && (weightL1 s i l).isNone && (weightSlice s i l).isNone && !inRoom s l)

/-- The clutch waits with a word of this kind. -/
def waitsIn (c : Clutch) (k : WaitKind) : Bool := match c.wait with | some w => w.kind == k | none => false

/-- Weight lines of places. -/
def weightLines (s : State) (ps : List (Nat × Place)) : List Nat :=
  ((ps.flatMap (fun p => match p.2 with
    | .phys ch => (ch.flatMap (fun c => splitLines c.1 c.2)).map (fun c => c.1 / 128)
    | _ => [])).filter (isWeight s)).eraseDups

/-- What core i's copies near it give of a weight line at its tag check; none on a miss (06 R238). -/
def weightNear (s : State) (i line : Nat) : Option (BitVec 1024 × Bool) :=
  match weightL1 s i line, weightSlice s i line with
  | some l, _ => some (l.data, l.poison)
  | none, some l => some (l.data, l.poison)
  | none, none => if inRoom s line then some (perfLine s line, false) else none

/-- Lines that a load waits for, by its number. -/
def asksOf (s : State) (who : Nat) : List WeightAsk := s.weights.asks.filter (fun a => decide (a.who = who))

def dropAsks (s : State) (who : Nat) : State :=
  { s with weights := { s.weights with asks := s.weights.asks.filter (fun a => decide (a.who ≠ who)) } }

/-- A lookup drops copies of a weight line that have an older version (06 R239). -/
def weightOld (s : State) (i line : Nat) : State :=
  let old := fun (v : Option Word) => v.isSome && v != some (verOf s (weightExt line))
  let s := if (match l1At s i line with | some l => old l.ver | none => false) then setL1 s i line none else s
  if (match sliceAt s (colOf i) line with | some l => old l.ver | none => false) then setSlice s (colOf i) line none else s

/-- The tag checks of a load that misses: all its lines are of this moment, and the controller is asked for those that miss (06 R238,
R241). -/
def weightAsk (s : State) (who i : Nat) (ps : List (Nat × Place)) : State :=
  let s := (weightLines s ps).foldl (fun s l => weightOld s i l) s
  let more := (weightLines s ps).filter (fun l => !(asksOf s who).any (fun a => decide (a.line = l)))
  { s with weights := { s.weights with asks := s.weights.asks ++ more.map (fun l =>
      { who := who, core := i, line := l, ver := verOf s (weightExt l), old := none, got := weightNear s i l }) } }

/-- The lines that came back stand in the L1 for the load that waited. -/
def lend (s : State) (i : Nat) (as : List WeightAsk) : State :=
  as.foldl (fun s a => match a.got with
    | some (d, p) => setL1 s i a.line (some { L1Line.empty with
        data := d, valid := BitVec.allOnes 128, poison := p, ver := some (verOf s (weightExt a.line)) })
    | none => s) s

/-- Afterwards the L1 holds of them what it held before. -/
def takeBack (s0 s : State) (i : Nat) (as : List WeightAsk) : State :=
  as.foldl (fun s a => if a.got.isSome && (l1At s i a.line).isSome then setL1 s i a.line (l1At s0 i a.line) else s) s

/-- A word reads memory through a core's L1; the weight lines that it has waited for are those of its tag checks (06 R241). -/
def withAsks (cid : Nat) (s : State) (f : State → Res) : Res :=
  let c := clutchAt s cid
  let as := asksOf s (2 * cid)
  if as.isEmpty then f s
  else if !waitsIn c .reply then f (dropAsks s (2 * cid))
  else match f (lend s c.core as) with
    | .done t j => .done (dropAsks (takeBack s t c.core as) (2 * cid)) j
    | .wait k t => .wait (if k = .tokens then .reply else k) (takeBack s t c.core as)
    | .enter t => .enter (takeBack s t c.core as)
    | r => r

/-- Bytes [off, off + n) of chunks. -/
def subChunks : List (Nat × Nat) → Nat → Nat → List (Nat × Nat)
  | [], _, _ => []
  | (pa, k) :: t, off, n =>
    if k ≤ off then subChunks t (off - k) n
    else if off + n ≤ k then [(pa + off, n)]
    else (pa + off, k - off) :: subChunks t 0 (n - (k - off))

/-- Is a place in the weight aperture? -/
def weightPlace (s : State) : Place → Bool
  | .phys ch => ch.any (fun c => isWeight s (c.1 / 128))
  | _ => false

/-- The parts of a pending load: a device register or a weight line is read now, other places when the result is written. -/
def loadParts (s : State) (c : Clutch) (t : Ty) (mk : Nat → PSrc → List PAcc) : List (Nat × Place) → State × List PAcc
  | [] => (s, [])
  | (i, p) :: r =>
    let (s, a) : State × List PAcc := match p with
      | .dev pa => let (v, s) := regReadBy s (reqOfLevel c.level) (agentNo c.level.val c.core) (regOff pa); (s, mk i (known v.toNat))
      | .scratch core off => (s, mk i (.scr core off t))
      | .phys ch =>
        if weightPlace s p then
          match readChunks s c.core ch with
          | some (s, b) => (s, mk i (known (extendLoad t (leNat b))))
          | none => (s, mk i (.mem ch t))
        else (s, mk i (.mem ch t))
    let (s, b) := loadParts s c t mk r
    (s, a ++ b)

/-! ### Loads -/

/-- Result of a load inside a region: the values and tags of its lanes. -/
def landTracked (s : State) (x : Ctx) (wide : Bool) (t : Ty) (d : Reg) (r : TrackRes × List (Nat × Nat × Option Sym)) : Res :=
  match r.1 with
  | .capacity => .abort stCapacity
  | .wait => .wait .tokens s
  | .ok s _ _ =>
    let c := r.2.foldl (fun c p => tagDest c p.1 wide d p.2.2) (clutchAt s x.cid)
    let accs := r.2.flatMap (fun p => accFor c p.1 wide d (known (extendLoad t p.2.1)))
    .done (setClutch s x.cid (if accs.isEmpty then c else addPend c accs none)) 0

/-- The request of a load: an ordered one is aligned and reaches no register (10 R360); an acquiring one at column scope or wider reads past
the L1 (07 R261). -/
def loadReq (s : State) (c : Clutch) (o : MOrd) (m : MemOp) (n : Nat) : Req :=
  { reqOf s c (baseReg c m.base) .load (if o = .relaxed then 0 else n) (decide (o = .relaxed)) with
    view := match acqScope o with
      | some sc => if scopeRank sc < 2 then .l1 else .past
      | none => .l1 }

/-- `ld` and `ldx` (10 R360). -/
def loadWord (t : Ty) (o : MOrd) (d : Reg) (m : MemOp) (x : Ctx) (s : State) : Res :=
  withAsks x.cid s (fun s =>
  let c := clutchAt s x.cid
  let n := (memSize t).getD 4
  let lanes := accLanes x.ex (isScl d)
  let q := loadReq s c o m n
  let ea := fun i => eaOf s c i m n
  match checkLanes s q lanes ea n (devReach c.level false) with
  | .stop r => r
  | .ok ps =>
    if c.region.isSome && ps.any (fun p => regionBars s p.2) then .abort stIllegal
    else match weightMisses s c.core ps with
    | _ :: _ => .wait .reply (weightAsk s (2 * x.cid) c.core ps)
    | [] => match syncFirst s x.cid (ps.map (·.2)) with
      | none => .wait .tokens s
      | some s =>
        if c.region.isSome then
          match trackLanes s x.cid n (ps.map (fun p => (p.1, (ea p.1).toNat, match p.2 with | .phys ch => ch | _ => []))) with
          | some r => landTracked s x (tyWide t) t d r
          | none => .wait .tokens s
        else
          let (s, accs) := loadParts s c t (fun i src => accFor c i (tyWide t) d src) ps
          let acq := acqScope o
          if accs.isEmpty && acq.isNone then .done s 0
          else .done (setClutch s x.cid (addPend (clutchAt s x.cid) accs acq)) 0)

def execLd (h : Hdr) (t : Ty) (o : MOrd) (d : Reg) (m : MemOp) (s : State) : Out :=
  word (.ld h t o d m) s (loadWord t o d m)

/-- `ldx` takes its class from its policy register (10 R360); classes change timing only (06 R227). -/
def execLdx (h : Hdr) (t : Ty) (o : MOrd) (d : Reg) (m : MemOp) (s : State) : Out :=
  word (.ldx h t o d m) s (loadWord t o d m)

/-- Register j of a vector range. -/
def vecReg (d : Reg) (j : Nat) : Reg :=
  match d with
  | .v k => if h : k.val + j < 128 then .v ⟨k.val + j, h⟩ else .v k
  | r => r

/-- A tracked `ldv` of one lane: bytes that the region has stored with the same size and address are forwarded with their tag, other
words take slots (10 R371, R380). -/
def trackVec (s : State) (cid lane ea : Nat) (ch : List (Nat × Nat)) : TrackRes :=
  match holdLines s cid (chunkLines ch) with
  | none => .wait
  | some s =>
    match (clutchAt s cid).region.bind (fun g => g.stores.find? (fun z => (bytePas z.chunks).any (fun b => (bytePas ch).contains b))) with
    | some z => if z.chunks = ch then .ok s z.val z.sym else trackOther s cid lane ea ch
    | none => trackOther s cid lane ea ch

/-- The tag of a forwarded pair goes to a pair of registers; any other destination of its words pins the slot (10 R371, R372). -/
def landVecTag (c : Clutch) (lane k : Nat) (d : Reg) : Option Sym → Clutch
  | none => c
  | some t => if k = 2 ∧ (match d with | .v j => j.val % 2 = 0 | _ => false) = true then tagDest c lane true d (some t) else pinSlot c t.slot

/-- `ldv` inside a region. -/
def trackVecs (s : State) (x : Ctx) (k : Nat) (d : Reg) (ea : Nat → Dword) : List (Nat × Place) → Res
  | [] => .done s 0
  | (i, p) :: r =>
    match trackVec s x.cid i (ea i).toNat (match p with | .phys ch => ch | _ => []) with
    | .capacity => .abort stCapacity
    | .wait => .wait .tokens s
    | .ok s v t =>
      let c := landVecTag (clutchAt s x.cid) i k d t
      let accs := (List.range k).flatMap (fun j => accFor c i false (vecReg d j) (known (v / 2 ^ (32 * j) % 2 ^ 32)))
      trackVecs (setClutch s x.cid (addPend c accs none)) x k d ea r

def execLdv (h : Hdr) (n : VecN) (d : Reg) (m : MemOp) (s : State) : Out :=
  word (.ldv h n d m) s (fun x s => withAsks x.cid s (fun s =>
    let c := clutchAt s x.cid
    let k := vecCount n
    let q := reqOf s c (baseReg c m.base) .load 4 false
    let ea := fun i => eaOf s c i m (4 * k)
    match checkLanes s q (lanesOf x.ex) ea (4 * k) (fun _ => false) with
    | .stop r => r
    | .ok ps =>
      if c.region.isSome && ps.any (fun p => regionBars s p.2) then .abort stIllegal
      else match weightMisses s c.core ps with
      | _ :: _ => .wait .reply (weightAsk s (2 * x.cid) c.core ps)
      | [] => match syncFirst s x.cid (ps.map (·.2)) with
        | none => .wait .tokens s
        | some s =>
          if c.region.isSome then trackVecs s x k d ea ps
          else
            let part := fun (p : Place) (j : Nat) => match p with
              | .phys ch => Place.phys (subChunks ch (4 * j) 4)
              | .scratch core off => .scratch core (off + 4 * j)
              | .dev pa => .dev pa
            let (s, accs) := (List.range k).foldl (fun (a : State × List PAcc) j =>
              let (s, b) := loadParts a.1 c .b32 (fun i src => accFor c i false (vecReg d j) src) (ps.map (fun p => (p.1, part p.2 j)))
              (s, a.2 ++ b)) (s, [])
            .done (setClutch s x.cid (addPend (clutchAt s x.cid) accs none)) 0))

/-! ### Stores -/

/-- Store the data of each lane, in lane order (07 R249). A releasing store enters the column write queue past the L1. -/
def storeLanes (s : State) (c : Clutch) (rel : Bool) : List (Nat × Place × List Byte) → Option State
  | [] => some s
  | (_, p, bs) :: t =>
    let s? : Option State := match p with
      | .dev pa => some (regWrite s (reqOfLevel c.level) (regOff pa) (BitVec.ofNat 64 (leNat bs))).1
      | .scratch core off => some (spWrite s core off bs)
      | .phys ch =>
        if rel then ch.foldl (fun a k => a.bind (fun (q : State × List Byte) =>
            (storeQueue q.1 c.core k.1 (q.2.take k.2)).map (fun s => (s, q.2.drop k.2)))) (some (s, bs)) |>.map (·.1)
        else storeL1 s c.core ch bs
    match s? with
    | none => none
    | some s => storeLanes s c rel t

/-- Steps shared by stores once their lanes pass: release, earlier loads and atomics of the same bytes, then the bytes. -/
def storeAll (s : State) (x : Ctx) (c : Clutch) (rel : Option Scope) (ps : List (Nat × Place × List Byte)) : Res :=
  let places := ps.map (fun p => p.2.1)
  match syncFirst s x.cid places with
  | none => .wait .tokens s
  | some s1 => match bindOverlaps s1 x.cid places with
    | none => .wait .tokens s
    | some s2 => match releaseOpt s2 x.cid rel with
      | none => .wait .tokens s
      | some s3 => match storeLanes s3 c rel.isSome ps with
        | none => .wait .tokens s
        | some s4 => .done s4 0

/-- Data of a store inside a region: a tag of matching width is kept, any other is pinned (10 R372, R374). -/
def storeTag (c : Clutch) (lane n : Nat) (wide : Bool) (d : Reg) : Option Sym :=
  if n = 4 ∨ n = 8 then fullTag c lane wide d else none

/-- `st` (10 R360). -/
def execSt (h : Hdr) (t : Ty) (o : MOrd) (d : Reg) (m : MemOp) (s : State) : Out :=
  word (.st h t o d m) s (fun x s =>
    let c := clutchAt s x.cid
    let n := (memSize t).getD 4
    let w := tyWide t
    let q := reqOf s c (baseReg c m.base) .store (if o = .relaxed then 0 else n) (decide (o = .relaxed))
    match checkLanes s q (lanesOf x.ex) (fun i => eaOf s c i m n) n (devReach c.level true) with
    | .stop r => r
    | .ok ps =>
      if c.region.isSome then
        if ps.any (fun p => regionBars s p.2) then .abort stIllegal
        else
          let c1 := pinRegs c x.ex (rgM m)
          let c2 := (lanesOf x.ex).foldl (fun c1 i =>
            if (storeTag c i n w d).isSome then c1 else (rg w d).foldl (fun c1 r => pinReg c1 i r) c1) c1
          match bufferStores c2 n (ps.map (fun p => (p.1, (match p.2 with | .phys ch => ch | _ => []), rdN s c p.1 w d, storeTag c p.1 n w d))) with
          | none => .abort stCapacity
          | some c3 => .done (setClutch s x.cid c3) 0
      else storeAll s x c (relScope o) (ps.map (fun p => (p.1, p.2, leBytes n (rdN s c p.1 w d)))))

/-- Bytes of the registers of a vector store. -/
def vecBytes (s : State) (c : Clutch) (lane k : Nat) (d : Reg) : List Byte :=
  (List.range k).flatMap (fun j => leBytes 4 (rd32 s c lane (vecReg d j)).toNat)

def execStv (h : Hdr) (n : VecN) (d : Reg) (m : MemOp) (s : State) : Out :=
  word (.stv h n d m) s (fun x s =>
    let c := clutchAt s x.cid
    let k := vecCount n
    let q := reqOf s c (baseReg c m.base) .store 4 false
    match checkLanes s q (lanesOf x.ex) (fun i => eaOf s c i m (4 * k)) (4 * k) (fun _ => false) with
    | .stop r => r
    | .ok ps =>
      if c.region.isSome then
        if ps.any (fun p => regionBars s p.2) then .abort stIllegal
        else match bufferStores c (4 * k) (ps.map (fun p =>
            (p.1, (match p.2 with | .phys ch => ch | _ => []), leNat (vecBytes s c p.1 k d), none))) with
          | none => .abort stCapacity
          | some c => .done (setClutch s x.cid c) 0
      else storeAll s x c none (ps.map (fun p => (p.1, p.2, vecBytes s c p.1 k d))))

/-! ### Prefetch, cache words, fences (10 R362, R363) -/

/-- Lines that the lanes of a prefetch name; a lane where a load would fault names none. -/
def loadLines (s : State) (c : Clutch) (ex : Mask) (m : MemOp) : List Nat :=
  (lanesOf ex).filterMap (fun i =>
    match locate s (reqOf s c (baseReg c m.base) .load 0 false) (eaOf s c i m 128) 1 with
    | .ok (.phys ((pa, _) :: _)) => some (pa / 128)
    | _ => none)

/-- Where an address of a clutch translates to, whatever its permissions: none for the scratchpad and where translation fails. -/
def bareLine (s : State) (c : Clutch) (va : Nat) : Option Nat :=
  let t := c.task.bind (taskAt s)
  match windowOf va, t with
  | .hole, _ => none
  | .scratch, _ => none
  | .colBank, none => none
  | .colBank, some t =>
    if (colExt t).isSome && decide (va - colBankBase < t.cbLen) then
      some ((bankBase + colOf t.core * (4 * gib) + t.cbBase + (va - colBankBase)) / 128) else none
  | _, _ => match t.bind (fun t => extHit t va 1) with
    | some e => some (frameOf s e va / 128)
    | none => match lookup s c.core (ctxOf s c) va with
      | .ok f sz _ => some ((f + va % sz) / 128)
      | _ => none

/-- The translation of such an address waits: for a promotion, or for the entries that it reads. -/
def bareWaits (s : State) (c : Clutch) (va : Nat) : Bool :=
  match windowOf va with
  | .global | .weight =>
    promoHolds s (ctxOf s c) va ||
    (match (c.task.bind (taskAt s)).bind (fun t => extHit t va 1) with
     | some e => !lineReady s (dieOf (colOf c.core)) (frameAt e va / 128)
     | none => lookup s c.core (ctxOf s c) va == .wait)
  | _ => false

/-- A word that names lines by such addresses waits while one does not translate yet. -/
def bareStop (s : State) (c : Clutch) (vas : List Nat) : Option Res :=
  if vas.any (bareWaits s c) then
    some (.wait .translation (vas.foldl (fun s va =>
      match windowOf va with
      | .global | .weight => xlTake s c.core (ctxOf s c) ((c.task.bind (taskAt s)).bind (fun t => extHit t va 1)) va
      | _ => s) s))
  else none

/-- Addresses of the lanes of `cwb` and `cinv`. -/
def cacheVas (s : State) (c : Clutch) (ex : Mask) (m : MemOp) : List Nat := (lanesOf ex).map (fun i => (eaOf s c i m 128).toNat)

/-- Lines that the lanes of `cwb` and `cinv` name: nothing but a failed translation and the scratchpad window stops them (10 R362). -/
def cacheLines (s : State) (c : Clutch) (ex : Mask) (m : MemOp) : List Nat := (cacheVas s c ex m).filterMap (bareLine s c)

/-- Request a line into an L1: a line that misses is filled, when nothing must be waited for. -/
def prefetchLine (s : State) (i line : Nat) : State :=
  let s := if isWeight s line then weightOld s i line else s
  if l1Has s i (128 * line) 128 then s
  else if isWeight s line && (weightSlice s i line).isNone && !inRoom s line then s
  else (cacheFillOp s i line).getD s

/-- Put a weight line of the reading room into the slice of core i's column, at the current version (06 R238, R239). -/
def weightToSlice (s : State) (i line : Nat) : State :=
  let s := weightOld s i line
  if (weightSlice s i line).isSome || !inRoom s line then s
  else sliceEnter s (colOf i) line { SliceLine.empty with ver := some (verOf s (weightExt line)), data := perfLine s line }

/-- Request a line into the slice of core i's column only (10 R362). -/
def prefetchSlice (s : State) (i line : Nat) : State :=
  if isWeight s line then weightToSlice s i line
  else match readAt s (dieOf (colOf i)) line with
    | none => s
    | some s => sliceTouch s (colOf i) line

/-- `prf` (10 R362); `prf.slice` changes no L1. -/
def execPrf (h : Hdr) (sliceOnly : Bool) (m : MemOp) (s : State) : Out :=
  word (.prf h sliceOnly m) s (fun x s =>
    let c := clutchAt s x.cid
    .done ((loadLines s c x.ex m).foldl (fun s l => if sliceOnly then prefetchSlice s c.core l else prefetchLine s c.core l) s) 0)

def fenceAcq : FenceKind → Bool | .acq => true | .rel => false | .ar => true
def fenceRel : FenceKind → Bool | .acq => false | .rel => true | .ar => true

/-- `fence` (10 R363). Inside a region it has no effect (10 R370). -/
def execFence (h : Hdr) (f : FenceKind) (sc : Scope) (s : State) : Out :=
  word (.fence h f sc) s (fun x s =>
    if (clutchAt s x.cid).region.isSome then .done s 0
    else match (if fenceRel f then releaseAll s x.cid sc else settleOps s x.cid) with
      | none => .wait .tokens s
      | some s => .done (if fenceAcq f then acquireOp s (clutchAt s x.cid).core sc else s) 0)

/-- `cwb` (10 R362): one line for each lane, or the whole L1. -/
def execCwb (h : Hdr) (m : Option MemOp) (s : State) : Out :=
  word (.cwb h m) s (fun x s =>
    let c := clutchAt s x.cid
    match bareStop s c (match m with | some m => cacheVas s c x.ex m | none => []) with
    | some r => r
    | none => match wbLines s c.core (match m with | some m => cacheLines s c x.ex m | none => l1Lines s c.core) with
      | none => .wait .tokens s
      | some s => .done s 0)

/-- `cinv` (10 R362). -/
def execCinv (h : Hdr) (m : Option MemOp) (s : State) : Out :=
  word (.cinv h m) s (fun x s =>
    let c := clutchAt s x.cid
    match bareStop s c (match m with | some m => cacheVas s c x.ex m | none => []) with
    | some r => r
    | none => match evictLines s c.core (match m with | some m => cacheLines s c x.ex m | none => l1Lines s c.core) with
      | none => .wait .tokens s
      | some s => .done s 0)

/-! ### Atomics (10 R365, R366) -/

/-- An atomic of the column-bank window, in the bank read-modify-write unit (06 R224, R233): the L1's and the column's bytes and accepted
writes of the line are performed first (07 R262, R265). While the unit cannot take it, or operations on the line wait there, it joins
them, and the requests that the slice holds (01 R29). -/
def bankAtomic (s : State) (i : Nat) (o : SyncOp) : Option (State × PSrc) :=
  let line := o.pa / 128
  let col := o.die - 4
  match (atomicPrep s i line).bind (fun s => drainAccepted s (dieOf col) line) with
  | none => none
  | some s =>
    if s.sync.any (fun q => decide (q.die = o.die) && decide (q.pa / 128 = line)) || !(unitIdle s col line || unitEarly s col line) then
      some (holdReq { s with sync := s.sync ++ [o] } col (.atomic line), .reply)
    else (syncRmw s o).map (fun q => (q.1, known q.2))

/-- The atomics of the lanes in increasing order; results are parts of pending result `id`. -/
def atomLanes (s : State) (x : Ctx) (c : Clutch) (op : AtomOp) (t : Ty) (ret : Bool) (id : Nat) (b cmp : Nat → Nat)
    (bankWin : Nat → Bool) (mk : Nat → PSrc → List PAcc) : List (Nat × Place) → Option (State × List PAcc)
  | [] => some (s, [])
  | (i, p) :: r =>
    let n := (memSize t).getD 4
    let f := fun old => atomNew op t old (b i) (cmp i)
    let one : Option (State × PSrc) := match p with
      | .scratch core off =>
        let old := leNat (spRead s core off n)
        some (spWrite s core off (leBytes n (f old)), known old)
      | .dev _ => some (s, known 0)
      | .phys ch =>
        let pa := (ch.headD (0, 0)).1
        let o : SyncOp := { die := if bankWin i then 4 + (pa - bankBase) / (4 * gib) else homeTower s pa, cid := x.cid, pend := id, lane := i, pa := pa,
                            op := op, t := t, b := BitVec.ofNat 64 (b i), cmp := BitVec.ofNat 64 (cmp i), ret := ret }
        if bankWin i then bankAtomic s c.core o
        else (atomicPrep s c.core (pa / 128)).map (fun s => ({ s with sync := s.sync ++ [o] }, .reply))
    match one with
    | none => none
    | some (s, src) => match atomLanes s x c op t ret id b cmp bankWin mk r with
      | none => none
      | some (s, acc) => some (s, mk i src ++ acc)

/-- `atom` and `red`; `d` is `zero` for `red`. -/
def atomicWord (op : AtomOp) (t : Ty) (o : MOrd) (d base b : Reg) (x : Ctx) (s : State) : Res :=
  let c := clutchAt s x.cid
  let n := (memSize t).getD 4
  let w := tyWide t
  let q := reqOf s c (baseReg c base) .atomic n false
  let ea := fun i => baseVal s c i base
  match checkLanes s q (lanesOf x.ex) ea n (fun _ => false) with
  | .stop r => r
  | .ok ps =>
    match bindOverlaps s x.cid (ps.map (·.2)) with
    | none => .wait .tokens s
    | some s1 => match releaseOpt s1 x.cid (relScope o) with
      | none => .wait .tokens s
      | some s2 =>
        let id := if isVec d || (acqScope o).isSome then freshId (clutchAt s2 x.cid) else 0
        let ret := isVec d
        match atomLanes s2 x c op t ret id (fun i => rdN s c i w b) (fun i => rdN s c i w d)
            (fun i => decide (windowOf (ea i).toNat = .colBank)) (fun i src => accFor c i w d src) ps with
        | none => .wait .tokens s
        | some (s3, accs) =>
          if accs.isEmpty && (acqScope o).isNone then .done s3 0
          else .done (setClutch s3 x.cid (addPend (clutchAt s3 x.cid) accs (acqScope o))) 0

def execAtom (h : Hdr) (op : AtomOp) (t : Ty) (o : MOrd) (d base b : Reg) (s : State) : Out :=
  word (.atom h op t o d base b) s (atomicWord op t o d base b)

def execRed (h : Hdr) (op : AtomOp) (t : Ty) (o : MOrd) (base b : Reg) (s : State) : Out :=
  word (.red h op t o base b) s (atomicWord op t o .zero base b)

end Sys2Proof.Machine
end

