-- ==== Sys2Proof/Machine/Regions.lean ====
section
/-! DEFINITION. Atomic regions: opening, ending, aborting, pinning, status, and the commit (10 R367 to R381). -/

namespace Sys2Proof.Machine

/-- Clutches with an open region among those that share a clutch's region contexts (10 R368). -/
def regionsOpen (s : State) (c : Clutch) : Nat :=
  match c.task.bind (taskAt s) with
  | none => 0
  | some t => (t.clutches.filter (fun k => (clutchAt s k).region.isSome)).length

/-- Region contexts of a clutch's task; a host core has one of its own. -/
def regionCtxs (s : State) (c : Clutch) : Nat :=
  match c.task.bind (taskAt s) with
  | none => 1
  | some t => t.regions

def Region.opened (p : Mask) (d : Fin 64) (hold : Option Nat) : Region :=
  { p := p, statusR := d, endReg := none, slots := [], constrs := [], stores := [], entries := [], words := 0, hold := hold, held := [],
    sTags := [], wrote := [], wroteA := [], flagged := 0 }

/-- Number of a scalar register. -/
def sclNo : Reg → Fin 64
  | .s n => n
  | _ => 0

/-- `atx.begin` (10 R368). -/
def execAtxBegin (h : Hdr) (d : Reg) (disp : BitVec 20) (s : State) : Out :=
  word (.atxBegin h d disp) s (fun x s =>
    let c := clutchAt s x.cid
    match c.region with
    | some _ =>
      if (lanesOf x.ex).any (fun i => decide (255 ≤ (laneAt c i).depth)) then .abort stIllegal
      else .done (setClutch s x.cid (modLanes c x.ex (fun _ l => { l with depth := l.depth + 1 }))) 0
    | none =>
      let c := { c with regionF := if c.regionAddr = x.ia then c.regionF else 0, regionAddr := x.ia }
      let c := modLanes c x.ex (fun _ l => { l with fbPc := dispTo x.ia disp, fbWbv := l.wbv, depth := 1, arrived := false, tags := [] })
      let open_ := { c with region := some (Region.opened x.ex (sclNo d) (if c.regionF = 4 then some s.tsc.toNat else none)) }
      if regionCtxs s c = 0 then .enter (regionAbort (setClutch s x.cid open_) x.cid stCapacity)
      else if regionCtxs s c ≤ regionsOpen s c then .wait .regionCtx s
      else .done (setClutch s x.cid open_) 0)

/-- ILLEGAL of a region word outside a region (10 R369). -/
def outsideRegion (i : Instr) (x : Ctx) : Res := .trap cIllegal ((encode i).getD 0) x.at_

/-- `atx.end` (10 R369): a lane whose depth reaches 0 arrives. The commit is a step of its own. -/
def execAtxEnd (h : Hdr) (d : Reg) (s : State) : Out :=
  word (.atxEnd h d) s (fun x s =>
    let c := clutchAt s x.cid
    match c.region with
    | none => outsideRegion (.atxEnd h d) x
    | some g =>
      let c := modLanes c x.ex (fun _ l => { l with depth := l.depth - 1, arrived := decide (l.depth ≤ 1) })
      .done (setClutch s x.cid { c with region := some { g with endReg := some (sclNo d) } }) 0)

/-- `atx.abort` (10 R369, R378). -/
def execAtxAbort (h : Hdr) (code : BitVec 8) (s : State) : Out :=
  word (.atxAbort h code) s (fun x s =>
    match (clutchAt s x.cid).region with
    | none => outsideRegion (.atxAbort h code) x
    | some _ => .abort (stExplicit + 256 * code.toNat))

/-- `atx.pin` (10 R381). -/
def execAtxPin (h : Hdr) (a : Reg) (s : State) : Out :=
  word (.atxPin h a) s (fun x s =>
    match (clutchAt s x.cid).region with
    | none => outsideRegion (.atxPin h a) x
    | some _ => .done (modClutch s x.cid (fun c => pinRegs c x.ex [a])) 0)

/-- Value of `atx.stat` (10 R381). -/
def regionStat (c : Clutch) : Nat :=
  match c.region with
  | none => c.regionF * 2 ^ 21 + (if c.regionF = 4 then 2 ^ 24 else 0)
  | some g => g.slots.length + g.constrs.length * 2 ^ 7 + g.entries.length * 2 ^ 14 + c.regionF * 2 ^ 21
      + (if g.hold.isSome then 2 ^ 24 else 0) + 2 ^ 25

def execAtxStat (h : Hdr) (d : Reg) (s : State) : Out :=
  word (.atxStat h d) s (aluLong d false (fun _ c _ => (regionStat c, 0)))

/-! ### The commit (10 R376, R377) -/

/-- Lines that a region touches, in increasing physical address. -/
def insNat (a : Nat) : List Nat → List Nat
  | [] => [a]
  | b :: t => if a < b then a :: b :: t else if a = b then b :: t else b :: insNat a t

def storeLines (g : Region) : List Nat :=
  ((g.stores.flatMap (fun r => bytePas r.chunks)).map (· / 128)).foldl (fun l a => insNat a l) []

def regionLines (g : Region) : List Nat := (g.slots.map (fun x => x.pa / 32)).foldl (fun l a => insNat a l) (storeLines g)

/-- The core drops the lines and its column's queue performs its entries (07 R265). -/
def prepLines (s : State) (i : Nat) : List Nat → Option State
  | [] => some s
  | l :: t => match atomicPrep s i l with
    | none => none
    | some s => prepLines s i t

/-- Gather the tokens of the commit, in line order; the line whose tokens are not to be had. -/
def gatherLines (s : State) (cid die : Nat) (full : List Nat) : List Nat → Except Nat State
  | [] => .ok s
  | l :: t =>
    match (if full.contains l then gatherAll s die l (some cid) else gatherSpare s die l cid) with
    | none => .error l
    | some s => gatherLines s cid die full t

/-- Fresh value of a slot: of both words for the first slot of a 64-bit load. -/
def freshVal (s : State) (x : LoadSlot) : Nat := perfNat s (4 * x.pa) (if x.kind = .lo then 8 else 4)

/-- Observed value of slot k. -/
def obsVal (g : Region) (k : Nat) (x : LoadSlot) : Nat :=
  x.obs.toNat + (if x.kind = .lo then 2 ^ 32 * ((listGet g.slots (k + 1)).map (·.obs.toNat)).getD 0 else 0)

/-- Does a constraint hold for a fresh value (10 R373)? -/
def holdsFor (k : Constr) (f : Nat) : Bool :=
  let w := if k.wide then 64 else 32
  let t : Ty := if k.signed then (if k.wide then .i64 else .i32) else (if k.wide then .n64 else .n32)
  let v := (f + k.c.toNat) % 2 ^ w
  iCmp k.cc t (if k.symLeft then v else k.y.toNat) (if k.symLeft then k.y.toNat else v) == k.result

/-- What the check of the slots gives. -/
inductive SlotRes where
  | ok (changed : Bool)
  | abort (status : Nat)
  | poison (lane va : Nat)
  deriving DecidableEq, Repr

/-- A fresh value of core i is read from a poisoned line: a weight line's copy in its column's slice, or the line at its home (06 R225,
R238). -/
def freshPoison (s : State) (i line : Nat) : Bool :=
  linePoison s line || (match weightSlice s i line with | some l => l.poison | none => false)

/-- Check the slots in order, from slot k on. -/
def checkSlots (s : State) (i : Nat) (g : Region) : Nat → Bool → List LoadSlot → SlotRes
  | _, ch, [] => .ok ch
  | k, ch, x :: t =>
    if freshPoison s i (x.pa / 32) then .poison x.lane x.va
    else if freshVal s x = obsVal g k x then checkSlots s i g (k + 1) ch t
    else if x.pinned then .abort (stConflict + 256 * k)
    else if (g.constrs.filter (fun c => decide (c.slot = k))).all (fun c => holdsFor c (freshVal s x)) then checkSlots s i g (k + 1) true t
    else .abort (stConstraint + 256 * k)

/-- (fresh + c) mod 2^w of a tag. -/
def symVal (s : State) (g : Region) (t : Sym) : Nat :=
  let f := match listGet g.slots t.slot with | some x => freshVal s x | none => 0
  (f + t.c.toNat) % 2 ^ (if t.wide then 64 else 32)

/-- The buffered stores with their final values, oldest first. -/
def finalStores (s : State) (g : Region) : List (List (Nat × Nat) × List Byte) :=
  g.stores.reverse.map (fun r => (r.chunks, leBytes r.size (match r.sym with | some t => symVal s g t | none => r.val)))

/-- Perform bytes at chunks. -/
def performChunks (s : State) : List (Nat × Nat) → List Byte → State
  | [], _ => s
  | (pa, n) :: t, bs => performChunks (performBytes s pa (bs.take n)) t (bs.drop n)

/-- Half of a repaired value that belongs at a tag's key: the odd half of a pair is the upper one. -/
def symHalf (s : State) (g : Region) (t : Sym) (key : Nat) : Word :=
  BitVec.ofNat 32 (if t.wide && decide (key % 2 = 1) then symVal s g t / 2 ^ 32 else symVal s g t)

/-- Storage of a tag's key in a lane. -/
def keyPlace (lane key : Nat) : Dst := if key < 16 then .g lane key else .st lane (key - 16)

/-- Every tagged register takes its repaired value. -/
def repairRegs (s : State) (g : Region) (c : Clutch) : Clutch :=
  let c1 := (lanesOf g.p).foldl (fun c1 i => (tsome (laneAt c i).tags).foldl (fun c1 p => setPlace c1 (keyPlace i p.1) (symHalf s g p.2 p.1)) c1) c
  (tsome g.sTags).foldl (fun c1 p => setPlace c1 (.s p.1) (symHalf s g p.2 p.1)) c1

/-- The region ends: every lane is eligible again. -/
def closeRegion (c : Clutch) (g : Region) : Clutch :=
  { modLanes c g.p (fun _ l => { l with depth := 0, arrived := false, tags := [] }) with region := none, wait := none }

/-- Every lane of P has arrived. -/
def allArrived (c : Clutch) (g : Region) : Bool := (lanesOf g.p).all (fun i => (laneAt c i).arrived)

/-- The commit, once its release has been made (10 R377, 07 R267, R274); tokens that an active request claims go to it then (06 R230). -/
def commitNow (s : State) (cid : Nat) (g : Region) : State :=
  let c := clutchAt s cid
  match checkSlots s c.core g 0 false g.slots with
  | .abort st => regionAbort s cid st
  | .poison lane va => takeTrap s cid cPoison (BitVec.ofNat 64 va) (laneBit lane) 0 0 (.atxEnd { stop := false, pred := .always } .zero)
  | .ok changed =>
    let c1 := closeRegion (repairRegs s g c) g
    let c2 := setPlace { c1 with regionF := 0 } (.s (g.endReg.getD 0).val) (if changed then BitVec.ofNat 32 stRepaired else 0)
    let s1 := (finalStores s g).foldl (fun s w => performChunks s w.1 w.2) s
    forwardLines (acquireOp (setClutch s1 cid (kwaitAll c2)) c.core .pkg) (dieOf (colOf c.core)) (regionLines g)

/-- The registrar takes over the tokens of the attempt, and attempts of lower rank surrender theirs (07 R276). -/
def forCommit (s : State) (cid : Nat) (g : Region) : State :=
  modClutch ((regionLines g).foldl (fun s l => surrender s l cid) s) cid (fun c =>
    { c with region := c.region.map (fun r => { r with held := [] }) })

/-- REGION_COMMIT: when every lane of P has arrived. While tokens cannot be gathered it waits, and the registrar requests them, in the end
by a persistent request (10 R376). -/
def execRegionCommit (cid : Nat) (s : State) : Out :=
  let s0 := s
  let c := clutchAt s cid
  match c.region with
  | none => .next s
  | some g =>
    if !(runs s c && allArrived c g) then .next s
    else match releaseAll (forCommit s cid g) cid .pkg with
      | none => .next s0
      | some s => match prepLines s c.core (regionLines g) with
        | none => .next s0
        | some s => match gatherLines s cid (dieOf (colOf c.core)) (storeLines g) (regionLines g) with
          | .error l => .next (transientRequest s0 (dieOf (colOf c.core)) l ((storeLines g).contains l))
          | .ok s => match readsAt s (dieOf (colOf c.core)) ((regionLines g).filter (fun l => !isWeight s l)) with
            | none => .next s0
            | some s => .next (commitNow s cid g)

end Sys2Proof.Machine
end

