-- ==== Sys2Proof/Machine/Engines.lean ====
section
/-! DEFINITION. Engine contexts: issue, completion, errors and their status record (12 R422 to R427, 07 R269 to R272, 03 R115),
`tlwait`, `tlget` and `wqry` (12 R435 to R438). -/

namespace Sys2Proof.Machine

/-! ### Status record (12 R425, R426) -/

def eFormat : Nat := 1
def eWindow : Nat := 2
def eMisalign : Nat := 3
def eBounds : Nat := 4
def eProtection : Nat := 6
def ePoison : Nat := 7
def ePlacement : Nat := 8
def eMeta : Nat := 9
def eInstall : Nat := 10

/-- Error code of a failed check of 06 R214. -/
def engCode (cause : Nat) : Nat :=
  if cause = cWindow then eWindow else if cause = cMisalign then eMisalign else if cause = cBounds then eBounds
  else if cause = cPage then 5 else if cause = cPoison then ePoison else eProtection

/-- Flags not yet merged. -/
def pflags (x : EngCtx) : Fl := x.cflags.foldl (fun a p => a ||| p.2) 0

/-- The error word (12 R426). -/
def errWord (x : EngCtx) : Nat :=
  x.code.toNat + x.sub.toNat * 2 ^ 8 + (pflags x).toNat * 2 ^ 16 + (if x.deliv then 2 ^ 22 else 0) + (if x.ovf then 2 ^ 23 else 0)
    + x.cmd.toNat % 2 ^ 32 * 2 ^ 32

/-- Commands issued and not completed (12 R422). -/
def outstanding (x : EngCtx) : Nat := x.issued - x.done - x.finished.length

/-- Does `ENG_TRAP` make errors of context e deliverable (12 R427)? -/
def engTrapBit (s : State) (r : EngRef) (e : Nat) : Bool :=
  match r with
  | .task t => match taskAt s t with
    | some x => x.engTrap.getLsbD e
    | none => false
  | .host c => (hostAt s c).engTrap.getLsbD e

/-! ### Timeline areas (03 R115) -/

/-- `TLPUB` of a task's launch. -/
def tlpubOf (s : State) (t : Task) : Nat :=
  match launchAt s t.launch with
  | some l => bits l.record.toNat (8 * 0x38) 64
  | none => 0

/-- TIMELINE_PUBLISH: a context's completed count goes to its word, when it exceeds the value last written there; a write that
faults is dropped. None while the line's tokens are kept. -/
def publish (s : State) (r : EngRef) (e : Nat) : Option State :=
  match r with
  | .host _ => some s
  | .task t => match taskAt s t with
    | none => some s
    | some x =>
      let d := (engAt s r e).done
      if tlpubOf s x = 0 ∨ d ≤ tget 0 x.pub e then some s
      else
        let q : Req := { core := x.core, ctx := x.ctx, user := x.user, host := false, landed := false, task := none, areg := none,
                         acc := .store, align := 8, devOk := false, view := .slice }
        let va := tlpubOf s x + 64 * x.number + 8 * e
        match takeAccess s q va 8 with
        | none => none
        | some s =>
        match locate s q (BitVec.ofNat 64 va) 8 with
        | .ok (.phys ((pa, _) :: _)) =>
          match performAt s (dieOf (colOf x.core)) pa (leBytes 8 d) with
          | none => none
          | some s => some (modTask s t (fun k => { k with pub := tput 0 k.pub e d }))
        | _ => some s

/-! ### Completion (07 R270) -/

/-- The completed prefix: commands in rising order above `d`. -/
def donePrefix : Nat → List Nat → Nat × List Nat
  | d, [] => (d, [])
  | d, n :: t => if n = d + 1 then donePrefix n t else (d, n :: t)

/-- A command is complete: an orphan leaves no trace (04 R144). -/
def completeCmd (s : State) (id : Nat) : Option State :=
  match cmdAt s id with
  | none => some s
  | some k =>
    let s := delCmd s id
    if k.orphan then some s
    else
      let x := engAt s k.ref k.e
      let p := donePrefix x.done (insNat k.n x.finished)
      publish (setEng s k.ref k.e { x with done := p.1, finished := p.2 }) k.ref k.e

/-- An error has been recorded: the stop words that the issuer has completed are past, so that it is delivered at the next one (12 R427);
the stop word of a parked clutch is still to be completed. -/
def pastStop (s : State) (cid : Nat) : State :=
  match tget none s.clutches cid with
  | some c => if c.parked then s else setClutch s cid { c with atStop := none }
  | none => s

/-- A command fails, and counts as completed at once (12 R425, R427). -/
def failCmd (s : State) (id code sub detail : Nat) : Option State :=
  match cmdAt s id with
  | none => some s
  | some k =>
    if k.orphan then completeCmd s id
    else
      let x := engAt s k.ref k.e
      let x := if x.code = 0 then { x with
          code := BitVec.ofNat 8 code, sub := BitVec.ofNat 8 sub, cmd := BitVec.ofNat 64 k.n, detail := BitVec.ofNat 64 detail,
          deliv := engTrapBit s k.ref k.e, failer := some k.issuer }
        else { x with ovf := true }
      completeCmd (pastStop (setEng s k.ref k.e x) k.issuer) id

/-- Flags of a command go to the status record (07 R272). -/
def cmdFlags (s : State) (k : Cmd) (f : Fl) : State :=
  if k.orphan then s
  else
    let x := engAt s k.ref k.e
    setEng s k.ref k.e { x with cflags := tput 0 x.cflags k.n (tget 0 x.cflags k.n ||| f) }

/-- Commands that run on while their task is out (04 R141). -/
def detachedKind : CmdKind → Bool
  | .gather => true | .reduce => true | .convert => true | .install => true | _ => false

/-- A command reads or writes the column-bank window, or the scratchpad window: an address of its block lies there. -/
def touches (w : Window) (k : Cmd) : Bool := (List.range 16).any (fun i => decide (windowOf (bits k.block.toNat (64 * i) 64) = w))

/-- Commands that follow a migrating task: those whose stopping point the scratchpad asks for (04 R148). -/
def follows (k : Cmd) : Bool := k.kind == .matrix || k.kind == .stream || touches .scratch k

/-- A command of a resident gang runs; while its gang begins to migrate, one that uses the column-bank window or only global memory does
(04 R148). -/
def gangRuns (g : Gang) (k : Cmd) : Bool := g.state == .resident || (g.state == .migrating && (touches .colBank k || !follows k))

/-- A command may take its next step. -/
def cmdRuns (s : State) (k : Cmd) : Bool :=
  live s && !k.ended && (k.orphan || detachedKind k.kind ||
    (match k.ref with
     | .host _ => true
     | .task t => match taskAt s t with
       | none => false
       | some x => !k.stopped && x.state == .resident &&
         (match gangAt s x.gang with | some g => gangRuns g k | none => false)))

/-- The step of a state, or none when it must wait. -/
def orStay (s : State) : Option State → Out
  | some t => .next t
  | none => .next s

/-- ENGINE_COMMAND_COMPLETE: a command whose work is over is counted (07 R270), while the engines are clocked (02 R77). -/
def execEngineCommandComplete (id : Nat) (s : State) : Out :=
  match cmdAt s id with
  | none => .next s
  | some k => if k.ended && live s then orStay s (completeCmd s id) else .next s

/-! ### Issue (12 R422 to R424) -/

/-- The request that an engine makes for a command. -/
def engReq (s : State) (k : Cmd) (acc : AccKind) (align : Nat) : Req :=
  { core := k.core, ctx := k.ctx, user := k.user, host := (match k.ref with | .host _ => true | .task _ => false), landed := false,
    task := (match k.ref with | .task t => taskAt s t | .host _ => none), areg := none, acc := acc, align := align, devOk := false,
    view := .slice }

/-- A new command of context e, with its number; its identifier is fresh in the package. -/
def newCmd (s : State) (cid e : Nat) (kind : CmdKind) (pkgScope : Bool) (blk : BitVec 1024) (va : Nat) : State :=
  let c := clutchAt s cid
  let r := engRef c
  let x := engAt s r e
  let n := x.issued + 1
  let id := s.pkg.serial
  let s := setEng s r e { x with issued := n, pkgCmds := if pkgScope then x.pkgCmds ++ [n] else x.pkgCmds }
  let s := { s with pkg := { s.pkg with serial := id + 1 } }
  setCmd s id { ref := r, e := e, n := n, issuer := cid, kind := kind, ctx := ctxOf s c, user := userLevel c, core := c.core,
                block := blk, blockVa := va, progress := 0, ended := false, orphan := false, stopped := false, dests := [] }

/-- Issue of a command whose block has been read at `va`: `extra` gives a check of R424 that fails, `after` what issue does beside. -/
def issueRead (s : State) (x : Ctx) (e : Nat) (kind : CmdKind) (sc : Scope) (va : Nat) (blk : BitVec 1024)
    (extra : Option Res) (after : State → State) : Res :=
  match extra with
  | some r => r
  | none =>
    if 32 ≤ outstanding (engAt s (engRef (clutchAt s x.cid)) e) then .wait .command s
    else match releaseAll s x.cid sc with
      | none => .wait .tokens s
      | some s => .done (after (newCmd s x.cid e kind (decide (sc = .pkg)) blk va)) 0

/-- The six command words (12 R423, R424). -/
def issueCmd (e : Nat) (kind : CmdKind) (sc : Scope) (base : Reg) (extra : State → Clutch → BitVec 1024 → Option Res)
    (after : Clutch → BitVec 1024 → State → State) (x : Ctx) (s : State) : Res :=
  withAsks x.cid s (fun s =>
  let c := clutchAt s x.cid
  if c.pad.isSome then .trap cLeap 0 x.at_
  else if engCount s c ≤ e then .trap cBounds 0 x.at_
  else
    let ea := baseVal s c (lowLane x.ex) base
    match checkLanes s (reqOf s c (baseReg c base) .load 128 false) [lowLane x.ex] (fun _ => ea) 128 (fun _ => false) with
    | .stop r => r
    | .ok ps => match weightMisses s c.core ps with
      | _ :: _ => .wait .reply (weightAsk s (2 * x.cid) c.core ps)
      | [] => match syncFirst s x.cid (ps.map (·.2)) with
        | none => .wait .tokens s
        | some s => match (ps.head?).bind (fun p => readPlace s c.core p.2 128) with
          | none => .wait .tokens s
          | some (s, bs) =>
            let blk : BitVec 1024 := BitVec.ofNat 1024 (leNat bs)
            issueRead s x e kind sc ea.toNat blk (extra s c blk) (after c blk))

def noCheck : State → Clutch → BitVec 1024 → Option Res := fun _ _ _ => none
def noMore : Clutch → BitVec 1024 → State → State := fun _ _ s => s

def execCpy (h : Hdr) (e : Fin 8) (a : Reg) (s : State) : Out :=
  word (.cpy h e a) s (issueCmd e.val .copy .pkg a noCheck noMore)

def execNmeGth (h : Hdr) (e : Fin 8) (a : Reg) (s : State) : Out :=
  word (.nmeGth h e a) s (issueCmd e.val .gather .pkg a noCheck noMore)

def execNmeRed (h : Hdr) (e : Fin 8) (a : Reg) (s : State) : Out :=
  word (.nmeRed h e a) s (issueCmd e.val .reduce .pkg a noCheck noMore)

def execNmeCvt (h : Hdr) (e : Fin 8) (a : Reg) (s : State) : Out :=
  word (.nmeCvt h e a) s (issueCmd e.val .convert .pkg a noCheck noMore)

def execWinst (h : Hdr) (e : Fin 8) (a : Reg) (s : State) : Out :=
  word (.winst h e a) s (issueCmd e.val .install .pkg a noCheck noMore)

/-! ### Queue control words (05 R178) -/

/-- Queue control word of a clutch's task. -/
def queueAt (s : State) (t : Nat) (q : Nat) : Nat :=
  match taskAt s t with
  | some x => (tget 0 x.queues q).toNat
  | none => 0

def setQueue (s : State) (t q w : Nat) : State := modTask s t (fun x => { x with queues := tput 0 x.queues q (BitVec.ofNat 64 w) })

def qBase (w : Nat) : Nat := bits w 0 21
def qDepth (w : Nat) : Nat := bits w 21 4
def qSize (w : Nat) : Nat := 2 ^ bits w 25 2
def qHead (w : Nat) : Nat := bits w 28 16
def qTail (w : Nat) : Nat := bits w 44 16
def qState (w : Nat) : Nat := bits w 60 2
def qDone (w : Nat) : Bool := decide (bits w 62 1 = 1)
def qCount (w : Nat) : Nat := (qTail w + 65536 - qHead w) % 65536

/-- Allocation offset of element n. -/
def qElem (w n : Nat) : Nat := qBase w + n % 2 ^ qDepth w * qSize w

/-- The task of a clutch. -/
def taskNo (c : Clutch) : Nat := c.task.getD 0

/-- `astr` (12 R430): the queue must be OFF with a valid depth; it becomes a STREAM queue. -/
def astrCheck (x : Ctx) (s : State) (c : Clutch) (blk : BitVec 1024) : Option Res :=
  let q := bits blk.toNat (8 * 0x14) 4
  let w := queueAt s (taskNo c) q
  if qState w ≠ 0 ∨ qDepth w = 0 ∨ qDepth w = 15 then some (.trap cFifo (BitVec.ofNat 64 q) x.at_) else none

def astrStart (c : Clutch) (blk : BitVec 1024) (s : State) : State :=
  let q := bits blk.toNat (8 * 0x14) 4
  setQueue s (taskNo c) q (setBits (setBits (queueAt s (taskNo c) q) 60 2 2) 62 1 0)

def execAstr (h : Hdr) (e : Fin 8) (a : Reg) (s : State) : Out :=
  word (.astr h e a) s (fun x s => issueCmd e.val .stream .core a (astrCheck x) astrStart x s)

/-! ### Waiting on and reading a context (12 R436 to R438) -/

/-- The checks that `tlwait` and `tlget` share. -/
def ctxFault (s : State) (x : Ctx) (e : Nat) : Option Res :=
  let c := clutchAt s x.cid
  if c.pad.isSome then some (.trap cLeap 0 x.at_)
  else if engCount s c ≤ e then some (.trap cBounds 0 x.at_) else none

/-- The clutch waits in a `tlwait` whose count it has taken (12 R436). -/
def inTlwait (c : Clutch) : Bool := match c.wait with | some w => w.kind == .tlwait | none => false

/-- Widest engine scope among commands 1 to n (07 R271). -/
def tlScope (x : EngCtx) (n : Nat) : Scope := if x.pkgCmds.any (fun k => decide (k ≤ n)) then .pkg else .core

/-- The return of `tlwait` on count n: flags, `ENG_STAT` and the acquire. -/
def tlReturn (s : State) (cid e n : Nat) : State :=
  let r := engRef (clutchAt s cid)
  let x := engAt s r e
  let merged : Fl := (x.cflags.filter (fun p => decide (p.1 ≤ n))).foldl (fun a p => a ||| p.2) 0
  let s := setEng s r e { x with cflags := x.cflags.filter (fun p => decide (n < p.1)) }
  let mine : Bool := x.code ≠ 0 ∧ x.cmd.toNat ≤ n
  let stat := (if mine then x.code.toNat + x.sub.toNat * 256 else 0) + merged.toNat * 2 ^ 16 + (if x.ovf then 2 ^ 22 else 0)
  let s := modClutch s cid (fun c => { c with flags := c.flags ||| merged, engStat := BitVec.ofNat 32 stat })
  acquireOp s (clutchAt s cid).core (tlScope x n)

def execTlwait (h : Hdr) (e : Fin 8) (a : Reg) (s : State) : Out :=
  word (.tlwait h e a) s (fun x s =>
    match ctxFault s x e.val with
    | some r => r
    | none =>
      let c := clutchAt s x.cid
      let k := engAt s (engRef c) e.val
      let n := if inTlwait c then c.waitArg
        else match a with | .zero => k.issued | _ => (rd64 s c (lowLane x.ex) a).toNat
      if k.issued < n then .trap cBounds 0 x.at_
      else if k.done < n then .wait .tlwait (modClutch s x.cid (fun c => { c with waitArg := n }))
      else .done (tlReturn s x.cid e.val n) 0)

/-- A long-class result that is one number for the clutch. -/
def pendValue (s : State) (x : Ctx) (wide : Bool) (d : Reg) (v : Nat) : State :=
  setClutch s x.cid (pendAll (clutchAt s x.cid) x.ex wide d (fun _ => v))

def tlField (x : EngCtx) : TlField → Nat
  | .issued => x.issued
  | .done => x.done
  | .err => errWord x
  | .detail => x.detail.toNat

def execTlget (h : Hdr) (f : TlField) (d : Reg) (e : Fin 8) (s : State) : Out :=
  word (.tlget h f d e) s (fun x s =>
    match ctxFault s x e.val with
    | some r => r
    | none => .done (pendValue s x true d (tlField (engAt s (engRef (clutchAt s x.cid)) e.val) f)) 0)

/-- `tlget.clr`: the error word, and the record is cleared but for PFLAGS. -/
def execTlgetClr (h : Hdr) (d : Reg) (e : Fin 8) (s : State) : Out :=
  word (.tlgetClr h d e) s (fun x s =>
    match ctxFault s x e.val with
    | some r => r
    | none =>
      let r := engRef (clutchAt s x.cid)
      let k := engAt s r e.val
      let s := setEng s r e.val { k with code := 0, sub := 0, deliv := false, ovf := false, cmd := 0, detail := 0 }
      .done (pendValue s x true d (errWord k)) 0)

/-! ### `wqry` (12 R435) -/

/-- The extent is marked installing (06 R242). -/
def installing (s : State) (ext : Nat) : Bool := s.weights.installs.any (fun i => decide (i.ext = ext))

/-- Version and installing mark of the extent at a place. -/
def wqryVal (s : State) (p : Place) : Nat :=
  let ext := weightExt (placePa p / 128)
  (verOf s ext).toNat + (if installing s ext then 2 ^ 32 else 0)

def execWqry (h : Hdr) (d a : Reg) (s : State) : Out :=
  word (.wqry h d a) s (fun x s =>
    let c := clutchAt s x.cid
    let q := { reqOf s c (baseReg c a) .load 0 false with view := .none }
    let ea := fun i => baseVal s c i a
    match gatherChecks s .load (accLanes x.ex (isScl d)) ea (fun i =>
        windowed (decide (windowOf (ea i).toNat = .weight)) (locate s q (ea i) 1)) (fun i => accessTake q (ea i) 1) with
    | .stop r => r
    | .ok ps =>
      let accs := ps.flatMap (fun p => accFor c p.1 true d (known (wqryVal s p.2)))
      .done (if accs.isEmpty then s else setClutch s x.cid (addPend c accs none)) 0)

end Sys2Proof.Machine
end

