-- ==== Sys2Proof/Machine/Copies.lean ====
section
/-! DEFINITION. Copies (12 R428, R429, 07 R273) and access-engine streams (12 R430, 05 R180). -/

namespace Sys2Proof.Machine

/-! ### Ranges of an engine -/

/-- The parts of [va, va + n) that lie in one line each. -/
def piecesFrom : Nat → Nat → Nat → List (Nat × Nat)
  | 0, _, _ => []
  | k + 1, va, n =>
    if n = 0 then []
    else
      let a := natMin n (128 - va % 128)
      (va, a) :: piecesFrom k (va + a) (n - a)

def pieces (va n : Nat) : List (Nat × Nat) := piecesFrom (n / 128 + 2) va n

/-- Every part of a range translated and checked. -/
def locatePieces (s : State) (q : Req) (va n : Nat) : List (Nat × Nat × Except XErr Place) :=
  (pieces va n).map (fun p => (p.1, p.2, locate s q (BitVec.ofNat 64 p.1) p.2))

/-- The first part that fails. -/
def firstBad : List (Nat × Nat × Except XErr Place) → Option (Nat × XErr)
  | [] => none
  | (va, _, .error e) :: _ => some (va, e)
  | _ :: t => firstBad t

/-- Bytes of a place read at the slice, or in the scratchpad (07 R269). -/
def sliceRead (s : State) (p : Place) (n : Nat) : List Byte :=
  match p with
  | .scratch core off => spRead s core off n
  | .phys ch => (bytePas ch).map (perfByte s)
  | .dev _ => []

/-- The bytes of located parts. -/
def readPieces (s : State) (ps : List (Nat × Nat × Except XErr Place)) : List Byte :=
  ps.flatMap (fun p => match p.2.2 with | .ok x => sliceRead s x p.2.1 | .error _ => [])

/-- Write bytes at a place from a die, with the tokens of its lines; none while another agent keeps one. -/
def sliceWrite (s : State) (die : Nat) (p : Place) (bs : List Byte) : Option State :=
  match p with
  | .scratch core off => some (spWrite s core off bs)
  | .dev _ => some s
  | .phys ch => match ch with
    | [] => some s
    | (pa, n) :: t =>
      match performAt s die pa (bs.take n) with
      | none => none
      | some s => match t with
        | (pb, _) :: _ => performAt s die pb (bs.drop n)
        | [] => some s

/-- Write bytes to located parts; parts that failed are left out. -/
def writePieces (s : State) (die : Nat) : List (Nat × Nat × Except XErr Place) → List Byte → Option State
  | [], _ => some s
  | (_, n, .error _) :: t, bs => writePieces s die t (bs.drop n)
  | (_, n, .ok p) :: t, bs => match sliceWrite s die p (bs.take n) with
    | none => none
    | some s => writePieces s die t (bs.drop n)

/-- Free bytes (log 11). -/
def freeBytes (s : State) (n : Nat) : List Byte × State :=
  ((List.range n).map (fun k => Config.freeByte (s.fresh + k)), { s with fresh := s.fresh + n })

/-- The rounding that a block's code names; 0 means RNE (12 R428, R432). -/
def rndField (n : Nat) : Rnd := match n with | 2 => .rtz | 3 => .rup | 4 => .rdn | 5 => .rna | 6 => .sr | _ => .rne

/-! ### Copy -/

/-- A `cpy` block (12 R428). -/
structure CopyBlk where
  src    : Nat
  dst    : Nat
  len    : Nat
  conv   : Bool
  cw     : Bool
  st     : Option Ty
  dt     : Option Ty
  rnd    : Nat
  sat    : Bool
  cwval  : Nat
  cwaddr : Nat
  bad    : Bool
  deriving DecidableEq, Repr

/-- Types that a copy converts between. -/
def copyTy (n : Nat) : Option Ty :=
  match tyOfCode (BitVec.ofNat 5 n) with
  | some .f32 => some .f32 | some .f16 => some .f16 | some .bf16 => some .bf16 | some .e4m3 => some .e4m3
  | some .e5m2 => some .e5m2
  | _ => none

/-- Field of a command block: bytes from `off`, bits [lo + w − 1 : lo]. -/
def blkField (b : BitVec 1024) (off lo w : Nat) : Nat := bits b.toNat (8 * off + lo) w

def sizeOf? (t : Option Ty) : Nat := match t with | some t => tyBits t / 8 | none => 1

def copyBlk (b : BitVec 1024) : CopyBlk :=
  let conv : Bool := blkField b 0x18 0 1 = 1
  let st := copyTy (blkField b 0x18 2 5)
  let dt := copyTy (blkField b 0x18 7 5)
  let es := if conv then sizeOf? st else 1
  { src := blkField b 0 0 64, dst := blkField b 8 0 64, len := blkField b 0x10 0 40, conv := conv,
    cw := decide (blkField b 0x18 1 1 = 1), st := st, dt := dt, rnd := blkField b 0x18 12 3, sat := decide (blkField b 0x18 15 1 = 1),
    cwval := blkField b 0x1C 0 32, cwaddr := blkField b 0x20 0 64,
    bad := blkField b 0x10 40 24 ≠ 0 || blkField b 0x18 16 16 ≠ 0 || blkField b 0x28 0 704 ≠ 0 ||
      (!conv && blkField b 0x18 2 14 ≠ 0) || (conv && (st.isNone || dt.isNone || decide (5 < blkField b 0x18 12 3))) ||
      blkField b 0x10 0 40 % es ≠ 0 }

def CopyBlk.es (b : CopyBlk) : Nat := if b.conv then sizeOf? b.st else 1
def CopyBlk.ed (b : CopyBlk) : Nat := if b.conv then sizeOf? b.dt else 1

/-- Bytes written. -/
def CopyBlk.dlen (b : CopyBlk) : Nat := b.len / b.es * b.ed

/-- A range leaves its window, or a host core names a window that it does not have (12 R429). -/
def badWindow (host : Bool) (va n : Nat) : Bool :=
  windowOf va = .hole || windowOf (va + n - 1) ≠ windowOf va || (host && (windowOf va = .scratch || windowOf va = .colBank))

/-- The checks made before any byte: code and address of the first that fails (12 R429). -/
def copyCheck (s : State) (k : Cmd) (b : CopyBlk) : Option (Nat × Nat) :=
  let q := engReq s k .load 0
  let alloc := match q.task with | some t => allocLen t | none => 0
  if b.bad then some (eFormat, k.blockVa)
  else if b.len ≠ 0 ∧ badWindow q.host b.src b.len = true then some (eWindow, b.src)
  else if b.len ≠ 0 ∧ badWindow q.host b.dst b.dlen = true then some (eWindow, b.dst)
  else if b.len ≠ 0 ∧ windowOf b.dst = .weight then some (eProtection, b.dst)
  else if b.src % b.es ≠ 0 then some (eMisalign, b.src)
  else if b.dst % b.ed ≠ 0 then some (eMisalign, b.dst)
  else if b.cw && (q.host || decide (windowOf b.cwaddr ≠ .scratch)) then some (eWindow, b.cwaddr)
  else if b.cw && decide (b.cwaddr % 4 ≠ 0) then some (eMisalign, b.cwaddr)
  else if b.cw && decide (alloc < b.cwaddr - scratchBase + 4) then some (eBounds, b.cwaddr)
  else none

/-- Convert the elements of a chunk. -/
def convElems (b : CopyBlk) (bs : List Byte) (n : Nat) : List Byte × Fl :=
  match b.conv, b.st, b.dt with
  | true, some st, some dt =>
    (List.range (n / b.es)).foldl (fun (acc : List Byte × Fl) k =>
      let q := fpConv dt st (rndField b.rnd) false b.sat 0 (leNat ((bs.drop (k * b.es)).take b.es))
      (acc.1 ++ leBytes b.ed q.1, acc.2 ||| q.2)) ([], 0)
  | _, _, _ => (bs, 0)

/-- Destination bytes that also lie in the source range hold free values (12 R429). -/
def overlapFree (b : CopyBlk) (va : Nat) (free : Nat → Byte) (bs : List Byte) : List Byte :=
  (bs.zip (List.range bs.length)).map (fun p =>
    if b.src ≤ va + p.2 ∧ va + p.2 < b.src + b.len then free p.2 else p.1)

/-- A written range joins those of a copy. -/
def addRange (l : List (Nat × Nat)) (r : Nat × Nat) : List (Nat × Nat) :=
  match l.getLast? with
  | some q => if q.1 + q.2 = r.1 then l.dropLast ++ [(q.1, q.2 + r.2)] else l ++ [r]
  | none => [r]

/-- Physical ranges of located parts. -/
def partRanges (ps : List (Nat × Nat × Except XErr Place)) : List (Nat × Nat) :=
  ps.flatMap (fun p => match p.2.2 with | .ok (.phys ch) => ch | _ => [])

/-- The completion word (07 R273): the destination's lines leave the issuing core's L1 first. -/
def copyWord (s : State) (k : Cmd) (b : CopyBlk) : Option State :=
  if !b.cw then some s
  else
    match evictLines s k.core ((l1Lines s k.core).filter (fun l => k.dests.any (fun d => meets (128 * l) 128 d.1 d.2))) with
    | none => none
    | some s => match (engReq s k .store 0).task with
      | none => some s
      | some t => some (spWrite s t.core (t.spOff + (b.cwaddr - scratchBase)) (leBytes 4 b.cwval))

/-- The end of a copy. -/
def copyEnd (s : State) (id : Nat) (k : Cmd) (b : CopyBlk) : Option State :=
  match copyWord s k b with
  | none => none
  | some s => some (setCmd s id { k with ended := true })

/-- The lines that a chunk reads are read at the slices of the engine's die (07 R262, R269); none while one waits. -/
def fetchPieces (s : State) (q : Req) (die : Nat) (ps : List (Nat × Nat)) : Option State :=
  readsAt s die (ps.flatMap (fun p => match locate s { q with view := .none } (BitVec.ofNat 64 p.1) p.2 with
    | .ok (.phys ch) => (ch.flatMap (fun c => splitLines c.1 c.2)).map (fun c => c.1 / 128)
    | _ => []))

/-- Which of two faults comes first, element by element: the source of an element before its destination. -/
def firstFault (b : CopyBlk) (src dst : Option (Nat × XErr)) : Option (Nat × XErr) :=
  match src, dst with
  | none, d => d
  | some a, none => some a
  | some a, some d => if (a.1 - b.src) / b.es ≤ (d.1 - b.dst) / b.ed then some a else some d

/-- The translations of parts are read; none while one waits. -/
def takePieces (s : State) (q : Req) : List (Nat × Nat) → Option State
  | [] => some s
  | (va, n) :: t => match takeAccess s q va n with
    | none => none
    | some s => takePieces s q t

/-- Source bytes from `p` on up to the end of their chunk of 4,096. -/
def chunkRest (b : CopyBlk) (p : Nat) : Nat := natMin ((p / 4096 + 1) * 4096) b.len - p

/-- Source bytes after the first n from `p` on whose results complete the aligned 8-byte word of DST in which the chunk ends (07 R248; log
46). -/
def edgeRest (b : CopyBlk) (p n : Nat) : Nat :=
  natMin ((8 - (b.dst + (p + n) / b.es * b.ed) % 8) % 8 / b.ed * b.es) (b.len - (p + n))

/-- Source bytes of the next chunk: with those of its last word, unless one of them faults. -/
def chunkLen (s : State) (k : Cmd) (b : CopyBlk) : Nat :=
  let p := k.progress
  let n := chunkRest b p
  let e := edgeRest b p n
  let bad := (firstBad (locatePieces s (engReq s k .load 0) (b.src + p + n) e)).isSome ||
    (firstBad (locatePieces s (engReq s k .store 0) (b.dst + (p + n) / b.es * b.ed) (e / b.es * b.ed))).isSome
  if bad then n else n + e

/-- What a chunk needs is read: its translations, and its source at the slices of the engine's die (07 R262, R269); none while it waits. -/
def chunkTake (s : State) (k : Cmd) (b : CopyBlk) : Option State :=
  let p := k.progress
  let n := chunkRest b p + edgeRest b p (chunkRest b p)
  match takePieces s (engReq s k .load 0) (pieces (b.src + p) n) with
  | none => none
  | some s => match takePieces s (engReq s k .store 0) (pieces (b.dst + p / b.es * b.ed) (n / b.es * b.ed)) with
    | none => none
    | some s => fetchPieces s (engReq s k .load 0) (dieOf (colOf k.core)) (pieces (b.src + p) n)

/-- One chunk of 4,096 source bytes. -/
def copyChunk (s : State) (id : Nat) (k : Cmd) (b : CopyBlk) : Option State :=
  let die := dieOf (colOf k.core)
  match chunkTake s k b with
  | none => none
  | some s =>
  let n := chunkLen s k b
  let m := n / b.es * b.ed
  let dva := b.dst + k.progress / b.es * b.ed
  let src := locatePieces s (engReq s k .load 0) (b.src + k.progress) n
  let dst := locatePieces s (engReq s k .store 0) dva m
  match firstFault b (firstBad src) (firstBad dst) with
  | some (_, .wait) => none
  | some (va, .trap c) =>
    let (fs, s) := freeBytes s m
    match writePieces s die dst fs with
    | none => none
    | some s => failCmd s id (engCode c) 0 va
  | none =>
    let q := convElems b (readPieces s src) n
    let (fs, s1) := freeBytes s m
    match writePieces s1 die dst (overlapFree b dva (fun j => fs.getD j 0) q.1) with
    | none => none
    | some s2 =>
      let s3 := cmdFlags s2 k q.2
      let k' := { k with progress := k.progress + n, dests := (partRanges dst).foldl addRange k.dests }
      if k'.progress = b.len then copyEnd s3 id k' b else some (setCmd s3 id k')

/-- COPY_CHUNK (12 R429). -/
def execCopyChunk (id : Nat) (s : State) : Out :=
  match cmdAt s id with
  | none => .next s
  | some k =>
    if !(k.kind == .copy && cmdRuns s k) then .next s
    else
      let b := copyBlk k.block
      match copyCheck s k b with
      | some (code, a) => orStay s (failCmd s id code 0 a)
      | none => if b.len ≤ k.progress then orStay s (copyEnd s id k b) else orStay s (copyChunk s id k b)

/-! ### Streams (12 R430) -/

def streamBad (b : BitVec 1024) : Bool :=
  blkField b 0x10 0 32 = 0 || blkField b 0x14 6 26 ≠ 0 || blkField b 0x18 0 832 ≠ 0

/-- The stream of a queue ends in error at an address (05 R180). -/
def streamFail (s : State) (id : Nat) (k : Cmd) (q code a : Nat) : Option State :=
  match k.ref with
  | .host _ => failCmd s id code 0 a
  | .task t =>
    let s := if k.orphan then s else
      modTask (setQueue s t q (setBits (queueAt s t q) 60 2 3)) t (fun x =>
        { x with qAddr := tput 0 x.qAddr q (BitVec.ofNat 64 (if code = eFormat then 0 else a)) })
    failCmd s id code 0 a

/-- A relaxed load of the access engine through the core's L1. -/
def streamLoad (s : State) (id : Nat) (k : Cmd) (va n align : Nat) : Except XErr Place :=
  locate (lend s k.core (asksOf s (2 * id + 1))) { engReq s k .load align with view := .l1 } (BitVec.ofNat 64 va) n

/-- Read a place through the core's L1 for command `id`; a weight line that no near copy holds is asked for, and nothing more happens. -/
def streamRead (s : State) (id : Nat) (k : Cmd) (p : Place) (n : Nat) : Except State (State × List Byte) :=
  let as := asksOf s (2 * id + 1)
  let s1 := lend s k.core as
  match weightMisses s1 k.core [(0, p)] with
  | _ :: _ => .error (weightAsk s (2 * id + 1) k.core [(0, p)])
  | [] => match readPlace s1 k.core p n with
    | none => .error s
    | some (t, b) => .ok (dropAsks (takeBack s t k.core as) (2 * id + 1), b)

/-- Place an element at TAIL of its queue. -/
def streamPut (s : State) (id : Nat) (k : Cmd) (t q : Nat) (bs : List Byte) : State :=
  match taskAt s t with
  | none => s
  | some x =>
    let w := queueAt s t q
    let s := spWrite s x.core (x.spOff + qElem w (qTail w)) bs
    let last : Bool := k.progress + 1 = blkField k.block 0x10 0 32
    let w := setBits w 44 16 (qTail w + 1)
    setCmd (setQueue s t q (if last then setBits w 62 1 1 else w)) id { k with progress := k.progress + 1, ended := last }

/-- The element at an address. -/
def streamAt (s : State) (id : Nat) (k : Cmd) (t q n : Nat) (va : Nat) : State :=
  match streamLoad s id k va n n with
  | .error .wait => accessTake (engReq s k .load n) (BitVec.ofNat 64 va) n s
  | .error (.trap c) => (streamFail s id k q (engCode c) va).getD s
  | .ok p => match streamRead s id k p n with
    | .error s => s
    | .ok (s, bs) => streamPut s id k t q bs

/-- STREAM_ELEMENT: one element is read and placed (05 R180, 12 R430). It waits while the queue is full. -/
def execStreamElement (id : Nat) (s : State) : Out :=
  match cmdAt s id with
  | none => .next s
  | some k => match k.ref with
    | .host _ => .next s
    | .task t =>
      if !(k.kind == .stream && cmdRuns s k) then .next s
      else
        let b := k.block
        let q := blkField b 0x14 0 4
        let w := queueAt s t q
        let n := qSize w
        let wide : Bool := blkField b 0x14 5 1 = 1
        if streamBad b then orStay s (streamFail s id k q eFormat k.blockVa)
        else if qCount w = 2 ^ qDepth w then .next s
        else if blkField b 0x14 4 1 = 0 then
          .next (streamAt s id k t q n ((BitVec.ofNat 64 (blkField b 0 0 64 + k.progress * blkField b 8 0 64) : Dword).toNat))
        else
          let isz := if wide then 8 else 4
          let iva := blkField b 8 0 64 + isz * k.progress
          match streamLoad s id k iva isz 0 with
          | .error .wait => .next (accessTake (engReq s k .load 0) (BitVec.ofNat 64 iva) isz s)
          | .error (.trap c) => orStay s (streamFail s id k q (engCode c) iva)
          | .ok p => match streamRead s id k p isz with
            | .error s => .next s
            | .ok (s, bs) =>
              let i := sgn (8 * isz) (leNat bs)
              .next (streamAt s id k t q n (wrapNat 64 ((blkField b 0 0 64 : Int) + i * (n : Int))))

end Sys2Proof.Machine
end

