-- ==== Sys2Proof/Machine/Near.lean ====
section
/-! DEFINITION. Near-memory commands: gather, reduce and convert in the base die of a stack (12 R431 to R433, 06 R246). -/

namespace Sys2Proof.Machine

/-- A range that a command names. -/
structure NRange where
  va    : Nat
  len   : Nat
  store : Bool
  align : Nat
  deriving DecidableEq, Repr

/-! ### Blocks (12 R432) -/

def gthBad (b : BitVec 1024) : Bool :=
  let count := blkField b 0x18 0 32
  let rowb := blkField b 0x1C 0 32
  count = 0 || decide (2 ^ 24 < count) || rowb % 128 ≠ 0 || rowb = 0 || decide (65536 < rowb) || blkField b 0x20 0 32 = 0 ||
    blkField b 0x24 0 736 ≠ 0

def gthRanges (b : BitVec 1024) : List NRange :=
  let rowb := blkField b 0x1C 0 32
  let count := blkField b 0x18 0 32
  [{ va := blkField b 0 0 64, len := blkField b 0x20 0 32 * rowb, store := false, align := 128 },
   { va := blkField b 8 0 64, len := 4 * count, store := false, align := 4 },
   { va := blkField b 0x10 0 64, len := count * rowb, store := true, align := 128 }]

/-- Type of `nme.red`: `.f32`, `.bf16` or `.i32`. -/
def redTy (b : BitVec 1024) : Option Ty :=
  match tyOfCode (BitVec.ofNat 5 (blkField b 0x0C 4 5)) with
  | some .f32 => some .f32 | some .bf16 => some .bf16 | some .i32 => some .i32
  | _ => none

def redSrcs (b : BitVec 1024) : List Nat := (List.range (blkField b 0x0C 0 4)).map (fun j => blkField b (0x10 + 8 * j) 0 64)

def redBad (b : BitVec 1024) : Bool :=
  let count := blkField b 8 0 32
  let n := blkField b 0x0C 0 4
  count = 0 || decide (2 ^ 28 < count) || decide (n < 2) || decide (8 < n) || (redTy b).isNone || decide (5 < blkField b 0x0C 9 3) ||
    blkField b 0x0C 12 20 ≠ 0 || (List.range 8).any (fun j => decide (n ≤ j) && decide (blkField b (0x10 + 8 * j) 0 64 ≠ 0)) ||
    blkField b 0x50 0 384 ≠ 0

def redSize (b : BitVec 1024) : Nat := match redTy b with | some .bf16 => 2 | _ => 4

def redRanges (b : BitVec 1024) : List NRange :=
  let len := redSize b * blkField b 8 0 32
  (redSrcs b).map (fun a => { va := a, len := len, store := false, align := 1 }) ++
    [{ va := blkField b 0 0 64, len := len, store := true, align := 1 }]

/-- Target of `nme.cvt`. -/
def cvtTy (b : BitVec 1024) : Option Ty :=
  match tyOfCode (BitVec.ofNat 5 (blkField b 0x14 0 5)) with
  | some t => if (bfpBits t).isSome || t == .bf16 || t == .f16 || t == .e4m3 || t == .e5m2 || t == .e3m2 || t == .e2m3 || t == .e2m1
      then some t else none
  | none => none

def cvtMxs (b : BitVec 1024) : Bool := decide (blkField b 0x14 9 1 = 1)

/-- Is the target one of `.e4m3` to `.e2m1`? -/
def mxTy (t : Ty) : Bool := t == .e4m3 || t == .e5m2 || t == .e3m2 || t == .e2m3 || t == .e2m1

def cvtBad (b : BitVec 1024) : Bool :=
  let count := blkField b 0x10 0 32
  match cvtTy b with
  | none => true
  | some t =>
    count = 0 || decide (2 ^ 28 < count) || decide (5 < blkField b 0x14 5 3) || blkField b 0x14 11 21 ≠ 0 ||
      blkField b 0x1C 0 32 ≠ 0 || blkField b 0x28 0 704 ≠ 0 || (cvtMxs b && !mxTy t) ||
      ((cvtMxs b || (bfpBits t).isSome) && count % 32 ≠ 0)

/-- Bytes of the results of `nme.cvt`. -/
def cvtLen (b : BitVec 1024) : Nat :=
  let count := blkField b 0x10 0 32
  match cvtTy b with
  | none => 0
  | some t => match bfpBits t with
    | some m => count / 32 * (4 * m + 1)
    | none => (count * elemBits t + 7) / 8

def cvtRanges (b : BitVec 1024) : List NRange :=
  let count := blkField b 0x10 0 32
  [{ va := blkField b 0 0 64, len := 4 * count, store := false, align := 4 },
   { va := blkField b 8 0 64, len := cvtLen b, store := true, align := 128 }] ++
    (if cvtMxs b then [{ va := blkField b 0x20 0 64, len := count / 32, store := true, align := 1 }] else [])

def nmeBad (k : Cmd) : Bool :=
  match k.kind with | .gather => gthBad k.block | .reduce => redBad k.block | _ => cvtBad k.block

def nmeRanges (k : Cmd) : List NRange :=
  match k.kind with | .gather => gthRanges k.block | .reduce => redRanges k.block | _ => cvtRanges k.block

/-- The first source, in whose stack the command runs (12 R431). -/
def nmeFirst (k : Cmd) : Nat :=
  match k.kind with | .reduce => blkField k.block 0x10 0 64 | _ => blkField k.block 0 0 64

/-! ### Checks before any access (12 R431) -/

/-- First bytes of a range in each of its 64 KiB pages. -/
def rangePages (r : NRange) : List Nat :=
  if r.len = 0 then []
  else (List.range ((r.va + r.len - 1) / 65536 - r.va / 65536 + 1)).map (fun j => if j = 0 then r.va else (r.va / 65536 + j) * 65536)

/-- Translate a page by a walk of the context's tables (06 R246): frame address of the byte, and PLACE. -/
def nmeWalk (s : State) (k : Cmd) (store : Bool) (va : Nat) : Except XErr (Nat × Nat) :=
  if promoHolds s k.ctx va || !walkReady s (dieOf (colOf k.core)) k.ctx va then .error .wait
  else match walk s k.ctx va with
    | .page => .error (.trap cPage)
    | .protection => .error (.trap cProtection)
    | .wait => .error .wait
    | .ok f sz p =>
      if permits p (if store then .store else .load) k.user then .ok (f + va % sz, bits p 4 2) else .error (.trap cProtection)

/-- Why a command is refused: code and DETAIL, or a wait. -/
inductive NmeRes where
  | ok
  | fail (code detail : Nat)
  | wait
  deriving DecidableEq, Repr

/-- Translation faults of the pages, in the order named. -/
def nmePages (s : State) (k : Cmd) : List (Bool × Nat) → NmeRes
  | [] => .ok
  | (st, va) :: t => match nmeWalk s k st va with
    | .error .wait => .wait
    | .error (.trap c) => .fail (engCode c) va
    | .ok _ => nmePages s k t

/-- PLACE 2 and a frame in the local pool of stack `st`. -/
def nmePlaced (s : State) (k : Cmd) (stack : Nat) : List (Bool × Nat) → NmeRes
  | [] => .ok
  | (w, va) :: t => match nmeWalk s k w va with
    | .ok (pa, place) =>
      if place = 2 ∧ pa < hbmTop ∧ (hbmDecode s pa).2.2 = 2 ∧ (hbmDecode s pa).1 = stack then nmePlaced s k stack t
      else .fail ePlacement (va / 65536 * 65536)
    | .error _ => nmePlaced s k stack t

def nmeCheck (s : State) (k : Cmd) : NmeRes :=
  let rs := nmeRanges k
  if nmeBad k then .fail eFormat k.blockVa
  else match rs.find? (fun r => decide (windowOf r.va ≠ .global) || decide (windowOf (r.va + r.len - 1) ≠ .global)) with
    | some r => .fail eWindow r.va
    | none => match rs.find? (fun r => decide (r.va % r.align ≠ 0)) with
      | some r => .fail eMisalign r.va
      | none =>
        let ps := rs.flatMap (fun r => (rangePages r).map (fun va => (r.store, va)))
        match nmePages s k ps with
        | .ok => match nmeWalk s k false (nmeFirst k) with
          | .ok (pa, _) => nmePlaced s k (if pa < hbmTop then (hbmDecode s pa).1 else 12) ps
          | .error _ => .ok
        | r => r

/-! ### Accesses -/

/-- What a read of an engine gives: bytes, the address at which it meets a poisoned line (12 R425), or nothing yet. -/
inductive NmeGot where
  | ok (s : State) (bs : List Byte)
  | poison (s : State) (va : Nat)
  | wait

/-- Read the parts of a range, each at its home (07 R262, R269). -/
def nmeReadFrom (s : State) (k : Cmd) (acc : List Byte) : List (Nat × Nat) → NmeGot
  | [] => .ok s acc
  | (va, n) :: t => match nmeWalk s k false va with
    | .error .wait => .wait
    | .error _ => .poison s va
    | .ok (pa, _) => match readAt s (homeTower s pa) (pa / 128) with
      | none => .wait
      | some s =>
        if linePoison s (pa / 128) then .poison s va
        else nmeReadFrom s k (acc ++ (List.range n).map (fun j => perfByte s (pa + j))) t

/-- Read n bytes of a range. -/
def nmeRead (s : State) (k : Cmd) (va n : Nat) : NmeGot := nmeReadFrom s k [] (pieces va n)

/-- Write bytes of a range; none while another agent keeps a token. -/
def nmeWriteFrom (s : State) (k : Cmd) : List (Nat × Nat) → List Byte → Option State
  | [], _ => some s
  | (va, n) :: t, bs => match nmeWalk s k true va with
    | .error .wait => none
    | .error _ => nmeWriteFrom s k t (bs.drop n)
    | .ok (pa, _) => match performAt s (homeTower s pa) pa (bs.take n) with
      | none => none
      | some s => nmeWriteFrom s k t (bs.drop n)

def nmeWrite (s : State) (k : Cmd) (va : Nat) (bs : List Byte) : Option State := nmeWriteFrom s k (pieces va bs.length) bs

/-- What an engine's loop gives: done with flags, or failed after what it wrote. -/
inductive NmeEnd where
  | done (s : State) (f : Fl)
  | fail (s : State) (code detail : Nat) (f : Fl)
  | wait

/-- Two ranges meet. -/
def overlaps (a n b m : Nat) : Bool := decide (n ≠ 0) && decide (m ≠ 0) && meets a n b m

/-! ### Engines (12 R433) -/

/-- `nme.gth`: rows n, n + 1, … (rows left in `m`). -/
def gthRows (s : State) (k : Cmd) (n : Nat) : Nat → NmeEnd
  | 0 => .done s 0
  | m + 1 =>
    let b := k.block
    let ia := blkField b 8 0 64 + 4 * n
    let rowb := blkField b 0x1C 0 32
    match nmeRead s k ia 4 with
    | .wait => .wait
    | .poison s va => .fail s ePoison va 0
    | .ok s bs =>
      let i := leNat bs
      if blkField b 0x20 0 32 ≤ i then .fail s eBounds ia 0
      else
        let src := blkField b 0 0 64 + i * rowb
        match nmeRead s k src rowb with
        | .wait => .wait
        | .poison s va => .fail s ePoison va 0
        | .ok s row => match nmeWrite s k (blkField b 0x10 0 64 + n * rowb) row with
          | none => .wait
          | some s => gthRows s k (n + 1) m

/-- One element of `nme.red` from the elements of its sources. -/
def redElem (t : Ty) (rnd : Rnd) (xs : List Nat) : Nat × Fl :=
  match t with
  | .i32 =>
    let c := clampTo .i32 (xs.foldl (fun (a : Int) x => a + sgn 32 x) 0)
    (wrapNat 32 c.1, c.2)
  | _ =>
    let ws := xs.map (fun x => if t == .bf16 then x * 65536 else x)
    let q := (ws.drop 1).foldl (fun (a : Nat × Fl) x => let r := fpAdd .f32 .rne false a.1 x; (r.1, a.2 ||| r.2)) (ws.headD 0, 0)
    if t == .bf16 then
      let r := fpConv .bf16 .f32 rnd false false 0 q.1
      (r.1, q.2 ||| r.2)
    else q

/-- Elements of every source at index j; where one is poisoned, its address. -/
inductive RedGot where
  | ok (s : State) (xs : List Nat)
  | poison (s : State) (a : Nat)
  | wait

def redRead (s : State) (k : Cmd) (n j : Nat) : List Nat → RedGot
  | [] => .ok s []
  | a :: t => match nmeRead s k (a + n * j) n with
    | .wait => .wait
    | .poison s _ => .poison s (a + n * j)
    | .ok s bs => match redRead s k n j t with
      | .ok s xs => .ok s (leNat bs :: xs)
      | r => r

def redLoop (s : State) (k : Cmd) (t : Ty) (j : Nat) (f : Fl) : Nat → NmeEnd
  | 0 => .done s f
  | m + 1 =>
    let b := k.block
    let n := redSize b
    match redRead s k n j (redSrcs b) with
    | .wait => .wait
    | .poison s a => .fail s ePoison a f
    | .ok s xs =>
      let q := redElem t (rndField (blkField b 0x0C 9 3)) xs
      match nmeWrite s k (blkField b 0 0 64 + n * j) (leBytes n q.1) with
      | none => .wait
      | some s => redLoop s k t (j + 1) (f ||| q.2) m

/-- Fill a range with free values, and leave the flags that the command can raise open (00 R10). -/
def nmeFree (s : State) (k : Cmd) (fl : BitVec 6) (r : NRange) : NmeEnd :=
  let (bs, s) := freeBytes s r.len
  let (w, s) := freeW s
  match nmeWrite s k r.va bs with
  | none => .wait
  | some s => .done s (w.setWidth 6 &&& fl)

/-- DST meets a source at another offset (12 R433). -/
def redClash (b : BitVec 1024) : Bool :=
  let len := redSize b * blkField b 8 0 32
  (redSrcs b).any (fun a => decide (a ≠ blkField b 0 0 64) && overlaps a len (blkField b 0 0 64) len)

/-- The flags that a reduction can raise: FP32 sums of values without FTZ, the conversion of a `.bf16` result, or a clamp. -/
def redFlags (b : BitVec 1024) : Fl :=
  match redTy b with
  | some .i32 => fSat
  | some .bf16 => sumFl false ||| cvtFl .bf16 .f32 false false
  | _ => sumFl false

def nearRedRun (s : State) (k : Cmd) : NmeEnd :=
  let b := k.block
  if redClash b then nmeFree s k (redFlags b) { va := blkField b 0 0 64, len := redSize b * blkField b 8 0 32, store := true, align := 1 }
  else redLoop s k ((redTy b).getD .f32) 0 0 (blkField b 8 0 32)

/-- Divide by 2^(E − 127); a scale byte of 0xFF is a NaN (08 R298). -/
def unscale (e : Nat) (v : Fp) : Fp :=
  if e = 0xFF then .nan false
  else match v with
    | .fin n m x => .fin n m (x - ((e : Int) - 127))
    | v => v

/-- Put a field of width w at bit position i of a byte list held as a number. -/
def packFields (w : Nat) : List Nat → Nat
  | [] => 0
  | x :: t => x % 2 ^ w + 2 ^ w * packFields w t

/-- Results that are open, because the elements are processed in no defined order: by element of a block, and of its scale byte and flags
(12 R433). -/
structure CvtOpen where
  elem  : Nat → Option Nat
  scale : Nat
  fl    : Fl

/-- None is open. -/
def CvtOpen.none : CvtOpen := { elem := fun _ => Option.none, scale := 0, fl := 0 }

/-- One block of at most 32 elements of `nme.cvt`: result bits as a number and their count, the scale byte, the flags. -/
def cvtBlock (b : BitVec 1024) (t : Ty) (o : CvtOpen) (xs : List Nat) : Nat × Nat × Nat × Fl :=
  let rnd := rndField (blkField b 0x14 5 3)
  let sat : Bool := blkField b 0x14 8 1 = 1
  let sc := xs.map (fun x => if blkField b 0x14 10 1 = 1 then fpMul .f32 .rne false x (blkField b 0x18 0 32) else (x, 0))
  let f0 : Fl := sc.foldl (fun a q => a ||| q.2) 0
  let vs := sc.map (fun q => fpDecode .f32 q.1)
  match bfpBits t with
  | some m =>
    match o.elem 0 with
    | some v => (v % 2 ^ (32 * m + 8), 32 * m + 8, 0, o.fl)
    | none =>
    let e := bfpExp vs
    let qs := vs.map (bfpElem m rnd 0 e)
    (packFields m (qs.map (fun q => wrapNat m q.1)) + e * 2 ^ (32 * m), 32 * m + 8, 0, qs.foldl (fun a q => a ||| q.2) f0)
  | none =>
    let sb := if cvtMxs b then (if (o.elem 0).isSome then (o.scale % 256, 0) else mxScale t vs) else (127, 0)
    let qs := vs.mapIdx (fun j v => match o.elem j with
      | some x => (x, 0)
      | none => fpConvV t rnd false sat false 0 (unscale sb.1 v))
    (packFields (elemBits t) (qs.map (·.1)), elemBits t * xs.length, sb.1, qs.foldl (fun a q => a ||| q.2) (f0 ||| sb.2 ||| o.fl))

/-- The flags that `nme.cvt` can raise. -/
def cvtFlags (b : BitVec 1024) (t : Ty) : Fl :=
  cvtFl t .f32 (decide (blkField b 0x14 8 1 = 1)) false ||| (if blkField b 0x14 10 1 = 1 then mulFl else 0) |||
    (if cvtMxs b then fInvalid else 0)

/-- Results of `nme.cvt` come in units: blocks of 32 elements where they share an exponent or a scale, else single elements. -/
def cvtUnit (b : BitVec 1024) (t : Ty) : Nat := if cvtMxs b || (bfpBits t).isSome then 32 else 1

/-- Bits of the result of one unit. -/
def cvtBits (b : BitVec 1024) (t : Ty) : Nat := match bfpBits t with | some m => 32 * m + 8 | none => elemBits t * cvtUnit b t

/-- Another unit's result meets the source of unit u: those before it and those after it in DST, and their scale bytes. -/
def cvtMet (b : BitVec 1024) (t : Ty) (u : Nat) : Bool :=
  let n := 4 * cvtUnit b t
  let src := blkField b 0 0 64 + n * u
  let dst := blkField b 8 0 64
  let w := cvtBits b t
  let sa := blkField b 0x20 0 64
  overlaps src n dst ((w * u + 7) / 8) || overlaps src n (dst + w * (u + 1) / 8) (cvtLen b - w * (u + 1) / 8) ||
    (cvtMxs b && (overlaps src n sa u || overlaps src n (sa + u + 1) (blkField b 0x10 0 32 / 32 - (u + 1))))

/-- The open results of block i, and the counter of free values after them. -/
def cvtOpen (s : State) (b : BitVec 1024) (t : Ty) (i : Nat) : CvtOpen × State :=
  let k := 32 / cvtUnit b t
  if (List.range k).any (fun j => cvtMet b t (k * i + j)) then
    let f := s.fresh
    ({ elem := fun j => if cvtMet b t (if k = 1 then i else 32 * i + j) then some (Config.freeNat (f + j)) else none,
       scale := Config.freeNat (f + 32), fl := (Config.freeWord (f + 33)).setWidth 6 &&& cvtFlags b t }, { s with fresh := f + 34 })
  else (CvtOpen.none, s)

/-- The blocks of `nme.cvt`, block i and those after it (`m` left). A last half byte keeps its other half. -/
def cvtLoop (s : State) (k : Cmd) (t : Ty) (i : Nat) (f : Fl) : Nat → NmeEnd
  | 0 => .done s f
  | m + 1 =>
    let b := k.block
    let n := natMin 32 (blkField b 0x10 0 32 - 32 * i)
    let src := blkField b 0 0 64 + 128 * i
    match nmeRead s k src (4 * n) with
    | .wait => .wait
    | .poison s va => .fail s ePoison va f
    | .ok s bs =>
      let xs := (List.range n).map (fun j => leNat ((bs.drop (4 * j)).take 4))
      let (o, s) := cvtOpen s b t i
      let q := cvtBlock b t o xs
      let bytes := match bfpBits t with | some m => 4 * m + 1 | none => 4 * elemBits t
      let dva := blkField b 8 0 64 + bytes * i
      let len := (q.2.1 + 7) / 8
      let keep := if q.2.1 % 8 = 0 then 0 else (match nmeRead s k (dva + len - 1) 1 with | .ok _ c => leNat c | _ => 0) / 16 * 16
      let x := q.1 + keep * 2 ^ (8 * (len - 1))
      let s? := match nmeWrite s k dva (leBytes len x) with
        | none => none
        | some s => if cvtMxs b then nmeWrite s k (blkField b 0x20 0 64 + i) [BitVec.ofNat 8 q.2.2.1] else some s
      match s? with
      | none => .wait
      | some s => cvtLoop s k t (i + 1) (f ||| q.2.2.2) m

/-- The bytes of DST that a scale byte meets as well: either may be written last. -/
def cvtShared (b : BitVec 1024) : Nat × Nat :=
  let dst := blkField b 8 0 64
  let sa := blkField b 0x20 0 64
  let lo := max dst sa
  (lo, if cvtMxs b then min (dst + cvtLen b) (sa + blkField b 0x10 0 32 / 32) - lo else 0)

/-- `nme.cvt`: a result whose source another result meets is open (12 R433), and so is a byte that both DST and SADDR name. -/
def cvtRun (s : State) (k : Cmd) : NmeEnd :=
  let b := k.block
  match cvtLoop s k ((cvtTy b).getD .bf16) 0 0 ((blkField b 0x10 0 32 + 31) / 32) with
  | .done s f =>
    let r := cvtShared b
    if r.2 = 0 then .done s f
    else
      let (bs, s) := freeBytes s r.2
      match nmeWrite s k r.1 bs with
      | none => .wait
      | some s => .done s f
  | r => r

def nmeRun (s : State) (k : Cmd) : NmeEnd :=
  match k.kind with
  | .gather => gthRows s k 0 (blkField k.block 0x18 0 32)
  | .reduce => nearRedRun s k
  | _ => cvtRun s k

/-- The walks of the command's pages read their entries; none while one waits. -/
def nmeTake (s : State) (k : Cmd) : Option State :=
  if nmeBad k then some s
  else walksAt s (dieOf (colOf k.core)) k.ctx ((nmeRanges k).flatMap rangePages)

def isNme : CmdKind → Bool
  | .gather => true | .reduce => true | .convert => true | _ => false

/-- NME_COMMAND_RUN: a near-memory command runs whole; it is never stopped (12 R431). -/
def execNmeCommandRun (id : Nat) (s : State) : Out :=
  match cmdAt s id with
  | none => .next s
  | some k =>
    if !(isNme k.kind && cmdRuns s k) then .next s
    else match nmeTake s k with
    | none => .next s
    | some s => match nmeCheck s k with
      | .wait => .next s
      | .fail code a => orStay s (failCmd s id code 0 a)
      | .ok => match nmeRun s k with
        | .wait => .next s
        | .fail s1 code a f => orStay s (failCmd (cmdFlags s1 k f) id code 0 a)
        | .done s1 f => .next (setCmd (cmdFlags s1 k f) id { k with ended := true })

end Sys2Proof.Machine
end

