-- ==== Sys2Proof/Machine/Installs.lean ====
section
/-! DEFINITION. Weight installs (06 R240 to R244, 12 R434) and the reading room (06 R238). -/

namespace Sys2Proof.Machine

/-! ### Zones (06 R243, R244) -/

def setZone (s : State) (z : Nat) (x : Zone) : State :=
  { s with weights := { s.weights with zones := tput none s.weights.zones z (some x) } }

/-- Zone of a unit, numbered over the whole store. -/
def zoneOf (unit : Nat) : Nat := (unit / 16384 + unit % 16384) % 128

/-- Units of a list in a zone. -/
def inZone (us : List Nat) (z : Nat) : Nat := (us.filter (fun u => decide (zoneOf u = z))).length

/-- Every zone covers the units charged to it, in budget and in free blocks. -/
def zonesCover (s : State) (us : List Nat) : Bool :=
  (List.range 128).all (fun z => decide (inZone us z ≤ (zoneAt s z).remain.toNat) && decide (inZone us z ≤ (zoneAt s z).free.toNat))

/-- Charge one unit and take its block. -/
def chargeUnit (s : State) (u : Nat) : State :=
  let x := zoneAt s (zoneOf u)
  setZone s (zoneOf u) { remain := x.remain - 1, charged := if x.charged = 0xFFFFFFFF then x.charged else x.charged + 1, free := x.free - 1 }

/-- Return the charge of a unit whose program had not begun; neither field passes its end, which only a `WEAR_SET` between charge and return
can ask for (log 117). -/
def returnUnit (s : State) (u : Nat) : State :=
  let x := zoneAt s (zoneOf u)
  setZone s (zoneOf u) { x with remain := if x.remain = 0xFFFFFFFF then x.remain else x.remain + 1, charged := if x.charged = 0 then 0 else x.charged - 1 }

/-- A block of a unit's zone becomes free. -/
def freeUnit (s : State) (u : Nat) : State :=
  let x := zoneAt s (zoneOf u)
  setZone s (zoneOf u) { x with free := x.free + 1 }

/-! ### Checks (06 R242) -/

def installAt (s : State) (cmd : Nat) : Option Install := s.weights.installs.find? (fun i => decide (i.cmd = cmd))

def setInstall (s : State) (x : Install) : State :=
  { s with weights := { s.weights with installs := s.weights.installs.map (fun i => if i.cmd = x.cmd then x else i) } }

def dropInstall (s : State) (cmd : Nat) : State :=
  { s with weights := { s.weights with installs := s.weights.installs.filter (fun i => decide (i.cmd ≠ cmd)) } }

/-- First bytes of the 64 KiB pages of [va, va + n). -/
def pagesOf (va n : Nat) : List Nat := rangePages { va := va, len := n, store := false, align := 1 }

/-- Translation of a page of the target: its physical address and its I bit. -/
def targetPage (s : State) (k : Cmd) (va : Nat) : Option (Nat × Bool) :=
  match lookup s k.core k.ctx va with
  | .ok f sz p => if !k.user || bits p 3 1 = 1 then some (f + va % sz, decide (bits p 6 1 = 1)) else none
  | _ => none

/-- Physical bytes of the source, page by page; none when a page is not present, lacks R or lies outside the global window. -/
def sourcePages (s : State) (k : Cmd) (va n : Nat) : Option (List (Nat × Nat)) :=
  if windowOf va ≠ .global ∨ windowOf (va + n - 1) ≠ .global then none
  else (pagesOf va n).foldr (fun p acc =>
    match acc, lookup s k.core k.ctx p with
    | some t, .ok f sz perm =>
      if permits perm .load k.user && (match paKind s (f + p % sz) with | .hole => false | .regs => false | .weight _ => false | _ => true)
      then some ((f + p % sz, natMin (va + n - p) (65536 - p % 65536)) :: t) else none
    | _, _ => none) (some [])

/-- Extents of the target pages that translate. -/
def targetExts (s : State) (k : Cmd) (va n : Nat) : List Nat :=
  ((pagesOf va n).filterMap (fun p => (targetPage s k p).map (fun q => (q.1 - weightBase) / gib))).eraseDups

/-- The first check that fails (06 R242), or the install that begins. -/
def installCheck (s : State) (id : Nat) (k : Cmd) : Nat ⊕ Install :=
  let src := blkField k.block 0 0 64
  let tgt := blkField k.block 8 0 64
  let len := blkField k.block 0x10 0 64
  if len = 0 ∨ gib < len then .inl 3
  else if windowOf tgt ≠ .weight ∨ windowOf (tgt + len - 1) ≠ .weight then .inl 3
  else
    let exts := targetExts s k tgt len
    let ext := exts.headD 0
    if 1 < exts.length ∨ (exts ≠ [] ∧ verOf s ext = 0xFFFFFFFF) then .inl 3
    else if tgt % 65536 ≠ 0 ∨ len % 65536 ≠ 0 ∨ src % 128 ≠ 0 then .inl 4
    else if (pagesOf tgt len).any (fun p => match targetPage s k p with | some (_, i) => !i | none => true) then .inl 6
    else match sourcePages s k src len with
      | none => .inl 6
      | some ch =>
        let us := (pagesOf tgt len).filterMap (fun p => (targetPage s k p).map (fun q => (q.1 - weightBase) / 65536))
        if installing s ext then .inl 5
        else if !zonesCover s us then .inl 1
        else .inr { cmd := id, ext := ext, units := us, src := ch, done := 0, fails := 0, committed := false,
                    old := us.filter (fun u => s.weights.mapped.contains u) }

/-- A command of an install that may go on. -/
def installCmd (s : State) (id : Nat) : Option Cmd :=
  match cmdAt s id with
  | some k => if k.kind == .install && cmdRuns s k then some k else none
  | none => none

/-- Pages that the install names. -/
def installPages (k : Cmd) : List Nat :=
  let len := blkField k.block 0x10 0 64
  if len = 0 ∨ gib < len then [] else pagesOf (blkField k.block 0 0 64) len ++ pagesOf (blkField k.block 8 0 64) len

/-- A promotion holds back such a page (06 R220). -/
def installHeld (s : State) (k : Cmd) : Bool := (installPages k).any (fun p => promoHolds s k.ctx p)

/-- INSTALL_START: steps 2 and 3 of R240. -/
def execInstallStart (id : Nat) (s : State) : Out :=
  match installCmd s id with
  | none => .next s
  | some k =>
    if (installAt s id).isSome || installHeld s k then .next s
    else if blkField k.block 0x18 0 832 ≠ 0 then orStay s (failCmd s id eFormat 0 k.blockVa)
    else match walksAt s (dieOf (colOf k.core)) k.ctx (installPages k) with
    | none => .next s
    | some s => match installCheck s id k with
      | .inl code => orStay s (failCmd s id eInstall code (blkField k.block 8 0 64))
      | .inr x =>
        let s := x.units.foldl chargeUnit s
        .next { s with weights := { s.weights with installs := s.weights.installs ++ [x] } }

/-! ### Programming and commit -/

/-- Bytes [off, off + n) of the source as they are performed; bytes of a poisoned line are free values. -/
def sourceBytes (s : State) (x : Install) (off n : Nat) : List Byte :=
  ((bytePas (subChunks x.src off n)).zip (List.range n)).map (fun p =>
    if linePoison s (p.1 / 128) then Config.freeByte (s.fresh + p.2) else perfByte s p.1)

/-- The lines of those bytes. -/
def sourceLines (x : Install) (off n : Nat) : List Nat :=
  (subChunks x.src off n).flatMap (fun c => (List.range ((c.1 % 128 + c.2 + 127) / 128)).map (fun j => c.1 / 128 + j))

/-- Write a unit's bytes into a table by aperture offset. -/
def putUnit (m : Tab Byte) (u : Nat) (bs : List Byte) : Tab Byte :=
  (bs.zip (List.range bs.length)).foldl (fun m p => tput 0 m (65536 * u + p.2) p.1) m

/-- Remove the staged bytes of units. -/
def unstage (m : Tab Byte) (us : List Nat) : Tab Byte := m.filter (fun p => !us.contains (p.1 / 65536))

/-- An install that has not committed ends: charges of units whose program had not begun return, and its blocks are free. -/
def abandonInstall (s : State) (x : Install) : State :=
  let begun := x.done + (if x.fails = 0 then 0 else 1)
  let s := (x.units.drop begun).foldl returnUnit s
  let s := x.units.foldl freeUnit s
  dropInstall { s with weights := { s.weights with staged := unstage s.weights.staged x.units } } x.cmd

/-- INSTALL_UNIT_PROGRAM: one try to program the next unit, whose source is read at package scope (06 R240, step 4); the fourth failure
ends the install MEDIA (06 R242). -/
def execInstallUnitProgram (id : Nat) (failed : Bool) (s : State) : Out :=
  match installCmd s id, installAt s id with
  | some k, some x => match listGet x.units x.done with
    | none => .next s
    | some u =>
      if x.committed then .next s
      else if failed then
        if x.fails = 3 then orStay s (failCmd (abandonInstall s { x with fails := 4 }) id eInstall 2 (blkField k.block 8 0 64))
        else .next (setInstall s { x with fails := x.fails + 1 })
      else
        let ls := sourceLines x (65536 * x.done) 65536
        match homeReads s (ls.map (128 * ·)) with
        | none => .next (holdReads s ls)
        | some s =>
          let s1 := { s with
            fresh := s.fresh + 65536
            weights := { s.weights with staged := putUnit s.weights.staged u (sourceBytes s x (65536 * x.done) 65536) } }
          .next (setInstall s1 { x with done := x.done + 1, fails := 0 })
  | _, _ => .next s

/-- VERSION_BROADCAST: reading-room units of an older version of the extent are dropped (06 R240, step 6). L1s and slices compare
versions at each lookup. -/
def broadcast (s : State) (ext : Nat) : State :=
  { s with weights := { s.weights with room := s.weights.room.filter (fun r =>
      decide (r.1 / 16384 ≠ ext) || decide (r.2 = verOf s ext)) } }

/-- Loads that wait for a line of an extent keep the content that it has under the version they were checked under (06 R241). -/
def keepOld (s : State) (ext : Nat) : List WeightAsk :=
  s.weights.asks.map (fun a =>
    if weightExt a.line = ext ∧ a.got = none ∧ a.old = none then { a with old := some (perfLine s a.line) } else a)

/-- INSTALL_COMMIT: the units switch and the version rises, at once (06 R240, steps 5 and 6). -/
def execInstallCommit (id : Nat) (s : State) : Out :=
  match installCmd s id, installAt s id with
  | some _, some x =>
    if x.committed ∨ x.done ≠ x.units.length then .next s
    else
      let w := s.weights
      let flash := x.units.foldl (fun m u => putUnit m u ((List.range 65536).map (fun j => tget 0 w.staged (65536 * u + j)))) w.flash
      let s1 := { s with weights := { w with
        flash := flash
        staged := unstage w.staged x.units
        mapped := (w.mapped ++ x.units).eraseDups
        ver := tput 0 w.ver x.ext (verOf s x.ext + 1)
        asks := keepOld s x.ext } }
      .next (broadcast (setInstall s1 { x with committed := true }) x.ext)
  | _, _ => .next s

/-- A read of an extent's old blocks is in flight (06 R240, step 7). -/
def oldReads (s : State) (ext : Nat) : Bool :=
  s.weights.asks.any (fun a => decide (weightExt a.line = ext) && a.old.isSome && a.got.isNone)

/-- INSTALL_COMPLETE: old blocks are freed once no read of them is in flight, the mark goes, and the command is complete (06 R240, step 7). -/
def execInstallComplete (id : Nat) (s : State) : Out :=
  match installCmd s id, installAt s id with
  | some _, some x =>
    if !x.committed || oldReads s x.ext then .next s
    else orStay s (completeCmd (dropInstall (x.old.foldl freeUnit s) id) id)
  | _, _ => .next s

/-! ### The reading room (06 R238) -/

/-- Units that the reading room holds at most. -/
def roomUnits (s : State) : Nat := rrGib s * 16384

/-- Lines of a unit that loads wait for; `old` asks for those of a version that a commit has replaced. -/
def waitingLines (s : State) (unit : Nat) (old : Bool) : List WeightAsk :=
  s.weights.asks.filter (fun a => decide (weightUnit a.line = unit) && a.got.isNone && a.old.isSome == old)

/-- The controller returns lines to the loads that wait for them. -/
def serveAsks (s : State) (as : List WeightAsk) (got : WeightAsk → BitVec 1024 × Bool) : State :=
  { s with weights := { s.weights with asks := s.weights.asks.map (fun a => if as.contains a then { a with got := some (got a) } else a) } }

/-- READING_ROOM_FILL: the controller reads a unit that a load waits for from flash, evicting the least recently used, and serves the
lines; an uncorrectable error returns them poisoned and keeps no copy. A read of old blocks is delivered and not kept (06 R241). -/
def execReadingRoomFill (unit : Nat) (flashError : Bool) (s : State) : Out :=
  let old := waitingLines s unit true
  let asks := waitingLines s unit false
  if !live s then .next s
  else if !old.isEmpty then .next (serveAsks s old (fun a => (a.old.getD 0, flashError)))
  else if asks.isEmpty then .next s
  else
    let v := verOf s (unit / 16384)
    let s := if flashError then s else
      { s with weights := { s.weights with room := ((unit, v) :: s.weights.room.erase (unit, v)).take (roomUnits s) } }
    .next (serveAsks (asks.foldl (fun s a => weightPut s a.core a.line (perfLine s a.line) flashError) s) asks
      (fun a => (perfLine s a.line, flashError)))

end Sys2Proof.Machine
end

