-- ==== Sys2Proof/Machine/Matrix.lean ====
section
/-! DEFINITION. Plane regions and the words that read and write them (11 R396 to R401), pruning and scales (R402 to R404), and stage
rings (05 R182 to R184, 11 R419 to R421). -/

namespace Sys2Proof.Machine

/-! ### Plane form (08 R300, 11 R396 to R398) -/

/-- Kind of a matrix format code: 0 sign-magnitude, 1 integer, 2 block. -/
def mfKind (f : Nat) : Nat := if f = 10 ∨ f = 11 then 1 else if 12 ≤ f then 2 else 0

/-- Type of a sign-magnitude or block format; unused for integers. -/
def mfTy (f : Nat) : Ty := (mfmtTy f).getD .f32

/-- Planes of an element. -/
def mfPlanes (f : Nat) : Nat :=
  if f = 10 then 8 else if f = 11 then 4
  else match bfpBits (mfTy f) with | some m => m | none => 2 + manBits (mfTy f)

/-- Bytes of an exponent record. -/
def mfEs (f : Nat) : Nat := if f = 1 then 2 else 1

/-- EOFF, SOFF, MOFF and the end of a region (11 R398). -/
structure Geom where
  eoff : Nat
  soff : Nat
  moff : Nat
  len  : Nat
  deriving DecidableEq, Repr

def geom (f rows kch : Nat) (sparse : Bool) : Geom :=
  let eoff := alignUp (kch * mfPlanes f * rows * 4) 128
  let eb := if mfKind f = 0 then kch * rows * 32 * mfEs f else if mfKind f = 2 then kch * rows else 0
  let soff := eoff + alignUp eb 128
  let moff := soff + alignUp (kch * rows) 128
  { eoff := eoff, soff := soff, moff := moff, len := moff + (if sparse then 8 * kch * rows else 0) }

/-- An element of plane form: sign, q, and x or E. -/
structure PElem where
  neg : Bool
  q   : Nat
  x   : Nat
  deriving DecidableEq, Repr

/-- Allocation offset of plane word p of a row-chunk. -/
def planeOff (f rows base kc r p : Nat) : Nat := base + ((kc * mfPlanes f + p) * rows + r) * 4

/-- Allocation offset of the exponent record of element i, or of the block's byte. -/
def expoOff (f rows kch base kc r i : Nat) : Nat :=
  let g := geom f rows kch false
  if mfKind f = 2 then base + g.eoff + kc * rows + r else base + g.eoff + ((kc * rows + r) * 32 + i) * mfEs f

/-- Bytes of a task's allocation. -/
def allocNat (s : State) (t : Task) (off n : Nat) : Nat := leNat (spRead s t.core (t.spOff + off) n)

/-- Element i of a row-chunk of a region. -/
def planeElem (s : State) (t : Task) (f rows kch base kc r i : Nat) : PElem :=
  let bit := fun p => bits (allocNat s t (planeOff f rows base kc r p) 4) i 1
  let sm := if mfKind f = 0 then 1 else 0
  let q := (List.range (mfPlanes f - sm)).foldl (fun a j => a + bit (j + sm) * 2 ^ j) 0
  { neg := decide (sm = 1 ∧ bit 0 = 1), q := q,
    x := if mfKind f = 1 then 0 else allocNat s t (expoOff f rows kch base kc r i) (if mfKind f = 2 then 1 else mfEs f) }

/-- The value that R300 gives. -/
def planeVal (f : Nat) (e : PElem) : Fp :=
  if mfKind f = 1 then
    let v := sgn (mfPlanes f) e.q
    .fin (decide (v < 0)) v.natAbs 0
  else if mfKind f = 2 then bfpValue (mfPlanes f) e.q e.x
  else
    let t := mfTy f
    let m := manBits t
    let frac := e.q % 2 ^ m
    if bits e.q m 1 = 1 ∧ e.x = 2 ^ expBits t - 1 ∧ hasInf t = true then (if frac = 0 then .inf e.neg else .nan false)
    else if bits e.q m 1 = 1 ∧ e.x = 15 ∧ t = .e4m3 ∧ frac = 7 then .nan false
    else .fin e.neg e.q ((e.x : Int) - fltBias t - (m : Int))

/-- Element of a register in plane form (08 R300, 11 R392, R396). -/
def planeOf (f code : Nat) : PElem :=
  if mfKind f = 1 then { neg := false, q := code % 2 ^ mfPlanes f, x := 0 }
  else if mfKind f = 2 then { neg := false, q := code % 2 ^ mfPlanes f, x := bits code 8 8 }
  else
    let t := mfTy f
    let m := manBits t
    let e := bits code m (expBits t)
    { neg := decide (bits code (m + expBits t) 1 = 1), q := code % 2 ^ m + (if e = 0 then 0 else 2 ^ m), x := if e = 0 then 1 else e }

/-- Encoding of an element of plane form (11 R400). -/
def planeCode (f : Nat) (e : PElem) : Nat :=
  if mfKind f = 1 then e.q
  else if mfKind f = 2 then e.q + e.x * 256
  else
    let t := mfTy f
    let m := manBits t
    signBit t e.neg + (if bits e.q m 1 = 1 then e.x % 2 ^ expBits t * 2 ^ m else 0) + e.q % 2 ^ m

/-! ### `mplane` and `mnplane` (11 R397, R399 to R401) -/

/-- A plane descriptor with the row-chunk that sX names. -/
structure Desc where
  base : Nat
  rows : Nat
  kch  : Nat
  fmt  : Nat
  kc   : Nat
  r    : Nat
  deriving DecidableEq, Repr

def descOf (d sx : Nat) : Desc :=
  { base := bits d 0 21, rows := bits d 32 12, kch := bits d 44 12, fmt := bits d 56 5, kc := bits sx 0 16, r := bits sx 16 16 }

/-- The checks of R401. -/
def descFault (s : State) (x : Ctx) (d : Desc) : Option Res :=
  let c := clutchAt s x.cid
  let a : Dword := BitVec.ofNat 64 (scratchBase + d.base)
  let alloc := match c.task.bind (taskAt s) with | some t => allocLen t | none => 0
  if c.pad.isSome then some (.trap cLeap 0 x.at_)
  else if d.fmt = 0 ∨ 19 ≤ d.fmt then some (.trap cJobCombo a x.at_)
  else if d.base % 128 ≠ 0 then some (.trap cMisalign a x.at_)
  else if d.rows ≤ d.r ∨ d.kch ≤ d.kc ∨ alloc < d.base + (geom d.fmt d.rows d.kch false).len then some (.trap cBounds a x.at_)
  else none

/-- The element that a lane supplies: FP64 is the pair that begins at the register (11 R396). -/
def laneCode (s : State) (c : Clutch) (f lane : Nat) (r : Reg) : Nat :=
  if f = 1 then (rd32 s c lane r).toNat + 2 ^ 32 * (rd32 s c lane (nextReg r)).toNat else (rd32 s c lane r).toNat

/-- A plane word with the bits of the executing lanes replaced. -/
def planeWord (old : Nat) (ex : Mask) (bit : Nat → Bool) : Nat :=
  ((BitVec.ofNat 32 old &&& ~~~ex) ||| maskOf (fun i => ex.getLsbD i && bit i)).toNat

/-- Offsets of a task's allocation that `mplane` writes, with the bytes. -/
def planeWrites (s : State) (t : Task) (d : Desc) (ex : Mask) (el : Nat → PElem) : List (Nat × List Byte) :=
  let sm := if mfKind d.fmt = 0 then 1 else 0
  let words := (List.range (mfPlanes d.fmt)).map (fun p =>
    let o := planeOff d.fmt d.rows d.base d.kc d.r p
    (o, leBytes 4 (planeWord (allocNat s t o 4) ex (fun i =>
      if sm = 1 ∧ p = 0 then (el i).neg else decide (bits (el i).q (p - sm) 1 = 1)))))
  let expos := if mfKind d.fmt = 0 then (lanesOf ex).map (fun i =>
      (expoOff d.fmt d.rows d.kch d.base d.kc d.r i, leBytes (mfEs d.fmt) (el i).x))
    else if mfKind d.fmt = 2 then [(expoOff d.fmt d.rows d.kch d.base d.kc d.r 0, leBytes 1 (el (lowLane ex)).x)] else []
  words ++ expos

/-- The second register of an FP64 result counts as pending (05 R174). -/
def pairPending (c : Clutch) (ex : Mask) (fmt : Nat) (r : Reg) : Clutch :=
  if fmt ≠ 1 then c else { c with hazard := c.hazard ++ (lanesOf ex).filterMap (fun n => placeOf c n (nextReg r)) }

def execMplane (h : Hdr) (a b c : Reg) (s : State) : Out :=
  word (.mplane h a b c) s (fun x s =>
    let k := clutchAt s x.cid
    let d := descOf (rd64 s k (lowLane x.ex) a).toNat (rd32 s k (lowLane x.ex) c).toNat
    match descFault s x d with
    | some r => r
    | none => match k.task.bind (taskAt s) with
      | none => .done s 0
      | some t =>
        let ws := planeWrites s t d x.ex (fun i => planeOf d.fmt (laneCode s k d.fmt i b))
        match bindOverlaps s x.cid (ws.map (fun w => Place.scratch t.core (t.spOff + w.1))) with
        | none => .wait .tokens s
        | some s => .done (ws.foldl (fun s w => spWrite s t.core (t.spOff + w.1) w.2) s) 0)

/-- `mnplane`: an FP64 element is written to the pair that begins at D. -/
def execMnplane (h : Hdr) (d a c : Reg) (s : State) : Out :=
  word (.mnplane h d a c) s (fun x s =>
    let k := clutchAt s x.cid
    let g := descOf (rd64 s k (lowLane x.ex) a).toNat (rd32 s k (lowLane x.ex) c).toNat
    match descFault s x g with
    | some r => r
    | none => match k.task.bind (taskAt s) with
      | none => .done s 0
      | some t => .done (setClutch s x.cid (pendAll (pairPending k x.ex g.fmt d) x.ex (decide (g.fmt = 1)) d (fun i =>
          planeCode g.fmt (planeElem s t g.fmt g.rows g.kch g.base g.kc g.r i)))) 0)

/-! ### `mcmp` and `mscl` (11 R402 to R404) -/

/-- Order of magnitudes (11 R402), subnormals read under FTZ (R384): NaN above infinity above numbers; a number as an integer at a
common exponent. -/
def magOf (ftz : Bool) (f code : Nat) : Nat × Nat :=
  if mfKind f = 0 then
    match fpRead ftz (mfTy f) (code % 2 ^ tyBits (mfTy f)) with
    | .nan _ => (2, 0)
    | .inf _ => (1, 0)
    | .fin _ m e => (0, m * 2 ^ (e + 1200).toNat)
  else (0, (sgn (mfPlanes f) code).natAbs)

def magLt (a b : Nat × Nat) : Bool := decide (a.1 < b.1) || (decide (a.1 = b.1) && decide (a.2 < b.2))

/-- The positions below 4 of the two elements of largest magnitude, ties to the lower index. -/
def twoLargest (m : Nat → Nat × Nat) : Nat × Nat :=
  let best := fun (skip : Option Nat) => (List.range 4).foldl (fun (b : Option Nat) i =>
    if skip = some i then b else match b with
      | none => some i
      | some j => if magLt (m j) (m i) then some i else some j) none
  let p := (best none).getD 0
  let q := (best (some p)).getD 1
  if p < q then (p, q) else (q, p)

/-- `mcmp`: kept elements of 8 groups to half of the lanes, and the metadata word. -/
def execMcmp (h : Hdr) (fmt : BitVec 5) (hi : Bool) (d a m : Reg) (s : State) : Out :=
  word (.mcmp h fmt hi d a m) s (fun x s =>
    let c := clutchAt s x.cid
    if c.pad.isSome then .trap cLeap 0 x.at_
    else
      let v := fun i => if x.ex.getLsbD i then (rd32 s c i a).toNat else 0
      let kept := fun g => twoLargest (fun i => magOf (ftzOf c) fmt.toNat (v (4 * g + i)))
      let h0 := if hi then 16 else 0
      let out := fun l => let g := (l - h0) / 2; v (4 * g + (if (l - h0) % 2 = 0 then (kept g).1 else (kept g).2))
      let accs := ((lanesOf x.ex).filter (fun l => decide (h0 ≤ l) && decide (l < h0 + 16))).flatMap (fun l => accFor c l false d (known (out l)))
      let meta_ := (List.range 8).foldl (fun w g => w + ((kept g).1 + 4 * (kept g).2) * 2 ^ (4 * g)) 0
      .done (setClutch s x.cid (addPend c (accs ++ accFor c (lowLane x.ex) false m (known meta_)) none)) 0)

/-- `mscl`: the MX scale of the block of 32 lanes; as a value, 2^-127 is delivered under FTZ too (log 110). -/
def execMscl (h : Hdr) (fmt : BitVec 5) (st : Ty) (asValue : Bool) (d a : Reg) (s : State) : Out :=
  word (.mscl h fmt st asValue d a) s (fun x s =>
    let c := clutchAt s x.cid
    if c.pad.isSome then .trap cLeap 0 x.at_
    else
      let vs := laneBlock s c x.ex (fun s c i => fpRead (ftzOf c) st ((rd32 s c i a).toNat % 2 ^ tyBits st))
      let q := mxScale (mfTy fmt.toNat) vs
      let v := if !asValue then q.1 else if q.1 = 0xFF then canonNan .f32
        else (fpRound .f32 .rne false false 0 false { m := 1, e := (q.1 : Int) - 127, sticky := false }).1
      let c1 := pendAll c x.ex false d (fun _ => v)
      .done (setClutch s x.cid { c1 with flags := c1.flags ||| q.2 }) 0)

/-! ### Stage rings (05 R182 to R184, 11 R419 to R421) -/

def ringAt (s : State) (t n : Nat) : Nat :=
  match taskAt s t with
  | some x => (tget 0 x.rings n).toNat
  | none => 0

def setRing (s : State) (t n w : Nat) : State := modTask s t (fun x => { x with rings := tput 0 x.rings n (BitVec.ofNat 128 w) })

def rgBase (w : Nat) : Nat := bits w 0 21
def rgStages (w : Nat) : Nat := bits w 21 3 + 1
def rgRoles (w : Nat) : Nat := bits w 24 3 + 1
def rgConfigured (w : Nat) : Bool := decide (bits w 24 3 ≠ 0)
def rgSize (w : Nat) : Nat := bits w 32 12
def rgCur (w role : Nat) : Nat := bits w (48 + 3 * role) 3
def rgFull (w i : Nat) : Bool := decide (bits w (72 + 5 * i) 1 = 1)
def rgHeld (w i : Nat) : Bool := decide (bits w (73 + 5 * i) 1 = 1)
def rgOwner (w i : Nat) : Nat := bits w (74 + 5 * i) 3

/-- Stage i with new bits FULL, HELD and OWNER. -/
def rgSet (w i : Nat) (full held : Bool) (owner : Nat) : Nat :=
  setBits w (72 + 5 * i) 5 ((if full then 1 else 0) + (if held then 2 else 0) + 4 * owner)

/-- The checks of `ring.cfg`, after that for a landed clutch. -/
def ringCfgFault (s : State) (x : Ctx) (t : Task) (n v : Nat) : Option Res :=
  let a : Dword := BitVec.ofNat 64 (scratchBase + rgBase v)
  let lo := t.szS + t.szQ
  if rgBase v % 128 ≠ 0 then some (.trap cMisalign a x.at_)
  else if rgSize v = 0 ∨ rgBase v < lo ∨ lo + t.szG < rgBase v + rgStages v * rgSize v * 128 then some (.trap cBounds a x.at_)
  else if (List.range 8).any (fun i => rgHeld (ringAt s (taskNo (clutchAt s x.cid)) n) i) then some (.trap cFifo (BitVec.ofNat 64 n) x.at_)
  else none

def execRingCfg (h : Hdr) (n : Fin 8) (a : Reg) (s : State) : Out :=
  word (.ringCfg h n a) s (fun x s =>
    let c := clutchAt s x.cid
    if c.pad.isSome then .trap cLeap 0 x.at_
    else match c.task.bind (taskAt s) with
      | none => .done s 0
      | some t =>
        let v := (rd64 s c (lowLane x.ex) a).toNat
        match ringCfgFault s x t n.val v with
        | some r => r
        | none => .done (setRing s (taskNo c) n.val (bits v 0 27 + rgSize v * 2 ^ 32)) 0)

/-- FIFO_STATE of `ring.acq` and `ring.rel`: an unconfigured ring or a role that it does not have. -/
def ringFault (s : State) (x : Ctx) (n role : Nat) : Option Res :=
  let c := clutchAt s x.cid
  let w := ringAt s (taskNo c) n
  if c.pad.isSome then some (.trap cLeap 0 x.at_)
  else if !rgConfigured w || decide (rgRoles w ≤ role) then some (.trap cFifo (BitVec.ofNat 64 n) x.at_) else none

/-- The need of `ring.acq` for stage i (05 R183). -/
def ringReady (w i role : Nat) : Bool := decide (rgOwner w i = role) && !rgHeld w i && rgFull w i == decide (0 < role)

def execRingAcq (h : Hdr) (n r : Fin 8) (d : Reg) (s : State) : Out :=
  word (.ringAcq h n r d) s (fun x s =>
    match ringFault s x n.val r.val with
    | some f => f
    | none =>
      let c := clutchAt s x.cid
      let w := ringAt s (taskNo c) n.val
      let i := rgCur w r.val
      if !ringReady w i r.val then .wait .ring s
      else
        let w1 := setBits (rgSet w i (rgFull w i) true r.val) (48 + 3 * r.val) 3 ((i + 1) % rgStages w)
        let s := acquireOp (setRing s (taskNo c) n.val w1) c.core .core
        .done (pendValue s x false d (rgBase w + i * rgSize w * 128)) 0)

/-- The stage that a role acquired earliest among those it holds (11 R420). -/
def ringOldest (w role : Nat) : Option Nat :=
  ((List.range (rgStages w)).map (fun k => (rgCur w role + k) % rgStages w)).find? (fun i => rgHeld w i && decide (rgOwner w i = role))

def execRingRel (h : Hdr) (n r : Fin 8) (s : State) : Out :=
  word (.ringRel h n r) s (fun x s =>
    match ringFault s x n.val r.val with
    | some f => f
    | none =>
      let t := taskNo (clutchAt s x.cid)
      let w := ringAt s t n.val
      match ringOldest w r.val with
      | none => .trap cFifo (BitVec.ofNat 64 n.val) x.at_
      | some i => match releaseAll s x.cid .core with
        | none => .wait .tokens s
        | some s =>
          let last : Bool := r.val + 1 = rgRoles w
          .done (setRing s t n.val (rgSet w i (!last) false (if last then 0 else r.val + 1))) 0)

end Sys2Proof.Machine
end

