-- ==== Sys2Proof/Machine/Queues.lean ====
section
/-! DEFINITION. Queue words (05 R178 to R181, 10 R364) and the vertical FIFO (05 R185 to R188, 12 R439). -/

namespace Sys2Proof.Machine

/-! ### `qpush`, `qpop`, `qcfg` -/

/-- FIFO_STATE of a queue word, with the queue number. -/
def queueTrap (q : Nat) (x : Ctx) : Res := .trap cFifo (BitVec.ofNat 64 q) x.at_

/-- Put the elements of lanes at TAIL, in increasing lane order. -/
def pushLanes (s : State) (t : Task) (w n : Nat) (v : Nat → Nat) : Nat → List Nat → State
  | _, [] => s
  | k, i :: is => pushLanes (spWrite s t.core (t.spOff + qElem w k) (leBytes n (v i))) t w n v (k + 1) is

/-- `qpush`: the checks of R364 and R181, a wait for space, a release at core scope, then the elements (05 R179). -/
def execQpush (h : Hdr) (t : Ty) (d : Reg) (q : Fin 16) (s : State) : Out :=
  word (.qpush h t d q) s (fun x s =>
    let c := clutchAt s x.cid
    let w := queueAt s (taskNo c) q.val
    let n := (memSize t).getD 4
    let m := (lanesOf x.ex).length
    if c.pad.isSome then .trap cLeap 0 x.at_
    else if qSize w ≠ n ∨ qState w ≠ 1 then queueTrap q.val x
    else if 2 ^ qDepth w < qCount w + m then .wait .queue s
    else match releaseAll s x.cid .core with
      | none => .wait .tokens s
      | some s => match taskAt s (taskNo c) with
        | none => .done s 0
        | some k =>
          let s := pushLanes s k w n (fun i => rdN s (clutchAt s x.cid) i (tyWide t) d) (qTail w) (lanesOf x.ex)
          .done (setQueue s (taskNo c) q.val (setBits w 44 16 (qTail w + m))) 0)

/-- Parts of the result of `qpop`: the elements from HEAD on, extended under the type. -/
def popParts (s : State) (c : Clutch) (k : Task) (t : Ty) (d : Reg) (w n : Nat) : Nat → List Nat → List PAcc
  | _, [] => []
  | j, i :: is =>
    accFor c i (tyWide t) d (known (extendLoad t (leNat (spRead s k.core (k.spOff + qElem w j) n)))) ++ popParts s c k t d w n (j + 1) is

/-- `qpop` (05 R179, R181). A queue in ERROR, or whose stream has ended, that is short of elements traps with the stream's address. -/
def execQpop (h : Hdr) (t : Ty) (d : Reg) (q : Fin 16) (s : State) : Out :=
  word (.qpop h t d q) s (fun x s =>
    let c := clutchAt s x.cid
    let w := queueAt s (taskNo c) q.val
    let n := (memSize t).getD 4
    let m := (lanesOf x.ex).length
    match c.task.bind (taskAt s) with
    | none => .done s 0
    | some k =>
      if c.pad.isSome then .trap cLeap 0 x.at_
      else if qSize w ≠ n ∨ qState w = 0 then queueTrap q.val x
      else if qCount w < m then
        if qDone w || decide (qState w = 3) then .trap cFifo (tget 0 k.qAddr q.val) x.at_ else .wait .queue s
      else
        let s := setQueue s (taskNo c) q.val (setBits w 28 16 (qHead w + m))
        let accs := popParts s c k t d w n (qHead w) (lanesOf x.ex)
        let s := if accs.isEmpty then s else setClutch s x.cid (addPend c accs none)
        .done (acquireOp s c.core .core) 0)

/-- A stream still feeds the queue. -/
def streamFeeds (s : State) (t q : Nat) : Bool :=
  (tsome s.cmds).any (fun p => p.2.kind == .stream && p.2.ref == .task t && !p.2.ended && !p.2.orphan &&
    decide (blkField p.2.block 0x14 0 4 = q))

/-- The checks of `qcfg.set` (10 R364). -/
def qcfgFault (s : State) (x : Ctx) (t : Task) (q v : Nat) : Option Res :=
  let a : Dword := BitVec.ofNat 64 (scratchBase + qBase v)
  if qBase v % 128 ≠ 0 then some (.trap cMisalign a x.at_)
  else if qDepth v = 0 ∨ qDepth v = 15 ∨ qBase v < t.szS ∨ t.szS + t.szQ < qBase v + 2 ^ qDepth v * qSize v then some (.trap cBounds a x.at_)
  else if 2 ^ qDepth v < qCount v then some (.trap cBounds a x.at_)
  else if qState v = 2 ∨ streamFeeds s (taskNo (clutchAt s x.cid)) q = true then some (queueTrap q x)
  else none

def execQcfgSet (h : Hdr) (a : Reg) (q : Fin 16) (s : State) : Out :=
  word (.qcfgSet h a q) s (fun x s =>
    let c := clutchAt s x.cid
    let v := (rd64 s c (lowLane x.ex) a).toNat
    if c.pad.isSome then .trap cLeap 0 x.at_
    else match c.task.bind (taskAt s) with
      | none => .done s 0
      | some t => match qcfgFault s x t q.val v with
        | some r => r
        | none =>
          let s := setQueue s (taskNo c) q.val (setBits (setBits v 27 1 0) 63 1 0)
          .done (modTask s (taskNo c) (fun t => { t with qAddr := tput 0 t.qAddr q.val 0 })) 0)

def execQcfgGet (h : Hdr) (d : Reg) (q : Fin 16) (s : State) : Out :=
  word (.qcfgGet h d q) s (fun x s =>
    let c := clutchAt s x.cid
    if c.pad.isSome then .trap cLeap 0 x.at_
    else .done (pendValue s x true d (queueAt s (taskNo c) q.val)) 0)

/-! ### Vertical FIFO -/

/-- The other core of a pair. -/
def partner (core : Nat) : Nat := if upperTier core then core - 2 else core + 2

/-- The clutch's gang holds both cores of its pair (05 R187). -/
def holdsPair (s : State) (c : Clutch) : Bool :=
  match c.task.bind (taskAt s) with
  | none => false
  | some t => match gangAt s t.gang with
    | none => false
    | some g => g.cores.contains c.core && g.cores.contains (partner c.core)

/-- The FIFO of a gang that leaves a core, and the one that arrives at it: + 0 for up, + 1 for down. -/
def fifoOut (gang core : Nat) : Nat := 256 * gang + 2 * pairOf core + (if upperTier core then 1 else 0)
def fifoIn (gang core : Nat) : Nat := 256 * gang + 2 * pairOf core + (if upperTier core then 0 else 1)

/-- The gang of a clutch. -/
def gangNo (s : State) (c : Clutch) : Nat := match c.task.bind (taskAt s) with | some t => t.gang | none => 0

def setFifo (s : State) (k : Nat) (l : List (BitVec 1024)) : State := { s with fifos := tput [] s.fifos k l }

/-- The checks of R439; `TRAP_ADDR` of this FIFO_STATE is a free value (log 11). -/
def fifoFault (s : State) (x : Ctx) : Option Res :=
  let c := clutchAt s x.cid
  if c.pad.isSome then some (.trap cLeap 0 x.at_)
  else if !holdsPair s c then some (.trap cFifo (freeD s).1 x.at_) else none

/-- The 32 lanes of a register as an entry. -/
def fifoEntry (s : State) (c : Clutch) (a : Reg) : BitVec 1024 :=
  (List.range 32).foldl (fun d i => d ||| ((rd32 s c i a).setWidth 1024) <<< (32 * i)) 0

def execVfsend (h : Hdr) (a : Reg) (s : State) : Out :=
  word (.vfsend h a) s (fun x s =>
    match fifoFault s x with
    | some r => r
    | none =>
      let k := fifoOut (gangNo s (clutchAt s x.cid)) (clutchAt s x.cid).core
      if 8 ≤ (fifoAt s k).length then .wait .vfifo s
      else match releaseAll s x.cid .column with
        | none => .wait .tokens s
        | some s => .done (setFifo s k (fifoAt s k ++ [fifoEntry s (clutchAt s x.cid) a])) 0)

def execVfrecv (h : Hdr) (d : Reg) (s : State) : Out :=
  word (.vfrecv h d) s (fun x s =>
    match fifoFault s x with
    | some r => r
    | none =>
      let c := clutchAt s x.cid
      let k := fifoIn (gangNo s c) c.core
      match fifoAt s k with
      | [] => .wait .vfifo s
      | e :: t =>
        let s := setFifo (setClutch s x.cid (pendAll c x.ex false d (fun i => (e.extractLsb' (32 * i) 32).toNat))) k t
        .done (acquireOp s c.core .column) 0)

def execVffree (h : Hdr) (d : Reg) (s : State) : Out :=
  word (.vffree h d) s (fun x s =>
    match fifoFault s x with
    | some r => r
    | none => .done (pendValue s x false d (8 - (fifoAt s (fifoOut (gangNo s (clutchAt s x.cid)) (clutchAt s x.cid).core)).length)) 0)

end Sys2Proof.Machine
end

