-- ==== Sys2Proof/Machine/Lines.lean ====
section
/-! DEFINITION. Launch lines and join records as every agent uses them: the reads and translations of the agent of a line (03 R111,
R116), token fields (R105), updates of join records (R118, R119), and a token's entry into a queue (R102). -/

namespace Sys2Proof.Machine

/-! ### Translations of an agent (03 R111, R123) -/

/-- Physical address of a byte of a context's global window for an agent, which has the privilege of the context's tasks. -/
def agentPa (s : State) (ctx va : Nat) (acc : AccKind) : Option Nat :=
  if windowOf va ≠ .global then none
  else match walk s ctx va with
    | .ok f sz p =>
      let pa := f + va % sz
      if !permits p acc (ctxAt s ctx).user then none
      else match paKind s pa with
        | .hole => none
        | .regs => none
        | _ => some pa
    | _ => none

/-- The die of the agent of a line (07 R253): of its column, of its tower, or T0. -/
def agentDie (key : Nat) : Nat := if key / 8 < 64 then dieOf (key / 8) else if key / 8 < 68 then key / 8 - 64 else 0

/-- A line as the agent's acquire at package scope reads it (03 R111, 07 R261, R262): performed bytes, the writes its die has
accepted, and for a column launcher the bytes queued in its column. -/
def agentLine (s : State) (key line : Nat) : BitVec 1024 :=
  let merge := fun (d : BitVec 1024) (es : List CwqEntry) => es.foldl (fun d e => lineMerge d e.data e.mask) d
  let d := merge (perfLine s line) ((acceptedOf s (agentDie key) line).flatMap (fun a =>
    (colAt s a.2).cwq.filter (fun e => decide (e.line = line) && decide (e.accepted = some a.1))))
  if key / 8 < 64 then merge d ((colAt s (key / 8)).cwq.filter (fun e => decide (e.line = line) && e.accepted.isNone)) else d

/-- The agent of a line reads the lines of n bytes at its die, those of its walk first (01 R32, 06 R228, 07 R262); none while one waits. -/
def agentTake (s : State) (key ctx va n : Nat) : Option State :=
  match walksAt s (agentDie key) ctx [va] with
  | none => none
  | some s => match agentPa s ctx va .load with
  | some pa => readsAt s (agentDie key) ((List.range ((pa % 128 + n + 127) / 128)).map (fun i => pa / 128 + i))
  | none => some s

/-- Read n bytes that lie in one 64 KiB page, as the agent of a line. -/
def agentNat (s : State) (key ctx va n : Nat) : Option Nat :=
  (agentPa s ctx va .load).map (fun pa =>
    let ls := (List.range ((pa % 128 + n + 127) / 128)).map (fun i => (agentLine s key (pa / 128 + i)).toNat * 2 ^ (1024 * i))
    bits (ls.foldl (· + ·) 0) (8 * (pa % 128)) (8 * n))

/-! ### Tokens (03 R105) -/

def tokRecord (t : BitVec 512) : Nat := bits t.toNat 0 64
def tokSeq (t : BitVec 512) : Nat := bits t.toNat 64 32
def tokFlags (t : BitVec 512) : Nat := bits t.toNat 96 16
def tokJoin (t : BitVec 512) : Nat := bits t.toNat 128 64
def tokArgs (t : BitVec 512) : Nat := bits t.toNat 192 64

/-- Address of the join record of a token: its own, or its launch record's (03 R105); 0 for none. -/
def joinVa (s : State) (key ctx : Nat) (t : BitVec 512) : Nat :=
  if tokJoin t ≠ 0 then tokJoin t
  else if tokRecord t % 256 ≠ 0 then 0
  else (agentNat s key ctx (tokRecord t + 0x10) 8).getD 0

/-! ### Join records (03 R118, R119) -/

/-- Physical address of a join record that is writable in its context (03 R116). -/
def joinPa (s : State) (ctx va : Nat) : Option Nat :=
  if va = 0 ∨ va % 64 ≠ 0 then none else agentPa s ctx va .store

def jPending (r : Nat) : Nat := bits r 0 32

/-- PENDING and LAUNCHES of a token that enters a queue. -/
def joinToken (r : Nat) : Nat := setBits (setBits r 0 32 (jPending r + 1)) 128 32 (bits r 128 32 + 1)

/-- A record accepted with n tasks. -/
def joinAccept (n r : Nat) : Nat := setBits r 0 32 (jPending r + n + 2 ^ 32 - 1)

/-- One task terminates with a code. -/
def joinEnd (code reason task seq tsc r : Nat) : Nat :=
  let p := (jPending r + 2 ^ 32 - 1) % 2 ^ 32
  let r := setBits r 0 32 p
  let r := if code ≠ 0 ∧ bits r 32 8 = 0 then setBits (setBits (setBits r 32 32 (code + reason * 256)) 64 32 task) 96 32 seq else r
  if p = 0 then setBits r 192 64 tsc else r

/-- A join record's home die reads the entries of its translation and has its line with all four tokens; none while it waits. -/
def joinOwn (s : State) (ctx va : Nat) : Option State :=
  if va = 0 then some s
  else match walksAt s (match joinPa s ctx va with | some pa => homeTower s pa | none => 0) ctx [va] with
  | none => none
  | some s => match joinPa s ctx va with
    | none => some s
    | some pa => ownLine s (homeTower s pa) (pa / 128)

/-- One indivisible update by the home die's sync engine; none while the line's tokens are kept. A record that cannot be written
takes none. -/
def joinUpdate (s : State) (ctx va : Nat) (f : Nat → Nat) : Option State :=
  (joinOwn s ctx va).map (fun s => match joinPa s ctx va with
    | none => s
    | some pa => performBytes s pa (leBytes 32 (f (perfNat s pa 32))))

/-- Waiters of join records: clutches in `join` and WAITING launches look again (03 R119, 04 R125). -/
def wakeJoins (s : State) : State :=
  let cs := ((tsome s.clutches).filter (fun p => match p.2.wait with | some w => w.kind == .join | none => false)).map (fun p => Instr.joinReturn p.1)
  let ls := ((tsome s.launches).filter (fun p => p.2.state == .waiting)).map (fun p => Instr.dependenceEvaluation p.1)
  startNext s (cs ++ ls)

/-- A task ends: the update, and waiters are woken when PENDING becomes 0. `va` 0 names no record. -/
def joinTask (s : State) (ctx va code reason task seq : Nat) : Option State :=
  match joinUpdate s ctx va (joinEnd code reason task seq s.tsc.toNat) with
  | none => none
  | some s => match joinPa s ctx va with
    | none => some s
    | some pa => some (if perfNat s pa 4 = 0 then wakeJoins s else s)

/-- N tasks end one after another. -/
def joinTasks (s : State) (ctx va code reason seq : Nat) : List Nat → Option State
  | [] => some s
  | t :: ts => match joinTask s ctx va code reason t seq with
    | none => none
    | some s => joinTasks s ctx va code reason seq ts

/-! ### A token enters a queue (03 R102, R119) -/

def lineEn (x : Line) : Bool := x.cfg.getLsbD 0
def lineHost (x : Line) : Bool := x.cfg.getLsbD 1
def lineDev (x : Line) : Bool := x.cfg.getLsbD 2
def lineCtx (x : Line) : Nat := bits x.cfg.toNat 4 8
def lineVec (x : Line) : Nat := bits x.cfg.toNat 12 11

/-- Cause codes of `LL_STATUS.ERR` (03 R116). -/
def rFormat : Nat := 1
def rFetch : Nat := 2
def rHier : Nat := 3
def rSize : Nat := 4
def rExtent : Nat := 5
def rPart : Nat := 6
def rCtx : Nat := 7

/-- The agent of a line looks at its queue. -/
def checkNext (key : Nat) : Instr := .launchRecordCheck (blockOf key) (Fin.ofNat 8 key)

/-- The agent reads the JOIN field of the launch record that a token without one names. -/
def joinTake (s : State) (key ctx : Nat) (t : BitVec 512) : Option State :=
  if tokJoin t ≠ 0 ∨ tokRecord t % 256 ≠ 0 then some s else agentTake s key ctx (tokRecord t + 0x10) 8

/-- A token enters the queue of an enabled line that has room, with the join increment; none while the record's line is kept. One
whose increment would carry PENDING past 2^32 − 1 is rejected with FORMAT and updates nothing (03 R119). -/
def enqueueTok (s : State) (key : Nat) (t : BitVec 512) (host : Bool) (parent : Option (Nat × Nat)) : Option State :=
  let ctx := lineCtx (lineAt s key)
  match joinTake s key ctx t with
  | none => none
  | some s =>
  let va := joinVa s key ctx t
  match joinOwn s ctx va with
  | none => none
  | some s =>
  let ok := (joinPa s ctx va).isSome
  let full : Bool := match joinPa s ctx va with
    | some pa => perfNat s pa 4 = 0xFFFFFFFF
    | none => false
  if full then some (setLine s key { lineAt s key with err := BitVec.ofNat 8 rFormat })
  else match joinUpdate s ctx va joinToken with
    | none => none
    | some s =>
      let x := lineAt s key
      let k : Tok := { bits := t, ctx := ctx, host := host, join := if ok then va else 0, parent := parent, serial := s.pkg.serial,
                       orphan := false, cancelled := false }
      let s := { s with pkg := { s.pkg with serial := s.pkg.serial + 1 } }
      some (startNext (setLine s key { x with queue := x.queue ++ [k], lastSeq := BitVec.ofNat 32 (tokSeq t) }) [checkNext key])

end Sys2Proof.Machine
end

