-- ==== Sys2Proof/Machine/Sync.lean ====
section
/-! DEFINITION. `leap`, `launch`, `join` (05 R191 to R195, 12 R440 to R442), brood barriers (R443), and the objects of the sync
engines: system barriers, `waitaddr`, `wake`, deques (R444 to R447). -/

namespace Sys2Proof.Machine

/-! ### Shared steps -/

/-- The check of the object of a word that acts once (12 R444): the address of the lowest executing lane; an object in another
window than the word allows raises PROTECTION, the scratchpad window on a landed clutch too (log 55). -/
def objCheck (s : State) (x : Ctx) (q : Req) (ea : Dword) (n : Nat) (allowed : Window → Bool) : Checked :=
  gatherChecks s q.acc [lowLane x.ex] (fun _ => ea) (fun _ => windowed (allowed (windowOf ea.toNat)) (locate s q ea n))
    (fun _ => accessTake q ea n)

def globalOnly : Window → Bool
  | .global => true | _ => false

/-- The windows of `waitaddr` and `wake` (12 R446). -/
def waitWindows : Window → Bool
  | .global => true | .colBank => true | .scratch => true | _ => false

/-- The request of an object of a sync engine. -/
def objReq (s : State) (c : Clutch) (base : Reg) (acc : AccKind) (align : Nat) (view : PView) : Req :=
  { reqOf s c (baseReg c base) acc align false with view := view }

/-- Perform the operations queued on a line, each after those before it at its die (06 R224). -/
def syncLine (line : Nat) : Nat → State → Option State
  | 0, s => some s
  | k + 1, s =>
    match s.sync.find? (fun o => decide (o.pa / 128 = line)) with
    | none => some s
    | some o => match s.sync.find? (fun q => decide (q.die = o.die)) with
      | none => some s
      | some q => match syncPerform s q with
        | none => none
        | some s => syncLine line k s

/-- The sync engine takes a line for a clutch (12 R444, 07 R262, R265): the core drops it, its column's queue drains its entry, the
operations queued on it and the writes accepted to it are performed, and the home die gathers the tokens. -/
def homeTake (s : State) (core pa : Nat) : Option State :=
  match (atomicPrep s core (pa / 128)).bind (fun s => syncLine (pa / 128) s.sync.length s) with
  | none => none
  | some s => ownLine s (homeTower s pa) (pa / 128)

/-- One indivisible read, change and write of n bytes at home: the state and the old value. -/
def homeRmw (s : State) (core pa n : Nat) (f : Nat → Nat) : Option (State × Nat) :=
  match homeTake s core pa with
  | none => none
  | some s => some (performBytes s pa (leBytes n (f (perfNat s pa n))), perfNat s pa n)

/-- The four results of `join`, `deq.pop` and `deq.steal`. -/
def pendQuad (s : State) (x : Ctx) (d : Reg) (v : List Nat) : State :=
  let c := clutchAt s x.cid
  let accs := ((rg4 d).zip v).flatMap (fun p => accFor c (lowLane x.ex) false p.1 (known p.2))
  if accs.isEmpty then s else setClutch s x.cid (addPend c accs none)

/-! ### Leap (05 R191 to R194, 12 R440) -/

/-- Slots in use on a core: home slots and those of landed clutches. -/
def slotsUsed (s : State) (core : Nat) : List Nat :=
  ((tsome s.clutches).filter (fun p => decide (p.2.homeCore = core) && clutchIn s p.2)).map (fun p => p.2.homeSlot) ++
  (landedOn s core).map (fun p => p.2.slot)

/-- The lowest number below n that a list does not hold. -/
def lowestFree (n : Nat) (used : List Nat) : Nat := ((List.range n).find? (fun k => !used.contains k)).getD 0

/-- The quadrant of a clutch that starts or lands (04 R137); the clutch itself does not count. -/
def pickQuad (s : State) (core cid : Nat) : Nat :=
  let cnt := fun q => ((clutchesOn s core).filter (fun p => decide (p.1 ≠ cid) && decide (p.2.quad = q))).length
  [1, 2, 3].foldl (fun b q => if cnt q < cnt b then q else b) 0

/-- A core of a column that is a landing place (05 R193). -/
def mayLand (s : State) (core : Nat) : Bool :=
  !gateAsked s core && !isGated s core && decide ((landedOn s core).length < 4) && decide (slotsHeld s core < 48)

/-- The landing place of a leap to a column: the qualifying core with the fewest resident clutches, in position order. -/
def landingCore (s : State) (col : Nat) : Option Nat :=
  ([0, 1, 2, 3].filter (fun p => mayLand s (4 * col + p))).foldl (fun b p =>
    match b with
    | none => some (4 * col + p)
    | some k => if (clutchesOn s (4 * col + p)).length < (clutchesOn s k).length then some (4 * col + p) else b) none

/-- The narrowest scope that holds two columns. -/
def pairScope (a b : Nat) : Scope := if a = b then .column else if dieOf a = dieOf b then .die else .pkg

/-- No earlier leap waits for a place in the column; a clutch whose task is pre-empted keeps its place in that order (log 116). -/
def firstLeap (s : State) (col order : Nat) : Bool :=
  (leapsTo s col).all (fun p => !waitsIn p.2 .leap || decide (order ≤ p.2.waitArg))

/-- The clutch moves to a core; then the acquire (05 R192). -/
def leapMove (s : State) (cid core slot quad : Nat) (pad : Option Nat) : State :=
  let c := clutchAt s cid
  let sc := pairScope (colOf c.core) (colOf core)
  let s := setClutch s cid { c with core := core, slot := slot, quad := quad, pad := pad, leapTo := none, waitArg := 0 }
  acquireOp s core sc

/-- A waiting leap lands when it may; the home column gives back the home slot (05 R193, R194). -/
def leapTry (s : State) (cid col : Nat) : Option State :=
  let c := clutchAt s cid
  if col = colOf c.homeCore then
    some (leapMove s cid c.homeCore c.homeSlot (if c.pad.isSome then pickQuad s c.homeCore cid else c.quad) none)
  else if !firstLeap s col c.waitArg then none
  else match landingCore s col with
    | none => none
    | some k =>
      let pads := (landedOn s k).filterMap (fun p => p.2.pad)
      some (leapMove s cid k (lowestFree 48 (slotsUsed s k)) (pickQuad s k cid) (some (lowestFree 4 pads)))

/-- The address translates to device register space. -/
def leapDev (s : State) (c : Clutch) (base : Reg) (va : Nat) : Bool :=
  (match baseReg c base with | some a => a.r | none => true) &&
  (match xlRange s c.core (ctxOf s c) (userLevel c) ((c.task.bind (taskAt s)).bind (fun t => extHit t va 1)) va 1 .load with
   | .ok ((pa, _) :: _) => paKind s pa == .regs
   | _ => false)

/-- The target column of a leap (05 R191). -/
def leapTarget (s : State) (x : Ctx) (c : Clutch) (base : Reg) : Res ⊕ Nat :=
  let l := lowLane x.ex
  let ea := baseVal s c l base
  let refuse : Res := .trap cLeap ea (laneBit l)
  if windowOf ea.toNat = .scratch then .inl refuse
  else match objCheck s x (objReq s c base .load 0 .none) ea 1 (fun _ => true) with
    | .stop (.trap k a m) => .inl (if k = cProtection && leapDev s c base ea.toNat then refuse else .trap k a m)
    | .stop r => .inl r
    | .ok ps => match (ps.head?).bind (fun p => homeSlice s (placePa p.2)) with
      | none => .inl refuse
      | some col => if assignedCol s col && decide (partOf s col = (ctxAt s (ctxOf s c)).part.toNat) then .inr col else .inl refuse

def execLeap (h : Hdr) (a : Reg) (s : State) : Out :=
  word (.leap h a) s (fun x s =>
    let c := clutchAt s x.cid
    match c.leapTo, waitsIn c .leap with
    | some col, true => match leapTry s x.cid col with
      | some s => .done s 0
      | none => .wait .leap s
    | _, _ => match leapTarget s x c a with
      | .inl r => r
      | .inr col => match releaseAll s x.cid (pairScope (colOf c.core) col) with
        | none => .wait .tokens s
        | some s =>
          let s := modClutch s x.cid (fun c => { c with leapTo := some col, waitArg := s.pkg.serial, hazard := [] })
          let s := { s with pkg := { s.pkg with serial := s.pkg.serial + 1 } }
          match leapTry s x.cid col with
          | some s => .done s 0
          | none => .wait .leap s)

/-! ### Launch and join (12 R441, R442) -/

/-- The launch line that an address names (12 R441): any other address, mapped or not, raises PROTECTION. The 64 bytes of a line must lie
in the base's address register (05 R170). A `launch` that has waited finds a line disabled since then, and its token is dropped
(R463). -/
def launchKey (s : State) (x : Ctx) (c : Clutch) (a : Reg) : Res ⊕ Nat :=
  let l := lowLane x.ex
  let ea := baseVal s c l a
  let refuse : Res := .trap cProtection ea (laneBit l)
  let q := reqOf s c none .store 0 true
  match locate s q ea 8 with
  | .error .wait => .inl (.wait .translation (accessTake q ea 8 s))
  | .error (.trap _) => .inl refuse
  | .ok (.dev pa) => match regAt (regOff pa) with
    | some (.lineData key _) =>
      let y := lineAt s key
      if pa % 64 ≠ 0 then .inl refuse
      else if (match baseReg c a with | some r => decide (ea.toNat < r.base.toNat) || decide (r.limit.toNat < ea.toNat + 64) | none => false)
        then .inl (.trap cBounds ea (laneBit l))
      else if (match baseReg c a with | some r => !r.w | none => false) then .inl refuse
      else if (waitsIn c .launchLine && !lineEn y) || (lineDev y && decide (lineCtx y = ctxOf s c)) then .inr key else .inl refuse
    | _ => .inl refuse
  | .ok _ => .inl refuse

def execLaunch (h : Hdr) (sc : Scope) (a b : Reg) (s : State) : Out :=
  word (.launch h sc a b) s (fun x s => withAsks x.cid s (fun s =>
    let c := clutchAt s x.cid
    let tea := baseVal s c (lowLane x.ex) b
    match checkLanes s (reqOf s c (baseReg c b) .load 64 false) [lowLane x.ex] (fun _ => tea) 64 (fun _ => false) with
    | .stop r => r
    | .ok ps => match launchKey s x c a with
      | .inl r => r
      | .inr key => match weightMisses s c.core ps with
        | _ :: _ => .wait .reply (weightAsk s (2 * x.cid) c.core ps)
        | [] => match syncFirst s x.cid (ps.map (·.2)) with
          | none => .wait .tokens s
          | some s1 => match (ps.head?).bind (fun p => readPlace s1 c.core p.2 64) with
            | none => .wait .tokens s
            | some (s2, bs) => match releaseAll s2 x.cid sc with
              | none => .wait .tokens s
              | some s3 =>
                if !lineEn (lineAt s3 key) then .done (dropToken s3 key) 0
                else if 8 ≤ (lineAt s3 key).queue.length then .wait .launchLine s3
                else match enqueueTok s3 key (BitVec.ofNat 512 (leNat bs)) false ((c.task.bind (taskAt s3)).map (fun t => (t.launch, t.number))) with
                  | none => .wait .tokens s
                  | some s4 => .done s4 0))

/-- `join`: the record is read at home once it holds PENDING 0. -/
def execJoin (h : Hdr) (d a : Reg) (s : State) : Out :=
  word (.join h d a) s (fun x s =>
    let c := clutchAt s x.cid
    let ea := baseVal s c (lowLane x.ex) a
    match objCheck s x (objReq s c a .load 64 .slice) ea 64 globalOnly with
    | .stop r => r
    | .ok ps =>
      let pa := placePa ((ps.head?).elim (.dev 0) (·.2))
      match homeTake s c.core pa with
      | none => .wait .tokens s
      | some s =>
        let r := perfNat s pa 32
        if jPending r ≠ 0 then .wait .join s
        else .done (acquireOp (pendQuad s x d [bits r 32 32, bits r 64 32, bits r 96 32, bits r 128 32]) c.core .pkg) 0)

/-! ### Brood barriers (12 R443) -/

def barTrap (n : Fin 16) (x : Ctx) : Res := .trap cFifo (BitVec.ofNat 64 n.val) x.at_

/-- The arrival of a clutch at barrier n: the barrier after it. -/
def barStep (b : Bar) (cnt : BitVec 6) : Bar :=
  let e := if b.e = 0 then cnt else b.e
  if b.a + 1 = e then { e := 0, a := 0, ph := !b.ph } else { b with e := e, a := b.a + 1 }

def execBarArr (h : Hdr) (n : Fin 16) (cnt : BitVec 6) (s : State) : Out :=
  word (.barArr h n cnt) s (fun x s =>
    let c := clutchAt s x.cid
    match c.task.bind (taskAt s) with
    | none => .done s 0
    | some t =>
      let b := tget Bar.zero t.bars n.val
      if c.pad.isSome then .trap cLeap 0 x.at_
      else if c.arrived.getLsbD n.val then barTrap n x
      else if b.e ≠ 0 ∧ cnt ≠ b.e then barTrap n x
      else match releaseAll s x.cid .core with
        | none => .wait .tokens s
        | some s =>
          let s := modTask s (taskNo c) (fun t => { t with bars := tput Bar.zero t.bars n.val (barStep b cnt) })
          let bit : BitVec 16 := (1#16) <<< n.val
          .done (modClutch s x.cid (fun c => { c with
            arrived := c.arrived ||| bit
            seen := if b.ph then c.seen ||| bit else c.seen &&& ~~~bit })) 0)

def execBarWait (h : Hdr) (n : Fin 16) (s : State) : Out :=
  word (.barWait h n) s (fun x s =>
    let c := clutchAt s x.cid
    match c.task.bind (taskAt s) with
    | none => .done s 0
    | some t =>
      if c.pad.isSome then .trap cLeap 0 x.at_
      else if !c.arrived.getLsbD n.val then barTrap n x
      else if (tget Bar.zero t.bars n.val).ph = c.seen.getLsbD n.val then .wait .bar s
      else
        let s := modClutch s x.cid (fun c => { c with arrived := c.arrived &&& ~~~((1#16) <<< n.val) })
        .done (acquireOp s c.core .core) 0)

/-! ### System barriers (12 R445) -/

/-- The record after an arrival: EXPECT at bit 0, COUNT at 32, GEN at 64. -/
def sbarStep (r : Nat) : Nat :=
  let n := (bits r 32 32 + 1) % 2 ^ 32
  if bits r 0 32 ≤ n then setBits (setBits r 32 32 0) 64 32 (bits r 64 32 + 1) else setBits r 32 32 n

/-- Clutches that wait in a kind of word look again. -/
def wakeWaiting (s : State) (k : WaitKind) (mk : Nat → Instr) : State :=
  startNext s (((tsome s.clutches).filter (fun p => waitsIn p.2 k)).map (fun p => mk p.1))

def execSbarArr (h : Hdr) (a : Reg) (s : State) : Out :=
  word (.sbarArr h a) s (fun x s =>
    let c := clutchAt s x.cid
    let ea := baseVal s c (lowLane x.ex) a
    match objCheck s x (objReq s c a .atomic 16 .slice) ea 16 globalOnly with
    | .stop r => r
    | .ok ps => match releaseAll s x.cid .pkg with
      | none => .wait .tokens s
      | some s1 => match homeRmw s1 c.core (placePa ((ps.head?).elim (.dev 0) (·.2))) 16 sbarStep with
        | none => .wait .tokens s
        | some (s2, old) =>
          let s3 := modClutch s2 x.cid (fun c => { c with sbarGen := BitVec.ofNat 32 (bits old 64 32) })
          .done (if bits (sbarStep old) 64 32 = bits old 64 32 then s3 else wakeWaiting s3 .sbar .sbarWaitResume) 0)

def execSbarWait (h : Hdr) (a : Reg) (s : State) : Out :=
  word (.sbarWait h a) s (fun x s =>
    let c := clutchAt s x.cid
    let ea := baseVal s c (lowLane x.ex) a
    match objCheck s x (objReq s c a .load 16 .slice) ea 16 globalOnly with
    | .stop r => r
    | .ok ps =>
      let pa := placePa ((ps.head?).elim (.dev 0) (·.2))
      match homeTake s c.core pa with
      | none => .wait .tokens s
      | some s =>
        if perfNat s (pa + 8) 4 = c.sbarGen.toNat then .wait .sbar s
        else .done (acquireOp s c.core .pkg) 0)

/-! ### `waitaddr` and `wake` (12 R446) -/

/-- The word that a `waitaddr` reads: at the home die's sync engine, which has a token of the line and its data (06 R231). -/
def waitRead (s : State) (core n : Nat) : Place → Option (State × Nat)
  | .scratch k off => some (s, leNat (spRead s k off n))
  | p => ((atomicPrep s core (placePa p / 128)).bind (fun s => readAt s (homeTower s (placePa p)) (placePa p / 128))).map
      (fun s => (s, perfNat s (placePa p) n))

/-- The sync engine watches the line for a clutch: it keeps one of the die's tokens (06 R231). -/
def watchLine (s : State) (cid : Nat) : Option Place → State
  | some (.phys ch) =>
    let l := placePa (.phys ch) / 128
    modClutch (setTok s l { tokAt s l with watch := true }) cid (fun c => { c with waitArg := l })
  | _ => modClutch s cid (fun c => { c with waitArg := 2 ^ 60 })

def execWaitaddr (h : Hdr) (sc : Scope) (cc : Cmp) (t : Ty) (a b : Reg) (s : State) : Out :=
  word (.waitaddr h sc cc t a b) s (fun x s =>
    let c := clutchAt s x.cid
    let n := (memSize t).getD 4
    let ea := baseVal s c (lowLane x.ex) a
    match objCheck s x (objReq s c a .load n .slice) ea n waitWindows with
    | .stop r => r
    | .ok ps => match syncFirst s x.cid (ps.map (·.2)) with
      | none => .wait .tokens s
      | some s => match (ps.head?).bind (fun p => waitRead s c.core n p.2) with
        | none => .wait .tokens s
        | some (s, v) =>
          if iCmp cc t v (rdN s c (lowLane x.ex) (tyWide t) b) then .done (acquireOp s c.core sc) 0
          else .wait .waitaddr (watchLine s x.cid ((ps.head?).map (·.2))))

def execWake (h : Hdr) (a : Reg) (s : State) : Out :=
  word (.wake h a) s (fun x s =>
    let c := clutchAt s x.cid
    match objCheck s x (objReq s c a .load 0 .none) (baseVal s c (lowLane x.ex) a) 1 waitWindows with
    | .stop r => r
    | .ok _ => match releaseAll s x.cid .pkg with
      | none => .wait .tokens s
      | some s => .done (wakeWaiting s .waitaddr .waitaddrReread) 0)

/-! ### Deques (12 R447) -/

/-- A deque header. -/
structure Deq where
  array  : Nat
  logcap : Nat
  top    : Nat
  bottom : Nat
  deriving DecidableEq, Repr

def deqOf (r : Nat) : Deq := { array := bits r 0 64, logcap := bits r 64 32, top := bits r 128 64, bottom := bits r 192 64 }

/-- A header that `deq.push`, `deq.pop` and `deq.steal` refuse. -/
def Deq.bad (d : Deq) : Bool :=
  decide (d.logcap < 1 ∨ 24 < d.logcap ∨ d.array % 8 ≠ 0 ∨ windowOf d.array ≠ .global ∨ d.bottom < d.top ∨ 2 ^ d.logcap < d.bottom - d.top)

/-- Address of element i. -/
def Deq.slot (d : Deq) (i : Nat) : Nat := d.array + 8 * (i % 2 ^ d.logcap)

/-- The header's address, checked and taken by the sync engine after the word's release. -/
def deqHead (s : State) (x : Ctx) (c : Clutch) (a : Reg) (rel : Option Scope) : Res ⊕ (State × Nat) :=
  let ea := baseVal s c (lowLane x.ex) a
  match objCheck s x (objReq s c a .atomic 64 .slice) ea 64 globalOnly with
  | .stop r => .inl r
  | .ok ps =>
    let pa := placePa ((ps.head?).elim (.dev 0) (·.2))
    match (releaseOpt s x.cid rel).bind (fun s => homeTake s c.core pa) with
    | none => .inl (.wait .tokens s)
    | some s => .inr (s, pa)

/-- Field of a header, written at home. -/
def deqPut (s : State) (pa off n v : Nat) : State := performBytes s (pa + off) (leBytes n v)

def execDeqInit (h : Hdr) (a b : Reg) (lc : BitVec 5) (s : State) : Out :=
  word (.deqInit h a b lc) s (fun x s =>
    let c := clutchAt s x.cid
    match deqHead s x c a none with
    | .inl r => r
    | .inr (s, pa) =>
      let v := rdN s c (lowLane x.ex) true b
      .done (deqPut (deqPut (deqPut (deqPut s pa 0 8 v) pa 8 4 lc.toNat) pa 16 8 0) pa 24 8 0) 0)

/-- An element: checked, and its line taken; a fault names its address. -/
def deqElem (s s0 : State) (x : Ctx) (c : Clutch) (va : Nat) (acc : AccKind) : Res ⊕ (State × Nat) :=
  let q := { reqOf s c none acc 8 false with view := .slice }
  match objCheck s x q (BitVec.ofNat 64 va) 8 globalOnly with
  | .stop r => .inl r
  | .ok ps =>
    let pa := placePa ((ps.head?).elim (.dev 0) (·.2))
    match homeTake s c.core pa with
    | none => .inl (.wait .tokens s0)
    | some s => .inr (s, pa)

def execDeqPush (h : Hdr) (a b : Reg) (s : State) : Out :=
  word (.deqPush h a b) s (fun x s =>
    let c := clutchAt s x.cid
    let refuse : Res := .trap cFifo (baseVal s c (lowLane x.ex) a) x.at_
    match deqHead s x c a (some .pkg) with
    | .inl r => r
    | .inr (s1, pa) =>
      let d := deqOf (perfNat s1 pa 64)
      if d.bad then refuse
      else if 2 ^ d.logcap ≤ d.bottom - d.top then refuse
      else match deqElem s1 s x c (d.slot d.bottom) .store with
        | .inl r => r
        | .inr (s2, ea) =>
          .done (deqPut (performBytes s2 ea (leBytes 8 (rdN s c (lowLane x.ex) true b))) pa 24 8 (d.bottom + 1)) 0)

/-- `deq.pop` (from BOTTOM) and `deq.steal` (from TOP). -/
def deqTake (steal : Bool) (d a : Reg) (x : Ctx) (s : State) : Res :=
  let c := clutchAt s x.cid
  match deqHead s x c a none with
  | .inl r => r
  | .inr (s1, pa) =>
    let q := deqOf (perfNat s1 pa 64)
    if q.bad then .trap cFifo (baseVal s c (lowLane x.ex) a) x.at_
    else if q.bottom = q.top then .done (pendQuad s1 x d [0, 0, 0, 0]) 0
    else match deqElem s1 s x c (q.slot (if steal then q.top else q.bottom - 1)) .load with
      | .inl r => r
      | .inr (s2, ea) =>
        let v := perfNat s2 ea 8
        let s3 := if steal then deqPut s2 pa 16 8 (q.top + 1) else deqPut s2 pa 24 8 (q.bottom - 1)
        .done (acquireOp (pendQuad s3 x d [v % 2 ^ 32, v / 2 ^ 32, 1, natMin (q.bottom - q.top - 1) (2 ^ 32 - 1)]) c.core .pkg) 0

def execDeqPop (h : Hdr) (d a : Reg) (s : State) : Out := word (.deqPop h d a) s (deqTake false d a)

def execDeqSteal (h : Hdr) (d a : Reg) (s : State) : Out := word (.deqSteal h d a) s (deqTake true d a)

end Sys2Proof.Machine
end

