-- ==== Sys2Proof/Machine/System.lean ====
section
/-! DEFINITION. System registers (12 R448 to R450, R456, R460) and the system words (R451 to R454, R459). -/

namespace Sys2Proof.Machine

/-! ### Reading system registers -/

/-- `INT_PEND` of a host core (12 R460). -/
def intPend (s : State) (col : Nat) : Nat :=
  let h := hostAt s col
  (if h.ipi then 1 else 0) + (if h.timecmp.toNat ≤ s.tsc.toNat then 2 else 0) + (if h.gov then 4 else 0) + (if h.pager then 8 else 0)

/-- `STATUS` (12 R450). -/
def statusVal (c : Clutch) : Nat :=
  c.level.val + (if isHost c && c.ie then 8 else 0) + (if (trapSet c).inTrap then 16 else 0)

/-- `CORE_POS` (05 R157). -/
def corePos (c : Clutch) : Nat :=
  if isHost c then 0x8000 else c.core % 4 + c.quad * 4 + c.slot * 16 + (if c.pad.isSome then 1024 else 0)

/-- `ENG_TRAP` (12 R427). -/
def engTrapVal (s : State) (c : Clutch) : Nat :=
  match c.task with
  | some t => match taskAt s t with
    | some x => x.engTrap.toNat
    | none => 0
  | none => (hostAt s (colOf c.core)).engTrap.toNat

/-- `WEAR_BUDGET` of a zone (06 R245). -/
def wearBudget (s : State) (z : Nat) : Nat := (zoneAt s z).remain.toNat + (zoneAt s z).charged.toNat * 2 ^ 32

/-- Value of system register n for a lane (12 R449). -/
def sysVal (s : State) (c : Clutch) (lane n : Nat) : Nat :=
  let col := colOf c.core
  let h := hostAt s col
  if n = 0x000 then s.tsc.toNat
  else if n = 0x001 then c.flags.toNat
  else if n = 0x002 then c.fpmode.toNat
  else if n = 0x003 then c.engStat.toNat
  else if n = 0x004 then engTrapVal s c
  else if n = 0x005 then c.sbarGen.toNat
  else if n = 0x006 then (laneAt c lane).lfsr.toNat
  else if n = 0x007 then statusVal c
  else if 0x008 ≤ n ∧ n < 0x010 then (tget 0 (laneAt c lane).levelIdx (n - 8)).toNat
  else if n = 0x010 then col
  else if n = 0x011 then corePos c
  else if n = 0x012 then c.wearZone.toNat
  else if n = 0x013 then wearBudget s c.wearZone.toNat
  else if n = 0x014 then (zoneAt s c.wearZone.toNat).free.toNat
  else if n = 0x020 then (trapSet c).pc.toNat
  else if n = 0x021 then (trapSet c).cause.toNat
  else if n = 0x022 then (trapSet c).addr.toNat
  else if n = 0x023 then (trapSet c).mask.toNat
  else if n = 0x030 then h.uvec.toNat
  else if n = 0x031 then h.svec.toNat
  else if n = 0x032 then h.fvec.toNat
  else if n = 0x033 then h.hstkBase.toNat
  else if n = 0x034 then h.hstkLimit.toNat
  else if n = 0x035 then (laneAt c 0).wbv.toNat
  else if n = 0x036 then h.hctx.toNat
  else if n = 0x037 then h.intEn.toNat
  else if n = 0x038 then intPend s col
  else if n = 0x039 then h.timecmp.toNat
  else if n = 0x040 then govStatus s col false
  else if n = 0x041 then (colAt s col).throttle.toNat
  else if n = 0x042 then bits (colAt s col).eccLog.toNat 0 64
  else if n = 0x043 then bits (colAt s col).eccLog.toNat 64 64
  else if n = 0x044 then bits (colAt s col).vbusLog.toNat 0 64
  else if n = 0x045 then bits (colAt s col).vbusLog.toNat 64 64
  else if n = 0x046 then bits (capCause s (partOf s col)) 0 64
  else if n = 0x047 then bits (capCause s (partOf s col)) 64 64
  else if n = 0x048 then regVal s .firmware (.mgmtSem false)
  else if n = 0x049 then regVal s .firmware (.mgmtSem true)
  else 0

/-- Width of a listed register is 64 bits. -/
def sysWide (n : Nat) : Bool := match sysInfo n with | some i => i.width == 64 | none => false

def execSysr (h : Hdr) (d : Reg) (n : BitVec 12) (s : State) : Out :=
  word (.sysr h d n) s (aluWord d (sysWide n.toNat) (pureFn (fun s c i => sysVal s c i n.toNat)))

/-! ### Writing system registers -/

/-- What `FPMODE` holds after a write (08 R283). -/
def fpmodeOf (v : Nat) : Word :=
  BitVec.ofNat 32 ((if 5 ≤ bits v 0 3 then 0 else bits v 0 3) + bits v 3 2 * 8 + bits v 8 16 * 256 + bits v 31 1 * 2 ^ 31)

/-- Reseed every lane's LFSR from SEED (08 R292). -/
def reseed (c : Clutch) (v : Nat) : Clutch :=
  modLanes c (maskOf (fun i => decide (i < laneCount c))) (fun i l => { l with lfsr := BitVec.ofNat 32 (bits v 8 16 * 65536 + i + 1) })

/-- Write one resident row to the range it spills to; words beyond the range, or at an address that faults, have no place (log 20). None
while the write must wait. -/
def rowOut (s : State) (cid : Nat) (p : Nat × Word) : Option State :=
  let c := clutchAt s cid
  let h := hostAt s (colOf c.core)
  let va := h.hstkBase.toNat + 4 * p.1
  let s := xlTake s c.core (ctxOf s c) none va
  if h.hstkLimit.toNat < va + 4 then some s
  else match xlTable s c.core (ctxOf s c) false va .store with
    | .ok pa => (storeL1 s c.core [(pa, 4)] (leBytes 4 p.2.toNat)).map (fun s =>
      match tget false (laneAt c 0).bad p.1, l1At s c.core (pa / 128) with
      | true, some l => setL1 s c.core (pa / 128) (some { l with poison := true })
      | _, _ => s)
    | .error .wait => none
    | .error (.trap _) => some s

def rowsOutFrom (s : State) (cid : Nat) : List (Nat × Word) → Option State
  | [] => some (modClutch s cid (fun c => modLane c 0 (fun l => { l with stack := [], bad := [] })))
  | p :: t => match rowOut s cid p with
    | none => none
    | some s => rowsOutFrom s cid t

/-- A `sysw` of `HSTK_BASE` writes every resident row to the old range first (12 R449); other writes need nothing before them. -/
def beforeSysw (s : State) (cid n : Nat) : Option State :=
  if n = 0x033 then rowsOutFrom s cid (tsome (laneAt (clutchAt s cid) 0).stack) else some s

/-- Write a value to a trap set's `TRAP_PC`. -/
def setTrapPc (c : Clutch) (v : Nat) : Clutch :=
  { c with traps := tput TrapSet.zero c.traps (trapNo c) { trapSet c with pc := BitVec.ofNat 64 v } }

def setEngTrap (s : State) (c : Clutch) (v : Nat) : State :=
  match c.task with
  | some t => modTask s t (fun x => { x with engTrap := BitVec.ofNat 8 v })
  | none => modHost s (colOf c.core) (fun h => { h with engTrap := BitVec.ofNat 4 v })

/-- A `sysw` of a register that is not per lane. -/
def sysPut (s : State) (cid n v : Nat) : State :=
  let c := clutchAt s cid
  let col := colOf c.core
  let d : Dword := BitVec.ofNat 64 v
  let mh := modHost s col
  if n = 0x001 then setClutch s cid { c with flags := BitVec.ofNat 6 v }
  else if n = 0x002 then
    let c := { c with fpmode := fpmodeOf v }
    setClutch s cid (if v.testBit 5 then reseed c v else c)
  else if n = 0x004 then setEngTrap s c v
  else if n = 0x007 then setClutch s cid { c with ie := v.testBit 3 }
  else if n = 0x012 then setClutch s cid { c with wearZone := BitVec.ofNat 7 v }
  else if n = 0x020 then setClutch s cid (setTrapPc c v)
  else if n = 0x030 then mh (fun h => { h with uvec := d })
  else if n = 0x031 then mh (fun h => { h with svec := d })
  else if n = 0x032 then mh (fun h => { h with fvec := d })
  else if n = 0x033 then mh (fun h => { h with hstkBase := d })
  else if n = 0x034 then mh (fun h => { h with hstkLimit := d })
  else if n = 0x035 then setClutch s cid (modLane c 0 (fun l => { l with wbv := BitVec.ofNat 13 v }))
  else if n = 0x036 then mh (fun h => { h with hctx := BitVec.ofNat 8 v })
  else if n = 0x037 then mh (fun h => { h with intEn := BitVec.ofNat 4 v })
  else if n = 0x038 then mh (fun h => { h with
    ipi := h.ipi && !v.testBit 0, gov := h.gov && !v.testBit 2, pager := h.pager && !v.testBit 3 })
  else if n = 0x039 then mh (fun h => { h with timecmp := d })
  else if n = 0x040 then regSet s .supervisor (.govStatus col) d
  else if n = 0x042 then regSet s .firmware (.bankEcc col false) d
  else if n = 0x043 then regSet s .firmware (.bankEcc col true) d
  else if n = 0x044 then regSet s .firmware (.vbusErr col false) d
  else if n = 0x045 then regSet s .firmware (.vbusErr col true) d
  else if n = 0x048 then regSet s .firmware (.mgmtSem false) d
  else if n = 0x049 then regSet s .firmware (.mgmtSem true) d
  else s

/-- `sysw`. A write of `STATUS` on a SIMT core raises PRIVILEGE (12 R450); an `LFSR` of 0 is stored as 1. -/
def execSysw (h : Hdr) (n : BitVec 12) (a : Reg) (s : State) : Out :=
  word (.sysw h n a) s (fun x s =>
    let c := clutchAt s x.cid
    if n.toNat = 0x007 ∧ isHost c = false then .trap cPrivilege 0 x.at_
    else if n.toNat = 0x006 then
      .done (setClutch s x.cid (modLanes c x.ex (fun i l =>
        { l with lfsr := if rd32 s c i a = 0 then 1 else rd32 s c i a }))) 0
    else match beforeSysw s x.cid n.toNat with
      | none => .wait .tokens s
      | some t => .done (sysPut t x.cid n.toNat (rdN s c (lowLane x.ex) (sysWide n.toNat) a)) 0)

/-! ### Traps by word (12 R451, R459) -/

def execScall (h : Hdr) (i : BitVec 16) (s : State) : Out :=
  word (.scall h i) s (fun x _ => .trap cSyscall (i.setWidth 64) x.ex)

def execBrk (h : Hdr) (i : BitVec 16) (s : State) : Out :=
  word (.brk h i) s (fun x _ => .trap cBreak (i.setWidth 64) x.ex)

def execTret (h : Hdr) (s : State) : Out :=
  word (.tret h) s (fun x s =>
    let c := clutchAt s x.cid
    if !(trapSet c).inTrap then .trap cIllegal ((encode (.tret h)).getD 0) x.at_
    else match stopAll s x.cid with
      | none => .wait .tokens s
      | some s => .done (trapReturn s x.cid) (trapSet c).lanes)

/-! ### Waiting, stopping, interrupting (12 R454) -/

def execWfi (h : Hdr) (s : State) : Out :=
  word (.wfi h) s (fun x s =>
    let col := colOf (clutchAt s x.cid).core
    if BitVec.ofNat 4 (intPend s col) &&& (hostAt s col).intEn = 0 then .wait .wfi s else .done s 0)

def execHalt (h : Hdr) (s : State) : Out :=
  word (.halt h) s (fun x s =>
    match completeAll s x.cid with
    | none => .wait .tokens s
    | some s => .done (modHost s (colOf (clutchAt s x.cid).core) (fun k => { k with halted := true })) 0)

def execIpi (h : Hdr) (a : Reg) (s : State) : Out :=
  word (.ipi h a) s (fun x s =>
    .done (modHost s (bits (rd32 s (clutchAt s x.cid) (lowLane x.ex) a).toNat 0 6) (fun k => { k with ipi := true })) 0)

/-! ### Invalidations (12 R452, R453; 06 R208, R211) -/

/-- Drop the cached translations that are selected, and the launchers' tables that it touches (03 R122), and mark the extents it
touches STALE. -/
def invalidate (s : State) (hit : TlbEntry → Bool) (ext : Nat → Extent → Bool) : State :=
  let mark := fun (ctx : Nat) (t : Tab Extent) =>
    t.map (fun q => (q.1, if q.2.pages ≠ 0 ∧ ext ctx q.2 = true then { q.2 with stale := true } else q.2))
  let ctxOfGang := fun (g : Gang) => match launchAt s g.launch with | some l => l.tok.ctx | none => 0
  { s with
    tlb := s.tlb.filter (fun e => !hit e)
    extCache := s.extCache.filter (fun x => !x.exts.any (ext x.ctx))
    gangs := s.gangs.map (fun p => (p.1, p.2.map (fun g => { g with extents := mark (ctxOfGang g) g.extents })))
    tasks := s.tasks.map (fun p => (p.1, p.2.map (fun t => { t with extents := mark t.ctx t.extents }))) }

/-- `tlbinv`: a release at package scope, then the invalidation. -/
def tlbinvWord (hit : State → Clutch → Nat → TlbEntry → Bool) (ext : State → Clutch → Nat → Nat → Extent → Bool) (x : Ctx) (s : State) : Res :=
  let c := clutchAt s x.cid
  match releaseAll s x.cid .pkg with
  | none => .wait .tokens s
  | some s => .done (invalidate s (hit s c (lowLane x.ex)) (ext s c (lowLane x.ex))) 0

def execTlbinvVa (h : Hdr) (ctx : BitVec 8) (a : Reg) (s : State) : Out :=
  word (.tlbinvVa h ctx a) s (tlbinvWord
    (fun s c l e => let va := rdN s c l true a; decide (e.ctx = ctx.toNat) && decide (e.va ≤ va) && decide (va < e.va + e.size))
    (fun s c l t e => let va := rdN s c l true a; decide (t = ctx.toNat) && decide (extLo e ≤ va) && decide (va < extLo e + extLen e)))

def execTlbinvCtx (h : Hdr) (ctx : BitVec 8) (s : State) : Out :=
  word (.tlbinvCtx h ctx) s (tlbinvWord (fun _ _ _ e => decide (e.ctx = ctx.toNat)) (fun _ _ _ t _ => decide (t = ctx.toNat)))

def execTlbinvAll (h : Hdr) (s : State) : Out :=
  word (.tlbinvAll h) s (tlbinvWord (fun _ _ _ _ => true) (fun _ _ _ _ _ => true))

/-- Drop the kept words of one line, or of every line, in every instruction cache. -/
def dropKept (s : State) (line : Option Nat) : State :=
  match line with
  | none => { s with icache := [] }
  | some l => { s with icache := s.icache.filterMap (fun p =>
      let t := p.2.filter (fun q => decide (q.1 / 16 ≠ l))
      if t.isEmpty then none else some (p.1, t)) }

/-- The line that the base of `icinv.line` names, whatever its permissions; a base that does not translate names none. -/
def icinvBase (s : State) (c : Clutch) (lane : Nat) (a : Reg) : Option Nat := bareLine s c (baseVal s c lane a).toNat

def execIcinvLine (h : Hdr) (a : Reg) (s : State) : Out :=
  word (.icinvLine h a) s (fun x s =>
    let c := clutchAt s x.cid
    match bareStop s c [(baseVal s c (lowLane x.ex) a).toNat] with
    | some r => r
    | none =>
    let line := icinvBase s c (lowLane x.ex) a
    match releaseAll s x.cid .pkg with
    | none => .wait .tokens s
    | some s => .done (match line with | some l => dropKept s (some l) | none => s) 0)

def execIcinvAll (h : Hdr) (s : State) : Out :=
  word (.icinvAll h) s (fun x s =>
    match releaseAll s x.cid .pkg with
    | none => .wait .tokens s
    | some s => .done (dropKept s none) 0)

end Sys2Proof.Machine
end

