-- ==== Sys2Proof/Machine/Waits.lean ====
section
/-! DEFINITION. Issue choice (04 R137 to R139), results that are written (05 R173), waits that end (04 R138, 12 R463), register
windows that leave and return (05 R169), and the entries that no word makes: ENGINE_ASYNC (12 R427) and interrupts (R461). -/

namespace Sys2Proof.Machine

/-! ### Issue choice -/

/-- Is a clutch ready (04 R138)? -/
def ready (s : State) (c : Clutch) : Bool :=
  runs s c && c.wait.isNone && !(c.parked && !c.inflight.isEmpty) && c.inflight.all (fun p => p.acq.isNone) && (issueOf c).isSome

/-- Priority and dispatch order of a clutch's task. -/
def taskRank (s : State) (c : Clutch) : Nat × Nat :=
  match c.task.bind (taskAt s) with
  | some t => (t.prio, t.order)
  | none => (0, 0)

/-- The clutch with the largest wait, ties to the lowest slot. -/
def longestWait : List (Nat × Clutch) → Option (Nat × Clutch)
  | [] => none
  | p :: t => match longestWait t with
    | none => some p
    | some q => if q.2.waitCount < p.2.waitCount ∨ (q.2.waitCount = p.2.waitCount ∧ p.2.slot ≤ q.2.slot) then some p else some q

/-- The clutch of the highest priority and oldest task. -/
def firstTask (s : State) : List (Nat × Clutch) → Option (Nat × Clutch)
  | [] => none
  | p :: t => match firstTask s t with
    | none => some p
    | some q =>
      let a := taskRank s p.2
      let b := taskRank s q.2
      if b.1 < a.1 ∨ (b.1 = a.1 ∧ a.2 ≤ b.2) then some p else some q

/-- The lowest slot at or above n. -/
def slotFrom (n : Nat) : List (Nat × Clutch) → Option (Nat × Clutch)
  | [] => none
  | p :: t => match slotFrom n t with
    | none => if n ≤ p.2.slot then some p else none
    | some q => if n ≤ p.2.slot ∧ p.2.slot ≤ q.2.slot then some p else some q

/-- Key of a quadrant and a task in a core's round-robin table. -/
def rrKey (c : Clutch) : Nat := 4 * taskNo c + c.quad

/-- The choice of a quadrant that has n ready clutches, among those that may be picked (04 R139). -/
def pickIssue (s : State) (core n : Nat) (rs : List (Nat × Clutch)) : Option (Nat × Clutch) :=
  let overdue := rs.filter (fun p => decide (3 * n ≤ p.2.waitCount))
  if !overdue.isEmpty then longestWait overdue
  else match firstTask s rs with
    | none => none
    | some p =>
      let mine := rs.filter (fun q => decide (q.2.task = p.2.task))
      match slotFrom (tget 0 (coreAt s core).lastSlot (rrKey p.2)) mine with
      | some q => some q
      | none => slotFrom 0 mine

/-- Waits after an issue cycle: 0 for the clutch that issues and for one that is not ready, one more for the others; a `yield` is
spent when another clutch could issue (10 R356). `rs` are the ready clutches. -/
def countWait (s : State) (pick : Nat) (rs : List (Nat × Clutch)) (s' : State) (p : Nat × Clutch) : State :=
  modClutch s' p.1 (fun c => { c with
    waitCount := if p.1 ≠ pick ∧ ready s p.2 = true then c.waitCount + 1 else 0
    yielded := c.yielded && !rs.any (fun q => decide (q.1 ≠ p.1)) })

def execIssueCycle (u : IssueUnit) (s : State) : Out :=
  match u with
  | .host col => .next (if ready s (clutchAt s col.val) then { s with cur := col.val, issuing := true } else s)
  | .quad core q =>
    let here := (clutchesOn s core.val).filter (fun p => decide (p.2.quad = q.val))
    let rs := here.filter (fun p => ready s p.2)
    let fresh := rs.filter (fun p => !p.2.yielded)
    match pickIssue s core.val rs.length (if fresh.isEmpty then rs else fresh) with
    | none => .next s
    | some p =>
      let k := coreAt s core.val
      let s1 := here.foldl (countWait s p.1 rs) s
      let s2 := setCore s1 core.val { k with lastSlot := tput 0 k.lastSlot (rrKey p.2) (p.2.slot + 1) }
      .next { s2 with cur := p.1, issuing := true }

/-! ### Results (05 R173) -/

/-- The places that a pending result reads. -/
def pendPlaces (p : Pend) : List Place :=
  p.accs.filterMap (fun a => match a.src with
    | .mem ch _ => some (.phys ch)
    | .scr core off _ => some (.scratch core off)
    | _ => none)

/-- The results that a clutch issued before one. -/
def earlier (id : Nat) : List Pend → List Pend
  | [] => []
  | p :: t => if p.id = id then [] else p :: earlier id t

/-- Bytes that both sources read. -/
def srcBoth : PSrc → PSrc → Bool
  | .mem ch _, .mem ch2 _ => ch.any (fun a => ch2.any (fun b => meets a.1 a.2 b.1 b.2))
  | .scr core off t, .scr core2 off2 t2 => core = core2 && meets off ((memSize t).getD 4) off2 ((memSize t2).getD 4)
  | _, _ => false

/-- A part whose bytes lie in one naturally aligned 8-byte word, and that word. -/
def wordOf (a : PAcc) : Option Nat :=
  match a.src with
  | .mem [(pa, n)] _ => if pa / 8 = (pa + n - 1) / 8 then some (pa / 8) else none
  | _ => none

/-- Two parts of one lane's access are read together: of one aligned 8-byte word, or of an access that no such words make up (07 R248). -/
def together (all : List PAcc) (a b : PAcc) : Bool :=
  a.lane = b.lane && (decide (wordOf a = wordOf b) || all.any (fun x => x.lane = a.lane && (wordOf x).isNone))

/-- Parts to read with those chosen: the rest of their words, and lower lanes' reads of the same bytes (07 R248, R249). -/
def closeParts (all chosen : List PAcc) : List PAcc :=
  all.foldr (fun a acc =>
    if all.any (fun b => together all a b && (chosen.contains b || acc.any (fun x => decide (b.lane < x.lane) && srcBoth b.src x.src)))
    then a :: acc else acc) []

/-- Some of the parts, freely chosen, and the first (log 11): the words of a wide access come in no order (07 R248). -/
def someParts (s : State) : List PAcc → List PAcc × State
  | [] => ([], s)
  | a :: t => (a :: ((t.zip (List.range t.length)).filter (fun p => Config.freeBool (s.fresh + p.2))).map (·.1),
      { s with fresh := s.fresh + t.length })

/-- The parts that a LONG_RESULT_WRITE of lanes takes: of a lane that reads several words some are chosen, of any other all. -/
def chosenParts (s : State) (all listed : List PAcc) : List PAcc × State :=
  let wide := fun (a : PAcc) => all.any (fun b => b.lane = a.lane && !together all a b)
  let r := someParts s (listed.filter wide)
  (closeParts all (listed.filter (fun a => !wide a) ++ r.1), r.2)

/-- LONG_RESULT_WRITE: parts of some lanes of a pending result are written. Earlier loads of the same bytes have their values first
(07 R249); a read of a bank waits for a lane repair (01 R29). -/
def execLongResultWrite (cid n : Nat) (lanes : Mask) (s : State) : Out :=
  let c := clutchAt s cid
  match c.inflight.find? (fun p => decide (p.id = n)) with
  | none => .next s
  | some p =>
    if !live s then .next s
    else match bindBefore s cid (pendPlaces p) (earlier n c.inflight) with
    | none => .next s
    | some s1 => match syncUntil cid n s1.sync.length s1 with
      | none => .next s
      | some s2 => match (clutchAt s2 cid).inflight.find? (fun p => decide (p.id = n)) with
        | none => .next s2
        | some q =>
          let (parts, s2) := chosenParts s2 q.accs (q.accs.filter (fun a => lanes.getLsbD a.lane))
          match completeAccs s2 cid n q.acq parts with
          | none => .next (holdReads s (parts.flatMap (fun a => match a.src with | .mem ch _ => ch.map (fun p => p.1 / 128) | _ => [])))
          | some s3 => .next (reapPend s3 cid)

/-! ### Waits that end -/

/-- KWAIT_RELEASE (05 R164). -/
def execKwaitRelease (cid : Nat) (k : Fin 12) (s : State) : Out := .next (modClutch s cid (fun c => kwaitTry c k))

/-- Act for a clutch without changing whose turn it is. -/
def runAs (s : State) (cid : Nat) (f : State → Out) : Out :=
  match f { s with cur := cid } with
  | .next t => .next { t with cur := s.cur }
  | r => r

/-- The word in which a clutch waits, of a kind. -/
def waitWord (s : State) (cid : Nat) (k : WaitKind) : Option Instr :=
  match (clutchAt s cid).wait with
  | some w => if w.kind = k then some w.instr else none
  | none => none

/-- A queue has elements or room: the waiting word runs again (05 R179). -/
def execQueueWaitResume (cid : Nat) (s : State) : Out :=
  match waitWord s cid .queue with
  | some (.qpush h t d q) => runAs s cid (execQpush h t d q)
  | some (.qpop h t d q) => runAs s cid (execQpop h t d q)
  | _ => .next s

def execRingAcqResume (cid : Nat) (s : State) : Out :=
  match waitWord s cid .ring with
  | some (.ringAcq h n r d) => runAs s cid (execRingAcq h n r d)
  | _ => .next s

def execVfifoWaitResume (cid : Nat) (s : State) : Out :=
  match waitWord s cid .vfifo with
  | some (.vfsend h a) => runAs s cid (execVfsend h a)
  | some (.vfrecv h d) => runAs s cid (execVfrecv h d)
  | _ => .next s

def execTlwaitReturn (cid : Nat) (s : State) : Out :=
  match waitWord s cid .tlwait with
  | some (.tlwait h e a) => runAs s cid (execTlwait h e a)
  | _ => .next s

def execJoinReturn (cid : Nat) (s : State) : Out :=
  match waitWord s cid .join with
  | some (.join h d a) => runAs s cid (execJoin h d a)
  | _ => .next s

def execWaitaddrReread (cid : Nat) (s : State) : Out :=
  match waitWord s cid .waitaddr with
  | some (.waitaddr h sc cc t a b) => runAs s cid (execWaitaddr h sc cc t a b)
  | _ => .next s

def execSbarWaitResume (cid : Nat) (s : State) : Out :=
  match waitWord s cid .sbar with
  | some (.sbarWait h a) => runAs s cid (execSbarWait h a)
  | _ => .next s

def execBarWaitResume (cid : Nat) (s : State) : Out :=
  match waitWord s cid .bar with
  | some (.barWait h n) => runAs s cid (execBarWait h n)
  | _ => .next s

def execLaunchQueueResume (cid : Nat) (s : State) : Out :=
  match waitWord s cid .launchLine with
  | some (.launch h sc a b) => runAs s cid (execLaunch h sc a b)
  | _ => .next s

def execLeapLand (cid : Nat) (s : State) : Out :=
  match waitWord s cid .leap with
  | some (.leap h a) => runAs s cid (execLeap h a)
  | _ => .next s

/-! ### Windows that leave and return (05 R169) -/

/-- Stack words of a lane's window. -/
def windowWords (l : Lane) : List Nat := (List.range 112).map (fun i => 8 * l.wbv.toNat + i)

/-- A row recalled from a line that comes back poisoned (01 R31, R32): word w of every lane. Of a window that was not parked, which rows
had been moved out is open (log 11): a free choice for each. -/
def recallRow (parked : Bool) (cid : Nat) (s : State) (w : Nat) : State :=
  let (b, s) := freeF s
  if parked || b then
    modClutch s cid (fun c => modLanes c (maskOf (fun i => decide (i < laneCount c))) (fun _ l => { l with bad := tput false l.bad w true }))
  else s

/-- Stack words of every lane's window, and the link words below it. -/
def clutchWords (c : Clutch) : List Nat :=
  ((List.range (laneCount c)).flatMap (fun i =>
    let l := laneAt c i
    (if l.wbv = 0 then [] else [8 * l.wbv.toNat - 2, 8 * l.wbv.toNat - 1]) ++ windowWords l)).eraseDups

/-- Lines among n from `lo` on that hold an array error. -/
def bankErrLines (s : State) (lo n : Nat) : List Nat :=
  ((s.bankErr.map (fun p => p.1 / 16)).eraseDups).filter (fun l => decide (lo ≤ l) && decide (l < lo + n))

/-- A recall reads one such line, or does not: which rows it holds is open (log 11). A row of it comes back poisoned on an uncorrectable
error. -/
def recallLine (cid col : Nat) (s : State) (line : Nat) : State :=
  let (b, s) := freeF s
  if !b then s
  else
    let r := bankReadLine s col line false
    if r.2 then (clutchWords (clutchAt s cid)).foldl (recallRow false cid) r.1 else r.1

/-- REGISTER_RECALL: the clutch's rows are resident again, once no lane repair holds the bank (01 R29). A host core recalls its rows from
memory when they are named (05 R198). -/
def execRegisterRecall (cid : Nat) (s : State) : Out :=
  let c := clutchAt s cid
  if isHost c || !live s || bankBusy s (colOf c.core) then .next s
  else
    let s1 := if busFailed s (colOf c.core) then (clutchWords c).foldl (recallRow c.windowOut cid) s
      else (bankErrLines s (stackLine (colOf c.core)) (stackArea / 128)).foldl (recallLine cid (colOf c.core)) s
    .next (modClutch s1 cid (fun c => { c with windowOut := false }))

/-- The waits in which a window may be parked. -/
def parkable (c : Clutch) : Bool :=
  waitsIn c .waitaddr || waitsIn c .join || waitsIn c .tlwait || waitsIn c .bar || waitsIn c .sbar

/-- Free space of the column's stack area for one more parked window (05 R169). -/
def parkRoom (s : State) (col : Nat) : Bool :=
  let n := ((tsome s.clutches).filter (fun p => p.2.windowOut && decide (colOf p.2.core = col))).length
  decide ((colAt s col).stackUsed + 16384 * (n + 1) ≤ stackArea)

/-- WINDOW_PARKING: the window goes to the spill area, where it has room; rows written while the bus has FAILED are lost (01 R31). -/
def execWindowParking (cid : Nat) (s : State) : Out :=
  let c := clutchAt s cid
  if isHost c || !parkable c || c.windowOut || !clutchIn s c || !live s || !parkRoom s (colOf c.core) then .next s
  else
    let lost := (List.range 32).flatMap (fun i => (windowWords (laneAt c i)).map (fun w => Dst.st i w))
    let s1 := if busFailed s (colOf c.core) then havoc s cid lost else s
    .next (modClutch s1 cid (fun c => { c with windowOut := true }))

/-! ### Entries that no word makes -/

/-- The engine context whose error is delivered next to a clutch (12 R427). -/
def asyncDue (s : State) (cid : Nat) : Option (Nat × EngCtx) :=
  let r := engRef (clutchAt s cid)
  ((List.range 8).map (fun e => (e, engAt s r e))).find? (fun p => p.2.deliv && decide (p.2.failer = some cid))

/-- The stop at which an error may be delivered: the lanes of its word; none while a region is open or a handler runs (12 R427,
R463). -/
def asyncStop (c : Clutch) : Option Mask :=
  if c.region.isSome || c.wait.isSome || (trapSet c).inTrap then none else c.atStop.map (·.2)

/-- ENGINE_ASYNC_DELIVERY. -/
def execEngineAsyncDelivery (cid : Nat) (s : State) : Out :=
  let c := clutchAt s cid
  match asyncStop c, asyncDue s cid, issueOf c with
  | some m, some (e, x), some p =>
    if !runs s c then .next s
    else match stopAll s cid with
      | none => .next s
      | some s =>
        let s := setEng s (engRef c) e { engAt s (engRef c) e with deliv := false }
        .next (takeTrap s cid cAsync x.cmd m p.at_ p.ia (.nop { stop := false, pred := .always }))
  | _, _, _ => .next s

/-- The interrupt that a host core takes at its next word boundary (12 R461). -/
def intDue (s : State) (col : Nat) : Option Nat :=
  let c := clutchAt s col
  let free : Bool := match c.wait with
    | none => true
    | some w => w.kind == .tlwait || w.kind == .join || w.kind == .waitaddr || w.kind == .sbar || w.kind == .launchLine
  if !free || !runs s c || !c.ie || decide (c.level = 2) then none
  else (List.range 4).find? (fun i => (intPend s col).testBit i && (hostAt s col).intEn.getLsbD i)

/-- INTERRUPT_ENTRY: an open region aborts with PREEMPT; then the entry of 12 R458. -/
def execInterruptEntry (col : Fin 64) (s : State) : Out :=
  match intDue s col.val with
  | none => .next s
  | some n => match stopAll s col.val with
    | none => .next s
    | some s =>
      let s := regionAbort s col.val stPreempt
      .next (trapHost s col.val 0 (some n) 0 1 (laneAt (clutchAt s col.val) 0).pc)

/-- TIMER_EXPIRY: INT_PEND.TIMER is the comparison of `TSC` with `TIMECMP` (12 R460); an entry that is due comes next. -/
def execTimerExpiry (col : Fin 64) (s : State) : Out :=
  .next (if (hostAt s col.val).timecmp.toNat ≤ s.tsc.toNat then startNext s [.interruptEntry col] else s)

end Sys2Proof.Machine
end

