-- ==== Sys2Proof/Machine/Caches.lean ====
section
/-! DEFINITION. The steps of caches, column write queues, catalogues and sync engines (06 R221 to R231, 01 R39 to R41, 07 R252), page
walks (06 R209, R210), and promotions (R219, R220). -/

namespace Sys2Proof.Machine

/-! ### Fills, evictions, drains -/

/-- Lines that an L1 may hold: memory that is cached (06 R223). -/
def cached (s : State) (line : Nat) : Bool :=
  match paKind s (128 * line) with
  | .regs => false | .hole => false | _ => true

/-- A slice may give a line up at any time (06 R227; log 89). -/
def sliceMay (s : State) (c : Nat) : State :=
  let out := (colAt s c).slice.filter (mayLeave s c)
  let t := { s with fresh := s.fresh + 2 }
  match Config.freeBool s.fresh, listGet out (Config.freeNat (s.fresh + 1) % out.length) with
  | true, some q => sliceOut t c q.1
  | _, _ => t

/-- CACHE_FILL. A weight line that neither the slice nor the reading room holds waits for READING_ROOM_FILL; a bank read waits for a lane
repair (01 R29). -/
def execCacheFill (l1 line : Nat) (s : State) : Out :=
  if !live s || decide (320 ≤ l1) || !cached s line then .next s
  else
    let u := sliceMay s (colOf l1)
    if isWeight u line && (weightSlice u l1 line).isNone && !inRoom u line then .next u
    else match cacheFillOp u l1 line with
      | none => .next (holdRead s line)
      | some t => .next t

/-- L1_EVICT_TIMEOUT: an L1 may evict a line at any time; it does so no later than 100 µs after it became dirty. -/
def execL1EvictTimeout (l1 line : Nat) (s : State) : Out :=
  if live s && (l1At s l1 line).isSome then orStay s (evictLine s l1 line) else .next s

/-- CWQ_DRAIN: entry n of a queue, after the earlier entries of its line. -/
def execCwqDrain (col : Fin 64) (n : Nat) (s : State) : Out :=
  match listGet (colAt s col.val).cwq n with
  | none => .next s
  | some e => if live s then orStay s (drainLine s col.val e.line) else .next s

/-- The oldest operation queued at a sync engine or unit is performed. -/
def syncOldest (s : State) (d : Nat) : Option State := (s.sync.find? (fun o => decide (o.die = d))).bind (syncPerform s)

/-- SYNC_ENGINE_ATOMIC: the oldest operation queued at a die's sync engine, else at one of its bank read-modify-write units. -/
def execSyncEngineAtomic (die : Fin 4) (s : State) : Out :=
  if live s then orStay s ((die.val :: (dieCols die.val).map (4 + ·)).findSome? (syncOldest s)) else .next s

/-! ### Tokens between dies (06 R228 to R230) -/

/-- TRANSIENT_REQUEST. A catalogue has at most 256 requests outstanding (06 R230). -/
def execTransientRequest (die : Fin 4) (line : Nat) (write : Bool) (s : State) : Out :=
  .next (if live s && cached s line then transientRequest s die.val line write else s)

/-- Requests that have what they asked for are over. -/
def dropMet (s : State) (line die : Nat) : State :=
  let t := tokAt s line
  setTok s line { t with reqs := t.reqs.filter (fun r => !(decide (r.die = die) && satisfied s line die r.write)) }

/-- A message arrives: its tokens, flag and data. -/
def arrive (s : State) (m : TokMsg) : State :=
  let s := { s with msgs := s.msgs.erase m }
  let s := if m.wb then s else recallHost s m.line
  let t := tokAt s m.line
  let s := setTok s m.line { t with
    held := tput 0 t.held m.dst (tget 0 t.held m.dst + m.n)
    owner := if m.owner then some m.dst else t.owner }
  forwardActive (dropMet s m.line m.dst) m.line m.dst

/-- TOKEN_RESPONSE: the next message on TOK from one die to another (01 R39). -/
def execTokenResponse (src dst : Fin 4) (s : State) : Out :=
  match s.msgs.find? (fun m => decide (m.src = src.val) && decide (m.dst = dst.val) && !m.wb) with
  | none => .next s
  | some m => .next (if live s then arrive s m else s)

/-- TOKEN_WRITEBACK: the next message on WB arrives; with none under way, `src` sends home the tokens of the first line of home
`dst` that it holds and that no request waits for. -/
def execTokenWriteback (src dst : Fin 4) (s : State) : Out :=
  if !live s then .next s
  else match s.msgs.find? (fun m => decide (m.src = src.val) && decide (m.dst = dst.val) && m.wb) with
  | some m => .next (arrive s m)
  | none =>
    match (tsome s.toks).find? (fun p => decide (homeTower s (128 * p.1) = dst.val) && decide (src ≠ dst) &&
        decide (0 < spare s p.1 src.val) && decide (spare s p.1 src.val = tget 0 p.2.held src.val) && p.2.reqs.isEmpty && p.2.active.isNone) with
    | none => .next s
    | some (l, t) => .next (sendTok s true l src.val dst.val (tget 0 t.held src.val) (decide (t.owner = some src.val)))

/-- A request (die, write) of TSC order joins the arbiter's queue (01 R41). -/
def insReq (a : Nat × Nat) : List (Nat × Nat) → List (Nat × Nat)
  | [] => [a]
  | b :: t => if a.1 < b.1 ∨ (a.1 = b.1 ∧ a.2 % 4 < b.2 % 4) then a :: b :: t else b :: insReq a t

/-- TRANSIENT_TIMEOUT: 1 µs after it was sent a request that lacks tokens fails; it is sent once more, then becomes persistent. -/
def execTransientTimeout (die : Fin 4) (line : Nat) (s : State) : Out :=
  let t := tokAt s line
  match t.reqs.find? (fun r => decide (r.die = die.val)) with
  | none => .next s
  | some r =>
    if !live s || decide (s.tsc.toNat < r.sent + 1000) then .next s
    else if satisfied s line die.val r.write then .next (dropMet s line die.val)
    else if r.fails = 0 then
      let s := setTok s line { t with reqs := t.reqs.map (fun q => if q = r then { q with sent := s.tsc.toNat, fails := 1 } else q) }
      .next (answerAll s line die.val r.write)
    else .next (setTok s line { t with
      reqs := t.reqs.erase r
      queue := insReq (s.tsc.toNat, die.val + (if r.write then 4 else 0)) t.queue })

/-- PERSISTENT_ACTIVATE: every other holder sends its tokens. -/
def execPersistentActivate (line : Nat) (s : State) : Out :=
  let t := tokAt s line
  match t.active, t.queue with
  | none, (_, q) :: rest =>
    if !live s then .next s
    else
      let s := setTok s line { t with active := some q, queue := rest }
      .next ([0, 1, 2, 3].foldl (fun s d => forwardActive s line d) s)
  | _, _ => .next s

/-- PERSISTENT_DEACTIVATE: the requester has its tokens and its operation is complete. -/
def execPersistentDeactivate (line : Nat) (s : State) : Out :=
  let t := tokAt s line
  match t.active with
  | none => .next s
  | some q => if live s && satisfied s line (q % 4) (decide (4 ≤ q)) then .next (setTok s line { t with active := none }) else .next s

/-! ### The host's snoops (06 R223) -/

/-- Bytes of a line become free values. -/
def freeLine (s : State) (line : Nat) : State :=
  let (bs, s) := freeBytes s 128
  { s with mem := (bs.zip (List.range 128)).foldl (fun m p => tput 0 m (128 * line + p.2) p.1) s.mem }

/-- CXL_CACHE_SNOOP of a line of host memory (03 R97): the host gets the line's value; after an invalidation the host may have written
anything to it. Held during an emergency (02 R77). -/
def execCxlCacheSnoop (line : Nat) (invalidate : Bool) (s : State) : Out :=
  if s.emerg.isSome then .next s
  else match paKind s (128 * line), sysPart (128 * line) with
  | .sys, .host _ =>
    let r : Reply := .ok ((List.range 128).map (fun i => perfByte s (128 * line + i)))
    .next { (if invalidate then freeLine s line else s) with reply := r }
  | _, _ => .next s

/-! ### Walks (06 R209, R210) -/

/-- PAGE_WALK: its entries are read at the die (01 R32, 06 R208); a valid translation is kept; an invalid entry never is. -/
def execPageWalk (l1 ctx : Nat) (va : Dword) (s : State) : Out :=
  if !live s || decide (320 ≤ l1) || promoHolds s ctx va.toNat then .next s else .next (pageWalk s l1 ctx va.toNat)

/-! ### Promotion (06 R219, R220) -/

/-- Physical address of the level-1 entry of an address; none when an entry above it is no valid table entry. -/
def levelOne (s : State) (va table : Nat) : List (Nat × Nat) → Option Nat
  | [] => some (table + 8 * bits va 21 9)
  | (lo, w) :: rest =>
    let e := perfNat s (table + 8 * bits va lo w) 8
    if bits e 0 1 = 0 ∨ bits e 1 1 = 1 ∨ badTable s e (bits e 12 44 * 256) 4096 = true then none
    else levelOne s va (bits e 12 44 * 256) rest

def pteAddr (s : State) (ctx va : Nat) : Option Nat :=
  if (ctxAt s ctx).bad then none else levelOne s va (ctxAt s ctx).root.toNat [(48, 8), (39, 9), (30, 9)]

/-- The 32 source frames and leaf bits of a 2 MiB range, in order; none where one is not a 64 KiB page. -/
def promoPages (s : State) (ctx base : Nat) : Option (List (Nat × Nat)) :=
  (List.range 32).foldr (fun i (acc : Option (List (Nat × Nat))) =>
    match acc, walk s ctx (base + 65536 * i) with
    | some l, .ok f 65536 p => some ((f, p) :: l)
    | _, _ => none) (some [])

/-- The reasons to refuse a promotion (06 R220). -/
def promoRefused (s : State) (die ctx vn dest : Nat) : Bool :=
  let base := vn * 0x200000
  match pteAddr s ctx base, promoPages s ctx base with
  | some pte, some ((f0, p0) :: rest) =>
    let e := perfNat s pte 8
    let place := bits p0 4 2
    let stack := fun (pa : Nat) => (hbmDecode s pa).1
    bits e 0 1 = 0 || bits e 1 1 = 1 ||
    rest.any (fun q => decide (q.2 ≠ p0)) || dest % 0x200000 ≠ 0 || !inPool s place dest 0x200000 ||
    (place = 2 && (stack dest != stack (dest + 0x1FFFFF) || ((f0, p0) :: rest).any (fun q => stack q.1 != stack dest || !inPool s 2 q.1 65536))) ||
    (List.range 4).any (fun d => decide (d ≠ die) && promoRuns s d && decide ((promoAt s d).runCtx = ctx) && decide ((promoAt s d).runVa = vn))
  | _, _ => true

/-- The entries of the walks of a promotion's 32 pages are read at the engine's die (06 R228). -/
def promoTake (s : State) (die : Nat) (v : Dword) : Option State :=
  walksAt s die (bits v.toNat 0 8) ((List.range 32).map (fun i => bits v.toNat 29 35 * 0x200000 + 65536 * i))

/-- PROMO_CMD as a GO leaves it: its fields written, and what it asks for latched, unless it stands there already. -/
def promoLatch (p : Promo) (v : Dword) : Promo :=
  if p.asked.isSome then p
  else
    let ctx := bits v.toNat 0 8
    let vn := bits v.toNat 29 35
    { p with ctx := BitVec.ofNat 8 ctx, va := BitVec.ofNat 35 vn, runCtx := ctx, runVa := vn, runDst := p.dest.toNat, killed := false }

/-- PROMO_GO: the fields are written; the engine refuses, or starts with step 1. While an entry that its checks must read is held back it is
busy with them, and a kill of the context ends it (06 R220). -/
def execPromoGo (die : Fin 4) (v : Dword) (s : State) : Out :=
  let p := promoAt s die.val
  if (p.busy && decide (p.asked ≠ some v)) || !v.getLsbD 8 || s.emerg.isSome then .next s
  else
    let p := promoLatch p v
    let ctx := p.runCtx
    let vn := p.runVa
    if p.killed then .next (setPromo s die.val { p with busy := false, asked := none, killed := false, result := 2 })
    else match promoTake s die.val v with
    | none => .next (setPromo s die.val { p with busy := true, asked := some v })
    | some s =>
    let p := { p with busy := false, asked := none }
    if promoRefused s die.val ctx vn p.runDst then .next (setPromo s die.val { p with result := 1 })
    else
      let lo := vn * 0x200000
      let s := invalidate s (fun e => decide (e.ctx = ctx) && decide (e.va < lo + 0x200000) && decide (lo < e.va + e.size))
        (fun t e => decide (t = ctx) && decide (extLo e < lo + 0x200000) && decide (lo < extLo e + extLen e))
      .next (setPromo s die.val { p with
        busy := true, runPte := (pteAddr s ctx lo).getD 0 })

/-- A promotion whose checks can go on now. -/
def promoDue (s : State) : Option Instr :=
  (List.finRange 4).findSome? (fun d => (promoAt s d.val).asked.bind (fun v =>
    if (promoAt s d.val).killed || (promoTake s d.val v).isSome then some (.promoGo d v) else none))

/-- Lines of the frames. -/
def frameLines (fs : List Nat) : List Nat := fs.flatMap (fun f => (List.range 512).map (fun i => f / 128 + i))

/-- Every L1 and column write queue writes back its bytes of some lines. -/
def flushLines (s : State) (ls : List Nat) : Option State :=
  let l1s := (List.range 320).foldl (fun (a : Option State) i =>
    a.bind (fun s => wbLines s i ((l1Lines s i).filter (fun l => ls.contains l)))) (some s)
  (List.range 64).foldl (fun (a : Option State) c =>
    a.bind (fun s => drainLines s c (((colAt s c).cwq.map (·.line)).filter (fun l => ls.contains l)))) l1s

/-- Copy a line, poison with it. -/
def copyLine (s : State) (src dst : Nat) : State :=
  performLine { s with poison := tput false s.poison dst false } dst (perfLine s src) (BitVec.allOnes 128) false |>
    fun t => { t with poison := tput false t.poison dst (linePoison s src) }

/-- Read a line at a die, and copy it while every token of its destination is there (07 R250, R262). -/
def copyTo (s : State) (die src dst : Nat) : Option State :=
  match readAt s die src with
  | none => none
  | some s => (gatherAll s die dst none).map (fun s => copyLine s src dst)

/-- Copy lines in order. -/
def copyLines (die : Nat) (s : State) : List (Nat × Nat) → Option State
  | [] => some s
  | (a, b) :: t => match copyTo s die a b with
    | none => none
    | some s => copyLines die s t

/-- PROMOTION_COMPLETE: steps 2 to 5; after a kill the destination holds free bytes and RESULT is 2. -/
def execPromotionComplete (die : Fin 4) (s : State) : Out :=
  let p := promoAt s die.val
  if !promoRuns s die.val || !live s then .next s
  else if p.killed then
    let s := (frameLines ((List.range 32).map (fun i => p.runDst + 65536 * i))).foldl freeLine s
    .next (setPromo s die.val { p with busy := false, killed := false, result := 2 })
  else match promoPages s p.runCtx (p.runVa * 0x200000) with
    | none => .next (setPromo s die.val { p with busy := false, result := 1 })
    | some ps =>
      let src := frameLines (ps.map (·.1))
      let dst := frameLines ((List.range 32).map (fun i => p.runDst + 65536 * i))
      match (flushLines s src).bind (fun s => copyLines die.val s (src.zip dst)) with
      | none => .next s
      | some s =>
        let pte := p.runDst / 256 * 4096 + ((ps.headD (0, 0)).2) * 4 + 3
        match performAt s die.val p.runPte (leBytes 8 pte) with
        | none => .next s
        | some s => .next (setPromo s die.val { p with busy := false, result := 0 })

end Sys2Proof.Machine
end

