-- ==== Sys2Proof/Machine/Record.lean ====
section
/-! DEFINITION. Launch records: their fields (03 R111, R112, R114, R115), gangs (R113), what a task asks for (04 R133), and the
checks of R116 in their order. A record is a number of 2,048 bits. -/

namespace Sys2Proof.Machine

/-! ### Fields -/

/-- n bytes at byte offset o. -/
def rf (r o n : Nat) : Nat := bits r (8 * o) (8 * n)

def recEntry (r : Nat) : Nat := rf r 0x00 8
def recArgs (r : Nat) : Nat := rf r 0x08 8
def recJoin (r : Nat) : Nat := rf r 0x10 8
def recHandler (r : Nat) : Nat := rf r 0x18 8
def recDeps (r : Nat) : Nat := rf r 0x20 8
def recFlags (r : Nat) : Nat := rf r 0x28 4
def recStack (r : Nat) : Nat := bits r (8 * 0x2C) 13
def recRes (r : Nat) : Nat := rf r 0x30 8
def recTlpub (r : Nat) : Nat := rf r 0x38 8
def recLevel (r i : Nat) : Nat := rf r (0x40 + 8 * i) 8
def recExtent (r i : Nat) : Nat := rf r (0x80 + 8 * i) 8

def recIdem (r : Nat) : Bool := decide (bits (recFlags r) 0 1 = 1)
def recPreemptible (r : Nat) : Bool := decide (bits (recFlags r) 1 1 = 1)
def recMigratable (r : Nat) : Bool := decide (bits (recFlags r) 2 1 = 1)
def recLinked (r : Nat) : Bool := decide (bits (recFlags r) 3 1 = 1)
def recPrio (r : Nat) : Nat := bits (recFlags r) 4 3
def recNLevels (r : Nat) : Nat := bits (recFlags r) 8 4
def recNDep (r : Nat) : Nat := bits (recFlags r) 12 4

/-- SCRATCH, QUEUE, RING, JOBBUF in KiB. -/
def recKib (r i : Nat) : Nat := bits (recRes r) (12 * i) 12
def recRegions (r : Nat) : Nat := bits (recRes r) 48 3
def recEngines (r : Nat) : Nat := bits (recRes r) 51 4

/-! ### Levels (03 R112) -/

def lvCount (d : Nat) : Nat := bits d 0 32
def lvDom (d : Nat) : Nat := bits d 32 3
def lvScope (d : Nat) : Nat := bits d 36 3

/-- The level descriptors in use, level 0 first. -/
def recLevels (r : Nat) : List Nat := (List.range (natMin (recNLevels r) 8)).map (recLevel r)

def countOf (ds : List Nat) : Nat := ds.foldl (fun n d => n * lvCount d) 1

def lanesIn (r : Nat) : Nat :=
  let ls := (recLevels r).filter (fun d => decide (lvDom d = 0))
  if ls.isEmpty then 32 else countOf ls
def clutchesIn (r : Nat) : Nat := countOf ((recLevels r).filter (fun d => decide (lvDom d = 1)))
def tasksIn (r : Nat) : Nat := countOf ((recLevels r).filter (fun d => decide (2 ≤ lvDom d)))

/-- SCOPE of level 0: the launch's scope. -/
def recScope (r : Nat) : Scope := (scopeOfCode (BitVec.ofNat 3 (lvScope (recLevel r 0)))).getD .pkg

/-- The indices of a number at the levels of some domains, as (level, index), by mixed radix with level 0 most significant. -/
def indicesAt (p : Nat → Bool) : List (Nat × Nat) → Nat → List (Nat × Nat)
  | [], _ => []
  | (i, d) :: t, n =>
    if p (lvDom d) then
      let below := countOf ((t.map (·.2)).filter (fun e => p (lvDom e)))
      (i, n / below % lvCount d) :: indicesAt p t n
    else indicesAt p t n

/-- `LEVEL_IDX0` to `LEVEL_IDX7` of a lane of clutch c of task n. -/
def levelIdx (r n c lane : Nat) : Tab Word :=
  let ls := (List.range (natMin (recNLevels r) 8)).zip (recLevels r)
  (indicesAt (fun d => decide (2 ≤ d)) ls n ++ indicesAt (· == 1) ls c ++ indicesAt (· == 0) ls lane).foldl
    (fun t p => tput 0 t p.1 (BitVec.ofNat 32 p.2)) []

/-! ### Gangs (03 R113) -/

/-- Domain of the innermost level of domain pair or wider; core when there is none. -/
def gangDom (r : Nat) : Nat := (((recLevels r).reverse.find? (fun d => decide (3 ≤ lvDom d))).map lvDom).getD 2

/-- Tasks of a gang: the levels of domain core stand inside that level. -/
def gangSize (r : Nat) : Nat := if gangDom r = 2 then 1 else countOf ((recLevels r).filter (fun d => decide (lvDom d = 2)))

/-- Tasks under one instance of the outermost level of domain die; none without one (04 R126). -/
def tasksPerDie (r : Nat) : Option Nat :=
  let tail := (recLevels r).dropWhile (fun d => decide (lvDom d ≠ 5))
  if tail.isEmpty then none else some (countOf (tail.tail.filter (fun d => decide (2 ≤ lvDom d))))

/-! ### Demands of a task (04 R133) -/

/-- Size i of the scratchpad parts in bytes, rounded up to 4 KiB. -/
def spPart (r i : Nat) : Nat := alignUp (recKib r i * 1024) 4096
def spNeed (r : Nat) : Nat := spPart r 0 + spPart r 1 + spPart r 2 + spPart r 3

def extBase (e : Nat) : Nat := bits e 0 40 * 65536
def extPages (e : Nat) : Nat := bits e 40 20
def extBytes (e : Nat) : Nat := extPages e * 65536
def recExtents (r : Nat) : List Nat := (List.range 16).map (recExtent r)

/-- Length of the column-bank extent, 0 for none. -/
def cbNeed (r : Nat) : Nat :=
  (((recExtents r).find? (fun e => decide (extPages e ≠ 0) && decide (windowOf (extBase e) = .colBank))).map extBytes).getD 0

/-- Bytes of the burrow stack area. -/
def stackNeed (r : Nat) : Nat := clutchesIn r * (8 * recStack r - 112) * 128

/-! ### The checks of R116 -/

/-- The line admits the context: its entry is VALID and not malformed. -/
def ctxOk (s : State) (ctx : Nat) : Bool := (ctxAt s ctx).valid && !(ctxAt s ctx).bad

/-- The dependence entries that are read: min(NDEP, 8); none when one cannot be read. -/
def readDeps (s : State) (key ctx r : Nat) : Option (List (BitVec 128)) :=
  if recNDep r = 0 then some []
  else if recDeps r % 16 ≠ 0 then none
  else (List.range (natMin (recNDep r) 8)).foldr (fun i (acc : Option (List (BitVec 128))) =>
    match acc, agentNat s key ctx (recDeps r + 16 * i) 16 with
    | some l, some x => some (BitVec.ofNat 128 x :: l)
    | _, _ => none) (some [])

def depKind (d : BitVec 128) : Nat := bits d.toNat 0 3
def depAddr (d : BitVec 128) : Nat := bits d.toNat 0 64
def depValue (d : BitVec 128) : Nat := bits d.toNat 64 64

/-- FORMAT of the token, the record, the levels, the extents and the dependences. -/
def formatBad (t : BitVec 512) (r : Nat) (deps : List (BitVec 128)) : Bool :=
  decide (bits (tokFlags t) 2 14 ≠ 0) || decide (bits t.toNat 112 16 ≠ 0) ||
  decide (recEntry r % 8 ≠ 0) || decide (bits (recFlags r) 7 1 ≠ 0) || decide (bits (recFlags r) 16 16 ≠ 0) ||
  decide (recNLevels r = 0) || decide (8 < recNLevels r) || decide (8 < recNDep r) ||
  decide (recStack r < 14) || decide (bits (rf r 0x2C 4) 13 19 ≠ 0) || decide (bits (recRes r) 55 9 ≠ 0) ||
  decide (4 < recRegions r) || decide (8 < recEngines r) ||
  decide (2048 < recKib r 0 + recKib r 1 + recKib r 2 + recKib r 3) ||
  (recLevels r).any (fun d => decide (lvCount d = 0) || decide (lvDom d = 7) || decide (5 < lvScope d) ||
    decide (bits d 35 1 ≠ 0) || decide (bits d 39 25 ≠ 0)) ||
  ((List.range 8).drop (recNLevels r)).any (fun i => decide (recLevel r i ≠ 0)) ||
  (recExtents r).any (fun e => decide (bits e 62 2 ≠ 0)) ||
  deps.any (fun d => decide (depKind d = 0) || decide (3 < depKind d) || (decide (1 < depKind d) && decide (depValue d ≠ 0)))

/-- The narrowest scope that holds an instance of a domain (R112). -/
def domScope (dom : Nat) : Nat := match dom with | 0 => 0 | 1 => 0 | 2 => 1 | 3 => 2 | 4 => 2 | 5 => 3 | _ => 4

/-- DOMAIN does not increase. -/
def domsFall : List Nat → Bool
  | [] => true
  | [_] => true
  | a :: b :: t => decide (lvDom b ≤ lvDom a) && domsFall (b :: t)

/-- HIER: a rule of R112 or R107 is broken. -/
def hierBad (key r : Nat) : Bool :=
  let low := if key / 8 < 64 then 4 else if key / 8 < 68 then 5 else 7
  !domsFall (recLevels r) || (recLevels r).any (fun d => decide (lvScope d < domScope (lvDom d))) ||
  decide (lanesIn r = 0) || decide (32 < lanesIn r) || decide (clutchesIn r = 0) || decide (48 < clutchesIn r) ||
  decide (tasksIn r = 0) || decide (2 ^ 24 < tasksIn r) ||
  (recLevels r).any (fun d => decide (low ≤ lvDom d) && decide (lvCount d ≠ 1))

/-- The timeline area is writable over its whole length. -/
def timelineOk (s : State) (ctx r : Nat) : Bool :=
  let a := recTlpub r
  if a = 0 then true
  else
    let last := a + 64 * tasksIn r - 1
    decide (a % 64 = 0) && (List.range (last / 65536 - a / 65536 + 1)).all (fun i =>
      (agentPa s ctx (max a ((a / 65536 + i) * 65536)) .store).isSome)

/-- EXTENT: an extent is invalid (R114). -/
def extentBad (r : Nat) : Bool :=
  let es := (recExtents r).filter (fun e => decide (extPages e ≠ 0))
  es.any (fun e =>
    let w := windowOf (extBase e)
    let top := 2 ^ 56 < extBase e + extBytes e
    decide top || decide (w = .hole) || decide (windowOf (extBase e + extBytes e - 1) ≠ w) || decide (w = .scratch) ||
    (decide (w = .weight) && decide (bits e 61 1 = 1)) ||
    (decide (w = .colBank) && (decide (extBase e ≠ colBankBase) || decide (burrowBase < extBytes e)))) ||
  decide (1 < (es.filter (fun e => decide (windowOf (extBase e) = .colBank))).length)

/-- Cores of an instance of a gang's domain. -/
def domCores (dom : Nat) : Nat := match dom with | 2 => 1 | 3 => 2 | 4 => 4 | 5 => 64 | _ => 256

/-- SIZE: a gang does not fit its domain with every core empty (R113, 04 R132, R133). -/
def sizeBad (r : Nat) : Bool :=
  let perCol := natMin (gangSize r) 4
  decide (0x200000 < spNeed r) || decide (domCores (gangDom r) < gangSize r) || decide (stackArea < perCol * stackNeed r) ||
  decide (burrowBase < perCol * cbNeed r)

/-- Columns that a line serves (R107). -/
def lineCols (key : Nat) : List Nat :=
  if key / 8 < 64 then [key / 8] else if key / 8 < 68 then dieCols (key / 8 - 64) else List.range 64

/-- The column's group is assigned to the partition of a context (02 R60). -/
def ctxCol (s : State) (ctx col : Nat) : Bool := assignedCol s col && decide (partOf s col = (ctxAt s ctx).part.toNat)

/-- The record that a token names, when it can be read: 256-byte aligned, in the global window, mapped and readable. -/
def readRecord (s : State) (key : Nat) (k : Tok) : Option Nat :=
  if tokRecord k.bits % 256 ≠ 0 then none else agentNat s key k.ctx (tokRecord k.bits) 256

/-- The agent reads the record of a token and its dependence entries (03 R111, R115); none while a line of them waits. -/
def recordTake (s : State) (key : Nat) (k : Tok) : Option State :=
  if tokRecord k.bits % 256 ≠ 0 then some s
  else match agentTake s key k.ctx (tokRecord k.bits) 256 with
    | none => none
    | some s => match readRecord s key k with
      | none => some s
      | some r => if recNDep r = 0 ∨ recDeps r % 16 ≠ 0 then some s
          else (List.range (natMin (recNDep r) 8)).foldl (fun a i => a.bind (fun s => agentTake s key k.ctx (recDeps r + 16 * i) 16)) (some s)

/-- The join record that a token or its launch record names is writable, and it took the token's increment. -/
def joinOk (s : State) (k : Tok) (r : Nat) : Bool :=
  let va := if tokJoin k.bits ≠ 0 then tokJoin k.bits else recJoin r
  va = 0 || (k.join ≠ 0 && (joinPa s k.ctx k.join).isSome)

/-- The checks of R116: the reason of the first failure, or the record and its dependences. -/
def checkRecord (s : State) (key : Nat) (k : Tok) : Nat ⊕ (Nat × List (BitVec 128)) :=
  if !ctxOk s k.ctx then .inl rCtx
  else match readRecord s key k with
    | none => .inl rFetch
    | some r => match readDeps s key k.ctx r with
      | none => .inl rFetch
      | some deps =>
        if !joinOk s k r then .inl rFetch
        else if formatBad k.bits r deps then .inl rFormat
        else if hierBad key r then .inl rHier
        else if !timelineOk s k.ctx r then .inl rFetch
        else if extentBad r then .inl rExtent
        else if sizeBad r then .inl rSize
        else if !(lineCols key).any (ctxCol s k.ctx) then .inl rPart
        else .inr (r, deps)

end Sys2Proof.Machine
end

