-- ==== Sys2Proof/Machine/Ends.lean ====
section
/-! DEFINITION. Ends of tasks, gangs and launches: join updates (03 R119), NOTIFY and ORDERED (R106), linked children (R121),
termination (05 R156) and what each releases (04 R135, 05 R187, 06 R212, R232). -/

namespace Sys2Proof.Machine

/-! ### Launches -/

/-- Launch priority, lowered to PRIOMAX (03 R108). -/
def launchPrio (s : State) (x : Launch) : Nat := natMin (recPrio x.record.toNat) (ctxAt s x.tok.ctx).prio.toNat

def launchKeyOf (x : Launch) : Nat := 8 * x.block + x.line

/-- Gangs of a launch. -/
def gangsOf (s : State) (l : Nat) : List (Nat × Gang) := (tsome s.gangs).filter (fun p => decide (p.2.launch = l))

/-- A gang that is not dispatched yet. -/
def undispatched (g : Gang) : Bool :=
  g.state == .held || g.state == .translating || g.state == .ready || g.state == .ended

/-- The launch's last task has terminated: NOTIFY (03 R106), and launches that it held back look again. -/
def finishLaunch (s : State) (l : Nat) (x : Launch) : State :=
  let s := { s with launches := tdel s.launches l }
  let s := if tokFlags x.tok.bits % 2 = 1 then raiseVec s (lineVec (lineAt s (launchKeyOf x))) else s
  startNext s (((tsome s.launches).filter (fun p => p.2.state == .waiting && decide (launchKeyOf p.2 = launchKeyOf x))).map
    (fun p => Instr.dependenceEvaluation p.1))

/-- k tasks of a launch have terminated. -/
def lessLeft (s : State) (l k : Nat) : State :=
  match launchAt s l with
  | none => s
  | some x => if x.left ≤ k then finishLaunch s l { x with left := 0 } else setLaunch s l { x with left := x.left - k }

/-- A READY launch whose last gang is dispatched is DISPATCHED, and its agent may take another token (04 R123, R124). -/
def settleLaunch (s : State) (l : Nat) : State :=
  match launchAt s l with
  | none => s
  | some x =>
    if x.state == .ready && !(gangsOf s l).any (fun p => undispatched p.2) then
      startNext (setLaunch s l { x with state := .dispatched }) [checkNext (launchKeyOf x)]
    else s

/-! ### Gangs and tasks -/

/-- Priority of a gang; the lowest for one without a launch. -/
def gangPrio (s : State) (g : Gang) : Nat := match launchAt s g.launch with | some x => launchPrio s x | none => 0

/-- The gang of a list that comes first: higher priority, then lower order. -/
def gangBefore (s : State) (a b : Gang) : Bool :=
  decide (gangPrio s b < gangPrio s a) || (decide (gangPrio s a = gangPrio s b) && decide (a.order ≤ b.order))

def insGang (s : State) (a : Nat × Gang) : List (Nat × Gang) → List (Nat × Gang)
  | [] => [a]
  | b :: t => if gangBefore s a.2 b.2 then a :: b :: t else b :: insGang s a t

def sortGangs (s : State) (l : List (Nat × Gang)) : List (Nat × Gang) := l.foldr (fun a r => insGang s a r) []

/-- A gang of domain die or package: such a gang reserves cores as they become free (04 R127). -/
def wideGang (s : State) (g : Gang) : Bool := match launchAt s g.launch with | some x => decide (5 ≤ gangDom x.record.toNat) | none => false

/-- Gangs that could use freed resources try again: PREEMPTED ones first (04 R143); what is left is reserved (R127), then READY gangs are
dispatched. -/
def retryNext (s : State) : State :=
  let gs := sortGangs s (tsome s.gangs)
  startNext s ((gs.filter (fun p => p.2.state == .preempted)).map (fun p => Instr.preemptResume p.1) ++
    (gs.filter (fun p => p.2.state == .ready && wideGang s p.2)).map (fun p => Instr.gangReserve p.1) ++
    (gs.filter (fun p => p.2.state == .translating)).map (fun p => Instr.preTranslation p.1) ++
    (gs.filter (fun p => p.2.state == .ready)).map (fun p => Instr.gangDispatch p.1))

/-- Give back stack areas. -/
def freeStacks (s : State) (l : List (Nat × Nat)) : State :=
  l.foldl (fun s p => modCol s p.1 (fun k => { k with stackUsed := k.stackUsed - p.2 })) s

/-- A gang is over: its frame maps, stack areas and FIFO entries go. -/
def dropGang (s : State) (g : Nat) (x : Gang) : State :=
  let s := freeStacks s x.stack
  { s with
    gangs := tdel s.gangs g
    fifos := s.fifos.filter (fun p => decide (p.1 / 256 ≠ g))
    pkg := { s.pkg with storeUsed := s.pkg.storeUsed.filter (fun r => !x.store.contains r) } }

/-- Every cached byte of [lo, lo + n) goes: nothing of a freed allocation comes back (06 R232). -/
def dropCached (s : State) (lo n : Nat) : State :=
  let out : Nat → Bool := fun line => decide (line < lo / 128) || decide ((lo + n) / 128 ≤ line)
  { s with
    l1 := s.l1.filterMap (fun p => let t := p.2.filter (fun q => out q.1); if t.isEmpty then none else some (p.1, t))
    cols := s.cols.map (fun p => (p.1, p.2.map (fun k => { k with
      cwq := k.cwq.filter (fun e => out e.line), slice := k.slice.filter (fun q => out q.1) })))
    poison := s.poison.filter (fun q => out q.1) }

/-- Free a column-bank allocation. -/
def freeBank (s : State) (col base len : Nat) : State :=
  if len = 0 then s
  else modCol (dropCached s (bankBase + col * (4 * gib) + base) len) col (fun k => { k with
    allocs := k.allocs.filter (fun a => decide (a ≠ (base, len)))
    fresh := k.fresh.filter (fun b => decide (b < base / 65536) || decide ((base + len) / 65536 ≤ b)) })

/-- Make a column-bank allocation: its blocks read as zero until written (06 R232). -/
def allocBank (s : State) (col base len : Nat) : State :=
  if len = 0 then s
  else modCol (dropCached s (bankBase + col * (4 * gib) + base) len) col (fun k => { k with
    allocs := k.allocs ++ [(base, len)]
    fresh := k.fresh ++ (List.range (len / 65536)).map (fun i => base / 65536 + i) })

/-- The clutches of a task go; queued atomics of theirs give no result. -/
def dropClutches (s : State) (cs : List Nat) : State :=
  { s with
    clutches := s.clutches.filter (fun p => !cs.contains p.1)
    sync := s.sync.map (fun o => if cs.contains o.cid then { o with ret := false } else o) }

/-- Free an image slot (04 R134, R135). -/
def freeImage (s : State) (col : Nat) : Option Nat → State
  | none => s
  | some k => modCol s col (fun x => { x with images := x.images.filter (fun j => decide (j ≠ k)) })

/-- Column and bytes of a task's stack area (04 R133). -/
def taskStack (x : Task) : Nat × Nat := (colOf x.core, x.clutches.length * (8 * x.stackN - 112) * 128)

/-- A task that has a seat at the target of a migration gives up the stack area and column-bank range there (04 R148, R151). -/
def dropSeat (x : Task) (s : State) (p : Nat × Nat × Nat) : State :=
  freeStacks (freeBank s (colOf p.1) p.2.2 x.cbLen) [(colOf p.1, (taskStack x).2)]

/-- A terminated task releases all it held (04 R135); with its last task the gang is over. -/
def dropTask (s : State) (t : Nat) (x : Task) : State :=
  let s := dropClutches s x.clutches
  let s := freeImage (freeBank s (colOf x.core) x.cbBase x.cbLen) (colOf x.core) x.image
  let s := { s with tasks := tdel s.tasks t }
  match gangAt s x.gang with
  | none => s
  | some g =>
    let a := taskStack x
    let mine := ((g.tasks.zip g.seats).filter (fun q => decide (q.1 = t))).map (·.2)
    let s := mine.foldl (dropSeat x) (if g.stack.contains a then freeStacks s [a] else s)
    let g := { g with
      tasks := g.tasks.filter (fun k => decide (k ≠ t))
      seats := ((g.tasks.zip g.seats).filter (fun q => decide (q.1 ≠ t))).map (·.2)
      stack := mine.foldl (fun l p => l.erase (colOf p.1, a.2)) (g.stack.erase a)
      over_ := x.number :: g.over_ }
    if g.tasks.isEmpty then dropGang s x.gang g else setGang s x.gang g

/-! ### Linked children (03 R121) -/

/-- A LINKED launch whose parent has failed: what is dispatched fails, the rest ends. -/
def orphanLaunch (s : State) (p : Nat × Launch) : State :=
  let s := setLaunch s p.1 { p.2 with tok := { p.2.tok with orphan := true } }
  let gs := gangsOf s p.1
  let s := gs.foldl (fun s q =>
    if undispatched q.2 || q.2.tasks.isEmpty then setGang s q.1 { q.2 with state := .ended, fail := 0x44 }
    else q.2.tasks.foldl (fun s t => failTask s t 0x44 0) s) s
  startNext s ((if p.2.state == .waiting then [Instr.dependenceEvaluation p.1] else []) ++
    (gs.filter (fun q => undispatched q.2 || q.2.tasks.isEmpty)).map (fun q => Instr.preTranslation q.1) ++
    gs.flatMap (fun q => q.2.tasks.map Instr.taskTermination))

/-- A parent, task t of launch l, has terminated with a code other than DONE. -/
def orphanKids (l : Nat) (s : State) (t : Nat) : State :=
  let s := { s with lines := s.lines.map (fun p => (p.1, { p.2 with
    queue := p.2.queue.map (fun k => if k.parent = some (l, t) then { k with orphan := true } else k) })) }
  ((tsome s.launches).filter (fun p => decide (p.2.tok.parent = some (l, t)) && recLinked p.2.record.toNat)).foldl orphanLaunch s

/-- Tasks of a launch that have none of their clutches out terminate with a code: those that never started, and those of a requeued
gang. -/
def endTasks (s : State) (l : Nat) (x : Launch) (tasks : List Nat) (code reason : Nat) : Option State :=
  (joinTasks s x.tok.ctx x.tok.join code reason (tokSeq x.tok.bits) tasks).map (fun s =>
    lessLeft (if code = 0 then s else tasks.foldl (orphanKids l) s) l tasks.length)

/-- Task numbers of a gang that have not terminated (04 R144). -/
def gangLeft (g : Gang) : List Nat := ((List.range g.count).map (fun i => g.first + i)).filter (fun n => !g.over_.contains n)

/-! ### Termination (05 R156) -/

/-- Cores on which a task's clutches run, its own first. -/
def taskCores (s : State) (x : Task) : List Nat := (x.core :: x.clutches.map (fun c => (clutchAt s c).core)).eraseDups

def releaseCores (sc : Scope) (s : State) : List Nat → Option State
  | [] => some s
  | k :: t => match releaseOp s k sc with
    | none => none
    | some s => releaseCores sc s t

/-- The queued atomics of clutches are performed (06 R224, 07 R267). -/
def syncTask (s : State) : List Nat → Option State
  | [] => some s
  | c :: t => match syncWhere c (fun _ => true) s.sync.length s with
    | none => none
    | some s => syncTask s t

/-- Cores that wait to be gated look again (05 R190). -/
def gateNext (s : State) (cores : List Nat) : State := cores.foldl gateCore s

/-- A task terminates with a code: its atomics and the release, the join update, and its end (03 R119 to R121, 07 R267). -/
def endTask (s : State) (t : Nat) (x : Task) (code reason : Nat) : Option State :=
  let cores := taskCores s x
  match launchAt s x.launch with
  | none => some (gateNext (dropTask s t x) cores)
  | some l => match (syncTask s x.clutches).bind (fun s => releaseCores (recScope l.record.toNat) s cores) with
    | none => none
    | some s => match joinTask s l.tok.ctx l.tok.join code reason x.number (tokSeq l.tok.bits) with
      | none => none
      | some s =>
        let s := lessLeft (gateNext (dropTask s t x) cores) x.launch 1
        some (if code = 0 then s else orphanKids x.launch s x.number)

/-- Every lane of every clutch has exited. -/
def allExited (s : State) (x : Task) : Bool :=
  x.clutches.all (fun c => (lanesOf (BitVec.allOnes 32)).all (fun i => (laneAt (clutchAt s c) i).exited))

/-- Commands of a task that still run. -/
def taskCmds (s : State) (t : Nat) : List (Nat × Cmd) :=
  (tsome s.cmds).filter (fun p => p.2.ref == .task t && !p.2.orphan)

/-- TASK_TERMINATION: every lane has exited and every command is complete. The stopped commands of a failed task that is out
end with it. -/
def execTaskTermination (t : Nat) (s : State) : Out :=
  match taskAt s t with
  | none => .next s
  | some x =>
    let gone := (taskCmds s t).filter (fun p => p.2.stopped && x.failed.isSome)
    let left := (taskCmds s t).filter (fun p => !(p.2.stopped && x.failed.isSome))
    let on : Bool := x.failed.isSome || (x.state == .resident &&
      (match gangAt s x.gang with | some g => g.state == .resident | none => true))
    if !live s || !on || !allExited s x || !left.isEmpty then .next s
    else
      let s1 := gone.foldl (fun s p => delCmd s p.1) s
      let f := x.failed.getD (0, 0)
      orStay s ((endTask s1 t x f.1 f.2).map (fun s => retryNext (settleLaunch s x.launch)))

end Sys2Proof.Machine
end

