-- ==== Sys2Proof/Machine/Jobs.lean ====
section
/-! DEFINITION. Job cards (11 R405 to R410), `mjob` (R411 to R414) and the matrix engine (08 R302 to R306, 11 R407, R408, R415 to
R417). -/

namespace Sys2Proof.Machine

/-! ### Cards (11 R405, R406) -/

/-- A loop level. -/
structure Lvl where
  count : Nat
  k     : Bool
  sa    : Int
  sb    : Int
  sc    : Int
  deriving DecidableEq, Repr

/-- A job card; `m` and `n` are the rows and columns of an output tile. -/
structure Card where
  fa     : Nat
  fb     : Nat
  fo     : Nat
  sparse : Bool
  sca    : Bool
  scb    : Bool
  acc    : Bool
  oscl   : Bool
  ornd   : Nat
  osat   : Bool
  nloop  : Nat
  kb     : Nat
  m      : Nat
  n      : Nat
  abase  : Nat
  bbase  : Nat
  obase  : Nat
  cbase  : Nat
  orow   : Nat
  crow   : Nat
  oscale : Nat
  save   : Nat
  seed   : Nat
  levels : List Lvl
  deriving DecidableEq, Repr

def lvlOf (b : BitVec 1024) (l : Nat) : Lvl :=
  let o := 0x30 + 16 * l
  { count := blkField b o 0 16, k := decide (blkField b o 16 1 = 1), sa := sgn 32 (blkField b o 32 32),
    sb := sgn 32 (blkField b o 64 32), sc := sgn 32 (blkField b o 96 32) }

def cardOf (b : BitVec 1024) : Card :=
  let nl := blkField b 4 6 3
  { fa := blkField b 0 0 5, fb := blkField b 0 5 5, fo := blkField b 0 10 5, sparse := decide (blkField b 0 15 1 = 1),
    sca := decide (blkField b 0 16 1 = 1), scb := decide (blkField b 0 17 1 = 1), acc := decide (blkField b 4 0 1 = 1),
    oscl := decide (blkField b 4 1 1 = 1), ornd := blkField b 4 2 3, osat := decide (blkField b 4 5 1 = 1), nloop := nl,
    kb := blkField b 4 9 7, m := blkField b 4 16 7 + 1, n := blkField b 4 23 7 + 1, abase := blkField b 8 0 21,
    bbase := blkField b 0x0C 0 21, obase := blkField b 0x10 0 21, cbase := blkField b 0x14 0 21, orow := blkField b 0x18 0 21,
    crow := blkField b 0x1C 0 21, oscale := blkField b 0x20 0 64, save := blkField b 0x28 0 21, seed := blkField b 0x2C 0 32,
    levels := (List.range (natMin nl 5)).map (lvlOf b) }

/-- Accumulation paths (08 R302). -/
inductive MPath where
  | f32 | f64 | i32
  deriving DecidableEq, Repr

def Card.path (c : Card) : MPath :=
  if c.fa = 1 ∧ c.fb = 1 then .f64
  else if (c.fa = 10 ∨ c.fa = 11) ∧ (c.fb = 10 ∨ c.fb = 11) ∧ c.sca = false ∧ c.scb = false then .i32
  else .f32

/-- Bytes of an accumulator element. -/
def Card.accBytes (c : Card) : Nat := if c.path = .f64 then 8 else 4

/-- Bits of an output element (11 R407). -/
def outBits (fo : Nat) : Nat := if fo = 10 then 8 else if fo = 19 then 32 else elemBits (mfTy fo)

/-- Bytes of a row of n output elements. -/
def Card.rowBytes (c : Card) : Nat := (c.n * outBits c.fo + 7) / 8

/-- Chunks of an A region. -/
def Card.kchA (c : Card) : Nat := if c.sparse then c.kb / 2 else c.kb

def Card.outCounts (c : Card) : List Nat := (c.levels.filter (fun l => !l.k)).map (·.count)
def Card.kCounts (c : Card) : List Nat := (c.levels.filter (fun l => l.k)).map (·.count)
def prodNat (l : List Nat) : Nat := l.foldl (· * ·) 1

/-- Output tiles, and K iterations of each. -/
def Card.tiles (c : Card) : Nat := prodNat c.outCounts
def Card.kIters (c : Card) : Nat := prodNat c.kCounts

/-- An output level stands inside a K level. -/
def levelsBad : List Lvl → Bool
  | [] => false
  | l :: t => (l.k && t.any (fun x => !x.k)) || levelsBad t

/-- The output conversion narrows (11 R383, R409). -/
def Card.outNarrows (c : Card) : Bool :=
  match c.path with
  | .i32 => decide (c.fo = 10)
  | .f32 => narrows (mfTy c.fo) .f32
  | .f64 => narrows (mfTy c.fo) .f64

/-- Reserved combinations (11 R409). -/
def Card.reserved (c : Card) : Bool :=
  c.fa = 0 || decide (18 < c.fa) || c.fb = 0 || decide (18 < c.fb) ||
  !(decide (1 ≤ c.fo ∧ c.fo ≤ 10) || c.fo = 19) ||
  decide ((c.fa = 1) ≠ (c.fb = 1)) ||
  (match c.path with
   | .f64 => !(c.fo = 1 || c.fo = 2)
   | .i32 => !(c.fo = 19 || c.fo = 10) || c.oscl
   | .f32 => c.fo = 1 || c.fo = 19 || c.fo = 10) ||
  (c.sparse && (c.fa = 1 || c.kb % 2 = 1)) ||
  c.ornd = 7 || (c.ornd = 6 && !c.outNarrows) || c.kb = 0 || c.nloop = 0 || decide (5 < c.nloop) ||
  c.levels.any (fun l => decide (l.count = 0)) || levelsBad c.levels ||
  c.abase % 128 ≠ 0 || c.bbase % 128 ≠ 0 || c.levels.any (fun l => decide (l.sa % 128 ≠ 0) || decide (l.sb % 128 ≠ 0)) ||
  decide (c.orow < c.rowBytes) || (c.acc && decide (c.crow < c.n * c.accBytes)) || decide (2 ^ 32 - 1 < c.tiles)

/-- First and last byte offsets that a base reaches over every level, for strides `f` (11 R412). -/
def spanLo (base : Nat) (f : Lvl → Int) (ls : List Lvl) : Int :=
  ls.foldl (fun a l => a + (if f l < 0 then ((l.count : Int) - 1) * f l else 0)) (base : Int)
def spanHi (base : Nat) (f : Lvl → Int) (ls : List Lvl) : Int :=
  ls.foldl (fun a l => a + (if f l < 0 then 0 else ((l.count : Int) - 1) * f l)) (base : Int)

/-- Every tile and the save area lie in the allocation. -/
def Card.inside (c : Card) (alloc : Nat) : Bool :=
  let ok := fun (base : Nat) (f : Lvl → Int) (len : Nat) =>
    decide (0 ≤ spanLo base f c.levels) && decide (spanHi base f c.levels + (len : Int) ≤ (alloc : Int))
  ok c.abase (·.sa) (geom c.fa c.m c.kchA c.sparse).len && ok c.bbase (·.sb) (geom c.fb c.n c.kb false).len &&
  ok c.obase (·.sc) ((c.m - 1) * c.orow + c.rowBytes) && decide (c.save + 64 ≤ alloc) &&
  (!c.acc || decide (c.cbase + (c.tiles * c.m - 1) * c.crow + c.n * c.accBytes ≤ alloc))

/-! ### `mjob` (11 R411 to R413) -/

/-- Bits [17:0] of the format word differ between executing lanes, or from the card's. -/
def voteFails (s : State) (c : Clutch) (ex : Mask) (f : Reg) (card : BitVec 1024) : Bool :=
  (lanesOf ex).any (fun i => decide (bits (rd32 s c i f).toNat 0 18 ≠ blkField card 0 0 18))

/-- A job enters its core's queue. -/
def enqueueJob (core id : Nat) (s : State) : State := setCore s core { coreAt s core with jobs := (coreAt s core).jobs ++ [id] }

/-- The checks of a card that has been read, and its issue. -/
def jobIssue (e : Nat) (f : Reg) (x : Ctx) (va : Dword) (card : BitVec 1024) (s : State) : Res :=
  let c := clutchAt s x.cid
  let alloc := match c.task.bind (taskAt s) with | some t => allocLen t | none => 0
  let k := cardOf card
  if voteFails s c x.ex f card then .trap cFormatDiv va x.at_
  else if k.reserved then .trap cJobCombo va x.at_
  else if !k.inside alloc then .trap cBounds va x.at_
  else if 16 ≤ (coreAt s c.core).jobs.length then .wait .jobQueue s
  else issueRead s x e .matrix .core va.toNat card none (enqueueJob c.core s.pkg.serial)

def execMjob (h : Hdr) (e : Fin 8) (a b : Reg) (s : State) : Out :=
  word (.mjob h e a b) s (fun x s =>
    let c := clutchAt s x.cid
    let va := baseVal s c (lowLane x.ex) a
    if c.pad.isSome then .trap cLeap 0 x.at_
    else if engCount s c ≤ e.val then .trap cBounds 0 x.at_
    else if windowOf va.toNat ≠ .scratch then .trap cWindow va (laneBit (lowLane x.ex))
    else match checkLanes s (reqOf s c (baseReg c a) .load 128 false) [lowLane x.ex] (fun _ => va) 128 (fun _ => false) with
      | .stop r => r
      | .ok ps => match (ps.head?).bind (fun p => readPlace s c.core p.2 128) with
        | none => .wait .tokens s
        | some (s, bs) => jobIssue e.val b x va (BitVec.ofNat 1024 (leNat bs)) s)

/-! ### Accumulation (08 R303 to R306) -/

/-- Multiply by an E8M0 scale; a scale byte of 0xFF makes a NaN. -/
def scaleFp (byte : Nat) (v : Fp) : Fp :=
  if byte = 0xFF then .nan false
  else match v with
    | .fin n m e => .fin n m (e + (byte : Int) - 127)
    | v => v

/-- Sum of the products of a chunk, rounded to the path's type (08 R303); `cut` is 56 or 112. -/
def chunkSum (t : Ty) (cut : Nat) (ps : List (Fp × Fp)) : Nat × Fl :=
  let prods := ps.map (fun p => fpMulV p.1 p.2)
  let vs := prods.filterMap id
  let pos := vs.any (fun v => v == Fp.inf false)
  let neg := vs.any (fun v => v == Fp.inf true)
  if prods.any (·.isNone) || vs.any isNan || (pos && neg) then (canonNan t, fInvalid)
  else if pos then (infCode t false, 0)
  else if neg then (infCode t true, 0)
  else match maxLead vs with
    | none => (signBit t (!vs.isEmpty && vs.all (fun v => match v with | .fin n _ _ => n | _ => false)), 0)
    | some lead =>
      let q : Int := lead - (cut : Int)
      let sum := vs.foldl (fun (a : Int × Bool) v =>
        match v with
        | .fin n m e =>
          let k := if q ≤ e then m * 2 ^ (e - q).toNat else m / 2 ^ (q - e).toNat
          let lost : Bool := decide (e < q) && decide (m % 2 ^ (q - e).toNat ≠ 0)
          (a.1 + (if n then -(k : Int) else (k : Int)), a.2 || lost)
        | _ => a) (0, false)
      let fl := flagIf sum.2 fInexact
      if sum.1 = 0 then (0, fl)
      else
        let r := fpRound t .rne false false 0 (decide (sum.1 < 0)) (exactOf sum.1 q)
        (r.1, r.2 ||| fl)

/-- One chunk joins an FP accumulator. -/
def accFp (t : Ty) (cut : Nat) (acc : Nat × Fl) (ps : List (Fp × Fp)) : Nat × Fl :=
  let s := chunkSum t cut ps
  let r := fpAdd t .rne false acc.1 s.1
  (r.1, acc.2 ||| s.2 ||| r.2)

/-- One chunk joins an INT32 accumulator (08 R306). -/
def accInt (acc : Int × Fl) (ps : List (Int × Int)) : Int × Fl :=
  let v := ps.foldl (fun a p => a + p.1 * p.2) acc.1
  let c := clampTo .i32 v
  (c.1, acc.2 ||| c.2)

/-! ### Tiles (11 R407) -/

/-- Mixed-radix digits, level 0 most significant. -/
def radix (v : Nat) : List Nat → List Nat
  | [] => []
  | c :: t => v / prodNat t % c :: radix v t

/-- Σ idx × stride. -/
def strideSum (f : Lvl → Int) : List Nat → List Lvl → Int
  | i :: is, l :: ls => (i : Int) * f l + strideSum f is ls
  | _, _ => 0

def addOff (base : Nat) (d : Int) : Nat := ((base : Int) + d).toNat

/-- Metadata word of uncompressed chunk ch of row r of a sparse A region. -/
def metaWord (s : State) (t : Task) (c : Card) (base ch r : Nat) : Nat :=
  allocNat s t (base + (geom c.fa c.m c.kchA true).moff + (ch * c.m + r) * 4) 4

/-- Is the code of group g illegal (11 R403)? -/
def metaBad (w g : Nat) : Bool := decide (bits w (4 * g + 2) 2 ≤ bits w (4 * g) 2)

/-- The first illegal code of a K iteration, by row, chunk, group: (row, chunk, group). -/
def firstMetaBad (s : State) (t : Task) (c : Card) (base : Nat) : Option (Nat × Nat × Nat) :=
  ((List.range c.m).flatMap (fun r => (List.range c.kb).flatMap (fun ch => (List.range 8).map (fun g => (r, ch, g))))).find?
    (fun p => metaBad (metaWord s t c base p.2.1 p.1) p.2.2)

/-- Scale byte of chunk kc of row r. -/
def scaleByte (s : State) (t : Task) (f rows kch base kc r : Nat) : Nat := allocNat s t (base + (geom f rows kch false).soff + kc * rows + r) 1

/-- Value of element i of a row-chunk, with its scale. -/
def elemVal (s : State) (t : Task) (f rows kch base kc r i : Nat) (scaled : Bool) : Fp :=
  let v := planeVal f (planeElem s t f rows kch base kc r i)
  if scaled then scaleFp (scaleByte s t f rows kch base kc r) v else v

/-- The products of uncompressed chunk ch for element (i, j), as pairs, in increasing k: of the kept elements where A is sparse. -/
def chunkPairs (s : State) (t : Task) (c : Card) (ao bo i j ch : Nat) : List (Fp × Fp) :=
  let b := fun k => elemVal s t c.fb c.n c.kb bo ch j k c.scb
  if c.sparse then
    let w := metaWord s t c ao ch i
    (List.range 16).map (fun e =>
      let g := e / 2
      let pos := bits w (4 * g + 2 * (e % 2)) 2
      (elemVal s t c.fa c.m c.kchA ao (ch / 2) i (16 * (ch % 2) + e) c.sca, b (4 * g + pos)))
  else (List.range 32).map (fun k => (elemVal s t c.fa c.m c.kchA ao ch i k c.sca, b k))

/-- An exact integer value. -/
def fpInt? (v : Fp) : Int :=
  match v with
  | .fin n m _ => if n then -(m : Int) else (m : Int)
  | _ => 0

/-- The runs of `n` of a list. -/
def runsOf {α : Type} (n : Nat) : Nat → List α → List (List α)
  | 0, _ => []
  | k + 1, l => l.take n :: runsOf n k (l.drop n)

/-- Accumulate one K iteration into element (i, j); the accumulator is a code, or an INT32 value. -/
def accIter (s : State) (t : Task) (c : Card) (ao bo i j : Nat) (acc : Int × Fl) : Int × Fl :=
  (List.range c.kb).foldl (fun (a : Int × Fl) ch =>
    let ps := chunkPairs s t c ao bo i j ch
    match c.path with
    | .i32 => accInt a (ps.map (fun p => (fpInt? p.1, fpInt? p.2)))
    | .f32 => let r := accFp .f32 56 (a.1.toNat, a.2) ps; ((r.1 : Int), r.2)
    | .f64 => (runsOf 8 4 ps).foldl (fun (a : Int × Fl) q => let r := accFp .f64 112 (a.1.toNat, a.2) q; ((r.1 : Int), r.2)) a) acc

/-- Input accumulator of element (i, j) of tile n, or +0. -/
def accStart (s : State) (t : Task) (c : Card) (n i j : Nat) : Int :=
  if !c.acc then 0
  else
    let x := allocNat s t (c.cbase + n * c.m * c.crow + i * c.crow + j * c.accBytes) c.accBytes
    if c.path = .i32 then sgn 32 x else (x : Int)

/-- State of the engine's generator for an element, stepped once (11 R408). -/
def jobRandom (c : Card) (n i j : Nat) : Nat :=
  let x : Word := BitVec.ofNat 32 c.seed ^^^ BitVec.ofNat 32 (n * 16384 + i * 128 + j)
  (lfsrStep (if x = 0 then 1 else x)).toNat % 2 ^ 24

/-- The output conversion (08 R304, 11 R417). -/
def outCode (c : Card) (n i j : Nat) (acc : Int) : Nat × Fl :=
  match c.path with
  | .i32 =>
    if c.fo = 10 then
      let q := clampTo .i8 acc
      (wrapNat 8 q.1, q.2)
    else (wrapNat 32 acc, 0)
  | p =>
    let t : Ty := if p = .f64 then .f64 else .f32
    let m := if c.oscl then fpMul t .rne false acc.toNat (c.oscale % 2 ^ tyBits t) else (acc.toNat, 0)
    let q := fpConv (mfTy c.fo) t (rndField c.ornd) false c.osat (jobRandom c n i j) m.1
    (q.1, m.2 ||| q.2)

/-- Write output element (i, j) of the tile that starts at `ob`. -/
def outWrite (s : State) (t : Task) (c : Card) (ob i j code : Nat) : State :=
  let w := outBits c.fo
  let off := ob + i * c.orow + j * w / 8
  if w = 4 then spWrite s t.core (t.spOff + off) (leBytes 1 (setBits (allocNat s t off 1) (4 * (j % 2)) 4 code))
  else spWrite s t.core (t.spOff + off) (leBytes (w / 8) code)

/-- Region offsets of K iteration `ki` of tile n: A and B. -/
def iterBases (c : Card) (n ki : Nat) : Nat × Nat :=
  let idx := radix n c.outCounts ++ radix ki c.kCounts
  (addOff c.abase (strideSum (·.sa) idx c.levels), addOff c.bbase (strideSum (·.sb) idx c.levels))

/-- The first K iteration of a tile with an illegal code: (iteration, row, chunk, group). -/
def tileMetaBad (s : State) (t : Task) (c : Card) (n : Nat) : Option (Nat × Nat × Nat × Nat) :=
  if !c.sparse then none
  else ((List.range c.kIters).filterMap (fun ki => (firstMetaBad s t c (iterBases c n ki).1).map (fun p => (ki, p)))).head?

/-- Value of element (i, j) of tile n after the last K iteration, with flags. -/
def tileElem (s : State) (t : Task) (c : Card) (n i j : Nat) : Int × Fl :=
  (List.range c.kIters).foldl (fun a ki => accIter s t c (iterBases c n ki).1 (iterBases c n ki).2 i j a) (accStart s t c n i j, 0)

/-- Write tile n: every element is computed before one is written (11 R413). -/
def tileWrite (s : State) (t : Task) (c : Card) (n : Nat) : State × Fl :=
  let ob := addOff c.obase (strideSum (·.sc) (radix n c.outCounts) c.levels)
  let es := (List.range c.m).flatMap (fun i => (List.range c.n).map (fun j =>
    let v := tileElem s t c n i j
    let q := outCode c n i j v.1
    (i, j, q.1, v.2 ||| q.2)))
  (es.foldl (fun s e => outWrite s t c ob e.1 e.2.1 e.2.2.1) s, es.foldl (fun f e => f ||| e.2.2.2) 0)

/-! ### Save area and the engine (11 R410, R413, R415, R416) -/

/-- 16-bit fields. -/
def idxBytes (l : List Nat) : List Byte := ((l ++ [0, 0, 0, 0, 0]).take 5).flatMap (leBytes 2)

/-- Write the save area. -/
def saveArea (s : State) (t : Task) (c : Card) (st tiles : Nat) (idx kidx : List Nat) (group row : Nat) : State :=
  spWrite s t.core (t.spOff + c.save)
    (leBytes 4 st ++ leBytes 4 tiles ++ idxBytes idx ++ leBytes 6 0 ++ leBytes 8 s.tsc.toNat ++ idxBytes kidx ++
      leBytes 2 group ++ leBytes 2 row ++ leBytes 18 0)

/-- The job leaves its core's queue. -/
def dequeueJob (s : State) (core id : Nat) : State :=
  setCore s core { coreAt s core with jobs := (coreAt s core).jobs.filter (fun j => decide (j ≠ id)) }

/-- The job that a core's engine runs, with its task. -/
def runningJob (s : State) (core : Nat) : Option (Nat × Cmd × Task) :=
  match (coreAt s core).jobs with
  | [] => none
  | id :: _ => match cmdAt s id with
    | none => none
    | some k => match k.ref with
      | .host _ => none
      | .task t => match taskAt s t with
        | none => none
        | some x => if cmdRuns s k then some (id, k, x) else none

/-- MATRIX_TILE: the engine writes one output tile of the job at the head of its queue, or stops it on an illegal code. -/
def execMatrixTile (core : Fin 256) (s : State) : Out :=
  match runningJob s core.val with
  | none => .next s
  | some (id, k, t) =>
    let c := cardOf k.block
    if c.tiles ≤ k.progress then .next s
    else match tileMetaBad s t c k.progress with
      | some (ki, r, ch, g) =>
        let group := 8 * ch + g
        let zeros := (c.outCounts).map (fun _ => 0)
        let s := saveArea s t c 3 k.progress (radix k.progress c.outCounts) (zeros ++ radix ki c.kCounts) group r
        orStay s (failCmd (dequeueJob s core.val id) id eMeta 0 (k.progress % 2 ^ 32 + group % 65536 * 2 ^ 32 + r * 2 ^ 48))
      | none =>
        let q := tileWrite s t c k.progress
        .next (setCmd (cmdFlags q.1 k q.2) id { k with progress := k.progress + 1 })

/-- MATRIX_JOB_COMPLETE: after the last tile the save area takes STATE 2, and the job is over (11 R413). -/
def execMatrixJobComplete (core : Fin 256) (s : State) : Out :=
  match runningJob s core.val with
  | none => .next s
  | some (id, k, t) =>
    let c := cardOf k.block
    if k.progress < c.tiles then .next s
    else .next (setCmd (dequeueJob (saveArea s t c 2 c.tiles [] [] 0 0) core.val id) id { k with ended := true })

end Sys2Proof.Machine
end

