-- ==== Sys2Proof/Machine/Launch.lean ====
section
/-! DEFINITION. Launch lines and contexts as agents serve them: tokens (03 R102, R103), record checks and acceptance (R106, R116,
R119), dependences (R115, 04 R125), and refreshes and kills of contexts (03 R108 to R110). -/

namespace Sys2Proof.Machine

/-! ### Tokens -/

def blockKey : Block → Nat
  | .column c => c.val
  | .die t => 64 + t.val
  | .package => 68

def lineKey (b : Block) (line : Fin 8) : Nat := 8 * blockKey b + line.val

/-- A write of the host to a launch line (03 R102). `whole` says that it is one aligned 64-byte write. -/
def hostToken (s : State) (key : Nat) (tok : BitVec 512) (whole : Bool) : Out :=
  if s.emerg.isSome then .next s
  else
    let x := lineAt s key
    let s0 := { s with reply := .ok [] }
    if s.boot != .running || !whole || !lineEn x || !lineHost x || decide (8 ≤ x.queue.length) then .next (dropToken s0 key)
    else orStay s (enqueueTok s0 key tok true none)

/-- TOKEN_ENQUEUE. -/
def execTokenEnqueue (b : Block) (line : Fin 8) (tok : BitVec 512) (whole : Bool) (s : State) : Out :=
  hostToken s (lineKey b line) tok whole

/-- A kill of the context is in progress: dispatch for it has stopped (03 R110). -/
def killing (s : State) (ctx : Nat) : Bool :=
  s.pkg.ctxBusy && decide (bits s.pkg.ctxCmd.toNat 8 2 = 2) && decide (bits s.pkg.ctxCmd.toNat 0 8 = ctx)

/-- End a token in its queue with a code; none while its join record's line is kept. DESIGN CHOICE: it has no task yet, and the record's
TASK takes 0 (log 114). -/
def endToken (s : State) (k : Tok) (code reason : Nat) : Option State :=
  joinTask s k.ctx k.join code reason 0 (tokSeq k.bits)

/-- Cancel the marked tokens of a queue, those of kept lines staying. -/
def cancelMarked (s : State) (key : Nat) : List Tok → State
  | [] => s
  | k :: t =>
    if k.cancelled then
      match endToken s k 0x45 0 with
      | none => cancelMarked s key t
      | some s =>
        let x := lineAt s key
        cancelMarked (setLine s key { x with queue := x.queue.erase k }) key t
    else cancelMarked s key t

/-- Cancel the queued tokens of a line that `p` selects (03 R103, R110). -/
def cancelToks (s : State) (key : Nat) (p : Tok → Bool) : State :=
  let x := lineAt s key
  let s := setLine s key { x with queue := x.queue.map (fun k => if p k then { k with cancelled := true } else k) }
  let s := cancelMarked s key (lineAt s key).queue
  if (lineAt s key).queue.length < x.queue.length then wakeWaiting s .launchLine Instr.launchQueueResume else s

/-- LL_CFG_WRITE: clearing EN cancels every token still queued (03 R103). -/
def execLlCfgWrite (b : Block) (line : Fin 8) (v : Dword) (s : State) : Out :=
  let key := lineKey b line
  let x := lineAt s key
  let s1 := setLine s key { x with cfg := v &&& 0x7FFFFF }
  if s.emerg.isSome then .next s
  else .next (if lineEn x && !v.getLsbD 0 then cancelToks s1 key (fun _ => true) else s1)

/-! ### Record checks and acceptance -/

/-- Launches that an agent holds (04 R123): passed its checks, last gang not yet dispatched. -/
def heldBy (s : State) (block : Nat) : Nat :=
  ((tsome s.launches).filter (fun p => decide (p.2.block = block) && p.2.state != .dispatched)).length

def heldLimit (block : Nat) : Nat := if block < 64 then 16 else if block < 68 then 256 else 1024

/-- The head token leaves its queue; a `launch` that waits for an entry goes on. -/
def popToken (s : State) (key : Nat) : State :=
  let x := lineAt s key
  wakeWaiting (setLine s key { x with queue := x.queue.tail }) .launchLine Instr.launchQueueResume

/-- A rejection: ERR, and one task REJECTED (03 R116); it raises no vector (log 100). -/
def rejectTok (s : State) (key : Nat) (k : Tok) (reason : Nat) : Option State :=
  (endToken s k 0x40 reason).map (fun s => setLine s key { lineAt s key with err := BitVec.ofNat 8 reason })

/-- Acceptance with N tasks (03 R119). A LINKED launch whose parent has failed starts no task (R121). -/
def acceptTok (s : State) (key : Nat) (k : Tok) (r : Nat) (deps : List (BitVec 128)) : Option State :=
  let n := tasksIn r
  match joinUpdate s k.ctx k.join (joinAccept n) with
  | none => none
  | some s =>
    let id := s.pkg.serial
    let x : Launch := { tok := k, block := key / 8, line := key % 8, record := BitVec.ofNat 2048 r, state := .waiting, deps := deps,
                        met := [], n := n, left := n }
    let s := setLaunch { s with pkg := { s.pkg with serial := id + 1 } } id x
    some (startNext s [.dependenceEvaluation id])

/-- LAUNCH_RECORD_CHECK: the agent takes the head token of a line (03 R106, R116), while it holds less than its limit. One whose context
is being killed is cancelled (R110). -/
def execLaunchRecordCheck (b : Block) (line : Fin 8) (s : State) : Out :=
  let key := lineKey b line
  match (lineAt s key).queue with
  | [] => .next s
  | k :: _ =>
    if !live s then .next s
    else
      let s1 := popToken s key
      let more := fun (t : State) => startNext t (if (lineAt s1 key).queue.isEmpty then [] else [checkNext key])
      if k.cancelled || killing s k.ctx then orStay s ((endToken s1 k 0x45 0).map more)
      else if heldLimit (key / 8) ≤ heldBy s (key / 8) then .next s
      else match recordTake s key k with
        | none => .next s
        | some s0 => match checkRecord s0 key k with
          | .inl reason => orStay s (rejectTok (more (popToken s0 key)) key k reason)
          | .inr (r, deps) => orStay s (acceptTok (more (popToken s0 key)) key k r deps)

/-! ### Dependences (03 R115, 04 R125) -/

/-- What an evaluation of a dependence shows. -/
inductive DepRes where
  | unmet | met | failed
  deriving DecidableEq, Repr

def evalDep (s : State) (key ctx : Nat) (d : BitVec 128) : DepRes :=
  let a := depAddr d
  if depKind d = 1 then
    match agentNat s key ctx (a / 8 * 8) 8 with
    | some x => if depValue d ≤ x then .met else .unmet
    | none => .unmet
  else match agentPa s ctx (a / 64 * 64) .load with
    | none => .unmet
    | some pa =>
      let x := perfNat s pa 8
      if jPending x ≠ 0 then .unmet else if depKind d = 3 ∧ bits x 32 8 ≠ 0 then .failed else .met

/-- ORDERED holds the launch back: an earlier launch of its line has not ended (03 R106). -/
def orderedHeld (s : State) (x : Launch) : Bool :=
  decide (bits (tokFlags x.tok.bits) 1 1 = 1) &&
  (tsome s.launches).any (fun p => decide (launchKeyOf p.2 = launchKeyOf x) && decide (p.2.tok.serial < x.tok.serial))

/-- A launch becomes READY: its gangs, in the order in which launches were accepted, then of their first task (04 R124, R126, R152). -/
def makeReady (s : State) (l : Nat) (x : Launch) : State :=
  let r := x.record.toNat
  let size := max (gangSize r) 1
  let base := s.pkg.serial
  let mk : Nat → Nat × Option Gang := fun i => (base + i, some
    { launch := l, first := i * size, count := size, state := .translating, tasks := [], requeues := 0,
      order := 2 ^ 64 + 2 ^ 25 * l + i * size, fail := 0, extents := [], store := [], affinity := [],
      die := none, target := none, reserved := [], cores := [], stack := [], pubs := [], over_ := [], seats := [], doomed := false })
  let ids := List.range (x.n / size)
  let s := { s with
    gangs := (ids.map mk).foldl (fun t p => tset t p.1 p.2) s.gangs
    pkg := { s.pkg with serial := base + x.n / size } }
  startNext (setLaunch s l { x with state := .ready }) (ids.map (fun i => Instr.preTranslation (base + i)))

/-- The dependences met now, with those met before; none when a JOINOK has failed. -/
def evalDeps (s : State) (x : Launch) : Option (List Nat) :=
  (List.range x.deps.length).foldr (fun i (acc : Option (List Nat)) =>
    match acc with
    | none => none
    | some l =>
      if x.met.contains i then some (i :: l)
      else match evalDep s (launchKeyOf x) x.tok.ctx (x.deps.getD i 0) with
        | .met => some (i :: l)
        | .unmet => some l
        | .failed => none) (some [])

/-- The words and join records of dependences are read (01 R32, 07 R262): a word at the agent's die, a record at its home; none while one
waits. -/
def depTake (s : State) (key ctx : Nat) (d : BitVec 128) : Option State :=
  if depKind d = 1 then agentTake s key ctx (depAddr d / 8 * 8) 8
  else match agentPa s ctx (depAddr d / 64 * 64) .load with
    | some pa => readAt s (homeTower s pa) (pa / 128)
    | none => some s

def depTakes (s : State) (key ctx : Nat) : List (BitVec 128) → Option State
  | [] => some s
  | d :: t => match depTake s key ctx d with
    | none => none
    | some s => depTakes s key ctx t

/-- DEPENDENCE_EVALUATION of a WAITING launch. -/
def execDependenceEvaluation (l : Nat) (s : State) : Out :=
  match launchAt s l with
  | none => .next s
  | some x =>
    if x.state != .waiting || !live s || killing s x.tok.ctx then .next s
    else if x.tok.orphan && recLinked x.record.toNat then orStay s (endTasks s l x (List.range x.n) 0x44 0)
    else match depTakes s (launchKeyOf x) x.tok.ctx x.deps with
    | none => .next s
    | some s => match evalDeps s x with
      | none => orStay s (endTasks s l x (List.range x.n) 0x41 0)
      | some m =>
        let x := { x with met := m }
        if decide (m.length = x.deps.length) && !orderedHeld s x then .next (makeReady s l x) else .next (setLaunch s l x)

/-! ### Contexts (03 R108 to R110) -/

/-- A context entry of the table (03 R108): malformed when a reserved field or ROOT bits [10:0] are not zero. -/
def ctxDecode (e : Nat) : CtxEnt :=
  let bad : Bool := decide (bits e 0 1 = 1) && (decide (bits e 20 44 ≠ 0) || decide (bits e 64 11 ≠ 0) || decide (bits e 116 140 ≠ 0))
  { valid := decide (bits e 0 1 = 1) && !bad, bad := bad, part := BitVec.ofNat 4 (bits e 1 4), prio := BitVec.ofNat 3 (bits e 5 3),
    user := decide (bits e 8 1 = 1), vec := BitVec.ofNat 11 (bits e 9 11), root := BitVec.ofNat 52 (bits e 64 52) }

/-- CTX_REFRESH: the cached entry is read again, at T0 (01 R32, 06 R228). -/
def execCtxRefresh (ctx : BitVec 8) (s : State) : Out :=
  let pa := s.pkg.ctxTable.toNat + 32 * ctx.toNat
  if !s.pkg.ctxBusy || decide (bits s.pkg.ctxCmd.toNat 8 2 ≠ 1) || decide (bits s.pkg.ctxCmd.toNat 0 8 ≠ ctx.toNat) || s.emerg.isSome then .next s
  else match readAt s 0 (pa / 128) with
    | none => .next (holdRead s (pa / 128))
    | some s => .next { s with
        ctxs := tput CtxEnt.zero s.ctxs ctx.toNat (ctxDecode (perfNat s pa 32)), pkg := { s.pkg with ctxBusy := false } }

/-- A command runs on without a trace when its task is killed; a host core's command keeps its place (log 95). -/
def leaveCmd (s : State) (p : Nat × Cmd) : State :=
  match p.2.ref with
  | .task _ => setCmd s p.1 { p.2 with orphan := true }
  | .host _ => s

/-- Step 4 of R110 for one command: stopped, an install that has not committed ABORTED (06 R242); near-memory commands and committed
installs run on (04 R141). -/
def killCmd (s : State) (p : Nat × Cmd) : Option State :=
  match p.2.kind with
  | .install => match installAt s p.1 with
    | some i => if i.committed then some (leaveCmd s p) else failCmd (abandonInstall s i) p.1 eInstall 7 (blkField p.2.block 8 0 64)
    | none => failCmd s p.1 eInstall 7 (blkField p.2.block 8 0 64)
  | .matrix => some (delCmd (dequeueJob s p.2.core p.1) p.1)
  | .copy => some (delCmd s p.1)
  | .stream => some (delCmd s p.1)
  | _ => some (leaveCmd s p)

def killCmds (s : State) : List (Nat × Cmd) → Option State
  | [] => some s
  | p :: t => match killCmd s p with
    | none => none
    | some s => killCmds s t

/-- Step 5 of R110 for one task. -/
def killTask (t : Nat) (s : State) : Option State :=
  match taskAt s t with
  | none => some s
  | some x =>
    let s := failTask s t 0x43 0
    endTask s t x 0x43 0

def killTasks (s : State) : List Nat → Option State
  | [] => some s
  | t :: r => match killTask t s with
    | none => none
    | some s => killTasks s r

/-- Gangs with no task out: their tasks never start. -/
def killGangs (s : State) : List (Nat × Gang) → Option State
  | [] => some s
  | (g, x) :: r => match launchAt s x.launch with
    | none => killGangs (dropGang s g x) r
    | some l => match endTasks (dropGang s g x) x.launch l (gangLeft x) 0x43 0 with
      | none => none
      | some s => killGangs s r

def killWaiting (s : State) : List (Nat × Launch) → Option State
  | [] => some s
  | (l, x) :: r => match endTasks s l x (List.range x.n) 0x43 0 with
    | none => none
    | some s => killWaiting s r

def gangCtx (s : State) (g : Gang) : Nat := match launchAt s g.launch with | some l => l.tok.ctx | none => 256

/-- Steps 1 and 2 of R110: queued tokens of the contexts are cancelled; their promotions end and their pages wait no more. -/
def killQueued (s : State) (sel : Nat → Bool) : State :=
  let s := (s.lines.map (·.1)).foldl (fun s key => if (lineAt s key).queue.isEmpty then s else cancelToks s key (fun k => sel k.ctx)) s
  { s with
    promo := s.promo.map (fun p => (p.1, if p.2.busy && sel p.2.runCtx then { p.2 with killed := true } else p.2))
    pager := s.pager.filter (fun p => !sel p.ctx) }

/-- Step 3 of R110: the open regions of the contexts abort, without a status (10 R379), those of host cores among them (log 95). -/
def killRegions (s : State) (sel : Nat → Bool) : Option State :=
  ((tsome s.clutches).filter (fun p => p.2.region.isSome && sel (ctxOf s p.2))).foldl (fun a p =>
    a.bind (fun s => (completeAll s p.1).map (fun s => regionEnd s p.1 none))) (some s)

/-- The order of R110 for every context that `sel` names; none while a line that it updates is kept. -/
def killWhere (s : State) (sel : Nat → Bool) : Option State :=
  match (killRegions (killQueued s sel) sel).bind (fun s => killCmds s ((tsome s.cmds).filter (fun p => sel p.2.ctx && !p.2.ended))) with
  | none => none
  | some s1 =>
  let ts := ((tsome s1.tasks).filter (fun p => sel p.2.ctx)).map (·.1)
  match killTasks s1 ts with
  | none => none
  | some s2 => match killGangs s2 ((tsome s2.gangs).filter (fun p => sel (gangCtx s2 p.2))) with
    | none => none
    | some s3 => killWaiting s3 ((tsome s3.launches).filter (fun p => sel p.2.tok.ctx && p.2.state == .waiting))

/-- CTX_KILL: the order of R110, as far as the lines it updates are free. -/
def execCtxKill (ctx : BitVec 8) (s : State) : Out :=
  if !killing s ctx.toNat || !live s then .next s
  else match killWhere s (fun n => decide (n = ctx.toNat)) with
    | none => .next s
    | some s => .next (retryNext s)

/-- KILL_COMPLETE: nothing of the context is left; VEC is raised and BUSY clears. -/
def execKillComplete (s : State) : Out :=
  let n := bits s.pkg.ctxCmd.toNat 0 8
  if !killing s n || s.emerg.isSome || s.lines.any (fun p => p.2.queue.any (fun k => decide (k.ctx = n))) ||
     (tsome s.tasks).any (fun p => decide (p.2.ctx = n)) || (tsome s.launches).any (fun p => decide (p.2.tok.ctx = n)) then .next s
  else .next (raiseVec { s with pkg := { s.pkg with ctxBusy := false } } (ctxAt s n).vec.toNat)

end Sys2Proof.Machine
end

