-- ==== Sys2Proof/Machine/Placement.lean ====
section
/-! DEFINITION. Placement of gangs: candidates (04 R129), what fits (R133), the keys of R131, the layout of R132, and the order in
which gangs may take cores (R127, R143, R152). -/

namespace Sys2Proof.Machine

/-- A gang with its launch's context, line and record: what placement looks at. -/
structure Want where
  gang : Nat
  g    : Gang
  ctx  : Nat
  key  : Nat
  r    : Nat
  deriving DecidableEq, Repr

def wantOf (s : State) (gang : Nat) : Option Want :=
  match gangAt s gang with
  | none => none
  | some g => match launchAt s g.launch with
    | none => none
    | some l => some { gang := gang, g := g, ctx := l.tok.ctx, key := launchKeyOf l, r := l.record.toNat }

def wantPrio (s : State) (w : Want) : Nat := gangPrio s w.g

/-! ### Candidates (04 R129) -/

/-- Free ranges of a column bank outside the burrow. -/
def bankFit (s : State) (col n : Nat) : Option Nat := firstFit burrowBase n (colAt s col).allocs

/-- The column meets the conditions of R129; a package launch whose die instance was forwarded stays on that die (R126). -/
def candCol (s : State) (w : Want) (col : Nat) : Bool :=
  ctxCol s w.ctx col && (lineCols w.key).contains col &&
  (match w.g.die with | some d => decide (dieOf col = d) | none => true) &&
  (cbNeed w.r = 0 || (!(colAt s col).up.failed && !(colAt s col).down.failed && (bankFit s col (cbNeed w.r)).isSome))

/-! ### What fits (04 R133) -/

/-- The agent that holds a gang: that of its launch's line, or the die scheduler to which the package scheduler has forwarded it (04
R126). -/
def agentOf (w : Want) : Nat := match w.g.die with | some d => 64 + d | none => w.key / 8

/-- An earlier READY gang of the same agent. -/
def earlierReady (s : State) (w : Want) (p : Nat × Gang) : Bool :=
  decide (p.1 ≠ w.gang) && p.2.state == .ready && gangBefore s p.2 w.g && !gangBefore s w.g p.2 &&
  (match wantOf s p.1 with | some v => decide (agentOf v = agentOf w) | none => false)

/-- A gang's reservations stand: it is the first READY gang of its agent (04 R127). -/
def holdsCores (s : State) (p : Nat × Gang) : Bool :=
  p.2.state == .ready && (match wantOf s p.1 with | some w => !(tsome s.gangs).any (earlierReady s w) | none => false)

/-- Another gang has reserved the core (04 R127); reservations of a gang of lower priority do not hold back a higher one (R152; log
94). -/
def reservedBy (s : State) (me core : Nat) : Bool :=
  let prio := match gangAt s me with | some g => gangPrio s g | none => 0
  (tsome s.gangs).any (fun p => decide (p.1 ≠ me) && p.2.reserved.contains core && holdsCores s p && decide (prio ≤ gangPrio s p.2))

/-- The core's capacities hold one more task: the offset of its scratchpad range. -/
def roomOn (s : State) (r core : Nat) : Option Nat :=
  if gateAsked s core || isGated s core || decide (48 < slotsHeld s core + clutchesIn r) ||
     decide (4 < regionsUsed s core + recRegions r) || decide (8 < enginesUsed s core + recEngines r) then none
  else if spNeed r = 0 then some 0
  else firstFit 0x200000 (spNeed r) (spUsed s core)

/-- A task of a gang fits on a core (R133). -/
def fitsCore (s : State) (w : Want) (core : Nat) : Option Nat := roomOn s w.r core

/-- Where one task goes: core, scratchpad offset, column-bank base. -/
structure Seat where
  core : Nat
  sp   : Nat
  cb   : Nat
  deriving DecidableEq, Repr

/-- Column-bank bases for n tasks of one column, one after another. -/
def bankSeats (len : Nat) : Nat → List (Nat × Nat) → Option (List Nat)
  | 0, _ => some []
  | n + 1, used =>
    if len = 0 then (bankSeats len n used).map (0 :: ·)
    else match firstFit burrowBase len used with
      | none => none
      | some b => (bankSeats len n ((b, len) :: used)).map (b :: ·)

/-- Tasks on listed positions of a column; `ok` says which cores may be taken. -/
def fitColumn (s : State) (w : Want) (ok : Nat → Bool) (col : Nat) (ps : List Nat) : Option (List Seat) :=
  if !candCol s w col || decide (stackArea < (colAt s col).stackUsed + ps.length * stackNeed w.r) then none
  else match bankSeats (cbNeed w.r) ps.length (colAt s col).allocs with
    | none => none
    | some cbs => (ps.zip cbs).foldr (fun p (acc : Option (List Seat)) =>
        match acc, (if ok (4 * col + p.1) then fitsCore s w (4 * col + p.1) else none) with
        | some l, some sp => some ({ core := 4 * col + p.1, sp := sp, cb := p.2 } :: l)
        | _, _ => none) (some [])

/-! ### Instances and layouts (04 R131, R132) -/

/-- An instance of a gang's domain: its columns in order, the positions that each column's part takes, and a number for key 3. -/
structure Inst where
  cols  : List Nat
  parts : List (List Nat)
  no    : Nat
  deriving DecidableEq, Repr

/-- Positions of the parts of a gang of n tasks over columns: four to a column, the last what remains. -/
def chunks4 : Nat → Nat → List (List Nat)
  | 0, _ => []
  | fuel + 1, n => if n = 0 then [] else List.range (natMin n 4) :: chunks4 fuel (n - natMin n 4)

def affOf (w : Want) (cols : List Nat) : Nat := sumBy (fun c => tget 0 w.g.affinity c) cols

def hottest (s : State) (cols : List Nat) : Nat := (cols.map (fun c => (colAt s c).tj.toNat)).foldl max 0

/-- Keys of R131, the first that differs decides. -/
def instBefore (s : State) (w : Want) (a b : Inst) : Bool :=
  let x := affOf w a.cols
  let y := affOf w b.cols
  let t := hottest s a.cols
  let u := hottest s b.cols
  decide (y < x) || (decide (x = y) && (decide (t < u) || (decide (t = u) && decide (a.no ≤ b.no))))

def insInst (s : State) (w : Want) (a : Inst) : List Inst → List Inst
  | [] => [a]
  | b :: t => if instBefore s w a b then a :: b :: t else b :: insInst s w a t

def sortInsts (s : State) (w : Want) (l : List Inst) : List Inst := l.foldr (fun a r => insInst s w a r) []

/-- The columns of an instance in the order of R131. -/
def sortCols (s : State) (w : Want) (cols : List Nat) : List Nat :=
  (sortInsts s w (cols.map (fun c => { cols := [c], parts := [], no := c }))).flatMap (·.cols)

/-- The candidate instances of a gang's domain, in the order of R131; `fine` lists the cores of a core-domain gang one by one. -/
def instances (s : State) (w : Want) (fine : Bool) : List Inst :=
  let cs := (List.range 64).filter (candCol s w)
  let n := w.g.count
  let all : List Inst := match gangDom w.r with
    | 2 => if fine then cs.flatMap (fun c => (List.range 4).map (fun p => { cols := [c], parts := [[p]], no := 4 * c + p }))
           else cs.map (fun c => { cols := [c], parts := [[4]], no := c })
    | 3 => cs.flatMap (fun c => [{ cols := [c], parts := [[0, 2].take n], no := 2 * c }, { cols := [c], parts := [[1, 3].take n], no := 2 * c + 1 }])
    | 4 => cs.map (fun c => { cols := [c], parts := [List.range n], no := c })
    | 5 => ((List.range 4).filter (fun d => (dieCols d).all (fun c => cs.contains c))).map
        (fun d => { cols := sortCols s w (dieCols d), parts := chunks4 n n, no := d })
    | _ => if cs.length = 64 then [{ cols := sortCols s w cs, parts := chunks4 n n, no := 0 }] else []
  sortInsts s w all

/-- The fitting core of a column with the fewest resident clutches, in position order (R131). -/
def bestCore (s : State) (w : Want) (ok : Nat → Bool) (col : Nat) : Option Nat :=
  ((List.range 4).filter (fun p => ok (4 * col + p) && (fitsCore s w (4 * col + p)).isSome)).foldl (fun b p =>
    match b with
    | none => some p
    | some q => if (clutchesOn s (4 * col + p)).length < (clutchesOn s (4 * col + q)).length then some p else b) none

/-- The k-th part goes to the k-th fitting column. -/
def fitParts (s : State) (w : Want) (ok : Nat → Bool) : List Nat → List (List Nat) → Option (List Seat)
  | _, [] => some []
  | [], _ :: _ => none
  | c :: cs, ps :: r => match fitColumn s w ok c ps with
    | some l => (fitParts s w ok cs r).map (l ++ ·)
    | none => fitParts s w ok cs (ps :: r)

/-- Seats of every task of the gang in an instance, in task order. -/
def fitInst (s : State) (w : Want) (ok : Nat → Bool) (i : Inst) : Option (List Seat) :=
  match i.parts, i.cols with
  | [[4]], c :: _ => match bestCore s w ok c with
    | none => none
    | some p => fitColumn s w ok c [p]
  | ps, cs => fitParts s w ok cs ps

/-- The first instance in which the gang fits. -/
def fitFirst (s : State) (w : Want) (ok : Nat → Bool) : List Inst → Option (Inst × List Seat)
  | [] => none
  | i :: t => match fitInst s w ok i with
    | some l => some (i, l)
    | none => fitFirst s w ok t

/-! ### Order among gangs (04 R127, R143, R152) -/

/-- Columns to which a PREEMPTED gang of equal or higher priority returns first (R143). -/
def returnCols (s : State) (w : Want) : List Nat :=
  ((tsome s.gangs).filter (fun p => p.2.state == .preempted && decide (wantPrio s w ≤ gangPrio s p.2))).flatMap
    (fun p => p.2.tasks.filterMap (fun t => (taskAt s t).map (fun x => colOf x.core)))

/-- The cores that a gang may be given now: none that is reserved, none that an earlier gang can use, and none of a column that a
PREEMPTED gang takes. -/
def mayTake (s : State) (w : Want) : Nat → Bool :=
  let before := ((tsome s.gangs).filter (earlierReady s w)).filterMap (fun p => wantOf s p.1)
  let held := returnCols s w
  fun core => !held.contains (colOf core) && !reservedBy s w.gang core &&
    !before.any (fun v => candCol s v (colOf core) && (fitsCore s v core).isSome && !reservedBy s v.gang core)

end Sys2Proof.Machine
end

