-- ==== Sys2Proof/Machine/Sched.lean ====
section
/-! DEFINITION. From READY to resident: pre-translation (04 R128, 06 R212), reservation (04 R127), dispatch and task start (R126,
R131 to R133, 03 R117, 05 R155). -/

namespace Sys2Proof.Machine

/-! ### Pre-translation (04 R128, R130) -/

/-- The outcome of a page of a declared extent. -/
inductive PreRes where
  | absent (va access : Nat)
  | denied
  | wait
  | ok (frames : List Nat)
  deriving DecidableEq, Repr

/-- Entry of a frame map: frame [35:0], PLACE and I [38:36] (06 R212). -/
def mapEntry (pa perm : Nat) : Nat := pa / 65536 + bits perm 4 3 * 2 ^ 36

/-- One page: it is mapped with the declared R and W, and with U for a USER context. -/
def prePage (s : State) (ctx e va : Nat) : PreRes :=
  if promoHolds s ctx va then .wait
  else match walk s ctx va with
    | .page => .absent va (bits e 60 2)
    | .protection => .denied
    | .wait => .wait
    | .ok f sz p =>
      if (bits e 60 1 = 1 ∧ bits p 0 1 = 0) ∨ (bits e 61 1 = 1 ∧ bits p 1 1 = 0) ∨ ((ctxAt s ctx).user = true ∧ bits p 3 1 = 0) then .denied
      else .ok [mapEntry (f + va % sz) p]

/-- The pages of an extent, in order: the first page that is not mapped as declared decides. -/
def prePages (s : State) (ctx e : Nat) : Nat → Nat → PreRes
  | 0, _ => .ok []
  | n + 1, va => match prePage s ctx e va with
    | .ok f => match prePages s ctx e n (va + 65536) with
      | .ok fs => .ok (f ++ fs)
      | r => r
    | r => r

def isTranslated (e : Nat) : Bool :=
  decide (extPages e ≠ 0) && (decide (windowOf (extBase e) = .global) || decide (windowOf (extBase e) = .weight))

/-- The frames of every global-window and weight-window extent, with the extent's place. -/
def preAll (s : State) (ctx : Nat) : List (Nat × Nat) → Except PreRes (List (Nat × Nat × List Nat))
  | [] => .ok []
  | (i, e) :: t =>
    if !isTranslated e then preAll s ctx t
    else match prePages s ctx e (extPages e) (extBase e) with
      | .ok fs => (preAll s ctx t).map ((i, e, fs) :: ·)
      | r => .error r

/-- A(c) of a list of frames: the home slices of the first 32,768 granules of 2 KiB (04 R130). -/
def affinityOf (s : State) (fs : List Nat) (a : Tab Nat) : Tab Nat :=
  (fs.take 1024).foldl (fun a f => (List.range 32).foldl (fun a k =>
    match homeSlice s (bits f 0 36 * 65536 + 2048 * k) with
    | some c => tput 0 a c (tget 0 a c + 1)
    | none => a) a) a

/-- Ranges of the extent store for frame maps, one after another (06 R212). -/
def storeFit (s : State) : List Nat → List (Nat × Nat) → Option (List (Nat × Nat))
  | [], _ => some []
  | n :: t, used => match firstFit (storeLen s) (8 * n) used with
    | none => none
    | some o => (storeFit s t ((o, 8 * n) :: used)).map ((o, 8 * n) :: ·)

/-- An extent-table entry (06 R211). -/
def extEntry (e map kind : Nat) : Extent :=
  { vbase := BitVec.ofNat 40 (bits e 0 40), pages := BitVec.ofNat 20 (extPages e), r := decide (bits e 60 1 = 1),
    w := decide (bits e 61 1 = 1), stale := false, map := BitVec.ofNat 52 map, kind := BitVec.ofNat 2 kind }

def winKind (e : Nat) : Nat := if windowOf (extBase e) = .weight then 1 else 0

/-- Write bytes line by line, each with its tokens at its home die (07 R250); none while one is kept. -/
def performRange (s : State) (pa : Nat) (bs : List Byte) : Option State :=
  ((pieces pa bs.length).foldl (fun a p => a.bind (fun (q : State × List Byte) =>
    (performAt q.1 (homeTower q.1 p.1) p.1 (q.2.take p.2)).map (fun s => (s, q.2.drop p.2)))) (some (s, bs))).map (·.1)

/-- The gang's extent table is built; its frame maps go to the extent store when that has room (R212). -/
def preDone (s : State) (gang : Nat) (g : Gang) (fs : List (Nat × Nat × List Nat)) : Option State :=
  let aff := (fs.filter (fun p => decide (winKind p.2.1 = 0))).foldl (fun a p => affinityOf s p.2.2 a) []
  let put := fun (t : Tab Extent) (i : Nat) (x : Extent) => tput Extent.zero t i x
  let ready := fun (x : Tab Extent) (st : List (Nat × Nat)) => { g with state := .ready, extents := x, store := st, affinity := aff }
  if storeLen s = 0 then
    some (setGang s gang (ready (fs.foldl (fun t p => put t p.1 (extEntry p.2.1 0 (winKind p.2.1))) []) []))
  else match storeFit s (fs.map (fun p => p.2.2.length)) s.pkg.storeUsed with
    | none => none
    | some st =>
      let zs := fs.zip st
      match zs.foldl (fun a z => a.bind (fun s => performRange s (storeBase s + z.2.1) (z.1.2.2.flatMap (leBytes 8)))) (some s) with
      | none => none
      | some s =>
      let x := zs.foldl (fun t z => put t z.1.1 (extEntry z.1.2.1 (storeBase s + z.2.1) (winKind z.1.2.1))) []
      some (setGang { s with pkg := { s.pkg with storeUsed := st ++ s.pkg.storeUsed } } gang (ready x st))

/-- The address of a launch's record. -/
def launchRecordVa (s : State) (w : Want) : Nat := match launchAt s w.g.launch with | some l => tokRecord l.tok.bits | none => 0

/-- The declared extents that are translated, by place. -/
def declared (w : Want) : List (Nat × Nat) := ((List.range 16).zip (recExtents w.r)).filter (fun p => isTranslated p.2)

/-- Is a kept table that of the launch's record? -/
def isTableOf (s : State) (w : Want) (x : ExtCached) : Bool :=
  decide (x.col = w.key / 8) && decide (x.ctx = w.ctx) && decide (x.record = launchRecordVa s w)

/-- The translated extent table that the column's launcher keeps for the record (03 R122). -/
def cachedTable (s : State) (w : Want) : Option (List (Nat × Nat × List Nat)) :=
  ((s.extCache.find? (isTableOf s w)).map (·.frames)).bind (fun fs =>
    if fs.map (fun p => (p.1, p.2.1)) = declared w then some fs else none)

/-- A column's launcher keeps the tables of its 8 most recent records (03 R122). -/
def keepTable (s : State) (w : Want) (fs : List (Nat × Nat × List Nat)) : State :=
  if 64 ≤ w.key / 8 then s
  else
    let x : ExtCached := { col := w.key / 8, ctx := w.ctx, record := launchRecordVa s w,
                           exts := fs.map (fun p => extEntry p.2.1 0 (winKind p.2.1)), frames := fs }
    let mine := (s.extCache.filter (fun y => decide (y.col = w.key / 8) && !isTableOf s w y)).take 7
    { s with extCache := x :: mine ++ s.extCache.filter (fun y => decide (y.col ≠ w.key / 8)) }

/-- The translation of a gang's extents: as kept, or by the page-walk unit. -/
def translateExtents (s : State) (w : Want) : Except PreRes (List (Nat × Nat × List Nat)) :=
  match cachedTable s w with
  | some fs => .ok fs
  | none => preAll s w.ctx ((List.range 16).zip (recExtents w.r))

/-- Pages of the extents that a gang's pre-translation walks. -/
def preVas (s : State) (w : Want) : List Nat :=
  if (cachedTable s w).isSome then []
  else (declared w).flatMap (fun p => (List.range (extPages p.2)).map (fun j => extBase p.2 + 65536 * j))

/-- Every task of a gang that has none out ends with the gang's code. -/
def endGang (s : State) (gang : Nat) (g : Gang) : Option State :=
  match launchAt s g.launch with
  | none => some (dropGang s gang g)
  | some l => (endTasks (dropGang s gang g) g.launch l (gangLeft g) g.fail 0).map
      (fun s => retryNext (settleLaunch s g.launch))

/-- PRE_TRANSLATION of a gang; a gang that is to end does so. -/
def execPreTranslation (gang : Nat) (s : State) : Out :=
  match wantOf s gang with
  | none => .next s
  | some w =>
    if !live s then .next s
    else if w.g.state == .ended then orStay s (endGang s gang w.g)
    else if w.g.state != .translating || killing s w.ctx then .next s
    else match walksAt s (agentDie w.key) w.ctx (preVas s w) with
    | none => .next s
    | some s => match translateExtents s w with
      | .ok fs => orStay s ((preDone (keepTable s w fs) gang w.g fs).map (fun s => startNext s [.gangDispatch gang]))
      | .error .denied =>
        let g := { w.g with state := .ended, fail := 0x08 }
        .next (startNext (setGang s gang g) [.preTranslation gang])
      | .error (.absent va access) =>
        let col := (lineCols w.key).headD 0
        let s := pagerFile (setGang s gang { w.g with state := .held }) w.ctx (va / 65536) col access 0 (.gangTranslation gang)
        .next (startNext s [.pagerRecord])
      | .error _ => .next s

/-! ### Reservation (04 R127) -/

/-- The cores that a gang would take in an instance with every core empty (R132). -/
def layoutCores (i : Inst) : List Nat := (i.cols.zip i.parts).flatMap (fun p => p.2.map (fun q => 4 * p.1 + q))

/-- GANG_RESERVE: the oldest READY gang of the highest priority of its agent, of domain die or package, that does not fit,
reserves the free cores of its target. A gang that another has overtaken gives its reservations up. -/
def execGangReserve (gang : Nat) (s : State) : Out :=
  match wantOf s gang with
  | none => .next s
  | some w =>
    let is := instances s w false
    if !live s || killing s w.ctx || w.g.state != .ready || decide (gangDom w.r < 5) || (fitFirst s w (mayTake s w) is).isSome then .next s
    else if (tsome s.gangs).any (earlierReady s w) then .next (setGang s gang { w.g with target := none, reserved := [] })
    else
      let keep := is.find? (fun i => decide (w.g.target = some i.no))
      match (match keep with | some i => some i | none => is.head?) with
      | none => .next (setGang s gang { w.g with target := none, reserved := [] })
      | some i =>
        let old := if keep.isSome then w.g.reserved else []
        let new := (layoutCores i).filter (fun c => !old.contains c && mayTake s w c && (fitsCore s w c).isSome)
        .next (setGang s gang { w.g with target := some i.no, reserved := old ++ new })

/-! ### Dispatch -/

/-- The scope of the acquire at task start (03 R117). -/
def startScope (l : Launch) : Scope := if l.tok.host then .sys else recScope l.record.toNat

/-- Clutch number ci of a task at its start (03 R117, 05 R155), in the lowest free slot (log 102); of ENTRY bits [55:3] count (log 101). -/
def startClutch (l : Launch) (t : Nat) (x : Task) (s : State) (ci : Nat) : State :=
  let r := l.record.toNat
  let cid := 64 + s.pkg.serial
  let tok := l.tok.bits.toNat
  let args := if tokArgs l.tok.bits ≠ 0 then tokArgs l.tok.bits else recArgs r
  let pc := BitVec.ofNat 53 (bits (recEntry r) 3 53)
  let lanes := (List.range (lanesIn r)).map (fun i => (i, { startLane i pc with levelIdx := levelIdx r x.number ci i }))
  let slot := lowestFree 48 (slotsUsed s x.core)
  let a0 : AReg := { ptr := BitVec.ofNat 64 (bits args 0 56), base := BitVec.ofNat 56 args,
                     limit := BitVec.ofNat 56 (bits args 0 56 + 64 * bits args 56 8), r := true, w := false, x := false }
  let c : Clutch := { deadClutch with
    task := some t, index := ci, lanes := lanes, a := [(0, a0)], core := x.core, homeCore := x.core, slot := slot, homeSlot := slot,
    quad := pickQuad s x.core cid, level := if x.user then 0 else 1,
    s := (List.range 8).foldl (fun m i => tput 0 m i (BitVec.ofNat 32 (bits tok (256 + 32 * i) 32))) [] }
  let s := { s with pkg := { s.pkg with serial := s.pkg.serial + 1 } }
  setClutch (modTask s t (fun y => { y with clutches := y.clutches ++ [cid] })) cid c

/-- The extent table of a task: the gang's, and the column-bank extent bound to the allocation (04 R128, 06 R211). -/
def taskExtents (g : Gang) (r col cb : Nat) : Tab Extent :=
  ((List.range 16).zip (recExtents r)).foldl (fun t p =>
    if extPages p.2 ≠ 0 ∧ windowOf (extBase p.2) = .colBank then
      tput Extent.zero t p.1 (extEntry p.2 (bankBase + col * (4 * gib) + cb) 2)
    else t) g.extents

/-- A task starts in its seat: occupancy is taken, its clutches stand at ENTRY, and its core acquires. -/
def startTask (l : Launch) (gang : Nat) (g : Gang) (s : State) (p : Nat × Seat) : State :=
  let r := l.record.toNat
  let col := colOf p.2.core
  let id := s.pkg.serial
  let x : Task :=
    { gang := gang, launch := g.launch, ctx := l.tok.ctx, number := p.1, core := p.2.core, prio := launchPrio s l,
      user := (ctxAt s l.tok.ctx).user, state := .resident, order := s.pkg.order, stackN := recStack r,
      handler := BitVec.ofNat 64 (recHandler r), spOff := p.2.sp, szS := spPart r 0, szQ := spPart r 1, szG := spPart r 2,
      szJ := spPart r 3, regions := recRegions r, engines := recEngines r, cbBase := p.2.cb, cbLen := cbNeed r,
      extents := taskExtents g r col p.2.cb, queues := [], qAddr := [], rings := [], bars := [], engs := [], engTrap := 0,
      clutches := [], pub := tget [] g.pubs p.1, image := none, imageSp := [], fifos := [], failed := none }
  let s := { s with pkg := { s.pkg with serial := id + 1, order := s.pkg.order + 1 } }
  let s := modCol (allocBank s col p.2.cb (cbNeed r)) col (fun k => { k with stackUsed := k.stackUsed + stackNeed r })
  let s := setTask s id x
  let s := (List.range (clutchesIn r)).foldl (startClutch l id x) s
  let s := match gangAt s gang with
    | some y => setGang s gang { y with tasks := y.tasks ++ [id], cores := y.cores ++ [p.2.core], stack := y.stack ++ [(col, stackNeed r)] }
    | none => s
  acquireOp s p.2.core (startScope l)

/-- The die on which a package launch's gang is placed: the first by R131 of those in which it fits now (04 R126). -/
def bestDie (s : State) (w : Want) : Option Nat :=
  let cs := (List.range 64).filter (candCol s w)
  let is := instances s w false
  ((sortInsts s w ((List.range 4).map (fun d => { cols := cs.filter (fun c => decide (dieOf c = d)), parts := [], no := d }))).find? (fun i =>
    (fitFirst s w (mayTake s w) (is.filter (fun j => j.cols.all (fun c => i.cols.contains c)))).isSome)).map (·.no)

/-- The package scheduler forwards a gang narrower than die to a die, with every gang of its instance of the outermost die level
(04 R126). -/
def forwardDie (s : State) (w : Want) : State :=
  if w.key / 8 ≠ 68 ∨ 5 ≤ gangDom w.r ∨ w.g.die.isSome = true then s
  else match bestDie s w with
    | none => s
    | some d =>
      let n := (tasksPerDie w.r).getD w.g.count
      (gangsOf s w.g.launch).foldl (fun s q =>
        if q.2.first / (max n 1) = w.g.first / (max n 1) then setGang s q.1 { q.2 with die := some d } else s) s

/-- The gang takes its seats; a task that has terminated before a requeue starts no more (04 R144). -/
def seatGang (s : State) (w : Want) (l : Launch) (seats : List Seat) : State :=
  let g := (gangAt s w.gang).getD w.g
  let s := setGang s w.gang { g with state := .resident, tasks := [], cores := [], stack := [], reserved := [], target := none }
  let s := ((((List.range w.g.count).map (fun i => w.g.first + i)).zip seats).filter (fun p => !g.over_.contains p.1)).foldl (startTask l w.gang g) s
  settleLaunch s w.g.launch

/-- GANG_DISPATCH: a READY gang that fits a candidate instance now takes the first of them (R131), of the die that it goes to (R126); else
pre-emption is looked at, and a gang of domain die or package reserves cores (R127). -/
def execGangDispatch (gang : Nat) (s : State) : Out :=
  match wantOf s gang with
  | none => .next s
  | some w => match launchAt s w.g.launch with
    | none => .next s
    | some l =>
      if !live s || killing s w.ctx || w.g.state != .ready then .next s
      else
        let s1 := forwardDie (freeStacks s w.g.stack) w
        let w := (wantOf s1 gang).getD w
        match fitFirst s1 w (mayTake s1 w) (instances s1 w false) with
        | some (_, seats) => .next (seatGang s1 w l seats)
        | none => .next (startNext s1 [.preemption gang, .gangReserve gang])

end Sys2Proof.Machine
end

