-- ==== Sys2Proof/Machine/Preempt.lean ====
section
/-! DEFINITION. Gangs that leave their cores and come back: pre-emption (04 R140 to R143), requeue (R144), and thermal migration
(R146 to R148). Each sequence of the spec is one step: its bounds are timing. -/

namespace Sys2Proof.Machine

/-! ### Stopping tasks (04 R141) -/

/-- A word in which a clutch waits is executed again after the clutch has stopped (12 R463); its waits count from 0 (04 R139). -/
def stopWait (c : Clutch) : Clutch :=
  { c with
    waitCount := 0
    wait := match c.wait with
      | some w => (match w.kind with
        | .tlwait => none | .join => none | .waitaddr => none | .sbar => none | .bar => none | .vfifo => none | .launchLine => none
        | _ => some w)
      | none => none }

/-- Open regions of a task's clutches abort with PREEMPT. Every result is completed first. -/
def stopClutches (s : State) : List Nat → Option State
  | [] => some s
  | c :: t => match completeAll s c with
    | none => none
    | some s => stopClutches (modClutch (regionAbort s c stPreempt) c stopWait) t

/-- The matrix job that runs, `head`, saves its loop counters and leaves the queue; after its last tile it is over (11 R413, R415). Jobs
that have not started only leave the queue. -/
def stopJob (s : State) (x : Task) (head : Option Nat) (p : Nat × Cmd) : State :=
  let s1 := dequeueJob s p.2.core p.1
  let c := cardOf p.2.block
  if head ≠ some p.1 then setCmd s1 p.1 { p.2 with stopped := true }
  else if c.tiles ≤ p.2.progress then setCmd (saveArea s1 x c 2 c.tiles [] [] 0 0) p.1 { p.2 with ended := true }
  else setCmd (saveArea s1 x c 1 p.2.progress (radix p.2.progress c.outCounts) ((c.kCounts).map (fun _ => 0)) 0 0) p.1
    { p.2 with stopped := true }

/-- Commands stop at their stopping points (04 R141, R148). -/
def stopEach (s : State) (x : Task) (ps : List (Nat × Cmd)) : State :=
  let head := (coreAt s x.core).jobs.head?
  ps.foldl (fun s p => if p.2.kind = .matrix then stopJob s x head p else setCmd s p.1 { p.2 with stopped := true }) s

/-- Engines stop: matrix jobs, copies and streams; the rest runs on detached (04 R141, R142). -/
def stopCmds (s : State) (t : Nat) (x : Task) : State :=
  stopEach s x ((taskCmds s t).filter (fun p => !detachedKind p.2.kind && !p.2.ended))

/-- `SCHED_EVT` field i of a column, saturating (04 R150). -/
def schedCount (s : State) (col i : Nat) : State :=
  modCol s col (fun k =>
    let v := k.schedEvt.toNat
    { k with schedEvt := BitVec.ofNat 64 (setBits v (16 * i) 16 (natMin (bits v (16 * i) 16 + 1) 0xFFFF)) })

/-- An image is written to its slot (04 R134, R141): the lines that it takes, a free choice, have new codewords (01 R32); writes over a
FAILED bus are discarded (R31; log 105). -/
def imageOut (s : State) (col slot : Nat) : State :=
  if busFailed s col then s
  else (bankErrLines s (imageLine col slot) (imageBytes / 128)).foldl (fun s line =>
    let (b, s) := freeF s
    if b then { s with bankErr := s.bankErr.filter (fun p => decide (p.1 / 16 ≠ line)) } else s) s

/-- One task is pre-empted: the release, the image in the slot that it keeps until it terminates (R135), and its core's resources. -/
def preemptTask (s : State) (t : Nat) : Option State :=
  match taskAt s t with
  | none => some s
  | some x => match stopClutches s x.clutches with
    | none => none
    | some s =>
      let s := stopCmds s t x
      match releaseCores .column s (taskCores s x) with
      | none => none
      | some s =>
        let x := (taskAt s t).getD x
        let col := colOf x.core
        let slot := x.image.getD (lowestFree imageSlots (colAt s col).images)
        let s := if x.image.isSome then s else modCol s col (fun k => { k with images := k.images ++ [slot] })
        let keys := [fifoOut x.gang x.core, fifoIn x.gang x.core]
        let s := setTask s t { x with
          state := .preempted, image := some slot,
          imageSp := (List.range (allocLen x)).foldl (fun m i => tput 0 m i (spGet s x.core (x.spOff + i))) [] }
        let s := imageOut s col slot
        let s := keys.foldl (fun s k => setFifo s k []) s
        some (schedCount (gateNext s [x.core]) col 0)

def preemptTasks (s : State) : List Nat → Option State
  | [] => some s
  | t :: r => match preemptTask s t with
    | none => none
    | some s => preemptTasks s r

/-- A whole gang is pre-empted. Both tasks of a pair save its FIFOs, as they stand before either goes. -/
def preemptGang (s : State) (p : Nat × Gang) : Option State :=
  let saved := p.2.tasks.filterMap (fun t => (taskAt s t).map (fun x =>
    (t, [fifoOut p.1 x.core, fifoIn p.1 x.core].foldl (fun m k => tput [] m (k % 2) (fifoAt s k)) [])))
  (preemptTasks s p.2.tasks).map (fun s =>
    let s := saved.foldl (fun s q => modTask s q.1 (fun x => { x with fifos := q.2 })) s
    match gangAt s p.1 with
    | some g => setGang s p.1 { g with state := .preempted }
    | none => s)

def preemptGangs (s : State) : List (Nat × Gang) → Option State
  | [] => some s
  | p :: r => match preemptGang s p with
    | none => none
    | some s => preemptGangs s r

/-! ### Choosing victims (04 R140) -/

/-- The column in which a task's image would stand, if it holds no slot there yet: that of its core, or of the seat to which it migrates
(04 R135, R151). -/
def slotCol (s : State) (g : Gang) (t : Nat) : Option Nat :=
  match (g.tasks.zip g.seats).find? (fun q => decide (q.1 = t)), taskAt s t with
  | some q, _ => some (colOf q.2.1)
  | none, some x => if x.image.isNone then some (colOf x.core) else none
  | none, none => none

/-- Tasks of a gang that need a slot in a column. -/
def slotsIn (s : State) (c : Nat) (g : Gang) : Nat := (g.tasks.filter (fun t => decide (slotCol s g t = some c))).length

/-- Image slots of a column in use, or promised to gangs whose pre-emption waits for their migration's end (04 R151). -/
def slotsTaken (s : State) (c : Nat) : Nat :=
  (colAt s c).images.length + sumBy (fun p => slotsIn s c p.2) ((tsome s.gangs).filter (fun p => p.2.doomed))

/-- The image slots that a list of gangs needs are free; those of doomed gangs are promised. -/
def slotsFor (s : State) (gs : List Gang) : Bool :=
  (List.range 64).all (fun c => decide (slotsTaken s c + sumBy (slotsIn s c) (gs.filter (fun g => !g.doomed)) ≤ imageSlots))

/-- A gang that may be removed for priority p: all its tasks PREEMPTIBLE, resident or migrating, below p, with an image slot for each. -/
def isVictim (s : State) (p : Nat) (g : Gang) : Bool :=
  (g.state == .resident || g.state == .migrating) &&
  (match launchAt s g.launch with | some l => recPreemptible l.record.toNat | none => false) &&
  g.tasks.all (fun t => match taskAt s t with | some x => decide (x.prio < p) && x.failed.isNone | none => false) && slotsFor s [g]

def gangPrioNow (s : State) (g : Gang) : Nat := (g.tasks.filterMap (fun t => (taskAt s t).map (·.prio))).foldl max 0
def gangOrder (s : State) (g : Gang) : Nat := (g.tasks.filterMap (fun t => (taskAt s t).map (·.order))).foldl max 0

/-- Victims in order: lowest priority, then most recent dispatch. -/
def insVictim (s : State) (a : Nat × Gang) : List (Nat × Gang) → List (Nat × Gang)
  | [] => [a]
  | b :: t =>
    if gangPrioNow s a.2 < gangPrioNow s b.2 ∨ (gangPrioNow s a.2 = gangPrioNow s b.2 ∧ gangOrder s b.2 ≤ gangOrder s a.2) then a :: b :: t
    else b :: insVictim s a t

/-- The state with some gangs out, as far as occupancy goes. -/
def without (s : State) (gs : List (Nat × Gang)) : State :=
  gs.foldl (fun s p => setGang (p.2.tasks.foldl (fun s t => modTask s t (fun x => { x with state := .preempted })) s) p.1
    { p.2 with seats := [] }) s

/-- The shortest run of victims that makes the gang fit an instance. -/
def victimsFor (s : State) (w : Want) (i : Inst) : List (Nat × Gang) → List (Nat × Gang) → Option (List (Nat × Gang))
  | taken, [] => if taken.isEmpty then none else if (fitInst (without s taken) w (mayTake s w) i).isSome then some taken else none
  | taken, v :: t =>
    if !taken.isEmpty && (fitInst (without s taken) w (mayTake s w) i).isSome then some taken
    else if slotsFor s ((taken ++ [v]).map (·.2)) then victimsFor s w i (taken ++ [v]) t else victimsFor s w i taken t

/-- The cores of an instance. -/
def instCores (w : Want) (i : Inst) : List Nat :=
  if gangDom w.r < 5 then layoutCores i else i.cols.flatMap (fun c => (List.range 4).map (fun p => 4 * c + p))

/-- Victims of every instance, with the keys of R140; the instances stand in the order of R131. -/
def choices (s : State) (w : Want) : List (Nat × Nat × List (Nat × Gang)) :=
  (instances s w true).filterMap (fun i =>
    let here := (tsome s.gangs).filter (fun p => isVictim s (wantPrio s w) p.2 &&
      (p.2.tasks.any (fun t => match taskAt s t with | some x => (instCores w i).contains x.core | none => false) ||
       p.2.seats.any (fun q => (instCores w i).contains q.1)))
    (victimsFor s w i [] (here.foldr (fun a r => insVictim s a r) [])).map (fun vs =>
      ((vs.map (fun v => gangPrioNow s v.2)).foldl max 0, sumBy (fun v => v.2.tasks.length) vs, vs)))

def bestChoice : List (Nat × Nat × List (Nat × Gang)) → Option (Nat × Nat × List (Nat × Gang))
  | [] => none
  | a :: t => match bestChoice t with
    | none => some a
    | some b => if a.1 < b.1 ∨ (a.1 = b.1 ∧ a.2.1 ≤ b.2.1) then some a else some b

/-- A pre-emption chosen for a migrating gang waits until the migration ends (04 R151). -/
def doom (s : State) (p : Nat × Gang) : State :=
  match gangAt s p.1 with
  | some g => setGang s p.1 { g with doomed := true }
  | none => s

/-- The chosen victims go, those that migrate at the migration's end. -/
def preemptAll (s : State) (vs : List (Nat × Gang)) : Option State :=
  (preemptGangs s (vs.filter (fun p => p.2.state != .migrating))).map (fun s =>
    (vs.filter (fun p => p.2.state == .migrating)).foldl doom s)

/-- PREEMPTION for a READY gang that fits no candidate instance, whatever other gangs have claimed. -/
def execPreemption (gang : Nat) (s : State) : Out :=
  match wantOf s gang with
  | none => .next s
  | some w =>
    if !live s || killing s w.ctx || w.g.state != .ready || (fitFirst s w (fun _ => true) (instances s w false)).isSome then .next s
    else match bestChoice (choices s w) with
      | none => .next s
      | some (_, _, vs) => orStay s ((preemptAll s vs).map (fun s => startNext s [.gangDispatch gang]))

/-! ### Resumption (04 R143) -/

/-- The core may be taken by a returning task: room, and no reservation but on the core it left. -/
def fitsBack (s : State) (gang r old core : Nat) : Option Nat :=
  if core ≠ old && reservedBy s gang core then none else roomOn s r core

/-- The position of a core's pair mate counts from its pair: + 2 on the upper tier. -/
def tierUp (core : Nat) : Nat := if upperTier core then 2 else 0

/-- A pair of tasks takes pair a or b of its column, each task on its tier; another task takes any core (04 R143): the first that
fits in position order (log 103). The result gives
task, core and scratchpad offset. -/
def backSeat (s : State) (gang r : Nat) (taken : List Nat) (grp : List (Nat × Task)) : Option (List (Nat × Nat × Nat)) :=
  let place := fun (p : Nat) (q : Nat × Task) =>
    let core := 4 * colOf q.2.core + p
    if taken.contains core then none else (fitsBack s gang r q.2.core core).map (fun sp => (q.1, core, sp))
  match grp with
  | [a, b] => [0, 1].findSome? (fun k => match place (k + tierUp a.2.core) a, place (k + tierUp b.2.core) b with
    | some x, some y => some [x, y]
    | _, _ => none)
  | [a] => [0, 1, 2, 3].findSome? (fun p => (place p a).map (fun x => [x]))
  | _ => none

/-- Seats for every group of returning tasks. -/
def backSeats (s : State) (gang r : Nat) : List (List (Nat × Task)) → List Nat → Option (List (Nat × Nat × Nat))
  | [], _ => some []
  | g :: rest, taken => match backSeat s gang r taken g with
    | none => none
    | some l => (backSeats s gang r rest (l.map (·.2.1) ++ taken)).map (l ++ ·)

/-- The tasks of a gang in groups: whole pairs first, then the others. -/
def backTasks (s : State) (g : Gang) : List (List (Nat × Task)) :=
  let ts := g.tasks.filterMap (fun t => (taskAt s t).map (fun x => (t, x)))
  let mate := fun (p : Nat × Task) => ts.find? (fun q => decide (q.2.core = partner p.2.core))
  ts.filterMap (fun p => if upperTier p.2.core then none else (mate p).map (fun q => [p, q])) ++
    (ts.filter (fun p => (mate p).isNone)).map (fun p => [p])

/-- Poisoned rows of an image as it is read back: all over a FAILED bus (01 R31), else those of a line with an uncorrectable error that
hold a row, a free choice (R32; log 105). -/
def imageRows (col slot : Nat) (s : State) (cid : Nat) : State :=
  if busFailed s col then (clutchWords (clutchAt s cid)).foldl (recallRow true cid) s
  else (bankErrLines s (imageLine col slot) (imageBytes / 128)).foldl (recallLine cid col) s

/-- The scratchpad bytes of an image as they are read back: free ones over a FAILED bus (01 R31; log 105). -/
def imageBytesOf (s : State) (col : Nat) (x : Task) : Tab Byte × State :=
  if x.image.isSome && busFailed s col then
    let r := freeBytes s (allocLen x)
    ((r.1.zip (List.range (allocLen x))).foldl (fun m p => tput 0 m p.2 p.1) [], r.2)
  else (x.imageSp, s)

/-- Write a task's scratchpad image at its new place. -/
def restoreSp (s : State) (core off len : Nat) (img : Tab Byte) : State :=
  (List.range len).foldl (fun s i => spPut s core (off + i) (tget 0 img i)) s

/-- The clutches of a task have their home on a core, each in the lowest free slot and in a quadrant picked anew (log 102); those that are not landed elsewhere stand
there. Slot 48 marks a clutch not yet seated. -/
def seatClutches (s : State) (core : Nat) (cs : List Nat) : State :=
  let s := cs.foldl (fun s c => modClutch s c (fun k =>
    let k := { k with homeCore := core, homeSlot := 48 }
    if k.pad.isSome then k else { k with core := core, slot := 48 })) s
  cs.foldl (fun s c =>
    let slot := lowestFree 48 (slotsUsed s core)
    let q := pickQuad s core c
    modClutch s c (fun k => if k.pad.isSome then { k with homeSlot := slot } else { k with homeSlot := slot, slot := slot, quad := q })) s

/-- A task's commands follow it to a core: matrix jobs enter its queue in issue order. -/
def moveCmds (s : State) (core : Nat) (ps : List (Nat × Cmd)) : State :=
  ps.foldl (fun s p =>
    let s := setCmd s p.1 { p.2 with core := core, stopped := false }
    if p.2.kind = .matrix ∧ p.2.ended = false then setCore s core { coreAt s core with jobs := (coreAt s core).jobs ++ [p.1] } else s) s

/-- One task resumes on a core: the image comes back and its core acquires at column scope. -/
def resumeTask (gang : Nat) (s : State) (p : Nat × Nat × Nat) : State :=
  match taskAt s p.1 with
  | none => s
  | some x =>
    let img := imageBytesOf s (colOf x.core) x
    let s := restoreSp img.2 p.2.1 p.2.2 (allocLen x) img.1
    let s := match x.image with
      | some slot => x.clutches.foldl (imageRows (colOf x.core) slot) s
      | none => s
    let s := setTask s p.1 { x with state := .resident, core := p.2.1, spOff := p.2.2, imageSp := [], fifos := [] }
    let s := x.clutches.foldl (fun s c => modClutch s c (fun k => { k with pad := none })) s
    let s := seatClutches s p.2.1 x.clutches
    let s := moveCmds s p.2.1 ((taskCmds s p.1).filter (fun q => q.2.stopped))
    let s := if x.fifos.isEmpty then s else setFifo (setFifo s (256 * gang + 2 * pairOf p.2.1) (tget [] x.fifos 0))
      (256 * gang + 2 * pairOf p.2.1 + 1) (tget [] x.fifos 1)
    acquireOp s p.2.1 .column

/-- A column-bank allocation is copied to another place, poison with its lines (04 R148). -/
def moveBank (s : State) (src dst len : Nat) : Option State :=
  (flushLines s ((List.range (len / 128)).map (fun i => src / 128 + i))).bind (fun s =>
    copyLines (dieOf ((dst - bankBase) / (4 * gib))) s ((List.range (len / 128)).map (fun i => (src / 128 + i, dst / 128 + i))))

/-- A seat is reserved for a task: besides the core's capacities, its column-bank range and stack area (04 R148). -/
def reserveSeat (s : State) (p : Nat × Seat) : State :=
  match taskAt s p.1 with
  | none => s
  | some x =>
    let col := colOf p.2.core
    let area := (taskStack x).2
    let s := modCol (allocBank s col p.2.cb x.cbLen) col (fun k => { k with stackUsed := k.stackUsed + area })
    match gangAt s x.gang with
    | some g => setGang s x.gang { g with stack := g.stack ++ [(col, area)], seats := g.seats ++ [(p.2.core, p.2.sp, p.2.cb)] }
    | none => s

/-- The seats that a layout gives to the tasks of a gang that are left, in the order of its tasks. -/
def taskSeats (s : State) (g : Gang) (seats : List Seat) : List (Nat × Seat) :=
  g.tasks.filterMap (fun t => ((taskAt s t).bind (fun x => listGet seats (x.number - g.first))).map (fun q => (t, q)))

/-- A task's column-bank allocation and stack area move to those reserved at base b of another column. -/
def moveAlloc (s : State) (t : Nat) (x : Task) (col b : Nat) : Option (State × Task) :=
  let from_ := colOf x.core
  let area := (taskStack x).2
  let s := freeStacks s [(from_, area)]
  let s := match gangAt s x.gang with
    | some g => setGang s x.gang { g with stack := g.stack.erase (from_, area) }
    | none => s
  if x.cbLen = 0 then some (s, x)
  else
    let dst := bankBase + col * (4 * gib) + b
    match moveBank s (bankBase + from_ * (4 * gib) + x.cbBase) dst x.cbLen with
    | none => none
    | some s =>
      let y := { x with cbBase := b, extents := x.extents.map (fun p =>
        if p.2.pages ≠ 0 ∧ p.2.kind = 2 then (p.1, { p.2 with map := BitVec.ofNat 52 dst }) else p) }
      some (setTask (freeBank s from_ x.cbBase x.cbLen) t y, y)

/-- The gang's columns belong to its partition. -/
def atHome (s : State) (w : Want) : Bool :=
  w.g.tasks.all (fun t => match taskAt s t with | some x => ctxCol s w.ctx (colOf x.core) | none => true)

/-- A gang that may migrate: MIGRATABLE, of domain core, pair or column, with no column-bank extent above 16 MiB (04 R146). -/
def migratable (w : Want) : Bool := recMigratable w.r && decide (gangDom w.r ≤ 4) && decide (cbNeed w.r ≤ 0x1000000)

/-- Every allocation of a gang's tasks moves to its seat's column; the tasks count as having left from there, with the image that they left
in the old one. -/
def moveTasks (s : State) : List (Nat × Seat) → Option State
  | [] => some s
  | (t, q) :: r => match taskAt s t with
    | none => moveTasks s r
    | some x =>
      let img := imageBytesOf s (colOf x.core) x
      let s := match x.image with
        | some slot => x.clutches.foldl (imageRows (colOf x.core) slot) img.2
        | none => img.2
      match moveAlloc (reserveSeat s (t, q)) t { x with imageSp := img.1 } (colOf q.core) q.cb with
      | none => none
      | some (s, y) => moveTasks (setTask (freeImage s (colOf x.core) x.image) t { y with core := q.core, image := none }) r

/-- A READY gang of higher priority that can use the core does not give way (04 R143), unless it only holds the core in reserve and the
core is the returning task's `own`: the one it was pre-empted from (R127). -/
def higherReady (s : State) (w : Want) (core : Nat) (own : Bool) : Bool :=
  (tsome s.gangs).any (fun p => p.2.state == .ready && decide (wantPrio s w < gangPrio s p.2) &&
    (match wantOf s p.1 with
     | some v => candCol s v (colOf core) && (fitsCore s v core).isSome && !reservedBy s v.gang core &&
         !(own && p.2.reserved.contains core && (fitFirst s v (mayTake s v) (instances s v false)).isNone)
     | none => false))

/-- The core that a task has left. -/
def leftCore (s : State) (t core : Nat) : Bool := match taskAt s t with | some x => decide (x.core = core) | none => false

/-- Resume on seats. -/
def resumeGang (s : State) (w : Want) (seats : List (Nat × Nat × Nat)) : State :=
  let s := seats.foldl (resumeTask w.gang) s
  match gangAt s w.gang with
  | some g => setGang s w.gang { g with state := .resident, cores := seats.map (·.2.1), seats := [] }
  | none => s

/-- PREEMPT_RESUME: in the columns it left; if those have left its partition, a migratable gang may go to a column of its partition
(04 R151). -/
def execPreemptResume (gang : Nat) (s : State) : Out :=
  match wantOf s gang with
  | none => .next s
  | some w =>
    if !live s || killing s w.ctx || w.g.state != .preempted then .next s
    else if atHome s w then
      match backSeats s gang w.r (backTasks s w.g) [] with
      | some seats =>
        if seats.any (fun q => higherReady s w q.2.1 (leftCore s q.1 q.2.1)) then .next s else .next (resumeGang s w seats)
      | none => .next s
    else if !migratable w then .next s
    else match fitFirst s w (fun c => !reservedBy s w.gang c && !higherReady s w c false) (instances s w false) with
      | none => .next s
      | some (_, seats) =>
        let ps := taskSeats s w.g seats
        orStay s ((moveTasks s ps).map (fun s => resumeGang s w (ps.map (fun p => (p.1, p.2.core, p.2.sp)))))

/-! ### Requeue (04 R144) -/

/-- Work of the engines when a gang is requeued: stopped and discarded, or an orphan. -/
def requeueCmd (s : State) (p : Nat × Cmd) : State :=
  if detachedKind p.2.kind then setCmd s p.1 { p.2 with orphan := true }
  else delCmd (if p.2.kind = .matrix then dequeueJob s p.2.core p.1 else s) p.1

/-- A task of a requeued gang is torn down; its stack area and what it has published stay. -/
def requeueTask (gang : Nat) (s : State) (t : Nat) : Option State :=
  match taskAt s t with
  | none => some s
  | some x =>
    let rec complete : State → List Nat → Option State
      | s, [] => some s
      | s, c :: r => match completeAll s c with
        | none => none
        | some s => complete s r
    match complete s x.clutches with
    | none => none
    | some s =>
      let s := (taskCmds s t).foldl requeueCmd s
      let cores := taskCores s x
      let s := dropClutches s x.clutches
      let s := freeImage (freeBank s (colOf x.core) x.cbBase x.cbLen) (colOf x.core) x.image
      let s := { s with tasks := tdel s.tasks t }
      let s := match gangAt s gang with
        | some g => setGang s gang { g with tasks := g.tasks.filter (fun k => decide (k ≠ t)), pubs := tput [] g.pubs x.number x.pub }
        | none => s
      some (gateNext s cores)

def requeueTasks (gang : Nat) (s : State) : List Nat → Option State
  | [] => some s
  | t :: r => match requeueTask gang s t with
    | none => none
    | some s => requeueTasks gang s r

/-- The whole gang leaves its cores. -/
def requeueGang (s : State) (gang : Nat) (g : Gang) : Option State :=
  let cols := (g.tasks.filterMap (fun t => (taskAt s t).map (fun x => colOf x.core))).eraseDups
  (requeueTasks gang s g.tasks).map (fun s =>
    let s := cols.foldl (fun s c => schedCount s c 2) s
    let s := { s with fifos := s.fifos.filter (fun p => decide (p.1 / 256 ≠ gang)) }
    match gangAt s gang with
    | some g => retryNext (setGang s gang { g with requeues := g.requeues + 1, cores := [] })
    | none => s)

/-- REQUEUE: issue has stopped at the fault (06 R215); the gang leaves its cores. -/
def execRequeue (gang : Nat) (s : State) : Out :=
  match gangAt s gang with
  | none => .next s
  | some g => if !live s || g.state != .requeued || g.tasks.isEmpty then .next s else orStay s (requeueGang s gang g)

/-! ### Thermal migration (04 R146 to R148) -/

/-- The governor's request stands: its thermal limit has held the column at 50 % duty or lower for DWELL. -/
def asksMigration (s : State) (col : Nat) : Bool :=
  let dwell := max 1 (bits s.pkg.migCfg.toNat 1 7)
  s.pkg.migCfg.getLsbD 0 && decide (2 ≤ (colAt s col).therm) &&
  (match (colAt s col).migrSince with | some t => decide (t + dwell * 100000 ≤ s.tsc.toNat) | none => false)

/-- The column of a gang of domain core, pair or column. -/
def gangCol (s : State) (g : Gang) : Option Nat := (g.tasks.filterMap (fun t => (taskAt s t).map (fun x => colOf x.core))).head?

/-- The oldest migratable resident gang of a column dispatched at `lo` or later (04 R147). -/
def nextMigr (s : State) (col lo : Nat) : List Instr :=
  let gs := (tsome s.gangs).filter (fun p => p.2.state == .resident && decide (gangCol s p.2 = some col) && decide (lo ≤ gangOrder s p.2) &&
    (match wantOf s p.1 with | some w => migratable w | none => false))
  match gs with
  | [] => []
  | a :: t => [.migration (t.foldl (fun b p => if gangOrder s p.2 < gangOrder s b.2 then p else b) a).1]

/-- A gang of the column migrates now: gangs are taken one at a time (04 R147). -/
def migrBusy (s : State) (col : Nat) : Bool :=
  (tsome s.gangs).any (fun p => p.2.state == .migrating && decide (gangCol s p.2 = some col))

/-- MIGRATION_REQUEST: the migratable gangs of the column one at a time, oldest dispatch first (04 R147). -/
def execMigrationRequest (col : Fin 64) (s : State) : Out :=
  if !live s || !asksMigration s col.val || migrBusy s col.val then .next s else .next (startNext s (nextMigr s col.val 0))

/-- One task migrates to its seat: its engines stop, its memory and its state go there; its image slot stays behind
and is free (R135). -/
def migrateTask (gang : Nat) (s : State) (p : Nat × Nat × Nat × Nat) : Option State :=
  match taskAt s p.1 with
  | none => some s
  | some x => match stopClutches s x.clutches with
    | none => none
    | some s => match releaseCores .column s (taskCores s x) with
      | none => none
      | some s => match moveAlloc s p.1 ((taskAt s p.1).getD x) (colOf p.2.1) p.2.2.2 with
        | none => none
        | some (s, y) =>
          let s := stopEach s x ((taskCmds s p.1).filter (fun q => follows q.2 && !q.2.ended))
          let img := (List.range (allocLen x)).map (fun i => spGet s x.core (x.spOff + i))
          let cmds := (taskCmds s p.1).filter (fun q => q.2.stopped)
          let s := freeImage s (colOf x.core) x.image
          let keys := [fifoOut gang x.core, fifoIn gang x.core]
          let ff := keys.map (fun k => (k % 2, fifoAt s k))
          let s := spWrite s p.2.1 p.2.2.1 img
          let s := setTask s p.1 { y with core := p.2.1, spOff := p.2.2.1, image := none }
          let s := seatClutches s p.2.1 x.clutches
          let s := keys.foldl (fun s k => setFifo s k []) s
          let s := ff.foldl (fun s f => if f.2.isEmpty then s else setFifo s (256 * gang + 2 * pairOf p.2.1 + f.1) f.2) s
          some (acquireOp (moveCmds s p.2.1 cmds) p.2.1 .column)

def migrateTasks (gang : Nat) (s : State) : List (Nat × Nat × Nat × Nat) → Option State
  | [] => some s
  | p :: r => match migrateTask gang s p with
    | none => none
    | some s => migrateTasks gang s r

/-- The target: the first instance by R131 of another column that is cooler by MARGIN and in which the gang fits now. -/
def migrTarget (s : State) (w : Want) (src : Nat) : Option (Inst × List Seat) :=
  let margin := bits s.pkg.migCfg.toNat 8 8
  let is := (instances s w false).filter (fun i => !i.cols.contains src && decide (hottest s i.cols + margin ≤ (colAt s src).tj.toNat))
  fitFirst s w (mayTake s w) is

/-- The clutches of several tasks stop. -/
def stopTasks (s : State) : List Nat → Option State
  | [] => some s
  | t :: r => match stopClutches s ((taskAt s t).elim [] (·.clutches)) with
    | none => none
    | some s => stopTasks s r

/-- The gang stands at its seats; a pre-emption that waited takes place there (04 R151). -/
def migrLand (gang : Nat) (g0 : Gang) (s : State) : Option State :=
  match gangAt s gang with
  | none => some s
  | some g =>
    let g := { g with state := .resident, cores := g0.seats.map (·.1), seats := [], doomed := false }
    if g0.doomed then preemptGang (setGang s gang g) (gang, g) else some (setGang s gang g)

/-- The end of a migration: once no command uses the column-bank window, the gang moves to the seats that are reserved for it, and the next
gang of the column follows. -/
def migrEnd (gang src : Nat) (w : Want) (s : State) : Out :=
  if w.g.tasks.any (fun t => (taskCmds s t).any (fun p => touches .colBank p.2 && !p.2.ended)) then .next s
  else orStay s (((migrateTasks gang s (w.g.tasks.zip w.g.seats)).bind (migrLand gang w.g)).map (fun s =>
    startNext (schedCount (retryNext s) src 1) (nextMigr s src (gangOrder s w.g + 1))))

/-- MIGRATION of one gang (R148): its issue stops and its target is reserved, then it moves; without a target it stays and counts in
DEFER, and the next gang of the column follows. -/
def execMigration (gang : Nat) (s : State) : Out :=
  match wantOf s gang with
  | none => .next s
  | some w => match gangCol s w.g with
    | none => .next s
    | some src =>
      if !live s then .next s
      else if w.g.state == .migrating then migrEnd gang src w s
      else if w.g.state != .resident || !migratable w || !asksMigration s src || migrBusy s src then .next s
      else match migrTarget s w src with
        | none => .next (startNext (schedCount s src 3) (nextMigr s src (gangOrder s w.g + 1)))
        | some (_, seats) => match stopTasks s w.g.tasks with
          | none => .next s
          | some s =>
            let s := (taskSeats s w.g seats).foldl reserveSeat (setGang s gang { w.g with state := .migrating })
            match wantOf s gang with
            | none => .next s
            | some w => migrEnd gang src w (startNext s [.migration gang])

end Sys2Proof.Machine
end

