-- ==== Sys2Proof/Machine/Pager.lean ====
section
/-! DEFINITION. The pager's fault ring (06 R216 to R218): records, answers, and what follows for gangs and clutches (R217). -/

namespace Sys2Proof.Machine

/-! ### What follows an answer (06 R217) -/

/-- The page is resident: the work goes on. -/
def userGoes (s : State) (u : FaultFor) : State :=
  match u with
  | .gangTranslation g => match gangAt s g with
    | some x => if x.state == .held then startNext (setGang s g { x with state := .translating }) [.preTranslation g] else s
    | none => s
  | .requeued g => match gangAt s g with
    | some x =>
      if x.state != .requeued then s
      else
        let x := { x with state := .ready, order := 2 ^ 64 - 1 - s.pkg.serial }
        startNext (setGang { s with pkg := { s.pkg with serial := s.pkg.serial + 1 } } g x) [.gangDispatch g]
    | none => s
  | .region c =>
    if waitsIn (clutchAt s c) .pager then modClutch s c (fun k => { k with wait := none, pagerTag := none }) else s

/-- The work ends: tasks with code 0x07, a clutch with the precise trap PAGE at its fallback address. -/
def userEnds (s : State) (u : FaultFor) : State :=
  match u with
  | .gangTranslation g | .requeued g => match gangAt s g with
    | some x => startNext (setGang s g { x with state := .ended, fail := 0x07 }) [.preTranslation g]
    | none => s
  | .region c =>
    let k := clutchAt s c
    match k.pagerTag with
    | none => s
    | some f =>
      if waitsIn k .pager then
        let k := { k with wait := none, pagerTag := none }
        let l := maskOf (fun i => eligible k i && decide ((laneAt k i).pc = f.fb))
        takeTrap (setClutch s c k) c cPage f.addr f.mask l f.fb (.nop { stop := false, pred := .always })
      else s

/-- A requeued gang must be off its cores before its answer acts (04 R144). -/
def settled (s : State) (us : List FaultFor) : Option State :=
  us.foldl (fun (a : Option State) u => a.bind (fun s => match u with
    | .requeued g => match gangAt s g with
      | some x => if x.state == .requeued && !x.tasks.isEmpty then requeueGang s g x else some s
      | none => some s
    | _ => some s)) (some s)

/-- Answer one fault. -/
def answer (s : State) (p : PagerFault) (fail : Bool) : Option State :=
  (settled s p.users).map (fun s =>
    let s := { s with pager := s.pager.erase p }
    p.users.foldl (if fail then userEnds else userGoes) s)

/-! ### Records (06 R216) -/

/-- Bytes of a fault record. -/
def faultRecord (p : PagerFault) (n : Nat) : List Byte :=
  leBytes 8 (p.page * 65536) ++ leBytes 8 p.tsc.toNat ++ leBytes 2 n ++ leBytes 1 p.ctx ++ [p.kind, p.access] ++ leBytes 1 p.col ++
    leBytes 10 0

/-- The interrupt of a record that finds the ring empty (06 R218). -/
def pagerSignal (s : State) : State :=
  let c := s.pkg.pgfCfg.toNat
  if bits c 1 1 = 1 then modHost s (bits c 2 6) (fun h => { h with pager := true }) else raiseVec s (bits c 8 11)

/-- PAGER_RECORD: the first fault without a record takes one; with EN 0 it ends as FAIL = 1. A full ring makes it wait. -/
def execPagerRecord (s : State) : Out :=
  match s.pager.find? (fun p => p.tag.isNone) with
  | none => .next s
  | some p =>
    if !live s then .next s
    else if !s.pkg.pgfCfg.getLsbD 0 then orStay s (answer s p true)
    else
      let n := s.pkg.pgfTail
      if (n - s.pkg.pgfHead).toNat = 4096 then .next s
      else match performAt s (homeTower s (s.pkg.pgfBase.toNat + 32 * (n.toNat % 4096))) (s.pkg.pgfBase.toNat + 32 * (n.toNat % 4096))
          (faultRecord p (n.toNat % 65536)) with
        | none => .next s
        | some t =>
          let t := { t with
            pager := t.pager.map (fun q => if q = p then { q with tag := some (n.setWidth 16) } else q)
            pkg := { t.pkg with pgfTail := n + 1 } }
          .next (if n = s.pkg.pgfHead then pagerSignal t else t)

/-- The privilege of the work that a fault belongs to: its clutch's, or its context's. -/
def faultUser (s : State) (p : PagerFault) : Bool :=
  match p.users with
  | .region c :: _ => userLevel (clutchAt s c)
  | _ => (ctxAt s p.ctx).user

/-- The entries that the walk of a record's page reads, at the die of its column (06 R217, R228). -/
def pagerTake (s : State) (p : PagerFault) (fail : Bool) : Option State :=
  if fail then some s else walksAt s (dieOf p.col) p.ctx [p.page * 65536]

/-- The walk of a record's page still faults for its access (06 R207, R217). -/
def stillFaults (s : State) (p : PagerFault) : Bool :=
  match walk s p.ctx (p.page * 65536) with
  | .ok _ _ perm =>
    (p.access.getLsbD 0 && !permits perm .load (faultUser s p)) || (p.access.getLsbD 1 && !permits perm .store (faultUser s p)) ||
      (p.access.getLsbD 2 && !permits perm .fetch (faultUser s p))
  | _ => true

/-- PGF_DONE_WRITE. With FAIL 0 the page is walked again; if it still faults, the record stands again under a new TAG. An answer for
whose work a line is still kept is noted, and takes effect once the line is free. -/
def execPgfDoneWrite (tag : BitVec 16) (fail : Bool) (s : State) : Out :=
  match s.pager.find? (fun p => decide (p.tag = some tag)) with
  | none => .next s
  | some p =>
    let note := fun (q : PagerFault) => { s with pager := s.pager.map (fun r => if r = p then q else r) }
    if s.emerg.isSome then .next s
    else match pagerTake s p fail with
    | none => .next (note { p with answer := some fail })
    | some s =>
    let note := fun (q : PagerFault) => { s with pager := s.pager.map (fun r => if r = p then q else r) }
    if !fail && stillFaults s p then .next (startNext (note { p with tag := none, answer := none }) [.pagerRecord])
    else match answer s p fail with
      | none => .next (note { p with answer := some fail })
      | some s => .next s

/-- An answer that can take effect now. -/
def answerDue (s : State) : Option Instr :=
  s.pager.findSome? (fun p => match p.tag, p.answer with
    | some t, some f => (pagerTake s p f).bind (fun s =>
        if (!f && stillFaults s p) || (answer s p f).isSome then some (.pgfDoneWrite t f) else none)
    | _, _ => none)

/-- PGF_HEAD_WRITE: consumed records make room for faults that wait. -/
def execPgfHeadWrite (v : Word) (s : State) : Out :=
  if s.emerg.isSome then .next s
  else .next (startNext { s with pkg := { s.pkg with pgfHead := v } }
    (if s.pager.any (fun p => p.tag.isNone) then [.pagerRecord] else []))

end Sys2Proof.Machine
end

