-- ==== Sys2Proof/Machine/Host.lean ====
section
/-! DEFINITION. What the outside world does to memory and registers: the host over CXL.mem and BAR0 (03 R91 to R94), UALink peers
(R96), the management ports (02 R79 to R82), and writes of registers by any requester (03 R101). -/

namespace Sys2Proof.Machine

/-- Inbound requests are held in link buffers during a thermal emergency (02 R77). -/
def inboundHeld (s : State) : Bool := s.emerg.isSome

/-- An error completion (log 14): a reason code of R82, or 1 for the error completion of a protocol. -/
def answerError (s : State) (code : Nat) : Out := .next { s with reply := .error (BitVec.ofNat 8 code) }

/-! ### CXL.mem (03 R91, R94) -/

/-- What a DPA reaches: memory, a launch line with the offset in its page, or a hole. -/
inductive DpaKind where
  | mem
  | line (key off : Nat)
  | page
  | hole
  deriving DecidableEq, Repr

def dpaKind (s : State) (dpa : Nat) : DpaKind :=
  match paKind s dpa with
  | .hbm => if meetsReserved s (dpa / 64 * 64) 64 then .hole else .mem
  | .bank _ _ => .mem
  | .regs =>
    let o := (dpa - regBase) % 0x20000
    let b := (dpa - regBase) / 0x20000
    let k := if b < 68 then b else 68
    if 0x10000 ≤ o then .hole else if o < 0x200 then .line (8 * k + o / 64) (o % 64) else .page
  | _ => .hole

/-- Perform the masked bytes of a write, byte by byte. -/
def performMasked (s : State) (pa : Nat) (data : BitVec 512) (mask : BitVec 64) : State :=
  (List.range 64).foldl (fun s i =>
    if mask.getLsbD i then performLine s ((pa + i) / 128) (lineSet 0 ((pa + i) % 128) (data.extractLsb' (8 * i) 8)) (bit128 0 ((pa + i) % 128)) false
    else s) s

/-- CXL_MEM_WRITE of up to 64 bytes. -/
def execCxlMemWrite (dpa : Nat) (data : BitVec 512) (mask : BitVec 64) (s : State) : Out :=
  if inboundHeld s then .next s
  else match dpaKind s dpa with
    | .hole => answerError s 1
    | .page => .next { s with reply := .ok [] }
    | .line key off =>
      hostToken s key data (decide (off = 0) && decide (mask = BitVec.allOnes 64))
    | .mem => match gatherAll s (homeTower s dpa) (dpa / 128) none with
      | none => .next s
      | some s => .next { performMasked s dpa data mask with reply := .ok [] }

/-- CXL_MEM_READ of 64 bytes; the host may cache the line (03 R92). A launch line reads `LL_STATUS`, then zero (R102). -/
def execCxlMemRead (dpa : Nat) (s : State) : Out :=
  if inboundHeld s then .next s
  else match dpaKind s dpa with
    | .hole => answerError s 1
    | .page => .next { s with reply := .ok (leBytes 64 0) }
    | .line key _ => .next { s with reply := .ok (leBytes 64 (lineStatus (lineAt s key))) }
    | .mem => match homeReads s [dpa] with
      | none => .next (holdRead s (dpa / 128))
      | some s => .next { s with
          reply := .ok ((List.range 64).map (fun i => perfByte s (dpa / 64 * 64 + i)))
          hostHas := dpa / 128 :: s.hostHas.filter (fun l => l ≠ dpa / 128) }

/-! ### Registers (03 R93, R101) -/

/-- A register write by a requester, with its completion (02 R82). -/
def regRow (s : State) (r : Requester) (off : Nat) (v : Dword) : Out :=
  let p := regWrite s r off v
  .next { p.1 with reply := match p.2 with | none => .ok [] | some c => .error (BitVec.ofNat 8 c) }

/-- Requesters behind the links of gated domains; the management ports reach the PMC always (02 R77, R79). -/
def regHeld (s : State) (r : Requester) : Bool := s.emerg.isSome && !isMgmt r

/-- Offset of the package block. -/
def pkgOff (o : Nat) : Nat := 72 * 0x20000 + o
def colOff (c : Fin 64) (o : Nat) : Nat := c.val * 0x20000 + o

/-- BAR0_ACCESS: naturally aligned 8-byte accesses of register pages, at supervisor privilege. -/
def execBar0Access (off size : Nat) (write : Option Dword) (s : State) : Out :=
  if inboundHeld s then .next s
  else if size ≠ 8 ∨ off % 8 ≠ 0 ∨ off % 0x20000 < 0x10000 then answerError s 1
  else match regAt off with
    | none => answerError s 1
    | some d => match write with
      | some v => regRow s .hostLink off v
      | none =>
        if canRead .hostLink d then
          let r := regRead s .hostLink off
          .next { r.2 with reply := .ok (leBytes 8 r.1.toNat) }
        else answerError s 1

/-- REGISTER_WRITE at a physical address; without a value it is the read that a management port may always make (02 R79). -/
def execRegisterWrite (r : Requester) (addr : Nat) (write : Option Dword) (s : State) : Out :=
  if regHeld s r then .next s
  else if addr < regBase ∨ 2 * regBase ≤ addr ∨ addr % 8 ≠ 0 then answerError s 1
  else match regAt (regOff addr) with
    | none => answerError s 1
    | some d => match write with
      | some v => regRow s r (regOff addr) v
      | none =>
        if canRead r d then
          let p := regRead s r (regOff addr)
          .next { p.2 with reply := .ok (leBytes 8 p.1.toNat) }
        else answerError s 1

/-- A write of one register of the package block or a column block. -/
def namedWrite (s : State) (r : Requester) (off : Nat) (v : Dword) : Out := if regHeld s r then .next s else regRow s r off v

def execPartMapWrite (r : Requester) (v : Dword) (s : State) : Out := namedWrite s r (pkgOff 0x10110) v
def execPartCfgWrite (r : Requester) (p : Fin 16) (v : Dword) (s : State) : Out := namedWrite s r (pkgOff (0x10118 + 8 * p.val)) v
def execDevCapWrite (r : Requester) (v : Dword) (s : State) : Out := namedWrite s r (pkgOff 0x10300) v
def execCurLimWrite (r : Requester) (v : Dword) (s : State) : Out := namedWrite s r (pkgOff 0x10308) v
def execGovTjWrite (r : Requester) (v : Dword) (s : State) : Out := namedWrite s r (pkgOff 0x10310) v
def execGovTbWrite (r : Requester) (v : Dword) (s : State) : Out := namedWrite s r (pkgOff 0x10318) v
def execValveForceWrite (r : Requester) (col : Fin 64) (v : Dword) (s : State) : Out := namedWrite s r (colOff col 0x10130) v
def execScrubCfgWrite (r : Requester) (col : Fin 64) (v : Dword) (s : State) : Out := namedWrite s r (colOff col 0x10138) v
def execCorePgWrite (r : Requester) (col : Fin 64) (v : Dword) (s : State) : Out := namedWrite s r (colOff col 0x12040) v

/-- MGMT_SEM_ACQUIRE: the requester writes its code, with a LEASE in bits [15:8] (02 R81). -/
def execMgmtSemAcquire (r : Requester) (v : Dword) (s : State) : Out := namedWrite s r (pkgOff 0x10330) v

/-- MGMT_SEM_RELEASE: OWNER is written 0 and LEASE as it stands. -/
def execMgmtSemRelease (r : Requester) (s : State) : Out :=
  namedWrite s r (pkgOff 0x10330) (BitVec.ofNat 64 (s.mgmt.lease.toNat * 256))

/-- LEASE in `TSC` ticks: units of 10 ms, 0 taken as 1. -/
def leaseTicks (s : State) : Nat := max 1 s.mgmt.lease.toNat * 10000000

/-- MGMT_LEASE_EXPIRY: LEASE has elapsed since the owner's last control write, or since it acquired (log 23). -/
def execMgmtLeaseExpiry (s : State) : Out :=
  .next (if s.mgmt.owner ≠ 0 ∧ s.mgmt.lastCtl.toNat + leaseTicks s ≤ s.tsc.toNat then { s with mgmt := { s.mgmt with owner := 0, semWrites := [] } } else s)

/-- LOG_CLEAR: `LOG_CTL` with CLR and the requester's present INDEX. -/
def execLogClear (r : Requester) (s : State) : Out :=
  namedWrite s r (pkgOff 0x10348) (BitVec.ofNat 64 (2 ^ 13 + (tget 0 s.mgmt.index (reqNo r)).toNat))

def execLogIndexSet (r : Requester) (i : BitVec 13) (s : State) : Out := namedWrite s r (pkgOff 0x10348) (i.setWidth 64)

/-- HBM_SPLIT_LOCK: firmware writes `HBM_SPLIT` (01 R18, R19). -/
def execHbmSplitLock (v : Dword) (s : State) : Out := namedWrite s .firmware (pkgOff 0x10320) v

/-- WEAR_SET_WRITE by firmware (06 R244). -/
def execWearSetWrite (v : Dword) (s : State) : Out := namedWrite s .firmware (pkgOff 0x12140) v

/-- CORE_GATE: a requested core is gated once the conditions of 05 R190 hold. -/
def execCoreGate (core : Fin 256) (s : State) : Out := .next (if s.emerg.isSome then s else gateCore s core.val)

def execCoreUngate (core : Fin 256) (s : State) : Out := .next (if s.emerg.isSome then s else ungateCore s core.val)

/-! ### UALink peers (03 R96) -/

/-- Physical address of an inbound offset; none beyond 1 TiB. -/
def ualPa (off : Nat) : Option Nat :=
  if off < hbmTop then some off else if off < 0x10000000000 then some (bankBase + (off - hbmTop)) else none

/-- Some valid grant covers [off, off + n) for a peer and an operation (bit 1 reads, 2 writes, 3 atomics). -/
def granted (s : State) (peer off n opBit : Nat) : Bool :=
  (List.range 64).any (fun g =>
    let x := (tget 0 s.pkg.ualGrant g).toNat
    let base := bits x 40 24 * 65536
    decide (bits x 0 1 = 1) && decide (bits x opBit 1 = 1) && decide (bits x 16 10 ≤ peer) && decide (peer ≤ bits x 16 10 + bits x 26 10) &&
    decide (base ≤ off) && decide (off + n ≤ base + bits x 64 64))

/-- Every byte of the request reaches memory. -/
def ualReach (s : State) (off n : Nat) : Bool :=
  (List.range n).all (fun i => match ualPa (off + i) with
    | some pa => !meetsReserved s pa 1
    | none => false)

/-- Gather every token of the lines of a write. -/
def gatherBytes (s : State) : List Nat → Option State
  | [] => some s
  | pa :: t => match gatherAll s (homeTower s pa) (pa / 128) none with
    | none => none
    | some s => gatherBytes s t

/-- UALINK_REQUEST: served under the grants, or completed with the error status (R17); atomics are those that `atom` defines (01 R42). -/
def execUalinkRequest (peer : BitVec 10) (off : Nat) (op : UalOp) (s : State) : Out :=
  if inboundHeld s then .next s
  else match op with
    | .read len =>
      if len = 0 ∨ 256 < len ∨ granted s peer.toNat off len 1 = false ∨ ualReach s off len = false then answerError s 1
      else
        let pas := (List.range len).map (fun i => (ualPa (off + i)).getD 0)
        match homeReads s pas with
        | none => .next (holdReads s (pas.map (· / 128)))
        | some s => .next { s with reply := .ok (pas.map (perfByte s)) }
    | .write data =>
      let n := data.length
      if n = 0 ∨ 256 < n ∨ granted s peer.toNat off n 2 = false ∨ ualReach s off n = false then answerError s 1
      else
        let pas := (List.range n).map (fun i => (ualPa (off + i)).getD 0)
        match gatherBytes s pas with
        | none => .next s
        | some s => .next { (pas.zip data).foldl (fun s p => performBytes s p.1 [p.2]) s with reply := .ok [] }
    | .atomic a t b cmp =>
      let n := (memSize t).getD 4
      if okAtomTy a t = false ∨ off % n ≠ 0 ∨ granted s peer.toNat off n 3 = false ∨ ualReach s off n = false then answerError s 1
      else
        let pa := (ualPa off).getD 0
        match ownLine s (homeTower s pa) (pa / 128) with
        | none => .next s
        | some s =>
          let old := perfNat s pa n
          .next { performBytes s pa (leBytes n (atomNew a t old b.toNat cmp.toNat)) with reply := .ok (leBytes n old) }

end Sys2Proof.Machine
end

