-- ==== Sys2Proof/Machine/Bank.lean ====
section
/-! DEFINITION. The vertical bus and the bank tier: beats and their retries, lane repair (01 R28 to R31), bank reads and
partial writes (R32), and the patrol scrubber (R33). -/

namespace Sys2Proof.Machine

def busOf (s : State) (c : Nat) (down : Bool) : VBus := if down then (colAt s c).down else (colAt s c).up

def setBus (s : State) (c : Nat) (down : Bool) (v : VBus) : State :=
  modCol s c (fun k => if down then { k with down := v } else { k with up := v })

/-- A group of the direction: data groups, and the command groups of the up direction (R25, R26). -/
def isGroup (down : Bool) (g : Nat) : Bool := decide (g < 64) || (!down && decide (g < 66))

/-- Spare lane of a group (R26, R27). -/
def spareOf (g : Nat) : Nat := if g < 64 then g / 4 else g - 48

/-- One more beat that failed parity (R36). -/
def countParity (s : State) (c : Nat) : State :=
  modCol s c (fun k =>
    let v := k.vbusLog.toNat
    { k with vbusLog := BitVec.ofNat 128 (setBits v 32 16 (natMin (bits v 32 16 + 1) 0xFFFF)) })

/-- Writes of the unit reach the array, those that a repair has put off first, once up beats pass (01 R29, R30). -/
def writesOut (s : State) (c : Nat) : State :=
  let k := colAt s c
  if repairing s c || k.up.again then s
  else (unitWrites k).foldl (fun s w => bankPut s c w.line w.data w.mask) (setCol s c { k with rmw := [], late := [] })

/-- A request that the slice has held goes to the bank. -/
def serveReq (c : Nat) (s : State) : BankReq → State
  | .read l => bankFetch s l
  | .writeBack l => sliceDrop s l
  | .atomic l => match s.sync.find? (fun o => decide (o.die = 4 + c) && decide (o.pa / 128 = l)) with
    | some o => (syncPerform s o).getD s
    | none => s

/-- The bus carries requests again (01 R29, R30): the unit's writes, the line whose beat is sent again, then the held requests in their order
of arrival. -/
def serveHeld (s : State) (c : Nat) : State :=
  let s := writesOut s c
  if bankBusy s c then s
  else
    let k := colAt s c
    (k.beat.toList.map BankReq.read ++ k.held).foldl (serveReq c) (setCol s c { k with beat := none, held := [] })

/-- The direction becomes FAILED: writes that have not reached the array are discarded, and every request goes on (01 R31). -/
def busFail (s : State) (c : Nat) (down : Bool) (g attempts : Nat) : State :=
  let v := busOf s c down
  let s := setBus s c down { v with failed := true, repair := [] }
  serveHeld (postVbus (modCol s c (fun k => { k with rmw := [], late := [] })) c down 2 g 0 attempts 0) c

/-- Groups in increasing order. -/
def badGroups (down : Bool) (bad : List Nat) : List Nat := (List.range 66).filter (fun g => isGroup down g && bad.contains g)

/-- The failure counts after a beat with bad groups: a group with good parity is at 0 again (01 R28). -/
def bump (fails : Tab Nat) (bs : List Nat) : Tab Nat := bs.foldl (fun t g => tput 0 t g (tget 0 fails g + 1)) []

/-- A beat that failed is counted, and logged as a retry for each group that is to be tried again (01 R28, R36). -/
def noteBad (s : State) (c : Nat) (down : Bool) (bs : List Nat) (fails : Tab Nat) : State :=
  (bs.filter (fun g => decide (tget 0 fails g < 3))).foldl (fun s g => postVbus s c down 0 g 0 (tget 0 fails g) 0) (countParity s c)

/-- The request is a read-modify-write: an atomic, or a write-back of part of a 64-bit word (01 R29, R32). -/
def isRmwReq (k : Column) : BankReq → Bool
  | .read _ => false
  | .writeBack l => match tget none k.slice l with | some y => isPartial y.mask | none => false
  | .atomic _ => true

/-- A repair starts: read-modify-writes whose read is outstanding stand at the head of the held requests (01 R29). -/
def requeueRmw (s : State) (c : Nat) : State :=
  modCol s c (fun k => { k with held := k.held.filter (isRmwReq k) ++ k.held.filter (fun r => !isRmwReq k r) })

/-- A beat of the up direction while a lane repair runs is a drain write: that of the oldest read-modify-write in flight. Its failures
start no second repair; after the third it is put off, to be written first (01 R29, R30). -/
def drainBeat (s : State) (c : Nat) (bs : List Nat) : State :=
  let k := colAt s c
  match k.rmw with
  | [] => s
  | w :: rest =>
    if bs.isEmpty then
      bankPut (setCol s c { k with rmw := rest, up := { k.up with drainFails := [] } }) c w.line w.data w.mask
    else
      let fails := bump k.up.drainFails bs
      let s := noteBad s c false bs fails
      if bs.any (fun g => decide (3 ≤ tget 0 fails g)) then
        modCol s c (fun k => { k with rmw := rest, late := k.late ++ [w], up := { k.up with drainFails := [] } })
      else modCol s c (fun k => { k with up := { k.up with drainFails := fails } })

/-- A beat outside a repair of its direction (01 R28). A FAIL event of a beat with several bad groups names the lowest (log 112). -/
def plainBeat (s : State) (c : Nat) (down : Bool) (bs : List Nat) : State :=
  let v := busOf s c down
  if bs.isEmpty then serveHeld (setBus s c down { v with fails := [], retries := 0, newMap := false }) c
  else
    let fails := bump v.fails bs
    let third := bs.filter (fun g => decide (3 ≤ tget 0 fails g))
    let s2 := noteBad (setBus s c down { v with fails := fails, retries := v.retries + 1 }) c down bs fails
    let attempts := natMin (tget 0 fails (bs.headD 0)) 3
    if v.newMap && decide (3 ≤ v.retries + 1) then busFail s2 c down (bs.headD 0) attempts
    else if !third.isEmpty then requeueRmw (setBus s2 c down { busOf s2 c down with repair := third }) c
    else if 4 ≤ v.retries + 1 then busFail s2 c down (bs.headD 0) attempts
    else s2

/-- VBUS_BEAT: the receiver checks a beat; `bad` are the groups whose parity fails (R28). While the down direction is repaired no read
crosses it, and an up beat in a repair is a drain write (R29, R30). -/
def execVbusBeat (col : Fin 64) (dir : VDir) (bad : List Nat) (s : State) : Out :=
  let c := col.val
  let down : Bool := dir == .down
  let bs := badGroups down bad
  if (busOf s c down).failed || s.emerg.isSome then .next s
  else if !down && repairing s c then .next (drainBeat s c bs)
  else if !(busOf s c down).repair.isEmpty then .next s
  else .next (plainBeat s c down bs)

/-- VBUS_REPAIR of the group whose turn it is, once the drain writes are made; `found` are the faulty lanes that the walking-ones test
finds (R28, R29). -/
def execVbusRepair (col : Fin 64) (dir : VDir) (group : Nat) (found : List Nat) (s : State) : Out :=
  let c := col.val
  let down : Bool := dir == .down
  let v := busOf s c down
  if v.repair.head? ≠ some group ∨ s.emerg.isSome = true ∨ (colAt s c).rmw ≠ [] then .next s
  else match found with
    | [lane] =>
      let sp := spareOf group
      if 16 < lane ∨ v.spares.contains sp then .next (busFail s c down group 3)
      else
        let v := { v with fails := tput 0 v.fails group 0, spares := v.spares ++ [sp], swapped := v.swapped ++ [(group, lane)],
                          repair := v.repair.tail, newMap := true, retries := 0 }
        .next (serveHeld (postVbus (setBus s c down v) c down 1 group lane 3 sp) c)
    | _ => .next (busFail s c down group 3)

/-- BANK_READ of the line of bank offset bo: ECC is checked and single-bit errors are corrected (R32). Held while the bus is busy or the
line locked (R28, R29). -/
def execBankRead (col : Fin 64) (bo : Nat) (s : State) : Out :=
  let line := (bankBase + col.val * (4 * gib) + bo) / 128
  if 4 * gib ≤ bo ∨ s.emerg.isSome = true then .next s
  else if !unitIdle s col.val line then .next (holdReq s col.val (.read line))
  else .next (bankReadLine s col.val line false).1

/-- BANK_PARTIAL_WRITE: the read-modify-write unit stores bytes that slice c writes back: those it holds of the line (R32,
06 R233). While an up beat is sent again, a write of part of a word has its read, and waits with its bytes for the bus (R28, R29);
otherwise it is held while the bus is busy. -/
def execBankPartialWrite (col : Fin 64) (bo : Nat) (data : BitVec 1024) (mask : BitVec 128) (s : State) : Out :=
  let c := col.val
  let line := (bankBase + c * (4 * gib) + bo) / 128
  match tget none (colAt s c).slice line with
  | none => .next s
  | some l =>
    if 4 * gib ≤ bo ∨ s.emerg.isSome = true ∨ mask ≠ l.mask ∨ lineMerge 0 data mask ≠ lineMerge 0 l.data mask then .next s
    else if unitIdle s c line then .next (sliceDrop s line)
    else if isPartial l.mask && unitReads s c line then
      .next (modCol (setSlice (bankCheckOld s c line l.mask) c line none) c (fun k =>
        { k with rmw := k.rmw ++ [{ line := line, data := l.data, mask := l.mask }] }))
    else .next (holdReq s c (.writeBack line))

/-- PATROL_SCRUB: the next line of the bank, in idle beats only (R33, R34). -/
def execPatrolScrub (col : Fin 64) (s : State) : Out :=
  let k := colAt s col.val
  if k.period = 0 ∨ s.emerg.isSome = true ∨ bankBusy s col.val = true then .next s
  else
    let s1 := (bankReadLine s col.val (bankBase / 128 + col.val * (4 * gib / 128) + k.scrubPos) true).1
    .next (modCol s1 col.val (fun k => { k with scrubPos := (k.scrubPos + 1) % (4 * gib / 128) }))

end Sys2Proof.Machine
end

