-- ==== Sys2Proof/Machine/Power.lean ====
section
/-! DEFINITION. Power, heat and caps (02 R49 to R78): the power model, column governors, the cap loop, the ramp guard and
ballast, valves, coolant alarms, the thermal emergency, and cap frames. -/

namespace Sys2Proof.Machine

/-! ### The power model (R52 to R54) -/

/-- A binary32 value as a rational; a special value counts as zero. -/
def ratOf (x : Nat) : Rat :=
  match fpDecode .f32 x with
  | .fin neg m e =>
    let v : Rat := if 0 ≤ e then ((m * 2 ^ e.toNat : Nat) : Rat) else mkRat m (2 ^ (-e).toNat)
    if neg then -v else v
  | _ => 0

/-- A rational rounded to binary32, ties to even. -/
def ratTo (x : Rat) : Word :=
  let n := x.num.natAbs * 2 ^ 320
  BitVec.ofNat 32 (fpRound .f32 .rne false false 0 (decide (x < 0)) { m := n / x.den, e := -320, sticky := decide (n % x.den ≠ 0) }).1

/-- Weight of an event in a kind of domain (R52, R55). -/
def weightOf (s : State) (k i : Nat) : Word := (tget none s.power.weights (24 * k + i)).getD (Config.factoryWeight k i)

/-- Kind of domain n: compute, base or bank (03 R100). -/
def domKind (n : Nat) : Nat := if n < 8 then 0 else if n < 12 then 1 else 2

/-- Kind of the domain that block b counts for (see `Power`). -/
def blockKind (b : Nat) : Nat := if 256 ≤ b then 1 else match b % 4 with | 0 => 0 | 1 => 0 | 2 => 1 | _ => 2

/-- Blocks of domain n. -/
def domBlocks (n : Nat) : List Nat :=
  let cols := fun (t d : Nat) => (List.range 16).map (fun i => 4 * (16 * t + i) + d)
  if n < 8 then cols (n / 2) (n % 2) else if n < 12 then cols (n - 8) 2 ++ [256 + (n - 8)] else cols (n - 12) 3

/-- The domains that column c spans, of three kinds: compute, of which its tower has two (R49; 01 R12, R13), base and bank (log 72). -/
def colDomains (c : Nat) : List (List Nat) := let t := c / 16; [[2 * t, 2 * t + 1], [8 + t], [12 + t]]

/-- Blocks of a column's share of a kind of domain. -/
def colBlocks (c kind : Nat) : List Nat := match kind with | 0 => [4 * c, 4 * c + 1] | 1 => [4 * c + 2] | _ => [4 * c + 3]

/-- Events of a block over 10 µs in pJ. -/
def blockEnergy (s : State) (b : Nat) : Rat :=
  (List.range 24).foldl (fun r i => r + ((tget 0 s.power.counts (24 * b + i) : Nat) : Rat) * ratOf (weightOf s (blockKind b) i).toNat) 0

/-- G_k at a temperature (R53), linear between the points and constant beyond them. -/
def leakAt (k temp : Nat) : Rat :=
  let i := temp / 10
  if 15 ≤ i then Config.leakage k 15
  else
    let a : Rat := Config.leakage k i
    a + ((Config.leakage k (i + 1) : Rat) - a) * mkRat (temp % 10 : Nat) 10

/-- Hottest sensor of domain n: for the bank tier the hottest bank layer; for a compute die a value at most the hottest junction of
the tower, and for a base die one that no register shows, both free (log 11). -/
def domTemp (s : State) (n free : Nat) : Nat :=
  let cols := fun (t : Nat) => (List.range 16).map (fun i => colAt s (16 * t + i))
  if n < 8 then natMin free (((cols (n / 2)).map (fun k => k.tj.toNat)).foldl max 0)
  else if n < 12 then free
  else ((cols (n - 12)).map (fun k => k.tb.toNat)).foldl max 0

/-- S = V² × G_k(T) of domain n in milliwatts. -/
def domStatic (s : State) (n free : Nat) : Rat :=
  let mv := Config.millivolts n
  mkRat (mv * mv : Nat) 1000000 * leakAt (domKind n) (domTemp s n free)

/-- A rational number of milliwatts as a count. -/
def toMw (x : Rat) : Nat := x.floor.toNat

/-- The events of R52 that the machine's own steps show: FP32 and FP64 FMA lane operations, access-engine elements, host-core instructions
retired, and copy-engine transfers of 128 bytes (log 71). -/
def counted (i : Nat) : Bool := [1, 2, 10, 18, 23].contains i

/-- The counters of the last 10 µs: what was counted, and free values for the events of which the spec gives no count for an
instruction (log 11, 71). -/
def freeCounts (s : State) : Tab Nat :=
  ((List.range (24 * 260)).map (fun k => (k, if counted (k % 24) then tget 0 s.power.tally k
    else if Config.eventIn (blockKind (k / 24)) (k % 24) then Config.freeNat (s.fresh + k) else 0))).filter (fun p => decide (p.2 ≠ 0))

/-- The shunt readings of the HBM, flash and SerDes rails: the PMC takes new ones every 1 ms, free values (log 11). -/
def readShunts (s : State) : State :=
  if Config.freeBool s.fresh then
    { s with
      power := { s.power with shunt := [0, 1, 2].foldl (fun t k => tput 0 t k (Config.freeNat (s.fresh + 1 + k))) s.power.shunt }
      fresh := s.fresh + 4 }
  else { s with fresh := s.fresh + 1 }

/-- Valid partition to which a column belongs. -/
def validPart (s : State) (c : Nat) : Option Nat := if assignedCol s c then some (partOf s c) else none

/-- Event power of a column in mW (R54). -/
def colEvents (s : State) (c : Nat) : Rat :=
  ([0, 1, 2].foldl (fun r k => r + (colBlocks c k).foldl (fun r b => r + blockEnergy s b) 0) (0 : Rat) + blockEnergy s (256 + c / 16) / 16) / 10000

/-- The part of it that the core rail supplies, in mA. -/
def colAmps (s : State) (c : Nat) : Rat :=
  (List.range 2).foldl (fun r d =>
    let mv := Config.millivolts (2 * (c / 16) + d)
    if mv = 0 then r else r + blockEnergy s (4 * c + d) / 10000 * 1000 / (mv : Rat)) 0

/-- POWER_ESTIMATE: one of the ten estimates of a cap-loop pass. -/
def execPowerEstimate (s : State) : Out :=
  if 10 ≤ s.power.ests.length then .next s
  else
    let s := readShunts s
    let s := { s with power := { s.power with counts := freeCounts s, tally := [] }, fresh := s.fresh + 24 * 260 }
    let statics := (List.range 16).map (fun n => domStatic s n (Config.freeNat (s.fresh + n)))
    let s := { s with fresh := s.fresh + 16 }
    let st := fun (n : Nat) => (listGet statics n).getD 0
    let dom := fun (n : Nat) => ((domBlocks n).foldl (fun r b => r + blockEnergy s b) (0 : Rat)) / 10000 + st n
    let rails : Rat := ((sumBy (fun k => tget 0 s.power.shunt k) [0, 1, 2] + 50000 : Nat) : Rat)
    let device := toMw ((List.range 16).foldl (fun r n => r + dom n) rails)
    let owned := (List.range 64).filter (fun c => (validPart s c).isSome)
    let parts := (List.range 16).foldl (fun (t : Tab Nat) p =>
      let cols := owned.filter (fun c => decide (partOf s c = p))
      let ev := cols.foldl (fun r c => r + colEvents s c) (0 : Rat)
      let stat := cols.foldl (fun r c => r + (colDomains c).foldl (fun r ns => r + ns.foldl (fun r n => r + st n) 0 / 16) 0) (0 : Rat)
      let share := rails * mkRat cols.length (max 1 owned.length)
      let t := tupd 0 t p (fun x => x + toMw (ev + stat + share))
      let t := tupd 0 t (16 + p) (fun x => x + toMw ev)
      tupd 0 t (32 + p) (fun x => x + toMw (cols.foldl (fun r c => r + colAmps s c) 0))) s.power.partEsts
    let totals := s.power.counts.foldl (fun (t : Tab Nat) x => tupd 0 t (24 * blockKind (x.1 / 24) + x.1 % 24) (fun y => y + x.2)) s.power.totals
    let totals := (List.range 16).foldl (fun (t : Tab Nat) n => tupd 0 t (72 + domKind n) (fun y => y + toMw (st n))) totals
    .next { s with power := { s.power with
      ests := s.power.ests ++ [device], partEsts := parts, totals := totals
      domainPwr := (List.range 16).foldl (fun t n => tput 0 t n (BitVec.ofNat 32 (toMw (dom n)))) s.power.domainPwr } }

/-! ### The refit (R55) -/

def covAt (s : State) (k i j : Nat) : Rat := (tget none s.power.cov (576 * k + 24 * i + j)).getD (if i = j then 1000000 else 0)

def sumRat (f : Nat → Rat) : Rat := (List.range 24).foldl (fun r i => r + f i) 0

/-- Keep a value within two bounds. -/
def clampRat (x lo hi : Rat) : Rat := if x < lo then lo else if hi < x then hi else x

/-- WEIGHT_REFIT of one kind; `energy` is the shunt energy of its rail over the second in pJ. -/
def execWeightRefit (kind : Fin 3) (energy : Int) (s : State) : Out :=
  let k := kind.val
  let x := fun (i : Nat) => ((tget 0 s.power.totals (24 * k + i) : Nat) : Rat)
  let y : Rat := (energy : Rat) - ((tget 0 s.power.totals (72 + k) : Nat) : Rat) * 10000
  let w := fun (i : Nat) => ratOf (weightOf s k i).toNat
  let e := y - sumRat (fun i => x i * w i)
  let px := (List.range 24).map (fun i => sumRat (fun j => covAt s k i j * x j))
  let xp := (List.range 24).map (fun j => sumRat (fun i => x i * covAt s k i j))
  let at_ := fun (l : List Rat) (i : Nat) => (listGet l i).getD 0
  let lambda : Rat := mkRat 98 100
  let den := lambda + sumRat (fun i => x i * at_ px i)
  let g := px.map (fun v => v / den)
  let ws := (List.range 24).foldl (fun (t : Tab (Option Word)) i =>
    if x i = 0 then t
    else
      let wf := ratOf (Config.factoryWeight k i).toNat
      tput none t (24 * k + i) (some (ratTo (clampRat (w i + at_ g i * e) (wf / 2) (2 * wf))))) s.power.weights
  let cov := (List.range 576).foldl (fun (t : Tab (Option Rat)) n =>
    tput none t (576 * k + n) (some ((covAt s k (n / 24) (n % 24) - at_ g (n / 24) * at_ xp (n % 24)) / lambda))) s.power.cov
  .next { s with power := { s.power with
    weights := ws, cov := cov
    totals := s.power.totals.filter (fun p => decide ((if p.1 < 72 then p.1 / 24 else p.1 - 72) ≠ k)) } }

/-! ### Caps and ranks (R61 to R66) -/

def partValid (s : State) (p : Nat) : Bool := (partAt s p).cfg.getLsbD 0
def rankOf (s : State) (p : Nat) : Nat := bits (partAt s p).cfg.toNat 1 3
def pcapOf (s : State) (p : Nat) : Nat := bits (partAt s p).cfg.toNat 8 24

/-- Record a step down of a partition (R66). -/
def capRecord (s : State) (p cause : Nat) : State :=
  let x := partAt s p
  let old := x.cause.toNat
  let ev := natMin (bits old 32 32 + 1) 0xFFFFFFFF
  let v := setBits (setBits (setBits (setBits old 1 3 cause) 4 3 (rankOf s p)) 32 32 ev) 64 64 s.tsc.toNat
  setPart s p { x with cause := BitVec.ofNat 128 v }

/-- A limit of R61 on power or current, as `Power.unmet` numbers them. -/
inductive Limit where
  | device | current
  | partition (p : Nat)
  | rank (r : Nat)
  deriving DecidableEq, Repr

def limitNo : Limit → Nat
  | .device => 0 | .current => 1 | .partition p => 2 + p | .rank r => 18 + r

/-- Code of a limit in `CAP_CAUSE.CAUSE`. -/
def limitCause : Limit → Nat
  | .device => 1 | .current => 4 | .partition _ => 2 | .rank _ => 3

/-- Valid partitions that a limit can lower. -/
def limitParts (s : State) (l : Limit) : List Nat :=
  ((List.range 16).filter (fun p => partValid s p)).filter (fun p => match l with
    | .partition q => decide (p = q)
    | .rank r => decide (rankOf s p = r)
    | _ => true)

/-- What a limit measures, summed over the ten estimates, in mW or mA. -/
def limitLoad (s : State) (amps : Nat) (l : Limit) : Nat :=
  match l with
  | .device => s.power.ests.foldl (· + ·) 0
  | .current => 10 * 1000 * amps
  | .partition p => tget 0 s.power.partEsts p
  | .rank _ => sumBy (fun p => tget 0 s.power.partEsts p) (limitParts s l)

/-- The limit's bound in the same unit; none when there is no cap. -/
def limitBound (s : State) (l : Limit) : Option Nat :=
  match l with
  | .device => some (10 * 1000 * natMin s.power.devCap.toNat 22000)
  | .current => some (10 * 1000 * s.power.curLim.toNat)
  | .partition p => if pcapOf s p = 0xFFFFFF then none else some (10 * 1000 * pcapOf s p)
  | .rank r =>
    let c := (tget 0xFFFFFFFF s.power.rankCap r).toNat
    if c = 0xFFFFFFFF then none else some (10 * 1000 * c)

def limitOver (s : State) (amps : Nat) (l : Limit) : Bool :=
  match limitBound s l with | some b => decide (b < limitLoad s amps l) | none => false

/-- At least 3 % margin (R64). -/
def limitMargin (s : State) (amps : Nat) (l : Limit) : Bool :=
  match limitBound s l with | some b => decide (100 * limitLoad s amps l ≤ 97 * b) | none => true

def allLimits : List Limit := (List.range 16).map .partition ++ (List.range 8).map .rank ++ [.device, .current]

/-- Limits on power and current that apply to a partition. -/
def limitsOf (s : State) (p : Nat) : List Limit := [.device, .current, .partition p, .rank (rankOf s p)]

/-- The cause alone: that of a step down which the lowest duty leaves without effect (R63, R66; log 73). -/
def causeRecord (s : State) (p cause : Nat) : State :=
  let x := partAt s p
  setPart s p { x with cause := BitVec.ofNat 128 (setBits (setBits x.cause.toNat 1 3 cause) 4 3 (rankOf s p)) }

/-- StepDown of R63: `done` are the partitions already stepped in this pass. -/
def stepDown (a : State × List Nat) (p cause : Nat) : State × List Nat :=
  if a.2.contains p then a
  else
    let x := partAt a.1 p
    let s := if x.duty < 3 then capRecord (setPart a.1 p { x with duty := x.duty + 1 }) p cause else causeRecord a.1 p cause
    (s, p :: a.2)

/-- The device step: the lowest rank that had a partition above 25 % when the pass began. -/
def deviceStep (s0 : State) (a : State × List Nat) (cause : Nat) : List Nat → State × List Nat
  | [] => a
  | r :: t =>
    let set := (limitParts s0 (.rank r)).filter (fun p => decide ((partAt s0 p).duty < 3))
    if set.isEmpty then deviceStep s0 a cause t else set.foldl (fun a p => stepDown a p cause) a

/-- The three parts of the cap loop that step down (R63). -/
def capDowns (s : State) (amps : Nat) : State × List Nat :=
  let a := (List.range 16).foldl (fun a p =>
    if partValid s p && limitOver s amps (.partition p) then stepDown a p 2 else a) (s, [])
  let a := (List.range 8).foldl (fun a r =>
    if limitOver s amps (.rank r) then (limitParts s (.rank r)).foldl (fun a p => stepDown a p 3) a else a) a
  if limitOver s amps .device || limitOver s amps .current then
    deviceStep s a (if limitOver s amps .current then 4 else 1) (List.range 8)
  else a

/-- The thermal limits of R57 of a partition's columns: below the thresholds, and with 3 % margin. -/
def thermalMargin (s : State) (p pct : Nat) : Bool :=
  (partCols s p).all (fun c =>
    decide (100 * (colAt s c).tj.toNat ≤ pct * s.power.govTj.toNat) && decide (100 * (colAt s c).tb.toNat ≤ pct * s.power.govTb.toNat))

/-- The model's prediction for one step up (R64): the partition's event power scaled from duty (4 − d)/4 to (5 − d)/4. -/
def predictsRoom (s : State) (amps p : Nat) : Bool :=
  let d := (partAt s p).duty
  let more := fun (k : Nat) => tget 0 s.power.partEsts (k + p) / (4 - d)
  (limitsOf s p).all (fun l => match limitBound s l with
    | none => true
    | some b => decide (limitLoad s amps l + (match l with | .current => more 32 | _ => more 16) < b)) &&
  thermalMargin s p 100 && !(partCols s p).any (fun c => isHot s c)

/-- Passes with margin, counted up to 10. -/
def countMargin (s : State) (amps p : Nat) : State :=
  let x := partAt s p
  let ok := (limitsOf s p).all (limitMargin s amps) && thermalMargin s p 97
  let n := if ok then natMin (x.margin + 1) 10 else 0
  if n = x.margin then s else setPart s p { x with margin := n }

/-- Partitions that may step up, before ranks are compared. -/
def mayRise (s : State) (amps : Nat) (downs : List Nat) : List Nat :=
  (List.range 16).filter (fun p => partValid s p && !downs.contains p && decide (0 < (partAt s p).duty) &&
    decide ((partAt s p).margin = 10) && predictsRoom s amps p)

/-- Step up the partitions of the highest rank among those that may (R64). -/
def capUps (s : State) (amps : Nat) (downs : List Nat) : State :=
  let ps := mayRise s amps downs
  let top := (ps.map (rankOf s)).foldl max 0
  (ps.filter (fun p => decide (rankOf s p = top))).foldl (fun s p => setPart s p { partAt s p with duty := (partAt s p).duty - 1 }) s

/-- A limit that is exceeded although all its partitions stood at 25 % when the pass began (R65). -/
def limitUnmet (s : State) (amps : Nat) (l : Limit) : Bool :=
  limitOver s amps l && (limitParts s l).all (fun p => decide (3 ≤ (partAt s p).duty)) &&
  (match l with | .partition p => partValid s p | .rank r => !(limitParts s (.rank r)).isEmpty | _ => true)

/-- R65: one entry, which names the lowest partition of the limit (log 98), when an episode begins, and `CAP_CAUSE.UNMET` while a limit of the partition is unmet. -/
def capUnmet (s0 : State) (amps : Nat) (s : State) : State :=
  let now := allLimits.filter (limitUnmet s0 amps)
  let begun := now.filter (fun l => !s.power.unmet.contains (limitNo l))
  let lasting := allLimits.filter (fun l => s.power.unmet.contains (limitNo l) && limitOver s0 amps l)
  let open_ := allLimits.filter (fun l => now.contains l || lasting.contains l)
  let s := begun.foldl (fun s l =>
    logPost s 0 2 0x11 (Config.logData 0x11 [(limitParts s0 l).headD 0, limitCause l])) s
  let s := (List.range 16).foldl (fun s p =>
    let x := partAt s p
    let u := open_.any (fun l => (limitParts s0 l).contains p)
    if u = x.cause.getLsbD 7 then s else setPart s p { x with cause := BitVec.ofNat 128 (setBits x.cause.toNat 7 1 (if u then 1 else 0)) }) s
  { s with power := { s.power with unmet := open_.map limitNo } }

/-- CAP_LOOP_PASS over ten estimates; `amps` is the core current averaged over the pass. -/
def execCapLoopPass (amps : Nat) (s : State) : Out :=
  if s.power.ests.length ≠ 10 then .next s
  else
    let s1 := (List.range 16).foldl (fun s p => countMargin s amps p) s
    let a := capDowns s1 amps
    let s2 := capUps a.1 amps a.2
    let s3 := capUnmet s1 amps s2
    .next (settleAll { s3 with power := { s3.power with ests := [], partEsts := [] } })

/-! ### Column governors (R57) -/

/-- Set a column's thermal limit; it notes since when the limit is 50 % or lower (04 R147). -/
def setTherm (s : State) (c n : Nat) : State :=
  let k := colAt s c
  settle (setCol s c { k with
    therm := n
    migrSince := if n < 2 then none else some (k.migrSince.getD s.tsc.toNat) }) c

/-- THERMAL_STEP_DOWN: a sensor is at its threshold, at once or 20 µs after the last step. -/
def execThermalStepDown (col : Fin 64) (s : State) : Out :=
  let c := col.val
  let k := colAt s c
  let due := match k.thermAt with | none => true | some t => decide (t + 20000 ≤ s.tsc.toNat)
  if !isHot s c || !due || decide (3 ≤ k.therm) then .next s
  else
    let s := setCol s c { k with thermAt := some s.tsc.toNat }
    let s := match validPart s c with | some p => capRecord s p 5 | none => s
    .next (setTherm s c (k.therm + 1))

/-- THERMAL_STEP_UP: both sensors have been 5 °C below their thresholds for 100 µs. -/
def execThermalStepUp (col : Fin 64) (s : State) : Out :=
  let c := col.val
  let k := colAt s c
  let due := match k.coolAt with | none => false | some t => decide (t + 100000 ≤ s.tsc.toNat)
  if !isCool s c || !due || decide (k.therm = 0) then .next s
  else .next (setTherm (setCol s c { k with coolAt := some s.tsc.toNat }) c (k.therm - 1))

/-- The sensors of a column take new readings (R58). -/
def setSensors (s : State) (c : Nat) (tj tb : BitVec 8) : State :=
  heatWatch (setCol s c { colAt s c with tj := tj, tb := tb }) c

def execSensorRefresh (col : Fin 64) (tj tb : BitVec 8) (s : State) : Out := .next (setSensors s col.val tj tb)

/-! ### Current ramp and ballast (R71 to R73) -/

/-- Hold of the ramp guard on each column: none when the demand is within the allowance, else free choices, of which at least one
column is held (R71, log 11). -/
def rampHolds (s : State) (held : Bool) : State :=
  let one := Config.freeNat (s.fresh + 64) % 64
  let r := (List.range 64).foldl (fun s c =>
    let n := if !held then 0 else if c = one then Config.freeNat (s.fresh + c) % 3 + 1 else Config.freeNat (s.fresh + c) % 4
    if n = (colAt s c).ramp then s else setCol s c { colAt s c with ramp := n }) s
  settleAll { r with fresh := if held then r.fresh + 65 else r.fresh }

/-- RAMP_GUARD_TICK of 0.5 µs: the core rail's current moves by at most 750 A; `demand` is what the work asks for. -/
def execRampGuardTick (demand : Nat) (s : State) : Out :=
  let p := s.power
  let rail := p.current + p.ballast
  let allow := rail + 750
  let work := natMin demand allow
  let floor := rail - 750
  let ballast := floor - work
  let p := { p with
    current := work, allow := allow, floor := floor, ballast := ballast
    ballastPk := max p.ballastPk ballast
    ballastAt := if ballast = 0 then p.ballastAt else some (p.ballastAt.getD s.tsc.toNat) }
  .next (rampHolds { s with power := p } (decide (allow < demand)))

/-- BALLAST_STOP once the ballast has reached zero: peak current and duration are logged. -/
def execBallastStop (s : State) : Out :=
  match s.power.ballastAt with
  | none => .next s
  | some t =>
    if s.power.ballast ≠ 0 then .next s
    else
      let s := logPost s 0 2 0x10 (Config.logData 0x10 [s.power.ballastPk, s.tsc.toNat - t])
      .next { s with power := { s.power with ballastPk := 0, ballastAt := none } }

/-! ### Coolant and thermal emergency (R74 to R78) -/

/-- The valve opening for a temperature (R74). -/
def valveFor (t : Nat) : Nat := if t ≤ 60 then 64 else if 95 ≤ t then 255 else 64 + (t - 60) * 191 / 35

def execValvePass (s : State) : Out :=
  .next ((List.range 64).foldl (fun s c =>
    let k := colAt s c
    if k.vfEn then s else setCol s c { k with valve := BitVec.ofNat 8 (valveFor (max k.tj.toNat k.tb.toNat)) }) s)

/-- COOLANT_ALARM: readings of a tower; an episode is logged once (R76). -/
def execCoolantAlarm (tower : Fin 4) (inlet flow : Nat) (s : State) : Out :=
  let t := tower.val
  if inlet ≤ 45 ∧ Config.flowFloor t ≤ flow then
    .next { s with power := { s.power with alarms := s.power.alarms.filter (fun x => decide (x ≠ t)) } }
  else if s.power.alarms.contains t then .next s
  else
    let s := logPost s 0 1 3 (Config.logData 3 [t, inlet, flow])
    .next { s with power := { s.power with alarms := t :: s.power.alarms } }

/-- Thresholds of the emergency (R77). -/
def isEmergency (bank : Bool) (temp : Nat) : Bool := if bank then decide (105 ≤ temp) else decide (115 ≤ temp)

def execEmergencyBegin (col : Fin 64) (bank : Bool) (temp : BitVec 8) (s : State) : Out :=
  if s.emerg.isSome || !isEmergency bank temp.toNat then .next s
  else
    let k := colAt s col.val
    let s := if bank then setSensors s col.val k.tj temp else setSensors s col.val temp k.tb
    .next { logPost s 0 1 1 (Config.logData 1 [col.val, if bank then 1 else 0, temp.toNat]) with emerg := some s.tsc.toNat }

/-- The timed sequences of the gated domains count ungated time alone: their starts move by the length of the emergency (R78). DESIGN
CHOICE: the governors' 20 µs and 100 µs and the migration dwell are the PMC's, and count the emergency's time (log 113). -/
def shiftTimes (s : State) (d : Nat) : State :=
  { s with
    toks := s.toks.map (fun p => (p.1, p.2.map (fun t => { t with reqs := t.reqs.map (fun r => { r with sent := r.sent + d }) })))
    l1 := s.l1.map (fun p => (p.1, p.2.map (fun q => (q.1, q.2.map (fun l => { l with born := l.born + d }))))) }

/-- EMERGENCY_END: every sensor is at or below 95 °C; the ramp guard starts from the idle current. The entry names the hottest
sensor (log 22). -/
def execEmergencyEnd (s : State) : Out :=
  let hot := (List.range 64).any (fun c => decide (95 < (colAt s c).tj.toNat) || decide (95 < (colAt s c).tb.toNat))
  if s.emerg.isNone || hot then .next s
  else
    let temp := fun (n : Nat) => if n % 2 = 1 then (colAt s (n / 2)).tb.toNat else (colAt s (n / 2)).tj.toNat
    let top := (List.range 128).foldl (fun m n => if temp m < temp n then n else m) 0
    let s := logPost (shiftTimes s (s.tsc.toNat - s.emerg.getD 0)) 0 1 2 (Config.logData 2 [top / 2, top % 2, temp top])
    .next ((s.cols.map (·.1)).foldl gateColumn { s with
      emerg := none, power := { s.power with current := 3000, allow := 3000 } })

/-! ### Cap frames (R67 to R70) -/

/-- A field of a frame. -/
def frameField (bs : List Byte) (off n : Nat) : Nat := leNat ((bs.drop off).take n)

/-- Magic, version and reserved flag bits are correct (R68). -/
def frameFormat (bs : List Byte) : Bool :=
  decide (bs.length = 64) && decide (frameField bs 0 2 = 0x4C42) && decide (frameField bs 2 1 = 1) && decide (frameField bs 3 1 < 4)

/-- The MAC is present and matches when firmware has provisioned a key. -/
def frameMac (s : State) (bs : List Byte) : Bool :=
  match s.mgmt.frameKey with
  | none => true
  | some k => decide (frameField bs 3 1 / 2 = 1) && decide (frameField bs 48 16 = (Config.hmac k (bs.take 48)).toNat)

/-- Newer in 32-bit serial-number arithmetic; a number exactly 2^31 ahead is not (log 97). -/
def serialNewer (a b : Word) : Bool := decide (0 < (a - b).toNat) && decide ((a - b).toNat < 2 ^ 31)

/-- CAP_FRAME on MGMT-A or, with `port`, MGMT-B. -/
def execCapFrame (port : Bool) (bytes : List Byte) (s : State) : Out :=
  let src := if port then 3 else 2
  let seq := BitVec.ofNat 32 (frameField bytes 4 4)
  if !frameFormat bytes then .next (logPost s src 2 0x12 (Config.logData 0x12 [1]))
  else if !frameMac s bytes then .next (logPost s src 2 0x12 (Config.logData 0x12 [2]))
  else if s.mgmt.capValid && !serialNewer seq s.mgmt.capSeq then .next s
  else
    let caps := (List.range 8).foldl (fun t r => tput 0xFFFFFFFF t r (BitVec.ofNat 32 (frameField bytes (12 + 4 * r) 4))) s.power.rankCap
    .next { s with
      power := { s.power with
        rankCap := caps
        devCap := if frameField bytes 3 1 % 2 = 1 then BitVec.ofNat 32 (frameField bytes 8 4) else s.power.devCap }
      mgmt := { s.mgmt with capSeq := seq, capValid := true } }

end Sys2Proof.Machine
end

