-- ==== Sys2Proof/Machine/Boot.lean ====
section
/-! DEFINITION. Width changes of links (01 R45 to R48), fatal device errors (01 R48, 02 R78), reset, loss of supply (06 R240), the
firmware image (02 R87 to R89), and SPDM (R90). -/

namespace Sys2Proof.Machine

/-! ### Loss of state -/

/-- Blocks of installs that a loss of state cuts off are free: the fresh ones of an install without its commit, the old ones of
one after it; charges stay (06 R240, R244). -/
def settleInstalls (s : State) : State :=
  s.weights.installs.foldl (fun s x => (if x.committed then x.old else x.units).foldl freeUnit s) s

/-- The state after reset: flash and its metadata keep what they hold. The model's own `agenda` and counter go on (log 1, 11). -/
def afterReset (s : State) : State :=
  let w := (settleInstalls s).weights
  { State.reset with
    weights := { Weights.reset with ver := w.ver, flash := w.flash, mapped := w.mapped, zones := w.zones }
    agenda := s.agenda, fresh := s.fresh }

/-- RESET: the device is in the boot ROM and waits for an image. -/
def execReset (s : State) : Out := .next (afterReset s)

/-- POWER_LOSS: all state but flash is lost, and the device acts again only after a reset. -/
def execPowerLoss (s : State) : Out := .next { afterReset s with boot := .railsOff }

/-- A fatal device error: vector 0 and the log entry (03 R95, 02 R86). -/
def fatalError (s : State) (cause : Nat) : State :=
  logPost { s with msix := s.msix ++ [0] } 0 6 0x52 (Config.logData 0x52 [cause])

/-- EMERGENCY_TIMEOUT: after 10 s the rails go, and all state with them; the log stands in the always-on domain (02 R78). -/
def execEmergencyTimeout (s : State) : Out :=
  match s.emerg with
  | none => .next s
  | some t =>
    if s.tsc.toNat < t + 10000000000 then .next s
    else
      let f := fatalError s 2
      .next { afterReset s with boot := .railsOff, mgmt := f.mgmt, msix := f.msix, tsc := s.tsc }

/-! ### Width changes (01 R45 to R48) -/

def linkAt (s : State) : LinkId → Link
  | .dl n => tget Link.full s.links n.val
  | .ual p => tget Link.full s.uals p.val

def setLink (s : State) (l : LinkId) (x : Link) : State :=
  match l with
  | .dl n => { s with links := tput Link.full s.links n.val x }
  | .ual p => { s with uals := tput Link.full s.uals p.val x }

/-- SOURCE of a link (02 R85). -/
def linkSource : LinkId → Nat
  | .dl n => 0x50 + n.val
  | .ual p => 0x60 + p.val

/-- A log entry about a link: link and widths. -/
def linkLog (s : State) (l : LinkId) (code w1 w2 : Nat) : State :=
  logPost s (linkSource l) 4 code (Config.logData code [linkSource l, w1, w2])

def isRepair (a : WidthAgent) : Bool := a == .linkLayer

/-- A request that a repair has made impossible (R45). -/
def widthRefused (x : Link) (a : WidthAgent) (w : Nat) : Bool := !isRepair a && decide (x.usable < w)

/-- Repairs stand before other waiting requests, each kind in its order. -/
def queueWidth (q : List (WidthAgent × Nat)) (r : WidthAgent × Nat) : List (WidthAgent × Nat) :=
  if isRepair r.1 then q.filter (fun p => isRepair p.1) ++ [r] ++ q.filter (fun p => !isRepair p.1) else q ++ [r]

/-- WIDTH_CHANGE_REQUEST for 4, 2 or 1 modules (or lanes ×1). -/
def execWidthChangeRequest (l : LinkId) (a : WidthAgent) (w : Nat) (s : State) : Out :=
  let x := linkAt s l
  if x.lost || !(decide (w = 4) || decide (w = 2) || decide (w = 1)) then .next s
  else if widthRefused x a w then .next (linkLog s l 0x31 x.width w)
  else match x.pending with
    | none => .next (setLink s l { x with pending := some (a, w) })
    | some _ => .next (setLink s l { x with next := queueWidth x.next (a, w) })

/-- The next waiting request starts; those that a repair has made impossible are refused. -/
def startWidth (s : State) (l : LinkId) : List (WidthAgent × Nat) → State
  | [] => setLink s l { linkAt s l with next := [] }
  | r :: t =>
    if widthRefused (linkAt s l) r.1 r.2 then startWidth (linkLog s l 0x31 (linkAt s l).width r.2) l t
    else setLink s l { linkAt s l with pending := some r, next := t }

/-- Every open region ends and every line's tokens are at its home: no kill of all contexts waits for them. -/
def dropRegions (s : State) : State :=
  (tsome s.clutches).foldl (fun s p => regionEnd s p.1 none) { s with toks := [], msgs := [] }

/-- A pending load of peer memory that went through the lost port: its reply has the UALink error status and no data, so that its value is
open. Which loads went through the port is open too (log 39). -/
def lostAcc (f : Nat) (a : PAcc) : PAcc :=
  match a.src with
  | .mem ch _ =>
    if ch.any (fun c => decide (peerBase ≤ c.1)) && Config.freeBool f then { a with src := .val (Config.freeWord f) (Config.freeWord (f + 1)) } else a
  | _ => a

/-- Every pending load of a clutch, by its place in `inflight`; two free values for each part. -/
def lostPends (f : Nat) (ps : List Pend) : List Pend :=
  ps.mapIdx (fun i p => { p with accs := p.accs.mapIdx (fun j a => lostAcc (f + 2 * (64 * i + j)) a) })

/-- The requests outstanding at a lost UALink port end (01 R48). -/
def losePort (s : State) : State :=
  (tsome s.clutches).foldl (fun s p =>
    modClutch { s with fresh := s.fresh + 128 * p.2.inflight.length } p.1 (fun c => { c with inflight := lostPends s.fresh c.inflight })) s

/-- A lost link (R48). A die link's loss kills every context, and the device accepts no launch; `none` while a lane repair holds a line
that the kill updates. -/
def loseLink (s : State) (l : LinkId) : Option State :=
  let x := linkAt s l
  let s := linkLog (setLink s l { x with lost := true, pending := none, next := [] }) l 0x32 x.width 0
  match l with
  | .ual _ => some (losePort s)
  | .dl _ => (killWhere (dropRegions s) (fun _ => true)).map (fun s => { fatalError s 1 with boot := .fatal })

/-- WIDTH_CHANGE: the change under way ends at the requested width, at the narrowest, or not at all; the width that a repair asked for
stays usable when it ends at the narrowest (log 81). Messages keep their order (R47). -/
def execWidthChange (l : LinkId) (o : Retrain) (s : State) : Out :=
  let x := linkAt s l
  match x.pending with
  | none => .next s
  | some (a, w) =>
    match o with
    | .lost => orStay s (loseLink s l)
    | _ =>
      let w' := if o == .atRequested then w else 1
      let y := { x with width := w', usable := if isRepair a then natMin x.usable w else x.usable, pending := none }
      .next (startWidth (linkLog (setLink s l y) l 0x30 x.width w') l x.next)

/-! ### Firmware and attestation (02 R87 to R90) -/

def sourceNo : ImageSource → Nat
  | .pcie => 4 | .mgmtA => 2 | .mgmtB => 3

/-- Why an image is rejected (R87, R88): 1 size, 2 key, 3 revoked, 4 signature, 5 security version. -/
def imageReason (i : Image) : Option Nat :=
  match (List.range 4).filter (fun k => decide (Config.keySlot k = i.keyHash)) with
  | [] => some (if 64 * 2 ^ 20 < i.size then 1 else 2)
  | ks =>
    if 64 * 2 ^ 20 < i.size then some 1
    else if ks.all (fun k => Config.keyRevoked k) then some 3
    else if !Config.rsaVerify i.keyHash i.digest i.signature then some 4
    else if i.secVersion < Config.minSecVersion then some 5
    else none

/-- The PMC has read every sensor before an image is accepted (02 R58): readings are free values. -/
def readSensors (s : State) : State :=
  let r := (List.range 64).foldl (fun s c =>
    setSensors s c (Config.freeByte (s.fresh + 2 * c)) (Config.freeByte (s.fresh + 2 * c + 1))) s
  { r with fresh := s.fresh + 128 }

/-- FIRMWARE_IMAGE: the first act of a source opens its transfer, the second is the end of it, when the image is judged; another
source receives busy meanwhile. -/
def execFirmwareImage (src : ImageSource) (img : Image) (s : State) : Out :=
  if s.boot != .rom then .next { s with reply := .error 2 }
  else match s.bootSrc with
    | none => .next { s with bootSrc := some src, reply := .ok [] }
    | some o =>
      if o ≠ src then .next { s with reply := .error 2 }
      else match imageReason img with
        | some r => .next (logPost { s with bootSrc := none, reply := .error 3 } 0 6 0x51 (Config.logData 0x51 [sourceNo src, r]))
        | none =>
          let s := readSensors (logPost s 0 6 0x50 (Config.logData 0x50 [sourceNo src, 0]))
          .next { s with boot := .running, bootSrc := none, image := some img.digest, reply := .ok [] }

/-- Measurement 4: `HBM_SPLIT`, `PART_MAP` and `PART_CFG0` to `PART_CFG15` as they read now, 8 bytes each (log 10). -/
def partitionBytes (s : State) : List Byte :=
  leBytes 8 (regVal s .firmware .hbmSplit) ++ leBytes 8 (regVal s .firmware .partMap) ++
  (List.range 16).flatMap (fun p => leBytes 8 (regVal s .firmware (.partCfg p)))

/-- The host link and what lies behind it are clocked; the management ports always are (02 R77, R79). -/
def wayOpen (s : State) (w : ImageSource) : Bool := s.emerg.isNone || w != .pcie

/-- SPDM_REQUEST over MCTP on a management port or PCIe DOE: the answer; what outside standards give is `Config.spdmFixed`. -/
def execSpdmRequest (q : SpdmRequest) (s : State) : Out :=
  if !wayOpen s q.way then .next s
  else
  let bs := match q.what with
    | .certificates => Config.spdmCerts s.image
    | .bootRom => Config.spdmFixed 1
    | .firmware => (match s.image with | some d => leBytes 64 d.toNat | none => Config.spdmFixed 2)
    | .fuses => Config.spdmFixed 3
    | .partition => partitionBytes s
  .next { s with reply := .ok bs }

end Sys2Proof.Machine
end

