-- ==== Sys2Proof/Machine/Dispatch.lean ====
section
/-! DEFINITION. The meaning of every row of the opcode table: one arm per constructor of `Instr`. -/

namespace Sys2Proof.Machine

def exec (i : Instr) (s : State) : Host.Outcome State Fault Refusal :=
  match i with
  -- integer (10 R339 to R344)
  | .add h t d a b => Sys2Proof.Machine.execAdd h t d a b s
  | .sub h t d a b => Sys2Proof.Machine.execSub h t d a b s
  | .addc h d a b c => Sys2Proof.Machine.execAddc h d a b c s
  | .subb h d a b c => Sys2Proof.Machine.execSubb h d a b c s
  | .mul h t d a b => Sys2Proof.Machine.execMul h t d a b s
  | .mulh h t d a b => Sys2Proof.Machine.execMulh h t d a b s
  | .mad h t d a b c => Sys2Proof.Machine.execMad h t d a b c s
  | .div h t d a b => Sys2Proof.Machine.execDiv h t d a b s
  | .rem h t d a b => Sys2Proof.Machine.execRem h t d a b s
  | .neg h t d a => Sys2Proof.Machine.execNeg h t d a s
  | .abs h t d a => Sys2Proof.Machine.execAbs h t d a s
  | .min h t d a b => Sys2Proof.Machine.execMin h t d a b s
  | .max h t d a b => Sys2Proof.Machine.execMax h t d a b s
  | .and h t d a b => Sys2Proof.Machine.execAnd h t d a b s
  | .or h t d a b => Sys2Proof.Machine.execOr h t d a b s
  | .xor h t d a b => Sys2Proof.Machine.execXor h t d a b s
  | .not h t d a => Sys2Proof.Machine.execNot h t d a s
  | .andn h t d a b => Sys2Proof.Machine.execAndn h t d a b s
  | .shl h t d a b => Sys2Proof.Machine.execShl h t d a b s
  | .shr h t d a b => Sys2Proof.Machine.execShr h t d a b s
  | .sar h t d a b => Sys2Proof.Machine.execSar h t d a b s
  | .rotl h t d a b => Sys2Proof.Machine.execRotl h t d a b s
  | .clz h t d a => Sys2Proof.Machine.execClz h t d a s
  | .ctz h t d a => Sys2Proof.Machine.execCtz h t d a s
  | .popc h t d a => Sys2Proof.Machine.execPopc h t d a s
  | .brev h t d a => Sys2Proof.Machine.execBrev h t d a s
  | .bfx h t d a b c => Sys2Proof.Machine.execBfx h t d a b c s
  | .bfi h t d a b c => Sys2Proof.Machine.execBfi h t d a b c s
  | .sel h t d a b c => Sys2Proof.Machine.execSel h t d a b c s
  | .cmp h cc t d a b => Sys2Proof.Machine.execCmp h cc t d a b s
  | .isat h t src d a => Sys2Proof.Machine.execIsat h t src d a s
  -- address registers (10 R345)
  | .aset h pr pw px d a b c => Sys2Proof.Machine.execAset h pr pw px d a b c s
  | .aadv h d a b => Sys2Proof.Machine.execAadv h d a b s
  | .aget h f d a => Sys2Proof.Machine.execAget h f d a s
  | .amov h d a => Sys2Proof.Machine.execAmov h d a s
  -- moves and lane exchange (10 R346 to R351)
  | .mov h t d a => Sys2Proof.Machine.execMov h t d a s
  | .movi h d imm => Sys2Proof.Machine.execMovi h d imm s
  | .movh h d imm => Sys2Proof.Machine.execMovh h d imm s
  | .shfl h m t d a b => Sys2Proof.Machine.execShfl h m t d a b s
  | .bcast h t d a b => Sys2Proof.Machine.execBcast h t d a b s
  | .vote h f d a => Sys2Proof.Machine.execVote h f d a s
  | .redux h op t d a => Sys2Proof.Machine.execRedux h op t d a s
  | .scan h op excl t d a => Sys2Proof.Machine.execScan h op excl t d a s
  | .pack h t sat d a b => Sys2Proof.Machine.execPack h t sat d a b s
  | .unpack h t d a b => Sys2Proof.Machine.execUnpack h t d a b s
  -- control flow and masks (10 R352 to R356)
  | .br h disp => Sys2Proof.Machine.execBr h disp s
  | .brx h a => Sys2Proof.Machine.execBrx h a s
  | .call h n disp => Sys2Proof.Machine.execCall h n disp s
  | .callx h n a => Sys2Proof.Machine.execCallx h n a s
  | .ret h => Sys2Proof.Machine.execRet h s
  | .exit h => Sys2Proof.Machine.execExit h s
  | .kjoin h k => Sys2Proof.Machine.execKjoin h k s
  | .kleave h k => Sys2Proof.Machine.execKleave h k s
  | .kwait h k => Sys2Proof.Machine.execKwait h k s
  | .kop h op d a b => Sys2Proof.Machine.execKop h op d a b s
  | .kcmp h cc t k a b => Sys2Proof.Machine.execKcmp h cc t k a b s
  | .yield h => Sys2Proof.Machine.execYield h s
  | .nop h => Sys2Proof.Machine.execNop h s
  -- memory (10 R357 to R363)
  | .ld h t o d m => Sys2Proof.Machine.execLd h t o d m s
  | .st h t o d m => Sys2Proof.Machine.execSt h t o d m s
  | .ldv h n d m => Sys2Proof.Machine.execLdv h n d m s
  | .stv h n d m => Sys2Proof.Machine.execStv h n d m s
  | .prf h sliceOnly m => Sys2Proof.Machine.execPrf h sliceOnly m s
  | .fence h f sc => Sys2Proof.Machine.execFence h f sc s
  | .cwb h m => Sys2Proof.Machine.execCwb h m s
  | .cinv h m => Sys2Proof.Machine.execCinv h m s
  -- queues (10 R364)
  | .qpush h t d q => Sys2Proof.Machine.execQpush h t d q s
  | .qpop h t d q => Sys2Proof.Machine.execQpop h t d q s
  | .qcfgSet h a q => Sys2Proof.Machine.execQcfgSet h a q s
  | .qcfgGet h d q => Sys2Proof.Machine.execQcfgGet h d q s
  | .ldx h t o d m => Sys2Proof.Machine.execLdx h t o d m s
  -- atomics and regions (10 R365 to R381)
  | .atom h op t o d base b => Sys2Proof.Machine.execAtom h op t o d base b s
  | .red h op t o base b => Sys2Proof.Machine.execRed h op t o base b s
  | .atxBegin h d disp => Sys2Proof.Machine.execAtxBegin h d disp s
  | .atxEnd h d => Sys2Proof.Machine.execAtxEnd h d s
  | .atxAbort h code => Sys2Proof.Machine.execAtxAbort h code s
  | .atxPin h a => Sys2Proof.Machine.execAtxPin h a s
  | .atxStat h d => Sys2Proof.Machine.execAtxStat h d s
  -- floating point (11 R385 to R395)
  | .fadd h t rm d a b => Sys2Proof.Machine.execFadd h t rm d a b s
  | .fsub h t rm d a b => Sys2Proof.Machine.execFsub h t rm d a b s
  | .fmul h t rm d a b => Sys2Proof.Machine.execFmul h t rm d a b s
  | .fma h t rm d a b c => Sys2Proof.Machine.execFma h t rm d a b c s
  | .fdiv h t rm d a b => Sys2Proof.Machine.execFdiv h t rm d a b s
  | .fsqrt h t rm d a => Sys2Proof.Machine.execFsqrt h t rm d a s
  | .frcp h d a => Sys2Proof.Machine.execFrcp h d a s
  | .frsq h d a => Sys2Proof.Machine.execFrsq h d a s
  | .fex2 h d a => Sys2Proof.Machine.execFex2 h d a s
  | .flg2 h d a => Sys2Proof.Machine.execFlg2 h d a s
  | .fsin h d a => Sys2Proof.Machine.execFsin h d a s
  | .fcos h d a => Sys2Proof.Machine.execFcos h d a s
  | .fmin h t d a b => Sys2Proof.Machine.execFmin h t d a b s
  | .fmax h t d a b => Sys2Proof.Machine.execFmax h t d a b s
  | .fcmp h cc t d a b => Sys2Proof.Machine.execFcmp h cc t d a b s
  | .fcls h t d a => Sys2Proof.Machine.execFcls h t d a s
  | .frnd h t rm d a => Sys2Proof.Machine.execFrnd h t rm d a s
  | .fscl h t rm d a b => Sys2Proof.Machine.execFscl h t rm d a b s
  | .fcvt h dt st rm sat elem d a => Sys2Proof.Machine.execFcvt h dt st rm sat elem d a s
  | .icvt h dt st rm sat d a => Sys2Proof.Machine.execIcvt h dt st rm sat d a s
  | .fdot2 h t rm d a b c => Sys2Proof.Machine.execFdot2 h t rm d a b c s
  | .fdot4 h t rm d a b c => Sys2Proof.Machine.execFdot4 h t rm d a b c s
  | .fpk h t rm sat d a b => Sys2Proof.Machine.execFpk h t rm sat d a b s
  -- matrix and rings (11 R399 to R421)
  | .mjob h e a b => Sys2Proof.Machine.execMjob h e a b s
  | .mcmp h fmt hi d a m => Sys2Proof.Machine.execMcmp h fmt hi d a m s
  | .mplane h a b c => Sys2Proof.Machine.execMplane h a b c s
  | .mnplane h d a c => Sys2Proof.Machine.execMnplane h d a c s
  | .mscl h fmt st asValue d a => Sys2Proof.Machine.execMscl h fmt st asValue d a s
  | .ringCfg h n a => Sys2Proof.Machine.execRingCfg h n a s
  | .ringAcq h n r d => Sys2Proof.Machine.execRingAcq h n r d s
  | .ringRel h n r => Sys2Proof.Machine.execRingRel h n r s
  -- engines and weight store (12 R423 to R438)
  | .cpy h e a => Sys2Proof.Machine.execCpy h e a s
  | .astr h e a => Sys2Proof.Machine.execAstr h e a s
  | .nmeGth h e a => Sys2Proof.Machine.execNmeGth h e a s
  | .nmeRed h e a => Sys2Proof.Machine.execNmeRed h e a s
  | .nmeCvt h e a => Sys2Proof.Machine.execNmeCvt h e a s
  | .winst h e a => Sys2Proof.Machine.execWinst h e a s
  | .wqry h d a => Sys2Proof.Machine.execWqry h d a s
  | .tlwait h e a => Sys2Proof.Machine.execTlwait h e a s
  | .tlget h f d e => Sys2Proof.Machine.execTlget h f d e s
  | .tlgetClr h d e => Sys2Proof.Machine.execTlgetClr h d e s
  -- vertical FIFO, leap, launch, join (12 R439 to R442)
  | .vfsend h a => Sys2Proof.Machine.execVfsend h a s
  | .vfrecv h d => Sys2Proof.Machine.execVfrecv h d s
  | .vffree h d => Sys2Proof.Machine.execVffree h d s
  | .leap h a => Sys2Proof.Machine.execLeap h a s
  | .launch h sc a b => Sys2Proof.Machine.execLaunch h sc a b s
  | .join h d a => Sys2Proof.Machine.execJoin h d a s
  -- barriers and sync-engine objects (12 R443 to R447)
  | .barArr h n cnt => Sys2Proof.Machine.execBarArr h n cnt s
  | .barWait h n => Sys2Proof.Machine.execBarWait h n s
  | .sbarArr h a => Sys2Proof.Machine.execSbarArr h a s
  | .sbarWait h a => Sys2Proof.Machine.execSbarWait h a s
  | .waitaddr h sc cc t a b => Sys2Proof.Machine.execWaitaddr h sc cc t a b s
  | .wake h a => Sys2Proof.Machine.execWake h a s
  | .deqInit h a b lc => Sys2Proof.Machine.execDeqInit h a b lc s
  | .deqPush h a b => Sys2Proof.Machine.execDeqPush h a b s
  | .deqPop h d a => Sys2Proof.Machine.execDeqPop h d a s
  | .deqSteal h d a => Sys2Proof.Machine.execDeqSteal h d a s
  -- system (12 R448 to R459)
  | .sysr h d n => Sys2Proof.Machine.execSysr h d n s
  | .sysw h n a => Sys2Proof.Machine.execSysw h n a s
  | .scall h imm => Sys2Proof.Machine.execScall h imm s
  | .brk h imm => Sys2Proof.Machine.execBrk h imm s
  | .tret h => Sys2Proof.Machine.execTret h s
  | .wfi h => Sys2Proof.Machine.execWfi h s
  | .tlbinvVa h ctx a => Sys2Proof.Machine.execTlbinvVa h ctx a s
  | .tlbinvCtx h ctx => Sys2Proof.Machine.execTlbinvCtx h ctx s
  | .tlbinvAll h => Sys2Proof.Machine.execTlbinvAll h s
  | .icinvLine h a => Sys2Proof.Machine.execIcinvLine h a s
  | .icinvAll h => Sys2Proof.Machine.execIcinvAll h s
  | .halt h => Sys2Proof.Machine.execHalt h s
  | .ipi h a => Sys2Proof.Machine.execIpi h a s
  | .dualWord stop s0 s1 => Sys2Proof.Machine.execDualWord stop s0 s1 s
  -- issue and results (04 R139, 05 R173)
  | .issueCycle u => Sys2Proof.Machine.execIssueCycle u s
  | .longResultWrite cid n lanes => Sys2Proof.Machine.execLongResultWrite cid n lanes s
  -- waits that end
  | .kwaitRelease cid k => Sys2Proof.Machine.execKwaitRelease cid k s
  | .queueWaitResume cid => Sys2Proof.Machine.execQueueWaitResume cid s
  | .ringAcqResume cid => Sys2Proof.Machine.execRingAcqResume cid s
  | .vfifoWaitResume cid => Sys2Proof.Machine.execVfifoWaitResume cid s
  | .tlwaitReturn cid => Sys2Proof.Machine.execTlwaitReturn cid s
  | .joinReturn cid => Sys2Proof.Machine.execJoinReturn cid s
  | .waitaddrReread cid => Sys2Proof.Machine.execWaitaddrReread cid s
  | .sbarWaitResume cid => Sys2Proof.Machine.execSbarWaitResume cid s
  | .barWaitResume cid => Sys2Proof.Machine.execBarWaitResume cid s
  | .launchQueueResume cid => Sys2Proof.Machine.execLaunchQueueResume cid s
  | .leapLand cid => Sys2Proof.Machine.execLeapLand cid s
  | .registerRecall cid => Sys2Proof.Machine.execRegisterRecall cid s
  | .windowParking cid => Sys2Proof.Machine.execWindowParking cid s
  | .regionCommit cid => Sys2Proof.Machine.execRegionCommit cid s
  | .engineAsyncDelivery cid => Sys2Proof.Machine.execEngineAsyncDelivery cid s
  | .interruptEntry col => Sys2Proof.Machine.execInterruptEntry col s
  | .timerExpiry col => Sys2Proof.Machine.execTimerExpiry col s
  -- engines
  | .copyChunk cmd => Sys2Proof.Machine.execCopyChunk cmd s
  | .streamElement cmd => Sys2Proof.Machine.execStreamElement cmd s
  | .nmeCommandRun cmd => Sys2Proof.Machine.execNmeCommandRun cmd s
  | .matrixTile core => Sys2Proof.Machine.execMatrixTile core s
  | .matrixJobComplete core => Sys2Proof.Machine.execMatrixJobComplete core s
  | .engineCommandComplete cmd => Sys2Proof.Machine.execEngineCommandComplete cmd s
  -- the weight store (06 R238 to R244)
  | .installStart cmd => Sys2Proof.Machine.execInstallStart cmd s
  | .installUnitProgram cmd failed => Sys2Proof.Machine.execInstallUnitProgram cmd failed s
  | .installCommit cmd => Sys2Proof.Machine.execInstallCommit cmd s
  | .installComplete cmd => Sys2Proof.Machine.execInstallComplete cmd s
  | .readingRoomFill unit flashError => Sys2Proof.Machine.execReadingRoomFill unit flashError s
  -- caches and tokens (06 R221 to R231)
  | .cacheFill l1 line => Sys2Proof.Machine.execCacheFill l1 line s
  | .l1EvictTimeout l1 line => Sys2Proof.Machine.execL1EvictTimeout l1 line s
  | .cwqDrain col n => Sys2Proof.Machine.execCwqDrain col n s
  | .transientRequest die line write => Sys2Proof.Machine.execTransientRequest die line write s
  | .tokenResponse src dst => Sys2Proof.Machine.execTokenResponse src dst s
  | .transientTimeout die line => Sys2Proof.Machine.execTransientTimeout die line s
  | .persistentActivate line => Sys2Proof.Machine.execPersistentActivate line s
  | .persistentDeactivate line => Sys2Proof.Machine.execPersistentDeactivate line s
  | .tokenWriteback src dst => Sys2Proof.Machine.execTokenWriteback src dst s
  | .syncEngineAtomic die => Sys2Proof.Machine.execSyncEngineAtomic die s
  -- translation, pager, promotion (06 R204 to R220)
  | .pageWalk l1 ctx va => Sys2Proof.Machine.execPageWalk l1 ctx va s
  | .pagerRecord => Sys2Proof.Machine.execPagerRecord s
  | .pgfDoneWrite tag fail => Sys2Proof.Machine.execPgfDoneWrite tag fail s
  | .pgfHeadWrite v => Sys2Proof.Machine.execPgfHeadWrite v s
  | .promoGo die v => Sys2Proof.Machine.execPromoGo die v s
  | .promotionComplete die => Sys2Proof.Machine.execPromotionComplete die s
  -- launch and scheduling (03, 04)
  | .tokenEnqueue b line tok whole => Sys2Proof.Machine.execTokenEnqueue b line tok whole s
  | .launchRecordCheck b line => Sys2Proof.Machine.execLaunchRecordCheck b line s
  | .dependenceEvaluation launch => Sys2Proof.Machine.execDependenceEvaluation launch s
  | .preTranslation gang => Sys2Proof.Machine.execPreTranslation gang s
  | .gangReserve gang => Sys2Proof.Machine.execGangReserve gang s
  | .gangDispatch gang => Sys2Proof.Machine.execGangDispatch gang s
  | .preemption gang => Sys2Proof.Machine.execPreemption gang s
  | .preemptResume gang => Sys2Proof.Machine.execPreemptResume gang s
  | .requeue gang => Sys2Proof.Machine.execRequeue gang s
  | .migrationRequest col => Sys2Proof.Machine.execMigrationRequest col s
  | .migration gang => Sys2Proof.Machine.execMigration gang s
  | .taskTermination task => Sys2Proof.Machine.execTaskTermination task s
  | .ctxRefresh ctx => Sys2Proof.Machine.execCtxRefresh ctx s
  | .ctxKill ctx => Sys2Proof.Machine.execCtxKill ctx s
  | .killComplete => Sys2Proof.Machine.execKillComplete s
  | .llCfgWrite b line v => Sys2Proof.Machine.execLlCfgWrite b line v s
  -- host, peers, registers (03)
  | .cxlMemWrite dpa data mask => Sys2Proof.Machine.execCxlMemWrite dpa data mask s
  | .cxlMemRead dpa => Sys2Proof.Machine.execCxlMemRead dpa s
  | .bar0Access off size write => Sys2Proof.Machine.execBar0Access off size write s
  | .ualinkRequest peer off op => Sys2Proof.Machine.execUalinkRequest peer off op s
  | .registerWrite r addr v => Sys2Proof.Machine.execRegisterWrite r addr v s
  -- vertical bus and bank (01 R25 to R37)
  | .vbusBeat col dir bad => Sys2Proof.Machine.execVbusBeat col dir bad s
  | .vbusRepair col dir group found => Sys2Proof.Machine.execVbusRepair col dir group found s
  | .bankRead col bo => Sys2Proof.Machine.execBankRead col bo s
  | .bankPartialWrite col bo data mask => Sys2Proof.Machine.execBankPartialWrite col bo data mask s
  | .patrolScrub col => Sys2Proof.Machine.execPatrolScrub col s
  | .scrubCfgWrite r col v => Sys2Proof.Machine.execScrubCfgWrite r col v s
  -- power and heat (02)
  | .powerEstimate => Sys2Proof.Machine.execPowerEstimate s
  | .weightRefit kind energy => Sys2Proof.Machine.execWeightRefit kind energy s
  | .capLoopPass amps => Sys2Proof.Machine.execCapLoopPass amps s
  | .thermalStepDown col => Sys2Proof.Machine.execThermalStepDown col s
  | .thermalStepUp col => Sys2Proof.Machine.execThermalStepUp col s
  | .rampGuardTick demand => Sys2Proof.Machine.execRampGuardTick demand s
  | .ballastStop => Sys2Proof.Machine.execBallastStop s
  | .valvePass => Sys2Proof.Machine.execValvePass s
  | .valveForceWrite r col v => Sys2Proof.Machine.execValveForceWrite r col v s
  | .coolantAlarm tower inlet flow => Sys2Proof.Machine.execCoolantAlarm tower inlet flow s
  | .emergencyBegin col bank temp => Sys2Proof.Machine.execEmergencyBegin col bank temp s
  | .emergencyEnd => Sys2Proof.Machine.execEmergencyEnd s
  | .emergencyTimeout => Sys2Proof.Machine.execEmergencyTimeout s
  | .capFrame port bytes => Sys2Proof.Machine.execCapFrame port bytes s
  | .partMapWrite r v => Sys2Proof.Machine.execPartMapWrite r v s
  | .partCfgWrite r p v => Sys2Proof.Machine.execPartCfgWrite r p v s
  | .devCapWrite r v => Sys2Proof.Machine.execDevCapWrite r v s
  | .curLimWrite r v => Sys2Proof.Machine.execCurLimWrite r v s
  | .govTjWrite r v => Sys2Proof.Machine.execGovTjWrite r v s
  | .govTbWrite r v => Sys2Proof.Machine.execGovTbWrite r v s
  | .mgmtSemAcquire r v => Sys2Proof.Machine.execMgmtSemAcquire r v s
  | .mgmtSemRelease r => Sys2Proof.Machine.execMgmtSemRelease r s
  | .mgmtLeaseExpiry => Sys2Proof.Machine.execMgmtLeaseExpiry s
  | .logClear r => Sys2Proof.Machine.execLogClear r s
  | .logIndexSet r imm => Sys2Proof.Machine.execLogIndexSet r imm s
  | .hbmSplitLock v => Sys2Proof.Machine.execHbmSplitLock v s
  | .wearSetWrite v => Sys2Proof.Machine.execWearSetWrite v s
  | .corePgWrite r col v => Sys2Proof.Machine.execCorePgWrite r col v s
  | .coreGate core => Sys2Proof.Machine.execCoreGate core s
  | .coreUngate core => Sys2Proof.Machine.execCoreUngate core s
  | .widthChangeRequest l a w => Sys2Proof.Machine.execWidthChangeRequest l a w s
  | .widthChange l o => Sys2Proof.Machine.execWidthChange l o s
  -- reset, firmware, attestation (02 R87 to R90)
  | .reset => Sys2Proof.Machine.execReset s
  | .firmwareImage src img => Sys2Proof.Machine.execFirmwareImage src img s
  | .spdmRequest q => Sys2Proof.Machine.execSpdmRequest q s
  | .powerLoss => Sys2Proof.Machine.execPowerLoss s
  | .cxlCacheSnoop line invalidate => Sys2Proof.Machine.execCxlCacheSnoop line invalidate s
  | .sensorRefresh col tj tb => Sys2Proof.Machine.execSensorRefresh col tj tb s

end Sys2Proof.Machine
end

