-- ==== Sys2Proof/Machine/Run.lean ====
section
/-! DEFINITION. What a step does: it takes the next act of another agent, or issues the next word of the chosen clutch
(04 R138, R139, 05 R158, 09 R308, R309). -/

namespace Sys2Proof.Machine

/-- Time passes before a step (02 R51; log 12). -/
def tick (s : State) : State :=
  { s with tsc := s.tsc + BitVec.ofNat 64 (Config.tscTicks s.fresh), fresh := s.fresh + 1 }

/-! ### Events that the model counts (02 R52; log 71) -/

/-- Count events of a kind in a block of the power model. -/
def count (s : State) (block event n : Nat) : State :=
  let k := 24 * block + event
  if n = 0 then s else { s with power := { s.power with tally := tput 0 s.power.tally k (tget 0 s.power.tally k + n) } }

/-- Block of the domain that a core stands in: its tier's compute die, or the base die for a host core. -/
def coreBlock (core : Nat) : Nat := 4 * colOf core + (if 256 ≤ core then 2 else if upperTier core then 1 else 0)

/-- The clutch that an act runs a word for, and the word: a word of the opcode table runs for `cur`, and an act that ends a wait runs the
waiting word. -/
def actWord (i : Instr) (s : State) : Option (Nat × Instr) :=
  let waiter := fun cid => (clutchAt s cid).wait.map (fun w => (cid, w.instr))
  match i with
  | .queueWaitResume cid => waiter cid
  | .vfifoWaitResume cid => waiter cid
  | .tlwaitReturn cid => waiter cid
  | .joinReturn cid => waiter cid
  | .waitaddrReread cid => waiter cid
  | .sbarWaitResume cid => waiter cid
  | .launchQueueResume cid => waiter cid
  | _ => if (infoOf i).isSome then some (s.cur, i) else none

/-- The act from `s` to `t` completed a word of clutch `cid`: it does not wait, took no trap, and ended no region. -/
def retired (s t : State) (cid : Nat) (i : Instr) : Bool :=
  let c := clutchAt s cid
  let d := clutchAt t cid
  runs s c && (issueOf c).isSome && d.wait.isNone && (c.region.isNone || d.region.isSome) &&
    (decide (c.traps = d.traps) || (match i with | .tret _ => true | .sysw _ _ _ => true | _ => false))

/-- Lanes that a word of a clutch executes in, once the results it needs have landed. -/
def lanesRun (s : State) (cid : Nat) (i : Instr) : Nat :=
  let ex := fun (c : Clutch) (w : WordInfo) => match issueOf c with
    | some p => execMask p.c w.hdr.pred p.at_
    | none => 0
  match infoOf i with
  | none => 0
  | some w =>
    let c := clutchAt s cid
    (lanesOf (if mustComplete c w (ex c w) then ex (clutchAt ((completeAll s cid).getD s) cid) w else ex c w)).length

/-- Events of a word that has completed: an instruction retired by a host core, and lane operations of `fma`. -/
def wordEvents (s t : State) (cid : Nat) (i : Instr) : State :=
  let core := (clutchAt s cid).core
  let t := if isHost (clutchAt s cid) then count t (coreBlock core) 18 1 else t
  match i with
  | .fma _ .f32 _ _ _ _ _ => count t (coreBlock core) 1 (lanesRun s cid i)
  | .fma _ .f64 _ _ _ _ _ => count t (coreBlock core) 2 (lanesRun s cid i)
  | _ => t

/-- Progress of a command through an act. -/
def progressOf (s t : State) (id : Nat) : Nat × Nat :=
  match cmdAt s id, cmdAt t id with
  | some k, some k' => (coreBlock k.core, k'.progress - k.progress)
  | _, _ => (0, 0)

/-- The events that the act `i` from `s` to `t` adds (02 R52; log 71). -/
def tallied (i : Instr) (s t : State) : State :=
  match i with
  | .copyChunk id => let p := progressOf s t id; count t p.1 23 ((p.2 + 127) / 128)
  | .streamElement id => let p := progressOf s t id; count t p.1 10 p.2
  | _ => match actWord i s with
    | some (cid, w) => if retired s t cid w then wordEvents s t cid w else t
    | none => t

/-- An act, and the events that it adds. -/
def act (i : Instr) (s : State) : Host.Outcome State Fault Refusal :=
  match exec i s with
  | .next t => .next (tallied i s t)
  | r => r

/-! ### Words and waits -/

/-- `nop` (10 R356), the word that a fetch fault stands for. -/
def nopWord : Instr := .nop { stop := false, pred := .always }

/-- A fetch fault or a word refused by check 1 or 2 of 09 R326. -/
def fetchTrap (s : State) (cid cause : Nat) (addr : Dword) (p : Issue) : State :=
  match completeAll s cid with
  | none => s
  | some s => takeTrap s cid cause addr p.at_ p.at_ p.ia nopWord

/-- Fetch the word at the issue address of clutch `cur`, decode it, and run it. -/
def issueNow (s : State) : Host.Outcome State Fault Refusal :=
  let cid := s.cur
  match issueOf (clutchAt s cid) with
  | none =>
    match (clutchAt s cid).region with
    | some _ => act (.regionCommit cid) s
    | none => .next s
  | some p =>
    match fetchAt s p.c p.ia with
    | (.wait, s) => .next s
    | (.trap k, s) =>
      if k = cPage then
        .next (if (stopAll s cid).isNone then s else pageFault s cid (byteAddr p.ia) p.at_ p.at_ p.ia .fetch nopWord)
      else .next (fetchTrap s cid k (byteAddr p.ia) p)
    | (.word w, s) =>
      match decode w with
      | .ok i => act i s
      | .error _ => .next (fetchTrap s cid cIllegal w p)

/-- A parked clutch issues once every pending result is written (05 R173); its issue address is that of the clutch then (05 R158). -/
def issueWord (s : State) : Host.Outcome State Fault Refusal :=
  if (clutchAt s s.cur).parked then
    match completeAll s s.cur with
    | none => .next s
    | some s => issueNow s
  else issueNow s

/-- What ends a wait (04 R138): the step of the opcode table for it, or the waiting word once more. -/
def waitStep (cid : Nat) (w : Wait) : Instr :=
  match w.kind with
  | .queue => .queueWaitResume cid
  | .ring => .ringAcqResume cid
  | .vfifo => .vfifoWaitResume cid
  | .tlwait => .tlwaitReturn cid
  | .join => .joinReturn cid
  | .waitaddr => .waitaddrReread cid
  | .sbar => .sbarWaitResume cid
  | .bar => .barWaitResume cid
  | .launchLine => .launchQueueResume cid
  | .leap => .leapLand cid
  | .commit => .regionCommit cid
  | _ => w.instr

/-- An engine error is due at the stop that the clutch has reached (12 R427). -/
def asyncReady (s : State) (cid : Nat) : Bool :=
  let c := clutchAt s cid
  (asyncStop c).isSome && (asyncDue s cid).isSome && (issueOf c).isSome

/-- An interrupt is due on the host core that is clutch `cid` (12 R461). -/
def intReady (s : State) (cid : Nat) : Bool := decide (cid < 64) && (intDue s cid).isSome

/-- The next act of clutch `cur`: an engine error is delivered (12 R427), an interrupt is taken, a waiting word is tried again, or a
word issues. A clutch that waits for the pager goes on when `PGF_DONE` answers (06 R217). -/
def clutchStep (s : State) : Host.Outcome State Fault Refusal :=
  let cid := s.cur
  let c := clutchAt s cid
  if !runs s c then .next s
  else if asyncReady s cid then act (.engineAsyncDelivery cid) s
  else if intReady s cid then act (.interruptEntry (Fin.ofNat 64 cid)) s
  else match c.wait with
    | some w => if w.kind = .pager then .next s else act (waitStep cid w) s
    | none => issueWord s

/-! ### Acts whose time has come -/

/-- A line that an L1 has held dirty for 100 µs, and that can leave it (07 R252). -/
def staleLine (s : State) : Option (Nat × Nat) :=
  s.l1.findSome? (fun p => p.2.findSome? (fun q => match q.2 with
    | some l => if l.dirty ≠ 0 ∧ l.born + 100000 ≤ s.tsc.toNat ∧ (evictLine s p.1 q.1).isSome = true then some (p.1, q.1) else none
    | none => none))

/-- An evaluation would change what a WAITING launch has met, or end its wait (04 R125). -/
def depDue (s : State) (l : Nat) : Bool :=
  match execDependenceEvaluation l s with
  | .next t => decide ((launchAt t l).map (fun x => (x.state, x.met)) ≠ (launchAt s l).map (fun x => (x.state, x.met)))
  | _ => false

/-- An act that the device makes now: an L1's eviction at its bound (07 R252), the answer of a page fault that has waited (06 R217), a promotion whose
checks have waited (R219), or the evaluation of a dependence whose word has just been written (04 R125). -/
def forced (s : State) : Option Instr :=
  if !live s then none
  else match staleLine s with
    | some (i, l) => some (.l1EvictTimeout i l)
    | none => match answerDue s with
    | some i => some i
    | none => match promoDue s with
    | some i => some i
    | none => (((tsome s.launches).filter (fun p => p.2.state == .waiting)).find? (fun p => depDue s p.1)).map
        (fun p => .dependenceEvaluation p.1)

/-- The step after time has passed, when no act is forced. -/
def stepNext (s : State) : Host.Outcome State Fault Refusal :=
  match s.boot, s.issuing, s.agenda with
  | .railsOff, _, .reset :: t => act .reset { s with agenda := t }
  | .railsOff, _, _ => .fault .railsOff
  | _, true, _ => clutchStep { s with issuing := false }
  | _, false, [] => clutchStep s
  | _, false, i :: t => act i { s with agenda := t }

/-- The step after time has passed. -/
def stepFrom (s : State) : Host.Outcome State Fault Refusal :=
  match forced s with
  | some i => act i s
  | none => stepNext s

end Sys2Proof.Machine
end

