-- ==== Sys2Proof/Machine/Place.lean ====
section
/-! DEFINITION. Placing one instruction where the next step fetches: page tables (06 R204, R205), the word, and a clutch that
stands at it (log 21). -/

namespace Sys2Proof.Machine

/-- Put bytes into memory. -/
def pokeBytes (m : List Host.Cell) (pa : Nat) : List Byte → List Host.Cell
  | [] => m
  | b :: t => pokeBytes (tput 0 m pa b) (pa + 1) t

/-- A page-table entry: address and flag bits [7:0] (06 R205). -/
def pteOf (pa flags : Nat) : Nat := pa / 256 * 4096 + flags

/-- Tables that map virtual page 0 to the page at 0x10000 with R, W, X and U (06 R204), and the word there. -/
def placeMem (m : List Host.Cell) (w : Nat) : List Host.Cell :=
  let m := pokeBytes m 0x1000 (leBytes 8 (pteOf 0x2000 1))
  let m := pokeBytes m 0x2000 (leBytes 8 (pteOf 0x3000 1))
  let m := pokeBytes m 0x3000 (leBytes 8 (pteOf 0x4000 1))
  let m := pokeBytes m 0x4000 (leBytes 8 (pteOf 0x5000 1))
  let m := pokeBytes m 0x5000 (leBytes 8 (pteOf 0x10000 0x3F))
  pokeBytes m 0x10000 (leBytes 8 w)

/-- The task that a word of a SIMT core runs in. -/
def placeTask : Task :=
  { gang := 0, launch := 0, ctx := 0, number := 0, core := 0, prio := 0, user := false, state := .resident, order := 0,
    stackN := 16, handler := 0, spOff := 0, szS := 0x10000, szQ := 0x1000, szG := 0x1000, szJ := 0x1000, regions := 1,
    engines := 8, cbBase := 0, cbLen := 0, extents := [], queues := [], qAddr := [], rings := [], bars := [], engs := [],
    engTrap := 0, clutches := [64], pub := [], image := none, imageSp := [], fifos := [], failed := none }

def placeGang : Gang :=
  { launch := 0, first := 0, count := 1, state := .resident, tasks := [0], requeues := 0, order := 0, fail := 0,
    extents := [], store := [], affinity := [], die := none, target := none, reserved := [], cores := [0], stack := [], pubs := [], over_ := [],
    seats := [], doomed := false }

/-- The clutch that issues the word: host core 0, or clutch 64 of SIMT core 0 for a word that host cores refuse (05 R197). -/
def placeCid (w : Nat) : Nat :=
  match (decodeTableWord 64 w).bind infoOf with
  | some x => if x.simt then 64 else 0
  | none => 0

/-- The translation of the word's page, as the core keeps it. -/
def placeTlb (core : Nat) : TlbEntry := { tlb := core, ctx := 0, va := 0, size := 65536, frame := 0x10000, perm := 0x3F }

def placeWord (s : State) (_nbits w : Nat) : State :=
  let cid := placeCid w
  let s := { s with
    mem := placeMem s.mem w, poison := [], toks := [], tlb := [placeTlb (if cid = 0 then 256 else 0)], icache := [], promo := [], l1 := [], launches := [], boot := .running, emerg := none,
    ctxs := tput CtxEnt.zero s.ctxs 0 { CtxEnt.zero with valid := true, root := 0x1000 },
    cur := cid, issuing := false, agenda := [] }
  if cid = 0 then
    let c := clutchAt s 0
    setClutch (modHost s 0 (fun h => { h with halted := false, hctx := 0 })) 0
      { c with lanes := [(0, { laneAt c 0 with pc := 0, exited := false, kwait := none })], wait := none, region := none, ie := false,
               atStop := none }
  else
    let s := { s with tasks := tput none s.tasks 0 (some placeTask), gangs := tput none s.gangs 0 (some placeGang) }
    setClutch s 64 { deadClutch with task := some 0, lanes := [(0, startLane 0 0)] }

end Sys2Proof.Machine
end

