-- ==== Sys2Proof/Machine/Step.lean ====
section
/-! DEFINITION. One step of the machine (log 1), and the host's placement of one word where the step fetches. -/

namespace Sys2Proof.Machine

/-- One step. Time passes; then an act whose time has come happens (07 R252, 04 R125), or the next listed act of another agent, or, when none is listed or an issue cycle has
just chosen a clutch, clutch `cur` acts. With the rails removed only a reset happens (02 R78). -/
def step (s : State) : Host.Outcome State Fault Refusal := stepFrom (tick s)

/-- See Sys2Proof/Machine/Place.lean. -/
def State.withFetchWord (s : State) (nbits w : Nat) : State := placeWord s nbits w

end Sys2Proof.Machine
end

