-- ==== Sys2Proof/Safety.lean ====
section
/-! DEFINITION. The terms in which statements about the machine are made: what a well-formed memory and a safe run are, when a
word runs its own effect, and what a word leaves as it was. -/

namespace Sys2Proof

/-- The canonical form of memory: addresses strictly rising, no entry equal to the 0 that an unlisted byte reads as (log 3). -/
abbrev Memory.wf (m : List Host.Cell) : Bool := Machine.twf (0 : Byte) m

/-- A safe run of k steps: it reaches a state, without a fault or a refusal. -/
def safeRun (k : Nat) (s : Machine.State) : Prop := ∃ t, Host.Core.run core k s = .next t

namespace Machine

/-! ### What a word leaves as it was -/

/-- What stands in a place, and whether its stack row is poisoned (05 R169). -/
def cell (c : Clutch) : Dst → Option Word × Bool
  | .g i j => (some (tget 0 (laneAt c i).v j), false)
  | .st i w => (tget none (laneAt c i).stack w, tget false (laneAt c i).bad w)
  | .s n => (some (tget 0 c.s n), false)
  | .k n => (some (tget 0 c.k n), false)

/-- A lane without its `pcv`, its waiting mark and its vector registers: window base, exit bit, LFSR, levels, fallback, tags. -/
def laneRest (l : Lane) : Lane := { l with pc := 0, kwait := none, v := [], stack := [], bad := [] }

/-- A clutch without its lanes, scalar and mask registers and flags, and without what every word that completes may change:
rotation, pending marks, its wait, the stop it stands at. Its address registers, `FPMODE`, trap states, level and all else remain. -/
def rest (c : Clutch) : Clutch :=
  { c with lanes := [], s := [], k := [], flags := 0, rc := 0, grp := 0, rot := false, hazard := [], parked := false,
           wait := none, region := none, atStop := none }

/-- From clutch `c` to `c'` nothing changes but the places listed, flags, and what `rest` and `laneRest` leave out. -/
structure Kept (c c' : Clutch) (dst : List Dst) : Prop where
  cells : ∀ d, d ∉ dst → cell c' d = cell c d
  lanes : ∀ n, laneRest (laneAt c' n) = laneRest (laneAt c n)
  rest  : rest c' = rest c

/-- A lane without its `pcv` and its waiting mark. -/
def bookLane (l : Lane) : Lane := { l with pc := 0, kwait := none }

/-- Clutch `c'` differs from `c` in bookkeeping alone: `pcv`, waiting marks, rotation, pending marks, the region's counters. -/
structure Book (c c' : Clutch) : Prop where
  rest  : rest c' = rest c
  s     : c'.s = c.s
  k     : c'.k = c.k
  flags : c'.flags = c.flags
  lanes : ∀ n, bookLane (laneAt c' n) = bookLane (laneAt c n)

/-! ### When a word runs its own effect -/

/-- The clutch with which the word at an issue address begins. -/
def atIssue (p : Issue) : Clutch := { p.c with atStop := none }

/-- The state in which the word's own effect runs. -/
def entry (s : State) (p : Issue) : State := setClutch s s.cur (atIssue p)

/-- Lanes that execute. -/
def exLanes (w : WordInfo) (p : Issue) : Mask := execMask p.c w.hdr.pred p.at_

/-- What the word's own effect is given. -/
def wordCtx (s : State) (w : WordInfo) (p : Issue) : Ctx :=
  { cid := s.cur, ia := p.ia, at_ := p.at_, ex := exLanes w p }

/-- Clutch `cur` is about to issue the word `i`, with facts `w`, at issue `p`; some lane executes, and none of checks 3 to 6 of
09 R326 stops it; no pending result must be written first, and every stack row that it reads is there (05 R198); no region is open. -/
structure Ready (s : State) (i : Instr) (w : WordInfo) (p : Issue) : Prop where
  wf     : wellFormed i = true
  info   : infoOf i = some w
  runs   : runs s (clutchAt s s.cur) = true
  issue  : issueOf (clutchAt s s.cur) = some p
  lanes  : exLanes w p ≠ 0
  free   : mustComplete (atIssue p) w (exLanes w p) = false
  simt   : w.simt = true → isHost p.c = false
  host   : w.host = true → isHost p.c = true
  pairs  : oddPair (entry s p) (atIssue p) (exLanes w p) i = false
  priv   : privFails p.c i w = false
  rows   : badRows (entry s p) (atIssue p) w i p.at_ (exLanes w p) = none
  hazard : p.c.fpmode.getLsbD 31 = true → hazardOf (entry s p) (atIssue p) w i (exLanes w p) = none
  links  : p.c.fpmode.getLsbD 31 = true → linkHazard (atIssue p) w (exLanes w p) = false
  stack  : (stackVas (entry s p) (atIssue p) w (exLanes w p)).all (stackReady (entry s p) (atIssue p)) = true
  region : p.c.region = none

/-- As `Ready`, for a clutch with an open region `g` that the word may run in (10 R368, R370). -/
structure ReadyIn (s : State) (i : Instr) (w : WordInfo) (p : Issue) (g : Region) : Prop where
  wf     : wellFormed i = true
  info   : infoOf i = some w
  runs   : runs s (clutchAt s s.cur) = true
  issue  : issueOf (clutchAt s s.cur) = some p
  lanes  : exLanes w p ≠ 0
  free   : mustComplete (atIssue p) w (exLanes w p) = false
  simt   : w.simt = true → isHost p.c = false
  host   : w.host = true → isHost p.c = true
  pairs  : oddPair (entry s p) (atIssue p) (exLanes w p) i = false
  priv   : privFails p.c i w = false
  rows   : badRows (entry s p) (atIssue p) w i p.at_ (exLanes w p) = none
  hazard : p.c.fpmode.getLsbD 31 = true → hazardOf (entry s p) (atIssue p) w i (exLanes w p) = none
  links  : p.c.fpmode.getLsbD 31 = true → linkHazard (atIssue p) w (exLanes w p) = false
  stack  : (stackVas (entry s p) (atIssue p) w (exLanes w p)).all (stackReady (entry s p) (atIssue p)) = true
  region : p.c.region = some g
  short  : g.words < 4096
  may    : w.forbid = false

/-- The clutch with which a word begins inside a region: tags that it reads are pinned and those it overwrites are removed, but for the
words that treat tags themselves (10 R372). -/
def atIssueIn (w : WordInfo) (p : Issue) : Clutch :=
  if w.own then atIssue p else untagRegs (pinRegs (atIssue p) (exLanes w p) w.reads) (exLanes w p) w.writes

/-- The state in which a word's own effect runs inside a region. -/
def entryIn (s : State) (w : WordInfo) (p : Issue) : State := setClutch s s.cur (atIssueIn w p)

/-- The word is done: `t` is `u`, the machine after the word's own effect, but for the bookkeeping of clutch `cur`, which the
effect left as `c`; the lanes at the issue address that did not branch stand at the next word. -/
structure After (s u t : State) (p : Issue) (c : Clutch) (jumped : Mask) : Prop where
  others : t = setClutch u s.cur (clutchAt t s.cur)
  book   : Book c (clutchAt t s.cur)
  pcs    : ∀ n, (laneAt (clutchAt t s.cur) n).pc =
             if (p.at_ &&& ~~~jumped).getLsbD n then p.ia + 1 else (laneAt c n).pc
  closed : c.region = none → (clutchAt t s.cur).region = none

/-- From `u`, the machine with what the word did outside its clutch, state `t` differs in clutch `cur` alone, and there in the
listed places, flags and bookkeeping alone; the lanes at the issue address that did not branch stand at the next word, the others
stay. -/
structure Completes (s u t : State) (p : Issue) (dst : List Dst) : Prop where
  others : t = setClutch u s.cur (clutchAt t s.cur)
  kept   : Kept (clutchAt s s.cur) (clutchAt t s.cur) dst
  pcs    : ∀ n, (laneAt (clutchAt t s.cur) n).pc =
             if p.at_.getLsbD n then p.ia + 1 else (laneAt (clutchAt s s.cur) n).pc
  closed : (clutchAt t s.cur).region = none

/-- The place of the high half of a register pair in a lane (05 R166). -/
def placeHi (c : Clutch) (lane : Nat) : Reg → Option Dst
  | .v j => some (vPlace c lane (j.val + 1))
  | .s n => some (.s (n.val + 1))
  | _ => none

/-- The places that a destination names in one lane, each with the lane and its word of the result (09 R313). -/
def laneCells (c : Clutch) (wide : Bool) (d : Reg) (n : Nat) : List (Dst × Nat × Nat) :=
  (placeOf c n d).toList.map (fun x => (x, n, 0)) ++ (if wide then (placeHi c n d).toList.map (fun x => (x, n, 1)) else [])

/-- The places that a destination names for the executing lanes: a vector destination in each, another once, with the result of
the lowest (09 R314). -/
def destCells (c : Clutch) (ex : Mask) (wide : Bool) (d : Reg) : List (Dst × Nat × Nat) :=
  (if isVec d then lanesOf ex else [lowLane ex]).flatMap (laneCells c wide d)

/-- A word stored in a place; the masks of a host core have one bit (05 R196). -/
def stored (c : Clutch) (d : Dst) (x : Word) : Word :=
  match d with
  | .k _ => if isHost c then x &&& 1 else x
  | _ => x

/-- The destination `d` of `c'` holds, in each of its places, its word of the result `f` of its lane. -/
def Holds (c c' : Clutch) (ex : Mask) (wide : Bool) (d : Reg) (f : Nat → Nat) : Prop :=
  ∀ e ∈ destCells c ex wide d, cell c' e.1 = (some (stored c e.1 (BitVec.ofNat 32 (f e.2.1 / 2 ^ (32 * e.2.2)))), false)

/-- The places of a destination. -/
def destPlaces (c : Clutch) (ex : Mask) (wide : Bool) (d : Reg) : List Dst := (destCells c ex wide d).map (·.1)

/-- Flags that the executing lanes raise, merged (08 R284). -/
def mergeFl (ex : Mask) (f : Nat → Fl) : Fl := (lanesOf ex).foldl (fun (a : Fl) i => a ||| f i) 0

end Machine

end Sys2Proof
end

