-- ==== Sys2Proof/Certificates/Slice0/Obligations.lean ====
section
/-! DEFINITION. The statements. Each `Obligations.<Name>` is a proposition for the provers; the definitions before them say, in the
spec's terms, what a word's result is. -/

open Sys2Proof Sys2Proof.Machine

namespace Sys2Proof.Machine

/-! ### Words of the arithmetic shape -/

/-- Where the word `i` is ready, it completes: the destination `d` of every executing lane holds the result `f`, the flags of `f`
are merged, and nothing else of the machine changes. -/
def AluDone (s : State) (i : Instr) (d : Reg) (wide : Bool) (f : State → Clutch → Nat → Nat × Fl) : Prop :=
  ∀ w p, Ready s i w p → ∃ t, exec i s = .next t ∧
    Completes s s t p (destPlaces (atIssue p) (exLanes w p) wide d) ∧
    Holds (atIssue p) (clutchAt t s.cur) (exLanes w p) wide d (fun n => (f (entry s p) (atIssue p) n).1) ∧
    (clutchAt t s.cur).flags = p.c.flags ||| mergeFl (exLanes w p) (fun n => (f (entry s p) (atIssue p) n).2)

/-- The value x as bits of type t. -/
abbrev bv (t : Ty) (x : Nat) : BitVec (tyBits t) := BitVec.ofNat (tyBits t) x

/-- The number that bits of type t stand for: signed for `.i` (10 R338). -/
def num (t : Ty) (x : BitVec (tyBits t)) : Int := if tySigned t then x.toInt else x.toNat

/-- A word `mnemonic.T d, a, b` with no flags, whose result is `f` of its operands (10 R339). -/
def BinDone (s : State) (i : Instr) (t : Ty) (d a : Reg) (b : Opnd)
    (f : BitVec (tyBits t) → BitVec (tyBits t) → BitVec (tyBits t)) : Prop :=
  AluDone s i d (tyWide t) (fun u c n => ((f (bv t (rdN u c n (tyWide t) a)) (bv t (opN u c n t b))).toNat, 0))

/-- A shift: the count is the unsigned value of a 32-bit operand (10 R339). -/
def ShiftDone (s : State) (i : Instr) (t : Ty) (d a : Reg) (b : Opnd) (f : BitVec (tyBits t) → Nat → BitVec (tyBits t)) : Prop :=
  AluDone s i d (tyWide t) (fun u c n => ((f (bv t (rdN u c n (tyWide t) a)) (op32 u c n t b)).toNat, 0))

/-- A word `mnemonic.T d, a` (10 R340). -/
def UnDone (s : State) (i : Instr) (t : Ty) (wide : Bool) (d a : Reg) (f : BitVec (tyBits t) → BitVec (tyBits t)) : Prop :=
  AluDone s i d wide (fun u c n => ((f (bv t (rdN u c n (tyWide t) a))).toNat, 0))

/-- A division's result and flag: DIVZERO and `z` when the divisor is 0 (08 R299). -/
def divSpec (t : Ty) (z : BitVec (tyBits t) → BitVec (tyBits t)) (q : BitVec (tyBits t) → BitVec (tyBits t) → BitVec (tyBits t))
    (a b : BitVec (tyBits t)) : Nat × Fl :=
  if b = 0 then ((z a).toNat, fDivzero) else ((q a b).toNat, 0)

/-- The field that `bfx` and `bfi` name: position and length (10 R341). -/
def fieldPos (w b : Nat) : Nat := min (b % 256) w
def fieldLen (w b c : Nat) : Nat := min (c % 256) (w - fieldPos w b)

/-- The extreme values of an integer type (10 R344). -/
def lowest (t : Ty) : Int := if tySigned t then -2 ^ (tyBits t - 1) else 0
def highest (t : Ty) : Int := if tySigned t then 2 ^ (tyBits t - 1) - 1 else 2 ^ tyBits t - 1

/-- A value clamped to a type's range, and SAT when the clamp changes it (08 R296, 10 R344). -/
def clampSpec (t : Ty) (x : Int) : Int × Fl :=
  let y := max (lowest t) (min (highest t) x)
  (y, if y = x then 0 else fSat)

/-! ### Words of the other shapes -/

/-- Where the word `i` is ready and `ok` holds, it completes: `eff` gives the machine and the clutch after its own effect, from the
state, the lanes and the clutch with which it begins; `jumped` are the lanes whose `pcv` the effect sets. -/
def WordDone (s : State) (i : Instr) (ok : State → Ctx → Clutch → Prop) (eff : State → Ctx → Clutch → State × Clutch)
    (jumped : State → Ctx → Clutch → Mask) : Prop :=
  ∀ w p, Ready s i w p → ok (entry s p) (wordCtx s w p) (atIssue p) → ∃ t, exec i s = .next t ∧
    After s (eff (entry s p) (wordCtx s w p) (atIssue p)).1 t p (eff (entry s p) (wordCtx s w p) (atIssue p)).2
      (jumped (entry s p) (wordCtx s w p) (atIssue p))

/-- A word that changes its own clutch alone and branches nowhere. -/
def RegDone (s : State) (i : Instr) (ok : State → Ctx → Clutch → Prop) (eff : State → Ctx → Clutch → Clutch) : Prop :=
  WordDone s i ok (fun u x c => (u, eff u x c)) (fun _ _ _ => 0)

/-- No further condition. -/
def always (_ : State) (_ : Ctx) (_ : Clutch) : Prop := True

/-- A long-class word (05 R172): where it is ready its results become pending, one part per executing lane, and its flags are
merged; the machine is unchanged but for its clutch. -/
def LongDone (s : State) (i : Instr) (d : Reg) (wide : Bool) (f : State → Ctx → Clutch → Nat → Nat × Fl) : Prop :=
  RegDone s i always (fun u x c =>
    let k := pendAll c x.ex wide d (fun n => (f u x c n).1)
    { k with flags := k.flags ||| mergeFl x.ex (fun n => (f u x c n).2) })

/-- The word traps with a cause, `TRAP_ADDR` and `TRAP_MASK` where it is ready and `ok` holds: nothing of its own effect happens and
the entry of 12 R457 and R458 is taken, `TRAP_PC` being its issue address; before a POISON trap the bank read of its access is logged
(01 R32). -/
def WordTraps (s : State) (i : Instr) (ok : State → Ctx → Clutch → Prop) (cause : State → Ctx → Clutch → Nat)
    (addr : State → Ctx → Clutch → Dword) (mask : State → Ctx → Clutch → Mask) : Prop :=
  ∀ w p, Ready s i w p → ok (entry s p) (wordCtx s w p) (atIssue p) →
    exec i s = .next (takeTrap (poisonSeen (entry s p) s.cur (cause (entry s p) (wordCtx s w p) (atIssue p))
      (addr (entry s p) (wordCtx s w p) (atIssue p))) s.cur (cause (entry s p) (wordCtx s w p) (atIssue p))
      (addr (entry s p) (wordCtx s w p) (atIssue p)) (mask (entry s p) (wordCtx s w p) (atIssue p)) p.at_ p.ia i)

/-- A converting word: results are written at once, and the LFSR of every executing lane steps when the word rounds
stochastically (08 R291). -/
def ConvDone (s : State) (i : Instr) (d : Reg) (wide : Bool) (rm : Clutch → Rnd) (f : State → Ctx → Clutch → Nat → Nat × Fl) : Prop :=
  RegDone s i always (fun u x k =>
    let k1 := wrAll k x.ex wide d (fun n => (f u x k n).1)
    let k2 := { k1 with flags := k1.flags ||| mergeFl x.ex (fun n => (f u x k n).2) }
    if rm k = .sr then modLanes k2 x.ex (fun _ l => { l with lfsr := lfsrStep l.lfsr }) else k2)

/-- The value of a finite number. -/
def fpRat : Fp → Rat
  | .fin n m e => (if n then -1 else 1) * (m : Rat) * (2 : Rat) ^ e
  | _ => 0

/-! ### Accesses to memory -/

/-- The checks of the lanes of a load (10 R357, R360, 06 R214): an ordered load checks alignment, and only an unordered one may
reach device registers; an acquiring one at column scope or wider reads past its L1 (07 R261). -/
def ldPlaces (t : Ty) (o : MOrd) (d : Reg) (m : MemOp) (u : State) (x : Ctx) (c : Clutch) : Checked :=
  checkLanes u (loadReq u c o m ((memSize t).getD 4)) (accLanes x.ex (isScl d)) (fun i => eaOf u c i m ((memSize t).getD 4)) ((memSize t).getD 4) (devReach c.level false)

/-- The checks of the lanes of a store (10 R360, 06 R214). -/
def stPlaces (t : Ty) (o : MOrd) (m : MemOp) (u : State) (x : Ctx) (c : Clutch) : Checked :=
  checkLanes u (reqOf u c (baseReg c m.base) .store (if o = .relaxed then 0 else (memSize t).getD 4) (decide (o = .relaxed)))
    (lanesOf x.ex) (fun i => eaOf u c i m ((memSize t).getD 4)) ((memSize t).getD 4) (devReach c.level true)

/-- The checks of the lanes of a vector access of k registers (10 R361). -/
def vecPlaces (acc : AccKind) (k : Nat) (m : MemOp) (u : State) (x : Ctx) (c : Clutch) : Checked :=
  checkLanes u (reqOf u c (baseReg c m.base) acc 4 false) (lanesOf x.ex) (fun i => eaOf u c i m (4 * k)) (4 * k) (fun _ => false)

/-- The checks of the lanes of an atomic (10 R365). -/
def atomPlaces (t : Ty) (base : Reg) (u : State) (x : Ctx) (c : Clutch) : Checked :=
  checkLanes u (reqOf u c (baseReg c base) .atomic ((memSize t).getD 4) false) (lanesOf x.ex) (fun i => baseVal u c i base)
    ((memSize t).getD 4) (fun _ => false)

/-- The physical bytes of a place. -/
def placePas : Place → List Nat
  | .phys ch => bytePas ch
  | _ => []

/-- Where a word is ready and the machine `u` begins with what `ok` names, it completes as `eff` says; as `WordDone`, with
witnesses of the steps that wait for nothing. -/
def WordDoneVia {α : Type} (s : State) (i : Instr) (ok : State → Ctx → Clutch → α → Prop) (eff : α → State → Ctx → Clutch → State)
    (clutch : α → State → Ctx → Clutch → Clutch) : Prop :=
  ∀ w p a, Ready s i w p → ok (entry s p) (wordCtx s w p) (atIssue p) a → ∃ t, exec i s = .next t ∧
    After s (eff a (entry s p) (wordCtx s w p) (atIssue p)) t p (clutch a (entry s p) (wordCtx s w p) (atIssue p)) 0

/-! ### Words inside a region -/

/-- Inside a region the word completes: `eff` gives the machine and the clutch after its effect; the region goes on as the effect
left it, one word longer, but for its list of written registers and the flags that it may have raised (10 R368, R379). -/
def RegionWordDone (s : State) (i : Instr) (ok : State → Ctx → Clutch → Prop) (eff : State → Ctx → Clutch → State × Clutch) : Prop :=
  ∀ w p g, ReadyIn s i w p g → ok (entryIn s w p) (wordCtx s w p) (atIssueIn w p) →
    ∃ t, exec i s = .next t ∧
      After s (eff (entryIn s w p) (wordCtx s w p) (atIssueIn w p)).1 t p (eff (entryIn s w p) (wordCtx s w p) (atIssueIn w p)).2 0 ∧
      ∀ g1, (eff (entryIn s w p) (wordCtx s w p) (atIssueIn w p)).2.region = some g1 →
        ∃ g2, (clutchAt t s.cur).region = some g2 ∧ g2.words = g1.words + 1 ∧
          { g2 with words := 0, wrote := [], wroteA := [], flagged := 0 } =
            { g1 with words := 0, wrote := [], wroteA := [], flagged := 0 }

end Sys2Proof.Machine

namespace Sys2Proof.Machine

/-! ### Issue of engine commands -/

/-- What the issue of a command finds (12 R423, R424): the clutch has not landed, the context exists, the block's address passes the
checks of the lowest executing lane, the block `blk` is read, the context has room, and the release is done, which leaves `v`;
`w` is the machine after the block was read. No weight line is under way for the clutch (06 R238). -/
structure IssueFinds (e : Nat) (sc : Scope) (base : Reg) (u : State) (x : Ctx) (c : Clutch) (blk : BitVec 1024) (w v : State) : Prop where
  home  : c.pad = none
  ctx   : e < engCount u c
  asks  : asksOf u (2 * x.cid) = []
  block : ∃ ps u1 bs,
    checkLanes u (reqOf u c (baseReg c base) .load 128 false) [lowLane x.ex] (fun _ => baseVal u c (lowLane x.ex) base) 128
      (fun _ => false) = .ok ps ∧
    weightMisses u c.core ps = [] ∧ syncFirst u x.cid (ps.map (·.2)) = some u1 ∧
    (ps.head?).bind (fun p => readPlace u1 c.core p.2 128) = some (w, bs) ∧ blk = BitVec.ofNat 1024 (leNat bs)
  room  : outstanding (engAt w (engRef (clutchAt w x.cid)) e) < 32
  rel   : releaseAll w x.cid sc = some v

end Sys2Proof.Machine

/-! ### Integers -/

/-- 10 R339, 08 R299: the integer words of two sources; division by 0 gives 0 and the dividend, with DIVZERO. -/
def Obligations.TwoSourceIntegerResults : Prop :=
  ∀ (s : State) (h : Hdr) (t : Ty) (d a : Reg) (b : Opnd),
    BinDone s (.add h t d a b) t d a b (· + ·) ∧
    BinDone s (.sub h t d a b) t d a b (· - ·) ∧
    BinDone s (.mul h t d a b) t d a b (· * ·) ∧
    BinDone s (.mulh h t d a b) t d a b (fun x y => BitVec.ofInt _ (num t x * num t y / 2 ^ tyBits t)) ∧
    BinDone s (.min h t d a b) t d a b (fun x y => if num t x ≤ num t y then x else y) ∧
    BinDone s (.max h t d a b) t d a b (fun x y => if num t x ≤ num t y then y else x) ∧
    BinDone s (.and h t d a b) t d a b (· &&& ·) ∧
    BinDone s (.or h t d a b) t d a b (· ||| ·) ∧
    BinDone s (.xor h t d a b) t d a b (· ^^^ ·) ∧
    BinDone s (.andn h t d a b) t d a b (fun x y => x &&& ~~~y) ∧
    ShiftDone s (.shl h t d a b) t d a b (fun x n => if tyBits t ≤ n then 0 else x <<< n) ∧
    ShiftDone s (.shr h t d a b) t d a b (fun x n => if tyBits t ≤ n then 0 else x >>> n) ∧
    ShiftDone s (.sar h t d a b) t d a b (fun x n => x.sshiftRight (min n (tyBits t))) ∧
    ShiftDone s (.rotl h t d a b) t d a b (fun x n => x.rotateLeft (n % tyBits t)) ∧
    AluDone s (.div h t d a b) d (tyWide t) (fun u c n =>
      divSpec t (fun _ => 0) (fun x y => if tySigned t then x.sdiv y else x / y)
        (bv t (rdN u c n (tyWide t) a)) (bv t (opN u c n t b))) ∧
    AluDone s (.rem h t d a b) d (tyWide t) (fun u c n =>
      divSpec t (fun x => x) (fun x y => if tySigned t then x.srem y else x % y)
        (bv t (rdN u c n (tyWide t) a)) (bv t (opN u c n t b)))

/-- 10 R340, R343, R344: one-source words, `cmp`, `isat`. 10 R341, R342: three-source words, carry and borrow. -/
def Obligations.OneAndThreeSourceIntegerResults : Prop :=
  (∀ (s : State) (h : Hdr) (t q : Ty) (cc : Cmp) (d a : Reg) (b : CmpOpnd),
    UnDone s (.neg h t d a) t (tyWide t) d a (fun x => -x) ∧
    UnDone s (.abs h t d a) t (tyWide t) d a (fun x => if x.toInt < 0 then -x else x) ∧
    UnDone s (.not h t d a) t (tyWide t) d a (fun x => ~~~x) ∧
    UnDone s (.brev h t d a) t (tyWide t) d a BitVec.reverse ∧
    UnDone s (.clz h t d a) t false d a BitVec.clz ∧
    UnDone s (.ctz h t d a) t false d a BitVec.ctz ∧
    UnDone s (.popc h t d a) t false d a BitVec.cpop ∧
    AluDone s (.cmp h cc t d a b) d false (fun u c n =>
      (if cmpInt cc (num t (bv t (rdN u c n (tyWide t) a))) (num t (bv t (opCmp u c n t b))) then 1 else 0, 0)) ∧
    AluDone s (.isat h t q d a) d false (fun u c n =>
      let r := clampSpec t (num q (bv q (rdN u c n (tyWide q) a)))
      ((BitVec.ofInt 32 r.1).toNat, r.2))) ∧
  (∀ (s : State) (h : Hdr) (t : Ty) (d a b : Reg) (c : Opnd),
    AluDone s (.mad h t d a b c) d (tyWide t) (fun u k n =>
      ((bv t (rdN u k n (tyWide t) a) * bv t (rdN u k n (tyWide t) b) + bv t (opN u k n t c)).toNat, 0)) ∧
    AluDone s (.bfx h t d a b c) d (tyWide t) (fun u k n =>
      let pos := fieldPos (tyBits t) (rd32 u k n b).toNat
      let len := fieldLen (tyBits t) (rd32 u k n b).toNat (op32 u k n t c)
      let f := (bv t (rdN u k n (tyWide t) a)).extractLsb' pos len
      (if tySigned t then (f.signExtend (tyBits t)).toNat else f.toNat, 0)) ∧
    AluDone s (.bfi h t d a b c) d (tyWide t) (fun u k n =>
      let w := tyBits t
      let pos := fieldPos w (rd32 u k n b).toNat
      let len := fieldLen w (rd32 u k n b).toNat (op32 u k n t c)
      let x := bv t (rdN u k n (tyWide t) d)
      let y := bv t (rdN u k n (tyWide t) a)
      let m := ((BitVec.allOnes len).setWidth w) <<< pos
      (((x &&& ~~~m) ||| ((y <<< pos) &&& m)).toNat, 0)) ∧
    AluDone s (.sel h t d a b c) d (tyWide t) (fun u k n =>
      (if op32 u k n t c ≠ 0 then rdN u k n (tyWide t) a else rdN u k n (tyWide t) b, 0)) ∧
    AluDone s (.addc h d a b c) d true (fun u k n =>
      let x := (rd32 u k n a).toNat + (rd32 u k n b).toNat + op32 u k n .n32 c % 2
      (x % 2 ^ 32 + (x / 2 ^ 32) * 2 ^ 32, 0)) ∧
    AluDone s (.subb h d a b c) d true (fun u k n =>
      let x : Int := (rd32 u k n a).toNat - (rd32 u k n b).toNat - (op32 u k n .n32 c % 2 : Nat)
      ((BitVec.ofInt 32 x).toNat + (if x < 0 then 1 else 0) * 2 ^ 32, 0)))


/-! ### Address registers, moves, lane exchange -/

/-- 10 R345, 05 R170: address registers; `aadv` outside [BASE, LIMIT) traps with BOUNDS and changes nothing. 10 R346, R351: moves and packing. `zero` reads as 0
and keeps nothing (09 R313). -/
def Obligations.AddressRegistersAndMoves : Prop :=
  (∀ (s : State) (h : Hdr) (pr pw px : Bool) (d a b c : Reg) (o : Opnd) (f : AField),
    RegDone s (.aset h pr pw px d a b c) always (fun u _ k =>
      setA k (aNum d)
        { ptr := if c = .zero then ((rd64 u k 0 a).setWidth 56).setWidth 64 else rd64 u k 0 c
          base := (rd64 u k 0 a).setWidth 56, limit := (rd64 u k 0 b).setWidth 56, r := pr, w := pw, x := px }) ∧
    RegDone s (.amov h d a) always (fun _ _ k => setA k (aNum d) (getA k (aNum a))) ∧
    (let n := fun (u : State) (k : Clutch) => (getA k (aNum a)).ptr + (BitVec.ofNat 32 (op32 u k 0 .i32 o)).signExtend 64
     let inside := fun (u : State) (k : Clutch) =>
      (getA k (aNum a)).base.toNat ≤ (n u k).toNat ∧ (n u k).toNat < (getA k (aNum a)).limit.toNat
     RegDone s (.aadv h d a o) (fun u _ k => inside u k) (fun u _ k => setA k (aNum d) { getA k (aNum a) with ptr := n u k }) ∧
     WordTraps s (.aadv h d a o) (fun u _ k => ¬ inside u k) (fun _ _ _ => cBounds) (fun u _ k => n u k) (fun _ x _ => x.ex)) ∧
    AluDone s (.aget h f d a) d (f != .perm) (fun _ k _ =>
      let r := getA k (aNum a)
      (match f with
       | .ptr => r.ptr.toNat
       | .base => r.base.toNat
       | .limit => r.limit.toNat
       | .perm => r.r.toNat + 2 * r.w.toNat + 4 * r.x.toNat, 0))) ∧
  (∀ (s : State) (h : Hdr) (t : Ty) (d a : Reg) (b : Opnd5) (o : Opnd) (i : BitVec 20),
    AluDone s (.mov h t d a) d (tyWide t) (fun u k n => (rdN u k n (tyWide t) a, 0)) ∧
    AluDone s (.movi h d i) d false (fun _ _ _ => ((i.signExtend 32).toNat, 0)) ∧
    AluDone s (.movh h d i) d false (fun u k n => ((i ++ (rd32 u k n d).setWidth 12).toNat, 0)) ∧
    AluDone s (.pack h t false d a b) d false (fun u k n =>
      let w := tyBits t
      let e := op5 u k n b % (32 / w)
      let m := ((BitVec.allOnes w).setWidth 32) <<< (w * e)
      (((rd32 u k n d &&& ~~~m) ||| ((rd32 u k n a <<< (w * e)) &&& m)).toNat, 0)) ∧
    AluDone s (.pack h t true d a b) d false (fun u k n =>
      let w := tyBits t
      let e := op5 u k n b % (32 / w)
      let m := ((BitVec.allOnes w).setWidth 32) <<< (w * e)
      let r := clampSpec t (rd32 u k n a).toInt
      (((rd32 u k n d &&& ~~~m) ||| ((BitVec.ofInt 32 r.1 <<< (w * e)) &&& m)).toNat, r.2)) ∧
    AluDone s (.unpack h t d a o) d false (fun u k n =>
      let w := tyBits t
      let f := (rd32 u k n a).extractLsb' (w * (op32 u k n t o % (32 / w))) w
      (if tySigned t then (f.signExtend 32).toNat else f.toNat, 0))) ∧
  (∀ (u : State) (c : Clutch) (n : Nat) (ex : Mask) (wide : Bool),
    rd32 u c n .zero = 0 ∧ rdN u c n wide .zero = 0 ∧ destPlaces c ex wide .zero = [] ∧ destPlaces c ex wide .lane = [])

/-- 10 R347 to R350: lane exchange. Every result is a function of the executing lanes' operands and is pending. -/
def Obligations.LaneExchangeResults : Prop :=
  ∀ (s : State) (h : Hdr) (t : Ty) (d a : Reg) (b : Opnd5) (o : Opnd) (m : ShflMode) (f : VoteFn) (op : RedOp) (excl : Bool),
    LongDone s (.shfl h m t d a b) d (tyWide t) (fun u _ k n =>
      let c := op5 u k n b
      let j := if isHost k then 0 else match m with
        | .idx => c % 32
        | .up => if n < c then n else n - c
        | .down => if 31 < n + c then n else n + c
        | .xor => n ^^^ (c % 32)
      (rdN u k j (tyWide t) a, 0)) ∧
    LongDone s (.bcast h t d a o) d (tyWide t) (fun u x k _ =>
      (rdN u k (if isHost k then 0 else op32 u k (lowLane x.ex) .b32 o % 32) (tyWide t) a, 0)) ∧
    LongDone s (.vote h f d a) d false (fun u x k _ =>
      let v := fun n => (rd32 u k n a).toNat
      (match f with
       | .ballot => (maskOf (fun n => x.ex.getLsbD n && decide (v n ≠ 0))).toNat
       | .any => if ∃ n ∈ lanesOf x.ex, v n ≠ 0 then 1 else 0
       | .all => if ∀ n ∈ lanesOf x.ex, v n ≠ 0 then 1 else 0
       | .uni => if ∀ n ∈ lanesOf x.ex, v n = v (lowLane x.ex) then 1 else 0
       | .first => ((lanesOf x.ex).find? (fun n => decide (v n ≠ 0))).getD 32
       | .lead => lowLane x.ex, 0)) ∧
    LongDone s (.redux h op t d a) d (tyWide t) (fun u x k _ =>
      (lanesOf x.ex).foldl (fun (r : Nat × Fl) n =>
        let q := redStep (rmOf k) (ftzOf k) op t r.1 (rdN u k n (tyWide t) a)
        (q.1, r.2 ||| q.2)) (redIdent op t, 0)) ∧
    LongDone s (.scan h op excl t d a) d (tyWide t) (fun u x k n =>
      let step := fun (r : Nat × Fl) (j : Nat) =>
        let q := redStep (rmOf k) (ftzOf k) op t r.1 (rdN u k j (tyWide t) a)
        (q.1, r.2 ||| q.2)
      (((lanesOf x.ex).filter (fun j => if excl then decide (j < n) else decide (j ≤ n))).foldl step (redIdent op t, 0) |>.1,
       (lanesOf x.ex).foldl step (redIdent op t, 0) |>.2))

/-! ### Control flow, masks, dual words -/

/-- 10 R352, R353, 05 R163, R167, R168: branches, calls, returns, exit. -/
def Obligations.ControlFlowWords : Prop :=
  ∀ (s : State) (h : Hdr) (disp : BitVec 20) (n : BitVec 5) (a : Reg),
    WordDone s (.br h disp) always
      (fun u x k => (u, modLanes k x.ex (fun _ l => { l with pc := x.ia + disp.signExtend 53 }))) (fun _ x _ => x.ex) ∧
    WordDone s (.brx h a) (fun u x k => ∀ j ∈ lanesOf x.ex, targetFault k a (baseVal u k j a) = 0)
      (fun u x k => (u, modLanes k x.ex (fun j l => { l with pc := (baseVal u k j a).extractLsb' 3 53 }))) (fun _ x _ => x.ex) ∧
    WordDone s (.call h n disp) (fun u x k => ∀ j ∈ lanesOf x.ex, windowFits u k j n.toNat = true)
      (fun u x k => (u, (lanesOf x.ex).foldl (fun k j => callLane k j n.toNat x.ia (x.ia + disp.signExtend 53)) k)) (fun _ x _ => x.ex) ∧
    WordDone s (.callx h n a)
      (fun u x k => ∀ j ∈ lanesOf x.ex, windowFits u k j n.toNat = true ∧ targetFault k a (baseVal u k j a) = 0)
      (fun u x k => (u, (lanesOf x.ex).foldl (fun k' j => callLane k' j n.toNat x.ia ((baseVal u k j a).extractLsb' 3 53)) k))
      (fun _ x _ => x.ex) ∧
    WordDone s (.ret h)
      (fun u x k => ∀ j ∈ lanesOf x.ex, retPoison k j = false ∧ retFault u k j = 0)
      (fun u x k =>
        (u, exitLanes (modLanes k (x.ex &&& ~~~retExits k x.ex) (fun j l =>
          let link := linkOf u k j l.wbv.toNat
          { l with wbv := l.wbv - BitVec.ofNat 13 (link % 16), pc := BitVec.ofNat 53 (link / 16) })) (retExits k x.ex)))
      (fun _ x k => x.ex &&& ~~~retExits k x.ex) ∧
    RegDone s (.exit h) always (fun _ x k => exitLanes k x.ex) ∧
    RegDone s (.yield h) always (fun _ _ k => { k with yielded := true }) ∧
    RegDone s (.nop h) always (fun _ _ k => k)

/-- 05 R167: where every executing lane has room for its new window, a call writes the link, return address and advance, to the two words
below that window, and only that, and moves the window and the lane; where one has not, STACK_LIMIT, with no state changed but the trap's.
05 R163: lanes that exit leave every mask, and no other lane's bit of any mask changes; `kjoin` and `kleave` change one mask in the
executing lanes' bits. -/
def Obligations.CallAndExitOfALane : Prop :=
  (∀ (s : State) (h : Hdr) (disp : BitVec 20) (n : BitVec 5) (a : Reg),
    let room := fun (u : State) (x : Ctx) (k : Clutch) => ∀ j ∈ lanesOf x.ex, windowFits u k j n.toNat = true
    let good := fun (u : State) (x : Ctx) (k : Clutch) => ∀ j ∈ lanesOf x.ex, targetFault k a (baseVal u k j a) = 0
    let full := fun (u : State) (x : Ctx) (k : Clutch) => maskOf (fun j => x.ex.getLsbD j && !windowFits u k j n.toNat)
    WordDone s (.call h n disp) room
      (fun u x k => (u, (lanesOf x.ex).foldl (fun k j => callLane k j n.toNat x.ia (x.ia + disp.signExtend 53)) k)) (fun _ x _ => x.ex) ∧
    WordDone s (.callx h n a) (fun u x k => room u x k ∧ good u x k)
      (fun u x k => (u, (lanesOf x.ex).foldl (fun k' j => callLane k' j n.toNat x.ia ((baseVal u k j a).extractLsb' 3 53)) k))
      (fun _ x _ => x.ex) ∧
    WordTraps s (.call h n disp) (fun u x k => ¬ room u x k) (fun _ _ _ => cStack) (fun _ _ _ => 0) full ∧
    WordTraps s (.callx h n a) (fun u x k => ¬ room u x k ∧ good u x k) (fun _ _ _ => cStack) (fun _ _ _ => 0) full) ∧
  (∀ (s : State) (c : Clutch) (j n tn : Nat) (x : Task), isHost c = false → c.task = some tn → taskAt s tn = some x →
    (windowFits s c j n = true ↔ 8 * ((laneAt c j).wbv.toNat + n) + 112 ≤ 8 * x.stackN)) ∧
  (∀ (c : Clutch) (j n : Nat) (ia tgt : BitVec 53), 1 ≤ n → n ≤ 13 →
    let c' := callLane c j n ia tgt
    let top := 8 * ((laneAt c j).wbv.toNat + n)
    let link := (ia + 1).toNat * 16 + n
    cell c' (.st j (top - 2)) = (some (BitVec.ofNat 32 link), false) ∧
    cell c' (.st j (top - 1)) = (some (BitVec.ofNat 32 (link / 2 ^ 32)), false) ∧
    (∀ d, d ≠ .st j (top - 2) → d ≠ .st j (top - 1) → cell c' d = cell c d) ∧
    (laneAt c' j).pc = tgt ∧ (laneAt c' j).wbv = (laneAt c j).wbv + BitVec.ofNat 13 n ∧
    (∀ i, i ≠ j → laneAt c' i = laneAt c i) ∧ rest c' = rest c ∧ c'.flags = c.flags) ∧
  (∀ (c : Clutch) (m : Mask) (n : Nat) (k : Nat),
    (laneAt (exitLanes c m) n).exited = ((laneAt c n).exited || m.getLsbD n) ∧
    (k < 12 → isHost c = false ∨ n = 0 → (getK (exitLanes c m) k).getLsbD n = ((getK c k).getLsbD n && !m.getLsbD n)) ∧
    (12 ≤ k → getK (exitLanes c m) k = getK c k)) ∧
  (∀ (s : State) (h : Hdr) (q : Fin 12),
    RegDone s (.exit h) always (fun _ x k => exitLanes k x.ex) ∧
    RegDone s (.kjoin h q) always (fun _ x k => setK k q.val (getK k q.val ||| x.ex)) ∧
    RegDone s (.kleave h q) always (fun _ x k => setK k q.val (getK k q.val &&& ~~~x.ex)))

/-- 05 R163: `kjoin` sets and `kleave` clears the bits of the executing lanes in its mask, and `exit` clears the exiting lanes' bits in every
mask. 10 R354, R355, 05 R164: `kop` and `kcmp` write their mask, and `kwait` makes the executing lanes arrive. After each of these words, and
when a pending result lands in a mask, the lanes that wait on a mask are released together if every lane whose bit is set there waits on
it, and no other lane is. -/
def Obligations.MaskWords : Prop :=
  ∀ (s : State) (h : Hdr) (q : Fin 12) (op : KOp) (cc : Cmp) (t : Ty) (a : Reg) (o : Opnd) (b : CmpOpnd),
    RegDone s (.kjoin h q) always (fun _ x k => setK k q.val (getK k q.val ||| x.ex)) ∧
    RegDone s (.kleave h q) always (fun _ x k => setK k q.val (getK k q.val &&& ~~~x.ex)) ∧
    RegDone s (.exit h) always (fun _ x k => exitLanes k x.ex) ∧
    (∀ (c : Clutch) (m : Mask) (n : Nat) (j : Fin 12), isHost c = false ∨ n = 0 →
      (getK (exitLanes c m) j.val).getLsbD n = ((getK c j.val).getLsbD n && !m.getLsbD n)) ∧
    RegDone s (.kop h op q a o) always (fun u _ k =>
      let x := rd32 u k 0 a
      let y := BitVec.ofNat 32 (op32 u k 0 .b32 o)
      setK k q.val (match op with
        | .and => x &&& y | .or => x ||| y | .xor => x ^^^ y | .andn => x &&& ~~~y | .mov => x | .not => ~~~x)) ∧
    RegDone s (.kcmp h cc t q a b) always (fun u x k =>
      setK k q.val (maskOf (fun n => if x.ex.getLsbD n then
          cmpInt cc (num t (bv t (rdN u k n (tyWide t) a))) (num t (bv t (opCmp u k n t b)))
        else (getK k q.val).getLsbD n))) ∧
    (∀ w p, Ready s (.kwait h q) w p → ∃ t, exec (.kwait h q) s = .next t ∧
      After s (entry s p) t p (atIssue p) 0 ∧
      (let c1 := modLanes (atIssue p) (exLanes w p) (fun _ l => { l with kwait := some q })
       let arrived := maskOf (fun n => decide ((laneAt c1 n).kwait = some q))
       let need := if isHost c1 then getK c1 q.val &&& 1 else getK c1 q.val
       ∀ n, (exLanes w p).getLsbD n = true →
        (laneAt (clutchAt t s.cur) n).kwait = if need &&& ~~~arrived = 0 then none else some q)) ∧
    (∀ i, i = .kjoin h q ∨ i = .kleave h q ∨ i = .exit h ∨ i = .kop h op q a o ∨ i = .kcmp h cc t q a b ∨ i = .kwait h q →
      ∀ w p u, Ready s i w p → exec i s = .next u → kwaitAll (clutchAt u s.cur) = clutchAt u s.cur) ∧
    (∀ (c : Clutch) (acc : PAcc) (x n : Nat), acc.lo = .k n → kwaitAll (landAcc c acc x) = landAcc c acc x) ∧
    (∀ (c : Clutch) (n : Nat), c.region = none → n < 32 →
      let arrived := fun (k : Fin 12) => maskOf (fun j => decide ((laneAt c j).kwait = some k))
      let need := fun (k : Fin 12) => if isHost c then getK c k.val &&& 1 else getK c k.val
      laneAt (kwaitAll c) n = { laneAt c n with kwait := match (laneAt c n).kwait with
        | some k => if need k &&& ~~~arrived k = 0 then none else some k
        | none => none })

/-- 09 R322: both slots read before either writes, slot 1 prevails, and the flags of each are merged; a slot that traps leaves nothing of
the word but the trap entry. -/
def Obligations.DualWordBothSlotsReadFirst : Prop :=
  ∀ (s : State) (stop : Bool) (z0 z1 : Slot),
    pairClash z0 z1 = false →
    RegDone s (.dualWord stop z0 z1) (fun _ x k => slotTrap k x.ex z0 = none ∧ slotTrap k x.ex z1 = none)
      (fun u x k => slotWrite u k x.ex z1 (slotWrite u k x.ex z0 k)) ∧
    ∀ cause addr mask, WordTraps s (.dualWord stop z0 z1)
      (fun _ x k => slotTrap k x.ex z0 = some (.trap cause addr mask) ∨
        (slotTrap k x.ex z0 = none ∧ slotTrap k x.ex z1 = some (.trap cause addr mask)))
      (fun _ _ _ => cause) (fun _ _ _ => addr) (fun _ _ _ => mask)

/-! ### Floating point -/

/-- 11 R385, R386, R388, R389, R395: floating-point words whose results are written at once. 11 R385, R387: floating-point words of the long class; the six of bounded error are a fixed function of FTZ and the operand. -/
def Obligations.FloatWordResults : Prop :=
  (∀ (s : State) (h : Hdr) (t : Ty) (rm : Rnd) (d a b : Reg) (o : Opnd) (cc : Cmp) (q : CmpOpnd) (e : Reg),
    let x := fun (u : State) (k : Clutch) (n : Nat) => rdN u k n (tyWide t) a
    let y := fun (u : State) (k : Clutch) (n : Nat) => opN u k n t o
    AluDone s (.fadd h t rm d a o) d (tyWide t) (fun u k n => fpAdd t (rndOf k rm false) (ftzOf k) (x u k n) (y u k n)) ∧
    AluDone s (.fsub h t rm d a o) d (tyWide t) (fun u k n => fpSub t (rndOf k rm false) (ftzOf k) (x u k n) (y u k n)) ∧
    AluDone s (.fmul h t rm d a o) d (tyWide t) (fun u k n => fpMul t (rndOf k rm false) (ftzOf k) (x u k n) (y u k n)) ∧
    AluDone s (.fma h t rm d a b o) d (tyWide t) (fun u k n =>
      fpFma t (rndOf k rm false) (ftzOf k) (x u k n) (rdN u k n (tyWide t) b) (y u k n)) ∧
    AluDone s (.fmin h t d a o) d (tyWide t) (fun u k n => fpMinMax t (ftzOf k) false (x u k n) (y u k n)) ∧
    AluDone s (.fmax h t d a o) d (tyWide t) (fun u k n => fpMinMax t (ftzOf k) true (x u k n) (y u k n)) ∧
    AluDone s (.fcls h t d a) d false (fun u k n => (fpClass t (x u k n), 0)) ∧
    AluDone s (.frnd h t rm d a) d (tyWide t) (fun u k n => fpInt t (rndOf k rm false) (ftzOf k) (x u k n)) ∧
    AluDone s (.fscl h t rm d a o) d (tyWide t) (fun u k n =>
      fpScale t (rndOf k rm false) (ftzOf k) (x u k n) (op32 u k n .i32 o)) ∧
    AluDone s (.fdot2 h t rm d a b e) d false (dotVal t 2 rm a b e) ∧
    AluDone s (.fdot4 h t rm d a b e) d false (dotVal t 4 rm a b e) ∧
    (isMsk d = false → AluDone s (.fcmp h cc t d a q) d false (fun u k n =>
      let r := fpCmp t (ftzOf k) cc (x u k n) (opCmp u k n t q)
      (r.1.toNat, r.2))) ∧
    (∀ j, RegDone s (.fcmp h cc t (.k j) a q) always (fun u z k =>
      let r := fun n => fpCmp t (ftzOf k) cc (x u k n) (opCmp u k n t q)
      let k1 := setK k j.val (maskOf (fun n => if z.ex.getLsbD n then (r n).1 else (getK k j.val).getLsbD n))
      { k1 with flags := k1.flags ||| mergeFl z.ex (fun n => (r n).2) }))) ∧
  (∀ (s : State) (h : Hdr) (t : Ty) (rm : Rnd) (d a : Reg) (o : Opnd),
    let v := fun (f : Bool → Nat → Nat × Fl) (u : State) (_ : Ctx) (k : Clutch) (n : Nat) => f (ftzOf k) (rd32 u k n a).toNat
    LongDone s (.fdiv h t rm d a o) d (tyWide t) (fun u _ k n =>
      fpDiv t (rndOf k rm false) (ftzOf k) (rdN u k n (tyWide t) a) (opN u k n t o)) ∧
    LongDone s (.fsqrt h t rm d a) d (tyWide t) (fun u _ k n => fpSqrt t (rndOf k rm false) (ftzOf k) (rdN u k n (tyWide t) a)) ∧
    LongDone s (.frcp h d a) d false (v fpRcp) ∧
    LongDone s (.frsq h d a) d false (v fpRsq) ∧
    LongDone s (.fex2 h d a) d false (v fpEx2) ∧
    LongDone s (.flg2 h d a) d false (v fpLg2) ∧
    LongDone s (.fsin h d a) d false (v (fpTrig false)) ∧
    LongDone s (.fcos h d a) d false (v (fpTrig true)))

/-- 11 R390 to R394: conversions. -/
def Obligations.ConversionWordResults : Prop :=
  ∀ (s : State) (h : Hdr) (t q : Ty) (rm : Rnd) (sat : Bool) (e : BitVec 3) (d a : Reg) (b : Opnd5),
    ConvDone s (.fcvt h t q rm sat e d a) d (tyWide t) (fun k => rndOf k rm (narrows t q))
      (fun u x k n => fcvtVal t q rm sat e.toNat a x.ex u k n) ∧
    ConvDone s (.icvt h t q rm sat d a) d (tyWide t) (fun k => rndOf k rm true) (fun u _ k n => icvtVal t q rm sat a u k n) ∧
    ConvDone s (.fpk h t rm sat d a b) d false (fun k => rndOf k rm true) (fun u _ k n => fpkVal t rm sat d a b u k n)

/-- 0 × ∞ in either order (08 R293). -/
def zeroInf : Fp → Fp → Bool
  | .inf _, .fin _ m _ => decide (m = 0)
  | .fin _ m _, .inf _ => decide (m = 0)
  | _, _ => false

/-- 08 R288, R293, 11 R385, R386, R388: NaN operands, infinities and zeros of the vector types. -/
def Obligations.FloatSpecialValues : Prop :=
  ∀ (t : Ty) (rm : Rnd) (ftz maxi : Bool) (cc : Cmp) (a b c : Nat), tyF t = true →
    let x := fpRead ftz t a
    let y := fpRead ftz t b
    let z := fpRead ftz t c
    let nan := (canonNan t, fInvalid)
    let sig := if isSig x || isSig y then fInvalid else 0
    let inf := fun n => ((infCode t n, 0) : Nat × Fl)
    let zero := fun n => ((signBit t n, 0) : Nat × Fl)
    (isNan x = true ∨ isNan y = true →
      fpAdd t rm ftz a b = (canonNan t, sig) ∧ fpSub t rm ftz a b = (canonNan t, sig) ∧
      fpMul t rm ftz a b = (canonNan t, sig) ∧ fpDiv t rm ftz a b = (canonNan t, sig) ∧
      fpCmp t ftz cc a b = (decide (cc = .ne),
        if (isSig x || isSig y) = true ∨ (cc ≠ .eq ∧ cc ≠ .ne) then fInvalid else 0)) ∧
    (isNan x = true ∨ isNan y = true ∨ (isNan z = true ∧ zeroInf x y = false) →
      fpFma t rm ftz a b c = (canonNan t, if isSig x || isSig y || isSig z then fInvalid else 0)) ∧
    (isNan x = true → fpSqrt t rm ftz a = (canonNan t, if isSig x then fInvalid else 0)) ∧
    (isNan x = true → isNan y = true → fpMinMax t ftz maxi a b = (canonNan t, sig)) ∧
    (isNan x = true → isNan y = false → fpMinMax t ftz maxi a b = (ftzCode ftz t b, sig)) ∧
    (isNan x = false → isNan y = true → fpMinMax t ftz maxi a b = (ftzCode ftz t a, sig)) ∧
    (zeroInf x y = true → fpMul t rm ftz a b = nan ∧ fpFma t rm ftz a b c = nan) ∧
    (∀ m n, x = .inf m → y = .inf n →
      fpAdd t rm ftz a b = (if m = n then inf m else nan) ∧ fpSub t rm ftz a b = (if m = n then nan else inf m) ∧
      fpMul t rm ftz a b = inf (m != n) ∧ fpDiv t rm ftz a b = nan) ∧
    (∀ m n f e, x = .inf m → y = .fin n f e →
      fpAdd t rm ftz a b = inf m ∧ fpSub t rm ftz a b = inf m ∧ fpDiv t rm ftz a b = inf (m != n) ∧
      (f ≠ 0 → fpMul t rm ftz a b = inf (m != n)) ∧
      fpMinMax t ftz maxi a b = (if m = maxi then ftzCode ftz t b else ftzCode ftz t a, 0) ∧
      fpCmp t ftz cc a b = (match cc with | .lt => m | .le => m | .gt => !m | .ge => !m | .eq => false | .ne => true, 0)) ∧
    (∀ m n f e, x = .fin n f e → y = .inf m →
      fpAdd t rm ftz a b = inf m ∧ fpSub t rm ftz a b = inf (!m) ∧ fpDiv t rm ftz a b = zero (m != n) ∧
      (f ≠ 0 → fpMul t rm ftz a b = inf (m != n))) ∧
    (∀ m n p, x = .inf m → (y = .inf n ∨ ∃ f e, f ≠ 0 ∧ y = .fin n f e) → (z = .inf p ∨ ∃ f e, z = .fin p f e) →
      fpFma t rm ftz a b c = (if z = .inf (m == n) then nan else inf (m != n))) ∧
    (∀ m n p, (∃ f e, f ≠ 0 ∧ x = .fin n f e) → y = .inf m → (z = .inf p ∨ ∃ f e, z = .fin p f e) →
      fpFma t rm ftz a b c = (if z = .inf (m == n) then nan else inf (m != n))) ∧
    (∀ m n p f e g k, x = .fin m f e → y = .fin n g k → z = .inf p → fpFma t rm ftz a b c = inf p) ∧
    (∀ m e n g, x = .fin m 0 e → y = .fin n 0 g →
      fpAdd t rm ftz a b = zero (if m = n then m else decide (rm = .rdn)) ∧
      fpSub t rm ftz a b = zero (if m = n then decide (rm = .rdn) else m) ∧
      fpDiv t rm ftz a b = nan ∧ fpMinMax t ftz maxi a b = zero (if maxi then m && n else m || n) ∧
      fpCmp t ftz cc a b = (decide (cc = .eq) || decide (cc = .le) || decide (cc = .ge), 0)) ∧
    (∀ m n f e, x = .fin m f e → y = .fin (!m) f e → f ≠ 0 → n = decide (rm = .rdn) → fpAdd t rm ftz a b = zero n) ∧
    (∀ m f e n g k, x = .fin m f e → y = .fin n g k → f = 0 ∨ g = 0 → fpMul t rm ftz a b = zero (m != n)) ∧
    (∀ m f e n g k p j, x = .fin m f e → y = .fin n g k → f = 0 ∨ g = 0 → z = .fin p 0 j →
      fpFma t rm ftz a b c = zero (if (m != n) = p then p else decide (rm = .rdn))) ∧
    (∀ m e n g k, x = .fin m 0 e → y = .fin n g k → g ≠ 0 → fpDiv t rm ftz a b = zero (m != n)) ∧
    (∀ m f e n g, x = .fin m f e → f ≠ 0 → y = .fin n 0 g → fpDiv t rm ftz a b = (infCode t (m != n), fDivzero)) ∧
    (x = .inf true → fpSqrt t rm ftz a = nan) ∧ (x = .inf false → fpSqrt t rm ftz a = inf false) ∧
    (∀ m e, x = .fin m 0 e → fpSqrt t rm ftz a = zero m) ∧
    (∀ f e, x = .fin true f e → f ≠ 0 → fpSqrt t rm ftz a = nan)


/-! ### Memory -/

/-- 10 R357, R360: where the lanes of a load pass their checks, no weight line is missing or under way and the clutch's own queued atomics at those
bytes are performed (`v`), its result is pending: one part per lane. That a part reads its place when it is written is the model's choice
(log 41). 10 R361: a vector load makes one pending result of all its registers; register j of a lane takes bytes 4j to 4j + 3. -/
def Obligations.LoadsMakeTheirResultsPending : Prop :=
  (∀ (s : State) (h : Hdr) (t : Ty) (o : MOrd) (d : Reg) (m : MemOp),
    let ok := fun (u : State) (x : Ctx) (c : Clutch) (a : List (Nat × Place) × State) =>
      asksOf u (2 * x.cid) = [] ∧ ldPlaces t o d m u x c = .ok a.1 ∧ weightMisses u c.core a.1 = [] ∧ syncFirst u x.cid (a.1.map (·.2)) = some a.2
    let parts := fun (a : List (Nat × Place) × State) (c : Clutch) =>
      loadParts a.2 c t (fun i src => accFor c i (tyWide t) d src) a.1
    let eff := fun (a : List (Nat × Place) × State) (_ : State) (_ : Ctx) (c : Clutch) => (parts a c).1
    let clutch := fun (a : List (Nat × Place) × State) (_ : State) (x : Ctx) (c : Clutch) =>
      let k := clutchAt (parts a c).1 x.cid
      if (parts a c).2 = [] ∧ acqScope o = none then k else addPend k (parts a c).2 (acqScope o)
    WordDoneVia s (.ld h t o d m) ok eff clutch ∧ WordDoneVia s (.ldx h t o d m) ok eff clutch) ∧
  (∀ (s : State) (h : Hdr) (n : VecN) (d : Reg) (m : MemOp),
    WordDoneVia s (.ldv h n d m)
      (fun u x c (a : List (Nat × Place) × State) =>
        asksOf u (2 * x.cid) = [] ∧ vecPlaces .load (vecCount n) m u x c = .ok a.1 ∧ weightMisses u c.core a.1 = [] ∧ syncFirst u x.cid (a.1.map (·.2)) = some a.2 ∧
        (∀ p ∈ a.1, (∀ pa, p.2 ≠ .dev pa) ∧
          ∀ ch, p.2 = .phys ch → ∀ j, j < vecCount n → weightPlace a.2 (.phys (subChunks ch (4 * j) 4)) = false))
      (fun a _ _ _ => a.2)
      (fun a _ x c => addPend (clutchAt a.2 x.cid) ((List.range (vecCount n)).flatMap (fun j => a.1.flatMap (fun p =>
        match p.2 with
        | .phys ch => accFor c p.1 false (vecReg d j) (.mem (subChunks ch (4 * j) 4) .b32)
        | .scratch core off => accFor c p.1 false (vecReg d j) (.scr core (off + 4 * j) .b32)
        | .dev _ => []))) none))

/-- 10 R360, R361, 07 R249: where the lanes of a store pass their checks and nothing must be waited for, the bytes of its lanes are
stored in lane order, after the clutch's own queued atomics (`a.2.1`), its earlier loads of those bytes (`a.2.2.1`) and the release it
names (`a.2.2.2.1`). -/
def Obligations.StoresCompleteInLaneOrder : Prop :=
  ∀ (s : State) (h : Hdr) (t : Ty) (o : MOrd) (d : Reg) (m : MemOp) (n : VecN),
    let seq := fun (u : State) (x : Ctx) (c : Clutch) (rel : Option Scope) (data : Nat → List Byte)
        (a : List (Nat × Place) × State × State × State × State) =>
      syncFirst u x.cid (a.1.map (·.2)) = some a.2.1 ∧ bindOverlaps a.2.1 x.cid (a.1.map (·.2)) = some a.2.2.1 ∧
      releaseOpt a.2.2.1 x.cid rel = some a.2.2.2.1 ∧
      storeLanes a.2.2.2.1 c rel.isSome (a.1.map (fun p => (p.1, p.2, data p.1))) = some a.2.2.2.2
    WordDoneVia s (.st h t o d m)
      (fun u x c a => stPlaces t o m u x c = .ok a.1 ∧
        seq u x c (relScope o) (fun i => leBytes ((memSize t).getD 4) (rdN u c i (tyWide t) d)) a)
      (fun a _ _ _ => a.2.2.2.2) (fun a _ x _ => clutchAt a.2.2.2.2 x.cid) ∧
    WordDoneVia s (.stv h n d m)
      (fun u x c a => vecPlaces .store (vecCount n) m u x c = .ok a.1 ∧ seq u x c none (fun i => vecBytes u c i (vecCount n) d) a)
      (fun a _ _ _ => a.2.2.2.2) (fun a _ x _ => clutchAt a.2.2.2.2 x.cid)

/-- 06 R221, 10 R360: an unordered store to physical memory, by a clutch with no result or atomic pending, whose L1 has room for
its lines, changes the bytes of its lanes' places as its own core reads them and no others; what other cores read, and every performed byte, stay as they were; no
register, flag or mode changes. -/
def Obligations.UnorderedStoreFrame : Prop :=
  ∀ (s : State) (h : Hdr) (t : Ty) (d : Reg) (m : MemOp) (w : WordInfo) (p : Issue) (ps : List (Nat × Place)),
    Ready s (.st h t .relaxed d m) w p → p.c.inflight = [] → (∀ q ∈ s.sync, q.cid ≠ s.cur) →
    (tget [] s.l1 p.c.core).length + 64 ≤ l1Cap →
    stPlaces t .relaxed m (entry s p) (wordCtx s w p) (atIssue p) = .ok ps → (∀ q ∈ ps, ∃ ch, q.2 = .phys ch) →
    ∃ r, exec (.st h t .relaxed d m) s = .next r ∧ Kept (clutchAt s s.cur) (clutchAt r s.cur) [] ∧
      (clutchAt r s.cur).flags = (clutchAt s s.cur).flags ∧
      (∀ pa, (∀ q ∈ ps, pa ∉ placePas q.2) → coreByte r p.c.core pa = coreByte s p.c.core pa) ∧
      (∀ j pa, j ≠ p.c.core → coreByte r j pa = coreByte s j pa) ∧ (∀ pa, perfByte r pa = perfByte s pa) ∧
      r.scratch = s.scratch

/-- 06 R221: bytes stored into an L1 are what its core then reads there; every other byte reads as before. 05 R175: scratchpad bytes. 10 R357: a loaded value: signed types below 64 bits are sign-extended to 32, the others zero-extended. -/
def Obligations.BytesReadBackAsWritten : Prop :=
  (∀ (s : State) (i pa q : Nat) (bs : List Byte),
    coreByte (l1Store s i pa bs) i q =
      if pa ≤ q ∧ q < pa + bs.length then bs.getD (q - pa) 0 else coreByte s i q) ∧
  (∀ (s : State) (core off q : Nat) (bs : List Byte), off + bs.length ≤ 0x200000 → q < 0x200000 →
    spGet (spWrite s core off bs) core q = (if off ≤ q ∧ q < off + bs.length then bs.getD (q - off) 0 else spGet s core q) ∧
    ∀ other, other ≠ core → spGet (spWrite s core off bs) other q = spGet s other q) ∧
  (∀ (t : Ty) (b : List Byte), memSize t = some b.length →
    extendLoad t (leNat b) = if tySigned t ∧ b.length < 4 then ((BitVec.ofNat (8 * b.length) (leNat b)).signExtend 32).toNat
      else (BitVec.ofNat (8 * b.length) (leNat b)).toNat)

/-- 06 R214: the checks of one lane in their order: window, alignment, the address register's range, the extent of the task's window,
the address register's permission. That LEAP_TARGET of a landed clutch's scratchpad access (05 R194) stands between window and alignment is
the model's choice (log 118). 06 R214, 12 R455: where a lane of a load or store fails, no lane accesses memory; the lowest failing lane gives cause and address,
and every failing lane is in `TRAP_MASK`. -/
def Obligations.AccessChecksInTheirOrder : Prop :=
  (∀ (s : State) (q : Req) (ea : Dword) (n : Nat), n ≠ 0 →
    let va := ea.toNat
    let win := windowOf va
    let badWin := win = .hole ∨ windowOf (va + n - 1) ≠ win ∨ (q.host = true ∧ (win = .colBank ∨ win = .scratch))
    let badLeap := win = .scratch ∧ q.landed = true
    let badAlign := q.align ≠ 0 ∧ va % q.align ≠ 0
    let badRange := ∃ a, q.areg = some a ∧ (va < a.base.toNat ∨ a.limit.toNat < va + n)
    let badTask := (win = .scratch ∧ ∀ t, q.task = some t → allocLen t < va - scratchBase + n) ∨
      (win = .colBank ∧ ∀ t, q.task = some t → t.cbLen < va - colBankBase + n)
    let badPerm := ∃ a, q.areg = some a ∧ ((q.acc = .load ∧ a.r = false) ∨ ((q.acc = .store ∨ q.acc = .atomic) ∧ a.w = false))
    (badWin → locate s q ea n = .error (.trap cWindow)) ∧
    (¬ badWin → badLeap → locate s q ea n = .error (.trap cLeap)) ∧
    (¬ badWin → ¬ badLeap → badAlign → locate s q ea n = .error (.trap cMisalign)) ∧
    (¬ badWin → ¬ badLeap → ¬ badAlign → badRange ∨ badTask → locate s q ea n = .error (.trap cBounds)) ∧
    (¬ badWin → ¬ badLeap → ¬ badAlign → ¬ badRange → ¬ badTask → badPerm → locate s q ea n = .error (.trap cProtection)) ∧
    (¬ badWin → ¬ badLeap → ¬ badAlign → ¬ badRange → ¬ badTask → ¬ badPerm → win = .scratch → ∀ t, q.task = some t →
      locate s q ea n = .ok (.scratch t.core (t.spOff + (va - scratchBase))))) ∧
  (∀ (s : State) (h : Hdr) (t : Ty) (o : MOrd) (d : Reg) (m : MemOp) (cause : Nat) (addr : Dword) (mask : Mask),
    WordTraps s (.ld h t o d m) (fun u x c => asksOf u (2 * x.cid) = [] ∧ ldPlaces t o d m u x c = .stop (.trap cause addr mask))
      (fun _ _ _ => cause) (fun _ _ _ => addr) (fun _ _ _ => mask) ∧
    WordTraps s (.st h t o d m) (fun u x c => stPlaces t o m u x c = .stop (.trap cause addr mask))
      (fun _ _ _ => cause) (fun _ _ _ => addr) (fun _ _ _ => mask) ∧
    (∀ (u : State) (q : Req) (lanes : List Nat) (ea : Nat → Dword) (n : Nat) (f : Nat → Bool),
      let fails := fun k => match locate u q (ea k) n with
        | .error _ => true
        | .ok (.dev pa) => !f pa
        | .ok _ => false
      checkLanes u q lanes ea n f = .stop (.trap cause addr mask) →
      mask = maskOf (fun k => lanes.contains k && fails k) ∧ cause ≠ cPage ∧
      ∃ i, lanes.find? fails = some i ∧ addr = ea i ∧
        (locate u q (ea i) n = .error (.trap cause) ∨ (cause = cProtection ∧ ∃ pa, locate u q (ea i) n = .ok (.dev pa) ∧ f pa = false))))

/-- 10 R362, R363: prefetches, fences and cache words, where nothing must be waited for, change no register. -/
def Obligations.FenceAndCacheWords : Prop :=
  ∀ (s : State) (h : Hdr) (b : Bool) (m : MemOp) (mo : Option MemOp) (f : FenceKind) (sc : Scope),
    WordDoneVia s (.prf h b m) (fun _ _ _ (_ : Unit) => True)
      (fun _ u x c => (loadLines u c x.ex m).foldl (fun s l => if b then prefetchSlice s c.core l else prefetchLine s c.core l) u)
      (fun _ u x c =>
        clutchAt ((loadLines u c x.ex m).foldl (fun s l => if b then prefetchSlice s c.core l else prefetchLine s c.core l) u) x.cid) ∧
    WordDoneVia s (.fence h f sc)
      (fun u x _ (v : State) => (match f with | .acq => settleOps u x.cid | _ => releaseAll u x.cid sc) = some v)
      (fun v _ x _ => match f with | .rel => v | _ => acquireOp v (clutchAt v x.cid).core sc)
      (fun v _ x _ => clutchAt (match f with | .rel => v | _ => acquireOp v (clutchAt v x.cid).core sc) x.cid) ∧
    WordDoneVia s (.cwb h mo)
      (fun u x c (v : State) => bareStop u c (match mo with | some m => cacheVas u c x.ex m | none => []) = none ∧
        wbLines u c.core (match mo with | some m => cacheLines u c x.ex m | none => l1Lines u c.core) = some v)
      (fun v _ _ _ => v) (fun v _ x _ => clutchAt v x.cid) ∧
    WordDoneVia s (.cinv h mo)
      (fun u x c (v : State) => bareStop u c (match mo with | some m => cacheVas u c x.ex m | none => []) = none ∧
        evictLines u c.core (match mo with | some m => cacheLines u c x.ex m | none => l1Lines u c.core) = some v)
      (fun v _ _ _ => v) (fun v _ x _ => clutchAt v x.cid)

/-- 10 R365, R366: where the lanes of an atomic pass their checks and nothing must be waited for, the lanes' operations are performed
(scratchpad, column bank) or queued at their home dies in lane order, and `atom` makes its results pending. Which of these the word does
itself, and that the others stand in one queue, is the model's choice (log 88). 10 R365: the new value of an integer atomic. -/
def Obligations.AtomicWordsComplete : Prop :=
  (∀ (s : State) (h : Hdr) (op : AtomOp) (t : Ty) (o : MOrd) (d base b : Reg),
    let go := fun (d : Reg) (u : State) (x : Ctx) (c : Clutch) (a : List (Nat × Place) × State × State × State × List PAcc) =>
      atomPlaces t base u x c = .ok a.1 ∧ bindOverlaps u x.cid (a.1.map (·.2)) = some a.2.1 ∧
      releaseOpt a.2.1 x.cid (relScope o) = some a.2.2.1 ∧
      atomLanes a.2.2.1 x c op t (isVec d) (if isVec d || (acqScope o).isSome then freshId (clutchAt a.2.2.1 x.cid) else 0) (fun i => rdN u c i (tyWide t) b)
        (fun i => rdN u c i (tyWide t) d) (fun i => decide (windowOf (baseVal u c i base).toNat = .colBank))
        (fun i src => accFor c i (tyWide t) d src) a.1 = some (a.2.2.2.1, a.2.2.2.2)
    let eff := fun (a : List (Nat × Place) × State × State × State × List PAcc) (_ : State) (_ : Ctx) (_ : Clutch) => a.2.2.2.1
    let clutch := fun (a : List (Nat × Place) × State × State × State × List PAcc) (_ : State) (x : Ctx) (_ : Clutch) =>
      let k := clutchAt a.2.2.2.1 x.cid
      if a.2.2.2.2 = [] ∧ acqScope o = none then k else addPend k a.2.2.2.2 (acqScope o)
    WordDoneVia s (.atom h op t o d base b) (go d) eff clutch ∧ WordDoneVia s (.red h op t o base b) (go .zero) eff clutch) ∧
  (∀ (t : Ty) (old b cmp : Nat), tyWide t = false → old < 2 ^ 32 → b < 2 ^ 32 → cmp < 2 ^ 32 →
    (tyI t = true → atomNew .add t old b cmp = (old + b) % 2 ^ 32 ∧
      atomNew .sub t old b cmp = (BitVec.ofNat 32 old - BitVec.ofNat 32 b).toNat ∧
      atomNew .min t old b cmp = (if num t (bv t old) ≤ num t (bv t b) then old else b) ∧
      atomNew .max t old b cmp = (if num t (bv t old) ≤ num t (bv t b) then b else old)) ∧
    atomNew .and t old b cmp = old &&& b ∧ atomNew .or t old b cmp = old ||| b ∧ atomNew .xor t old b cmp = old ^^^ b ∧
    atomNew .xchg t old b cmp = b ∧ atomNew .cas t old b cmp = (if old = cmp then b else old) ∧
    atomNew .incw t old b cmp = (if old ≥ b then 0 else old + 1) ∧
    atomNew .decw t old b cmp = (if old = 0 ∨ old > b then b else old - 1))


/-! ### Atomic regions -/

/-- 10 R368, R369: `atx.begin` opens a region of the executing lanes or deepens the open one; `atx.end` takes a level off and a lane at
depth 0 has arrived; outside a region `atx.end`, `atx.abort` and `atx.pin` raise ILLEGAL. 10 R381: `atx.stat`, inside and outside a region. -/
def Obligations.RegionWordsOpenAndClose : Prop :=
  (∀ (s : State) (h : Hdr) (d : Fin 64) (disp : BitVec 20) (code : BitVec 8) (a : Reg),
    let out := fun (i : Instr) => WordTraps s i always (fun _ _ _ => cIllegal) (fun _ _ _ => (encode i).getD 0) (fun _ x _ => x.at_)
    (∀ w p, Ready s (.atxBegin h (.s d) disp) w p → regionsOpen (entry s p) (atIssue p) < regionCtxs (entry s p) (atIssue p) →
      let c := atIssue p
      let f := if c.regionAddr = p.ia then c.regionF else 0
      ∃ t, exec (.atxBegin h (.s d) disp) s = .next t ∧
        After s (entry s p) t p
          (modLanes { c with regionF := f, regionAddr := p.ia, region := some (Region.opened (exLanes w p) d none) } (exLanes w p)
            (fun _ l => { l with fbPc := p.ia + disp.signExtend 53, fbWbv := l.wbv, depth := 1, arrived := false, tags := [] })) 0 ∧
        (clutchAt t s.cur).region = some (Region.opened (exLanes w p) d (if f = 4 then some s.tsc.toNat else none))) ∧
    RegionWordDone s (.atxBegin h (.s d) disp) (fun _ x c => ∀ j ∈ lanesOf x.ex, (laneAt c j).depth < 255)
      (fun u x c => (u, modLanes c x.ex (fun _ l => { l with depth := l.depth + 1 }))) ∧
    RegionWordDone s (.atxEnd h (.s d)) always (fun u x c =>
      let c1 := modLanes c x.ex (fun _ l => { l with depth := l.depth - 1, arrived := decide (l.depth ≤ 1) })
      (u, { c1 with region := c.region.map (fun g => { g with endReg := some d }) })) ∧
    RegionWordDone s (.atxPin h a) always (fun u x c => (u, pinRegs c x.ex [a])) ∧
    (∀ w p g, ReadyIn s (.atxAbort h code) w p g →
      exec (.atxAbort h code) s = .next (regionAbort (entry s p) s.cur (23 + 256 * code.toNat))) ∧
    out (.atxEnd h (.s d)) ∧ out (.atxAbort h code) ∧ out (.atxPin h a)) ∧
  (∀ (s : State) (h : Hdr) (d : Reg),
    LongDone s (.atxStat h d) d false (fun _ _ c _ => (c.regionF * 2 ^ 21 + (if c.regionF = 4 then 2 ^ 24 else 0), 0)) ∧
    RegionWordDone s (.atxStat h d) (fun _ _ c => c.region.isSome = true) (fun u x c => (u, pendAll c x.ex false d (fun _ =>
      match c.region with
      | some g => g.slots.length + g.constrs.length * 2 ^ 7 + g.entries.length * 2 ^ 14 + c.regionF * 2 ^ 21
          + (if g.hold.isSome then 2 ^ 24 else 0) + 2 ^ 25
      | none => 0))))

/-- 10 R379: an abort takes every lane of the region back to its fallback address and window, at depth 0, writes the status to the
register of the opening `atx.begin`, and leaves other lanes' program counters, windows and exit bits, the trap state, and the flags that no word of the region could raise alone. -/
def Obligations.RegionAbortReturnsToFallback : Prop :=
  ∀ (s : State) (cid status : Nat) (g : Region), (clutchAt s cid).region = some g →
    let c := clutchAt s cid
    let t := regionAbort s cid status
    let d := clutchAt t cid
    d.region = none ∧ d.wait = none ∧ tget 0 d.s g.statusR.val = BitVec.ofNat 32 status ∧
    (∀ n, (laneAt d n).pc = (if g.p.getLsbD n then (laneAt c n).fbPc else (laneAt c n).pc) ∧
      (laneAt d n).wbv = (if g.p.getLsbD n then (laneAt c n).fbWbv else (laneAt c n).wbv) ∧
      (g.p.getLsbD n = true → (laneAt d n).depth = 0 ∧ (laneAt d n).arrived = false) ∧
      (laneAt d n).exited = (laneAt c n).exited) ∧
    (d.regionF = if status % 256 = 16 ∨ status % 256 = 17 then min (c.regionF + 1) 4 else c.regionF) ∧
    d.traps = c.traps ∧ d.level = c.level ∧ d.fpmode = c.fpmode ∧ d.flags &&& ~~~g.flagged = c.flags &&& ~~~g.flagged ∧
    t.mem = s.mem ∧ t.l1 = s.l1 ∧ ∀ other, other ≠ cid → clutchAt t other = clutchAt s other

/-- What a load inside a region leaves, where its lanes pass their checks and nothing must be waited for (10 R370, R371). -/
def ldTracked (t : Ty) (o : MOrd) (d : Reg) (m : MemOp) (u : State) (x : Ctx) (c : Clutch) : Option (State × Clutch) :=
  match ldPlaces t o d m u x c with
  | .stop _ => none
  | .ok ps =>
    if ps.any (fun p => regionBars u p.2) || !(weightMisses u c.core ps).isEmpty || !(asksOf u (2 * x.cid)).isEmpty then none
    else match (syncFirst u x.cid (ps.map (·.2))).bind (fun v => trackLanes v x.cid ((memSize t).getD 4) (ps.map (fun p =>
        (p.1, (eaOf u c p.1 m ((memSize t).getD 4)).toNat, match p.2 with | .phys ch => ch | _ => [])))) with
    | some (.ok r _ _, vs) =>
      let k := vs.foldl (fun k p => tagDest k p.1 (tyWide t) d p.2.2) (clutchAt r x.cid)
      let accs := vs.flatMap (fun p => accFor k p.1 (tyWide t) d (known (extendLoad t p.2.1)))
      some (r, if accs.isEmpty then k else addPend k accs none)
    | _ => none

/-- The stores of the lanes of `st` inside a region: lane, bytes, value, and the tag that a store of matching width keeps (10 R372, R374). -/
def stEntries (t : Ty) (m : MemOp) (d : Reg) (ps : List (Nat × Place)) (u : State) (x : Ctx) (c : Clutch) :
    Clutch × List (Nat × List (Nat × Nat) × Nat × Option Sym) :=
  let n := (memSize t).getD 4
  ((lanesOf x.ex).foldl (fun k i =>
      if (storeTag c i n (tyWide t) d).isSome then k else (rg (tyWide t) d).foldl (fun k r => pinReg k i r) k) (pinRegs c x.ex (rgM m)),
   ps.map (fun p => (p.1, (match p.2 with | .phys ch => ch | _ => []), rdN u c p.1 (tyWide t) d, storeTag c p.1 n (tyWide t) d)))

/-- What a store inside a region leaves, where its lanes pass their checks and its context has room (10 R374, R375). -/
def stBuffered (t : Ty) (o : MOrd) (d : Reg) (m : MemOp) (u : State) (x : Ctx) (c : Clutch) : Option Clutch :=
  match stPlaces t o m u x c with
  | .stop _ => none
  | .ok ps =>
    if ps.any (fun p => regionBars u p.2) then none
    else bufferStores (stEntries t m d ps u x c).1 ((memSize t).getD 4) (stEntries t m d ps u x c).2

/-- The newest store of a region that meets bytes. -/
def storeMeeting (g : Region) (ch : List (Nat × Nat)) : Option RStore :=
  g.stores.find? (fun r => (bytePas r.chunks).any (fun b => (bytePas ch).contains b))

/-- 10 R371, R374, R375: `ld` and `st` inside a region complete: the load tracked, the store buffered, memory and every cache as they were
but for what the reads fill; a 65th slot or entry aborts with CAPACITY. A store takes an entry for each word, and replaces older bytes. A
first aligned 32-bit or 64-bit load takes one or two new slots; a repeat returns what its slots observed; bytes that the region has stored
with the same size and address are forwarded with their tag; any other load pins every slot that it touches, and those of forwarded stores. -/
def Obligations.RegionLoadsAndStoresAreTracked : Prop :=
  (∀ (s : State) (h : Hdr) (t : Ty) (o : MOrd) (d : Reg) (m : MemOp),
    RegionWordDone s (.ld h t o d m) (fun u x c => (ldTracked t o d m u x c).isSome) (fun u x c => (ldTracked t o d m u x c).getD (u, c)) ∧
    RegionWordDone s (.st h t o d m) (fun u x c => (stBuffered t o d m u x c).isSome) (fun u x c => (u, (stBuffered t o d m u x c).getD c)) ∧
    (∀ w p g ps, ReadyIn s (.st h t o d m) w p g → stPlaces t o m (entryIn s w p) (wordCtx s w p) (atIssueIn w p) = .ok ps →
      ps.any (fun q => regionBars (entryIn s w p) q.2) = false →
      bufferStores (stEntries t m d ps (entryIn s w p) (wordCtx s w p) (atIssueIn w p)).1 ((memSize t).getD 4)
        (stEntries t m d ps (entryIn s w p) (wordCtx s w p) (atIssueIn w p)).2 = none →
      exec (.st h t o d m) s = .next (regionAbort (entry s p) s.cur 18))) ∧
  (∀ (c : Clutch) (g : Region) (lane n x : Nat) (ch : List (Nat × Nat)) (t : Option Sym), c.region = some g →
    (∀ c', bufferStore c lane ch n x t = some c' →
      ∃ g', c' = { c with region := some g' } ∧ storeAt g' = (fun pa => if (bytePas ch).contains pa then
          some { lane := lane, chunks := ch, size := n, val := x % 2 ^ (8 * n), sym := t } else storeAt g pa) ∧
        g'.slots = g.slots ∧ g'.constrs = g.constrs ∧ (∀ b ∈ bytePas ch, (lane, b / 4) ∈ g'.entries) ∧ g'.entries.length ≤ 64) ∧
    (bufferStore c lane ch n x t = none ↔
      64 < (g.entries ++ (((bytePas ch).map (fun b => (lane, b / 4))).eraseDups.filter (fun w => !g.entries.contains w))).length)) ∧
  (∀ (s : State) (cid lane ea pa : Nat) (g : Region), (clutchAt s cid).region = some g → g.hold = none →
    (ea % 4 = 0 → pa % 4 = 0 → storeMeeting g [(pa, 4)] = none →
      (∀ (u : State) (b : List Byte), slotAt g lane (pa / 4) = none → g.slots.length < 64 →
        readChunks s (clutchAt s cid).core [(pa, 4)] = some (u, b) → (clutchAt u cid).region = some g →
        ∃ t, trackLoad s cid lane ea [(pa, 4)] 4 = .ok t (leNat b % 2 ^ 32) (some { slot := g.slots.length, c := 0, wide := false }) ∧
          t = modClutch u cid (fun c => { c with region := some { g with slots := g.slots ++
            [{ lane := lane, pa := pa / 4, va := ea, obs := BitVec.ofNat 32 (leNat b), pinned := false, kind := .one }] } })) ∧
      (slotAt g lane (pa / 4) = none → 64 ≤ g.slots.length → trackLoad s cid lane ea [(pa, 4)] 4 = .capacity) ∧
      (∀ k x, slotAt g lane (pa / 4) = some (k, x) → x.kind = .one →
        trackLoad s cid lane ea [(pa, 4)] 4 = .ok s x.obs.toNat (some { slot := k, c := 0, wide := false }))) ∧
    (ea % 8 = 0 → pa % 8 = 0 → storeMeeting g [(pa, 8)] = none →
      (∀ (u v : State) (b0 b1 : List Byte), slotAt g lane (pa / 4) = none → slotAt g lane (pa / 4 + 1) = none → g.slots.length < 63 →
        let g1 := { g with slots := g.slots ++
          [{ lane := lane, pa := pa / 4, va := ea, obs := BitVec.ofNat 32 (leNat b0), pinned := false, kind := .lo }] }
        readChunks s (clutchAt s cid).core [(pa, 4)] = some (u, b0) → (clutchAt u cid).region = some g →
        (clutchAt u cid).core = (clutchAt s cid).core →
        readChunks (modClutch u cid (fun c => { c with region := some g1 })) (clutchAt s cid).core [(pa + 4, 4)] = some (v, b1) →
        (clutchAt v cid).region = some g1 →
        trackLoad s cid lane ea [(pa, 8)] 8 = .ok
          (modClutch v cid (fun c => { c with region := some { g1 with slots := g1.slots ++
            [{ lane := lane, pa := pa / 4 + 1, va := ea + 4, obs := BitVec.ofNat 32 (leNat b1), pinned := false, kind := .hi }] } }))
          (leNat b0 % 2 ^ 32 + 2 ^ 32 * (leNat b1 % 2 ^ 32)) (some { slot := g.slots.length, c := 0, wide := true })) ∧
      (∀ k j x y, slotAt g lane (pa / 4) = some (k, x) → slotAt g lane (pa / 4 + 1) = some (j, y) → x.kind = .lo → y.kind = .hi →
        trackLoad s cid lane ea [(pa, 8)] 8 = .ok s (x.obs.toNat + 2 ^ 32 * y.obs.toNat) (some { slot := k, c := 0, wide := true })))) ∧
  (∀ (s : State) (cid lane ea n : Nat) (g : Region) (ch : List (Nat × Nat)), (clutchAt s cid).region = some g → g.hold = none →
    (∀ r, storeMeeting g ch = some r → r.chunks = ch → r.size = n → trackLoad s cid lane ea ch n = .ok s r.val r.sym) ∧
    ((∀ r, storeMeeting g ch = some r → ¬ (r.chunks = ch ∧ r.size = n)) → (storeMeeting g ch = none →
        (n = 4 → ea % 4 = 0 → ∃ w k x, wordsOf ea ch = [w] ∧ slotAt g lane w.1 = some (k, x) ∧ x.kind ≠ .one) ∧
        (n = 8 → ea % 8 = 0 → ∃ w0 w1, wordsOf ea ch = [w0, w1] ∧ ((slotAt g lane w0.1).isSome ∨ (slotAt g lane w1.1).isSome) ∧
          ∀ k j x y, slotAt g lane w0.1 = some (k, x) → slotAt g lane w1.1 = some (j, y) → ¬ (x.kind = .lo ∧ y.kind = .hi))) →
      ∀ u g1 z q, newSlots s cid lane (((wordsOf ea ch).filter (fun w => (slotAt g lane w.1).isNone)).map (fun w => (w.1, w.2, .part))) =
          .ok u z q → (clutchAt u cid).region = some g1 →
        ∃ t g2, trackLoad s cid lane ea ch n = .ok t (leNat ((bytePas ch).map (regionByte g1 lane))) none ∧
          t = modClutch u cid (fun c => { c with region := some g2 }) ∧
          { g2 with slots := [] } = { g1 with slots := [] } ∧
          (∀ k x, listGet g1.slots k = some x → ∃ y, listGet g2.slots k = some y ∧ { y with pinned := x.pinned } = x ∧
            (x.pinned = true → y.pinned = true) ∧
            ((∃ w ∈ wordsOf ea ch, slotAt g1 lane w.1 = some (k, x)) → y.pinned = true) ∧
            ((∃ pa ∈ bytePas ch, ∃ r e, storeAt g1 pa = some r ∧ r.sym = some e ∧ e.slot = k) → y.pinned = true))))

/-- 10 R376, R377: when every lane has arrived, the tokens are gathered and the lines read, the region commits; while a line's tokens are not
to be had, the registrar requests them. Slots are checked in order: where each reads as observed, or is not pinned and every constraint on it
holds for its new value, the commit repairs the tagged registers and stores, performs the stores oldest first, writes CLEAN or REPAIRED to the
register of `atx.end` and closes the region; the first slot for which that fails aborts it with CONFLICT or CONSTRAINT and its number, or
traps with POISON. -/
def Obligations.CommitChecksEverySlot : Prop :=
  ∀ (s : State) (cid : Nat) (g : Region), (clutchAt s cid).region = some g →
    let c := clutchAt s cid
    let die := dieOf (colOf c.core)
    let bad := fun (y : LoadSlot) => freshPoison s c.core (y.pa / 32) = true
    let may := fun (j : Nat) (y : LoadSlot) => ¬ bad y ∧ (freshVal s y = obsVal g j y ∨
      (y.pinned = false ∧ ∀ q ∈ g.constrs, q.slot = j → holdsFor q (freshVal s y) = true))
    ((∀ j y, listGet g.slots j = some y → may j y) → ∃ c2,
      commitNow s cid g =
        forwardLines (acquireOp (setClutch ((finalStores s g).foldl (fun s w => performChunks s w.1 w.2) s) cid c2) c.core .pkg) die
          (regionLines g) ∧
      c2.region = none ∧ c2.wait = none ∧ c2.regionF = 0 ∧
      ((∀ j y, listGet g.slots j = some y → freshVal s y = obsVal g j y) → tget 0 c2.s (g.endReg.getD 0).val = 0) ∧
      ((∃ j y, listGet g.slots j = some y ∧ freshVal s y ≠ obsVal g j y) → tget 0 c2.s (g.endReg.getD 0).val = 1) ∧
      (∀ n ∈ lanesOf g.p, ∀ j t, (tsome (laneAt c n).tags).reverse.find? (fun p => decide (p.1 = j)) = some (j, t) →
        cell c2 (keyPlace n j) = (some (symHalf s g t j), false)) ∧
      (∀ j t, (tsome g.sTags).reverse.find? (fun p => decide (p.1 = j)) = some (j, t) → j ≠ (g.endReg.getD 0).val →
        tget 0 c2.s j = symHalf s g t j)) ∧
    (∀ t x, listGet g.slots t.slot = some x → symVal s g t = (freshVal s x + t.c.toNat) % 2 ^ (if t.wide then 64 else 32)) ∧
    (∀ k x, listGet g.slots k = some x → (∀ j y, j < k → listGet g.slots j = some y → may j y) →
      (bad x → ∃ i, commitNow s cid g = takeTrap s cid cPoison (BitVec.ofNat 64 x.va) (laneBit x.lane) 0 0 i) ∧
      (¬ bad x → freshVal s x ≠ obsVal g k x →
        (x.pinned = true → commitNow s cid g = regionAbort s cid (16 + 256 * k)) ∧
        (x.pinned = false → (∃ q ∈ g.constrs, q.slot = k ∧ holdsFor q (freshVal s x) = false) →
          commitNow s cid g = regionAbort s cid (17 + 256 * k)))) ∧
    (∀ u v, runs s c = true → (∀ n ∈ lanesOf g.p, (laneAt c n).arrived = true) →
      releaseAll (forCommit s cid g) cid .pkg = some u → prepLines u c.core (regionLines g) = some v →
      (∀ w r, gatherLines v cid die (storeLines g) (regionLines g) = .ok w →
        readsAt w die ((regionLines g).filter (fun l => !isWeight w l)) = some r →
        exec (.regionCommit cid) s = .next (commitNow r cid g)) ∧
      (∀ l, gatherLines v cid die (storeLines g) (regionLines g) = .error l →
        exec (.regionCommit cid) s = .next (transientRequest s die l ((storeLines g).contains l))))

/-! ### Queues, rings, plane regions, the vertical FIFO -/

/-- 05 R179, R181, 10 R364: a push enters the elements of its lanes at TAIL in lane order, after a release at core scope; a pop makes
the elements from HEAD on its pending result, with an acquire; `qcfg` writes and reads the queue control word. 05 R179, R180: after a push the element of the j-th lane stands in slot (TAIL + j) mod 2^DEPTH, and nothing else of any scratchpad
has changed. 05 R181, 12 R440: queue words of a clutch that has landed trap with LEAP; one on a queue of another element size, or that is not
in a state for it, traps with FIFO_STATE and the queue's number; a push without room and a pop without elements wait. -/
def Obligations.QueueWords : Prop :=
  ((∀ (s : State) (h : Hdr) (t : Ty) (d a : Reg) (q : Fin 16),
    let n := (memSize t).getD 4
    let qw := fun (u : State) (c : Clutch) => queueAt u (taskNo c) q.val
    (let eff := fun (z : State × Task) (u : State) (x : Ctx) (c : Clutch) =>
      setQueue (pushLanes z.1 z.2 (qw u c) n (fun i => rdN z.1 (clutchAt z.1 x.cid) i (tyWide t) d) (qTail (qw u c)) (lanesOf x.ex))
        (taskNo c) q.val (setBits (qw u c) 44 16 (qTail (qw u c) + (lanesOf x.ex).length))
     WordDoneVia s (.qpush h t d q)
      (fun u x c (z : State × Task) => c.pad = none ∧ qSize (qw u c) = n ∧ qState (qw u c) = 1 ∧
        qCount (qw u c) + (lanesOf x.ex).length ≤ 2 ^ qDepth (qw u c) ∧ releaseAll u x.cid .core = some z.1 ∧
        taskAt z.1 (taskNo c) = some z.2)
      eff (fun z u x c => clutchAt (eff z u x c) x.cid)) ∧
    (let parts := fun (k : Task) (u : State) (x : Ctx) (c : Clutch) => popParts u c k t d (qw u c) n (qHead (qw u c)) (lanesOf x.ex)
     let clutch := fun (k : Task) (u : State) (x : Ctx) (c : Clutch) => if parts k u x c = [] then c else addPend c (parts k u x c) none
     WordDoneVia s (.qpop h t d q)
      (fun u x c (k : Task) => c.task.bind (taskAt u) = some k ∧ c.pad = none ∧ qSize (qw u c) = n ∧ qState (qw u c) ≠ 0 ∧
        (lanesOf x.ex).length ≤ qCount (qw u c))
      (fun k u x c => acquireOp (setClutch (setQueue u (taskNo c) q.val (setBits (qw u c) 28 16 (qHead (qw u c) + (lanesOf x.ex).length)))
        x.cid (clutch k u x c)) c.core .core) clutch) ∧
    (let v := fun (u : State) (x : Ctx) (c : Clutch) => (rd64 u c (lowLane x.ex) a).toNat
     WordDoneVia s (.qcfgSet h a q)
      (fun u x c (k : Task) => c.task.bind (taskAt u) = some k ∧ c.pad = none ∧ qcfgFault u x k q.val (v u x c) = none)
      (fun _ u x c => modTask (setQueue u (taskNo c) q.val (setBits (setBits (v u x c) 27 1 0) 63 1 0)) (taskNo c)
        (fun k => { k with qAddr := tput 0 k.qAddr q.val 0 }))
      (fun _ _ _ c => c)) ∧
    RegDone s (.qcfgGet h d q) (fun _ _ c => c.pad = none) (fun u x c => pendAll c x.ex true d (fun _ => qw u c))) ∧
  (∀ (s : State) (k : Task) (w n tail : Nat) (v : Nat → Nat) (lanes : List Nat),
    n ≤ qSize w → lanes.length ≤ 2 ^ qDepth w → k.spOff + qBase w + 2 ^ qDepth w * qSize w ≤ 0x200000 →
    let r := pushLanes s k w n v tail lanes
    (∀ j, j < lanes.length → spRead r k.core (k.spOff + qElem w (tail + j)) n = leBytes n (v (lanes.getD j 0))) ∧
    ∀ core off, off < 0x200000 →
      (core = k.core → ∀ j, j < lanes.length → ¬ (k.spOff + qElem w (tail + j) ≤ off ∧ off < k.spOff + qElem w (tail + j) + n)) →
      spGet r core off = spGet s core off)) ∧
  (∀ (s : State) (h : Hdr) (t : Ty) (d : Reg) (q : Fin 16),
    let qw := fun (u : State) (c : Clutch) => queueAt u (taskNo c) q.val
    let tasked := fun (u : State) (c : Clutch) => (c.task.bind (taskAt u)).isSome = true
    let leap := fun (i : Instr) =>
      WordTraps s i (fun u _ c => tasked u c ∧ c.pad.isSome = true) (fun _ _ _ => cLeap) (fun _ _ _ => 0) (fun _ x _ => x.at_)
    let num := fun (_ : State) (_ : Ctx) (_ : Clutch) => (BitVec.ofNat 64 q.val : Dword)
    leap (.qpush h t d q) ∧ leap (.qpop h t d q) ∧ leap (.qcfgSet h d q) ∧ leap (.qcfgGet h d q) ∧
    WordTraps s (.qpush h t d q) (fun u _ c => c.pad = none ∧ (qSize (qw u c) ≠ (memSize t).getD 4 ∨ qState (qw u c) ≠ 1))
      (fun _ _ _ => cFifo) num (fun _ x _ => x.at_) ∧
    WordTraps s (.qpop h t d q)
      (fun u _ c => tasked u c ∧ c.pad = none ∧ (qSize (qw u c) ≠ (memSize t).getD 4 ∨ qState (qw u c) = 0))
      (fun _ _ _ => cFifo) num (fun _ x _ => x.at_) ∧
    (∀ w p, Ready s (.qpush h t d q) w p →
      let u := entry s p
      let c := atIssue p
      c.pad = none → qSize (qw u c) = (memSize t).getD 4 → qState (qw u c) = 1 →
      2 ^ qDepth (qw u c) < qCount (qw u c) + (lanesOf (exLanes w p)).length →
      exec (.qpush h t d q) s = .next (waitFor u s.cur .queue (.qpush h t d q))) ∧
    (∀ w p, Ready s (.qpop h t d q) w p →
      let u := entry s p
      let c := atIssue p
      tasked u c → c.pad = none → qSize (qw u c) = (memSize t).getD 4 → qState (qw u c) = 1 ∨ qState (qw u c) = 2 → qDone (qw u c) = false →
      qCount (qw u c) < (lanesOf (exLanes w p)).length →
      exec (.qpop h t d q) s = .next (waitFor u s.cur .queue (.qpop h t d q))))

/-- 05 R182 to R184, 11 R419 to R421: `ring.cfg` sets base, stages, roles and size and clears every stage; `ring.acq` takes the role's
next stage when it is that role's, free and full for a role above 0; `ring.rel` hands the earliest held stage to the next role. -/
def Obligations.RingWordsComplete : Prop :=
  ∀ (s : State) (h : Hdr) (n r : Fin 8) (a d : Reg),
    let rw_ := fun (u : State) (c : Clutch) => ringAt u (taskNo c) n.val
    (let v := fun (u : State) (x : Ctx) (c : Clutch) => (rd64 u c (lowLane x.ex) a).toNat
     WordDoneVia s (.ringCfg h n a)
      (fun u x c (k : Task) => c.task.bind (taskAt u) = some k ∧ c.pad = none ∧ ringCfgFault u x k n.val (v u x c) = none)
      (fun _ u x c => setRing u (taskNo c) n.val (bits (v u x c) 0 27 + rgSize (v u x c) * 2 ^ 32)) (fun _ _ _ c => c)) ∧
    (let w1 := fun (w : Nat) =>
      setBits (rgSet w (rgCur w r.val) (rgFull w (rgCur w r.val)) true r.val) (48 + 3 * r.val) 3 ((rgCur w r.val + 1) % rgStages w)
     WordDone s (.ringAcq h n r d)
      (fun u x c => ringFault u x n.val r.val = none ∧ ringReady (rw_ u c) (rgCur (rw_ u c) r.val) r.val = true)
      (fun u x c =>
        let k := pendAll c x.ex false d (fun _ => rgBase (rw_ u c) + rgCur (rw_ u c) r.val * rgSize (rw_ u c) * 128)
        (setClutch (acquireOp (setRing u (taskNo c) n.val (w1 (rw_ u c))) c.core .core) x.cid k, k)) (fun _ _ _ => 0)) ∧
    WordTraps s (.ringAcq h n r d)
      (fun u _ c => c.pad = none ∧ (rgConfigured (rw_ u c) = false ∨ rgRoles (rw_ u c) ≤ r.val)) (fun _ _ _ => cFifo)
      (fun _ _ _ => BitVec.ofNat 64 n.val) (fun _ x _ => x.at_) ∧
    (∀ w p, Ready s (.ringAcq h n r d) w p → ringFault (entry s p) (wordCtx s w p) n.val r.val = none →
      ringReady (rw_ (entry s p) (atIssue p)) (rgCur (rw_ (entry s p) (atIssue p)) r.val) r.val = false →
      exec (.ringAcq h n r d) s = .next (waitFor (entry s p) s.cur .ring (.ringAcq h n r d))) ∧
    (let last := fun (w : Nat) => decide (r.val + 1 = rgRoles w)
     let eff := fun (z : State × Nat) (u : State) (_ : Ctx) (c : Clutch) =>
      setRing z.1 (taskNo c) n.val (rgSet (rw_ u c) z.2 (!last (rw_ u c)) false (if last (rw_ u c) then 0 else r.val + 1))
     WordDoneVia s (.ringRel h n r)
      (fun u x c (z : State × Nat) => ringFault u x n.val r.val = none ∧ ringOldest (rw_ u c) r.val = some z.2 ∧
        releaseAll u x.cid .core = some z.1)
      eff (fun z u x c => clutchAt (eff z u x c) x.cid))

/-- 11 R396 to R400, R402 to R404: `mplane` stores the row-chunk's plane words and exponent records in the task's allocation and
changes no register; the results of `mnplane`, `mcmp` and `mscl` become pending. 08 R300, 11 R400: an element taken to plane form and back is the same, for every format whose element is its code alone. 11 R402: `mcmp` keeps, of four, the two of largest magnitude, the lower index on a tie. -/
def Obligations.PlaneAndScaleWords : Prop :=
  (∀ (s : State) (h : Hdr) (a b d m : Reg) (fmt : BitVec 5) (hi asValue : Bool) (st : Ty),
    (let g := fun (r : Reg) (u : State) (x : Ctx) (c : Clutch) => descOf (rd64 u c (lowLane x.ex) r).toNat (rd32 u c (lowLane x.ex) m).toNat
     (let ws := fun (k : Task) (u : State) (x : Ctx) (c : Clutch) =>
        planeWrites u k (g a u x c) x.ex (fun i => planeOf (g a u x c).fmt (laneCode u c (g a u x c).fmt i b))
      let eff := fun (z : State × Task) (u : State) (x : Ctx) (c : Clutch) =>
        (ws z.2 u x c).foldl (fun s w => spWrite s z.2.core (z.2.spOff + w.1) w.2) z.1
      WordDoneVia s (.mplane h a b m)
        (fun u x c (z : State × Task) => descFault u x (g a u x c) = none ∧ c.task.bind (taskAt u) = some z.2 ∧
          bindOverlaps u x.cid ((ws z.2 u x c).map (fun w => Place.scratch z.2.core (z.2.spOff + w.1))) = some z.1)
        eff (fun z u x c => clutchAt (eff z u x c) x.cid)) ∧
     WordDoneVia s (.mnplane h d a m)
        (fun u x c (k : Task) => descFault u x (g a u x c) = none ∧ c.task.bind (taskAt u) = some k)
        (fun _ u _ _ => u)
        (fun k u x c => let e := g a u x c
          pendAll c x.ex (decide (e.fmt = 1)) d (fun i => planeCode e.fmt (planeElem u k e.fmt e.rows e.kch e.base e.kc e.r i)))) ∧
    (let v := fun (u : State) (x : Ctx) (c : Clutch) (i : Nat) => if x.ex.getLsbD i then (rd32 u c i a).toNat else 0
     let kept := fun (u : State) (x : Ctx) (c : Clutch) (q : Nat) => twoLargest (fun i => magOf (ftzOf c) fmt.toNat (v u x c (4 * q + i)))
     let out := fun (u : State) (x : Ctx) (c : Clutch) (l : Nat) =>
       let q := (l - (if hi then 16 else 0)) / 2
       v u x c (4 * q + (if (l - (if hi then 16 else 0)) % 2 = 0 then (kept u x c q).1 else (kept u x c q).2))
     RegDone s (.mcmp h fmt hi d a m) (fun _ _ c => c.pad = none) (fun u x c =>
       addPend c (((lanesOf x.ex).filter (fun l => if hi then decide (16 ≤ l) && decide (l < 32) else decide (l < 16))).flatMap (fun l =>
           accFor c l false d (known (out u x c l))) ++
         accFor c (lowLane x.ex) false m
           (known ((List.range 8).foldl (fun w q => w + ((kept u x c q).1 + 4 * (kept u x c q).2) * 2 ^ (4 * q)) 0))) none)) ∧
    (let q := fun (u : State) (x : Ctx) (c : Clutch) => mxScale (mfTy fmt.toNat)
       (laneBlock u c x.ex (fun s c i => fpRead (ftzOf c) st ((rd32 s c i a).toNat % 2 ^ tyBits st)))
     RegDone s (.mscl h fmt st asValue d a) (fun _ _ c => c.pad = none) (fun u x c =>
       let k := pendAll c x.ex false d (fun _ => if !asValue then (q u x c).1 else if (q u x c).1 = 0xFF then canonNan .f32
         else (fpRound .f32 .rne false false 0 false { m := 1, e := ((q u x c).1 : Int) - 127, sticky := false }).1)
       { k with flags := k.flags ||| (q u x c).2 }))) ∧
  ((∀ (f code : Nat), mfKind f ≠ 2 → planeCode f (planeOf f code) = code % 2 ^ (if mfKind f = 1 then mfPlanes f else tyBits (mfTy f))) ∧
  (∀ (m : Nat → Nat × Nat),
    let p := twoLargest m
    let beats := fun i j => magLt (m j) (m i) = true ∨ (m i = m j ∧ i < j)
    p.1 < p.2 ∧ p.2 < 4 ∧ ∀ i j, (i = p.1 ∨ i = p.2) → j < 4 → j ≠ p.1 → j ≠ p.2 → beats i j))

/-- 05 R185 to R188, 12 R439: `vfsend` puts the 32 lanes in the FIFO to the other core of the pair, after a release at column scope;
`vfrecv` takes the oldest entry from the other, with an acquire; `vffree` answers the free entries; a word whose gang does not hold
both cores traps; a full or an empty FIFO makes its word wait. -/
def Obligations.VerticalFifoWords : Prop :=
  ∀ (s : State) (h : Hdr) (a d : Reg),
    let ko := fun (u : State) (c : Clutch) => fifoOut (gangNo u c) c.core
    let ki := fun (u : State) (c : Clutch) => fifoIn (gangNo u c) c.core
    let may := fun (u : State) (c : Clutch) => c.pad = none ∧ holdsPair u c = true
    (let eff := fun (v : State) (u : State) (x : Ctx) (c : Clutch) =>
      setFifo v (ko u c) (fifoAt v (ko u c) ++ [fifoEntry v (clutchAt v x.cid) a])
     WordDoneVia s (.vfsend h a)
      (fun u x c (v : State) => may u c ∧ (fifoAt u (ko u c)).length < 8 ∧ releaseAll u x.cid .column = some v)
      eff (fun v u x c => clutchAt (eff v u x c) x.cid)) ∧
    WordDoneVia s (.vfrecv h d)
      (fun u _ c (z : BitVec 1024 × List (BitVec 1024)) => may u c ∧ fifoAt u (ki u c) = z.1 :: z.2)
      (fun z u _ c => acquireOp (setFifo u (ki u c) z.2) c.core .column)
      (fun z _ x c => pendAll c x.ex false d (fun i => (z.1.extractLsb' (32 * i) 32).toNat)) ∧
    RegDone s (.vffree h d) (fun u _ c => may u c)
      (fun u x c => pendAll c x.ex false d (fun _ => 8 - (fifoAt u (ko u c)).length)) ∧
    (∀ w p, Ready s (.vfsend h a) w p → may (entry s p) (atIssue p) → 8 ≤ (fifoAt (entry s p) (ko (entry s p) (atIssue p))).length →
      exec (.vfsend h a) s = .next (waitFor (entry s p) s.cur .vfifo (.vfsend h a))) ∧
    (∀ w p, Ready s (.vfrecv h d) w p → may (entry s p) (atIssue p) → fifoAt (entry s p) (ki (entry s p) (atIssue p)) = [] →
      exec (.vfrecv h d) s = .next (waitFor (entry s p) s.cur .vfifo (.vfrecv h d))) ∧
    (∀ i, i = .vfsend h a ∨ i = .vfrecv h d ∨ i = .vffree h d →
      WordTraps s i (fun _ _ c => c.pad.isSome = true) (fun _ _ _ => cLeap) (fun _ _ _ => 0) (fun _ x _ => x.at_) ∧
      WordTraps s i (fun u _ c => c.pad = none ∧ holdsPair u c = false) (fun _ _ _ => cFifo) (fun u _ _ => (freeD u).1)
        (fun _ x _ => x.at_))

/-! ### Engine contexts -/

/-- 12 R423, R424, R430, R411: where a command's issue finds context, block and room, the command is issued: the next number of its
context, recorded with its block. `astr` also makes its queue a STREAM queue, and `mjob` enters its core's queue of jobs. -/
def Obligations.EngineCommandsIssue : Prop :=
  ∀ (s : State) (h : Hdr) (e : Fin 8) (a b : Reg),
    let va := fun (u : State) (x : Ctx) (c : Clutch) => (baseVal u c (lowLane x.ex) a).toNat
    let issues := fun (i : Instr) (kind : CmdKind) (sc : Scope) (also : State → Ctx → Clutch → BitVec 1024 → Prop)
        (post : Clutch → BitVec 1024 → State → State) =>
      let eff := fun (z : BitVec 1024 × State × State) (u : State) (x : Ctx) (c : Clutch) =>
        post c z.1 (newCmd z.2.2 x.cid e.val kind (decide (sc = .pkg)) z.1 (va u x c))
      WordDoneVia s i (fun u x c (z : BitVec 1024 × State × State) => IssueFinds e.val sc a u x c z.1 z.2.1 z.2.2 ∧ also z.2.1 x c z.1)
        eff (fun z u x c => clutchAt (eff z u x c) x.cid)
    let any := fun (_ : State) (_ : Ctx) (_ : Clutch) (_ : BitVec 1024) => True
    let same := fun (_ : Clutch) (_ : BitVec 1024) (t : State) => t
    let queueNo := fun (blk : BitVec 1024) => bits blk.toNat (8 * 0x14) 4
    let qw := fun (t : State) (c : Clutch) (blk : BitVec 1024) => queueAt t (taskNo c) (queueNo blk)
    issues (.cpy h e a) .copy .pkg any same ∧ issues (.nmeGth h e a) .gather .pkg any same ∧
    issues (.nmeRed h e a) .reduce .pkg any same ∧ issues (.nmeCvt h e a) .convert .pkg any same ∧
    issues (.winst h e a) .install .pkg any same ∧
    issues (.astr h e a) .stream .core (fun w _ c blk => qState (qw w c blk) = 0 ∧ qDepth (qw w c blk) ≠ 0 ∧ qDepth (qw w c blk) ≠ 15)
      (fun c blk t => setQueue t (taskNo c) (queueNo blk) (setBits (setBits (qw t c blk) 60 2 2) 62 1 0)) ∧
    (let eff := fun (z : BitVec 1024 × State × State) (u : State) (x : Ctx) (c : Clutch) =>
      enqueueJob c.core z.2.1.pkg.serial (newCmd z.2.2 x.cid e.val .matrix false z.1 (va u x c))
     WordDoneVia s (.mjob h e a b)
      (fun u x c (z : BitVec 1024 × State × State) => c.pad = none ∧ e.val < engCount u c ∧ windowOf (va u x c) = .scratch ∧
        (∃ ps bs, checkLanes u (reqOf u c (baseReg c a) .load 128 false) [lowLane x.ex] (fun _ => baseVal u c (lowLane x.ex) a) 128
            (fun _ => false) = .ok ps ∧
          (ps.head?).bind (fun p => readPlace u c.core p.2 128) = some (z.2.1, bs) ∧ z.1 = BitVec.ofNat 1024 (leNat bs)) ∧
        (let k := clutchAt z.2.1 x.cid
         voteFails z.2.1 k x.ex b z.1 = false ∧ (cardOf z.1).reserved = false ∧
         (cardOf z.1).inside (match k.task.bind (taskAt z.2.1) with | some t => allocLen t | none => 0) = true ∧
         (coreAt z.2.1 k.core).jobs.length < 16 ∧ outstanding (engAt z.2.1 (engRef k) e.val) < 32 ∧
         k.core = c.core ∧ releaseAll z.2.1 x.cid .core = some z.2.2))
      eff (fun z u x c => clutchAt (eff z u x c) x.cid))

/-- 12 R422, R424: a new command takes the number after the last one issued in its context; its record keeps its block and the clutch
that issued it; nothing completes, and no other context changes. 07 R270, R272, 12 R425 to R427: a context counts a command as completed when it and all before it are; the first failure since
the record was cleared fills it, a later one sets OVF alone; both count as completed. -/
def Obligations.CommandsAreRecordedAndCompleteInOrder : Prop :=
  (∀ (s : State) (cid e va : Nat) (kind : CmdKind) (pkgScope : Bool) (blk : BitVec 1024),
    let c := clutchAt s cid
    let r := engRef c
    let x := engAt s r e
    let t := newCmd s cid e kind pkgScope blk va
    (match r with | .task n => (taskAt s n).isSome = true | .host _ => True) →
    engAt t r e = { x with issued := x.issued + 1, pkgCmds := if pkgScope then x.pkgCmds ++ [x.issued + 1] else x.pkgCmds } ∧
    (∃ k, cmdAt t s.pkg.serial = some k ∧ k.ref = r ∧ k.e = e ∧ k.n = x.issued + 1 ∧ k.issuer = cid ∧ k.kind = kind ∧ k.block = blk ∧
      k.core = c.core ∧ k.ended = false) ∧
    (∀ f, f ≠ e → engAt t r f = engAt s r f) ∧
    (∀ id, id ≠ s.pkg.serial → cmdAt t id = cmdAt s id) ∧ t.clutches = s.clutches ∧ t.mem = s.mem ∧ t.l1 = s.l1) ∧
  (∀ (s t : State) (id code sub detail : Nat) (k : Cmd), cmdAt s id = some k → k.orphan = false →
    (match k.ref with | .task n => (taskAt s n).isSome = true | .host _ => True) →
    let x := engAt s k.ref k.e
    let p := donePrefix x.done (insNat k.n x.finished)
    (completeCmd s id = some t → cmdAt t id = none ∧ engAt t k.ref k.e = { x with done := p.1, finished := p.2 }) ∧
    (failCmd s id code sub detail = some t → cmdAt t id = none ∧
      engAt t k.ref k.e =
        (if x.code = 0 then { x with
            code := BitVec.ofNat 8 code, sub := BitVec.ofNat 8 sub, cmd := BitVec.ofNat 64 k.n, detail := BitVec.ofNat 64 detail,
            deliv := engTrapBit s k.ref k.e, failer := some k.issuer, done := p.1, finished := p.2 }
         else { x with ovf := true, done := p.1, finished := p.2 })) ∧
    ∀ (d : Nat) (l : List Nat), let r := donePrefix d l
      r.1 + r.2.length = d + l.length ∧ (∀ n, d < n → n ≤ r.1 → n ∈ l) ∧ (r.1 + 1 ∉ r.2.head?.toList))

/-- 07 R270, R271, 12 R435 to R438: `tlwait` whose count is reached merges the flags of the commands it waited for, writes ENG_STAT
and acquires; a count above what was issued traps, one that is not reached waits; `tlget` reads one field, `tlget.clr` clears the
record; `wqry` reads version and installing mark of an extent. That `tlget` of a context at or past the count traps with BOUNDS and address 0
is the model's choice (log 87). -/
def Obligations.EngineContextWords : Prop :=
  ∀ (s : State) (h : Hdr) (e : Fin 8) (a d : Reg) (f : TlField),
    let home := fun (u : State) (c : Clutch) => c.pad = none ∧ e.val < engCount u c ∧ inTlwait c = false
    let eng := fun (u : State) (c : Clutch) => engAt u (engRef c) e.val
    let n := fun (u : State) (x : Ctx) (c : Clutch) => match a with | .zero => (eng u c).issued | _ => (rd64 u c (lowLane x.ex) a).toNat
    let stop := fun (cause : Nat) (ok : State → Ctx → Clutch → Prop) (i : Instr) =>
      WordTraps s i ok (fun _ _ _ => cause) (fun _ _ _ => 0) (fun _ x _ => x.at_)
    WordDone s (.tlwait h e a) (fun u x c => home u c ∧ n u x c ≤ (eng u c).issued ∧ n u x c ≤ (eng u c).done)
      (fun u x c =>
        let m : Fl := ((eng u c).cflags.filter (fun p => decide (p.1 ≤ n u x c))).foldl (fun a p => a ||| p.2) 0
        let mine : Bool := (eng u c).code ≠ 0 ∧ (eng u c).cmd.toNat ≤ n u x c
        let stat := (if mine then (eng u c).code.toNat + (eng u c).sub.toNat * 256 else 0) + m.toNat * 2 ^ 16 +
          (if (eng u c).ovf then 2 ^ 22 else 0)
        let k := { c with flags := c.flags ||| m, engStat := BitVec.ofNat 32 stat }
        (acquireOp (setClutch (setEng u (engRef c) e.val { eng u c with cflags := (eng u c).cflags.filter (fun p => decide (n u x c < p.1)) })
          x.cid k) c.core (tlScope (eng u c) (n u x c)), k)) (fun _ _ _ => 0) ∧
    stop cBounds (fun u x c => home u c ∧ (eng u c).issued < n u x c) (.tlwait h e a) ∧
    (∀ w p, Ready s (.tlwait h e a) w p → home (entry s p) (atIssue p) →
      n (entry s p) (wordCtx s w p) (atIssue p) ≤ (eng (entry s p) (atIssue p)).issued →
      (eng (entry s p) (atIssue p)).done < n (entry s p) (wordCtx s w p) (atIssue p) →
      exec (.tlwait h e a) s = .next (waitFor (modClutch (entry s p) s.cur (fun c =>
        { c with waitArg := n (entry s p) (wordCtx s w p) (atIssue p) })) s.cur .tlwait (.tlwait h e a))) ∧
    RegDone s (.tlget h f d e) (fun u _ c => c.pad = none ∧ e.val < engCount u c)
      (fun u x c => pendAll c x.ex true d (fun _ => match f with
        | .issued => (eng u c).issued | .done => (eng u c).done | .err => errWord (eng u c) | .detail => (eng u c).detail.toNat)) ∧
    WordDone s (.tlgetClr h d e) (fun u _ c => c.pad = none ∧ e.val < engCount u c)
      (fun u x c =>
        (setEng u (engRef c) e.val { eng u c with code := 0, sub := 0, deliv := false, ovf := false, cmd := 0, detail := 0 },
         pendAll c x.ex true d (fun _ => errWord (eng u c)))) (fun _ _ _ => 0) ∧
    stop cBounds (fun u _ c => c.pad = none ∧ engCount u c ≤ e.val) (.tlget h f d e) ∧
    stop cLeap (fun _ _ c => c.pad.isSome = true) (.tlget h f d e) ∧
    (∀ (ps : List (Nat × Place)),
      RegDone s (.wqry h d a)
        (fun u x c => gatherChecks u .load (accLanes x.ex (isScl d)) (fun i => baseVal u c i a) (fun i =>
            windowed (decide (windowOf (baseVal u c i a).toNat = .weight))
              (locate u { reqOf u c (baseReg c a) .load 0 false with view := .none } (baseVal u c i a) 1))
          (fun i => accessTake { reqOf u c (baseReg c a) .load 0 false with view := .none } (baseVal u c i a) 1) = .ok ps)
        (fun u _ c =>
          let accs := ps.flatMap (fun p => accFor c p.1 true d (known
            ((verOf u (weightExt (placePa p.2 / 128))).toNat + (if installing u (weightExt (placePa p.2 / 128)) then 2 ^ 32 else 0))))
          if accs = [] then c else addPend c accs none))


/-! ### Leap, launch, join, barriers, sync objects -/

/-- 05 R191 to R193, 12 R440 to R442: a leap, after its release, moves its clutch to a landing place of the target column, or waits;
`launch` puts the token it read in a line that is enabled and has room, and drops it when the line is off; `join` answers the record
once its PENDING is 0, and waits before. -/
def Obligations.LeapLaunchAndJoin : Prop :=
  ∀ (s : State) (h : Hdr) (sc : Scope) (a b d : Reg),
    let armed := fun (v : State) (cid col : Nat) =>
      { modClutch v cid (fun c => { c with leapTo := some col, waitArg := v.pkg.serial, hazard := [] }) with
        pkg := { v.pkg with serial := v.pkg.serial + 1 } }
    WordDoneVia s (.leap h a)
      (fun u x c (z : Nat × State × State) => (c.leapTo = none ∨ waitsIn c .leap = false) ∧ leapTarget u x c a = .inr z.1 ∧
        releaseAll u x.cid (pairScope (colOf c.core) z.1) = some z.2.1 ∧ leapTry (armed z.2.1 x.cid z.1) x.cid z.1 = some z.2.2)
      (fun z _ _ _ => z.2.2) (fun z _ x _ => clutchAt z.2.2 x.cid) ∧
    (∀ w p col v, Ready s (.leap h a) w p → ((atIssue p).leapTo = none ∨ waitsIn (atIssue p) .leap = false) →
      leapTarget (entry s p) (wordCtx s w p) (atIssue p) a = .inr col →
      releaseAll (entry s p) s.cur (pairScope (colOf (atIssue p).core) col) = some v → leapTry (armed v s.cur col) s.cur col = none →
      exec (.leap h a) s = .next (waitFor (armed v s.cur col) s.cur .leap (.leap h a))) ∧
    (let reads := fun (u : State) (x : Ctx) (c : Clutch) (tok : BitVec 512) (key : Nat) (v : State) =>
      ∃ ps u1 u2 bs, asksOf u (2 * x.cid) = [] ∧
        checkLanes u (reqOf u c (baseReg c b) .load 64 false) [lowLane x.ex] (fun _ => baseVal u c (lowLane x.ex) b) 64
          (fun _ => false) = .ok ps ∧
        launchKey u x c a = .inr key ∧ weightMisses u c.core ps = [] ∧ syncFirst u x.cid (ps.map (·.2)) = some u1 ∧
        (ps.head?).bind (fun p => readPlace u1 c.core p.2 64) = some (u2, bs) ∧ releaseAll u2 x.cid sc = some v ∧
        tok = BitVec.ofNat 512 (leNat bs)
     WordDoneVia s (.launch h sc a b)
      (fun u x c (z : BitVec 512 × Nat × State × State) => reads u x c z.1 z.2.1 z.2.2.1 ∧
        ((lineEn (lineAt z.2.2.1 z.2.1) = false ∧ z.2.2.2 = dropToken z.2.2.1 z.2.1) ∨
         (lineEn (lineAt z.2.2.1 z.2.1) = true ∧ (lineAt z.2.2.1 z.2.1).queue.length < 8 ∧
          enqueueTok z.2.2.1 z.2.1 z.1 false ((c.task.bind (taskAt z.2.2.1)).map (fun t => (t.launch, t.number))) = some z.2.2.2)))
      (fun z _ _ _ => z.2.2.2) (fun z _ x _ => clutchAt z.2.2.2 x.cid)) ∧
    (let taken := fun (u : State) (x : Ctx) (c : Clutch) (z : List (Nat × Place) × State) =>
      objCheck u x (objReq u c a .load 64 .slice) (baseVal u c (lowLane x.ex) a) 64 globalOnly = .ok z.1 ∧
      homeTake u c.core (placePa ((z.1.head?).elim (.dev 0) (·.2))) = some z.2
     let r := fun (z : List (Nat × Place) × State) => perfNat z.2 (placePa ((z.1.head?).elim (.dev 0) (·.2))) 32
     let eff := fun (z : List (Nat × Place) × State) (_ : State) (x : Ctx) (c : Clutch) =>
      acquireOp (pendQuad z.2 x d [bits (r z) 32 32, bits (r z) 64 32, bits (r z) 96 32, bits (r z) 128 32]) c.core .pkg
     WordDoneVia s (.join h d a) (fun u x c z => taken u x c z ∧ bits (r z) 0 32 = 0) eff (fun z u x c => clutchAt (eff z u x c) x.cid) ∧
     ∀ w p z, Ready s (.join h d a) w p → taken (entry s p) (wordCtx s w p) (atIssue p) z → bits (r z) 0 32 ≠ 0 →
      exec (.join h d a) s = .next (waitFor z.2 s.cur .join (.join h d a)))

/-- 12 R443 to R446: brood and system barriers, `waitaddr`, `wake`, where nothing must be waited for. 12 R443: a second arrival without a wait, another expected count, and a wait without an arrival trap with FIFO_STATE and the
barrier's number; a wait in the phase the clutch saw waits. The last of the expected arrivals ends the phase. That COUNT + 1 of a system
barrier is taken modulo 2^32 is the model's choice (log 56). -/
def Obligations.BarrierAndWaitWords : Prop :=
  (∀ (s : State) (h : Hdr) (n : Fin 16) (cnt : BitVec 6) (a b : Reg) (sc : Scope) (cc : Cmp) (t : Ty),
    let bit : BitVec 16 := (1#16) <<< n.val
    let place := fun (ps : List (Nat × Place)) => placePa ((ps.head?).elim (.dev 0) (·.2))
    (let eff := fun (z : Task × State) (_ : State) (x : Ctx) (c : Clutch) =>
      let b0 := tget Bar.zero z.1.bars n.val
      modClutch (modTask z.2 (taskNo c) (fun k => { k with bars := tput Bar.zero k.bars n.val (barStep b0 cnt) })) x.cid (fun c => { c with
        arrived := c.arrived ||| bit
        seen := if b0.ph then c.seen ||| bit else c.seen &&& ~~~bit })
     WordDoneVia s (.barArr h n cnt)
      (fun u x c (z : Task × State) => c.task.bind (taskAt u) = some z.1 ∧ c.pad = none ∧ c.arrived.getLsbD n.val = false ∧
        ((tget Bar.zero z.1.bars n.val).e = 0 ∨ cnt = (tget Bar.zero z.1.bars n.val).e) ∧ releaseAll u x.cid .core = some z.2)
      eff (fun z u x c => clutchAt (eff z u x c) x.cid)) ∧
    WordDoneVia s (.barWait h n)
      (fun u _ c (k : Task) => c.task.bind (taskAt u) = some k ∧ c.pad = none ∧ c.arrived.getLsbD n.val = true ∧
        (tget Bar.zero k.bars n.val).ph ≠ c.seen.getLsbD n.val)
      (fun _ u x c => acquireOp (setClutch u x.cid { c with arrived := c.arrived &&& ~~~bit }) c.core .core)
      (fun _ _ _ c => { c with arrived := c.arrived &&& ~~~bit }) ∧
    (let eff := fun (z : List (Nat × Place) × State × State × Nat) (_ : State) (x : Ctx) (_ : Clutch) =>
      let s3 := modClutch z.2.2.1 x.cid (fun c => { c with sbarGen := BitVec.ofNat 32 (bits z.2.2.2 64 32) })
      if bits z.2.2.2 0 32 ≤ (bits z.2.2.2 32 32 + 1) % 2 ^ 32 then wakeWaiting s3 .sbar .sbarWaitResume else s3
     WordDoneVia s (.sbarArr h a)
      (fun u x c (z : List (Nat × Place) × State × State × Nat) =>
        objCheck u x (objReq u c a .atomic 16 .slice) (baseVal u c (lowLane x.ex) a) 16 globalOnly = .ok z.1 ∧
        releaseAll u x.cid .pkg = some z.2.1 ∧ homeRmw z.2.1 c.core (place z.1) 16 sbarStep = some (z.2.2.1, z.2.2.2))
      eff (fun z u x c => clutchAt (eff z u x c) x.cid)) ∧
    WordDoneVia s (.sbarWait h a)
      (fun u x c (z : List (Nat × Place) × State) =>
        objCheck u x (objReq u c a .load 16 .slice) (baseVal u c (lowLane x.ex) a) 16 globalOnly = .ok z.1 ∧
        homeTake u c.core (place z.1) = some z.2 ∧ perfNat z.2 (place z.1 + 8) 4 ≠ c.sbarGen.toNat)
      (fun z _ _ c => acquireOp z.2 c.core .pkg) (fun z _ x _ => clutchAt z.2 x.cid) ∧
    WordDoneVia s (.waitaddr h sc cc t a b)
      (fun u x c (z : List (Nat × Place) × State × State × Nat) =>
        objCheck u x (objReq u c a .load ((memSize t).getD 4) .slice) (baseVal u c (lowLane x.ex) a) ((memSize t).getD 4) waitWindows = .ok z.1 ∧
        syncFirst u x.cid (z.1.map (·.2)) = some z.2.1 ∧
        (z.1.head?).bind (fun p => waitRead z.2.1 c.core ((memSize t).getD 4) p.2) = some (z.2.2.1, z.2.2.2) ∧
        cmpInt cc (num t (bv t z.2.2.2)) (num t (bv t (rdN z.2.2.1 c (lowLane x.ex) (tyWide t) b))) = true)
      (fun z _ _ c => acquireOp z.2.2.1 c.core sc) (fun z _ x _ => clutchAt z.2.2.1 x.cid) ∧
    WordDoneVia s (.wake h a)
      (fun u x c (z : List (Nat × Place) × State) =>
        objCheck u x (objReq u c a .load 0 .none) (baseVal u c (lowLane x.ex) a) 1 waitWindows = .ok z.1 ∧
        releaseAll u x.cid .pkg = some z.2)
      (fun z _ _ _ => wakeWaiting z.2 .waitaddr .waitaddrReread) (fun z _ x _ => clutchAt z.2 x.cid)) ∧
  (∀ (s : State) (h : Hdr) (n : Fin 16) (cnt : BitVec 6),
    let bar := fun (u : State) (c : Clutch) => match c.task.bind (taskAt u) with | some k => tget Bar.zero k.bars n.val | none => Bar.zero
    let here := fun (u : State) (c : Clutch) => (c.task.bind (taskAt u)).isSome = true ∧ c.pad = none
    let stops := fun (i : Instr) (ok : State → Ctx → Clutch → Prop) =>
      WordTraps s i ok (fun _ _ _ => cFifo) (fun _ _ _ => BitVec.ofNat 64 n.val) (fun _ x _ => x.at_)
    stops (.barArr h n cnt) (fun u _ c => here u c ∧ (c.arrived.getLsbD n.val = true ∨ ((bar u c).e ≠ 0 ∧ cnt ≠ (bar u c).e))) ∧
    stops (.barWait h n) (fun u _ c => here u c ∧ c.arrived.getLsbD n.val = false) ∧
    (∀ w p, Ready s (.barWait h n) w p → here (entry s p) (atIssue p) → (atIssue p).arrived.getLsbD n.val = true →
      (bar (entry s p) (atIssue p)).ph = (atIssue p).seen.getLsbD n.val →
      exec (.barWait h n) s = .next (waitFor (entry s p) s.cur .bar (.barWait h n))) ∧
    (∀ b : Bar, b.e ≠ 0 →
      barStep b cnt = if b.a + 1 = b.e then { e := 0, a := 0, ph := !b.ph } else { b with a := b.a + 1 }))

/-- 12 R447: deque words, where the header's line can be taken: `deq.init` writes a header; `deq.push` adds at BOTTOM, `deq.pop` takes
there and `deq.steal` at TOP; an empty deque answers four zeros; a bad header or a full deque traps with FIFO_STATE. That `TRAP_ADDR` is then the header's address is the
model's choice (log 55). -/
def Obligations.DequeWords : Prop :=
  ∀ (s : State) (h : Hdr) (a b d : Reg) (lc : BitVec 5),
    let hd := fun (s1 : State) (pa : Nat) => deqOf (perfNat s1 pa 64)
    let words := fun (v left : Nat) => [v % 2 ^ 32, v / 2 ^ 32, 1, natMin left (2 ^ 32 - 1)]
    let refuses := fun (i : Instr) (rel : Option Scope) (full : Deq → Prop) =>
      ∀ s1 pa, WordTraps s i (fun u x c => deqHead u x c a rel = .inr (s1, pa) ∧ ((hd s1 pa).bad = true ∨ full (hd s1 pa)))
        (fun _ _ _ => cFifo) (fun u x c => baseVal u c (lowLane x.ex) a) (fun _ x _ => x.at_)
    (let eff := fun (z : State × Nat) (_ : State) (x : Ctx) (c : Clutch) =>
      deqPut (deqPut (deqPut (deqPut z.1 z.2 0 8 (rdN z.1 c (lowLane x.ex) true b)) z.2 8 4 lc.toNat) z.2 16 8 0) z.2 24 8 0
     WordDoneVia s (.deqInit h a b lc) (fun u x c z => deqHead u x c a none = .inr z) eff (fun z _ x _ => clutchAt z.1 x.cid)) ∧
    WordDoneVia s (.deqPush h a b)
      (fun u x c (z : (State × Nat) × State × Nat) => deqHead u x c a (some .pkg) = .inr z.1 ∧ (hd z.1.1 z.1.2).bad = false ∧
        (hd z.1.1 z.1.2).bottom - (hd z.1.1 z.1.2).top < 2 ^ (hd z.1.1 z.1.2).logcap ∧
        deqElem z.1.1 u x c ((hd z.1.1 z.1.2).slot (hd z.1.1 z.1.2).bottom) .store = .inr z.2)
      (fun z u x c => deqPut (performBytes z.2.1 z.2.2 (leBytes 8 (rdN u c (lowLane x.ex) true b))) z.1.2 24 8 ((hd z.1.1 z.1.2).bottom + 1))
      (fun z _ x _ => clutchAt z.2.1 x.cid) ∧
    (∀ steal : Bool,
      let i := if steal then Instr.deqSteal h d a else Instr.deqPop h d a
      let slot := fun (q : Deq) => q.slot (if steal then q.top else q.bottom - 1)
      let put := fun (t : State) (pa : Nat) (q : Deq) => if steal then deqPut t pa 16 8 (q.top + 1) else deqPut t pa 24 8 (q.bottom - 1)
      (let eff := fun (z : State × Nat) (_ : State) (x : Ctx) (_ : Clutch) => pendQuad z.1 x d [0, 0, 0, 0]
       WordDoneVia s i (fun u x c z => deqHead u x c a none = .inr z ∧ (hd z.1 z.2).bad = false ∧ (hd z.1 z.2).bottom = (hd z.1 z.2).top)
        eff (fun z u x c => clutchAt (eff z u x c) x.cid)) ∧
      (let eff := fun (z : (State × Nat) × State × Nat) (_ : State) (x : Ctx) (c : Clutch) =>
        acquireOp (pendQuad (put z.2.1 z.1.2 (hd z.1.1 z.1.2)) x d
          (words (perfNat z.2.1 z.2.2 8) ((hd z.1.1 z.1.2).bottom - (hd z.1.1 z.1.2).top - 1))) c.core .pkg
       WordDoneVia s i
        (fun u x c (z : (State × Nat) × State × Nat) => deqHead u x c a none = .inr z.1 ∧ (hd z.1.1 z.1.2).bad = false ∧
          (hd z.1.1 z.1.2).bottom ≠ (hd z.1.1 z.1.2).top ∧ deqElem z.1.1 u x c (slot (hd z.1.1 z.1.2)) .load = .inr z.2)
        eff (fun z u x c => clutchAt (eff z u x c) x.cid)) ∧
      refuses i none (fun _ => False)) ∧
    refuses (.deqPush h a b) (some .pkg) (fun q => 2 ^ q.logcap ≤ q.bottom - q.top)

/-! ### System registers, traps, system words -/

/-- 12 R448 to R450: `sysr` reads a system register, for each lane where it is per lane; `sysw` writes one, after the resident rows have
gone out where it writes `HSTK_BASE`; a write of `LFSR` goes to each executing lane, a 0 as 1; a write of `STATUS` on a SIMT core fails check
5 (PRIVILEGE), at any level. `sysw` of `WEAR_BUDGET`, which the table gives no write privilege, is no instruction (log 107). -/
def Obligations.SystemRegisterWords : Prop :=
  ∀ (s : State) (h : Hdr) (d a : Reg) (n : BitVec 12),
    AluDone s (.sysr h d n) d (sysWide n.toNat) (fun u c k => (sysVal u c k n.toNat, 0)) ∧
    (let eff := fun (z : State) (u : State) (x : Ctx) (c : Clutch) => sysPut z x.cid n.toNat (rdN u c (lowLane x.ex) (sysWide n.toNat) a)
     WordDoneVia s (.sysw h n a)
      (fun u x c (z : State) => n ≠ 0x006 ∧ (n = 0x007 → isHost c = true) ∧
        (if n = 0x033 then rowsOutFrom u x.cid (tsome (laneAt (clutchAt u x.cid) 0).stack) = some z else z = u))
      eff (fun z u x c => clutchAt (eff z u x c) x.cid)) ∧
    wellFormed (.sysw h 0x013 a) = false ∧
    (n = 0x006 → RegDone s (.sysw h n a) always (fun u x c =>
      modLanes c x.ex (fun i l => { l with lfsr := if rd32 u c i a = 0 then 1 else rd32 u c i a }))) ∧
    (n = 0x007 → ∀ (x : Ctx) (w : WordInfo) (c0 : Clutch) (body : Ctx → State → Res), infoOf (.sysw h n a) = some w →
      isHost (clutchAt s x.cid) = false → x.ex ≠ 0 →
      runBody s x w (.sysw h n a) c0 false body = takeTrap s x.cid cPrivilege 0 x.at_ x.at_ x.ia (.sysw h n a))

/-- 12 R449, R450, R456, R460, 08 R283, R292: what a written system register reads as afterwards. A write of one system register leaves every other as it reads (12 R449), for the registers whose write has no further effect. -/
def Obligations.SystemRegistersReadBackAsWritten : Prop :=
  (∀ (s : State) (cid v lane : Nat),
    let c := clutchAt s cid
    let back := fun (n : Nat) => sysVal (sysPut s cid n v) (clutchAt (sysPut s cid n v) cid) lane n
    back 0x001 = v % 64 ∧
    (let m := back 0x002
     bits m 0 3 = (if bits v 0 3 ≤ 4 then bits v 0 3 else 0) ∧ bits m 3 2 = bits v 3 2 ∧ bits m 8 16 = bits v 8 16 ∧
     bits m 31 1 = bits v 31 1 ∧ bits m 5 3 = 0 ∧ bits m 24 7 = 0) ∧
    (v.testBit 5 = true → lane < laneCount c →
      (laneAt (clutchAt (sysPut s cid 0x002 v) cid) lane).lfsr = BitVec.ofNat 32 (bits v 8 16 * 65536 + lane + 1)) ∧
    (v.testBit 5 = false → ∀ l, (laneAt (clutchAt (sysPut s cid 0x002 v) cid) l).lfsr = (laneAt c l).lfsr) ∧
    (c.task = none → back 0x004 = v % 16) ∧
    (∀ t x, c.task = some t → taskAt s t = some x → back 0x004 = v % 256) ∧
    (isHost c = true → back 0x007 = statusVal { c with ie := v.testBit 3 } ∧ bits (back 0x007) 0 2 = c.level.val) ∧
    back 0x012 = v % 128 ∧ back 0x020 = v % 2 ^ 64 ∧ back 0x030 = v % 2 ^ 64 ∧ back 0x031 = v % 2 ^ 64 ∧ back 0x032 = v % 2 ^ 64 ∧
    back 0x033 = v % 2 ^ 64 ∧ back 0x034 = v % 2 ^ 64 ∧ back 0x035 = v % 2 ^ 13 ∧ back 0x036 = v % 256 ∧ back 0x037 = v % 16 ∧
    back 0x039 = v % 2 ^ 64 ∧
    (bits (back 0x038) 0 1 = if v.testBit 0 then 0 else bits (sysVal s c lane 0x038) 0 1) ∧
    (bits (back 0x038) 1 1 = bits (sysVal s c lane 0x038) 1 1) ∧
    (bits (back 0x038) 2 1 = if v.testBit 2 then 0 else bits (sysVal s c lane 0x038) 2 1)) ∧
  (∀ (s : State) (cid v lane n m : Nat), m ≠ n →
    n ∈ [0x001, 0x004, 0x020, 0x030, 0x031, 0x032, 0x034, 0x036, 0x037] →
    sysVal (sysPut s cid n v) (clutchAt (sysPut s cid n v) cid) lane m = sysVal s (clutchAt s cid) lane m)

/-- 12 R456, R457, 05 R161: a SIMT clutch whose task has a handler, outside a trap and with room for a window in every lane at the issue
address, enters it: the trap set is written, those lanes save `wbv`, move up one window and stand at HANDLER, and nothing else of the
machine changes. A task with no handler, or inside a trap, ends with the cause as its code, one without room with STACK_LIMIT. -/
def Obligations.SimtTrapEntry : Prop :=
  ∀ (s : State) (cid cause tn : Nat) (addr : Dword) (mask l : Mask) (tpc : BitVec 53) (x : Task),
    let c := clutchAt s cid
    let t := trapSimt s cid cause addr mask l tpc
    let d := clutchAt t cid
    let room := ∀ i ∈ lanesOf l, 8 * ((laneAt c i).wbv.toNat + 14) + 112 ≤ 8 * stackLimit s c
    let inTrap := (tget TrapSet.zero c.traps 0).inTrap
    c.task = some tn → taskAt s tn = some x → cause < 256 →
    (x.handler ≠ 0 → inTrap = false → room →
      t = setClutch s cid d ∧
      (let set := tget TrapSet.zero d.traps 0
       set.pc = byteAddr tpc ∧ set.cause = BitVec.ofNat 32 (cause + c.level.val * 2 ^ 16) ∧ set.addr = addr ∧ set.mask = mask ∧
       set.lanes = l ∧ set.inTrap = true ∧ set.rc = c.rc ∧ set.grp = c.grp ∧ set.rot = c.rot) ∧
      (∀ i, if l.getLsbD i = true then
          (laneAt d i).pc = BitVec.ofNat 53 (x.handler.toNat / 8) ∧ (laneAt d i).wbv = (laneAt c i).wbv + 14 ∧
          tget 0 (laneAt d i).savedWbv 0 = (laneAt c i).wbv ∧
          { laneAt d i with pc := 0, wbv := 0, savedWbv := [] } = { laneAt c i with pc := 0, wbv := 0, savedWbv := [] }
        else laneAt d i = laneAt c i) ∧
      { d with traps := [], lanes := [], wait := none } = { c with traps := [], lanes := [], wait := none }) ∧
    (x.handler = 0 ∨ inTrap = true → t = failTask s tn cause 0) ∧
    (x.handler ≠ 0 → inTrap = false → ¬ room → t = failTask s tn cStack 0)

/-- 12 R458: which level takes a trap on a host core, and what the entry writes. -/
def Obligations.HostTrapEntry : Prop :=
  ∀ (s : State) (cid cause : Nat) (addr : Dword) (mask : Mask) (tpc : BitVec 53),
    let c := clutchAt s cid
    let k := hostAt s (colOf c.core)
    let vec := fun lv => if lv = 0 then k.uvec else if lv = 1 then k.svec else k.fvec
    let open_ := fun lv => (tget TrapSet.zero c.traps lv).inTrap = false ∧ vec lv ≠ 0
    let target := if cause = cSyscall then min (c.level.val + 1) 2 else if c.level.val = 0 ∧ k.uvec = 0 then 1 else c.level.val
    let t := trapHost s cid cause none addr mask tpc
    let d := clutchAt t cid
    let room := 8 * ((laneAt c 0).wbv.toNat + 14) + 112 ≤ 8 * stackLimit s c
    (∀ lv, lv < 3 → target ≤ lv → open_ lv → (∀ j, target ≤ j → j < lv → ¬ open_ j) → room → cause < 256 →
      t = setClutch s cid d ∧ d.level.val = lv ∧ d.ie = false ∧
      (let set := tget TrapSet.zero d.traps lv
       set.pc = byteAddr tpc ∧ set.cause = BitVec.ofNat 32 (cause + c.level.val * 2 ^ 16 + (if c.ie then 2 ^ 18 else 0)) ∧
       set.addr = addr ∧ set.mask = mask ∧ set.inTrap = true ∧ set.rc = c.rc ∧ set.grp = c.grp ∧ set.rot = c.rot) ∧
      (∀ j, j ≠ lv → tget TrapSet.zero d.traps j = tget TrapSet.zero c.traps j) ∧
      (laneAt d 0).pc = (vec lv).extractLsb' 3 53 ∧ (laneAt d 0).wbv = (laneAt c 0).wbv + 14 ∧
      tget 0 (laneAt d 0).savedWbv lv = (laneAt c 0).wbv ∧ d.s = c.s ∧ d.k = c.k ∧ d.a = c.a ∧ d.flags = c.flags ∧ d.fpmode = c.fpmode) ∧
    ((∀ lv, lv < 3 → target ≤ lv → ¬ open_ lv) ∨ ¬ room → (hostAt t (colOf c.core)).halted = true ∧ d.level = c.level ∧ d.traps = c.traps)

/-- 12 R451, R455, R459: `scall` and `brk` trap with their immediate, `TRAP_PC` naming the next word; `tret` outside a handler is
ILLEGAL, and inside takes its lanes back to `TRAP_PC` and their saved window, and the rotation state (05 R161). -/
def Obligations.TrapAndReturnWords : Prop :=
  ∀ (s : State) (h : Hdr) (i : BitVec 16),
    (∀ w p, Ready s (.scall h i) w p → exec (.scall h i) s =
      .next (takeTrap (entry s p) s.cur cSyscall (i.setWidth 64) (exLanes w p) p.at_ (p.ia + 1) (.scall h i))) ∧
    (∀ w p, Ready s (.brk h i) w p → exec (.brk h i) s =
      .next (takeTrap (entry s p) s.cur cBreak (i.setWidth 64) (exLanes w p) p.at_ (p.ia + 1) (.brk h i))) ∧
    WordTraps s (.tret h) (fun _ _ c => (trapSet c).inTrap = false) (fun _ _ _ => cIllegal) (fun _ _ _ => (encode (.tret h)).getD 0)
      (fun _ x _ => x.at_) ∧
    (∀ w p v, Ready s (.tret h) w p → (trapSet (atIssue p)).inTrap = true → stopAll (entry s p) s.cur = some v →
      ∃ t, exec (.tret h) s = .next t ∧
        After s (trapReturn v s.cur) t p (clutchAt (trapReturn v s.cur) s.cur) (trapSet (atIssue p)).lanes) ∧
    (∀ u cid,
      let c := clutchAt u cid
      let d := clutchAt (trapReturn u cid) cid
      let lv := if isHost c then c.level.val else 0
      let set := tget TrapSet.zero c.traps lv
      (tget TrapSet.zero d.traps lv) = { set with inTrap := false } ∧ d.rc = set.rc ∧ d.grp = set.grp ∧ d.rot = set.rot ∧
      (∀ n, laneAt d n = if set.lanes.getLsbD n then
          { laneAt c n with pc := set.pc.extractLsb' 3 53, wbv := tget 0 (laneAt c n).savedWbv lv } else laneAt c n) ∧
      (isHost c = false → d.level = c.level ∧ d.ie = c.ie) ∧
      (isHost c = true → bits set.cause.toNat 16 2 < 3 → d.level.val = bits set.cause.toNat 16 2 ∧
        d.ie = (set.cause.getLsbD 18 || decide (bits set.cause.toNat 16 2 = 0))))

/-- 12 R452 to R454: `wfi` with an enabled interrupt pending, `halt`, `ipi`, and the invalidations. 06 R208, R211: an invalidation leaves no selected entry in any TLB and keeps every other, and leaves no launcher's table that it touches (03 R122); no register or byte changes. That `icinv.line` of a base without a translation drops
nothing is the model's choice (log 57). -/
def Obligations.HostAndInvalidationWords : Prop :=
  (∀ (s : State) (h : Hdr) (a : Reg) (ctx : BitVec 8),
    let pending := fun (u : State) (c : Clutch) => BitVec.ofNat 4 (intPend u (colOf c.core)) &&& (hostAt u (colOf c.core)).intEn
    let inval := fun (i : Instr) (hit : State → Clutch → Nat → TlbEntry → Bool) (ext : State → Clutch → Nat → Nat → Extent → Bool) =>
      WordDoneVia s i (fun u x _ (v : State) => releaseAll u x.cid .pkg = some v)
        (fun v _ x c => invalidate v (hit v c (lowLane x.ex)) (ext v c (lowLane x.ex))) (fun v _ x _ => clutchAt v x.cid)
    RegDone s (.wfi h) (fun u _ c => pending u c ≠ 0) (fun _ _ c => c) ∧
    (∀ w p, Ready s (.wfi h) w p → pending (entry s p) (atIssue p) = 0 → exec (.wfi h) s = .next (waitFor (entry s p) s.cur .wfi (.wfi h))) ∧
    WordDoneVia s (.halt h) (fun u x _ (v : State) => completeAll u x.cid = some v)
      (fun v _ x _ => modHost v (colOf (clutchAt v x.cid).core) (fun k => { k with halted := true })) (fun v _ x _ => clutchAt v x.cid) ∧
    WordDone s (.ipi h a) always
      (fun u x c => (modHost u ((rd32 u c (lowLane x.ex) a).toNat % 64) (fun k => { k with ipi := true }), c)) (fun _ _ _ => 0) ∧
    inval (.tlbinvVa h ctx a)
      (fun v c l e => let va := rdN v c l true a; decide (e.ctx = ctx.toNat) && decide (e.va ≤ va) && decide (va < e.va + e.size))
      (fun v c l k e => let va := rdN v c l true a; decide (k = ctx.toNat) && decide (extLo e ≤ va) && decide (va < extLo e + extLen e)) ∧
    inval (.tlbinvCtx h ctx) (fun _ _ _ e => decide (e.ctx = ctx.toNat)) (fun _ _ _ k _ => decide (k = ctx.toNat)) ∧
    inval (.tlbinvAll h) (fun _ _ _ _ => true) (fun _ _ _ _ _ => true) ∧
    (let eff := fun (v : State) (u : State) (x : Ctx) (c : Clutch) => match icinvBase u c (lowLane x.ex) a with
        | some l => dropKept v (some l) | none => v
     WordDoneVia s (.icinvLine h a)
      (fun u x c (v : State) => bareStop u c [(baseVal u c (lowLane x.ex) a).toNat] = none ∧ releaseAll u x.cid .pkg = some v) eff (fun v _ x _ => clutchAt v x.cid)) ∧
    WordDoneVia s (.icinvAll h) (fun u x _ (v : State) => releaseAll u x.cid .pkg = some v) (fun v _ _ _ => dropKept v none)
      (fun v _ x _ => clutchAt v x.cid)) ∧
  (∀ (s : State) (hit : TlbEntry → Bool) (ext : Nat → Extent → Bool) (line : Nat),
    let t := invalidate s hit ext
    (∀ e ∈ t.tlb, hit e = false ∧ e ∈ s.tlb) ∧ (∀ e ∈ s.tlb, hit e = false → e ∈ t.tlb) ∧
    (∀ x ∈ t.extCache, x ∈ s.extCache ∧ ∀ e ∈ x.exts, ext x.ctx e = false) ∧
    t.clutches = s.clutches ∧ t.mem = s.mem ∧ t.l1 = s.l1 ∧ t.cols = s.cols ∧
    (∀ p ∈ (dropKept s (some line)).icache, ∀ q ∈ p.2, q.1 / 16 ≠ line) ∧ (dropKept s none).icache = [])

/-- 09 R326: checks 3 to 6 of a word at its issue address, in their order, each trapping before anything of the word happens. A word of the
other kind of core, and an odd first register of an FP64 plane element, are ILLEGAL (05 R166); that `TRAP_ADDR` of HAZARD on a link word, and
of POISON on a row, is open is the model's choice (logs 119, 32). 10 R368, R370: inside a region the 4,096th word or a forbidden word ends it: LENGTH, or ILLEGAL. -/
def Obligations.WordChecksInTheirOrder : Prop :=
  (∀ (s : State) (x : Ctx) (w : WordInfo) (i : Instr) (c0 : Clutch) (pairing : Bool) (body : Ctx → State → Res),
    let c := clutchAt s x.cid
    let wd := (encode i).getD 0
    let wrongCore := (w.simt = true ∧ isHost c = true) ∨ (w.host = true ∧ isHost c = false) ∨ oddPair s c x.ex i = true
    let low := x.ex ≠ 0 ∧ privFails c i w = true
    let traps := fun (cause : Nat) (addr : Dword) => runBody s x w i c0 pairing body = takeTrap s x.cid cause addr x.at_ x.at_ x.ia i
    (wrongCore → traps cIllegal wd) ∧
    (¬ wrongCore → pairing = true → traps cPairing wd) ∧
    (¬ wrongCore → pairing = false → low → traps cPrivilege 0) ∧
    (¬ wrongCore → pairing = false → ¬ low → ∀ m, badRows s c w i x.at_ x.ex = some m →
      runBody s x w i c0 pairing body = takeTrap (freeD s).2 x.cid cPoison (freeD s).1 m x.at_ x.ia i) ∧
    (¬ wrongCore → pairing = false → ¬ low → badRows s c w i x.at_ x.ex = none → c.fpmode.getLsbD 31 = true →
      (∀ r, hazardOf s c w i x.ex = some r → traps cHazard ((regCode r).setWidth 64)) ∧
      (hazardOf s c w i x.ex = none → linkHazard c w x.ex = true →
        runBody s x w i c0 pairing body = takeTrap (freeD s).2 x.cid cHazard (freeD s).1 x.at_ x.at_ x.ia i)) ∧
    (¬ wrongCore → pairing = false → ¬ low → badRows s c w i x.at_ x.ex = none →
      (c.fpmode.getLsbD 31 = true → hazardOf s c w i x.ex = none) →
      c.region = none → x.ex = 0 → runBody s x w i c0 pairing body = finish s x w c0 0)) ∧
  (∀ (s : State) (x : Ctx) (w : WordInfo) (i : Instr) (c0 : Clutch) (body : Ctx → State → Res) (g : Region),
    (clutchAt s x.cid).region = some g → (w.simt = true → isHost (clutchAt s x.cid) = false) →
    (w.host = true → isHost (clutchAt s x.cid) = true) → oddPair s (clutchAt s x.cid) x.ex i = false → privFails (clutchAt s x.cid) i w = false → badRows s (clutchAt s x.cid) w i x.at_ x.ex = none →
    (clutchAt s x.cid).fpmode.getLsbD 31 = false →
    (4096 ≤ g.words → runBody s x w i c0 false body = regionAbort s x.cid 19) ∧
    (g.words < 4096 → x.ex ≠ 0 → w.forbid = true → runBody s x w i c0 false body = regionAbort s x.cid 20))
/-! ### Steps of other agents: issue choice, results, waits -/

/-- 04 R137 to R139, 10 R356: an issue cycle of a quadrant gives the turn to one of its ready clutches, passing over those that have
yielded while another is ready. A clutch that has waited 3 × N cycles or more, N being the number of ready clutches, comes first, the
longest wait before the others and the lowest slot on a tie; else the highest priority, the oldest dispatch, and within a task the next
slot in turn. Wait counts of the clutches that issue or are not ready return to 0, the others rise by one. A host column's cycle gives
the turn to its host core. That the next slot in turn is counted by a pointer for each task and quadrant is the model's choice (logs 35, 36).
-/
def Obligations.IssueCycleGivesTheTurn : Prop :=
  ∀ (s : State) (core : Fin 256) (q : Fin 4) (col : Fin 64),
    (ready s (clutchAt s col.val) = true → exec (.issueCycle (.host col)) s = .next { s with cur := col.val, issuing := true }) ∧
    (let here := (clutchesOn s core.val).filter (fun p => decide (p.2.quad = q.val))
     let rs := here.filter (fun p => ready s p.2)
     let can := if rs.all (fun p => p.2.yielded) then rs else rs.filter (fun p => !p.2.yielded)
     let late := fun (p : Nat × Clutch) => 3 * rs.length ≤ p.2.waitCount
     rs ≠ [] →
     ∃ t p, exec (.issueCycle (.quad core q)) s = .next t ∧ p ∈ can ∧ t.cur = p.1 ∧ t.issuing = true ∧
      ((∃ r ∈ can, late r) → late p ∧ ∀ r ∈ can, r.2.waitCount ≤ p.2.waitCount ∧ (r.2.waitCount = p.2.waitCount → p.2.slot ≤ r.2.slot)) ∧
      ((∀ r ∈ can, ¬ late r) → ∀ r ∈ can,
        ((taskRank s r.2).1 < (taskRank s p.2).1 ∨ ((taskRank s r.2).1 = (taskRank s p.2).1 ∧ (taskRank s p.2).2 ≤ (taskRank s r.2).2)) ∧
        (let last := tget 0 (coreAt s core.val).lastSlot (rrKey p.2)
         r.2.task = p.2.task → (last ≤ p.2.slot ∧ (last ≤ r.2.slot → p.2.slot ≤ r.2.slot)) ∨
           (p.2.slot < last ∧ r.2.slot < last ∧ p.2.slot ≤ r.2.slot))) ∧
      tget 0 (coreAt t core.val).lastSlot (rrKey p.2) = p.2.slot + 1 ∧
      (∀ r ∈ here, clutchAt t r.1 = { r.2 with
        waitCount := if r.1 = p.1 ∨ ready s r.2 = false then 0 else r.2.waitCount + 1
        yielded := r.2.yielded && !rs.any (fun x => decide (x.1 ≠ r.1)) }) ∧
      (∀ cid, (∀ r ∈ here, r.1 ≠ cid) → clutchAt t cid = clutchAt s cid) ∧
      t.mem = s.mem ∧ t.l1 = s.l1 ∧ t.tasks = s.tasks ∧ t.cols = s.cols)

/-- 05 R173: the parts that are written of a pending result, when their values are known, change their destinations alone and leave the
other parts pending. -/
def Obligations.PendingPartsAreWritten : Prop :=
  ∀ (s : State) (cid n : Nat) (lanes : Mask) (p : Pend), live s = true → (clutchAt s cid).inflight = [p] → p.id = n → p.acq = none →
    (∀ a ∈ p.accs, ∃ lo hi, a.src = .val lo hi) → (∀ o ∈ s.sync, o.cid ≠ cid) →
    ∃ t, exec (.longResultWrite cid n lanes) s = .next t ∧ t = setClutch s cid (clutchAt t cid) ∧
      (∀ d, (∀ a ∈ p.accs, lanes.getLsbD a.lane = true → d ≠ a.lo ∧ a.hi ≠ some d) →
        cell (clutchAt t cid) d = cell (clutchAt s cid) d) ∧
      (∀ a ∈ p.accs, lanes.getLsbD a.lane = true → ∀ lo hi, a.src = .val lo hi → a.hi ≠ some a.lo →
        (∀ b ∈ p.accs, b ≠ a → b.lo ≠ a.lo ∧ b.hi ≠ some a.lo) →
        cell (clutchAt t cid) a.lo = (some (stored (clutchAt s cid) a.lo lo), false)) ∧
      (∀ r ∈ (clutchAt t cid).inflight, r.id = n ∧ r.accs = p.accs.filter (fun a => !lanes.getLsbD a.lane))

/-- 04 R138, 05 R164, R169, R179: the steps that end waits. The waiting word runs again for its clutch; lanes that wait on a mask go on
when every lane whose bit is set waits; a parked window leaves and returns. 12 R427, R460, R461: an engine error is delivered at a stop, with the number of the command that failed; an interrupt of a host core
enters supervisor; the timer is due when `TSC` has reached `TIMECMP`. `TRAP_PC` and `TRAP_MASK` of an ENGINE_ASYNC entry (log 24), and the
room that a parked window needs (log 37), are the model's choice. -/
def Obligations.WaitsEndAndEntriesAreMade : Prop :=
  (∀ (s : State) (cid : Nat) (k : Fin 12) (i : Instr),
    let again := fun (ev : Instr) (kind : WaitKind) => (clutchAt s cid).wait = some { kind := kind, instr := i } →
      ∃ t, exec i { s with cur := cid } = .next t ∧ exec ev s = .next { t with cur := s.cur }
    (∀ h t d q, (i = .qpush h t d q ∨ i = .qpop h t d q) → again (.queueWaitResume cid) .queue) ∧
    (∀ h n r d, i = .ringAcq h n r d → again (.ringAcqResume cid) .ring) ∧
    (∀ h a, (i = .vfsend h a ∨ i = .vfrecv h a) → again (.vfifoWaitResume cid) .vfifo) ∧
    (∀ h e a, i = .tlwait h e a → again (.tlwaitReturn cid) .tlwait) ∧
    (∀ h d a, i = .join h d a → again (.joinReturn cid) .join) ∧
    (∀ h sc cc t a b, i = .waitaddr h sc cc t a b → again (.waitaddrReread cid) .waitaddr) ∧
    (∀ h a, i = .sbarWait h a → again (.sbarWaitResume cid) .sbar) ∧
    (∀ h n, i = .barWait h n → again (.barWaitResume cid) .bar) ∧
    (∀ h sc a b, i = .launch h sc a b → again (.launchQueueResume cid) .launchLine) ∧
    (∀ h a, i = .leap h a → again (.leapLand cid) .leap) ∧
    (let c := clutchAt s cid
     let waiting := maskOf (fun n => decide ((laneAt c n).kwait = some k))
     let need := if isHost c then getK c k.val &&& 1 else getK c k.val
     c.region = none → waiting ≠ 0 → need &&& ~~~waiting = 0 →
     exec (.kwaitRelease cid k) s = .next (setClutch s cid (modLanes c waiting (fun _ l => { l with kwait := none })))) ∧
    (isHost (clutchAt s cid) = false → live s = true → busFailed s (colOf (clutchAt s cid).core) = false →
      bankBusy s (colOf (clutchAt s cid).core) = false →
      bankErrLines s (stackLine (colOf (clutchAt s cid).core)) (stackArea / 128) = [] → exec (.registerRecall cid) s = .next (setClutch s cid { clutchAt s cid with windowOut := false })) ∧
    (isHost (clutchAt s cid) = false → live s = true → parkable (clutchAt s cid) = true → (clutchAt s cid).windowOut = false →
      clutchIn s (clutchAt s cid) = true → parkRoom s (colOf (clutchAt s cid).core) = true → busFailed s (colOf (clutchAt s cid).core) = false →
      exec (.windowParking cid) s = .next (setClutch s cid { clutchAt s cid with windowOut := true }))) ∧
  (∀ (s u : State) (cid e n : Nat) (x : EngCtx) (m : Mask) (p : Issue) (col : Fin 64),
    (asyncStop (clutchAt s cid) = some m → asyncDue s cid = some (e, x) → issueOf (clutchAt s cid) = some p →
      runs s (clutchAt s cid) = true → stopAll s cid = some u →
      exec (.engineAsyncDelivery cid) s = .next (takeTrap
        (setEng u (engRef (clutchAt s cid)) e { engAt u (engRef (clutchAt s cid)) e with deliv := false })
        cid 0x12 x.cmd m p.at_ p.ia (.nop { stop := false, pred := .always }))) ∧
    (intDue s col.val = some n → stopAll s col.val = some u → (clutchAt u col.val).region = none →
      exec (.interruptEntry col) s = .next (trapHost u col.val 0 (some n) 0 1 (laneAt (clutchAt u col.val) 0).pc)) ∧
    ((intDue s col.val).isSome = true → (clutchAt s col.val).ie = true ∧ (clutchAt s col.val).level ≠ 2) ∧
    (intDue s col.val = some n → (intPend s col.val).testBit n = true ∧ (hostAt s col.val).intEn.getLsbD n = true ∧
      ∀ j, j < n → ¬ ((intPend s col.val).testBit j = true ∧ (hostAt s col.val).intEn.getLsbD j = true)) ∧
    ((hostAt s col.val).timecmp.toNat ≤ s.tsc.toNat →
      exec (.timerExpiry col) s = .next { s with agenda := .interruptEntry col :: s.agenda }))


/-! ### Steps of other agents: engines and installs -/

/-- 11 R413, 12 R425 to R433: a command that runs takes its next step: a copy its next chunk, a stream its next element, a near-memory
command all of its work, a matrix job its next tile; a failed check ends it; a command whose work is over is counted. 12 R430, 05 R180: an element that a stream puts stands at TAIL of its queue; the last one sets DONE and ends the command. -/
def Obligations.EngineStepsRun : Prop :=
  (∀ (s t : State) (id : Nat) (k : Cmd) (core : Fin 256), cmdAt s id = some k →
    (let b := copyBlk k.block
     k.kind = .copy → cmdRuns s k = true →
     (∀ code a, copyCheck s k b = some (code, a) → failCmd s id code 0 a = some t → exec (.copyChunk id) s = .next t) ∧
     (copyCheck s k b = none → k.progress < b.len → copyChunk s id k b = some t → exec (.copyChunk id) s = .next t) ∧
     (copyCheck s k b = none → b.len ≤ k.progress → copyEnd s id k b = some t → exec (.copyChunk id) s = .next t)) ∧
    (∀ tn p u bs, let q := bits k.block.toNat (8 * 0x14) 4
      let w := queueAt s tn q
      let va := (BitVec.ofNat 64 (bits k.block.toNat 0 64 + k.progress * bits k.block.toNat 64 64) : Dword).toNat
      k.kind = .stream → k.ref = .task tn → cmdRuns s k = true → streamBad k.block = false → qCount w ≠ 2 ^ qDepth w →
      bits k.block.toNat (8 * 0x14 + 4) 1 = 0 → streamLoad s id k va (qSize w) (qSize w) = .ok p → streamRead s id k p (qSize w) = .ok (u, bs) →
      exec (.streamElement id) s = .next (streamPut u id k tn q bs)) ∧
    (∀ v u f, isNme k.kind = true → cmdRuns s k = true → nmeTake s k = some v → nmeCheck v k = .ok → nmeRun v k = .done u f →
      exec (.nmeCommandRun id) s = .next (setCmd (cmdFlags u k f) id { k with ended := true })) ∧
    (∀ x, let c := cardOf k.block
      runningJob s core.val = some (id, k, x) →
      (k.progress < c.tiles → tileMetaBad s x c k.progress = none → exec (.matrixTile core) s =
        .next (setCmd (cmdFlags (tileWrite s x c k.progress).1 k (tileWrite s x c k.progress).2) id { k with progress := k.progress + 1 })) ∧
      (c.tiles ≤ k.progress → exec (.matrixJobComplete core) s =
        .next (setCmd (dequeueJob (saveArea s x c 2 c.tiles [] [] 0 0) core.val id) id { k with ended := true }))) ∧
    (k.ended = true → live s = true → completeCmd s id = some t → exec (.engineCommandComplete id) s = .next t)) ∧
  (∀ (s : State) (id tn q : Nat) (k : Cmd) (x : Task) (bs : List Byte), taskAt s tn = some x →
    let w := queueAt s tn q
    let t := streamPut s id k tn q bs
    let last := k.progress + 1 = bits k.block.toNat (8 * 0x10) 32
    bs.length = qSize w → x.spOff + qElem w (qTail w) + qSize w ≤ 0x200000 →
    spRead t x.core (x.spOff + qElem w (qTail w)) (qSize w) = bs ∧
    qTail (queueAt t tn q) = (qTail w + 1) % 65536 ∧ qHead (queueAt t tn q) = qHead w ∧
    (qDone (queueAt t tn q) = true ↔ qDone w = true ∨ last) ∧
    (∃ k', cmdAt t id = some k' ∧ k'.progress = k.progress + 1 ∧ (k'.ended = true ↔ last)) ∧
    t.mem = s.mem ∧ t.clutches = s.clutches)

/-- 06 R238 to R242: an install starts with its units charged, programs one unit a try, switches all its units and raises the version
at once, and completes once no read of the old blocks is in flight; a load that asked before the commit gets the old bytes, not
kept; the reading room serves the other loads that wait for lines of a unit. -/
def Obligations.InstallStepsRun : Prop :=
  ∀ (s t : State) (id unit : Nat) (k : Cmd) (x : Install), installCmd s id = some k →
    (∀ v, installAt s id = none → installHeld s k = false → bits k.block.toNat (8 * 0x18) 832 = 0 →
      walksAt s (dieOf (colOf k.core)) k.ctx (installPages k) = some v →
      (installCheck v id k = .inr x → exec (.installStart id) s = .next { x.units.foldl chargeUnit v with
        weights := { (x.units.foldl chargeUnit v).weights with installs := (x.units.foldl chargeUnit v).weights.installs ++ [x] } }) ∧
      (∀ code, installCheck v id k = .inl code → failCmd v id 10 code (bits k.block.toNat 64 64) = some t →
        exec (.installStart id) s = .next t)) ∧
    (installAt s id = some x → x.committed = false → listGet x.units x.done = some unit →
      homeReads s ((sourceLines x (65536 * x.done) 65536).map (fun l => 128 * l)) = some t →
      exec (.installUnitProgram id false) s = .next (setInstall
        { t with
          fresh := t.fresh + 65536
          weights := { t.weights with staged := putUnit t.weights.staged unit (sourceBytes t x (65536 * x.done) 65536) } }
        { x with done := x.done + 1, fails := 0 })) ∧
    (installAt s id = some x → x.committed = false → listGet x.units x.done = some unit → x.fails < 3 →
      exec (.installUnitProgram id true) s = .next (setInstall s { x with fails := x.fails + 1 })) ∧
    (installAt s id = some x → x.committed = false → x.done = x.units.length →
      ∃ r, exec (.installCommit id) s = .next r ∧ verOf r x.ext = verOf s x.ext + 1 ∧
        (∀ e, e ≠ x.ext → verOf r e = verOf s e) ∧
        (∀ u j, j < 65536 → tget 0 r.weights.flash (65536 * u + j) =
          if u ∈ x.units then tget 0 s.weights.staged (65536 * u + j) else tget 0 s.weights.flash (65536 * u + j)) ∧
        (∀ a ∈ s.weights.asks, a.got = none → a.old = none → weightExt a.line = x.ext →
          { a with old := some (perfLine s a.line) } ∈ r.weights.asks) ∧
        r.mem = s.mem ∧ r.clutches = s.clutches ∧ r.l1 = s.l1) ∧
    (installAt s id = some x → x.committed = true → oldReads s x.ext = false → completeCmd (dropInstall (x.old.foldl freeUnit s) id) id = some t →
      exec (.installComplete id) s = .next t) ∧
    (∀ err, let old := waitingLines s unit true
      let asks := waitingLines s unit false
      let v := verOf s (unit / 16384)
      live s = true →
      (old ≠ [] → ∃ r, exec (.readingRoomFill unit err) s = .next r ∧ r = { s with weights := { s.weights with asks := r.weights.asks } } ∧
        (∀ a ∈ old, { a with got := some (a.old.getD 0, err) } ∈ r.weights.asks)) ∧
      (old = [] → asks ≠ [] → ∃ r, exec (.readingRoomFill unit err) s = .next r ∧
        r.weights.room = (if err then s.weights.room else ((unit, v) :: s.weights.room.erase (unit, v)).take (roomUnits s)) ∧
        (∀ a ∈ asks, isWeight s a.line = true → { a with got := some (perfLine s a.line, err) } ∈ r.weights.asks) ∧
        r.clutches = s.clutches ∧ r.weights.flash = s.weights.flash ∧ r.weights.ver = s.weights.ver))

/-! ### Steps of other agents: caches, tokens, translation -/

namespace Sys2Proof.Machine

/-- The tokens of a line: those at the four dies and those under way (06 R226, R228). -/
def tokTotal (s : State) (line : Nat) : Nat :=
  tget 0 (tokAt s line).held 0 + tget 0 (tokAt s line).held 1 + tget 0 (tokAt s line).held 2 + tget 0 (tokAt s line).held 3 +
    ((s.msgs.filter (fun m => decide (m.line = line))).map (·.n)).sum

end Sys2Proof.Machine

/-- 06 R221 to R224, R228, R238, 07 R250, R252, R262, R265: a fill takes a line of cached memory into an L1, which then holds its own
dirty bytes over those that its column sees; an eviction puts the dirty bytes of a line into the column's queue and drops the line; a
drain performs the bytes of the oldest entry of a line, with all tokens; a sync engine performs the oldest operation queued at its die
and answers the old value, and with none queued there a bank read-modify-write unit of the die performs its own (06 R224, R233). That the
operations of a die stand in one queue in this order is the model's choice (log 88). -/
def Obligations.CacheStepsRun : Prop :=
  ∀ (s : State) (i line n : Nat) (col : Fin 64) (die : Fin 4), live s = true →
    let old := (l1At s i line).getD L1Line.empty
    let cwq := (colAt s (colOf i)).cwq
    let others := fun (t : State) => ∀ j m, (j ≠ i ∨ m ≠ line) → l1At t j m = l1At s j m
    let open_ := fun (m : Nat) => ∀ c bo, paKind s (128 * m) = .bank c bo → bankBusy s c = false ∧ lineLocked s c m = false
    let taken := fun (m d : Nat) => holders s m none = [] ∧ claimed s m d none = false ∧ noRoom s m = false
    (i < 320 → cached s line = true → isWeight s line = false → ((l1At s i line).isSome = true ∨ (tget [] s.l1 i).length < l1Cap) →
      acceptedOf s (dieOf (colOf i)) line = [] → 1 ≤ tget 0 (tokAt s line).held (dieOf (colOf i)) → open_ line →
      ∃ t l, exec (.cacheFill i line) s = .next t ∧ l1At t i line = some l ∧ l.valid = BitVec.allOnes 128 ∧ l.dirty = old.dirty ∧
        (∀ k, k < 128 → lineByte l.data k =
          if old.dirty.getLsbD k then lineByte old.data k else lineByte (columnLine t (colOf i) line) k) ∧
        others t ∧ t.clutches = s.clutches ∧ t.toks = s.toks) ∧
    (i < 320 → cached s line = true → isWeight s line = true → inRoom s line = true →
      ((l1At s i line).isSome = true ∨ (tget [] s.l1 i).length < l1Cap) →
      ∃ t l, exec (.cacheFill i line) s = .next t ∧ l1At t i line = some l ∧ l.valid = BitVec.allOnes 128 ∧ l.dirty = 0 ∧
        l.ver = some (verOf s (weightExt line)) ∧
        ((l.data = perfLine s line ∧ l.poison = false) ∨ ∃ y, weightSlice s i line = some y ∧ l.data = y.data ∧ l.poison = y.poison) ∧
        others t ∧ t.clutches = s.clutches) ∧
    (∀ l, l1At s i line = some l → (l.dirty = 0 ∨ cwq.length < 256) →
      ∃ t, exec (.l1EvictTimeout i line) s = .next t ∧ l1At t i line = none ∧ others t ∧
        (colAt t (colOf i)).cwq = (if l.dirty = 0 then cwq else cwqMerge line l.data l.dirty l.poison cwq) ∧
        ((∀ e ∈ cwq, e.line = line → e.accepted.isSome = true) → l.dirty ≠ 0 → (colAt t (colOf i)).cwq =
          cwq ++ [{ line := line, data := l.data, mask := l.dirty, accepted := none, poison := l.poison }]) ∧
        (∀ pa, perfByte t pa = perfByte s pa) ∧ t.clutches = s.clutches) ∧
    (∀ (e : CwqEntry) (rest : List CwqEntry), listGet (colAt s col.val).cwq n = some e →
      cwqTake e.line (colAt s col.val).cwq = some (e, rest) → cached s e.line = true → isWeight s e.line = false →
      (∀ a ∈ acceptedOf s (dieOf col.val) e.line, ∃ k, e.accepted = some k ∧ k ≤ a.1) →
      taken e.line (dieOf col.val) →
      ∃ t, exec (.cwqDrain col n) s = .next t ∧ (colAt t col.val).cwq = rest ∧
        (∀ k, k < 128 → perfByte t (128 * e.line + k) = if e.mask.getLsbD k then lineByte e.data k else perfByte s (128 * e.line + k)) ∧
        (tokAt t e.line).held = [(dieOf col.val, 4)] ∧ t.l1 = s.l1 ∧ t.clutches = s.clutches) ∧
    (∀ (o : SyncOp) (w : Nat), s.sync.find? (fun q => decide (q.die = die.val)) = some o → memSize o.t = some w → o.pa % w = 0 →
      cached s (o.pa / 128) = true → isWeight s (o.pa / 128) = false → acceptedOf s o.die (o.pa / 128) = [] → open_ (o.pa / 128) →
      1 ≤ tget 0 (tokAt s (o.pa / 128)).held o.die → taken (o.pa / 128) o.die →
      let v := perfNat s o.pa w
      ∃ t, exec (.syncEngineAtomic die) s = .next t ∧ t.sync = s.sync.erase o ∧
        perfNat t o.pa w = atomNew o.op o.t v o.b.toNat o.cmp.toNat % 2 ^ (8 * w) ∧
        (∀ pa, pa / 128 = o.pa / 128 → (pa < o.pa ∨ o.pa + w ≤ pa) → perfByte t pa = perfByte s pa) ∧
        (tokAt t (o.pa / 128)).held = [(o.die, 4)] ∧
        (o.ret = false → t.clutches = s.clutches) ∧
        (o.ret = true → (clutchAt t o.cid).inflight = (clutchAt s o.cid).inflight.map (fun p => if p.id = o.pend then
          { p with accs := p.accs.map (fun a => if a.lane = o.lane then
            { a with src := .val (BitVec.ofNat 32 v) (BitVec.ofNat 32 (v / 2 ^ 32)) } else a) } else p))) ∧
    (∀ (o : SyncOp) (w c bo : Nat), s.sync.find? (fun q => decide (q.die = o.die)) = some o → o.die = 4 + c → c < 64 → dieOf c = die.val →
      (∀ q ∈ s.sync, q.die = o.die ∨ (q.die ≠ die.val ∧ (q.die < 4 ∨ dieOf (q.die - 4) ≠ die.val))) →
      memSize o.t = some w → o.pa % w = 0 → paKind s o.pa = .bank c bo → unitIdle s c (o.pa / 128) = true → busFailed s c = false →
      sliceAt s c (o.pa / 128) = none → lineUe s c (o.pa / 128) = false → taken (o.pa / 128) die.val →
      ∃ t, exec (.syncEngineAtomic die) s = .next t ∧ t.sync = s.sync.erase o ∧
        perfNat t o.pa w = atomNew o.op o.t (perfNat s o.pa w) o.b.toNat o.cmp.toNat % 2 ^ (8 * w) ∧
        (∀ pa, pa / 128 = o.pa / 128 → (pa < o.pa ∨ o.pa + w ≤ pa) → perfByte t pa = perfByte s pa) ∧
        (tokAt t (o.pa / 128)).held = [(die.val, 4)])

/-- 01 R39 to R41, 06 R229, R230, 07 R252: a transient request goes to the other dies, which answer from what they can spare; a message
that arrives brings its tokens; a request that has waited 1 µs without them is sent once more, then queues for the arbiter, which
makes the first active until it has them. No step makes or loses a token. 06 R223: a snoop of the host takes a line of its memory; after
one that invalidates, the bytes of that line alone are open. -/
def Obligations.TokenStepsRun : Prop :=
  ∀ (s : State) (line : Nat) (die src dst : Fin 4) (write : Bool) (m : TokMsg) (r : TokReq), live s = true →
    (cached s line = true → satisfied s line die.val write = false → (∀ q ∈ (tokAt s line).reqs, q.die ≠ die.val) →
      (∀ q ∈ (tokAt s line).queue, q.2 % 4 ≠ die.val) → (∀ q, (tokAt s line).active = some q → q % 4 ≠ die.val) → requestsOf s die.val < 256 →
      ∃ t, exec (.transientRequest die line write) s = .next t ∧
        { die := die.val, write := write, sent := s.tsc.toNat, fails := 0 } ∈ (tokAt t line).reqs ∧ tokTotal t line = tokTotal s line) ∧
    (s.msgs.find? (fun q => decide (q.src = src.val) && decide (q.dst = dst.val) && !q.wb) = some m → (tokAt s m.line).active = none →
      ∃ t, exec (.tokenResponse src dst) s = .next t ∧ t.msgs = s.msgs.erase m ∧
        tget 0 (tokAt t m.line).held dst.val = tget 0 (tokAt s m.line).held dst.val + m.n ∧ tokTotal t m.line = tokTotal s m.line) ∧
    (s.msgs.find? (fun q => decide (q.src = src.val) && decide (q.dst = dst.val) && q.wb) = some m → (tokAt s m.line).active = none →
      ∃ t, exec (.tokenWriteback src dst) s = .next t ∧ t.msgs = s.msgs.erase m ∧
        tget 0 (tokAt t m.line).held dst.val = tget 0 (tokAt s m.line).held dst.val + m.n ∧ tokTotal t m.line = tokTotal s m.line) ∧
    ((tokAt s line).reqs.find? (fun q => decide (q.die = die.val)) = some r → r.sent + 1000 ≤ s.tsc.toNat →
      satisfied s line die.val r.write = false →
      (r.fails = 0 → ∃ t, exec (.transientTimeout die line) s = .next t ∧ { r with sent := s.tsc.toNat, fails := 1 } ∈ (tokAt t line).reqs ∧
        tokTotal t line = tokTotal s line) ∧
      (r.fails ≠ 0 → ∃ t, exec (.transientTimeout die line) s = .next t ∧ (tokAt t line).reqs = (tokAt s line).reqs.erase r ∧
        (s.tsc.toNat, die.val + (if r.write then 4 else 0)) ∈ (tokAt t line).queue ∧ (tokAt t line).held = (tokAt s line).held)) ∧
    (∀ ts q rest, (tokAt s line).active = none → (tokAt s line).queue = (ts, q) :: rest →
      ∃ t, exec (.persistentActivate line) s = .next t ∧ (tokAt t line).active = some q ∧ (tokAt t line).queue = rest ∧
        tokTotal t line = tokTotal s line) ∧
    (∀ q, (tokAt s line).active = some q → satisfied s line (q % 4) (decide (4 ≤ q)) = true →
      exec (.persistentDeactivate line) s = .next (setTok s line { tokAt s line with active := none })) ∧
    (∀ pa, paKind s (128 * line) = .sys → sysPart (128 * line) = .host pa → exec (.cxlCacheSnoop line false) s =
      .next { s with reply := .ok ((List.range 128).map (fun i => perfByte s (128 * line + i))) }) ∧
    (∀ pa, paKind s (128 * line) = .sys → sysPart (128 * line) = .host pa →
      ∃ t, exec (.cxlCacheSnoop line true) s = .next t ∧ t.reply = .ok ((List.range 128).map (fun i => perfByte s (128 * line + i))) ∧
        (∀ b, b / 128 ≠ line → perfByte t b = perfByte s b) ∧ t = { s with mem := t.mem, fresh := t.fresh, reply := t.reply })

/-- 06 R208 to R210, R215 to R220: a valid walk enters the TLBs of its core and column; a page fault takes a record of the ring, with
the interrupt when the ring was empty; `PGF_DONE` answers it, walking again, and a page that still faults for its access is filed again; an
answer that must wait is kept; a promotion waits for the entries of its checks, is refused or begins, and ends with its large page. That one walk enters both TLBs (log 44), and
that a promotion copies all its lines in one act (log 70), are the model's choice. -/
def Obligations.TranslationStepsRun : Prop :=
  ∀ (s t u : State) (i ctx f sz p : Nat) (va v : Dword) (tag : BitVec 16) (w : Word) (die : Fin 4) (q : PagerFault), live s = true →
    (i < 320 → promoHolds s ctx va.toNat = false → (ctxAt s ctx).bad = false →
      readsAt s (dieOf (colOf i)) (walkLines s ctx va.toNat) = some u → walk u ctx va.toNat = .ok f sz p →
      ∃ r, exec (.pageWalk i ctx va) s = .next r ∧
        (∀ k, k = i ∨ k = 320 + colOf i → { tlb := k, ctx := ctx, va := va.toNat / sz * sz, size := sz, frame := f, perm := BitVec.ofNat 8 p } ∈ r.tlb) ∧
        r = { u with tlb := r.tlb }) ∧
    (s.pager.find? (fun x => x.tag.isNone) = some q → s.pkg.pgfCfg.getLsbD 0 = true → (s.pkg.pgfTail - s.pkg.pgfHead).toNat ≠ 4096 →
      let slot := s.pkg.pgfBase.toNat + 32 * (s.pkg.pgfTail.toNat % 4096)
      performAt s (homeTower s slot) slot (faultRecord q (s.pkg.pgfTail.toNat % 65536)) = some t →
      let t' := { t with
        pager := t.pager.map (fun x => if x = q then { x with tag := some (s.pkg.pgfTail.setWidth 16) } else x)
        pkg := { t.pkg with pgfTail := s.pkg.pgfTail + 1 } }
      exec .pagerRecord s = .next (if s.pkg.pgfTail = s.pkg.pgfHead then pagerSignal t' else t')) ∧
    (s.pager.find? (fun x => x.tag.isNone) = some q → s.pkg.pgfCfg.getLsbD 0 = false → answer s q true = some t →
      exec .pagerRecord s = .next t) ∧
    (s.pager.find? (fun x => decide (x.tag = some tag)) = some q →
      (answer s q true = some t → exec (.pgfDoneWrite tag true) s = .next t) ∧
      (answer s q true = none → exec (.pgfDoneWrite tag true) s = .next { s with
        pager := s.pager.map (fun x => if x = q then { x with answer := some true } else x) }) ∧
      (walksAt s (dieOf q.col) q.ctx [q.page * 65536] = none → exec (.pgfDoneWrite tag false) s = .next { s with
        pager := s.pager.map (fun x => if x = q then { x with answer := some false } else x) }) ∧
      (walksAt s (dieOf q.col) q.ctx [q.page * 65536] = some u →
        (stillFaults u q = false → answer u q false = some t → exec (.pgfDoneWrite tag false) s = .next t) ∧
        (stillFaults u q = false → answer u q false = none → exec (.pgfDoneWrite tag false) s = .next { u with
          pager := u.pager.map (fun x => if x = q then { x with answer := some false } else x) }) ∧
        (stillFaults u q = true → exec (.pgfDoneWrite tag false) s = .next { u with
          pager := u.pager.map (fun x => if x = q then { x with tag := none, answer := none } else x), agenda := .pagerRecord :: u.agenda }))) ∧
    (exec (.pgfHeadWrite w) s = .next { s with
        pkg := { s.pkg with pgfHead := w }, agenda := (if s.pager.any (fun x => x.tag.isNone) then [.pagerRecord] else []) ++ s.agenda }) ∧
    (let x := promoAt s die.val
     let n := bits v.toNat 29 35
     let entries := walksAt s die.val (bits v.toNat 0 8) ((List.range 32).map (fun k => n * 0x200000 + 65536 * k))
     let y := { x with ctx := BitVec.ofNat 8 (bits v.toNat 0 8), va := BitVec.ofNat 35 n, runCtx := bits v.toNat 0 8, runVa := n, runDst := x.dest.toNat, killed := false }
     x.busy = false → x.asked = none → v.getLsbD 8 = true →
     (entries = none → exec (.promoGo die v) s = .next (setPromo s die.val { y with busy := true, asked := some v })) ∧
     (entries = some u → promoRefused u die.val (bits v.toNat 0 8) n x.dest.toNat = true → exec (.promoGo die v) s =
        .next (setPromo u die.val { y with busy := false, asked := none, result := 1 })) ∧
     (entries = some u → promoRefused u die.val (bits v.toNat 0 8) n x.dest.toNat = false →
        ∃ r, exec (.promoGo die v) s = .next r ∧ (promoAt r die.val).busy = true ∧ (promoAt r die.val).runVa = n ∧ (promoAt r die.val).runCtx = bits v.toNat 0 8 ∧
          (promoAt r die.val).runDst = x.dest.toNat ∧
          (∀ e ∈ r.tlb, ¬ (e.ctx = bits v.toNat 0 8 ∧ e.va < (n + 1) * 0x200000 ∧ n * 0x200000 < e.va + e.size)))) ∧
    (∀ (ps : List (Nat × Nat)), let x := promoAt s die.val
      let dst := frameLines ((List.range 32).map (fun k => x.runDst + 65536 * k))
      x.busy = true → x.asked = none → x.killed = false → promoPages s x.runCtx (x.runVa * 0x200000) = some ps →
      (flushLines s (frameLines (ps.map (·.1)))).bind (fun s => copyLines die.val s ((frameLines (ps.map (·.1))).zip dst)) = some u →
      performAt u die.val x.runPte (leBytes 8 (x.runDst / 256 * 4096 + (ps.headD (0, 0)).2 * 4 + 3)) = some t →
      exec (.promotionComplete die) s = .next (setPromo t die.val { x with busy := false, result := 0 }))

/-! ### Steps of other agents: launches, contexts, scheduling -/

/-- 03 R102, R103, R106, R108 to R110, R116, R119: a token of the host enters an enabled line with room and is dropped elsewhere; the
head of a queue is checked once its record is read, accepted or rejected; dependences are evaluated once their words are read; a write of `LL_CFG` that clears EN cancels what is queued; contexts are refreshed and
killed, and a kill is complete when nothing of the context is left. While a context is being killed nothing of it is dispatched: a head
token of it is cancelled, and its launches and gangs stay where they are. In a thermal emergency the agents of launches do nothing (02 R77).
The model's choices: the join record of a token that is cancelled before it has tasks names task 0 (log 114), and the reads of an evaluation
or of a refresh are made in one act (log 1). -/
def Obligations.LaunchStepsRun : Prop :=
  ∀ (s t v0 : State) (b : Block) (line : Fin 8) (tok : BitVec 512) (k : Tok) (rest : List Tok) (v : Dword) (ctx : BitVec 8) (l : Nat) (x : Launch),
    let key := lineKey b line
    let y := lineAt s key
    let popped := popToken v0 key
    let more := { popped with agenda := (if rest = [] then [] else [checkNext key]) ++ popped.agenda }
    (s.emerg = none → s.boot = .running → lineEn y = true → lineHost y = true → y.queue.length < 8 →
      enqueueTok { s with reply := .ok [] } key tok true none = some t → exec (.tokenEnqueue b line tok true) s = .next t) ∧
    (s.emerg = none → lineEn y = false ∨ lineHost y = false ∨ 8 ≤ y.queue.length →
      ∀ whole, exec (.tokenEnqueue b line tok whole) s = .next (dropToken { s with reply := .ok [] } key)) ∧
    (live s = true → y.queue = k :: rest → k.cancelled = false → killing s k.ctx = false → heldBy s (key / 8) < heldLimit (key / 8) →
      recordTake s key k = some v0 →
      (∀ r deps, checkRecord v0 key k = .inr (r, deps) → acceptTok more key k r deps = some t →
        exec (.launchRecordCheck b line) s = .next t) ∧
      (∀ reason, checkRecord v0 key k = .inl reason → rejectTok more key k reason = some t →
        exec (.launchRecordCheck b line) s = .next t)) ∧
    (live s = true → y.queue = k :: rest → k.cancelled = true ∨ killing s k.ctx = true → endToken (popToken s key) k 0x45 0 = some t →
      exec (.launchRecordCheck b line) s = .next { t with agenda := (if rest = [] then [] else [checkNext key]) ++ t.agenda }) ∧
    (launchAt s l = some x → killing s x.tok.ctx = true → exec (.dependenceEvaluation l) s = .next s) ∧
    (∀ gang w, wantOf s gang = some w → killing s w.ctx = true → w.g.state ≠ .ended →
      exec (.preTranslation gang) s = .next s ∧ exec (.gangReserve gang) s = .next s ∧ exec (.gangDispatch gang) s = .next s ∧
      exec (.preemption gang) s = .next s ∧ exec (.preemptResume gang) s = .next s) ∧
    (launchAt s l = some x → x.state = .waiting → live s = true → killing s x.tok.ctx = false → x.tok.orphan = false → depTakes s (launchKeyOf x) x.tok.ctx x.deps = some v0 →
      (∀ m, evalDeps v0 x = some m → m.length = x.deps.length → orderedHeld v0 { x with met := m } = false →
        exec (.dependenceEvaluation l) s = .next (makeReady v0 l { x with met := m })) ∧
      (∀ m, evalDeps v0 x = some m → m.length ≠ x.deps.length ∨ orderedHeld v0 { x with met := m } = true →
        exec (.dependenceEvaluation l) s = .next (setLaunch v0 l { x with met := m })) ∧
      (evalDeps v0 x = none → endTasks v0 l x (List.range x.n) 0x41 0 = some t → exec (.dependenceEvaluation l) s = .next t)) ∧
    (s.emerg = none → (lineEn y = false ∨ v.getLsbD 0 = true) → exec (.llCfgWrite b line v) s = .next (setLine s key { y with cfg := v &&& 0x7FFFFF })) ∧
    (s.emerg = none → lineEn y = true → v.getLsbD 0 = false →
      exec (.llCfgWrite b line v) s = .next (cancelToks (setLine s key { y with cfg := v &&& 0x7FFFFF }) key (fun _ => true))) ∧
    (s.pkg.ctxBusy = true → bits s.pkg.ctxCmd.toNat 8 2 = 1 → bits s.pkg.ctxCmd.toNat 0 8 = ctx.toNat → s.emerg = none →
      (let pa := s.pkg.ctxTable.toNat + 32 * ctx.toNat
       (readAt s 0 (pa / 128) = some t → exec (.ctxRefresh ctx) s = .next { t with
          ctxs := tput CtxEnt.zero t.ctxs ctx.toNat (ctxDecode (perfNat t pa 32))
          pkg := { t.pkg with ctxBusy := false } }) ∧
       (readAt s 0 (pa / 128) = none → exec (.ctxRefresh ctx) s = .next (holdRead s (pa / 128))))) ∧
    (∀ e, s.emerg = some e → (∀ v, exec (.llCfgWrite b line v) s = .next s) ∧ exec (.ctxRefresh ctx) s = .next s ∧
      exec .killComplete s = .next s ∧ exec (.launchRecordCheck b line) s = .next s) ∧
    (killing s ctx.toNat = true → live s = true → killWhere s (fun n => decide (n = ctx.toNat)) = some t →
      exec (.ctxKill ctx) s = .next (retryNext t)) ∧
    (killing s (bits s.pkg.ctxCmd.toNat 0 8) = true → s.emerg = none → (∀ p ∈ s.lines, ∀ k ∈ p.2.queue, k.ctx ≠ bits s.pkg.ctxCmd.toNat 0 8) →
      (∀ p ∈ tsome s.tasks, p.2.ctx ≠ bits s.pkg.ctxCmd.toNat 0 8) → (∀ p ∈ tsome s.launches, p.2.tok.ctx ≠ bits s.pkg.ctxCmd.toNat 0 8) →
      exec .killComplete s = .next (raiseVec { s with pkg := { s.pkg with ctxBusy := false } }
        (ctxAt s (bits s.pkg.ctxCmd.toNat 0 8)).vec.toNat))

/-- 04 R126 to R151, 05 R155, R156, 03 R122, 06 R212: a gang is translated or takes the table that its column's launcher kept, reserves
cores, is dispatched to the first candidate that fits or looks at pre-emption and reserves, pre-empts, resumes, is requeued or migrates,
one gang of a column at a time and oldest dispatch first: its issue stops, its seats at the target are reserved, and it moves once no command
of it uses the column bank (R147, R148); a gang chosen for pre-emption while it migrates is pre-empted where it arrives (R151); a task whose
lanes have all exited and whose commands are complete terminates. The model's choices: a gang that another has overtaken gives its
reservations up (log 64), and a migration is two acts, its request and its end (log 65). -/
def Obligations.SchedulingStepsRun : Prop :=
  ∀ (s u v : State) (gang : Nat) (w : Want) (l : Launch) (col : Fin 64) (tn : Nat) (x : Task), live s = true →
    (wantOf s gang = some w → killing s w.ctx = false →
      (w.g.state = .translating →
        (walksAt s (agentDie w.key) w.ctx (preVas s w) = none → exec (.preTranslation gang) s = .next s) ∧
        (walksAt s (agentDie w.key) w.ctx (preVas s w) = some v →
          (∀ fs, (cachedTable v w = some fs ∨
              cachedTable v w = none ∧ preAll v w.ctx ((List.range 16).zip (recExtents w.r)) = .ok fs) →
            preDone (keepTable v w fs) gang w.g fs = some u →
            exec (.preTranslation gang) s = .next { u with agenda := .gangDispatch gang :: u.agenda }) ∧
          (cachedTable v w = none → preAll v w.ctx ((List.range 16).zip (recExtents w.r)) = .error .denied →
            exec (.preTranslation gang) s = .next { setGang v gang { w.g with state := .ended, fail := 0x08 } with
              agenda := .preTranslation gang :: v.agenda }))) ∧
      (w.g.state = .ready → 5 ≤ gangDom w.r → (∀ p ∈ tsome s.gangs, earlierReady s w p = false) →
        fitFirst s w (mayTake s w) (instances s w false) = none → ∀ i is, instances s w false = i :: is → w.g.target = none →
        exec (.gangReserve gang) s = .next (setGang s gang { w.g with
          target := some i.no, reserved := (layoutCores i).filter (fun c => mayTake s w c && (fitsCore s w c).isSome) })) ∧
      (w.g.state = .ready → 5 ≤ gangDom w.r → (∃ p ∈ tsome s.gangs, earlierReady s w p = true) →
        fitFirst s w (mayTake s w) (instances s w false) = none →
        exec (.gangReserve gang) s = .next (setGang s gang { w.g with target := none, reserved := [] })) ∧
      (launchAt s w.g.launch = some l → w.g.state = .ready →
        let s1 := forwardDie (freeStacks s w.g.stack) w
        let w1 := (wantOf s1 gang).getD w
        (∀ i seats, fitFirst s1 w1 (mayTake s1 w1) (instances s1 w1 false) = some (i, seats) →
          exec (.gangDispatch gang) s = .next (seatGang s1 w1 l seats)) ∧
        (fitFirst s1 w1 (mayTake s1 w1) (instances s1 w1 false) = none →
          exec (.gangDispatch gang) s = .next { s1 with agenda := .preemption gang :: .gangReserve gang :: s1.agenda })) ∧
      (w.g.state = .ready → fitFirst s w (fun _ => true) (instances s w false) = none → ∀ a b vs, bestChoice (choices s w) = some (a, b, vs) →
        preemptGangs s (vs.filter (fun p => p.2.state != .migrating)) = some u →
        exec (.preemption gang) s = .next { (vs.filter (fun p => p.2.state == .migrating)).foldl doom u with
          agenda := .gangDispatch gang :: ((vs.filter (fun p => p.2.state == .migrating)).foldl doom u).agenda }) ∧
      (w.g.state = .preempted → atHome s w = true → ∀ seats, backSeats s gang w.r (backTasks s w.g) [] = some seats →
        ((∀ q ∈ seats, higherReady s w q.2.1 (leftCore s q.1 q.2.1) = false) →
          exec (.preemptResume gang) s = .next (resumeGang s w seats)) ∧
        ((∃ q ∈ seats, higherReady s w q.2.1 (leftCore s q.1 q.2.1) = true) → exec (.preemptResume gang) s = .next s)) ∧
      (gangCol s w.g = some col.val →
        (w.g.state = .resident → migratable w = true → asksMigration s col.val = true → migrBusy s col.val = false →
          (migrTarget s w col.val = none →
            exec (.migration gang) s = .next { schedCount s col.val 3 with
              agenda := nextMigr s col.val (gangOrder s w.g + 1) ++ (schedCount s col.val 3).agenda }) ∧
          ∀ i seats w1, migrTarget s w col.val = some (i, seats) → stopTasks s w.g.tasks = some u →
            (let v := (taskSeats u w.g seats).foldl reserveSeat (setGang u gang { w.g with state := .migrating })
             wantOf v gang = some w1 →
             (∃ t ∈ w1.g.tasks, ∃ p ∈ taskCmds v t, touches .colBank p.2 = true ∧ p.2.ended = false) →
             exec (.migration gang) s = .next { v with agenda := .migration gang :: v.agenda })) ∧
        (w.g.state = .resident → migrBusy s col.val = true → exec (.migration gang) s = .next s) ∧
        (w.g.state = .migrating →
          ((∃ t ∈ w.g.tasks, ∃ p ∈ taskCmds s t, touches .colBank p.2 = true ∧ p.2.ended = false) →
            exec (.migration gang) s = .next s) ∧
          ((∀ t ∈ w.g.tasks, ∀ p ∈ taskCmds s t, touches .colBank p.2 = false ∨ p.2.ended = true) →
            ∀ g, migrateTasks gang s (w.g.tasks.zip w.g.seats) = some v → gangAt v gang = some g →
            let h := { g with state := .resident, cores := w.g.seats.map (·.1), seats := [], doomed := false }
            (w.g.doomed = false → setGang v gang h = u) → (w.g.doomed = true → preemptGang (setGang v gang h) (gang, h) = some u) →
            exec (.migration gang) s = .next { schedCount (retryNext u) col.val 1 with
              agenda := nextMigr u col.val (gangOrder u w.g + 1) ++ (schedCount (retryNext u) col.val 1).agenda })))) ∧
    (∀ g, gangAt s gang = some g → g.state = .requeued → g.tasks ≠ [] → requeueGang s gang g = some u →
      exec (.requeue gang) s = .next u) ∧
    (asksMigration s col.val = true → migrBusy s col.val = true → exec (.migrationRequest col) s = .next s) ∧
    (asksMigration s col.val = true → migrBusy s col.val = false →
      exec (.migrationRequest col) s = .next { s with agenda := nextMigr s col.val 0 ++ s.agenda }) ∧
    (∀ lo n, nextMigr s col.val lo = [.migration n] → ∃ g, (n, g) ∈ tsome s.gangs ∧ g.state = .resident ∧ gangCol s g = some col.val ∧
      lo ≤ gangOrder s g ∧ (∃ w, wantOf s n = some w ∧ migratable w = true) ∧
      ∀ p ∈ tsome s.gangs, p.2.state = .resident → gangCol s p.2 = some col.val → lo ≤ gangOrder s p.2 →
        (∃ w, wantOf s p.1 = some w ∧ migratable w = true) → gangOrder s g ≤ gangOrder s p.2) ∧
    (taskAt s tn = some x → x.failed = none → x.state = .resident → (∀ g, gangAt s x.gang = some g → g.state = .resident) →
      allExited s x = true → taskCmds s tn = [] → endTask s tn x 0 0 = some u →
      exec (.taskTermination tn) s = .next (retryNext (settleLaunch u x.launch)))

/-! ### Steps of other agents: requests from outside, registers -/

/-- 03 R91 to R94, R96: the host reads and writes device memory, launch lines and register pages; a peer reads, writes and performs
the atomics that `atom` defines under a grant, and is refused without one; a hole answers an error. A management port reads any register
that it may (02 R79). The model's choices: a register request without a value is a read (log 106), every refusal of an access is error 1
(log 83), and an answer is the field `reply` of the state (log 14). -/
def Obligations.OutsideRequestsAreServed : Prop :=
  ∀ (s u : State) (dpa off size : Nat) (data : BitVec 512) (mask : BitVec 64) (d : DReg) (v b cmp : Dword) (r : Requester)
    (peer : BitVec 10) (len : Nat) (bytes : List Byte) (a : AtomOp) (t : Ty), s.emerg = none →
    (dpaKind s dpa = .mem → gatherAll s (homeTower s dpa) (dpa / 128) none = some u →
      exec (.cxlMemWrite dpa data mask) s = .next { performMasked u dpa data mask with reply := .ok [] }) ∧
    (dpaKind s dpa = .hole → exec (.cxlMemWrite dpa data mask) s = .next { s with reply := .error 1 } ∧
      exec (.cxlMemRead dpa) s = .next { s with reply := .error 1 }) ∧
    (dpaKind s dpa = .mem → readAt s (homeTower s dpa) (dpa / 128) = some u → exec (.cxlMemRead dpa) s = .next { u with
        reply := .ok ((List.range 64).map (fun i => perfByte u (dpa / 64 * 64 + i)))
        hostHas := dpa / 128 :: u.hostHas.filter (fun l => l ≠ dpa / 128) }) ∧
    (∀ key o, dpaKind s dpa = .line key o → exec (.cxlMemRead dpa) s = .next { s with reply := .ok (leBytes 64 (lineStatus (lineAt s key))) }) ∧
    (off % 8 = 0 → 0x10000 ≤ off % 0x20000 → regAt off = some d →
      (canRead .hostLink d = true → ∃ x, exec (.bar0Access off 8 none) s = .next x ∧
        x.reply = .ok (leBytes 8 (regRead s .hostLink off).1.toNat) ∧ { x with reply := .none, mgmt := s.mgmt } = { s with reply := .none }) ∧
      (canRead .hostLink d = false → exec (.bar0Access off 8 none) s = .next { s with reply := .error 1 }) ∧
      (canWrite .hostLink d = true → controlWrite d v = false →
        exec (.bar0Access off 8 (some v)) s = .next { regSet s .hostLink d v with reply := .ok [] })) ∧
    (size ≠ 8 → ∀ w, exec (.bar0Access off size w) s = .next { s with reply := .error 1 }) ∧
    (regAt off = some d → off % 8 = 0 → canWrite r d = true → controlWrite d v = false →
      exec (.registerWrite r (regBase + off) (some v)) s = .next { regSet s r d v with reply := .ok [] }) ∧
    (regAt off = some d → off % 8 = 0 → canWrite r d = false →
      ∃ x, exec (.registerWrite r (regBase + off) (some v)) s = .next x ∧ x.reply = .error 0x52 ∧
        { x with reply := .none, mgmt := s.mgmt } = { s with reply := .none }) ∧
    (regAt off = some d → off % 8 = 0 → canRead r d = true →
      ∃ x, exec (.registerWrite r (regBase + off) none) s = .next x ∧ x.reply = .ok (leBytes 8 (regRead s r off).1.toNat) ∧
        { x with reply := .none, mgmt := s.mgmt } = { s with reply := .none }) ∧
    (regAt off = some d → off % 8 = 0 → canRead r d = false →
      exec (.registerWrite r (regBase + off) none) s = .next { s with reply := .error 1 }) ∧
    (let pas := (List.range len).map (fun i => (ualPa (off + i)).getD 0)
     granted s peer.toNat off len 1 = true → 1 ≤ len → len ≤ 256 → ualReach s off len = true → homeReads s pas = some u →
      exec (.ualinkRequest peer off (.read len)) s = .next { u with reply := .ok (pas.map (perfByte u)) }) ∧
    (granted s peer.toNat off len 1 = false → exec (.ualinkRequest peer off (.read len)) s = .next { s with reply := .error 1 }) ∧
    (let pas := (List.range bytes.length).map (fun i => (ualPa (off + i)).getD 0)
     1 ≤ bytes.length → bytes.length ≤ 256 → granted s peer.toNat off bytes.length 2 = true → ualReach s off bytes.length = true →
      gatherBytes s pas = some u → exec (.ualinkRequest peer off (.write bytes)) s =
        .next { (pas.zip bytes).foldl (fun s p => performBytes s p.1 [p.2]) u with reply := .ok [] }) ∧
    (let n := (memSize t).getD 4
     let pa := (ualPa off).getD 0
     (okAtomTy a t = false → exec (.ualinkRequest peer off (.atomic a t b cmp)) s = .next { s with reply := .error 1 }) ∧
     (okAtomTy a t = true → off % n = 0 → granted s peer.toNat off n 3 = true → ualReach s off n = true →
      ownLine s (homeTower s pa) (pa / 128) = some u → exec (.ualinkRequest peer off (.atomic a t b cmp)) s = .next { performBytes u pa (leBytes n (atomNew a t (perfNat u pa n) b.toNat cmp.toNat))
        with reply := .ok (leBytes n (perfNat u pa n)) }))

/-- 02 R62, R79 to R84, 01 R18, R19, 05 R189, R190, 06 R244: the owner of `MGMT_SEM` writes the control registers, within their ranges;
another requester is refused with 0x51, and a value out of its range with 0x53; owning is acquired, released and lapses, and of two
requesters that acquire at one `TSC` the one of the lower source number owns, whichever came first; the log is cleared and indexed;
firmware locks the split, which a failed check reloads with an entry of code 0x23, and grants wear; a requested core is gated and
ungated. The model's choice: the write that acquires also loads LEASE, and the lease runs from the acquisition until the owner's first
control write (log 23). -/
def Obligations.NamedRegisterWritesTakeEffect : Prop :=
  ∀ (s u : State) (r : Requester) (v v2 : Dword) (p : Fin 16) (col : Fin 64) (core : Fin 256) (imm : BitVec 13),
    let ctl : State := { s with mgmt := { s.mgmt with lastCtl := s.tsc }, reply := .ok [] }
    let n := v.toNat
    let first := s.mgmt.semWrites = [] ∨ s.mgmt.semAt ≠ s.tsc
    let logged := fun (t : State) (src : Nat) => t.mgmt.tail = s.mgmt.tail + 1 ∧ tget 0 t.mgmt.seq src = tget 0 s.mgmt.seq src + 1
    (regHeld s r = false → ownCode r ≠ 0 → s.mgmt.owner.toNat = ownCode r →
      (∃ t, exec (.partMapWrite r v) s = .next t ∧ t.pkg.partMap = v ∧ t.reply = .ok []) ∧
      (∃ t, exec (.partCfgWrite r p v) s = .next t ∧ (partAt t p.val).cfg = v &&& 0xFFFFFF0F ∧ t.reply = .ok []) ∧
      exec (.devCapWrite r v) s = .next { ctl with power := { s.power with devCap := BitVec.ofNat 32 n } } ∧
      (n % 2 ^ 16 ≤ s.power.curLim.toNat → exec (.curLimWrite r v) s = .next { ctl with power := { s.power with curLim := BitVec.ofNat 16 n } }) ∧
      (95 ≤ n % 256 → n % 256 ≤ 110 → ∃ t, exec (.govTjWrite r v) s = .next t ∧ t.power.govTj = BitVec.ofNat 8 n ∧ t.reply = .ok []) ∧
      (85 ≤ n % 256 → n % 256 ≤ 95 → ∃ t, exec (.govTbWrite r v) s = .next t ∧ t.power.govTb = BitVec.ofNat 8 n ∧ t.reply = .ok []) ∧
      (∃ t, exec (.valveForceWrite r col v) s = .next t ∧ (colAt t col.val).vfEn = v.getLsbD 8 ∧
        (colAt t col.val).vfValue = BitVec.ofNat 8 (max 64 (n % 256)) ∧ t.reply = .ok []) ∧
      (∃ t, exec (.scrubCfgWrite r col v) s = .next t ∧ (colAt t col.val).period = BitVec.ofNat 8 n ∧ (colAt t col.val).scrubPos = 0 ∧
        t.reply = .ok []) ∧
      (∃ t, exec (.logClear r) s = .next t ∧ t.mgmt.log = [] ∧ t.mgmt.tail = 0 ∧ t.mgmt.lost = 0 ∧ t.reply = .ok []) ∧
      (first → ∃ t, exec (.mgmtSemRelease r) s = .next t ∧ t.mgmt.owner = 0 ∧ t.reply = .ok []) ∧
      (∀ i, (i = .curLimWrite r v ∧ s.power.curLim.toNat < n % 2 ^ 16) ∨ (i = .govTjWrite r v ∧ (n % 256 < 95 ∨ 110 < n % 256)) ∨
          (i = .govTbWrite r v ∧ (n % 256 < 85 ∨ 95 < n % 256)) →
        ∃ t, exec i s = .next t ∧ t.reply = .error 0x53 ∧ logged t (reqSource r) ∧
          { t with reply := .none, mgmt := s.mgmt } = { s with reply := .none })) ∧
    (regHeld s r = false → ownCode r ≠ 0 → s.mgmt.owner.toNat ≠ ownCode r →
      ∀ i, i = .partMapWrite r v ∨ i = .partCfgWrite r p v ∨ i = .devCapWrite r v ∨ i = .curLimWrite r v ∨ i = .govTjWrite r v ∨
        i = .govTbWrite r v ∨ i = .valveForceWrite r col v ∨ i = .scrubCfgWrite r col v ∨ i = .logClear r →
      ∃ t, exec i s = .next t ∧ t.reply = .error 0x51 ∧ logged t (reqSource r) ∧ { t with reply := .none, mgmt := s.mgmt } = { s with reply := .none }) ∧
    (regHeld s r = false → ownCode r ≠ 0 → s.mgmt.owner = 0 → first → n % 4 = ownCode r →
      ∃ t, exec (.mgmtSemAcquire r v) s = .next t ∧ t.mgmt.owner.toNat = ownCode r ∧ t.mgmt.acqTsc = s.tsc ∧
        t.mgmt.lease = BitVec.ofNat 8 (n / 256) ∧ t.reply = .ok []) ∧
    (s.mgmt.owner = 0 → first → n % 4 = 2 → v2.toNat % 4 = 1 →
      (∀ t, exec (.mgmtSemAcquire .mgmtB v) s = .next t → ∃ x, exec (.mgmtSemAcquire .mgmtA v2) t = .next x ∧ x.mgmt.owner = 1 ∧
        x.mgmt.lease = BitVec.ofNat 8 (v2.toNat / 256)) ∧
      (∀ t, exec (.mgmtSemAcquire .mgmtA v2) s = .next t → ∃ x, exec (.mgmtSemAcquire .mgmtB v) t = .next x ∧ x.mgmt.owner = 1 ∧
        x.mgmt.lease = BitVec.ofNat 8 (v2.toNat / 256))) ∧
    (s.mgmt.owner ≠ 0 → s.mgmt.lastCtl.toNat + max 1 s.mgmt.lease.toNat * 10000000 ≤ s.tsc.toNat →
      exec .mgmtLeaseExpiry s = .next { s with mgmt := { s.mgmt with owner := 0, semWrites := [] } }) ∧
    (regHeld s r = false → canWrite r .logCtl = true → exec (.logIndexSet r imm) s =
      .next { s with mgmt := { s.mgmt with index := tput 0 s.mgmt.index (reqNo r) imm }, reply := .ok [] }) ∧
    (s.emerg = none → s.pkg.hbmLock = false → v.getLsbD 31 = true → bits n 0 7 + bits n 8 7 ≤ 64 →
      (let w : State := { s with pkg := { s.pkg with hbmP := BitVec.ofNat 7 n, hbmW := BitVec.ofNat 7 (n / 256), hbmLock := true } }
       reservedBytes w ≤ 12 * bits n 0 7 * gib → exec (.hbmSplitLock v) s = .next { w with reply := .ok [] })) ∧
    (s.emerg = none → s.pkg.hbmLock = false → v.getLsbD 31 = true →
      (let w : State := { s with pkg := { s.pkg with hbmP := BitVec.ofNat 7 n, hbmW := BitVec.ofNat 7 (n / 256), hbmLock := true } }
       64 < bits n 0 7 + bits n 8 7 ∨ 12 * bits n 0 7 * gib < reservedBytes w → ∃ t, exec (.hbmSplitLock v) s = .next t ∧
        t.pkg = { w.pkg with hbmP := 32, hbmW := 16, rrSize := 64, extSize := 64 } ∧ logged t 0 ∧ t.reply = .ok [] ∧
        { t with pkg := s.pkg, mgmt := s.mgmt, reply := .none } = { s with reply := .none })) ∧
    (s.emerg = none → s.pkg.hbmLock = true → exec (.hbmSplitLock v) s = .next { s with reply := .ok [] }) ∧
    (s.emerg = none → ∃ t, exec (.wearSetWrite v) s = .next t ∧ (zoneAt t (n % 128)).remain = BitVec.ofNat 32 (n / 2 ^ 32) ∧
      (zoneAt t (n % 128)).charged = 0 ∧ (zoneAt t (n % 128)).free = (zoneAt s (n % 128)).free) ∧
    (regHeld s r = false → canWrite r (.corePg col.val) = true →
      ∃ t, exec (.corePgWrite r col v) s = .next t ∧ (colAt t col.val).corePg = BitVec.ofNat 4 n) ∧
    (s.emerg = none → gateAsked s core.val = true → isGated s core.val = false → mayGate s core.val = true →
      evictLines s core.val (l1Lines s core.val) = some u → exec (.coreGate core) s =
        .next (modCol u (colOf core.val) (fun k => { k with gated := k.gated ||| ((1#4) <<< (core.val % 4)) }))) ∧
    (s.emerg = none → gateAsked s core.val = false → isGated s core.val = true →
      ∃ t, exec (.coreUngate core) s = .next t ∧ isGated t core.val = false ∧ tget [] t.l1 core.val = [])

/-! ### Steps of other agents: power, heat, links, boot -/

/-- 02 R53 to R78: what each pass of the power loop, each governor, the ramp guard, the valves, the alarms, the emergency and a cap
frame does to the state that it owns. The model's choices: of a column's domains the two compute dies of its tower count as one kind (log
72), the events of which the spec gives no count for an instruction are free and the others are what the steps have tallied (log 71), and
the loops' conventions (logs 73 to 75), with the order of the parts of a pass. -/
def Obligations.PowerStepsRun : Prop :=
  ∀ (s : State) (k : Fin 3) (energy : Int) (amps demand inlet flow : Nat) (col : Fin 64) (tower : Fin 4) (tj tb temp : BitVec 8)
    (port : Bool) (bytes : List Byte),
    let c := colAt s col.val
    let frame := fun (t : State) => t.mem = s.mem ∧ t.l1 = s.l1 ∧ t.clutches = s.clutches ∧ t.tasks = s.tasks
    let settled := fun (t : State) => ∀ n, n < 64 → (colAt t n).duty = dutySteps t n
    let logged := fun (t : State) (src : Nat) => t.mgmt.tail = s.mgmt.tail + 1 ∧ tget 0 t.mgmt.seq src = tget 0 s.mgmt.seq src + 1
    (s.power.ests.length < 10 → ∃ (t : State) (temps : Nat → Nat), exec .powerEstimate s = .next t ∧
      (let st := fun (n : Nat) => domStatic s n (temps n)
       let dom := fun (n : Nat) => ((domBlocks n).foldl (fun r b => r + blockEnergy t b) (0 : Rat)) / 10000 + st n
       let rails : Rat := ((tget 0 t.power.shunt 0 + (tget 0 t.power.shunt 1 + tget 0 t.power.shunt 2) + 50000 : Nat) : Rat)
       let owned := (List.range 64).filter (fun n => (validPart s n).isSome)
       let cols := fun (p : Nat) => owned.filter (fun n => decide (partOf s n = p))
       let events := fun (p : Nat) => (cols p).foldl (fun r n => r + colEvents t n) (0 : Rat)
       (∀ n, n < 16 → tget 0 t.power.domainPwr n = BitVec.ofNat 32 (toMw (dom n))) ∧
       t.power.ests = s.power.ests ++ [toMw ((List.range 16).foldl (fun r n => r + dom n) rails)] ∧
       (∀ p, p < 16 → tget 0 t.power.partEsts p = tget 0 s.power.partEsts p + toMw (events p +
          (cols p).foldl (fun r n => r + (colDomains n).foldl (fun r ds => r + ds.foldl (fun r d => r + st d) 0 / 16) 0) (0 : Rat) +
          rails * mkRat (cols p).length (max 1 owned.length)) ∧
        tget 0 t.power.partEsts (16 + p) = tget 0 s.power.partEsts (16 + p) + toMw (events p))) ∧
      (∀ b i, b < 260 → i < 24 → (counted i = true → tget 0 t.power.counts (24 * b + i) = tget 0 s.power.tally (24 * b + i)) ∧
        (counted i = false → Config.eventIn (blockKind b) i = false → tget 0 t.power.counts (24 * b + i) = 0)) ∧
      t.power.tally = [] ∧ t.cols = s.cols ∧ frame t) ∧
    (∃ t, exec (.weightRefit k energy) s = .next t ∧ t = { s with power := t.power } ∧ t.power.ests = s.power.ests ∧
      (let x := fun (i : Nat) => ((tget 0 s.power.totals (24 * k.val + i) : Nat) : Rat)
       let w := fun (i : Nat) => ratOf (weightOf s k.val i).toNat
       let wf := fun (i : Nat) => ratOf (Config.factoryWeight k.val i).toNat
       let e := (energy : Rat) - ((tget 0 s.power.totals (72 + k.val) : Nat) : Rat) * 10000 - sumRat (fun i => x i * w i)
       let px := fun (i : Nat) => sumRat (fun j => covAt s k.val i j * x j)
       let xp := fun (j : Nat) => sumRat (fun i => x i * covAt s k.val i j)
       let lambda : Rat := mkRat 98 100
       let g := fun (i : Nat) => px i / (lambda + sumRat (fun j => x j * px j))
       ∀ i, i < 24 →
        tget none t.power.weights (24 * k.val + i) = (if x i = 0 then tget none s.power.weights (24 * k.val + i)
          else some (ratTo (clampRat (w i + g i * e) (wf i / 2) (2 * wf i)))) ∧
        (∀ j, j < 24 → covAt t k.val i j = (covAt s k.val i j - g i * xp j) / lambda) ∧
        tget 0 t.power.totals (24 * k.val + i) = 0)) ∧
    (s.power.ests.length = 10 → ∃ t, exec (.capLoopPass amps) s = .next t ∧ t.power.ests = [] ∧ t.power.partEsts = [] ∧ frame t ∧ settled t ∧
      ∀ p, p < 16 →
        let x := partAt s p
        let y := partAt t p
        let r := rankOf s p
        let own := limitOver s amps (.partition p)
        let ranked := limitOver s amps (.rank r)
        let current := limitOver s amps .current
        (y.duty ≤ x.duty + 1 ∧ x.duty ≤ y.duty + 1) ∧
        (partValid s p = true → x.duty < 3 → own = true → y.duty = x.duty + 1 ∧ bits y.cause.toNat 1 3 = 2) ∧
        (partValid s p = true → x.duty < 3 → own = false → ranked = true → y.duty = x.duty + 1 ∧ bits y.cause.toNat 1 3 = 3) ∧
        (partValid s p = true → x.duty < 3 → (limitOver s amps .device || current) = true →
          (∀ q, q < 16 → partValid s q = true → rankOf s q < r → 3 ≤ (partAt s q).duty) →
          y.duty = x.duty + 1 ∧ (own = false → ranked = false → bits y.cause.toNat 1 3 = if current then 4 else 1)) ∧
        (y.duty < x.duty → partValid s p = true ∧ 9 ≤ x.margin ∧ (limitsOf s p).all (limitMargin s amps) = true ∧
          thermalMargin s p 97 = true) ∧
        (x.duty < y.duty → partValid s p = true ∧
          (own = true ∨ ranked = true ∨ (limitOver s amps .device || current) = true))) ∧
    (isHot s col.val = true → (∀ at_, c.thermAt = some at_ → at_ + 20000 ≤ s.tsc.toNat) → c.therm < 3 →
      ∃ t, exec (.thermalStepDown col) s = .next t ∧ (colAt t col.val).therm = c.therm + 1 ∧ (colAt t col.val).thermAt = some s.tsc.toNat ∧
        (colAt t col.val).duty = dutySteps t col.val ∧ (∀ p, validPart s col.val = some p → bits (partAt t p).cause.toNat 1 3 = 5) ∧
        (∀ n, n ≠ col.val → colAt t n = colAt s n) ∧ frame t) ∧
    (∀ at_, isCool s col.val = true → c.coolAt = some at_ → at_ + 100000 ≤ s.tsc.toNat → 0 < c.therm →
      ∃ t, exec (.thermalStepUp col) s = .next t ∧ (colAt t col.val).therm = c.therm - 1 ∧ (colAt t col.val).coolAt = some s.tsc.toNat ∧
        (colAt t col.val).duty = dutySteps t col.val ∧ (∀ n, n ≠ col.val → colAt t n = colAt s n) ∧ t.parts = s.parts ∧ frame t) ∧
    (∃ t, exec (.rampGuardTick demand) s = .next t ∧
      (let before := s.power.current + s.power.ballast
       t.power.allow = before + 750 ∧ t.power.floor = before - 750 ∧ t.power.current = min demand (before + 750) ∧
       t.power.ballast = before - 750 - min demand (before + 750) ∧
       (t.power.ballast ≠ 0 → t.power.ballastAt.isSome = true ∧ t.power.ballast ≤ t.power.ballastPk) ∧
       (demand ≤ before + 750 → ∀ n, n < 64 → (colAt t n).ramp = 0) ∧
       (before + 750 < demand → ∃ n, n < 64 ∧ 0 < (colAt t n).ramp) ∧ settled t ∧ frame t)) ∧
    (∀ at_, s.power.ballastAt = some at_ → s.power.ballast = 0 → ∃ t, exec .ballastStop s = .next t ∧ t.power.ballastAt = none ∧
      t.power.ballastPk = 0 ∧ logged t 0 ∧ t.cols = s.cols ∧ frame t) ∧
    (∃ t, exec .valvePass s = .next t ∧ frame t ∧ ∀ n, n < 64 → colAt t n = (if (colAt s n).vfEn then colAt s n else
      { colAt s n with valve :=
          let x := max (colAt s n).tj.toNat (colAt s n).tb.toNat
          if x ≤ 60 then 64 else if 95 ≤ x then 255 else BitVec.ofNat 8 (64 + (x - 60) * 191 / 35) })) ∧
    ((45 < inlet ∨ flow < Config.flowFloor tower.val) →
      (tower.val ∉ s.power.alarms → ∃ t, exec (.coolantAlarm tower inlet flow) s = .next t ∧
        t.power = { s.power with alarms := tower.val :: s.power.alarms } ∧ logged t 0 ∧ t.cols = s.cols ∧ frame t) ∧
      (tower.val ∈ s.power.alarms → exec (.coolantAlarm tower inlet flow) s = .next s)) ∧
    (inlet ≤ 45 → Config.flowFloor tower.val ≤ flow → ∃ t, exec (.coolantAlarm tower inlet flow) s = .next t ∧
      tower.val ∉ t.power.alarms ∧ t = { s with power := { s.power with alarms := t.power.alarms } }) ∧
    (s.emerg = none → 115 ≤ temp.toNat → ∃ t, exec (.emergencyBegin col false temp) s = .next t ∧ t.emerg = some s.tsc.toNat ∧
      (colAt t col.val).tj = temp ∧ (colAt t col.val).tb = c.tb ∧ logged t 0 ∧ frame t) ∧
    (s.emerg = none → 105 ≤ temp.toNat → ∃ t, exec (.emergencyBegin col true temp) s = .next t ∧ t.emerg = some s.tsc.toNat ∧
      (colAt t col.val).tb = temp ∧ (colAt t col.val).tj = c.tj ∧ logged t 0 ∧ frame t) ∧
    (∀ at_, s.emerg = some at_ → (∀ n, n < 64 → (colAt s n).tj.toNat ≤ 95 ∧ (colAt s n).tb.toNat ≤ 95) →
      ∃ t, exec .emergencyEnd s = .next ((s.cols.map (·.1)).foldl gateColumn t) ∧ t.emerg = none ∧
        t.power = { s.power with current := 3000, allow := 3000 } ∧ logged t 0 ∧ t.mem = s.mem ∧ t.clutches = s.clutches ∧ t.tasks = s.tasks ∧ t.cols = s.cols ∧
        t.l1 = (shiftTimes s (s.tsc.toNat - at_)).l1 ∧ t.toks = (shiftTimes s (s.tsc.toNat - at_)).toks) ∧
    (∀ at_, s.emerg = some at_ → at_ + 10000000000 ≤ s.tsc.toNat → ∃ t, exec .emergencyTimeout s = .next t ∧ t.boot = .railsOff ∧
      t.mem = [] ∧ t.clutches = State.reset.clutches ∧ t.cols = State.reset.cols ∧ t.weights.flash = s.weights.flash ∧ logged t 0 ∧
      t.tsc = s.tsc) ∧
    (let seq := BitVec.ofNat 32 (frameField bytes 4 4)
     let src := if port then 3 else 2
     (frameFormat bytes = true → frameMac s bytes = true → (s.mgmt.capValid = false ∨ serialNewer seq s.mgmt.capSeq = true) →
      ∃ t, exec (.capFrame port bytes) s = .next t ∧
        (∀ r, r < 8 → tget 0xFFFFFFFF t.power.rankCap r = BitVec.ofNat 32 (frameField bytes (12 + 4 * r) 4)) ∧
        t.power.devCap = (if frameField bytes 3 1 % 2 = 1 then BitVec.ofNat 32 (frameField bytes 8 4) else s.power.devCap) ∧
        t = { s with power := { s.power with rankCap := t.power.rankCap, devCap := t.power.devCap },
                     mgmt := { s.mgmt with capSeq := seq, capValid := true } }) ∧
     (frameFormat bytes = true → frameMac s bytes = true → s.mgmt.capValid = true → serialNewer seq s.mgmt.capSeq = false →
      exec (.capFrame port bytes) s = .next s) ∧
     ((frameFormat bytes = false ∨ frameMac s bytes = false) → ∃ t, exec (.capFrame port bytes) s = .next t ∧ t.power = s.power ∧
      t.cols = s.cols ∧ logged t src ∧ frame t)) ∧
    (∃ t, exec (.sensorRefresh col tj tb) s = .next t ∧ (colAt t col.val).tj = tj ∧ (colAt t col.val).tb = tb ∧
      (isHot t col.val = false → (colAt t col.val).thermAt = none) ∧ (isCool t col.val = true → (colAt t col.val).coolAt.isSome = true) ∧
      (colAt t col.val).duty = c.duty ∧ frame t ∧ ∀ n, n ≠ col.val → colAt t n = colAt s n)

/-- 01 R28 to R34, R45 to R48, 02 R87 to R90, 06 R240: beats and repair of the vertical bus, the bank's reads and its scrubber, width
changes of links, reset, loss of supply, the firmware image and SPDM. A group's third failure begins its repair; the bus is FAILED when
the beat after a repair fails again, when a fourth beat in succession fails, or when a repair finds no single faulty lane or no spare: a
FAILED direction holds nothing back. In a repair an up beat is a drain write of the read-modify-write unit, which is put off after its third
failure. The model's choices: the lowest bad group is the one that a FAIL event names (log 112), the layout of measurement 4 (log 10), and
that an image comes and is checked in two acts (log 78). -/
def Obligations.DeviceStepsRun : Prop :=
  ∀ (s : State) (col : Fin 64) (dir : VDir) (bad found : List Nat) (g lane bo w : Nat) (data : BitVec 1024) (mask : BitVec 128)
    (l : LinkId) (a : WidthAgent) (src way : ImageSource) (img : Image) (m : SpdmMeasure) (rw : BankWrite) (rws : List BankWrite),
    let down := dir == .down
    let v := busOf s col.val down
    let x := linkAt s l
    let c := colAt s col.val
    let bs := badGroups down bad
    let plain := v.failed = false ∧ s.emerg = none ∧ v.repair = [] ∧ (down = true ∨ repairing s col.val = false)
    let third := bs.filter (fun g => decide (2 ≤ tget 0 v.fails g))
    (plain → bs = [] →
      exec (.vbusBeat col dir bad) s = .next (serveHeld (setBus s col.val down { v with fails := [], retries := 0, newMap := false }) col.val)) ∧
    (plain → bs ≠ [] → third ≠ [] → (v.newMap = false ∨ v.retries < 2) →
      ∃ t, exec (.vbusBeat col dir bad) s = .next t ∧ (busOf t col.val down).repair = third ∧ (busOf t col.val down).failed = false ∧
        (colAt t col.val).held.Perm c.held ∧ (colAt t col.val).rmw = c.rmw ∧ t.mem = s.mem) ∧
    (plain → bs ≠ [] → (v.newMap = true ∧ 2 ≤ v.retries ∨ third = [] ∧ 3 ≤ v.retries) →
      ∃ t, exec (.vbusBeat col dir bad) s = .next (serveHeld t col.val) ∧ (busOf t col.val down).failed = true ∧
        (busOf t col.val down).repair = [] ∧ (colAt t col.val).rmw = [] ∧ (colAt t col.val).late = [] ∧ t.mem = s.mem) ∧
    (v.failed = false → s.emerg = none → dir = .up → repairing s col.val = true →
      (c.rmw = [] → exec (.vbusBeat col dir bad) s = .next s) ∧
      (c.rmw = rw :: rws → bs = [] → exec (.vbusBeat col dir bad) s =
        .next (bankPut (setCol s col.val { c with rmw := rws, up := { c.up with drainFails := [] } }) col.val rw.line rw.data rw.mask)) ∧
      (c.rmw = rw :: rws → (∃ g ∈ bs, 2 ≤ tget 0 c.up.drainFails g) → ∃ t, exec (.vbusBeat col dir bad) s = .next t ∧
        (colAt t col.val).rmw = rws ∧ (colAt t col.val).late = c.late ++ [rw] ∧ (busOf t col.val down).repair = v.repair ∧
        (busOf t col.val down).failed = false ∧ t.mem = s.mem) ∧
      (c.rmw = rw :: rws → bs ≠ [] → (∀ g ∈ bs, tget 0 c.up.drainFails g < 2) → ∃ t, exec (.vbusBeat col dir bad) s = .next t ∧
        (colAt t col.val).rmw = c.rmw ∧ (colAt t col.val).late = c.late ∧ t.mem = s.mem ∧
        ∀ g ∈ bs, tget 0 (colAt t col.val).up.drainFails g = tget 0 c.up.drainFails g + 1)) ∧
    (plain → bs ≠ [] → v.newMap = false → v.retries < 3 →
      (∀ g ∈ bs, tget 0 v.fails g < 2) →
      ∃ t, exec (.vbusBeat col dir bad) s = .next t ∧ (busOf t col.val down).retries = v.retries + 1 ∧
        (busOf t col.val down).failed = false ∧ (busOf t col.val down).repair = [] ∧
        ∀ g ∈ bs, tget 0 (busOf t col.val down).fails g = tget 0 v.fails g + 1) ∧
    (v.repair.head? = some g → s.emerg = none → c.rmw = [] → lane ≤ 16 → spareOf g ∉ v.spares →
      ∃ t, exec (.vbusRepair col dir g [lane]) s = .next (serveHeld t col.val) ∧ (busOf t col.val down).spares = v.spares ++ [spareOf g] ∧
        (busOf t col.val down).swapped = v.swapped ++ [(g, lane)] ∧ (busOf t col.val down).repair = v.repair.tail ∧
        (busOf t col.val down).failed = v.failed) ∧
    (v.repair.head? = some g → s.emerg = none → c.rmw = [] → (found.length ≠ 1 ∨ spareOf g ∈ v.spares) →
      ∃ t, exec (.vbusRepair col dir g found) s = .next (serveHeld t col.val) ∧ (busOf t col.val down).failed = true ∧
        (busOf t col.val down).repair = [] ∧ (colAt t col.val).late = [] ∧ t.mem = s.mem) ∧
    (v.repair.head? = some g → c.rmw ≠ [] → exec (.vbusRepair col dir g found) s = .next s) ∧
    (let line := (bankBase + col.val * 0x100000000 + bo) / 128
     bo < 0x100000000 → s.emerg = none →
      (unitIdle s col.val line = true → exec (.bankRead col bo) s = .next (bankReadLine s col.val line false).1) ∧
      (unitIdle s col.val line = false → exec (.bankRead col bo) s = .next (holdReq s col.val (.read line)) ∧
        (c.beat ≠ some line → (∃ y, c.beat = some y) ∨ c.down.again = false ∨ repairing s col.val = true →
          .read line ∈ (colAt (holdReq s col.val (.read line)) col.val).held ∧ c.held <+: (colAt (holdReq s col.val (.read line)) col.val).held) ∧
        (.read line ∉ c.held → c.beat = none → c.down.again = true → repairing s col.val = false →
          (colAt (holdReq s col.val (.read line)) col.val).beat = some line)) ∧
      (∀ y, tget none c.slice line = some y → mask = y.mask → (∀ k, k < 128 → mask.getLsbD k = true → lineByte data k = lineByte y.data k) →
        (unitIdle s col.val line = true → exec (.bankPartialWrite col bo data mask) s = .next (sliceDrop s line)) ∧
        (unitIdle s col.val line = false → isPartial y.mask = true → unitReads s col.val line = true →
          exec (.bankPartialWrite col bo data mask) s = .next (modCol (setSlice (bankCheckOld s col.val line y.mask) col.val line none) col.val
            (fun k => { k with rmw := k.rmw ++ [{ line := line, data := y.data, mask := y.mask }] }))) ∧
        (unitIdle s col.val line = false → (isPartial y.mask = false ∨ unitReads s col.val line = false) →
          exec (.bankPartialWrite col bo data mask) s = .next (holdReq s col.val (.writeBack line))))) ∧
    (c.period ≠ 0 → s.emerg = none → bankBusy s col.val = false → ∃ t, exec (.patrolScrub col) s = .next t ∧
      (colAt t col.val).scrubPos = (c.scrubPos + 1) % 0x2000000 ∧ t.mem = s.mem ∧ t.clutches = s.clutches) ∧
    (x.lost = false → w = 4 ∨ w = 2 ∨ w = 1 → (a = .linkLayer ∨ w ≤ x.usable) → x.pending = none →
      exec (.widthChangeRequest l a w) s = .next (setLink s l { x with pending := some (a, w) })) ∧
    (x.pending = some (a, w) → x.next = [] →
      (∃ t, exec (.widthChange l .atRequested) s = .next t ∧ (linkAt t l).width = w ∧ (linkAt t l).pending = none ∧
        (linkAt t l).usable = (if a = .linkLayer then min x.usable w else x.usable)) ∧
      (∃ t, exec (.widthChange l .atNarrowest) s = .next t ∧ (linkAt t l).width = 1 ∧ (linkAt t l).pending = none)) ∧
    (∃ t, exec .reset s = .next t ∧ t.boot = .rom ∧ t.mem = [] ∧ t.clutches = State.reset.clutches ∧ t.weights.flash = s.weights.flash ∧
      t.weights.ver = s.weights.ver ∧ t.weights.mapped = s.weights.mapped) ∧
    (∃ t, exec .powerLoss s = .next t ∧ t.boot = .railsOff ∧ t.mem = [] ∧ t.weights.flash = s.weights.flash) ∧
    (s.boot = .rom → s.bootSrc = none → exec (.firmwareImage src img) s = .next { s with bootSrc := some src, reply := .ok [] }) ∧
    (s.boot = .rom → s.bootSrc = some src → ∃ t, exec (.firmwareImage src img) s = .next t ∧ t.bootSrc = none ∧
      t.mgmt.tail = s.mgmt.tail + 1 ∧ (t.boot = if imageReason img = none then .running else .rom)) ∧
    (wayOpen s way = true → ∃ bs, exec (.spdmRequest { way, what := m }) s = .next { s with reply := .ok bs } ∧
      (∀ d, m = .firmware → s.image = some d → bs = leBytes 64 d.toNat) ∧ (m = .partition → bs = partitionBytes s))

/-! ### The machine -/

/-- 02 R58 to R62, R69, R79 to R84, 01 R18, R33, 03 R98 to R104, 04 R136, R149, R150, 05 R189, 06 R218, R219, R235, R237, R244: what
every requester that may read them sees in the device registers at reset; a line's block is k. The two sensor fields of `GOV_STATUS`
are none of these. -/
def ResetRegisters (s : State) : Prop :=
  ∀ (r : Requester) (c : Fin 64) (p : Fin 16) (k : Fin 69) (line : Fin 8) (t q : Fin 4) (g : Fin 64) (hi : Bool),
    let v := fun d => regVal s r d
    bits (v (.govStatus c.val)) 0 8 = 0 ∧ bits (v (.govStatus c.val)) 24 40 = 0xFF ∧ v (.throttleEvt c.val) = 0 ∧
    v (.partMap) = 0 ∧ v (.partCfg p.val) = (if p = 0 then 0xFFFFFF0F else 0xFFFFFF0E) ∧ v .devCap = 22000 ∧ v .curLim = 30000 ∧
    v .govTj = 105 ∧ v .govTb = 92 ∧ v .hbmSplit = 32 + 16 * 2 ^ 8 ∧ v (.mgmtSem false) = 100 * 2 ^ 8 ∧ v .capSeq / 2 ^ 32 = 0 ∧
    v .logLost = 0 ∧ v .logTail = 0 ∧ v (.scrubCfg c.val) = 12 ∧ v (.bankEcc c.val hi) = 0 ∧ v (.vbusErr c.val hi) = 0 ∧
    v (.coreOcc c.val q.val) = 512 ∧ v (.schedEvt c.val) = 0 ∧ v (.corePg c.val) = 0 ∧ v (.promoCmd t.val hi) = 0 ∧
    v .migCfg = 1 + 5 * 2 + 10 * 2 ^ 8 ∧ v .pgfCfg = 0 ∧ v .pgfHead = 0 ∧ v .pgfTail = 0 ∧ v .pgfDone = 0 ∧ v .rrCfg = 64 ∧ v .wearSet = 0 ∧
    v .extStore = 64 ∧ v (.llCfg (8 * k.val + line.val)) = 0 ∧ v (.llStatus (8 * k.val + line.val)) = 0 ∧
    v (.ualGrant g.val hi) = 0 ∧ v .ctxTable = 0

/-- Reset, and with it the model's choices of what the spec leaves open (log 2): the zeros of TRAP_PC, TRAP_ADDR and TRAP_MASK, UVEC,
CTX_TABLE, PGF_HEAD, PGF_TAIL and of the other registers without a reset value. The rest is what the spec gives: the device registers; on a host core firmware's level, no interrupt, zero stack limits, and
`TIMECMP` all ones (05 R198, 12 R450, R456, R460); null address registers (05 R170); the boot ROM waits for its image (02 R87).
Memory's canonical form at reset is the model's (log 3). -/
def Obligations.ResetValues : Prop :=
  let s := State.reset
  ResetRegisters s ∧ Memory.wf s.mem = true ∧ s.boot = .rom ∧ s.bootSrc = none ∧ s.agenda = [] ∧
  ∀ (c : Fin 64) (n : Fin 16),
    let x := clutchAt s c.val
    let v := sysVal s x 0
    v 0x007 = 2 ∧ v 0x001 = 0 ∧ v 0x002 = 0 ∧ v 0x003 = 0 ∧ v 0x004 = 0 ∧ v 0x012 = 0 ∧ v 0x020 = 0 ∧ v 0x021 = 0 ∧ v 0x022 = 0 ∧
    v 0x023 = 0 ∧ v 0x033 = 0 ∧ v 0x034 = 0 ∧ v 0x037 = 0 ∧ v 0x038 = 0 ∧ v 0x039 = 2 ^ 64 - 1 ∧ v 0x010 = c.val ∧
    getA x n.val = AReg.zero ∧ isHost x = true

/-- 09 R308 to R312, 10 R338, R384, 11, 12: words written out from the encodings, and what they decode to. -/
def Obligations.WordsOfTheSpecDecode : Prop :=
  let h := fun (p : Pred) (stop : Bool) => ({ stop := stop, pred := p } : Hdr)
  decode 0x8008304050600000 = .ok (.add (h (.bitSet 3) true) .i32 (.v 4) (.v 5) (.reg (.v 6))) ∧
  decode 0x00003838300FFFFB = .ok (.add (h .always false) .i32 (.s 3) (.s 3) (.imm 0x7FFFB)) ∧
  decode 0x9000308C0F054904 = .ok (.ld (h .always true) .i32 (.acq .column) (.v 8) ({ base := .a 0, idx := .zero, pol := some 9, off := 4 } : MemOp)) ∧
  decode 0xC08204800E0A0703 = .ok (.dualWord true (.bin .add (.v 4) (.v 9)) (.binImm .shl (.v 10) (.v 7) 3)) ∧
  decode 0x0F00000000000000 = .ok (.nop (h .always false)) ∧
  decode 0x0D40000000000000 = .ok (.exit (h .always false)) ∧
  decode 0x1480084000000007 = .ok (.atxBegin (h .always false) (.s 4) 7) ∧
  decode 0x0E803D10400D0010 = .ok (.kcmp (h .always false) .ge .i32 1 (.v 4) (.imm 16)) ∧
  decode 0x9400706C207E0000 = .ok (.atom (h .always true) .add .n32 (.ar .pkg) (.v 6) (.a 2) (.v 7)) ∧
  decode 0x98C0D08090A2000B = .ok (.fma (h .always true) .f32 .rtz (.v 8) (.v 9) (.v 10) (.reg (.v 11))) ∧
  decode 0x1C80F0C09000010D = .ok (.fcvt (h .always false) .e4m3 .f32 .mode true 0 (.v 12) (.v 9)) ∧
  decode 0xA000000941E00002 = .ok (.mjob (h .always true) 2 (.s 20) (.v 30)) ∧
  decode 0xA400000C30000001 = .ok (.cpy (h .always true) 1 (.a 3)) ∧
  decode 0x25C0000860000001 = .ok (.tlwait (h .always false) 1 (.s 6)) ∧
  decode 0x2C00085000000003 = .ok (.sysr (h .always false) (.s 5) 3) ∧
  decode 0xA780088C40000000 = .ok (.join (h .always true) (.s 8) (.a 4)) ∧
  decode 0x2900700948902000 = .ok (.waitaddr (h .always false) .core .eq .n32 (.s 20) (.s 9))

/-- 05 R158, 09 R309, R326: where clutch `cur` has its turn, stands at an issue address, waits for nothing, and no engine error or
interrupt is due there, the step fetches the word there, decodes it, and is `exec` of the instruction, in the machine that time and
the fetch leave; a word that decodes to none takes ILLEGAL with the word as its address. Where the clutch is parked, its pending results
land first (05 R158, R173). An act listed for another agent is `exec` of it. An act whose time has come (07 R252, 04 R125, 06 R217) goes
first. To what `exec` answers the step adds the events that it has counted for the power model (02 R52), and nothing else. The order of
acts is the model's choice (log 1). -/
def Obligations.StepRunsTheDecodedWord : Prop :=
  ∀ (s v y : State) (p : Issue) (w : Dword) (i : Instr) (more : List Instr),
    let u : State := { tick s with issuing := false }
    let c := clutchAt u u.cur
    (forced (tick s) = none → s.boot ≠ .railsOff → (s.issuing = true ∨ s.agenda = []) → runs u c = true → asyncReady u u.cur = false → intReady u u.cur = false →
      c.wait = none → (if c.parked then completeAll u u.cur else some u) = some y → issueOf (clutchAt y y.cur) = some p →
      fetchAt y p.c p.ia = (.word w, v) →
      (decode w = .ok i → step s = act i v) ∧
      (∀ e, decode w = .error e → ∃ t, step s = .next t ∧ ∀ x, completeAll v y.cur = some x →
        t = takeTrap x y.cur cIllegal w p.at_ p.at_ p.ia nopWord)) ∧
    (forced (tick s) = none → s.boot ≠ .railsOff → s.issuing = false → s.agenda = i :: more → step s = act i { tick s with agenda := more }) ∧
    (forced (tick s) = some i → step s = act i (tick s)) ∧
    (∀ t, exec i s = .next t → ∃ m, act i s = .next { t with power := { t.power with tally := m } })

/-- 09 R308 to R325: every well-formed instruction word has an encoding, and the encoding decodes to it: no bit of an operand, a
qualifier, a predicate or the stop bit is dropped. -/
def Obligations.DecodeOfEncodeIsTheInstruction : Prop :=
  ∀ i : Instr, isWord i = true → wellFormed i = true → ∃ w, encode i = some w ∧ decode w = .ok i

/-- 09 R313, R315, R318, R326: a word that decodes is the encoding of its instruction, which is well-formed: no two words have one
meaning, and no bit of a word is ignored. -/
def Obligations.EncodeOfDecodeIsTheWord : Prop :=
  ∀ (w : Dword) (i : Instr), decode w = .ok i → isWord i = true ∧ wellFormed i = true ∧ encode i = some w

/-- A step keeps memory's canonical form: addresses strictly rise, and no listed byte is what an unlisted one reads as. The form is the
model's own choice, as is the zero that an unwritten byte reads as (log 3); of a fresh block of a column bank 06 R232 says it. -/
def Obligations.EveryStepKeepsMemoryCanonical : Prop :=
  ∀ s t : State, Memory.wf s.mem = true → step s = .next t → Memory.wf t.mem = true

/-- 09 R326: every instruction has an effect or takes a trap, and every other step of the opcode table happens or leaves the machine as
it is; the machine stops only while its rails are removed (02 R78). -/
def Obligations.NoInstructionIsRefused : Prop :=
  (∀ (i : Instr) (s : State), ∃ t, exec i s = .next t) ∧
  (∀ s : State, s.boot ≠ .railsOff → ∃ t, step s = .next t) ∧
  (∀ s : State, s.boot = .railsOff → s.agenda.head? ≠ some .reset → step s = .fault .railsOff)
end

