-- ==== Sys2Proof/Laws/Tab.lean ====
section
/-! SUPPORT. Sparse tables: reading after writing, and that every table operation keeps the canonical form. -/

namespace Sys2Proof.Machine

variable {α : Type}

theorem tget_tset (d : α) (t : Tab α) (n m : Nat) (x : α) :
    tget d (tset t n x) m = if m = n then x else tget d t m := by
  induction t with
  | nil => simp [tset, tget]
  | cons p t ih =>
    obtain ⟨k, v⟩ := p
    simp only [tset]
    split
    · simp [tget]
    · split
      · subst k; simp only [tget]; split <;> simp_all
      · simp only [tget, ih]; split <;> (try split) <;> simp_all

theorem tget_tdel (d : α) (t : Tab α) (n m : Nat) :
    tget d (tdel t n) m = if m = n then d else tget d t m := by
  induction t with
  | nil => simp [tdel, tget]
  | cons p t ih =>
    obtain ⟨k, v⟩ := p
    simp only [tdel]
    split
    · subst k; rw [ih]; simp only [tget]; split <;> simp_all
    · simp only [tget, ih]; split <;> (try split) <;> simp_all

/-- Reading after writing. -/
theorem tget_tput [DecidableEq α] (d : α) (t : Tab α) (n m : Nat) (x : α) :
    tget d (tput d t n x) m = if m = n then x else tget d t m := by
  unfold tput
  split
  · subst x; exact tget_tdel d t n m
  · exact tget_tset d t n m x

@[simp] theorem tget_tput_self [DecidableEq α] (d : α) (t : Tab α) (n : Nat) (x : α) : tget d (tput d t n x) n = x := by
  simp [tget_tput]

theorem tget_tput_of_ne [DecidableEq α] (d : α) (t : Tab α) {n m : Nat} (x : α) (h : m ≠ n) :
    tget d (tput d t n x) m = tget d t m := by
  simp [tget_tput, h]

theorem tset_tset (t : Tab α) (n : Nat) (x y : α) : tset (tset t n x) n y = tset t n y := by
  induction t with
  | nil => simp [tset]
  | cons p t ih =>
    obtain ⟨k, v⟩ := p
    by_cases h1 : n < k
    · simp [tset, h1]
    · by_cases h2 : n = k
      · subst k; simp [tset]
      · simp [tset, h1, h2, ih]

/-! ### The canonical form -/

theorem tsorted_mono {t : Tab α} {a b : Nat} (h : a ≤ b) (w : tsorted b t = true) : tsorted a t = true := by
  cases t with
  | nil => rfl
  | cons p t => simp only [tsorted, Bool.and_eq_true, decide_eq_true_eq] at w ⊢; exact ⟨by omega, w.2⟩

theorem tsorted_tset {t : Tab α} {a n : Nat} (x : α) (w : tsorted a t = true) (h : a ≤ n) : tsorted a (tset t n x) = true := by
  induction t generalizing a with
  | nil => simp [tset, tsorted, h]
  | cons p t ih =>
    obtain ⟨k, v⟩ := p
    simp only [tsorted, Bool.and_eq_true, decide_eq_true_eq] at w
    simp only [tset]
    split
    · simp only [tsorted, Bool.and_eq_true, decide_eq_true_eq]; exact ⟨h, by omega, w.2⟩
    · split
      · subst k; simp only [tsorted, Bool.and_eq_true, decide_eq_true_eq]; exact ⟨h, w.2⟩
      · simp only [tsorted, Bool.and_eq_true, decide_eq_true_eq]; exact ⟨w.1, ih w.2 (by omega)⟩

theorem tsorted_tdel {t : Tab α} {a : Nat} (n : Nat) (w : tsorted a t = true) : tsorted a (tdel t n) = true := by
  induction t generalizing a with
  | nil => rfl
  | cons p t ih =>
    obtain ⟨k, v⟩ := p
    simp only [tsorted, Bool.and_eq_true, decide_eq_true_eq] at w
    simp only [tdel]
    split
    · exact ih (tsorted_mono (by omega) w.2)
    · simp only [tsorted, Bool.and_eq_true, decide_eq_true_eq]; exact ⟨w.1, ih w.2⟩

theorem mem_tset {t : Tab α} {n : Nat} {x : α} {p : Nat × α} (h : p ∈ tset t n x) : p = (n, x) ∨ p ∈ t := by
  induction t with
  | nil => simpa [tset] using h
  | cons q t ih =>
    obtain ⟨k, v⟩ := q
    simp only [tset] at h
    split at h
    · simpa using h
    · split at h
      · rcases List.mem_cons.1 h with h | h
        · exact .inl h
        · exact .inr (List.mem_cons_of_mem _ h)
      · rcases List.mem_cons.1 h with h | h
        · exact .inr (h ▸ List.mem_cons_self)
        · rcases ih h with h | h
          · exact .inl h
          · exact .inr (List.mem_cons_of_mem _ h)

theorem mem_tdel {t : Tab α} {n : Nat} {p : Nat × α} (h : p ∈ tdel t n) : p ∈ t := by
  induction t with
  | nil => simp [tdel] at h
  | cons q t ih =>
    obtain ⟨k, v⟩ := q
    simp only [tdel] at h
    split at h
    · exact List.mem_cons_of_mem _ (ih h)
    · rcases List.mem_cons.1 h with h | h
      · exact h ▸ List.mem_cons_self
      · exact List.mem_cons_of_mem _ (ih h)

/-- Writing keeps the canonical form. -/
theorem twf_tput [DecidableEq α] {d : α} {t : Tab α} (n : Nat) (x : α) (w : twf d t = true) : twf d (tput d t n x) = true := by
  simp only [twf, Bool.and_eq_true, List.all_eq_true, decide_eq_true_eq] at w ⊢
  unfold tput
  split
  · exact ⟨tsorted_tdel n w.1, fun p h => w.2 p (mem_tdel h)⟩
  · refine ⟨tsorted_tset x w.1 (Nat.zero_le n), fun p h => ?_⟩
    rcases mem_tset h with rfl | h
    · assumption
    · exact w.2 p h

@[simp] theorem twf_nil [DecidableEq α] (d : α) : twf d ([] : Tab α) = true := by simp [twf, tsorted]

theorem tsorted_head {t : Tab α} {a n : Nat} (d : α) (w : tsorted a t = true) (h : n < a) : tget d t n = d := by
  induction t generalizing a with
  | nil => rfl
  | cons p t ih =>
    obtain ⟨k, v⟩ := p
    simp only [tsorted, Bool.and_eq_true, decide_eq_true_eq] at w
    simp only [tget]
    rw [if_neg (by omega)]
    exact ih w.2 (by omega)

/-- Two canonical tables with the same readings are the same data. -/
theorem twf_ext [DecidableEq α] {d : α} {t u : Tab α} (ht : twf d t = true) (hu : twf d u = true)
    (h : ∀ n, tget d t n = tget d u n) : t = u := by
  simp only [twf, Bool.and_eq_true, List.all_eq_true, decide_eq_true_eq] at ht hu
  obtain ⟨ht, vt⟩ := ht
  obtain ⟨hu, vu⟩ := hu
  revert ht hu
  generalize (0 : Nat) = a
  induction t generalizing u a with
  | nil =>
    intro _ hu
    cases u with
    | nil => rfl
    | cons q u =>
      have := h q.1
      simp [tget] at this
      exact absurd this.symm (vu q List.mem_cons_self)
  | cons p t ih =>
    intro ht hu
    obtain ⟨k, v⟩ := p
    simp only [tsorted, Bool.and_eq_true, decide_eq_true_eq] at ht
    cases u with
    | nil =>
      have := h k
      simp [tget] at this
      exact absurd this (vt (k, v) List.mem_cons_self)
    | cons q u =>
      obtain ⟨l, w⟩ := q
      simp only [tsorted, Bool.and_eq_true, decide_eq_true_eq] at hu
      have hk : k = l := by
        rcases Nat.lt_trichotomy k l with hl | hl | hl
        · have := h k
          simp only [tget, if_true, if_neg (Nat.ne_of_lt hl)] at this
          rw [tsorted_head d hu.2 (by omega)] at this
          exact absurd this (vt (k, v) List.mem_cons_self)
        · exact hl
        · have := h l
          simp only [tget, if_true, if_neg (Nat.ne_of_lt hl)] at this
          rw [tsorted_head d ht.2 (by omega)] at this
          exact absurd this.symm (vu (l, w) List.mem_cons_self)
      subst l
      have hv : v = w := by simpa [tget] using h k
      subst w
      congr 1
      refine ih (fun n => ?_) (fun p hp => vt p (List.mem_cons_of_mem _ hp)) (fun p hp => vu p (List.mem_cons_of_mem _ hp)) (k + 1) ht.2 hu.2
      have hn := h n
      simp only [tget] at hn
      split at hn
      · subst n
        rw [tsorted_head d ht.2 (by omega), tsorted_head d hu.2 (by omega)]
      · exact hn

end Sys2Proof.Machine
end

