-- ==== Sys2Proof/Laws/Clutch.lean ====
section
/-! SUPPORT. Clutches and lanes: reading after writing, and what the lane updates leave alone. -/

namespace Sys2Proof.Machine

theorem clutchAt_setClutch (s : State) (a b : Nat) (c : Clutch) :
    clutchAt (setClutch s a c) b = if b = a then c else clutchAt s b := by
  unfold clutchAt setClutch
  by_cases h : b = a <;> simp [tget_tput, h]

@[simp] theorem clutchAt_setClutch_self (s : State) (a : Nat) (c : Clutch) : clutchAt (setClutch s a c) a = c := by
  simp [clutchAt_setClutch]

@[simp] theorem setClutch_setClutch (s : State) (a : Nat) (c d : Clutch) :
    setClutch (setClutch s a c) a d = setClutch s a d := by
  simp [setClutch, tput, tset_tset]

@[simp] theorem setClutch_cur (s : State) (a : Nat) (c : Clutch) : (setClutch s a c).cur = s.cur := rfl

theorem laneAt_setLane (c : Clutch) (i n : Nat) (l : Lane) : laneAt (setLane c i l) n = if n = i then l else laneAt c n := by
  simp [laneAt, setLane, tget_tput]

theorem laneAt_modLane (c : Clutch) (i n : Nat) (f : Lane → Lane) :
    laneAt (modLane c i f) n = if n = i then f (laneAt c i) else laneAt c n := by
  simp [modLane, laneAt_setLane]

/-- A lane update is an update of the lane table alone. -/
theorem modLane_eq (c : Clutch) (i : Nat) (f : Lane → Lane) : modLane c i f = { c with lanes := (modLane c i f).lanes } := rfl

theorem mem_lanesOf {m : Mask} {n : Nat} : n ∈ lanesOf m ↔ m.getLsbD n = true := by
  simp only [lanesOf, List.mem_filter, List.mem_range, and_iff_right_iff_imp]
  intro h
  exact Nat.lt_of_not_le fun k => by simp [BitVec.getLsbD_of_ge m n k] at h

theorem nodup_lanesOf (m : Mask) : (lanesOf m).Nodup := List.Nodup.filter _ List.nodup_range

/-- Folding lane updates over distinct lanes. -/
theorem foldl_modLane (f : Nat → Lane → Lane) (l : List Nat) (h : l.Nodup) (c : Clutch) :
    let c' := l.foldl (fun c i => modLane c i (f i)) c
    c' = { c with lanes := c'.lanes } ∧ ∀ n, laneAt c' n = if n ∈ l then f n (laneAt c n) else laneAt c n := by
  induction l generalizing c with
  | nil => simp
  | cons i l ih =>
    simp only [List.foldl_cons]
    obtain ⟨h1, h2⟩ := ih (List.nodup_cons.1 h).2 (modLane c i (f i))
    refine ⟨by rw [h1]; rfl, fun n => ?_⟩
    rw [h2 n]
    have hi := (List.nodup_cons.1 h).1
    simp only [laneAt_modLane, List.mem_cons]
    by_cases hn : n = i
    · subst n; simp [hi]
    · simp [hn]

theorem modLanes_eq (c : Clutch) (m : Mask) (f : Nat → Lane → Lane) :
    modLanes c m f = { c with lanes := (modLanes c m f).lanes } :=
  (foldl_modLane f (lanesOf m) (nodup_lanesOf m) c).1

theorem laneAt_modLanes (c : Clutch) (m : Mask) (f : Nat → Lane → Lane) (n : Nat) :
    laneAt (modLanes c m f) n = if m.getLsbD n then f n (laneAt c n) else laneAt c n := by
  have := (foldl_modLane f (lanesOf m) (nodup_lanesOf m) c).2 n
  simp only [mem_lanesOf] at this
  exact this

/-! ### Bookkeeping: pcs, waiting marks, rotation, pending marks -/

theorem Book.refl (c : Clutch) : Book c c := ⟨rfl, rfl, rfl, rfl, fun _ => rfl⟩

theorem Book.trans {a b c : Clutch} (h : Book a b) (k : Book b c) : Book a c :=
  ⟨k.rest.trans h.rest, k.s.trans h.s, k.k.trans h.k, k.flags.trans h.flags, fun n => (k.lanes n).trans (h.lanes n)⟩

theorem Book.symm {a b : Clutch} (h : Book a b) : Book b a :=
  ⟨h.rest.symm, h.s.symm, h.k.symm, h.flags.symm, fun n => (h.lanes n).symm⟩

theorem bookLane_fields {l m : Lane} (h : bookLane l = bookLane m) :
    l.v = m.v ∧ l.stack = m.stack ∧ l.bad = m.bad ∧ l.wbv = m.wbv ∧ l.exited = m.exited ∧ laneRest l = laneRest m := by
  simp only [bookLane, Lane.mk.injEq] at h
  simp only [laneRest, Lane.mk.injEq]
  tauto

theorem Book.cell {a b : Clutch} (h : Book a b) (d : Dst) : cell b d = cell a d := by
  cases d with
  | g i j => simp [Machine.cell, (bookLane_fields (h.lanes i)).1]
  | st i w => simp [Machine.cell, (bookLane_fields (h.lanes i)).2.1, (bookLane_fields (h.lanes i)).2.2.1]
  | s n => simp [Machine.cell, h.s]
  | k n => simp [Machine.cell, h.k]

theorem Book.kept {a b : Clutch} (h : Book a b) : Kept a b [] :=
  ⟨fun d _ => h.cell d, fun n => (bookLane_fields (h.lanes n)).2.2.2.2.2, h.rest⟩

theorem Kept.trans {a b c : Clutch} {x y : List Dst} (h : Kept a b x) (k : Kept b c y) : Kept a c (x ++ y) :=
  ⟨fun d hd => by
      rw [k.cells d (fun m => hd (List.mem_append_right _ m)), h.cells d (fun m => hd (List.mem_append_left _ m))],
    fun n => (k.lanes n).trans (h.lanes n), k.rest.trans h.rest⟩

theorem Kept.mono {a b : Clutch} {x y : List Dst} (h : Kept a b x) (hs : ∀ d, d ∈ x → d ∈ y) : Kept a b y :=
  ⟨fun d hd => h.cells d (fun m => hd (hs d m)), h.lanes, h.rest⟩

/-- Lane updates of `pcv` and waiting marks are bookkeeping. -/
theorem book_modLanes (c : Clutch) (m : Mask) (f : Nat → Lane → Lane) (h : ∀ n l, bookLane (f n l) = bookLane l) :
    Book c (modLanes c m f) := by
  refine ⟨?_, ?_, ?_, ?_, fun n => ?_⟩
  · rw [modLanes_eq]; rfl
  · rw [modLanes_eq]
  · rw [modLanes_eq]
  · rw [modLanes_eq]
  · rw [laneAt_modLanes]; split
    · exact h _ _
    · rfl

/-- Only waiting marks differ. -/
structure KwaitOnly (c c' : Clutch) : Prop where
  eq    : c' = { c with lanes := c'.lanes }
  lanes : ∀ n, laneAt c' n = { laneAt c n with kwait := (laneAt c' n).kwait }

theorem KwaitOnly.refl (c : Clutch) : KwaitOnly c c := ⟨rfl, fun _ => rfl⟩

theorem KwaitOnly.trans {a b c : Clutch} (h : KwaitOnly a b) (k : KwaitOnly b c) : KwaitOnly a c := by
  refine ⟨by rw [k.eq, h.eq], fun n => ?_⟩
  rw [k.lanes n]
  conv_lhs => rw [h.lanes n]

theorem KwaitOnly.book {a b : Clutch} (h : KwaitOnly a b) : Book a b := by
  refine ⟨?_, ?_, ?_, ?_, fun n => ?_⟩
  · rw [h.eq]; rfl
  · rw [h.eq]
  · rw [h.eq]
  · rw [h.eq]
  · rw [h.lanes n]; rfl

theorem kwaitTry_only (c : Clutch) (k : Fin 12) : KwaitOnly c (kwaitTry c k) := by
  unfold kwaitTry
  dsimp only
  generalize (if isHost c then getK c k.val &&& 1 else getK c k.val) = need
  split
  · refine ⟨modLanes_eq .., fun n => ?_⟩
    rw [laneAt_modLanes]; split <;> rfl
  · exact .refl c

theorem kwaitAll_only (c : Clutch) : KwaitOnly c (kwaitAll c) := by
  unfold kwaitAll
  split
  · rename_i h
    clear h
    generalize List.finRange 12 = l
    induction l generalizing c with
    | nil => exact .refl c
    | cons a l ih => exact (kwaitTry_only c a).trans (ih _)
  · exact .refl c

end Sys2Proof.Machine
end

