-- ==== Sys2Proof/Laws/Word.lean ====
section
/-! SUPPORT. The frame of an instruction word: what `finish` does, and that a ready word runs its own effect. -/

namespace Sys2Proof.Machine

/-- Rotation and pending marks of a clutch. -/
theorem rotate_eq (b a : Clutch) (ia : BitVec 53) (e : Mask) (back : Bool) :
    ∃ rot rc grp, rotate b a ia e back = { a with rot := rot, rc := rc, grp := grp } := by
  unfold rotate
  split
  · exact ⟨a.rot, a.rc, a.grp, rfl⟩
  · split
    · exact ⟨false, 0, a.grp, rfl⟩
    · split
      · split
        · exact ⟨_, _, _, rfl⟩
        · exact ⟨_, _, _, rfl⟩
      · exact ⟨a.rot, a.rc, a.grp, rfl⟩

theorem book_advance (c : Clutch) (x : Ctx) (j : Mask) : Book c (advance c x j) := book_modLanes _ _ _ (fun _ _ => rfl)

theorem pc_advance (c : Clutch) (x : Ctx) (j : Mask) (n : Nat) :
    (laneAt (advance c x j) n).pc = if (x.at_ &&& ~~~j).getLsbD n then x.ia + 1 else (laneAt c n).pc := by
  unfold advance
  rw [laneAt_modLanes]; split <;> rfl

/-- Bookkeeping that moves no lane and opens no region. -/
structure Quiet (c c' : Clutch) : Prop where
  book   : Book c c'
  pcs    : ∀ n, (laneAt c' n).pc = (laneAt c n).pc
  closed : c.region = none → c'.region = none

theorem Quiet.trans {a b c : Clutch} (h : Quiet a b) (k : Quiet b c) : Quiet a c :=
  ⟨h.book.trans k.book, fun n => (k.pcs n).trans (h.pcs n), fun r => k.closed (h.closed r)⟩

theorem quiet_rotate (b a : Clutch) (ia : BitVec 53) (e : Mask) (back : Bool) : Quiet a (rotate b a ia e back) := by
  obtain ⟨_, _, _, h⟩ := rotate_eq b a ia e back
  rw [h]
  exact ⟨⟨rfl, rfl, rfl, rfl, fun _ => rfl⟩, fun _ => rfl, id⟩

theorem quiet_markPending (c : Clutch) (w : WordInfo) (l : List Dst) : Quiet c (markPending c w l) :=
  ⟨⟨rfl, rfl, rfl, rfl, fun _ => rfl⟩, fun _ => rfl, id⟩

theorem quiet_regionWord (c c0 : Clutch) (x : Ctx) (w : WordInfo) (l : List Dst) : Quiet c (regionWord c c0 x w l) := by
  unfold regionWord
  split
  · exact ⟨.refl c, fun _ => rfl, id⟩
  · rename_i h
    exact ⟨⟨rfl, rfl, rfl, rfl, fun _ => rfl⟩, fun _ => rfl, fun k => by rw [h] at k; exact absurd k (by simp)⟩

theorem quiet_kwaitAll (c : Clutch) : Quiet c (kwaitAll c) :=
  ⟨(kwaitAll_only c).book, fun n => by rw [(kwaitAll_only c).lanes n], fun h => by rw [(kwaitAll_only c).eq]; exact h⟩

theorem quiet_stopMark (c : Clutch) (x : Ctx) (w : WordInfo) (b : Bool) : Quiet c (stopMark c x w b) := by
  unfold stopMark
  dsimp only
  split <;> split <;> exact ⟨⟨rfl, rfl, rfl, rfl, fun _ => rfl⟩, fun _ => rfl, id⟩

/-- All that finishing a word does: bookkeeping of its clutch, and the `pcv` of the lanes at the issue address that did not branch. -/
theorem finish_spec (s : State) (x : Ctx) (w : WordInfo) (c0 : Clutch) (j : Mask) :
    ∃ c', finish s x w c0 j = setClutch s x.cid c' ∧ Book (clutchAt s x.cid) c' ∧
      (∀ n, (laneAt c' n).pc = if (x.at_ &&& ~~~j).getLsbD n then x.ia + 1 else (laneAt (clutchAt s x.cid) n).pc) ∧
      ((clutchAt s x.cid).region = none → c'.region = none) := by
  unfold finish
  dsimp only
  have q := ((((quiet_rotate c0 (advance (clutchAt s x.cid) x j) x.ia (eligMask c0)
    (branchedBack (advance (clutchAt s x.cid) x j) x w j)).trans (quiet_markPending _ w
    (if x.ex = 0 then [] else writtenPlaces c0 w x.ex))).trans (quiet_regionWord _ c0 x w
    (if x.ex = 0 then [] else writtenPlaces c0 w x.ex))).trans (quiet_kwaitAll _)).trans (quiet_stopMark _ x w (trapSet c0).inTrap)
  refine ⟨_, rfl, (book_advance _ x j).trans q.book, fun n => ?_, fun h => q.closed ?_⟩
  · rw [q.pcs, pc_advance]
  · unfold advance; rw [modLanes_eq]; exact h

/-- A ready word runs its own effect in `entry`: each result of the effect, with what the word then does. -/
theorem Ready.runWord_eq {s : State} {i : Instr} {w : WordInfo} {p : Issue} (h : Ready s i w p) (body : Ctx → State → Res) :
    runWord s i w false body =
      match body (wordCtx s w p) (entry s p) with
      | .done s2 j => finish s2 (wordCtx s w p) w (atIssue p) j
      | .trap cause addr mask =>
        takeTrap (poisonSeen (entry s p) s.cur cause addr) s.cur cause addr mask p.at_ (if cause = cBreak ∨ cause = cSyscall then p.ia + 1 else p.ia) i
      | .page addr mask acc => pageFault (entry s p) s.cur addr mask p.at_ p.ia acc i
      | .wait k s2 => waitFor s2 s.cur k i
      | .abort status => regionAbort (entry s p) s.cur status
      | .enter s2 => s2 := by
  obtain ⟨hwf, hinfo, hruns, hissue, hsome, hfree, hsimt, hhost, hpair, hpriv, hrows, hhaz, hlink, hstk, hreg⟩ := h
  unfold runWord
  simp only [hruns, Bool.not_true, Bool.false_eq_true, if_false, hissue]
  have hfree' : mustComplete { p.c with atStop := none } w (execMask p.c w.hdr.pred p.at_) = false := hfree
  have hfree2 : mustComplete p.c w (execMask p.c w.hdr.pred p.at_) = false := hfree'
  simp only [hfree2, Bool.false_eq_true, if_false]
  unfold runWord.after runBody
  have hc : clutchAt (setClutch s s.cur { p.c with atStop := none }) s.cur = atIssue p := by simp [atIssue]
  simp only [setClutch_cur, hc]
  have hex : execMask (atIssue p) w.hdr.pred p.at_ = exLanes w p := rfl
  have hs0 : setClutch s s.cur { p.c with atStop := none } = entry s p := rfl
  simp only [hex, hs0, hstk, if_true]
  have hkind : ((w.simt && isHost (atIssue p)) || (w.host && !isHost (atIssue p))) = false := by
    have h1 : isHost (atIssue p) = isHost p.c := rfl
    rw [h1]
    cases hs : w.simt <;> cases hh : w.host <;> simp_all
  simp only [hkind, hpair, Bool.or_false, Bool.false_eq_true, if_false]
  have hp : privFails (atIssue p) i w = false := hpriv
  have hl : ((atIssue p).fpmode.getLsbD 31 && linkHazard (atIssue p) w (exLanes w p)) = false := by
    cases hm : (atIssue p).fpmode.getLsbD 31 with
    | false => rfl
    | true => exact hlink hm
  simp only [hp, Bool.false_eq_true, and_false, if_false, hrows]
  have hh : (if (atIssue p).fpmode.getLsbD 31 = true then hazardOf (entry s p) (atIssue p) w i (exLanes w p) else none) = none := by
    split
    · rename_i h; exact hhaz h
    · rfl
  have hr : (atIssue p).region = none := hreg
  simp only [hh, hl, hr, Bool.false_eq_true, if_false]
  unfold runBody.go
  simp only [hsome, if_false, hr, Option.isNone_none, Bool.or_true, if_true]
  have he : setClutch (entry s p) s.cur (atIssue p) = entry s p := by simp [entry]
  rw [he]
  rfl

/-- A ready word whose own effect is done finishes. -/
theorem Ready.runWord_done {s : State} {i : Instr} {w : WordInfo} {p : Issue} (h : Ready s i w p) {body : Ctx → State → Res}
    {s2 : State} {j : Mask} (hb : body (wordCtx s w p) (entry s p) = .done s2 j) :
    runWord s i w false body = finish s2 (wordCtx s w p) w (atIssue p) j := by
  rw [h.runWord_eq, hb]

/-- A word inside a region runs its own effect in `entryIn`. -/
theorem ReadyIn.runWord_eq {s : State} {i : Instr} {w : WordInfo} {p : Issue} {g : Region} (h : ReadyIn s i w p g)
    (body : Ctx → State → Res) :
    runWord s i w false body =
      match body (wordCtx s w p) (entryIn s w p) with
      | .done s2 j => finish s2 (wordCtx s w p) w (atIssue p) j
      | .trap cause addr mask =>
        takeTrap (poisonSeen (entry s p) s.cur cause addr) s.cur cause addr mask p.at_ (if cause = cBreak ∨ cause = cSyscall then p.ia + 1 else p.ia) i
      | .page addr mask acc => pageFault (entry s p) s.cur addr mask p.at_ p.ia acc i
      | .wait k s2 => waitFor s2 s.cur k i
      | .abort status => regionAbort (entry s p) s.cur status
      | .enter s2 => s2 := by
  obtain ⟨hwf, hinfo, hruns, hissue, hsome, hfree, hsimt, hhost, hpair, hpriv, hrows, hhaz, hlink, hstk, hreg, hshort, hmay⟩ := h
  unfold runWord
  simp only [hruns, Bool.not_true, Bool.false_eq_true, if_false, hissue]
  have hfree' : mustComplete { p.c with atStop := none } w (execMask p.c w.hdr.pred p.at_) = false := hfree
  have hfree2 : mustComplete p.c w (execMask p.c w.hdr.pred p.at_) = false := hfree'
  simp only [hfree2, Bool.false_eq_true, if_false]
  unfold runWord.after runBody
  have hc : clutchAt (setClutch s s.cur { p.c with atStop := none }) s.cur = atIssue p := by simp [atIssue]
  simp only [setClutch_cur, hc]
  have hex : execMask (atIssue p) w.hdr.pred p.at_ = exLanes w p := rfl
  have hs0 : setClutch s s.cur { p.c with atStop := none } = entry s p := rfl
  simp only [hex, hs0, hstk, if_true]
  have hkind : ((w.simt && isHost (atIssue p)) || (w.host && !isHost (atIssue p))) = false := by
    have h1 : isHost (atIssue p) = isHost p.c := rfl
    rw [h1]
    cases hs : w.simt <;> cases hh : w.host <;> simp_all
  simp only [hkind, hpair, Bool.or_false, Bool.false_eq_true, if_false]
  have hp : privFails (atIssue p) i w = false := hpriv
  have hl : ((atIssue p).fpmode.getLsbD 31 && linkHazard (atIssue p) w (exLanes w p)) = false := by
    cases hm : (atIssue p).fpmode.getLsbD 31 with
    | false => rfl
    | true => exact hlink hm
  simp only [hp, Bool.false_eq_true, and_false, if_false, hrows]
  have hh : (if (atIssue p).fpmode.getLsbD 31 = true then hazardOf (entry s p) (atIssue p) w i (exLanes w p) else none) = none := by
    split
    · rename_i h; exact hhaz h
    · rfl
  have hr : (atIssue p).region = some g := hreg
  have hs : ¬ 4096 ≤ g.words := by omega
  simp only [hh, hl, hr, if_neg hs, hmay, Bool.false_eq_true, and_false, if_false]
  unfold runBody.go
  simp only [hsome, if_false, hr, Option.isNone_some, Bool.or_false]
  have he : setClutch (entry s p) s.cur
      (if w.own = true then atIssue p else untagRegs (pinRegs (atIssue p) (exLanes w p) w.reads) (exLanes w p) w.writes) =
      entryIn s w p := by
    simp [entry, entryIn, atIssueIn]
  rw [he]
  rfl

end Sys2Proof.Machine
end

