-- ==== Sys2Proof/Laws/Write.lean ====
section
/-! SUPPORT. Writing registers: a write sets the places that the destination names and nothing else (05 R166, 09 R313, R314). -/

namespace Sys2Proof.Machine

theorem cell_setPlace (c : Clutch) (d e : Dst) (x : Word) :
    cell (setPlace c d x) e = if e = d then (some (stored c d x), false) else cell c e := by
  cases d with
  | g i j =>
    cases e with
    | g i2 j2 =>
      simp only [setPlace, cell, laneAt_modLane, stored, Dst.g.injEq]
      by_cases hi : i2 = i
      · subst i2; by_cases hj : j2 = j <;> simp [tget_tput, hj]
      · simp [hi]
    | st i2 w2 =>
      simp only [setPlace, cell, laneAt_modLane, reduceCtorEq, if_false]
      by_cases hi : i2 = i
      · subst i2; simp
      · simp [hi]
    | s n => simp [setPlace, cell, modLane, setLane]
    | k n => simp [setPlace, cell, modLane, setLane]
  | st i w =>
    cases e with
    | g i2 j2 =>
      simp only [setPlace, cell, laneAt_modLane, reduceCtorEq, if_false]
      by_cases hi : i2 = i
      · subst i2; simp
      · simp [hi]
    | st i2 w2 =>
      simp only [setPlace, cell, laneAt_modLane, stored, Dst.st.injEq]
      by_cases hi : i2 = i
      · subst i2; by_cases hj : w2 = w <;> simp [tget_tput, hj]
      · simp [hi]
    | s n => simp [setPlace, cell, modLane, setLane]
    | k n => simp [setPlace, cell, modLane, setLane]
  | s n =>
    cases e <;> simp [setPlace, cell, laneAt, stored, tget_tput]
    split <;> simp_all
  | k n =>
    cases e <;> simp [setPlace, cell, laneAt, stored, tget_tput]
    split <;> simp_all

/-- Nothing but registers differs: no lane moves, no flag, no mode. -/
structure RegOnly (c c' : Clutch) : Prop where
  lanes  : ∀ n, laneRest (laneAt c' n) = laneRest (laneAt c n)
  rest   : rest c' = rest c
  pcs    : ∀ n, (laneAt c' n).pc = (laneAt c n).pc
  flags  : c'.flags = c.flags
  region : c'.region = c.region

theorem RegOnly.refl (c : Clutch) : RegOnly c c := ⟨fun _ => rfl, rfl, fun _ => rfl, rfl, rfl⟩

theorem RegOnly.trans {a b c : Clutch} (h : RegOnly a b) (k : RegOnly b c) : RegOnly a c :=
  ⟨fun n => (k.lanes n).trans (h.lanes n), k.rest.trans h.rest, fun n => (k.pcs n).trans (h.pcs n),
    k.flags.trans h.flags, k.region.trans h.region⟩

theorem regOnly_modLane (c : Clutch) (i : Nat) (f : Lane → Lane) (h : ∀ l, laneRest (f l) = laneRest l) (hp : ∀ l, (f l).pc = l.pc) :
    RegOnly c (modLane c i f) := by
  refine ⟨fun n => ?_, rfl, fun n => ?_, rfl, rfl⟩
  · rw [laneAt_modLane]; split
    · subst n; exact h _
    · rfl
  · rw [laneAt_modLane]; split
    · subst n; exact hp _
    · rfl

theorem regOnly_setPlace (c : Clutch) (d : Dst) (x : Word) : RegOnly c (setPlace c d x) := by
  cases d with
  | g i j => exact regOnly_modLane c i (fun l => { l with v := tput 0 l.v j x }) (fun _ => rfl) (fun _ => rfl)
  | st i w =>
    exact regOnly_modLane c i (fun l => { l with stack := tput none l.stack w (some x), bad := tput false l.bad w false })
      (fun _ => rfl) (fun _ => rfl)
  | s n => exact ⟨fun _ => rfl, rfl, fun _ => rfl, rfl, rfl⟩
  | k n => exact ⟨fun _ => rfl, rfl, fun _ => rfl, rfl, rfl⟩

theorem laneRest_wbv {l m : Lane} (h : laneRest l = laneRest m) : l.wbv = m.wbv := by
  simp only [laneRest, Lane.mk.injEq] at h; exact h.2.1

theorem rest_core {c d : Clutch} (h : rest c = rest d) : c.core = d.core := by
  simp only [Machine.rest, Clutch.mk.injEq] at h; tauto

theorem RegOnly.vPlace {c c' : Clutch} (h : RegOnly c c') (i j : Nat) : vPlace c' i j = vPlace c i j := by
  simp [Machine.vPlace, stackWord, laneRest_wbv (h.lanes i)]

theorem RegOnly.isHost {c c' : Clutch} (h : RegOnly c c') : isHost c' = isHost c := by
  simp [Machine.isHost, rest_core h.rest]

theorem RegOnly.stored {c c' : Clutch} (h : RegOnly c c') (d : Dst) (x : Word) : stored c' d x = stored c d x := by
  cases d <;> simp [Machine.stored, h.isHost]

theorem RegOnly.placeOf {c c' : Clutch} (h : RegOnly c c') (n : Nat) (r : Reg) : placeOf c' n r = placeOf c n r := by
  cases r <;> simp [Machine.placeOf, h.vPlace]

theorem RegOnly.laneCells {c c' : Clutch} (h : RegOnly c c') (wide : Bool) (d : Reg) (n : Nat) :
    laneCells c' wide d n = laneCells c wide d n := by
  cases d <;> simp [Machine.laneCells, Machine.placeOf, placeHi, h.vPlace]

theorem vPlace_succ_ne (c : Clutch) (i j : Nat) : vPlace c i (j + 1) ≠ vPlace c i j := by
  simp only [vPlace, stackWord]
  split <;> split <;> simp_all
  omega

/-- Writing one lane of a destination. -/
theorem wr_spec (c : Clutch) (n : Nat) (wide : Bool) (d : Reg) (x : Nat) :
    RegOnly c (wr c n wide d x) ∧
    (∀ e, e ∉ (laneCells c wide d n).map (·.1) → cell (wr c n wide d x) e = cell c e) ∧
    (∀ e ∈ laneCells c wide d n, cell (wr c n wide d x) e.1 = (some (stored c e.1 (BitVec.ofNat 32 (x / 2 ^ (32 * e.2.2)))), false)) := by
  have one : ∀ p : Dst, RegOnly c (setPlace c p (BitVec.ofNat 32 x)) := fun p => regOnly_setPlace c p _
  cases d with
  | v j =>
    cases wide with
    | false =>
      refine ⟨one _, fun e he => ?_, fun e he => ?_⟩
      · simp [laneCells, placeOf] at he
        simp [wr, setV, cell_setPlace, he]
      · simp [laneCells, placeOf] at he
        subst he
        simp [wr, setV, cell_setPlace]
    | true =>
      have h1 := one (vPlace c n j.val)
      have hv : vPlace (setPlace c (vPlace c n j.val) (BitVec.ofNat 32 x)) n (j.val + 1) = vPlace c n (j.val + 1) := h1.vPlace _ _
      have ne := vPlace_succ_ne c n j.val
      refine ⟨h1.trans (regOnly_setPlace _ _ _), fun e he => ?_, fun e he => ?_⟩
      · simp [laneCells, placeOf, placeHi] at he
        simp [wr, setV, hv, cell_setPlace, he]
      · simp [laneCells, placeOf, placeHi] at he
        rcases he with he | he
        · subst he
          simp [wr, setV, hv, cell_setPlace, ne.symm]
        · subst he
          simp [wr, setV, hv, cell_setPlace, h1.stored]
  | s j =>
    cases wide with
    | false =>
      refine ⟨one (.s j.val), fun e he => ?_, fun e he => ?_⟩
      · simp [laneCells, placeOf] at he
        simp [wr, setS, cell_setPlace, he]
      · simp [laneCells, placeOf] at he
        subst he
        simp [wr, setS, cell_setPlace]
    | true =>
      have h1 := one (.s j.val)
      refine ⟨h1.trans (regOnly_setPlace _ (.s (j.val + 1)) (BitVec.ofNat 32 (x / 2 ^ 32))), fun e he => ?_, fun e he => ?_⟩
      · simp [laneCells, placeOf, placeHi] at he
        simp [wr, setS, cell_setPlace, he]
      · simp [laneCells, placeOf, placeHi] at he
        rcases he with he | he
        · subst he
          simp [wr, setS, cell_setPlace]
        · subst he
          simp [wr, setS, cell_setPlace, h1.stored]
  | k j =>
    refine ⟨one (.k j.val), fun e he => ?_, fun e he => ?_⟩
    · simp [laneCells, placeOf, placeHi] at he
      simp [wr, setK, cell_setPlace, he]
    · simp [laneCells, placeOf, placeHi] at he
      subst he
      simp [wr, setK, cell_setPlace]
  | a j => exact ⟨.refl c, fun _ _ => rfl, fun e he => by simp [laneCells, placeOf, placeHi] at he⟩
  | zero => exact ⟨.refl c, fun _ _ => rfl, fun e he => by simp [laneCells, placeOf, placeHi] at he⟩
  | lane => exact ⟨.refl c, fun _ _ => rfl, fun e he => by simp [laneCells, placeOf, placeHi] at he⟩

/-- The lane a vector place belongs to. -/
theorem laneCells_lane {c : Clutch} {wide : Bool} {d : Reg} (hd : isVec d = true) {n m : Nat} {e f : Dst × Nat × Nat}
    (he : e ∈ laneCells c wide d n) (hf : f ∈ laneCells c wide d m) (h : e.1 = f.1) : n = m := by
  cases d <;> simp [isVec] at hd
  simp only [laneCells, placeOf, placeHi, vPlace, Option.toList, List.map_cons, List.map_nil] at he hf
  cases wide <;> simp at he hf
  · subst he; subst hf; revert h; split <;> simp <;> tauto
  · rcases he with rfl | rfl <;> rcases hf with rfl | rfl <;> revert h <;> split <;> (try split) <;> simp <;> tauto

theorem foldl_wr (c : Clutch) (wide : Bool) (d : Reg) (hd : isVec d = true) (f : Nat → Nat) (l : List Nat) (hl : l.Nodup) :
    let c' := l.foldl (fun c i => wr c i wide d (f i)) c
    RegOnly c c' ∧ (∀ e, e ∉ (l.flatMap (laneCells c wide d)).map (·.1) → cell c' e = cell c e) ∧
    (∀ e ∈ l.flatMap (laneCells c wide d), e.2.1 ∈ l → cell c' e.1 = (some (stored c e.1 (BitVec.ofNat 32 (f e.2.1 / 2 ^ (32 * e.2.2)))), false)) := by
  induction l generalizing c with
  | nil => exact ⟨.refl c, fun _ _ => rfl, fun e he => by simp at he⟩
  | cons i l ih =>
    simp only [List.foldl_cons]
    obtain ⟨w1, w2, w3⟩ := wr_spec c i wide d (f i)
    obtain ⟨h1, h2, h3⟩ := ih (wr c i wide d (f i)) (List.nodup_cons.1 hl).2
    have hc : ∀ n, laneCells (wr c i wide d (f i)) wide d n = laneCells c wide d n := w1.laneCells wide d
    have hfm : l.flatMap (laneCells (wr c i wide d (f i)) wide d) = l.flatMap (laneCells c wide d) := by
      congr 1; funext n; exact hc n
    rw [hfm] at h2 h3
    refine ⟨w1.trans h1, fun e he => ?_, fun e he hm => ?_⟩
    · simp only [List.flatMap_cons, List.map_append, List.mem_append, not_or] at he
      rw [h2 e he.2, w2 e he.1]
    · simp only [List.flatMap_cons, List.mem_append] at he
      have lane : ∀ n, e ∈ laneCells c wide d n → e.2.1 = n := by
        intro n hn
        simp only [laneCells, List.mem_append, List.mem_map] at hn
        rcases hn with ⟨_, _, rfl⟩ | hn
        · rfl
        · cases wide <;> simp at hn
          obtain ⟨_, _, rfl⟩ := hn; rfl
      by_cases hel : e ∈ l.flatMap (laneCells c wide d)
      · obtain ⟨m, hm1, hm2⟩ := List.mem_flatMap.1 hel
        have := h3 e hel (by rw [lane m hm2]; exact hm1)
        rw [this, w1.stored]
      · rcases he with he | he
        · have hi := lane i he
          rw [h2 e.1, w3 e he, hi]
          intro hmem
          obtain ⟨g, hg, hg2⟩ := List.mem_map.1 hmem
          obtain ⟨m, hm1, hm2⟩ := List.mem_flatMap.1 hg
          have := laneCells_lane hd he hm2 hg2.symm
          subst this
          exact (List.nodup_cons.1 hl).1 hm1
        · exact absurd he hel

/-- Writing one result per executing lane. -/
theorem wrAll_spec (c : Clutch) (ex : Mask) (wide : Bool) (d : Reg) (f : Nat → Nat) :
    RegOnly c (wrAll c ex wide d f) ∧ (∀ e, e ∉ destPlaces c ex wide d → cell (wrAll c ex wide d f) e = cell c e) ∧
    Holds c (wrAll c ex wide d f) ex wide d f := by
  have lane : ∀ (n : Nat) (e : Dst × Nat × Nat), e ∈ laneCells c wide d n → e.2.1 = n := by
    intro n e hn
    simp only [laneCells, List.mem_append, List.mem_map] at hn
    rcases hn with ⟨_, _, rfl⟩ | hn
    · rfl
    · cases wide <;> simp at hn
      obtain ⟨_, _, rfl⟩ := hn; rfl
  unfold wrAll Holds destPlaces destCells
  by_cases hd : isVec d = true
  · simp only [hd, if_true]
    obtain ⟨h1, h2, h3⟩ := foldl_wr c wide d hd f (lanesOf ex) (nodup_lanesOf ex)
    refine ⟨h1, h2, fun e he => h3 e he ?_⟩
    obtain ⟨m, hm1, hm2⟩ := List.mem_flatMap.1 he
    rw [lane m e hm2]; exact hm1
  · simp only [hd]
    obtain ⟨h1, h2, h3⟩ := wr_spec c (lowLane ex) wide d (f (lowLane ex))
    simp only [Bool.false_eq_true, if_false, List.flatMap_cons, List.flatMap_nil, List.append_nil]
    exact ⟨h1, h2, fun e he => by rw [h3 e he, lane _ e he]⟩

end Sys2Proof.Machine
end

