-- ==== Sys2Proof/Laws/Alu.lean ====
section
/-! SUPPORT. A ready word that writes registers at once completes: its destination holds the results, its flags are merged, and
nothing else changes (05 R172, 09 R314). -/

namespace Sys2Proof.Machine

theorem issueOf_clutch {c : Clutch} {p : Issue} (h : issueOf c = some p) :
    p.c = c ∨ p.c = { c with rot := false, rc := 0 } := by
  unfold issueOf at h
  dsimp only at h
  split at h
  · exact absurd h (by simp)
  · simp only [Option.some.injEq] at h
    subst h
    dsimp only
    split
    · exact .inr rfl
    · exact .inl rfl

theorem atIssue_book {c : Clutch} {p : Issue} (h : issueOf c = some p) : Book c (atIssue p) := by
  unfold atIssue
  rcases issueOf_clutch h with e | e <;> rw [e] <;> exact ⟨rfl, rfl, rfl, rfl, fun _ => rfl⟩

theorem atIssue_pc {c : Clutch} {p : Issue} (h : issueOf c = some p) (n : Nat) : laneAt (atIssue p) n = laneAt c n := by
  unfold atIssue
  rcases issueOf_clutch h with e | e <;> rw [e] <;> rfl

/-- A ready word whose own effect is done completes. -/
theorem Ready.after {s : State} {i : Instr} {w : WordInfo} {p : Issue} (h : Ready s i w p) {body : Ctx → State → Res}
    {u : State} {j : Mask} (hb : body (wordCtx s w p) (entry s p) = .done u j) :
    After s u (runWord s i w false body) p (clutchAt u s.cur) j := by
  rw [h.runWord_done hb]
  obtain ⟨c2, h1, h2, h3, h4⟩ := finish_spec u (wordCtx s w p) w (atIssue p) j
  rw [h1]
  have hcid : (wordCtx s w p).cid = s.cur := rfl
  rw [hcid] at h2 h3 h4 ⊢
  exact ⟨by simp, by simpa using h2, fun n => by rw [clutchAt_setClutch_self]; exact h3 n, by simpa using h4⟩

/-- A word whose effect is a change of registers of its own clutch completes. -/
theorem Ready.completes {s : State} {i : Instr} {w : WordInfo} {p : Issue} (h : Ready s i w p) {body : Ctx → State → Res}
    {u : State} {c' : Clutch} {dst : List Dst} (hb : body (wordCtx s w p) (entry s p) = .done (setClutch u s.cur c') 0)
    (hk : Kept (atIssue p) c' dst) (hp : ∀ n, (laneAt c' n).pc = (laneAt (atIssue p) n).pc) (hr : c'.region = none) :
    ∃ t, runWord s i w false body = t ∧ Completes s u t p dst ∧ Book c' (clutchAt t s.cur) := by
  refine ⟨_, rfl, ?_⟩
  have ha := h.after hb
  generalize runWord s i w false body = t at ha
  obtain ⟨h1, h2, h3, h4⟩ := ha
  rw [clutchAt_setClutch_self] at h2 h3 h4
  rw [setClutch_setClutch] at h1
  have hb0 := atIssue_book h.issue
  refine ⟨⟨h1, ((hb0.kept.trans hk).trans h2.kept).mono (by simp), fun n => ?_, h4 hr⟩, h2⟩
  rw [h3 n, hp n, atIssue_pc h.issue]
  rw [show (~~~(0 : Mask)) = BitVec.allOnes 32 from rfl, BitVec.and_allOnes]

/-- A ready word of the arithmetic shape completes with its results. -/
theorem Ready.alu {s : State} {i : Instr} {w : WordInfo} {p : Issue} (h : Ready s i w p) (d : Reg) (wide : Bool)
    (f : State → Clutch → Nat → Nat × Fl) :
    ∃ t, runWord s i w false (aluWord d wide f) = t ∧
      Completes s s t p (destPlaces (atIssue p) (exLanes w p) wide d) ∧
      Holds (atIssue p) (clutchAt t s.cur) (exLanes w p) wide d (fun n => (f (entry s p) (atIssue p) n).1) ∧
      (clutchAt t s.cur).flags = p.c.flags ||| mergeFl (exLanes w p) (fun n => (f (entry s p) (atIssue p) n).2) := by
  have hw := wrAll_spec (atIssue p) (exLanes w p) wide d (fun n => (f (entry s p) (atIssue p) n).1)
  have hb : aluWord d wide f (wordCtx s w p) (entry s p) = .done (setClutch s s.cur
      { wrAll (atIssue p) (exLanes w p) wide d (fun n => (f (entry s p) (atIssue p) n).1) with
        flags := (wrAll (atIssue p) (exLanes w p) wide d (fun n => (f (entry s p) (atIssue p) n).1)).flags |||
          mergeFl (exLanes w p) (fun n => (f (entry s p) (atIssue p) n).2) }) 0 := by
    have he : clutchAt (entry s p) s.cur = atIssue p := by simp [entry]
    unfold aluWord
    dsimp only [wordCtx]
    rw [he]
    unfold entry
    rw [setClutch_setClutch]
    rfl
  revert hw hb
  generalize wrAll (atIssue p) (exLanes w p) wide d (fun n => (f (entry s p) (atIssue p) n).1) = c1
  intro ⟨w1, w2, w3⟩ hb
  have hk : Kept (atIssue p) { c1 with flags := c1.flags ||| mergeFl (exLanes w p) (fun n => (f (entry s p) (atIssue p) n).2) }
      (destPlaces (atIssue p) (exLanes w p) wide d) := by
    refine ⟨fun e he => ?_, w1.lanes, w1.rest⟩
    rw [← w2 e he]
    cases e <;> rfl
  obtain ⟨t, h1, h2, h3⟩ := h.completes hb hk w1.pcs (w1.region.trans h.region)
  refine ⟨t, h1, h2, fun e hm => ?_, ?_⟩
  · rw [h3.cell, ← w3 e hm]
    cases e.1 <;> rfl
  · rw [h3.flags]
    show c1.flags ||| _ = _
    rw [w1.flags]
    rfl

end Sys2Proof.Machine
end

