-- ==== Sys2Proof/Laws/State.lean ====
section
/-! SUPPORT. What each update of the state leaves as it is: one lemma for each field of each update, and the value read back. An
update by a function is first an update by a value. -/

namespace Sys2Proof.Machine

set_option Elab.async false

/-! ### Updates by a function -/

theorem modClutch_def (s : State) (n : Nat) (f : Clutch → Clutch) : modClutch s n f = setClutch s n (f (clutchAt s n)) := rfl
theorem modCol_def (s : State) (n : Nat) (f : Column → Column) : modCol s n f = setCol s n (f (colAt s n)) := rfl
theorem modTask_some {s : State} {n : Nat} {x : Task} (h : taskAt s n = some x) (f : Task → Task) : modTask s n f = setTask s n (f x) := by
  simp [modTask, h]
theorem modTask_none {s : State} {n : Nat} (h : taskAt s n = none) (f : Task → Task) : modTask s n f = s := by simp [modTask, h]

/-! ### `setClutch` -/

@[simp] theorem setClutch_mem (s : State) (n : Nat) (c : Clutch) : (setClutch s n c).mem = s.mem := rfl
@[simp] theorem setClutch_poison (s : State) (n : Nat) (c : Clutch) : (setClutch s n c).poison = s.poison := rfl
@[simp] theorem setClutch_bankErr (s : State) (n : Nat) (c : Clutch) : (setClutch s n c).bankErr = s.bankErr := rfl
@[simp] theorem setClutch_scratch (s : State) (n : Nat) (c : Clutch) : (setClutch s n c).scratch = s.scratch := rfl
@[simp] theorem setClutch_tsc (s : State) (n : Nat) (c : Clutch) : (setClutch s n c).tsc = s.tsc := rfl
@[simp] theorem setClutch_tasks (s : State) (n : Nat) (c : Clutch) : (setClutch s n c).tasks = s.tasks := rfl
@[simp] theorem setClutch_gangs (s : State) (n : Nat) (c : Clutch) : (setClutch s n c).gangs = s.gangs := rfl
@[simp] theorem setClutch_launches (s : State) (n : Nat) (c : Clutch) : (setClutch s n c).launches = s.launches := rfl
@[simp] theorem setClutch_lines (s : State) (n : Nat) (c : Clutch) : (setClutch s n c).lines = s.lines := rfl
@[simp] theorem setClutch_cmds (s : State) (n : Nat) (c : Clutch) : (setClutch s n c).cmds = s.cmds := rfl
@[simp] theorem setClutch_l1 (s : State) (n : Nat) (c : Clutch) : (setClutch s n c).l1 = s.l1 := rfl
@[simp] theorem setClutch_icache (s : State) (n : Nat) (c : Clutch) : (setClutch s n c).icache = s.icache := rfl
@[simp] theorem setClutch_toks (s : State) (n : Nat) (c : Clutch) : (setClutch s n c).toks = s.toks := rfl
@[simp] theorem setClutch_hostHas (s : State) (n : Nat) (c : Clutch) : (setClutch s n c).hostHas = s.hostHas := rfl
@[simp] theorem setClutch_msgs (s : State) (n : Nat) (c : Clutch) : (setClutch s n c).msgs = s.msgs := rfl
@[simp] theorem setClutch_tlb (s : State) (n : Nat) (c : Clutch) : (setClutch s n c).tlb = s.tlb := rfl
@[simp] theorem setClutch_extCache (s : State) (n : Nat) (c : Clutch) : (setClutch s n c).extCache = s.extCache := rfl
@[simp] theorem setClutch_sync (s : State) (n : Nat) (c : Clutch) : (setClutch s n c).sync = s.sync := rfl
@[simp] theorem setClutch_cols (s : State) (n : Nat) (c : Clutch) : (setClutch s n c).cols = s.cols := rfl
@[simp] theorem setClutch_cores (s : State) (n : Nat) (c : Clutch) : (setClutch s n c).cores = s.cores := rfl
@[simp] theorem setClutch_fifos (s : State) (n : Nat) (c : Clutch) : (setClutch s n c).fifos = s.fifos := rfl
@[simp] theorem setClutch_promo (s : State) (n : Nat) (c : Clutch) : (setClutch s n c).promo = s.promo := rfl
@[simp] theorem setClutch_links (s : State) (n : Nat) (c : Clutch) : (setClutch s n c).links = s.links := rfl
@[simp] theorem setClutch_uals (s : State) (n : Nat) (c : Clutch) : (setClutch s n c).uals = s.uals := rfl
@[simp] theorem setClutch_ethRate (s : State) (n : Nat) (c : Clutch) : (setClutch s n c).ethRate = s.ethRate := rfl
@[simp] theorem setClutch_pager (s : State) (n : Nat) (c : Clutch) : (setClutch s n c).pager = s.pager := rfl
@[simp] theorem setClutch_ctxs (s : State) (n : Nat) (c : Clutch) : (setClutch s n c).ctxs = s.ctxs := rfl
@[simp] theorem setClutch_weights (s : State) (n : Nat) (c : Clutch) : (setClutch s n c).weights = s.weights := rfl
@[simp] theorem setClutch_power (s : State) (n : Nat) (c : Clutch) : (setClutch s n c).power = s.power := rfl
@[simp] theorem setClutch_parts (s : State) (n : Nat) (c : Clutch) : (setClutch s n c).parts = s.parts := rfl
@[simp] theorem setClutch_mgmt (s : State) (n : Nat) (c : Clutch) : (setClutch s n c).mgmt = s.mgmt := rfl
@[simp] theorem setClutch_boot (s : State) (n : Nat) (c : Clutch) : (setClutch s n c).boot = s.boot := rfl
@[simp] theorem setClutch_bootSrc (s : State) (n : Nat) (c : Clutch) : (setClutch s n c).bootSrc = s.bootSrc := rfl
@[simp] theorem setClutch_image (s : State) (n : Nat) (c : Clutch) : (setClutch s n c).image = s.image := rfl
@[simp] theorem setClutch_pkg (s : State) (n : Nat) (c : Clutch) : (setClutch s n c).pkg = s.pkg := rfl
@[simp] theorem setClutch_emerg (s : State) (n : Nat) (c : Clutch) : (setClutch s n c).emerg = s.emerg := rfl
@[simp] theorem setClutch_msix (s : State) (n : Nat) (c : Clutch) : (setClutch s n c).msix = s.msix := rfl
@[simp] theorem setClutch_reply (s : State) (n : Nat) (c : Clutch) : (setClutch s n c).reply = s.reply := rfl
@[simp] theorem setClutch_issuing (s : State) (n : Nat) (c : Clutch) : (setClutch s n c).issuing = s.issuing := rfl
@[simp] theorem setClutch_agenda (s : State) (n : Nat) (c : Clutch) : (setClutch s n c).agenda = s.agenda := rfl
@[simp] theorem setClutch_fresh (s : State) (n : Nat) (c : Clutch) : (setClutch s n c).fresh = s.fresh := rfl

/-! ### `setTask` -/

@[simp] theorem setTask_mem (s : State) (n : Nat) (x : Task) : (setTask s n x).mem = s.mem := rfl
@[simp] theorem setTask_poison (s : State) (n : Nat) (x : Task) : (setTask s n x).poison = s.poison := rfl
@[simp] theorem setTask_bankErr (s : State) (n : Nat) (x : Task) : (setTask s n x).bankErr = s.bankErr := rfl
@[simp] theorem setTask_scratch (s : State) (n : Nat) (x : Task) : (setTask s n x).scratch = s.scratch := rfl
@[simp] theorem setTask_tsc (s : State) (n : Nat) (x : Task) : (setTask s n x).tsc = s.tsc := rfl
@[simp] theorem setTask_clutches (s : State) (n : Nat) (x : Task) : (setTask s n x).clutches = s.clutches := rfl
@[simp] theorem setTask_gangs (s : State) (n : Nat) (x : Task) : (setTask s n x).gangs = s.gangs := rfl
@[simp] theorem setTask_launches (s : State) (n : Nat) (x : Task) : (setTask s n x).launches = s.launches := rfl
@[simp] theorem setTask_lines (s : State) (n : Nat) (x : Task) : (setTask s n x).lines = s.lines := rfl
@[simp] theorem setTask_cmds (s : State) (n : Nat) (x : Task) : (setTask s n x).cmds = s.cmds := rfl
@[simp] theorem setTask_l1 (s : State) (n : Nat) (x : Task) : (setTask s n x).l1 = s.l1 := rfl
@[simp] theorem setTask_icache (s : State) (n : Nat) (x : Task) : (setTask s n x).icache = s.icache := rfl
@[simp] theorem setTask_toks (s : State) (n : Nat) (x : Task) : (setTask s n x).toks = s.toks := rfl
@[simp] theorem setTask_hostHas (s : State) (n : Nat) (x : Task) : (setTask s n x).hostHas = s.hostHas := rfl
@[simp] theorem setTask_msgs (s : State) (n : Nat) (x : Task) : (setTask s n x).msgs = s.msgs := rfl
@[simp] theorem setTask_tlb (s : State) (n : Nat) (x : Task) : (setTask s n x).tlb = s.tlb := rfl
@[simp] theorem setTask_extCache (s : State) (n : Nat) (x : Task) : (setTask s n x).extCache = s.extCache := rfl
@[simp] theorem setTask_sync (s : State) (n : Nat) (x : Task) : (setTask s n x).sync = s.sync := rfl
@[simp] theorem setTask_cols (s : State) (n : Nat) (x : Task) : (setTask s n x).cols = s.cols := rfl
@[simp] theorem setTask_cores (s : State) (n : Nat) (x : Task) : (setTask s n x).cores = s.cores := rfl
@[simp] theorem setTask_fifos (s : State) (n : Nat) (x : Task) : (setTask s n x).fifos = s.fifos := rfl
@[simp] theorem setTask_promo (s : State) (n : Nat) (x : Task) : (setTask s n x).promo = s.promo := rfl
@[simp] theorem setTask_links (s : State) (n : Nat) (x : Task) : (setTask s n x).links = s.links := rfl
@[simp] theorem setTask_uals (s : State) (n : Nat) (x : Task) : (setTask s n x).uals = s.uals := rfl
@[simp] theorem setTask_ethRate (s : State) (n : Nat) (x : Task) : (setTask s n x).ethRate = s.ethRate := rfl
@[simp] theorem setTask_pager (s : State) (n : Nat) (x : Task) : (setTask s n x).pager = s.pager := rfl
@[simp] theorem setTask_ctxs (s : State) (n : Nat) (x : Task) : (setTask s n x).ctxs = s.ctxs := rfl
@[simp] theorem setTask_weights (s : State) (n : Nat) (x : Task) : (setTask s n x).weights = s.weights := rfl
@[simp] theorem setTask_power (s : State) (n : Nat) (x : Task) : (setTask s n x).power = s.power := rfl
@[simp] theorem setTask_parts (s : State) (n : Nat) (x : Task) : (setTask s n x).parts = s.parts := rfl
@[simp] theorem setTask_mgmt (s : State) (n : Nat) (x : Task) : (setTask s n x).mgmt = s.mgmt := rfl
@[simp] theorem setTask_boot (s : State) (n : Nat) (x : Task) : (setTask s n x).boot = s.boot := rfl
@[simp] theorem setTask_bootSrc (s : State) (n : Nat) (x : Task) : (setTask s n x).bootSrc = s.bootSrc := rfl
@[simp] theorem setTask_image (s : State) (n : Nat) (x : Task) : (setTask s n x).image = s.image := rfl
@[simp] theorem setTask_pkg (s : State) (n : Nat) (x : Task) : (setTask s n x).pkg = s.pkg := rfl
@[simp] theorem setTask_emerg (s : State) (n : Nat) (x : Task) : (setTask s n x).emerg = s.emerg := rfl
@[simp] theorem setTask_msix (s : State) (n : Nat) (x : Task) : (setTask s n x).msix = s.msix := rfl
@[simp] theorem setTask_reply (s : State) (n : Nat) (x : Task) : (setTask s n x).reply = s.reply := rfl
@[simp] theorem setTask_cur (s : State) (n : Nat) (x : Task) : (setTask s n x).cur = s.cur := rfl
@[simp] theorem setTask_issuing (s : State) (n : Nat) (x : Task) : (setTask s n x).issuing = s.issuing := rfl
@[simp] theorem setTask_agenda (s : State) (n : Nat) (x : Task) : (setTask s n x).agenda = s.agenda := rfl
@[simp] theorem setTask_fresh (s : State) (n : Nat) (x : Task) : (setTask s n x).fresh = s.fresh := rfl

/-! ### `setGang` -/

@[simp] theorem setGang_mem (s : State) (n : Nat) (x : Gang) : (setGang s n x).mem = s.mem := rfl
@[simp] theorem setGang_poison (s : State) (n : Nat) (x : Gang) : (setGang s n x).poison = s.poison := rfl
@[simp] theorem setGang_bankErr (s : State) (n : Nat) (x : Gang) : (setGang s n x).bankErr = s.bankErr := rfl
@[simp] theorem setGang_scratch (s : State) (n : Nat) (x : Gang) : (setGang s n x).scratch = s.scratch := rfl
@[simp] theorem setGang_tsc (s : State) (n : Nat) (x : Gang) : (setGang s n x).tsc = s.tsc := rfl
@[simp] theorem setGang_clutches (s : State) (n : Nat) (x : Gang) : (setGang s n x).clutches = s.clutches := rfl
@[simp] theorem setGang_tasks (s : State) (n : Nat) (x : Gang) : (setGang s n x).tasks = s.tasks := rfl
@[simp] theorem setGang_launches (s : State) (n : Nat) (x : Gang) : (setGang s n x).launches = s.launches := rfl
@[simp] theorem setGang_lines (s : State) (n : Nat) (x : Gang) : (setGang s n x).lines = s.lines := rfl
@[simp] theorem setGang_cmds (s : State) (n : Nat) (x : Gang) : (setGang s n x).cmds = s.cmds := rfl
@[simp] theorem setGang_l1 (s : State) (n : Nat) (x : Gang) : (setGang s n x).l1 = s.l1 := rfl
@[simp] theorem setGang_icache (s : State) (n : Nat) (x : Gang) : (setGang s n x).icache = s.icache := rfl
@[simp] theorem setGang_toks (s : State) (n : Nat) (x : Gang) : (setGang s n x).toks = s.toks := rfl
@[simp] theorem setGang_hostHas (s : State) (n : Nat) (x : Gang) : (setGang s n x).hostHas = s.hostHas := rfl
@[simp] theorem setGang_msgs (s : State) (n : Nat) (x : Gang) : (setGang s n x).msgs = s.msgs := rfl
@[simp] theorem setGang_tlb (s : State) (n : Nat) (x : Gang) : (setGang s n x).tlb = s.tlb := rfl
@[simp] theorem setGang_extCache (s : State) (n : Nat) (x : Gang) : (setGang s n x).extCache = s.extCache := rfl
@[simp] theorem setGang_sync (s : State) (n : Nat) (x : Gang) : (setGang s n x).sync = s.sync := rfl
@[simp] theorem setGang_cols (s : State) (n : Nat) (x : Gang) : (setGang s n x).cols = s.cols := rfl
@[simp] theorem setGang_cores (s : State) (n : Nat) (x : Gang) : (setGang s n x).cores = s.cores := rfl
@[simp] theorem setGang_fifos (s : State) (n : Nat) (x : Gang) : (setGang s n x).fifos = s.fifos := rfl
@[simp] theorem setGang_promo (s : State) (n : Nat) (x : Gang) : (setGang s n x).promo = s.promo := rfl
@[simp] theorem setGang_links (s : State) (n : Nat) (x : Gang) : (setGang s n x).links = s.links := rfl
@[simp] theorem setGang_uals (s : State) (n : Nat) (x : Gang) : (setGang s n x).uals = s.uals := rfl
@[simp] theorem setGang_ethRate (s : State) (n : Nat) (x : Gang) : (setGang s n x).ethRate = s.ethRate := rfl
@[simp] theorem setGang_pager (s : State) (n : Nat) (x : Gang) : (setGang s n x).pager = s.pager := rfl
@[simp] theorem setGang_ctxs (s : State) (n : Nat) (x : Gang) : (setGang s n x).ctxs = s.ctxs := rfl
@[simp] theorem setGang_weights (s : State) (n : Nat) (x : Gang) : (setGang s n x).weights = s.weights := rfl
@[simp] theorem setGang_power (s : State) (n : Nat) (x : Gang) : (setGang s n x).power = s.power := rfl
@[simp] theorem setGang_parts (s : State) (n : Nat) (x : Gang) : (setGang s n x).parts = s.parts := rfl
@[simp] theorem setGang_mgmt (s : State) (n : Nat) (x : Gang) : (setGang s n x).mgmt = s.mgmt := rfl
@[simp] theorem setGang_boot (s : State) (n : Nat) (x : Gang) : (setGang s n x).boot = s.boot := rfl
@[simp] theorem setGang_bootSrc (s : State) (n : Nat) (x : Gang) : (setGang s n x).bootSrc = s.bootSrc := rfl
@[simp] theorem setGang_image (s : State) (n : Nat) (x : Gang) : (setGang s n x).image = s.image := rfl
@[simp] theorem setGang_pkg (s : State) (n : Nat) (x : Gang) : (setGang s n x).pkg = s.pkg := rfl
@[simp] theorem setGang_emerg (s : State) (n : Nat) (x : Gang) : (setGang s n x).emerg = s.emerg := rfl
@[simp] theorem setGang_msix (s : State) (n : Nat) (x : Gang) : (setGang s n x).msix = s.msix := rfl
@[simp] theorem setGang_reply (s : State) (n : Nat) (x : Gang) : (setGang s n x).reply = s.reply := rfl
@[simp] theorem setGang_cur (s : State) (n : Nat) (x : Gang) : (setGang s n x).cur = s.cur := rfl
@[simp] theorem setGang_issuing (s : State) (n : Nat) (x : Gang) : (setGang s n x).issuing = s.issuing := rfl
@[simp] theorem setGang_agenda (s : State) (n : Nat) (x : Gang) : (setGang s n x).agenda = s.agenda := rfl
@[simp] theorem setGang_fresh (s : State) (n : Nat) (x : Gang) : (setGang s n x).fresh = s.fresh := rfl

/-! ### `setLaunch` -/

@[simp] theorem setLaunch_mem (s : State) (n : Nat) (x : Launch) : (setLaunch s n x).mem = s.mem := rfl
@[simp] theorem setLaunch_poison (s : State) (n : Nat) (x : Launch) : (setLaunch s n x).poison = s.poison := rfl
@[simp] theorem setLaunch_bankErr (s : State) (n : Nat) (x : Launch) : (setLaunch s n x).bankErr = s.bankErr := rfl
@[simp] theorem setLaunch_scratch (s : State) (n : Nat) (x : Launch) : (setLaunch s n x).scratch = s.scratch := rfl
@[simp] theorem setLaunch_tsc (s : State) (n : Nat) (x : Launch) : (setLaunch s n x).tsc = s.tsc := rfl
@[simp] theorem setLaunch_clutches (s : State) (n : Nat) (x : Launch) : (setLaunch s n x).clutches = s.clutches := rfl
@[simp] theorem setLaunch_tasks (s : State) (n : Nat) (x : Launch) : (setLaunch s n x).tasks = s.tasks := rfl
@[simp] theorem setLaunch_gangs (s : State) (n : Nat) (x : Launch) : (setLaunch s n x).gangs = s.gangs := rfl
@[simp] theorem setLaunch_lines (s : State) (n : Nat) (x : Launch) : (setLaunch s n x).lines = s.lines := rfl
@[simp] theorem setLaunch_cmds (s : State) (n : Nat) (x : Launch) : (setLaunch s n x).cmds = s.cmds := rfl
@[simp] theorem setLaunch_l1 (s : State) (n : Nat) (x : Launch) : (setLaunch s n x).l1 = s.l1 := rfl
@[simp] theorem setLaunch_icache (s : State) (n : Nat) (x : Launch) : (setLaunch s n x).icache = s.icache := rfl
@[simp] theorem setLaunch_toks (s : State) (n : Nat) (x : Launch) : (setLaunch s n x).toks = s.toks := rfl
@[simp] theorem setLaunch_hostHas (s : State) (n : Nat) (x : Launch) : (setLaunch s n x).hostHas = s.hostHas := rfl
@[simp] theorem setLaunch_msgs (s : State) (n : Nat) (x : Launch) : (setLaunch s n x).msgs = s.msgs := rfl
@[simp] theorem setLaunch_tlb (s : State) (n : Nat) (x : Launch) : (setLaunch s n x).tlb = s.tlb := rfl
@[simp] theorem setLaunch_extCache (s : State) (n : Nat) (x : Launch) : (setLaunch s n x).extCache = s.extCache := rfl
@[simp] theorem setLaunch_sync (s : State) (n : Nat) (x : Launch) : (setLaunch s n x).sync = s.sync := rfl
@[simp] theorem setLaunch_cols (s : State) (n : Nat) (x : Launch) : (setLaunch s n x).cols = s.cols := rfl
@[simp] theorem setLaunch_cores (s : State) (n : Nat) (x : Launch) : (setLaunch s n x).cores = s.cores := rfl
@[simp] theorem setLaunch_fifos (s : State) (n : Nat) (x : Launch) : (setLaunch s n x).fifos = s.fifos := rfl
@[simp] theorem setLaunch_promo (s : State) (n : Nat) (x : Launch) : (setLaunch s n x).promo = s.promo := rfl
@[simp] theorem setLaunch_links (s : State) (n : Nat) (x : Launch) : (setLaunch s n x).links = s.links := rfl
@[simp] theorem setLaunch_uals (s : State) (n : Nat) (x : Launch) : (setLaunch s n x).uals = s.uals := rfl
@[simp] theorem setLaunch_ethRate (s : State) (n : Nat) (x : Launch) : (setLaunch s n x).ethRate = s.ethRate := rfl
@[simp] theorem setLaunch_pager (s : State) (n : Nat) (x : Launch) : (setLaunch s n x).pager = s.pager := rfl
@[simp] theorem setLaunch_ctxs (s : State) (n : Nat) (x : Launch) : (setLaunch s n x).ctxs = s.ctxs := rfl
@[simp] theorem setLaunch_weights (s : State) (n : Nat) (x : Launch) : (setLaunch s n x).weights = s.weights := rfl
@[simp] theorem setLaunch_power (s : State) (n : Nat) (x : Launch) : (setLaunch s n x).power = s.power := rfl
@[simp] theorem setLaunch_parts (s : State) (n : Nat) (x : Launch) : (setLaunch s n x).parts = s.parts := rfl
@[simp] theorem setLaunch_mgmt (s : State) (n : Nat) (x : Launch) : (setLaunch s n x).mgmt = s.mgmt := rfl
@[simp] theorem setLaunch_boot (s : State) (n : Nat) (x : Launch) : (setLaunch s n x).boot = s.boot := rfl
@[simp] theorem setLaunch_bootSrc (s : State) (n : Nat) (x : Launch) : (setLaunch s n x).bootSrc = s.bootSrc := rfl
@[simp] theorem setLaunch_image (s : State) (n : Nat) (x : Launch) : (setLaunch s n x).image = s.image := rfl
@[simp] theorem setLaunch_pkg (s : State) (n : Nat) (x : Launch) : (setLaunch s n x).pkg = s.pkg := rfl
@[simp] theorem setLaunch_emerg (s : State) (n : Nat) (x : Launch) : (setLaunch s n x).emerg = s.emerg := rfl
@[simp] theorem setLaunch_msix (s : State) (n : Nat) (x : Launch) : (setLaunch s n x).msix = s.msix := rfl
@[simp] theorem setLaunch_reply (s : State) (n : Nat) (x : Launch) : (setLaunch s n x).reply = s.reply := rfl
@[simp] theorem setLaunch_cur (s : State) (n : Nat) (x : Launch) : (setLaunch s n x).cur = s.cur := rfl
@[simp] theorem setLaunch_issuing (s : State) (n : Nat) (x : Launch) : (setLaunch s n x).issuing = s.issuing := rfl
@[simp] theorem setLaunch_agenda (s : State) (n : Nat) (x : Launch) : (setLaunch s n x).agenda = s.agenda := rfl
@[simp] theorem setLaunch_fresh (s : State) (n : Nat) (x : Launch) : (setLaunch s n x).fresh = s.fresh := rfl

/-! ### `setCmd` -/

@[simp] theorem setCmd_mem (s : State) (n : Nat) (x : Cmd) : (setCmd s n x).mem = s.mem := rfl
@[simp] theorem setCmd_poison (s : State) (n : Nat) (x : Cmd) : (setCmd s n x).poison = s.poison := rfl
@[simp] theorem setCmd_bankErr (s : State) (n : Nat) (x : Cmd) : (setCmd s n x).bankErr = s.bankErr := rfl
@[simp] theorem setCmd_scratch (s : State) (n : Nat) (x : Cmd) : (setCmd s n x).scratch = s.scratch := rfl
@[simp] theorem setCmd_tsc (s : State) (n : Nat) (x : Cmd) : (setCmd s n x).tsc = s.tsc := rfl
@[simp] theorem setCmd_clutches (s : State) (n : Nat) (x : Cmd) : (setCmd s n x).clutches = s.clutches := rfl
@[simp] theorem setCmd_tasks (s : State) (n : Nat) (x : Cmd) : (setCmd s n x).tasks = s.tasks := rfl
@[simp] theorem setCmd_gangs (s : State) (n : Nat) (x : Cmd) : (setCmd s n x).gangs = s.gangs := rfl
@[simp] theorem setCmd_launches (s : State) (n : Nat) (x : Cmd) : (setCmd s n x).launches = s.launches := rfl
@[simp] theorem setCmd_lines (s : State) (n : Nat) (x : Cmd) : (setCmd s n x).lines = s.lines := rfl
@[simp] theorem setCmd_l1 (s : State) (n : Nat) (x : Cmd) : (setCmd s n x).l1 = s.l1 := rfl
@[simp] theorem setCmd_icache (s : State) (n : Nat) (x : Cmd) : (setCmd s n x).icache = s.icache := rfl
@[simp] theorem setCmd_toks (s : State) (n : Nat) (x : Cmd) : (setCmd s n x).toks = s.toks := rfl
@[simp] theorem setCmd_hostHas (s : State) (n : Nat) (x : Cmd) : (setCmd s n x).hostHas = s.hostHas := rfl
@[simp] theorem setCmd_msgs (s : State) (n : Nat) (x : Cmd) : (setCmd s n x).msgs = s.msgs := rfl
@[simp] theorem setCmd_tlb (s : State) (n : Nat) (x : Cmd) : (setCmd s n x).tlb = s.tlb := rfl
@[simp] theorem setCmd_extCache (s : State) (n : Nat) (x : Cmd) : (setCmd s n x).extCache = s.extCache := rfl
@[simp] theorem setCmd_sync (s : State) (n : Nat) (x : Cmd) : (setCmd s n x).sync = s.sync := rfl
@[simp] theorem setCmd_cols (s : State) (n : Nat) (x : Cmd) : (setCmd s n x).cols = s.cols := rfl
@[simp] theorem setCmd_cores (s : State) (n : Nat) (x : Cmd) : (setCmd s n x).cores = s.cores := rfl
@[simp] theorem setCmd_fifos (s : State) (n : Nat) (x : Cmd) : (setCmd s n x).fifos = s.fifos := rfl
@[simp] theorem setCmd_promo (s : State) (n : Nat) (x : Cmd) : (setCmd s n x).promo = s.promo := rfl
@[simp] theorem setCmd_links (s : State) (n : Nat) (x : Cmd) : (setCmd s n x).links = s.links := rfl
@[simp] theorem setCmd_uals (s : State) (n : Nat) (x : Cmd) : (setCmd s n x).uals = s.uals := rfl
@[simp] theorem setCmd_ethRate (s : State) (n : Nat) (x : Cmd) : (setCmd s n x).ethRate = s.ethRate := rfl
@[simp] theorem setCmd_pager (s : State) (n : Nat) (x : Cmd) : (setCmd s n x).pager = s.pager := rfl
@[simp] theorem setCmd_ctxs (s : State) (n : Nat) (x : Cmd) : (setCmd s n x).ctxs = s.ctxs := rfl
@[simp] theorem setCmd_weights (s : State) (n : Nat) (x : Cmd) : (setCmd s n x).weights = s.weights := rfl
@[simp] theorem setCmd_power (s : State) (n : Nat) (x : Cmd) : (setCmd s n x).power = s.power := rfl
@[simp] theorem setCmd_parts (s : State) (n : Nat) (x : Cmd) : (setCmd s n x).parts = s.parts := rfl
@[simp] theorem setCmd_mgmt (s : State) (n : Nat) (x : Cmd) : (setCmd s n x).mgmt = s.mgmt := rfl
@[simp] theorem setCmd_boot (s : State) (n : Nat) (x : Cmd) : (setCmd s n x).boot = s.boot := rfl
@[simp] theorem setCmd_bootSrc (s : State) (n : Nat) (x : Cmd) : (setCmd s n x).bootSrc = s.bootSrc := rfl
@[simp] theorem setCmd_image (s : State) (n : Nat) (x : Cmd) : (setCmd s n x).image = s.image := rfl
@[simp] theorem setCmd_pkg (s : State) (n : Nat) (x : Cmd) : (setCmd s n x).pkg = s.pkg := rfl
@[simp] theorem setCmd_emerg (s : State) (n : Nat) (x : Cmd) : (setCmd s n x).emerg = s.emerg := rfl
@[simp] theorem setCmd_msix (s : State) (n : Nat) (x : Cmd) : (setCmd s n x).msix = s.msix := rfl
@[simp] theorem setCmd_reply (s : State) (n : Nat) (x : Cmd) : (setCmd s n x).reply = s.reply := rfl
@[simp] theorem setCmd_cur (s : State) (n : Nat) (x : Cmd) : (setCmd s n x).cur = s.cur := rfl
@[simp] theorem setCmd_issuing (s : State) (n : Nat) (x : Cmd) : (setCmd s n x).issuing = s.issuing := rfl
@[simp] theorem setCmd_agenda (s : State) (n : Nat) (x : Cmd) : (setCmd s n x).agenda = s.agenda := rfl
@[simp] theorem setCmd_fresh (s : State) (n : Nat) (x : Cmd) : (setCmd s n x).fresh = s.fresh := rfl

/-! ### `setCol` -/

@[simp] theorem setCol_mem (s : State) (n : Nat) (x : Column) : (setCol s n x).mem = s.mem := rfl
@[simp] theorem setCol_poison (s : State) (n : Nat) (x : Column) : (setCol s n x).poison = s.poison := rfl
@[simp] theorem setCol_bankErr (s : State) (n : Nat) (x : Column) : (setCol s n x).bankErr = s.bankErr := rfl
@[simp] theorem setCol_scratch (s : State) (n : Nat) (x : Column) : (setCol s n x).scratch = s.scratch := rfl
@[simp] theorem setCol_tsc (s : State) (n : Nat) (x : Column) : (setCol s n x).tsc = s.tsc := rfl
@[simp] theorem setCol_clutches (s : State) (n : Nat) (x : Column) : (setCol s n x).clutches = s.clutches := rfl
@[simp] theorem setCol_tasks (s : State) (n : Nat) (x : Column) : (setCol s n x).tasks = s.tasks := rfl
@[simp] theorem setCol_gangs (s : State) (n : Nat) (x : Column) : (setCol s n x).gangs = s.gangs := rfl
@[simp] theorem setCol_launches (s : State) (n : Nat) (x : Column) : (setCol s n x).launches = s.launches := rfl
@[simp] theorem setCol_lines (s : State) (n : Nat) (x : Column) : (setCol s n x).lines = s.lines := rfl
@[simp] theorem setCol_cmds (s : State) (n : Nat) (x : Column) : (setCol s n x).cmds = s.cmds := rfl
@[simp] theorem setCol_l1 (s : State) (n : Nat) (x : Column) : (setCol s n x).l1 = s.l1 := rfl
@[simp] theorem setCol_icache (s : State) (n : Nat) (x : Column) : (setCol s n x).icache = s.icache := rfl
@[simp] theorem setCol_toks (s : State) (n : Nat) (x : Column) : (setCol s n x).toks = s.toks := rfl
@[simp] theorem setCol_hostHas (s : State) (n : Nat) (x : Column) : (setCol s n x).hostHas = s.hostHas := rfl
@[simp] theorem setCol_msgs (s : State) (n : Nat) (x : Column) : (setCol s n x).msgs = s.msgs := rfl
@[simp] theorem setCol_tlb (s : State) (n : Nat) (x : Column) : (setCol s n x).tlb = s.tlb := rfl
@[simp] theorem setCol_extCache (s : State) (n : Nat) (x : Column) : (setCol s n x).extCache = s.extCache := rfl
@[simp] theorem setCol_sync (s : State) (n : Nat) (x : Column) : (setCol s n x).sync = s.sync := rfl
@[simp] theorem setCol_cores (s : State) (n : Nat) (x : Column) : (setCol s n x).cores = s.cores := rfl
@[simp] theorem setCol_fifos (s : State) (n : Nat) (x : Column) : (setCol s n x).fifos = s.fifos := rfl
@[simp] theorem setCol_promo (s : State) (n : Nat) (x : Column) : (setCol s n x).promo = s.promo := rfl
@[simp] theorem setCol_links (s : State) (n : Nat) (x : Column) : (setCol s n x).links = s.links := rfl
@[simp] theorem setCol_uals (s : State) (n : Nat) (x : Column) : (setCol s n x).uals = s.uals := rfl
@[simp] theorem setCol_ethRate (s : State) (n : Nat) (x : Column) : (setCol s n x).ethRate = s.ethRate := rfl
@[simp] theorem setCol_pager (s : State) (n : Nat) (x : Column) : (setCol s n x).pager = s.pager := rfl
@[simp] theorem setCol_ctxs (s : State) (n : Nat) (x : Column) : (setCol s n x).ctxs = s.ctxs := rfl
@[simp] theorem setCol_weights (s : State) (n : Nat) (x : Column) : (setCol s n x).weights = s.weights := rfl
@[simp] theorem setCol_power (s : State) (n : Nat) (x : Column) : (setCol s n x).power = s.power := rfl
@[simp] theorem setCol_parts (s : State) (n : Nat) (x : Column) : (setCol s n x).parts = s.parts := rfl
@[simp] theorem setCol_mgmt (s : State) (n : Nat) (x : Column) : (setCol s n x).mgmt = s.mgmt := rfl
@[simp] theorem setCol_boot (s : State) (n : Nat) (x : Column) : (setCol s n x).boot = s.boot := rfl
@[simp] theorem setCol_bootSrc (s : State) (n : Nat) (x : Column) : (setCol s n x).bootSrc = s.bootSrc := rfl
@[simp] theorem setCol_image (s : State) (n : Nat) (x : Column) : (setCol s n x).image = s.image := rfl
@[simp] theorem setCol_pkg (s : State) (n : Nat) (x : Column) : (setCol s n x).pkg = s.pkg := rfl
@[simp] theorem setCol_emerg (s : State) (n : Nat) (x : Column) : (setCol s n x).emerg = s.emerg := rfl
@[simp] theorem setCol_msix (s : State) (n : Nat) (x : Column) : (setCol s n x).msix = s.msix := rfl
@[simp] theorem setCol_reply (s : State) (n : Nat) (x : Column) : (setCol s n x).reply = s.reply := rfl
@[simp] theorem setCol_cur (s : State) (n : Nat) (x : Column) : (setCol s n x).cur = s.cur := rfl
@[simp] theorem setCol_issuing (s : State) (n : Nat) (x : Column) : (setCol s n x).issuing = s.issuing := rfl
@[simp] theorem setCol_agenda (s : State) (n : Nat) (x : Column) : (setCol s n x).agenda = s.agenda := rfl
@[simp] theorem setCol_fresh (s : State) (n : Nat) (x : Column) : (setCol s n x).fresh = s.fresh := rfl

/-! ### `setCore` -/

@[simp] theorem setCore_mem (s : State) (n : Nat) (x : CoreSt) : (setCore s n x).mem = s.mem := rfl
@[simp] theorem setCore_poison (s : State) (n : Nat) (x : CoreSt) : (setCore s n x).poison = s.poison := rfl
@[simp] theorem setCore_bankErr (s : State) (n : Nat) (x : CoreSt) : (setCore s n x).bankErr = s.bankErr := rfl
@[simp] theorem setCore_scratch (s : State) (n : Nat) (x : CoreSt) : (setCore s n x).scratch = s.scratch := rfl
@[simp] theorem setCore_tsc (s : State) (n : Nat) (x : CoreSt) : (setCore s n x).tsc = s.tsc := rfl
@[simp] theorem setCore_clutches (s : State) (n : Nat) (x : CoreSt) : (setCore s n x).clutches = s.clutches := rfl
@[simp] theorem setCore_tasks (s : State) (n : Nat) (x : CoreSt) : (setCore s n x).tasks = s.tasks := rfl
@[simp] theorem setCore_gangs (s : State) (n : Nat) (x : CoreSt) : (setCore s n x).gangs = s.gangs := rfl
@[simp] theorem setCore_launches (s : State) (n : Nat) (x : CoreSt) : (setCore s n x).launches = s.launches := rfl
@[simp] theorem setCore_lines (s : State) (n : Nat) (x : CoreSt) : (setCore s n x).lines = s.lines := rfl
@[simp] theorem setCore_cmds (s : State) (n : Nat) (x : CoreSt) : (setCore s n x).cmds = s.cmds := rfl
@[simp] theorem setCore_l1 (s : State) (n : Nat) (x : CoreSt) : (setCore s n x).l1 = s.l1 := rfl
@[simp] theorem setCore_icache (s : State) (n : Nat) (x : CoreSt) : (setCore s n x).icache = s.icache := rfl
@[simp] theorem setCore_toks (s : State) (n : Nat) (x : CoreSt) : (setCore s n x).toks = s.toks := rfl
@[simp] theorem setCore_hostHas (s : State) (n : Nat) (x : CoreSt) : (setCore s n x).hostHas = s.hostHas := rfl
@[simp] theorem setCore_msgs (s : State) (n : Nat) (x : CoreSt) : (setCore s n x).msgs = s.msgs := rfl
@[simp] theorem setCore_tlb (s : State) (n : Nat) (x : CoreSt) : (setCore s n x).tlb = s.tlb := rfl
@[simp] theorem setCore_extCache (s : State) (n : Nat) (x : CoreSt) : (setCore s n x).extCache = s.extCache := rfl
@[simp] theorem setCore_sync (s : State) (n : Nat) (x : CoreSt) : (setCore s n x).sync = s.sync := rfl
@[simp] theorem setCore_cols (s : State) (n : Nat) (x : CoreSt) : (setCore s n x).cols = s.cols := rfl
@[simp] theorem setCore_fifos (s : State) (n : Nat) (x : CoreSt) : (setCore s n x).fifos = s.fifos := rfl
@[simp] theorem setCore_promo (s : State) (n : Nat) (x : CoreSt) : (setCore s n x).promo = s.promo := rfl
@[simp] theorem setCore_links (s : State) (n : Nat) (x : CoreSt) : (setCore s n x).links = s.links := rfl
@[simp] theorem setCore_uals (s : State) (n : Nat) (x : CoreSt) : (setCore s n x).uals = s.uals := rfl
@[simp] theorem setCore_ethRate (s : State) (n : Nat) (x : CoreSt) : (setCore s n x).ethRate = s.ethRate := rfl
@[simp] theorem setCore_pager (s : State) (n : Nat) (x : CoreSt) : (setCore s n x).pager = s.pager := rfl
@[simp] theorem setCore_ctxs (s : State) (n : Nat) (x : CoreSt) : (setCore s n x).ctxs = s.ctxs := rfl
@[simp] theorem setCore_weights (s : State) (n : Nat) (x : CoreSt) : (setCore s n x).weights = s.weights := rfl
@[simp] theorem setCore_power (s : State) (n : Nat) (x : CoreSt) : (setCore s n x).power = s.power := rfl
@[simp] theorem setCore_parts (s : State) (n : Nat) (x : CoreSt) : (setCore s n x).parts = s.parts := rfl
@[simp] theorem setCore_mgmt (s : State) (n : Nat) (x : CoreSt) : (setCore s n x).mgmt = s.mgmt := rfl
@[simp] theorem setCore_boot (s : State) (n : Nat) (x : CoreSt) : (setCore s n x).boot = s.boot := rfl
@[simp] theorem setCore_bootSrc (s : State) (n : Nat) (x : CoreSt) : (setCore s n x).bootSrc = s.bootSrc := rfl
@[simp] theorem setCore_image (s : State) (n : Nat) (x : CoreSt) : (setCore s n x).image = s.image := rfl
@[simp] theorem setCore_pkg (s : State) (n : Nat) (x : CoreSt) : (setCore s n x).pkg = s.pkg := rfl
@[simp] theorem setCore_emerg (s : State) (n : Nat) (x : CoreSt) : (setCore s n x).emerg = s.emerg := rfl
@[simp] theorem setCore_msix (s : State) (n : Nat) (x : CoreSt) : (setCore s n x).msix = s.msix := rfl
@[simp] theorem setCore_reply (s : State) (n : Nat) (x : CoreSt) : (setCore s n x).reply = s.reply := rfl
@[simp] theorem setCore_cur (s : State) (n : Nat) (x : CoreSt) : (setCore s n x).cur = s.cur := rfl
@[simp] theorem setCore_issuing (s : State) (n : Nat) (x : CoreSt) : (setCore s n x).issuing = s.issuing := rfl
@[simp] theorem setCore_agenda (s : State) (n : Nat) (x : CoreSt) : (setCore s n x).agenda = s.agenda := rfl
@[simp] theorem setCore_fresh (s : State) (n : Nat) (x : CoreSt) : (setCore s n x).fresh = s.fresh := rfl

/-! ### `setLine` -/

@[simp] theorem setLine_mem (s : State) (n : Nat) (x : Line) : (setLine s n x).mem = s.mem := rfl
@[simp] theorem setLine_poison (s : State) (n : Nat) (x : Line) : (setLine s n x).poison = s.poison := rfl
@[simp] theorem setLine_bankErr (s : State) (n : Nat) (x : Line) : (setLine s n x).bankErr = s.bankErr := rfl
@[simp] theorem setLine_scratch (s : State) (n : Nat) (x : Line) : (setLine s n x).scratch = s.scratch := rfl
@[simp] theorem setLine_tsc (s : State) (n : Nat) (x : Line) : (setLine s n x).tsc = s.tsc := rfl
@[simp] theorem setLine_clutches (s : State) (n : Nat) (x : Line) : (setLine s n x).clutches = s.clutches := rfl
@[simp] theorem setLine_tasks (s : State) (n : Nat) (x : Line) : (setLine s n x).tasks = s.tasks := rfl
@[simp] theorem setLine_gangs (s : State) (n : Nat) (x : Line) : (setLine s n x).gangs = s.gangs := rfl
@[simp] theorem setLine_launches (s : State) (n : Nat) (x : Line) : (setLine s n x).launches = s.launches := rfl
@[simp] theorem setLine_cmds (s : State) (n : Nat) (x : Line) : (setLine s n x).cmds = s.cmds := rfl
@[simp] theorem setLine_l1 (s : State) (n : Nat) (x : Line) : (setLine s n x).l1 = s.l1 := rfl
@[simp] theorem setLine_icache (s : State) (n : Nat) (x : Line) : (setLine s n x).icache = s.icache := rfl
@[simp] theorem setLine_toks (s : State) (n : Nat) (x : Line) : (setLine s n x).toks = s.toks := rfl
@[simp] theorem setLine_hostHas (s : State) (n : Nat) (x : Line) : (setLine s n x).hostHas = s.hostHas := rfl
@[simp] theorem setLine_msgs (s : State) (n : Nat) (x : Line) : (setLine s n x).msgs = s.msgs := rfl
@[simp] theorem setLine_tlb (s : State) (n : Nat) (x : Line) : (setLine s n x).tlb = s.tlb := rfl
@[simp] theorem setLine_extCache (s : State) (n : Nat) (x : Line) : (setLine s n x).extCache = s.extCache := rfl
@[simp] theorem setLine_sync (s : State) (n : Nat) (x : Line) : (setLine s n x).sync = s.sync := rfl
@[simp] theorem setLine_cols (s : State) (n : Nat) (x : Line) : (setLine s n x).cols = s.cols := rfl
@[simp] theorem setLine_cores (s : State) (n : Nat) (x : Line) : (setLine s n x).cores = s.cores := rfl
@[simp] theorem setLine_fifos (s : State) (n : Nat) (x : Line) : (setLine s n x).fifos = s.fifos := rfl
@[simp] theorem setLine_promo (s : State) (n : Nat) (x : Line) : (setLine s n x).promo = s.promo := rfl
@[simp] theorem setLine_links (s : State) (n : Nat) (x : Line) : (setLine s n x).links = s.links := rfl
@[simp] theorem setLine_uals (s : State) (n : Nat) (x : Line) : (setLine s n x).uals = s.uals := rfl
@[simp] theorem setLine_ethRate (s : State) (n : Nat) (x : Line) : (setLine s n x).ethRate = s.ethRate := rfl
@[simp] theorem setLine_pager (s : State) (n : Nat) (x : Line) : (setLine s n x).pager = s.pager := rfl
@[simp] theorem setLine_ctxs (s : State) (n : Nat) (x : Line) : (setLine s n x).ctxs = s.ctxs := rfl
@[simp] theorem setLine_weights (s : State) (n : Nat) (x : Line) : (setLine s n x).weights = s.weights := rfl
@[simp] theorem setLine_power (s : State) (n : Nat) (x : Line) : (setLine s n x).power = s.power := rfl
@[simp] theorem setLine_parts (s : State) (n : Nat) (x : Line) : (setLine s n x).parts = s.parts := rfl
@[simp] theorem setLine_mgmt (s : State) (n : Nat) (x : Line) : (setLine s n x).mgmt = s.mgmt := rfl
@[simp] theorem setLine_boot (s : State) (n : Nat) (x : Line) : (setLine s n x).boot = s.boot := rfl
@[simp] theorem setLine_bootSrc (s : State) (n : Nat) (x : Line) : (setLine s n x).bootSrc = s.bootSrc := rfl
@[simp] theorem setLine_image (s : State) (n : Nat) (x : Line) : (setLine s n x).image = s.image := rfl
@[simp] theorem setLine_pkg (s : State) (n : Nat) (x : Line) : (setLine s n x).pkg = s.pkg := rfl
@[simp] theorem setLine_emerg (s : State) (n : Nat) (x : Line) : (setLine s n x).emerg = s.emerg := rfl
@[simp] theorem setLine_msix (s : State) (n : Nat) (x : Line) : (setLine s n x).msix = s.msix := rfl
@[simp] theorem setLine_reply (s : State) (n : Nat) (x : Line) : (setLine s n x).reply = s.reply := rfl
@[simp] theorem setLine_cur (s : State) (n : Nat) (x : Line) : (setLine s n x).cur = s.cur := rfl
@[simp] theorem setLine_issuing (s : State) (n : Nat) (x : Line) : (setLine s n x).issuing = s.issuing := rfl
@[simp] theorem setLine_agenda (s : State) (n : Nat) (x : Line) : (setLine s n x).agenda = s.agenda := rfl
@[simp] theorem setLine_fresh (s : State) (n : Nat) (x : Line) : (setLine s n x).fresh = s.fresh := rfl

/-! ### `setPart` -/

@[simp] theorem setPart_mem (s : State) (n : Nat) (x : Part) : (setPart s n x).mem = s.mem := rfl
@[simp] theorem setPart_poison (s : State) (n : Nat) (x : Part) : (setPart s n x).poison = s.poison := rfl
@[simp] theorem setPart_bankErr (s : State) (n : Nat) (x : Part) : (setPart s n x).bankErr = s.bankErr := rfl
@[simp] theorem setPart_scratch (s : State) (n : Nat) (x : Part) : (setPart s n x).scratch = s.scratch := rfl
@[simp] theorem setPart_tsc (s : State) (n : Nat) (x : Part) : (setPart s n x).tsc = s.tsc := rfl
@[simp] theorem setPart_clutches (s : State) (n : Nat) (x : Part) : (setPart s n x).clutches = s.clutches := rfl
@[simp] theorem setPart_tasks (s : State) (n : Nat) (x : Part) : (setPart s n x).tasks = s.tasks := rfl
@[simp] theorem setPart_gangs (s : State) (n : Nat) (x : Part) : (setPart s n x).gangs = s.gangs := rfl
@[simp] theorem setPart_launches (s : State) (n : Nat) (x : Part) : (setPart s n x).launches = s.launches := rfl
@[simp] theorem setPart_lines (s : State) (n : Nat) (x : Part) : (setPart s n x).lines = s.lines := rfl
@[simp] theorem setPart_cmds (s : State) (n : Nat) (x : Part) : (setPart s n x).cmds = s.cmds := rfl
@[simp] theorem setPart_l1 (s : State) (n : Nat) (x : Part) : (setPart s n x).l1 = s.l1 := rfl
@[simp] theorem setPart_icache (s : State) (n : Nat) (x : Part) : (setPart s n x).icache = s.icache := rfl
@[simp] theorem setPart_toks (s : State) (n : Nat) (x : Part) : (setPart s n x).toks = s.toks := rfl
@[simp] theorem setPart_hostHas (s : State) (n : Nat) (x : Part) : (setPart s n x).hostHas = s.hostHas := rfl
@[simp] theorem setPart_msgs (s : State) (n : Nat) (x : Part) : (setPart s n x).msgs = s.msgs := rfl
@[simp] theorem setPart_tlb (s : State) (n : Nat) (x : Part) : (setPart s n x).tlb = s.tlb := rfl
@[simp] theorem setPart_extCache (s : State) (n : Nat) (x : Part) : (setPart s n x).extCache = s.extCache := rfl
@[simp] theorem setPart_sync (s : State) (n : Nat) (x : Part) : (setPart s n x).sync = s.sync := rfl
@[simp] theorem setPart_cols (s : State) (n : Nat) (x : Part) : (setPart s n x).cols = s.cols := rfl
@[simp] theorem setPart_cores (s : State) (n : Nat) (x : Part) : (setPart s n x).cores = s.cores := rfl
@[simp] theorem setPart_fifos (s : State) (n : Nat) (x : Part) : (setPart s n x).fifos = s.fifos := rfl
@[simp] theorem setPart_promo (s : State) (n : Nat) (x : Part) : (setPart s n x).promo = s.promo := rfl
@[simp] theorem setPart_links (s : State) (n : Nat) (x : Part) : (setPart s n x).links = s.links := rfl
@[simp] theorem setPart_uals (s : State) (n : Nat) (x : Part) : (setPart s n x).uals = s.uals := rfl
@[simp] theorem setPart_ethRate (s : State) (n : Nat) (x : Part) : (setPart s n x).ethRate = s.ethRate := rfl
@[simp] theorem setPart_pager (s : State) (n : Nat) (x : Part) : (setPart s n x).pager = s.pager := rfl
@[simp] theorem setPart_ctxs (s : State) (n : Nat) (x : Part) : (setPart s n x).ctxs = s.ctxs := rfl
@[simp] theorem setPart_weights (s : State) (n : Nat) (x : Part) : (setPart s n x).weights = s.weights := rfl
@[simp] theorem setPart_power (s : State) (n : Nat) (x : Part) : (setPart s n x).power = s.power := rfl
@[simp] theorem setPart_mgmt (s : State) (n : Nat) (x : Part) : (setPart s n x).mgmt = s.mgmt := rfl
@[simp] theorem setPart_boot (s : State) (n : Nat) (x : Part) : (setPart s n x).boot = s.boot := rfl
@[simp] theorem setPart_bootSrc (s : State) (n : Nat) (x : Part) : (setPart s n x).bootSrc = s.bootSrc := rfl
@[simp] theorem setPart_image (s : State) (n : Nat) (x : Part) : (setPart s n x).image = s.image := rfl
@[simp] theorem setPart_pkg (s : State) (n : Nat) (x : Part) : (setPart s n x).pkg = s.pkg := rfl
@[simp] theorem setPart_emerg (s : State) (n : Nat) (x : Part) : (setPart s n x).emerg = s.emerg := rfl
@[simp] theorem setPart_msix (s : State) (n : Nat) (x : Part) : (setPart s n x).msix = s.msix := rfl
@[simp] theorem setPart_reply (s : State) (n : Nat) (x : Part) : (setPart s n x).reply = s.reply := rfl
@[simp] theorem setPart_cur (s : State) (n : Nat) (x : Part) : (setPart s n x).cur = s.cur := rfl
@[simp] theorem setPart_issuing (s : State) (n : Nat) (x : Part) : (setPart s n x).issuing = s.issuing := rfl
@[simp] theorem setPart_agenda (s : State) (n : Nat) (x : Part) : (setPart s n x).agenda = s.agenda := rfl
@[simp] theorem setPart_fresh (s : State) (n : Nat) (x : Part) : (setPart s n x).fresh = s.fresh := rfl

/-! ### `setPromo` -/

@[simp] theorem setPromo_mem (s : State) (n : Nat) (x : Promo) : (setPromo s n x).mem = s.mem := rfl
@[simp] theorem setPromo_poison (s : State) (n : Nat) (x : Promo) : (setPromo s n x).poison = s.poison := rfl
@[simp] theorem setPromo_bankErr (s : State) (n : Nat) (x : Promo) : (setPromo s n x).bankErr = s.bankErr := rfl
@[simp] theorem setPromo_scratch (s : State) (n : Nat) (x : Promo) : (setPromo s n x).scratch = s.scratch := rfl
@[simp] theorem setPromo_tsc (s : State) (n : Nat) (x : Promo) : (setPromo s n x).tsc = s.tsc := rfl
@[simp] theorem setPromo_clutches (s : State) (n : Nat) (x : Promo) : (setPromo s n x).clutches = s.clutches := rfl
@[simp] theorem setPromo_tasks (s : State) (n : Nat) (x : Promo) : (setPromo s n x).tasks = s.tasks := rfl
@[simp] theorem setPromo_gangs (s : State) (n : Nat) (x : Promo) : (setPromo s n x).gangs = s.gangs := rfl
@[simp] theorem setPromo_launches (s : State) (n : Nat) (x : Promo) : (setPromo s n x).launches = s.launches := rfl
@[simp] theorem setPromo_lines (s : State) (n : Nat) (x : Promo) : (setPromo s n x).lines = s.lines := rfl
@[simp] theorem setPromo_cmds (s : State) (n : Nat) (x : Promo) : (setPromo s n x).cmds = s.cmds := rfl
@[simp] theorem setPromo_l1 (s : State) (n : Nat) (x : Promo) : (setPromo s n x).l1 = s.l1 := rfl
@[simp] theorem setPromo_icache (s : State) (n : Nat) (x : Promo) : (setPromo s n x).icache = s.icache := rfl
@[simp] theorem setPromo_toks (s : State) (n : Nat) (x : Promo) : (setPromo s n x).toks = s.toks := rfl
@[simp] theorem setPromo_hostHas (s : State) (n : Nat) (x : Promo) : (setPromo s n x).hostHas = s.hostHas := rfl
@[simp] theorem setPromo_msgs (s : State) (n : Nat) (x : Promo) : (setPromo s n x).msgs = s.msgs := rfl
@[simp] theorem setPromo_tlb (s : State) (n : Nat) (x : Promo) : (setPromo s n x).tlb = s.tlb := rfl
@[simp] theorem setPromo_extCache (s : State) (n : Nat) (x : Promo) : (setPromo s n x).extCache = s.extCache := rfl
@[simp] theorem setPromo_sync (s : State) (n : Nat) (x : Promo) : (setPromo s n x).sync = s.sync := rfl
@[simp] theorem setPromo_cols (s : State) (n : Nat) (x : Promo) : (setPromo s n x).cols = s.cols := rfl
@[simp] theorem setPromo_cores (s : State) (n : Nat) (x : Promo) : (setPromo s n x).cores = s.cores := rfl
@[simp] theorem setPromo_fifos (s : State) (n : Nat) (x : Promo) : (setPromo s n x).fifos = s.fifos := rfl
@[simp] theorem setPromo_links (s : State) (n : Nat) (x : Promo) : (setPromo s n x).links = s.links := rfl
@[simp] theorem setPromo_uals (s : State) (n : Nat) (x : Promo) : (setPromo s n x).uals = s.uals := rfl
@[simp] theorem setPromo_ethRate (s : State) (n : Nat) (x : Promo) : (setPromo s n x).ethRate = s.ethRate := rfl
@[simp] theorem setPromo_pager (s : State) (n : Nat) (x : Promo) : (setPromo s n x).pager = s.pager := rfl
@[simp] theorem setPromo_ctxs (s : State) (n : Nat) (x : Promo) : (setPromo s n x).ctxs = s.ctxs := rfl
@[simp] theorem setPromo_weights (s : State) (n : Nat) (x : Promo) : (setPromo s n x).weights = s.weights := rfl
@[simp] theorem setPromo_power (s : State) (n : Nat) (x : Promo) : (setPromo s n x).power = s.power := rfl
@[simp] theorem setPromo_parts (s : State) (n : Nat) (x : Promo) : (setPromo s n x).parts = s.parts := rfl
@[simp] theorem setPromo_mgmt (s : State) (n : Nat) (x : Promo) : (setPromo s n x).mgmt = s.mgmt := rfl
@[simp] theorem setPromo_boot (s : State) (n : Nat) (x : Promo) : (setPromo s n x).boot = s.boot := rfl
@[simp] theorem setPromo_bootSrc (s : State) (n : Nat) (x : Promo) : (setPromo s n x).bootSrc = s.bootSrc := rfl
@[simp] theorem setPromo_image (s : State) (n : Nat) (x : Promo) : (setPromo s n x).image = s.image := rfl
@[simp] theorem setPromo_pkg (s : State) (n : Nat) (x : Promo) : (setPromo s n x).pkg = s.pkg := rfl
@[simp] theorem setPromo_emerg (s : State) (n : Nat) (x : Promo) : (setPromo s n x).emerg = s.emerg := rfl
@[simp] theorem setPromo_msix (s : State) (n : Nat) (x : Promo) : (setPromo s n x).msix = s.msix := rfl
@[simp] theorem setPromo_reply (s : State) (n : Nat) (x : Promo) : (setPromo s n x).reply = s.reply := rfl
@[simp] theorem setPromo_cur (s : State) (n : Nat) (x : Promo) : (setPromo s n x).cur = s.cur := rfl
@[simp] theorem setPromo_issuing (s : State) (n : Nat) (x : Promo) : (setPromo s n x).issuing = s.issuing := rfl
@[simp] theorem setPromo_agenda (s : State) (n : Nat) (x : Promo) : (setPromo s n x).agenda = s.agenda := rfl
@[simp] theorem setPromo_fresh (s : State) (n : Nat) (x : Promo) : (setPromo s n x).fresh = s.fresh := rfl

/-! ### `setTok` -/

@[simp] theorem setTok_mem (s : State) (n : Nat) (x : LineTok) : (setTok s n x).mem = s.mem := rfl
@[simp] theorem setTok_poison (s : State) (n : Nat) (x : LineTok) : (setTok s n x).poison = s.poison := rfl
@[simp] theorem setTok_bankErr (s : State) (n : Nat) (x : LineTok) : (setTok s n x).bankErr = s.bankErr := rfl
@[simp] theorem setTok_scratch (s : State) (n : Nat) (x : LineTok) : (setTok s n x).scratch = s.scratch := rfl
@[simp] theorem setTok_tsc (s : State) (n : Nat) (x : LineTok) : (setTok s n x).tsc = s.tsc := rfl
@[simp] theorem setTok_clutches (s : State) (n : Nat) (x : LineTok) : (setTok s n x).clutches = s.clutches := rfl
@[simp] theorem setTok_tasks (s : State) (n : Nat) (x : LineTok) : (setTok s n x).tasks = s.tasks := rfl
@[simp] theorem setTok_gangs (s : State) (n : Nat) (x : LineTok) : (setTok s n x).gangs = s.gangs := rfl
@[simp] theorem setTok_launches (s : State) (n : Nat) (x : LineTok) : (setTok s n x).launches = s.launches := rfl
@[simp] theorem setTok_lines (s : State) (n : Nat) (x : LineTok) : (setTok s n x).lines = s.lines := rfl
@[simp] theorem setTok_cmds (s : State) (n : Nat) (x : LineTok) : (setTok s n x).cmds = s.cmds := rfl
@[simp] theorem setTok_l1 (s : State) (n : Nat) (x : LineTok) : (setTok s n x).l1 = s.l1 := rfl
@[simp] theorem setTok_icache (s : State) (n : Nat) (x : LineTok) : (setTok s n x).icache = s.icache := rfl
@[simp] theorem setTok_hostHas (s : State) (n : Nat) (x : LineTok) : (setTok s n x).hostHas = s.hostHas := rfl
@[simp] theorem setTok_msgs (s : State) (n : Nat) (x : LineTok) : (setTok s n x).msgs = s.msgs := rfl
@[simp] theorem setTok_tlb (s : State) (n : Nat) (x : LineTok) : (setTok s n x).tlb = s.tlb := rfl
@[simp] theorem setTok_extCache (s : State) (n : Nat) (x : LineTok) : (setTok s n x).extCache = s.extCache := rfl
@[simp] theorem setTok_sync (s : State) (n : Nat) (x : LineTok) : (setTok s n x).sync = s.sync := rfl
@[simp] theorem setTok_cols (s : State) (n : Nat) (x : LineTok) : (setTok s n x).cols = s.cols := rfl
@[simp] theorem setTok_cores (s : State) (n : Nat) (x : LineTok) : (setTok s n x).cores = s.cores := rfl
@[simp] theorem setTok_fifos (s : State) (n : Nat) (x : LineTok) : (setTok s n x).fifos = s.fifos := rfl
@[simp] theorem setTok_promo (s : State) (n : Nat) (x : LineTok) : (setTok s n x).promo = s.promo := rfl
@[simp] theorem setTok_links (s : State) (n : Nat) (x : LineTok) : (setTok s n x).links = s.links := rfl
@[simp] theorem setTok_uals (s : State) (n : Nat) (x : LineTok) : (setTok s n x).uals = s.uals := rfl
@[simp] theorem setTok_ethRate (s : State) (n : Nat) (x : LineTok) : (setTok s n x).ethRate = s.ethRate := rfl
@[simp] theorem setTok_pager (s : State) (n : Nat) (x : LineTok) : (setTok s n x).pager = s.pager := rfl
@[simp] theorem setTok_ctxs (s : State) (n : Nat) (x : LineTok) : (setTok s n x).ctxs = s.ctxs := rfl
@[simp] theorem setTok_weights (s : State) (n : Nat) (x : LineTok) : (setTok s n x).weights = s.weights := rfl
@[simp] theorem setTok_power (s : State) (n : Nat) (x : LineTok) : (setTok s n x).power = s.power := rfl
@[simp] theorem setTok_parts (s : State) (n : Nat) (x : LineTok) : (setTok s n x).parts = s.parts := rfl
@[simp] theorem setTok_mgmt (s : State) (n : Nat) (x : LineTok) : (setTok s n x).mgmt = s.mgmt := rfl
@[simp] theorem setTok_boot (s : State) (n : Nat) (x : LineTok) : (setTok s n x).boot = s.boot := rfl
@[simp] theorem setTok_bootSrc (s : State) (n : Nat) (x : LineTok) : (setTok s n x).bootSrc = s.bootSrc := rfl
@[simp] theorem setTok_image (s : State) (n : Nat) (x : LineTok) : (setTok s n x).image = s.image := rfl
@[simp] theorem setTok_pkg (s : State) (n : Nat) (x : LineTok) : (setTok s n x).pkg = s.pkg := rfl
@[simp] theorem setTok_emerg (s : State) (n : Nat) (x : LineTok) : (setTok s n x).emerg = s.emerg := rfl
@[simp] theorem setTok_msix (s : State) (n : Nat) (x : LineTok) : (setTok s n x).msix = s.msix := rfl
@[simp] theorem setTok_reply (s : State) (n : Nat) (x : LineTok) : (setTok s n x).reply = s.reply := rfl
@[simp] theorem setTok_cur (s : State) (n : Nat) (x : LineTok) : (setTok s n x).cur = s.cur := rfl
@[simp] theorem setTok_issuing (s : State) (n : Nat) (x : LineTok) : (setTok s n x).issuing = s.issuing := rfl
@[simp] theorem setTok_agenda (s : State) (n : Nat) (x : LineTok) : (setTok s n x).agenda = s.agenda := rfl
@[simp] theorem setTok_fresh (s : State) (n : Nat) (x : LineTok) : (setTok s n x).fresh = s.fresh := rfl

/-! ### `modClutch`, `modCol` -/

@[simp] theorem modClutch_mem (s : State) (n : Nat) (g : Clutch → Clutch) : (modClutch s n g).mem = s.mem := rfl
@[simp] theorem modClutch_poison (s : State) (n : Nat) (g : Clutch → Clutch) : (modClutch s n g).poison = s.poison := rfl
@[simp] theorem modClutch_bankErr (s : State) (n : Nat) (g : Clutch → Clutch) : (modClutch s n g).bankErr = s.bankErr := rfl
@[simp] theorem modClutch_scratch (s : State) (n : Nat) (g : Clutch → Clutch) : (modClutch s n g).scratch = s.scratch := rfl
@[simp] theorem modClutch_tsc (s : State) (n : Nat) (g : Clutch → Clutch) : (modClutch s n g).tsc = s.tsc := rfl
@[simp] theorem modClutch_tasks (s : State) (n : Nat) (g : Clutch → Clutch) : (modClutch s n g).tasks = s.tasks := rfl
@[simp] theorem modClutch_gangs (s : State) (n : Nat) (g : Clutch → Clutch) : (modClutch s n g).gangs = s.gangs := rfl
@[simp] theorem modClutch_launches (s : State) (n : Nat) (g : Clutch → Clutch) : (modClutch s n g).launches = s.launches := rfl
@[simp] theorem modClutch_lines (s : State) (n : Nat) (g : Clutch → Clutch) : (modClutch s n g).lines = s.lines := rfl
@[simp] theorem modClutch_cmds (s : State) (n : Nat) (g : Clutch → Clutch) : (modClutch s n g).cmds = s.cmds := rfl
@[simp] theorem modClutch_l1 (s : State) (n : Nat) (g : Clutch → Clutch) : (modClutch s n g).l1 = s.l1 := rfl
@[simp] theorem modClutch_icache (s : State) (n : Nat) (g : Clutch → Clutch) : (modClutch s n g).icache = s.icache := rfl
@[simp] theorem modClutch_toks (s : State) (n : Nat) (g : Clutch → Clutch) : (modClutch s n g).toks = s.toks := rfl
@[simp] theorem modClutch_hostHas (s : State) (n : Nat) (g : Clutch → Clutch) : (modClutch s n g).hostHas = s.hostHas := rfl
@[simp] theorem modClutch_msgs (s : State) (n : Nat) (g : Clutch → Clutch) : (modClutch s n g).msgs = s.msgs := rfl
@[simp] theorem modClutch_tlb (s : State) (n : Nat) (g : Clutch → Clutch) : (modClutch s n g).tlb = s.tlb := rfl
@[simp] theorem modClutch_extCache (s : State) (n : Nat) (g : Clutch → Clutch) : (modClutch s n g).extCache = s.extCache := rfl
@[simp] theorem modClutch_sync (s : State) (n : Nat) (g : Clutch → Clutch) : (modClutch s n g).sync = s.sync := rfl
@[simp] theorem modClutch_cols (s : State) (n : Nat) (g : Clutch → Clutch) : (modClutch s n g).cols = s.cols := rfl
@[simp] theorem modClutch_cores (s : State) (n : Nat) (g : Clutch → Clutch) : (modClutch s n g).cores = s.cores := rfl
@[simp] theorem modClutch_fifos (s : State) (n : Nat) (g : Clutch → Clutch) : (modClutch s n g).fifos = s.fifos := rfl
@[simp] theorem modClutch_promo (s : State) (n : Nat) (g : Clutch → Clutch) : (modClutch s n g).promo = s.promo := rfl
@[simp] theorem modClutch_links (s : State) (n : Nat) (g : Clutch → Clutch) : (modClutch s n g).links = s.links := rfl
@[simp] theorem modClutch_uals (s : State) (n : Nat) (g : Clutch → Clutch) : (modClutch s n g).uals = s.uals := rfl
@[simp] theorem modClutch_ethRate (s : State) (n : Nat) (g : Clutch → Clutch) : (modClutch s n g).ethRate = s.ethRate := rfl
@[simp] theorem modClutch_pager (s : State) (n : Nat) (g : Clutch → Clutch) : (modClutch s n g).pager = s.pager := rfl
@[simp] theorem modClutch_ctxs (s : State) (n : Nat) (g : Clutch → Clutch) : (modClutch s n g).ctxs = s.ctxs := rfl
@[simp] theorem modClutch_weights (s : State) (n : Nat) (g : Clutch → Clutch) : (modClutch s n g).weights = s.weights := rfl
@[simp] theorem modClutch_power (s : State) (n : Nat) (g : Clutch → Clutch) : (modClutch s n g).power = s.power := rfl
@[simp] theorem modClutch_parts (s : State) (n : Nat) (g : Clutch → Clutch) : (modClutch s n g).parts = s.parts := rfl
@[simp] theorem modClutch_mgmt (s : State) (n : Nat) (g : Clutch → Clutch) : (modClutch s n g).mgmt = s.mgmt := rfl
@[simp] theorem modClutch_boot (s : State) (n : Nat) (g : Clutch → Clutch) : (modClutch s n g).boot = s.boot := rfl
@[simp] theorem modClutch_bootSrc (s : State) (n : Nat) (g : Clutch → Clutch) : (modClutch s n g).bootSrc = s.bootSrc := rfl
@[simp] theorem modClutch_image (s : State) (n : Nat) (g : Clutch → Clutch) : (modClutch s n g).image = s.image := rfl
@[simp] theorem modClutch_pkg (s : State) (n : Nat) (g : Clutch → Clutch) : (modClutch s n g).pkg = s.pkg := rfl
@[simp] theorem modClutch_emerg (s : State) (n : Nat) (g : Clutch → Clutch) : (modClutch s n g).emerg = s.emerg := rfl
@[simp] theorem modClutch_msix (s : State) (n : Nat) (g : Clutch → Clutch) : (modClutch s n g).msix = s.msix := rfl
@[simp] theorem modClutch_reply (s : State) (n : Nat) (g : Clutch → Clutch) : (modClutch s n g).reply = s.reply := rfl
@[simp] theorem modClutch_cur (s : State) (n : Nat) (g : Clutch → Clutch) : (modClutch s n g).cur = s.cur := rfl
@[simp] theorem modClutch_issuing (s : State) (n : Nat) (g : Clutch → Clutch) : (modClutch s n g).issuing = s.issuing := rfl
@[simp] theorem modClutch_agenda (s : State) (n : Nat) (g : Clutch → Clutch) : (modClutch s n g).agenda = s.agenda := rfl
@[simp] theorem modClutch_fresh (s : State) (n : Nat) (g : Clutch → Clutch) : (modClutch s n g).fresh = s.fresh := rfl
@[simp] theorem modCol_mem (s : State) (n : Nat) (g : Column → Column) : (modCol s n g).mem = s.mem := rfl
@[simp] theorem modCol_poison (s : State) (n : Nat) (g : Column → Column) : (modCol s n g).poison = s.poison := rfl
@[simp] theorem modCol_bankErr (s : State) (n : Nat) (g : Column → Column) : (modCol s n g).bankErr = s.bankErr := rfl
@[simp] theorem modCol_scratch (s : State) (n : Nat) (g : Column → Column) : (modCol s n g).scratch = s.scratch := rfl
@[simp] theorem modCol_tsc (s : State) (n : Nat) (g : Column → Column) : (modCol s n g).tsc = s.tsc := rfl
@[simp] theorem modCol_clutches (s : State) (n : Nat) (g : Column → Column) : (modCol s n g).clutches = s.clutches := rfl
@[simp] theorem modCol_tasks (s : State) (n : Nat) (g : Column → Column) : (modCol s n g).tasks = s.tasks := rfl
@[simp] theorem modCol_gangs (s : State) (n : Nat) (g : Column → Column) : (modCol s n g).gangs = s.gangs := rfl
@[simp] theorem modCol_launches (s : State) (n : Nat) (g : Column → Column) : (modCol s n g).launches = s.launches := rfl
@[simp] theorem modCol_lines (s : State) (n : Nat) (g : Column → Column) : (modCol s n g).lines = s.lines := rfl
@[simp] theorem modCol_cmds (s : State) (n : Nat) (g : Column → Column) : (modCol s n g).cmds = s.cmds := rfl
@[simp] theorem modCol_l1 (s : State) (n : Nat) (g : Column → Column) : (modCol s n g).l1 = s.l1 := rfl
@[simp] theorem modCol_icache (s : State) (n : Nat) (g : Column → Column) : (modCol s n g).icache = s.icache := rfl
@[simp] theorem modCol_toks (s : State) (n : Nat) (g : Column → Column) : (modCol s n g).toks = s.toks := rfl
@[simp] theorem modCol_hostHas (s : State) (n : Nat) (g : Column → Column) : (modCol s n g).hostHas = s.hostHas := rfl
@[simp] theorem modCol_msgs (s : State) (n : Nat) (g : Column → Column) : (modCol s n g).msgs = s.msgs := rfl
@[simp] theorem modCol_tlb (s : State) (n : Nat) (g : Column → Column) : (modCol s n g).tlb = s.tlb := rfl
@[simp] theorem modCol_extCache (s : State) (n : Nat) (g : Column → Column) : (modCol s n g).extCache = s.extCache := rfl
@[simp] theorem modCol_sync (s : State) (n : Nat) (g : Column → Column) : (modCol s n g).sync = s.sync := rfl
@[simp] theorem modCol_cores (s : State) (n : Nat) (g : Column → Column) : (modCol s n g).cores = s.cores := rfl
@[simp] theorem modCol_fifos (s : State) (n : Nat) (g : Column → Column) : (modCol s n g).fifos = s.fifos := rfl
@[simp] theorem modCol_promo (s : State) (n : Nat) (g : Column → Column) : (modCol s n g).promo = s.promo := rfl
@[simp] theorem modCol_links (s : State) (n : Nat) (g : Column → Column) : (modCol s n g).links = s.links := rfl
@[simp] theorem modCol_uals (s : State) (n : Nat) (g : Column → Column) : (modCol s n g).uals = s.uals := rfl
@[simp] theorem modCol_ethRate (s : State) (n : Nat) (g : Column → Column) : (modCol s n g).ethRate = s.ethRate := rfl
@[simp] theorem modCol_pager (s : State) (n : Nat) (g : Column → Column) : (modCol s n g).pager = s.pager := rfl
@[simp] theorem modCol_ctxs (s : State) (n : Nat) (g : Column → Column) : (modCol s n g).ctxs = s.ctxs := rfl
@[simp] theorem modCol_weights (s : State) (n : Nat) (g : Column → Column) : (modCol s n g).weights = s.weights := rfl
@[simp] theorem modCol_power (s : State) (n : Nat) (g : Column → Column) : (modCol s n g).power = s.power := rfl
@[simp] theorem modCol_parts (s : State) (n : Nat) (g : Column → Column) : (modCol s n g).parts = s.parts := rfl
@[simp] theorem modCol_mgmt (s : State) (n : Nat) (g : Column → Column) : (modCol s n g).mgmt = s.mgmt := rfl
@[simp] theorem modCol_boot (s : State) (n : Nat) (g : Column → Column) : (modCol s n g).boot = s.boot := rfl
@[simp] theorem modCol_bootSrc (s : State) (n : Nat) (g : Column → Column) : (modCol s n g).bootSrc = s.bootSrc := rfl
@[simp] theorem modCol_image (s : State) (n : Nat) (g : Column → Column) : (modCol s n g).image = s.image := rfl
@[simp] theorem modCol_pkg (s : State) (n : Nat) (g : Column → Column) : (modCol s n g).pkg = s.pkg := rfl
@[simp] theorem modCol_emerg (s : State) (n : Nat) (g : Column → Column) : (modCol s n g).emerg = s.emerg := rfl
@[simp] theorem modCol_msix (s : State) (n : Nat) (g : Column → Column) : (modCol s n g).msix = s.msix := rfl
@[simp] theorem modCol_reply (s : State) (n : Nat) (g : Column → Column) : (modCol s n g).reply = s.reply := rfl
@[simp] theorem modCol_cur (s : State) (n : Nat) (g : Column → Column) : (modCol s n g).cur = s.cur := rfl
@[simp] theorem modCol_issuing (s : State) (n : Nat) (g : Column → Column) : (modCol s n g).issuing = s.issuing := rfl
@[simp] theorem modCol_agenda (s : State) (n : Nat) (g : Column → Column) : (modCol s n g).agenda = s.agenda := rfl
@[simp] theorem modCol_fresh (s : State) (n : Nat) (g : Column → Column) : (modCol s n g).fresh = s.fresh := rfl

/-! ### `modTask` -/

@[simp] theorem modTask_mem (s : State) (n : Nat) (g : Task → Task) : (modTask s n g).mem = s.mem := by
  unfold modTask; split <;> rfl
@[simp] theorem modTask_poison (s : State) (n : Nat) (g : Task → Task) : (modTask s n g).poison = s.poison := by
  unfold modTask; split <;> rfl
@[simp] theorem modTask_bankErr (s : State) (n : Nat) (g : Task → Task) : (modTask s n g).bankErr = s.bankErr := by
  unfold modTask; split <;> rfl
@[simp] theorem modTask_scratch (s : State) (n : Nat) (g : Task → Task) : (modTask s n g).scratch = s.scratch := by
  unfold modTask; split <;> rfl
@[simp] theorem modTask_tsc (s : State) (n : Nat) (g : Task → Task) : (modTask s n g).tsc = s.tsc := by
  unfold modTask; split <;> rfl
@[simp] theorem modTask_clutches (s : State) (n : Nat) (g : Task → Task) : (modTask s n g).clutches = s.clutches := by
  unfold modTask; split <;> rfl
@[simp] theorem modTask_gangs (s : State) (n : Nat) (g : Task → Task) : (modTask s n g).gangs = s.gangs := by
  unfold modTask; split <;> rfl
@[simp] theorem modTask_launches (s : State) (n : Nat) (g : Task → Task) : (modTask s n g).launches = s.launches := by
  unfold modTask; split <;> rfl
@[simp] theorem modTask_lines (s : State) (n : Nat) (g : Task → Task) : (modTask s n g).lines = s.lines := by
  unfold modTask; split <;> rfl
@[simp] theorem modTask_cmds (s : State) (n : Nat) (g : Task → Task) : (modTask s n g).cmds = s.cmds := by
  unfold modTask; split <;> rfl
@[simp] theorem modTask_l1 (s : State) (n : Nat) (g : Task → Task) : (modTask s n g).l1 = s.l1 := by
  unfold modTask; split <;> rfl
@[simp] theorem modTask_icache (s : State) (n : Nat) (g : Task → Task) : (modTask s n g).icache = s.icache := by
  unfold modTask; split <;> rfl
@[simp] theorem modTask_toks (s : State) (n : Nat) (g : Task → Task) : (modTask s n g).toks = s.toks := by
  unfold modTask; split <;> rfl
@[simp] theorem modTask_hostHas (s : State) (n : Nat) (g : Task → Task) : (modTask s n g).hostHas = s.hostHas := by
  unfold modTask; split <;> rfl
@[simp] theorem modTask_msgs (s : State) (n : Nat) (g : Task → Task) : (modTask s n g).msgs = s.msgs := by
  unfold modTask; split <;> rfl
@[simp] theorem modTask_tlb (s : State) (n : Nat) (g : Task → Task) : (modTask s n g).tlb = s.tlb := by
  unfold modTask; split <;> rfl
@[simp] theorem modTask_extCache (s : State) (n : Nat) (g : Task → Task) : (modTask s n g).extCache = s.extCache := by
  unfold modTask; split <;> rfl
@[simp] theorem modTask_sync (s : State) (n : Nat) (g : Task → Task) : (modTask s n g).sync = s.sync := by
  unfold modTask; split <;> rfl
@[simp] theorem modTask_cols (s : State) (n : Nat) (g : Task → Task) : (modTask s n g).cols = s.cols := by
  unfold modTask; split <;> rfl
@[simp] theorem modTask_cores (s : State) (n : Nat) (g : Task → Task) : (modTask s n g).cores = s.cores := by
  unfold modTask; split <;> rfl
@[simp] theorem modTask_fifos (s : State) (n : Nat) (g : Task → Task) : (modTask s n g).fifos = s.fifos := by
  unfold modTask; split <;> rfl
@[simp] theorem modTask_promo (s : State) (n : Nat) (g : Task → Task) : (modTask s n g).promo = s.promo := by
  unfold modTask; split <;> rfl
@[simp] theorem modTask_links (s : State) (n : Nat) (g : Task → Task) : (modTask s n g).links = s.links := by
  unfold modTask; split <;> rfl
@[simp] theorem modTask_uals (s : State) (n : Nat) (g : Task → Task) : (modTask s n g).uals = s.uals := by
  unfold modTask; split <;> rfl
@[simp] theorem modTask_ethRate (s : State) (n : Nat) (g : Task → Task) : (modTask s n g).ethRate = s.ethRate := by
  unfold modTask; split <;> rfl
@[simp] theorem modTask_pager (s : State) (n : Nat) (g : Task → Task) : (modTask s n g).pager = s.pager := by
  unfold modTask; split <;> rfl
@[simp] theorem modTask_ctxs (s : State) (n : Nat) (g : Task → Task) : (modTask s n g).ctxs = s.ctxs := by
  unfold modTask; split <;> rfl
@[simp] theorem modTask_weights (s : State) (n : Nat) (g : Task → Task) : (modTask s n g).weights = s.weights := by
  unfold modTask; split <;> rfl
@[simp] theorem modTask_power (s : State) (n : Nat) (g : Task → Task) : (modTask s n g).power = s.power := by
  unfold modTask; split <;> rfl
@[simp] theorem modTask_parts (s : State) (n : Nat) (g : Task → Task) : (modTask s n g).parts = s.parts := by
  unfold modTask; split <;> rfl
@[simp] theorem modTask_mgmt (s : State) (n : Nat) (g : Task → Task) : (modTask s n g).mgmt = s.mgmt := by
  unfold modTask; split <;> rfl
@[simp] theorem modTask_boot (s : State) (n : Nat) (g : Task → Task) : (modTask s n g).boot = s.boot := by
  unfold modTask; split <;> rfl
@[simp] theorem modTask_bootSrc (s : State) (n : Nat) (g : Task → Task) : (modTask s n g).bootSrc = s.bootSrc := by
  unfold modTask; split <;> rfl
@[simp] theorem modTask_image (s : State) (n : Nat) (g : Task → Task) : (modTask s n g).image = s.image := by
  unfold modTask; split <;> rfl
@[simp] theorem modTask_pkg (s : State) (n : Nat) (g : Task → Task) : (modTask s n g).pkg = s.pkg := by
  unfold modTask; split <;> rfl
@[simp] theorem modTask_emerg (s : State) (n : Nat) (g : Task → Task) : (modTask s n g).emerg = s.emerg := by
  unfold modTask; split <;> rfl
@[simp] theorem modTask_msix (s : State) (n : Nat) (g : Task → Task) : (modTask s n g).msix = s.msix := by
  unfold modTask; split <;> rfl
@[simp] theorem modTask_reply (s : State) (n : Nat) (g : Task → Task) : (modTask s n g).reply = s.reply := by
  unfold modTask; split <;> rfl
@[simp] theorem modTask_cur (s : State) (n : Nat) (g : Task → Task) : (modTask s n g).cur = s.cur := by
  unfold modTask; split <;> rfl
@[simp] theorem modTask_issuing (s : State) (n : Nat) (g : Task → Task) : (modTask s n g).issuing = s.issuing := by
  unfold modTask; split <;> rfl
@[simp] theorem modTask_agenda (s : State) (n : Nat) (g : Task → Task) : (modTask s n g).agenda = s.agenda := by
  unfold modTask; split <;> rfl
@[simp] theorem modTask_fresh (s : State) (n : Nat) (g : Task → Task) : (modTask s n g).fresh = s.fresh := by
  unfold modTask; split <;> rfl

/-! ### `delCmd`, `setL1`, `setFifo`, `startNext` -/

@[simp] theorem delCmd_mem (s : State) (n : Nat) : (delCmd s n).mem = s.mem := rfl
@[simp] theorem delCmd_poison (s : State) (n : Nat) : (delCmd s n).poison = s.poison := rfl
@[simp] theorem delCmd_bankErr (s : State) (n : Nat) : (delCmd s n).bankErr = s.bankErr := rfl
@[simp] theorem delCmd_scratch (s : State) (n : Nat) : (delCmd s n).scratch = s.scratch := rfl
@[simp] theorem delCmd_tsc (s : State) (n : Nat) : (delCmd s n).tsc = s.tsc := rfl
@[simp] theorem delCmd_clutches (s : State) (n : Nat) : (delCmd s n).clutches = s.clutches := rfl
@[simp] theorem delCmd_tasks (s : State) (n : Nat) : (delCmd s n).tasks = s.tasks := rfl
@[simp] theorem delCmd_gangs (s : State) (n : Nat) : (delCmd s n).gangs = s.gangs := rfl
@[simp] theorem delCmd_launches (s : State) (n : Nat) : (delCmd s n).launches = s.launches := rfl
@[simp] theorem delCmd_lines (s : State) (n : Nat) : (delCmd s n).lines = s.lines := rfl
@[simp] theorem delCmd_l1 (s : State) (n : Nat) : (delCmd s n).l1 = s.l1 := rfl
@[simp] theorem delCmd_icache (s : State) (n : Nat) : (delCmd s n).icache = s.icache := rfl
@[simp] theorem delCmd_toks (s : State) (n : Nat) : (delCmd s n).toks = s.toks := rfl
@[simp] theorem delCmd_hostHas (s : State) (n : Nat) : (delCmd s n).hostHas = s.hostHas := rfl
@[simp] theorem delCmd_msgs (s : State) (n : Nat) : (delCmd s n).msgs = s.msgs := rfl
@[simp] theorem delCmd_tlb (s : State) (n : Nat) : (delCmd s n).tlb = s.tlb := rfl
@[simp] theorem delCmd_extCache (s : State) (n : Nat) : (delCmd s n).extCache = s.extCache := rfl
@[simp] theorem delCmd_sync (s : State) (n : Nat) : (delCmd s n).sync = s.sync := rfl
@[simp] theorem delCmd_cols (s : State) (n : Nat) : (delCmd s n).cols = s.cols := rfl
@[simp] theorem delCmd_cores (s : State) (n : Nat) : (delCmd s n).cores = s.cores := rfl
@[simp] theorem delCmd_fifos (s : State) (n : Nat) : (delCmd s n).fifos = s.fifos := rfl
@[simp] theorem delCmd_promo (s : State) (n : Nat) : (delCmd s n).promo = s.promo := rfl
@[simp] theorem delCmd_links (s : State) (n : Nat) : (delCmd s n).links = s.links := rfl
@[simp] theorem delCmd_uals (s : State) (n : Nat) : (delCmd s n).uals = s.uals := rfl
@[simp] theorem delCmd_ethRate (s : State) (n : Nat) : (delCmd s n).ethRate = s.ethRate := rfl
@[simp] theorem delCmd_pager (s : State) (n : Nat) : (delCmd s n).pager = s.pager := rfl
@[simp] theorem delCmd_ctxs (s : State) (n : Nat) : (delCmd s n).ctxs = s.ctxs := rfl
@[simp] theorem delCmd_weights (s : State) (n : Nat) : (delCmd s n).weights = s.weights := rfl
@[simp] theorem delCmd_power (s : State) (n : Nat) : (delCmd s n).power = s.power := rfl
@[simp] theorem delCmd_parts (s : State) (n : Nat) : (delCmd s n).parts = s.parts := rfl
@[simp] theorem delCmd_mgmt (s : State) (n : Nat) : (delCmd s n).mgmt = s.mgmt := rfl
@[simp] theorem delCmd_boot (s : State) (n : Nat) : (delCmd s n).boot = s.boot := rfl
@[simp] theorem delCmd_bootSrc (s : State) (n : Nat) : (delCmd s n).bootSrc = s.bootSrc := rfl
@[simp] theorem delCmd_image (s : State) (n : Nat) : (delCmd s n).image = s.image := rfl
@[simp] theorem delCmd_pkg (s : State) (n : Nat) : (delCmd s n).pkg = s.pkg := rfl
@[simp] theorem delCmd_emerg (s : State) (n : Nat) : (delCmd s n).emerg = s.emerg := rfl
@[simp] theorem delCmd_msix (s : State) (n : Nat) : (delCmd s n).msix = s.msix := rfl
@[simp] theorem delCmd_reply (s : State) (n : Nat) : (delCmd s n).reply = s.reply := rfl
@[simp] theorem delCmd_cur (s : State) (n : Nat) : (delCmd s n).cur = s.cur := rfl
@[simp] theorem delCmd_issuing (s : State) (n : Nat) : (delCmd s n).issuing = s.issuing := rfl
@[simp] theorem delCmd_agenda (s : State) (n : Nat) : (delCmd s n).agenda = s.agenda := rfl
@[simp] theorem delCmd_fresh (s : State) (n : Nat) : (delCmd s n).fresh = s.fresh := rfl
@[simp] theorem setL1_mem (s : State) (i n : Nat) (x : Option L1Line) : (setL1 s i n x).mem = s.mem := rfl
@[simp] theorem setL1_poison (s : State) (i n : Nat) (x : Option L1Line) : (setL1 s i n x).poison = s.poison := rfl
@[simp] theorem setL1_bankErr (s : State) (i n : Nat) (x : Option L1Line) : (setL1 s i n x).bankErr = s.bankErr := rfl
@[simp] theorem setL1_scratch (s : State) (i n : Nat) (x : Option L1Line) : (setL1 s i n x).scratch = s.scratch := rfl
@[simp] theorem setL1_tsc (s : State) (i n : Nat) (x : Option L1Line) : (setL1 s i n x).tsc = s.tsc := rfl
@[simp] theorem setL1_clutches (s : State) (i n : Nat) (x : Option L1Line) : (setL1 s i n x).clutches = s.clutches := rfl
@[simp] theorem setL1_tasks (s : State) (i n : Nat) (x : Option L1Line) : (setL1 s i n x).tasks = s.tasks := rfl
@[simp] theorem setL1_gangs (s : State) (i n : Nat) (x : Option L1Line) : (setL1 s i n x).gangs = s.gangs := rfl
@[simp] theorem setL1_launches (s : State) (i n : Nat) (x : Option L1Line) : (setL1 s i n x).launches = s.launches := rfl
@[simp] theorem setL1_lines (s : State) (i n : Nat) (x : Option L1Line) : (setL1 s i n x).lines = s.lines := rfl
@[simp] theorem setL1_cmds (s : State) (i n : Nat) (x : Option L1Line) : (setL1 s i n x).cmds = s.cmds := rfl
@[simp] theorem setL1_icache (s : State) (i n : Nat) (x : Option L1Line) : (setL1 s i n x).icache = s.icache := rfl
@[simp] theorem setL1_toks (s : State) (i n : Nat) (x : Option L1Line) : (setL1 s i n x).toks = s.toks := rfl
@[simp] theorem setL1_hostHas (s : State) (i n : Nat) (x : Option L1Line) : (setL1 s i n x).hostHas = s.hostHas := rfl
@[simp] theorem setL1_msgs (s : State) (i n : Nat) (x : Option L1Line) : (setL1 s i n x).msgs = s.msgs := rfl
@[simp] theorem setL1_tlb (s : State) (i n : Nat) (x : Option L1Line) : (setL1 s i n x).tlb = s.tlb := rfl
@[simp] theorem setL1_extCache (s : State) (i n : Nat) (x : Option L1Line) : (setL1 s i n x).extCache = s.extCache := rfl
@[simp] theorem setL1_sync (s : State) (i n : Nat) (x : Option L1Line) : (setL1 s i n x).sync = s.sync := rfl
@[simp] theorem setL1_cols (s : State) (i n : Nat) (x : Option L1Line) : (setL1 s i n x).cols = s.cols := rfl
@[simp] theorem setL1_cores (s : State) (i n : Nat) (x : Option L1Line) : (setL1 s i n x).cores = s.cores := rfl
@[simp] theorem setL1_fifos (s : State) (i n : Nat) (x : Option L1Line) : (setL1 s i n x).fifos = s.fifos := rfl
@[simp] theorem setL1_promo (s : State) (i n : Nat) (x : Option L1Line) : (setL1 s i n x).promo = s.promo := rfl
@[simp] theorem setL1_links (s : State) (i n : Nat) (x : Option L1Line) : (setL1 s i n x).links = s.links := rfl
@[simp] theorem setL1_uals (s : State) (i n : Nat) (x : Option L1Line) : (setL1 s i n x).uals = s.uals := rfl
@[simp] theorem setL1_ethRate (s : State) (i n : Nat) (x : Option L1Line) : (setL1 s i n x).ethRate = s.ethRate := rfl
@[simp] theorem setL1_pager (s : State) (i n : Nat) (x : Option L1Line) : (setL1 s i n x).pager = s.pager := rfl
@[simp] theorem setL1_ctxs (s : State) (i n : Nat) (x : Option L1Line) : (setL1 s i n x).ctxs = s.ctxs := rfl
@[simp] theorem setL1_weights (s : State) (i n : Nat) (x : Option L1Line) : (setL1 s i n x).weights = s.weights := rfl
@[simp] theorem setL1_power (s : State) (i n : Nat) (x : Option L1Line) : (setL1 s i n x).power = s.power := rfl
@[simp] theorem setL1_parts (s : State) (i n : Nat) (x : Option L1Line) : (setL1 s i n x).parts = s.parts := rfl
@[simp] theorem setL1_mgmt (s : State) (i n : Nat) (x : Option L1Line) : (setL1 s i n x).mgmt = s.mgmt := rfl
@[simp] theorem setL1_boot (s : State) (i n : Nat) (x : Option L1Line) : (setL1 s i n x).boot = s.boot := rfl
@[simp] theorem setL1_bootSrc (s : State) (i n : Nat) (x : Option L1Line) : (setL1 s i n x).bootSrc = s.bootSrc := rfl
@[simp] theorem setL1_image (s : State) (i n : Nat) (x : Option L1Line) : (setL1 s i n x).image = s.image := rfl
@[simp] theorem setL1_pkg (s : State) (i n : Nat) (x : Option L1Line) : (setL1 s i n x).pkg = s.pkg := rfl
@[simp] theorem setL1_emerg (s : State) (i n : Nat) (x : Option L1Line) : (setL1 s i n x).emerg = s.emerg := rfl
@[simp] theorem setL1_msix (s : State) (i n : Nat) (x : Option L1Line) : (setL1 s i n x).msix = s.msix := rfl
@[simp] theorem setL1_reply (s : State) (i n : Nat) (x : Option L1Line) : (setL1 s i n x).reply = s.reply := rfl
@[simp] theorem setL1_cur (s : State) (i n : Nat) (x : Option L1Line) : (setL1 s i n x).cur = s.cur := rfl
@[simp] theorem setL1_issuing (s : State) (i n : Nat) (x : Option L1Line) : (setL1 s i n x).issuing = s.issuing := rfl
@[simp] theorem setL1_agenda (s : State) (i n : Nat) (x : Option L1Line) : (setL1 s i n x).agenda = s.agenda := rfl
@[simp] theorem setL1_fresh (s : State) (i n : Nat) (x : Option L1Line) : (setL1 s i n x).fresh = s.fresh := rfl
@[simp] theorem setFifo_mem (s : State) (n : Nat) (l : List (BitVec 1024)) : (setFifo s n l).mem = s.mem := rfl
@[simp] theorem setFifo_poison (s : State) (n : Nat) (l : List (BitVec 1024)) : (setFifo s n l).poison = s.poison := rfl
@[simp] theorem setFifo_bankErr (s : State) (n : Nat) (l : List (BitVec 1024)) : (setFifo s n l).bankErr = s.bankErr := rfl
@[simp] theorem setFifo_scratch (s : State) (n : Nat) (l : List (BitVec 1024)) : (setFifo s n l).scratch = s.scratch := rfl
@[simp] theorem setFifo_tsc (s : State) (n : Nat) (l : List (BitVec 1024)) : (setFifo s n l).tsc = s.tsc := rfl
@[simp] theorem setFifo_clutches (s : State) (n : Nat) (l : List (BitVec 1024)) : (setFifo s n l).clutches = s.clutches := rfl
@[simp] theorem setFifo_tasks (s : State) (n : Nat) (l : List (BitVec 1024)) : (setFifo s n l).tasks = s.tasks := rfl
@[simp] theorem setFifo_gangs (s : State) (n : Nat) (l : List (BitVec 1024)) : (setFifo s n l).gangs = s.gangs := rfl
@[simp] theorem setFifo_launches (s : State) (n : Nat) (l : List (BitVec 1024)) : (setFifo s n l).launches = s.launches := rfl
@[simp] theorem setFifo_lines (s : State) (n : Nat) (l : List (BitVec 1024)) : (setFifo s n l).lines = s.lines := rfl
@[simp] theorem setFifo_cmds (s : State) (n : Nat) (l : List (BitVec 1024)) : (setFifo s n l).cmds = s.cmds := rfl
@[simp] theorem setFifo_l1 (s : State) (n : Nat) (l : List (BitVec 1024)) : (setFifo s n l).l1 = s.l1 := rfl
@[simp] theorem setFifo_icache (s : State) (n : Nat) (l : List (BitVec 1024)) : (setFifo s n l).icache = s.icache := rfl
@[simp] theorem setFifo_toks (s : State) (n : Nat) (l : List (BitVec 1024)) : (setFifo s n l).toks = s.toks := rfl
@[simp] theorem setFifo_hostHas (s : State) (n : Nat) (l : List (BitVec 1024)) : (setFifo s n l).hostHas = s.hostHas := rfl
@[simp] theorem setFifo_msgs (s : State) (n : Nat) (l : List (BitVec 1024)) : (setFifo s n l).msgs = s.msgs := rfl
@[simp] theorem setFifo_tlb (s : State) (n : Nat) (l : List (BitVec 1024)) : (setFifo s n l).tlb = s.tlb := rfl
@[simp] theorem setFifo_extCache (s : State) (n : Nat) (l : List (BitVec 1024)) : (setFifo s n l).extCache = s.extCache := rfl
@[simp] theorem setFifo_sync (s : State) (n : Nat) (l : List (BitVec 1024)) : (setFifo s n l).sync = s.sync := rfl
@[simp] theorem setFifo_cols (s : State) (n : Nat) (l : List (BitVec 1024)) : (setFifo s n l).cols = s.cols := rfl
@[simp] theorem setFifo_cores (s : State) (n : Nat) (l : List (BitVec 1024)) : (setFifo s n l).cores = s.cores := rfl
@[simp] theorem setFifo_promo (s : State) (n : Nat) (l : List (BitVec 1024)) : (setFifo s n l).promo = s.promo := rfl
@[simp] theorem setFifo_links (s : State) (n : Nat) (l : List (BitVec 1024)) : (setFifo s n l).links = s.links := rfl
@[simp] theorem setFifo_uals (s : State) (n : Nat) (l : List (BitVec 1024)) : (setFifo s n l).uals = s.uals := rfl
@[simp] theorem setFifo_ethRate (s : State) (n : Nat) (l : List (BitVec 1024)) : (setFifo s n l).ethRate = s.ethRate := rfl
@[simp] theorem setFifo_pager (s : State) (n : Nat) (l : List (BitVec 1024)) : (setFifo s n l).pager = s.pager := rfl
@[simp] theorem setFifo_ctxs (s : State) (n : Nat) (l : List (BitVec 1024)) : (setFifo s n l).ctxs = s.ctxs := rfl
@[simp] theorem setFifo_weights (s : State) (n : Nat) (l : List (BitVec 1024)) : (setFifo s n l).weights = s.weights := rfl
@[simp] theorem setFifo_power (s : State) (n : Nat) (l : List (BitVec 1024)) : (setFifo s n l).power = s.power := rfl
@[simp] theorem setFifo_parts (s : State) (n : Nat) (l : List (BitVec 1024)) : (setFifo s n l).parts = s.parts := rfl
@[simp] theorem setFifo_mgmt (s : State) (n : Nat) (l : List (BitVec 1024)) : (setFifo s n l).mgmt = s.mgmt := rfl
@[simp] theorem setFifo_boot (s : State) (n : Nat) (l : List (BitVec 1024)) : (setFifo s n l).boot = s.boot := rfl
@[simp] theorem setFifo_bootSrc (s : State) (n : Nat) (l : List (BitVec 1024)) : (setFifo s n l).bootSrc = s.bootSrc := rfl
@[simp] theorem setFifo_image (s : State) (n : Nat) (l : List (BitVec 1024)) : (setFifo s n l).image = s.image := rfl
@[simp] theorem setFifo_pkg (s : State) (n : Nat) (l : List (BitVec 1024)) : (setFifo s n l).pkg = s.pkg := rfl
@[simp] theorem setFifo_emerg (s : State) (n : Nat) (l : List (BitVec 1024)) : (setFifo s n l).emerg = s.emerg := rfl
@[simp] theorem setFifo_msix (s : State) (n : Nat) (l : List (BitVec 1024)) : (setFifo s n l).msix = s.msix := rfl
@[simp] theorem setFifo_reply (s : State) (n : Nat) (l : List (BitVec 1024)) : (setFifo s n l).reply = s.reply := rfl
@[simp] theorem setFifo_cur (s : State) (n : Nat) (l : List (BitVec 1024)) : (setFifo s n l).cur = s.cur := rfl
@[simp] theorem setFifo_issuing (s : State) (n : Nat) (l : List (BitVec 1024)) : (setFifo s n l).issuing = s.issuing := rfl
@[simp] theorem setFifo_agenda (s : State) (n : Nat) (l : List (BitVec 1024)) : (setFifo s n l).agenda = s.agenda := rfl
@[simp] theorem setFifo_fresh (s : State) (n : Nat) (l : List (BitVec 1024)) : (setFifo s n l).fresh = s.fresh := rfl
@[simp] theorem startNext_mem (s : State) (l : List Instr) : (startNext s l).mem = s.mem := rfl
@[simp] theorem startNext_poison (s : State) (l : List Instr) : (startNext s l).poison = s.poison := rfl
@[simp] theorem startNext_bankErr (s : State) (l : List Instr) : (startNext s l).bankErr = s.bankErr := rfl
@[simp] theorem startNext_scratch (s : State) (l : List Instr) : (startNext s l).scratch = s.scratch := rfl
@[simp] theorem startNext_tsc (s : State) (l : List Instr) : (startNext s l).tsc = s.tsc := rfl
@[simp] theorem startNext_clutches (s : State) (l : List Instr) : (startNext s l).clutches = s.clutches := rfl
@[simp] theorem startNext_tasks (s : State) (l : List Instr) : (startNext s l).tasks = s.tasks := rfl
@[simp] theorem startNext_gangs (s : State) (l : List Instr) : (startNext s l).gangs = s.gangs := rfl
@[simp] theorem startNext_launches (s : State) (l : List Instr) : (startNext s l).launches = s.launches := rfl
@[simp] theorem startNext_lines (s : State) (l : List Instr) : (startNext s l).lines = s.lines := rfl
@[simp] theorem startNext_cmds (s : State) (l : List Instr) : (startNext s l).cmds = s.cmds := rfl
@[simp] theorem startNext_l1 (s : State) (l : List Instr) : (startNext s l).l1 = s.l1 := rfl
@[simp] theorem startNext_icache (s : State) (l : List Instr) : (startNext s l).icache = s.icache := rfl
@[simp] theorem startNext_toks (s : State) (l : List Instr) : (startNext s l).toks = s.toks := rfl
@[simp] theorem startNext_hostHas (s : State) (l : List Instr) : (startNext s l).hostHas = s.hostHas := rfl
@[simp] theorem startNext_msgs (s : State) (l : List Instr) : (startNext s l).msgs = s.msgs := rfl
@[simp] theorem startNext_tlb (s : State) (l : List Instr) : (startNext s l).tlb = s.tlb := rfl
@[simp] theorem startNext_extCache (s : State) (l : List Instr) : (startNext s l).extCache = s.extCache := rfl
@[simp] theorem startNext_sync (s : State) (l : List Instr) : (startNext s l).sync = s.sync := rfl
@[simp] theorem startNext_cols (s : State) (l : List Instr) : (startNext s l).cols = s.cols := rfl
@[simp] theorem startNext_cores (s : State) (l : List Instr) : (startNext s l).cores = s.cores := rfl
@[simp] theorem startNext_fifos (s : State) (l : List Instr) : (startNext s l).fifos = s.fifos := rfl
@[simp] theorem startNext_promo (s : State) (l : List Instr) : (startNext s l).promo = s.promo := rfl
@[simp] theorem startNext_links (s : State) (l : List Instr) : (startNext s l).links = s.links := rfl
@[simp] theorem startNext_uals (s : State) (l : List Instr) : (startNext s l).uals = s.uals := rfl
@[simp] theorem startNext_ethRate (s : State) (l : List Instr) : (startNext s l).ethRate = s.ethRate := rfl
@[simp] theorem startNext_pager (s : State) (l : List Instr) : (startNext s l).pager = s.pager := rfl
@[simp] theorem startNext_ctxs (s : State) (l : List Instr) : (startNext s l).ctxs = s.ctxs := rfl
@[simp] theorem startNext_weights (s : State) (l : List Instr) : (startNext s l).weights = s.weights := rfl
@[simp] theorem startNext_power (s : State) (l : List Instr) : (startNext s l).power = s.power := rfl
@[simp] theorem startNext_parts (s : State) (l : List Instr) : (startNext s l).parts = s.parts := rfl
@[simp] theorem startNext_mgmt (s : State) (l : List Instr) : (startNext s l).mgmt = s.mgmt := rfl
@[simp] theorem startNext_boot (s : State) (l : List Instr) : (startNext s l).boot = s.boot := rfl
@[simp] theorem startNext_bootSrc (s : State) (l : List Instr) : (startNext s l).bootSrc = s.bootSrc := rfl
@[simp] theorem startNext_image (s : State) (l : List Instr) : (startNext s l).image = s.image := rfl
@[simp] theorem startNext_pkg (s : State) (l : List Instr) : (startNext s l).pkg = s.pkg := rfl
@[simp] theorem startNext_emerg (s : State) (l : List Instr) : (startNext s l).emerg = s.emerg := rfl
@[simp] theorem startNext_msix (s : State) (l : List Instr) : (startNext s l).msix = s.msix := rfl
@[simp] theorem startNext_reply (s : State) (l : List Instr) : (startNext s l).reply = s.reply := rfl
@[simp] theorem startNext_cur (s : State) (l : List Instr) : (startNext s l).cur = s.cur := rfl
@[simp] theorem startNext_issuing (s : State) (l : List Instr) : (startNext s l).issuing = s.issuing := rfl
@[simp] theorem startNext_fresh (s : State) (l : List Instr) : (startNext s l).fresh = s.fresh := rfl

/-! ### Reading back -/

theorem taskAt_setTask (s : State) (a b : Nat) (x : Task) : taskAt (setTask s a x) b = if b = a then some x else taskAt s b := by
  unfold taskAt setTask; rw [tget_tput]
theorem gangAt_setGang (s : State) (a b : Nat) (x : Gang) : gangAt (setGang s a x) b = if b = a then some x else gangAt s b := by
  unfold gangAt setGang; rw [tget_tput]
theorem launchAt_setLaunch (s : State) (a b : Nat) (x : Launch) :
    launchAt (setLaunch s a x) b = if b = a then some x else launchAt s b := by
  unfold launchAt setLaunch; rw [tget_tput]
theorem cmdAt_setCmd (s : State) (a b : Nat) (x : Cmd) : cmdAt (setCmd s a x) b = if b = a then some x else cmdAt s b := by
  unfold cmdAt setCmd; rw [tget_tput]
theorem lineAt_setLine (s : State) (a b : Nat) (x : Line) : lineAt (setLine s a x) b = if b = a then x else lineAt s b := tget_tput ..
theorem promoAt_setPromo (s : State) (a b : Nat) (x : Promo) : promoAt (setPromo s a x) b = if b = a then x else promoAt s b :=
  tget_tput ..
theorem coreAt_setCore (s : State) (a b : Nat) (x : CoreSt) : coreAt (setCore s a x) b = if b = a then x else coreAt s b :=
  tget_tput ..
theorem colAt_setCol (s : State) (a b : Nat) (x : Column) : colAt (setCol s a x) b = if b = a then x else colAt s b := by
  unfold colAt setCol
  rw [tget_tput]
  split <;> rfl
theorem partAt_setPart (s : State) (a b : Nat) (x : Part) : partAt (setPart s a x) b = if b = a then x else partAt s b := by
  unfold partAt setPart
  rw [tget_tput]
  split
  · subst_vars; rfl
  · rfl

end Sys2Proof.Machine
end

