-- ==== Sys2Proof/Laws/Memory.lean ====
section
/-! SUPPORT. Every operation that writes memory keeps its canonical form, and reads back what it wrote. -/

namespace Sys2Proof.Machine

/-! ### Lists of cells -/

theorem memory_wf_tput {m : List Host.Cell} (w : Memory.wf m = true) (a : Nat) (b : Byte) : Memory.wf (tput 0 m a b) = true :=
  twf_tput a b w

theorem tsorted_filter {α : Type} (p : Nat × α → Bool) : ∀ (t : Tab α) (a : Nat), tsorted a t = true → tsorted a (t.filter p) = true := by
  intro t
  induction t with
  | nil => exact fun _ h => h
  | cons x t ih =>
    intro a h
    obtain ⟨k, v⟩ := x
    simp only [tsorted, Bool.and_eq_true, decide_eq_true_eq] at h
    rw [List.filter_cons]
    split
    · simp only [tsorted, Bool.and_eq_true, decide_eq_true_eq]
      exact ⟨h.1, ih _ h.2⟩
    · exact ih _ (tsorted_mono (by omega) h.2)

theorem memory_wf_filter {m : List Host.Cell} (w : Memory.wf m = true) (p : Host.Cell → Bool) : Memory.wf (m.filter p) = true := by
  simp only [Memory.wf, twf, Bool.and_eq_true, List.all_eq_true] at w ⊢
  exact ⟨tsorted_filter p m 0 w.1, fun x hx => w.2 x (List.mem_of_mem_filter hx)⟩

theorem memory_wf_foldl {β : Type} {f : List Host.Cell → β → List Host.Cell} (hf : ∀ m b, Memory.wf m = true → Memory.wf (f m b) = true) :
    ∀ (l : List β) (m : List Host.Cell), Memory.wf m = true → Memory.wf (l.foldl f m) = true := by
  intro l
  induction l with
  | nil => exact fun _ h => h
  | cons b l ih => exact fun m h => ih _ (hf m b h)

theorem memory_wf_pokeBytes : ∀ (bs : List Byte) (m : List Host.Cell) (pa : Nat), Memory.wf m = true → Memory.wf (pokeBytes m pa bs) = true := by
  intro bs
  induction bs with
  | nil => exact fun _ _ h => h
  | cons b t ih => exact fun m pa h => ih _ _ (memory_wf_tput h pa b)

/-- A byte read after one was written. -/
theorem byte_tput (m : List Host.Cell) (a b : Nat) (x : Byte) : tget 0 (tput 0 m a x) b = if b = a then x else tget 0 m b := tget_tput ..

/-! ### The machine's memory -/

theorem memory_wf_reset : Memory.wf State.reset.mem = true := by decide

theorem memory_wf_memPutLine {s : State} (w : Memory.wf s.mem = true) (line : Nat) (d : BitVec 1024) (m : BitVec 128) :
    Memory.wf (memPutLine s line d m).mem = true := by
  refine memory_wf_foldl (fun t i h => ?_) _ _ w
  split
  · exact memory_wf_tput h _ _
  · exact h

theorem memory_wf_unfresh {s : State} (w : Memory.wf s.mem = true) (c bo : Nat) : Memory.wf (unfresh s c bo).mem = true := by
  unfold unfresh
  split
  · exact memory_wf_filter w _
  · exact w

/-- Posting a record of an error leaves memory as it is. -/
@[simp] theorem postEcc_mem (s : State) (c : Nat) (ue scrub : Bool) (bo w b : Nat) : (postEcc s c ue scrub bo w b).mem = s.mem := by
  unfold postEcc
  split <;> rfl

theorem foldl_mem {β : Type} {f : State → β → State} (hf : ∀ s b, (f s b).mem = s.mem) :
    ∀ (l : List β) (s : State), (l.foldl f s).mem = s.mem := by
  intro l
  induction l with
  | nil => exact fun _ => rfl
  | cons b l ih => exact fun s => (ih _).trans (hf s b)

/-- The check of the old words of a partial write changes no byte. -/
@[simp] theorem bankCheckOld_mem (s : State) (c line : Nat) (m : BitVec 128) : (bankCheckOld s c line m).mem = s.mem := by
  unfold bankCheckOld
  dsimp only
  split
  · rfl
  · refine foldl_mem (fun s i => ?_) _ _
    repeat' split
    all_goals simp

theorem memory_wf_bankPut {s : State} (w : Memory.wf s.mem = true) (c line : Nat) (d : BitVec 1024) (m : BitVec 128) :
    Memory.wf (bankPut s c line d m).mem = true := by
  unfold bankPut
  dsimp only
  split
  · exact w
  · refine memory_wf_memPutLine ?_ _ _ _
    exact memory_wf_unfresh w _ _

theorem memory_wf_bankWriteLine {s : State} (w : Memory.wf s.mem = true) (c line : Nat) (d : BitVec 1024) (m : BitVec 128) :
    Memory.wf (bankWriteLine s c line d m).mem = true := by
  unfold bankWriteLine
  split
  · exact w
  · exact memory_wf_bankPut (by rw [bankCheckOld_mem]; exact w) _ _ _ _

theorem foldl_fst_mem {β γ : Type} {f : State × γ → β → State × γ} (hf : ∀ p b, (f p b).1.mem = p.1.mem) :
    ∀ (l : List β) (p : State × γ), (l.foldl f p).1.mem = p.1.mem := by
  intro l
  induction l with
  | nil => exact fun _ => rfl
  | cons b l ih => exact fun p => (ih _).trans (hf p b)

/-- Reading a bank line changes no byte of memory. -/
@[simp] theorem bankReadLine_mem (s : State) (c line : Nat) (scrub : Bool) : (bankReadLine s c line scrub).1.mem = s.mem := by
  unfold bankReadLine
  dsimp only
  split
  · rfl
  · split
    · rfl
    · generalize List.range 16 = l
      rw [foldl_fst_mem]
      intro p i
      split <;> simp

@[simp] theorem setSlice_mem (s : State) (c line : Nat) (x : Option SliceLine) : (setSlice s c line x).mem = s.mem := rfl

theorem memory_wf_sliceOut {s : State} (w : Memory.wf s.mem = true) (c line : Nat) : Memory.wf (sliceOut s c line).mem = true := by
  unfold sliceOut
  split
  · exact w
  · split
    · exact w
    · exact memory_wf_bankWriteLine (s := setSlice s c line none) w _ _ _ _

theorem memory_wf_sliceRoom {s : State} (w : Memory.wf s.mem = true) (c line : Nat) : Memory.wf (sliceRoom s c line).mem = true := by
  unfold sliceRoom
  dsimp only
  split
  · exact w
  · exact memory_wf_sliceOut (s := { s with fresh := s.fresh + 1 }) w _ _

theorem memory_wf_sliceEnter {s : State} (w : Memory.wf s.mem = true) (c line : Nat) (x : SliceLine) :
    Memory.wf (sliceEnter s c line x).mem = true := by
  unfold sliceEnter
  split
  · exact w
  · exact memory_wf_sliceRoom w _ _

theorem memory_wf_sliceTouch {s : State} (w : Memory.wf s.mem = true) (c line : Nat) : Memory.wf (sliceTouch s c line).mem = true := by
  unfold sliceTouch
  split
  · split
    · exact w
    · exact memory_wf_sliceEnter w _ _ _
  · split
    · exact w
    · exact memory_wf_sliceEnter w _ _ _
  · exact w

theorem memory_wf_bankFetch {s : State} (w : Memory.wf s.mem = true) (line : Nat) : Memory.wf (bankFetch s line).mem = true := by
  unfold bankFetch
  dsimp only
  split
  · split
    · exact w
    · exact memory_wf_sliceEnter (by rw [bankReadLine_mem]; exact w) _ _ _
  · exact w

theorem memory_wf_performLine {s : State} (w : Memory.wf s.mem = true) (line : Nat) (d : BitVec 1024) (m : BitVec 128) (p : Bool) :
    Memory.wf (performLine s line d m p).mem = true := by
  unfold performLine
  dsimp only
  split
  · rw [setSlice_mem]
    refine memory_wf_sliceRoom ?_ _ _
    exact w
  · exact w
  · exact w
  · refine memory_wf_memPutLine ?_ _ _ _
    exact w

theorem memory_wf_performBytes : ∀ (bs : List Byte) (s : State) (pa : Nat), Memory.wf s.mem = true → Memory.wf (performBytes s pa bs).mem = true := by
  intro bs
  induction bs with
  | nil => exact fun _ _ h => h
  | cons b t ih => exact fun s pa h => ih _ _ (memory_wf_performLine h _ _ _ _)

theorem memory_wf_sliceDrop {s : State} (w : Memory.wf s.mem = true) (line : Nat) : Memory.wf (sliceDrop s line).mem = true := by
  unfold sliceDrop
  split
  · exact memory_wf_sliceOut w _ _
  · exact w

@[simp] theorem recallHost_mem (s : State) (line : Nat) : (recallHost s line).mem = s.mem := by
  unfold recallHost
  split <;> rfl

@[simp] theorem unwatch_mem (s : State) (line : Nat) : (unwatch s line).mem = s.mem := by
  unfold unwatch
  split <;> rfl

/-- Gathering tokens moves no byte. -/
theorem gatherAll_mem {s t : State} {die line : Nat} {me : Option Nat} (h : gatherAll s die line me = some t) : t.mem = s.mem := by
  unfold gatherAll at h
  split at h
  · cases h; exact (unwatch_mem _ _).trans (recallHost_mem s line)
  · cases h

theorem memory_wf_performAt {s t : State} (w : Memory.wf s.mem = true) {die pa : Nat} {bs : List Byte} (h : performAt s die pa bs = some t) :
    Memory.wf t.mem = true := by
  unfold performAt at h
  split at h
  · cases h
  · rename_i s1 h1
    split at h
    · cases h
    · rename_i s2 h2
      cases h
      refine memory_wf_performBytes _ _ _ ?_
      split at h2
      · cases h2; rw [gatherAll_mem h1]; exact w
      · rw [gatherAll_mem h2, gatherAll_mem h1]; exact w

theorem memory_wf_placeWord {s : State} (w : Memory.wf s.mem = true) (n x : Nat) : Memory.wf (placeWord s n x).mem = true := by
  have h : Memory.wf (placeMem s.mem x) = true := by
    unfold placeMem
    exact memory_wf_pokeBytes _ _ _ (memory_wf_pokeBytes _ _ _ (memory_wf_pokeBytes _ _ _ (memory_wf_pokeBytes _ _ _
      (memory_wf_pokeBytes _ _ _ (memory_wf_pokeBytes _ _ _ w)))))
  unfold placeWord
  dsimp only
  split <;> exact h

end Sys2Proof.Machine
end

