-- ==== Sys2Proof/Laws/Trap.lean ====
section
/-! SUPPORT. Taking an exception, returning from one, and ending an atomic region: each changes clutches, tasks, the host core of a
column, the counter of free values and where tokens of lines are, and nothing else of the machine; no memory, no cache, no engine. -/

namespace Sys2Proof.Machine

/-- `t` differs from `s` at most in clutches, tasks, columns, the counter of free values, and the tokens of lines with the host's copies
and the re-reads that moving them calls for. -/
def ClutchOnly (s t : State) : Prop :=
  t = { s with clutches := t.clutches, tasks := t.tasks, cols := t.cols, fresh := t.fresh, toks := t.toks, msgs := t.msgs,
               hostHas := t.hostHas, agenda := t.agenda }

theorem ClutchOnly.refl (s : State) : ClutchOnly s s := rfl

theorem ClutchOnly.trans {a b c : State} (h : ClutchOnly a b) (k : ClutchOnly b c) : ClutchOnly a c := by
  unfold ClutchOnly at *
  rw [k, h]

theorem ClutchOnly.mem {s t : State} (h : ClutchOnly s t) : t.mem = s.mem := by rw [h]
theorem ClutchOnly.scratch {s t : State} (h : ClutchOnly s t) : t.scratch = s.scratch := by rw [h]
theorem ClutchOnly.l1 {s t : State} (h : ClutchOnly s t) : t.l1 = s.l1 := by rw [h]
theorem ClutchOnly.cmds {s t : State} (h : ClutchOnly s t) : t.cmds = s.cmds := by rw [h]

theorem clutchOnly_setClutch (s : State) (n : Nat) (c : Clutch) : ClutchOnly s (setClutch s n c) := rfl
theorem clutchOnly_modClutch (s : State) (n : Nat) (f : Clutch → Clutch) : ClutchOnly s (modClutch s n f) := rfl
theorem clutchOnly_setTask (s : State) (n : Nat) (x : Task) : ClutchOnly s (setTask s n x) := rfl
theorem clutchOnly_modHost (s : State) (n : Nat) (f : HostCore → HostCore) : ClutchOnly s (modHost s n f) := rfl
theorem clutchOnly_waitFor (s : State) (n : Nat) (k : WaitKind) (i : Instr) : ClutchOnly s (waitFor s n k i) := rfl

theorem clutchOnly_havoc : ∀ (l : List Dst) (s : State) (n : Nat), ClutchOnly s (havoc s n l)
  | [], s, _ => .refl s
  | _ :: l, s, n => .trans (b := modClutch (freeW s).2 n _) rfl (clutchOnly_havoc l _ n)

theorem clutchOnly_freeD (s : State) : ClutchOnly s (freeD s).2 := rfl
theorem clutchOnly_freeW (s : State) : ClutchOnly s (freeW s).2 := rfl

theorem clutchOnly_havocA : ∀ (l : List Nat) (s : State) (n : Nat), ClutchOnly s (havocA s n l)
  | [], s, _ => .refl s
  | a :: l, s, n => by
    rw [havocA]
    refine .trans ?_ (clutchOnly_havocA l _ n)
    exact .trans (.trans (clutchOnly_freeD s) (clutchOnly_freeD _)) (.trans (.trans (clutchOnly_freeD _) (clutchOnly_freeW _))
      (clutchOnly_modClutch _ n _))

theorem clutchOnly_ite {s a b : State} {c : Prop} [Decidable c] (ha : ClutchOnly s a) (hb : ClutchOnly s b) :
    ClutchOnly s (if c then a else b) := by
  split
  · exact ha
  · exact hb

theorem clutchOnly_foldl {β : Type} {f : State → β → State} (hf : ∀ s b, ClutchOnly s (f s b)) :
    ∀ (l : List β) (s : State), ClutchOnly s (l.foldl f s)
  | [], s => .refl s
  | b :: l, s => .trans (hf s b) (clutchOnly_foldl hf l (f s b))

theorem clutchOnly_recallHost (s : State) (line : Nat) : ClutchOnly s (recallHost s line) := by
  unfold recallHost
  exact clutchOnly_ite rfl (.refl s)

theorem clutchOnly_unwatch (s : State) (line : Nat) : ClutchOnly s (unwatch s line) := by
  unfold unwatch
  exact clutchOnly_ite rfl (.refl s)

theorem clutchOnly_watchEnd (s : State) (line src : Nat) : ClutchOnly s (watchEnd s line src) := by
  unfold watchEnd
  exact clutchOnly_ite (clutchOnly_unwatch s line) (.refl s)

theorem clutchOnly_setTok (s : State) (line : Nat) (x : LineTok) : ClutchOnly s (setTok s line x) := rfl

/-- Sending tokens moves no byte (01 R39). -/
theorem clutchOnly_sendTok (s : State) (wb : Bool) (line src dst n : Nat) (flag : Bool) : ClutchOnly s (sendTok s wb line src dst n flag) := by
  unfold sendTok
  dsimp only
  refine .trans ?_ (clutchOnly_watchEnd _ line src)
  cases wb
  · exact .trans (clutchOnly_recallHost s line) rfl
  · rfl

theorem clutchOnly_forwardActive (s : State) (line die : Nat) : ClutchOnly s (forwardActive s line die) := by
  unfold forwardActive
  split
  · exact .refl s
  · exact clutchOnly_ite (.refl s) (clutchOnly_sendTok ..)

theorem clutchOnly_forwardLines (s : State) (die : Nat) (ls : List Nat) : ClutchOnly s (forwardLines s die ls) :=
  clutchOnly_foldl (fun s l => clutchOnly_forwardActive s l die) ls s

theorem clutchOnly_regionOut (s : State) (n : Nat) (st : Option Nat) : ClutchOnly s (regionOut s n st) := by
  unfold regionOut
  split
  · exact .refl s
  · next g _ => exact .trans (.trans (clutchOnly_havoc g.wrote s n) (clutchOnly_havocA g.wroteA _ n)) rfl

theorem clutchOnly_regionEnd (s : State) (n : Nat) (st : Option Nat) : ClutchOnly s (regionEnd s n st) :=
  .trans (clutchOnly_regionOut s n st) (clutchOnly_forwardLines ..)

/-- The end of a region leaves memory and caches alone (10 R379). -/
theorem clutchOnly_regionAbort (s : State) (n st : Nat) : ClutchOnly s (regionAbort s n st) := clutchOnly_regionEnd s n (some st)

theorem clutchOnly_failTask (s : State) (t code reason : Nat) : ClutchOnly s (failTask s t code reason) := by
  unfold failTask
  split
  · exact .refl s
  · exact .trans (clutchOnly_setTask s t _) (clutchOnly_foldl (fun s n => clutchOnly_modClutch s n _) _ _)

/-- Entry of a SIMT clutch (12 R457). -/
theorem clutchOnly_trapSimt (s : State) (n cause : Nat) (addr : Dword) (mask l : Mask) (tpc : BitVec 53) :
    ClutchOnly s (trapSimt s n cause addr mask l tpc) := by
  unfold trapSimt
  dsimp only
  split
  · exact .refl s
  · split
    · exact .refl s
    · split
      · exact clutchOnly_failTask ..
      · split
        · exact clutchOnly_failTask ..
        · rfl

/-- Entry of a host core (12 R458). -/
theorem clutchOnly_trapHost (s : State) (n cause : Nat) (int : Option Nat) (addr : Dword) (mask : Mask) (tpc : BitVec 53) :
    ClutchOnly s (trapHost s n cause int addr mask tpc) := by
  unfold trapHost
  dsimp only
  split <;> rfl

/-- Return from a handler (12 R459). -/
theorem clutchOnly_trapReturn (s : State) (n : Nat) : ClutchOnly s (trapReturn s n) := by
  unfold trapReturn
  exact clutchOnly_ite (clutchOnly_setClutch ..) (clutchOnly_setClutch ..)

/-- A trap first completes what the clutch has pending; what it does after that changes no memory, no cache and no engine. -/
theorem takeTrap_clutchOnly {s s1 : State} {n : Nat} (h : stopAll s n = some s1) (cause : Nat) (addr : Dword) (mask l : Mask)
    (tpc : BitVec 53) (i : Instr) : ClutchOnly s1 (takeTrap s n cause addr mask l tpc i) := by
  unfold takeTrap
  simp only [h]
  split
  · split
    · exact .trans (clutchOnly_regionAbort ..) (clutchOnly_trapHost ..)
    · exact .trans (clutchOnly_regionAbort ..) (clutchOnly_trapSimt ..)
  · split
    · exact clutchOnly_trapHost ..
    · exact clutchOnly_trapSimt ..

end Sys2Proof.Machine
end

