-- ==== Sys2Proof/Laws/Drain.lean ====
section
/-! SUPPORT. The operations between a clutch and memory (06 R221 to R224, 07 R261, 05 R173): drains, write-backs, fills, queued
atomics and pending results keep the canonical form of memory. -/

namespace Sys2Proof.Machine

@[simp] theorem watchEnd_mem (s : State) (line src : Nat) : (watchEnd s line src).mem = s.mem := by
  unfold watchEnd
  split
  · exact unwatch_mem s line
  · rfl

@[simp] theorem moveTok_mem (s : State) (line a b n : Nat) (f : Bool) : (moveTok s line a b n f).mem = s.mem := watchEnd_mem ..

@[simp] theorem takeSpare_mem : ∀ (l : List Nat) (s : State) (line die : Nat), (takeSpare s line die l).mem = s.mem
  | [], _, _, _ => rfl
  | d :: t, s, line, die => by
    unfold takeSpare
    rw [takeSpare_mem t]
    split
    · rfl
    · exact moveTok_mem ..

/-- A token moves no byte. -/
theorem fetchTok_mem {s t : State} {die line : Nat} {me : Option Nat} (h : fetchTok s die line me = some t) : t.mem = s.mem := by
  unfold fetchTok at h
  dsimp only at h
  repeat' split at h
  all_goals cases h
  all_goals simp

theorem gatherOne_mem {s t : State} {die line : Nat} (h : gatherOne s die line = some t) : t.mem = s.mem := by
  unfold gatherOne at h
  split at h
  · cases h; exact recallHost_mem s line
  · exact fetchTok_mem h

theorem memory_wf_drainHead {s t : State} (w : Memory.wf s.mem = true) {col line : Nat} (h : drainHead s col line = some t) :
    Memory.wf t.mem = true := by
  unfold drainHead at h
  split at h
  · cases h; exact w
  · split at h
    · cases h
    · next s1 h1 =>
      cases h
      refine memory_wf_sliceTouch (memory_wf_performLine (s := modCol s1 _ _) ?_ _ _ _ _) _ _
      rw [modCol_mem, gatherAll_mem h1]
      exact w

theorem memory_wf_drainHeads : ∀ {l : List Nat} {s t : State} {line : Nat}, Memory.wf s.mem = true → drainHeads s line l = some t →
    Memory.wf t.mem = true := by
  intro l
  induction l with
  | nil => intro s t line w h; cases h; exact w
  | cons a l ih =>
    intro s t line w h
    unfold drainHeads at h
    split at h
    · cases h
    · next s1 h1 => exact ih (memory_wf_drainHead w h1) h

theorem memory_wf_drainLine {s t : State} (w : Memory.wf s.mem = true) {col line : Nat} (h : drainLine s col line = some t) :
    Memory.wf t.mem = true := by
  unfold drainLine at h
  split at h
  · cases h; exact w
  · dsimp only at h
    split at h
    · cases h
    · next s1 h1 => exact memory_wf_drainHead (memory_wf_drainHeads w h1) h

theorem memory_wf_drainLines : ∀ {l : List Nat} {s t : State} {col : Nat}, Memory.wf s.mem = true → drainLines s col l = some t →
    Memory.wf t.mem = true := by
  intro l
  induction l with
  | nil => intro s t col w h; cases h; exact w
  | cons a l ih =>
    intro s t col w h
    unfold drainLines at h
    split at h
    · cases h
    · next s1 h1 => exact ih (memory_wf_drainLine w h1) h

theorem memory_wf_cwqPush {s t : State} (w : Memory.wf s.mem = true) {col line : Nat} {d : BitVec 1024} {m : BitVec 128} {p : Bool}
    (h : cwqPush s col line d m p = some t) : Memory.wf t.mem = true := by
  unfold cwqPush at h
  dsimp only at h
  split at h
  · cases h
  · next s1 h1 =>
    cases h
    rw [modCol_mem]
    split at h1
    · split at h1
      · cases h1; exact w
      · exact memory_wf_drainLine w h1
    · cases h1; exact w

theorem memory_wf_wbLine {s t : State} (w : Memory.wf s.mem = true) {i line : Nat} (h : wbLine s i line = some t) :
    Memory.wf t.mem = true := by
  unfold wbLine at h
  split at h
  · cases h; exact w
  · split at h
    · cases h; exact w
    · split at h
      · cases h
      · next s1 h1 => cases h; rw [setL1_mem]; exact memory_wf_cwqPush w h1

theorem memory_wf_evictLine {s t : State} (w : Memory.wf s.mem = true) {i line : Nat} (h : evictLine s i line = some t) :
    Memory.wf t.mem = true := by
  unfold evictLine at h
  split at h
  · cases h
  · next s1 h1 => cases h; rw [setL1_mem]; exact memory_wf_wbLine w h1

theorem memory_wf_wbLines : ∀ {l : List Nat} {s t : State} {i : Nat}, Memory.wf s.mem = true → wbLines s i l = some t →
    Memory.wf t.mem = true := by
  intro l
  induction l with
  | nil => intro s t i w h; cases h; exact w
  | cons a l ih =>
    intro s t i w h
    unfold wbLines at h
    split at h
    · cases h
    · next s1 h1 => exact ih (memory_wf_wbLine w h1) h

theorem memory_wf_evictLines : ∀ {l : List Nat} {s t : State} {i : Nat}, Memory.wf s.mem = true → evictLines s i l = some t →
    Memory.wf t.mem = true := by
  intro l
  induction l with
  | nil => intro s t i w h; cases h; exact w
  | cons a l ih =>
    intro s t i w h
    unfold evictLines at h
    split at h
    · cases h
    · next s1 h1 => exact ih (memory_wf_evictLine w h1) h

theorem memory_wf_drainCols : ∀ {l : List Nat} {s t : State}, Memory.wf s.mem = true → drainCols s l = some t → Memory.wf t.mem = true := by
  intro l
  induction l with
  | nil => intro s t w h; cases h; exact w
  | cons a l ih =>
    intro s t w h
    unfold drainCols at h
    split at h
    · cases h
    · next s1 h1 => exact ih (memory_wf_drainLines w h1) h

theorem memory_wf_releaseOp {s t : State} (w : Memory.wf s.mem = true) {i : Nat} {sc : Scope} (h : releaseOp s i sc = some t) :
    Memory.wf t.mem = true := by
  unfold releaseOp at h
  split at h
  · cases h; exact w
  · split at h
    · cases h
    · next s1 h1 =>
      have w1 := memory_wf_wbLines w h1
      split at h
      · cases h; exact w1
      · dsimp only at h
        split at h
        · cases h; exact w1
        · exact memory_wf_drainCols (s := acceptCol s1 _) w1 h

@[simp] theorem acquireOp_mem (s : State) (i : Nat) (sc : Scope) : (acquireOp s i sc).mem = s.mem := by
  unfold acquireOp
  split <;> rfl

theorem memory_wf_drainAccepted {s t : State} (w : Memory.wf s.mem = true) {die line : Nat} (h : drainAccepted s die line = some t) :
    Memory.wf t.mem = true := memory_wf_drainHeads w h

theorem memory_wf_readAt {s t : State} (w : Memory.wf s.mem = true) {die line : Nat} (h : readAt s die line = some t) :
    Memory.wf t.mem = true := by
  unfold readAt at h
  split at h
  · cases h
  · next s1 h1 =>
    split at h
    · cases h
    · obtain ⟨s2, h2, rfl⟩ := Option.map_eq_some_iff.mp h
      exact memory_wf_bankFetch (by rw [gatherOne_mem h2]; exact memory_wf_drainAccepted w h1) _

theorem memory_wf_homeReads : ∀ {l : List Nat} {s t : State}, Memory.wf s.mem = true → homeReads s l = some t → Memory.wf t.mem = true
  | [], _, _, w, h => by cases h; exact w
  | a :: l, s, t, w, h => by
    simp only [homeReads] at h
    split at h
    · cases h
    · next s1 h1 => exact memory_wf_homeReads (memory_wf_readAt w h1) h

theorem memory_wf_ownLine {s t : State} (w : Memory.wf s.mem = true) {die line : Nat} (h : ownLine s die line = some t) :
    Memory.wf t.mem = true := by
  unfold ownLine at h
  split at h
  · cases h
  · next s1 h1 => rw [gatherAll_mem h]; exact memory_wf_readAt w h1

theorem listGet_mem {α : Type} {l : List α} {n : Nat} {a : α} (h : listGet l n = some a) : a ∈ l := by
  induction l generalizing n with
  | nil => cases h
  | cons b l ih =>
    cases n with
    | zero => cases h; exact List.mem_cons_self
    | succ n => exact List.mem_cons_of_mem _ (ih h)

theorem memory_wf_l1Room {s t : State} (w : Memory.wf s.mem = true) {i : Nat} {keep : List Nat} {line : Nat}
    (h : l1Room s i keep line = some t) : Memory.wf t.mem = true := by
  unfold l1Room at h
  dsimp only at h
  split at h
  · cases h; exact w
  · obtain ⟨q, _, hq⟩ := List.mem_filterMap.mp (listGet_mem h)
    split at hq
    · cases hq
    · exact memory_wf_evictLine (s := { s with fresh := s.fresh + 1 }) w hq

theorem memory_wf_l1Alloc {s t : State} (w : Memory.wf s.mem = true) {i : Nat} {keep : List Nat} {line : Nat}
    (h : l1Alloc i keep s line = some t) : Memory.wf t.mem = true := by
  unfold l1Alloc at h
  obtain ⟨s1, h1, rfl⟩ := Option.map_eq_some_iff.mp h
  have w1 := memory_wf_l1Room w h1
  split
  · exact w1
  · exact w1

theorem memory_wf_l1Allocs {i : Nat} {keep : List Nat} : ∀ {l : List Nat} {s t : State}, Memory.wf s.mem = true → l1Allocs i keep s l = some t →
    Memory.wf t.mem = true
  | [], _, _, w, h => by cases h; exact w
  | a :: l, s, t, w, h => by
    unfold l1Allocs at h
    split at h
    · cases h
    · next s1 h1 => exact memory_wf_l1Allocs (memory_wf_l1Alloc w h1) h

theorem memory_wf_weightPut {s : State} (w : Memory.wf s.mem = true) (i line : Nat) (d : BitVec 1024) (p : Bool) :
    Memory.wf (weightPut s i line d p).mem = true := by
  unfold weightPut
  dsimp only
  rw [setL1_mem]
  exact memory_wf_sliceEnter w _ _ _

theorem memory_wf_weightFill {s : State} (w : Memory.wf s.mem = true) (i line : Nat) : Memory.wf (weightFill s i line).mem = true := by
  unfold weightFill
  split
  · exact memory_wf_weightPut w ..
  · dsimp only
    split
    · refine memory_wf_weightPut ?_ ..
      exact w
    · exact memory_wf_weightPut w ..

theorem memory_wf_cacheFillOp {s t : State} (w : Memory.wf s.mem = true) {i line : Nat} (h : cacheFillOp s i line = some t) :
    Memory.wf t.mem = true := by
  unfold cacheFillOp at h
  dsimp only at h
  split at h
  · cases h
  · next s0 h0 =>
    have w0 := memory_wf_l1Room w h0
    split at h
    · cases h; exact memory_wf_weightFill w0 _ _
    · split at h
      · cases h
      · next s1 h1 =>
        cases h
        rw [setL1_mem]
        exact memory_wf_sliceTouch (memory_wf_readAt w0 h1) _ _

theorem memory_wf_l1Read {s t : State} (w : Memory.wf s.mem = true) {i pa n : Nat} {b : List Byte} (h : l1Read s i pa n = some (t, b)) :
    Memory.wf t.mem = true := by
  unfold l1Read at h
  dsimp only at h
  split at h
  · cases h
  · next s1 h1 =>
    cases h
    split at h1
    · cases h1; exact w
    · exact memory_wf_cacheFillOp w h1

theorem memory_wf_l1ReadParts : ∀ {l : List (Nat × Nat)} {s t : State} {i : Nat} {b : List Byte}, Memory.wf s.mem = true →
    l1ReadParts s i l = some (t, b) → Memory.wf t.mem = true := by
  intro l
  induction l with
  | nil => intro s t i b w h; cases h; exact w
  | cons a l ih =>
    intro s t i b w h
    obtain ⟨pa, n⟩ := a
    unfold l1ReadParts at h
    split at h
    · cases h
    · next s1 b1 h1 =>
      split at h
      · cases h
      · next s2 b2 h2 => cases h; exact ih (memory_wf_l1Read w h1) h2

theorem memory_wf_readChunks {s t : State} (w : Memory.wf s.mem = true) {i : Nat} {l : List (Nat × Nat)} {b : List Byte}
    (h : readChunks s i l = some (t, b)) : Memory.wf t.mem = true := memory_wf_l1ReadParts w h

theorem memory_wf_acquireRead {s t : State} (w : Memory.wf s.mem = true) {i pa n : Nat} {sc : Scope} {b : List Byte}
    (h : acquireRead s i sc pa n = some (t, b)) : Memory.wf t.mem = true := by
  unfold acquireRead at h
  dsimp only at h
  split at h
  · cases h
  · next s1 h1 =>
    split at h
    · cases h
    · next s2 h2 =>
      split at h
      · cases h
      · next s3 h3 =>
        cases h
        refine memory_wf_sliceTouch (memory_wf_readAt ?_ h3) _ _
        split at h2
        · cases h2; exact memory_wf_wbLine w h1
        · exact memory_wf_drainLines (memory_wf_wbLine w h1) h2

theorem memory_wf_acquireParts : ∀ {l : List (Nat × Nat)} {s t : State} {i : Nat} {sc : Scope} {b : List Byte}, Memory.wf s.mem = true →
    acquireParts s i sc l = some (t, b) → Memory.wf t.mem = true := by
  intro l
  induction l with
  | nil => intro s t i sc b w h; cases h; exact w
  | cons a l ih =>
    intro s t i sc b w h
    obtain ⟨pa, n⟩ := a
    unfold acquireParts at h
    split at h
    · cases h
    · next s1 b1 h1 =>
      split at h
      · cases h
      · next s2 b2 h2 => cases h; exact ih (memory_wf_acquireRead w h1) h2

theorem memory_wf_readOrd {s t : State} (w : Memory.wf s.mem = true) {i : Nat} {a : Option Scope} {l : List (Nat × Nat)} {b : List Byte}
    (h : readOrd s i a l = some (t, b)) : Memory.wf t.mem = true := by
  unfold readOrd at h
  split at h
  · exact memory_wf_readChunks w h
  · split at h
    · exact memory_wf_readChunks w h
    · exact memory_wf_acquireParts w h

@[simp] theorem l1Store_mem : ∀ (bs : List Byte) (s : State) (i pa : Nat), (l1Store s i pa bs).mem = s.mem := by
  intro bs
  induction bs with
  | nil => exact fun _ _ _ => rfl
  | cons b t ih => exact fun s i pa => ih (l1StoreByte s i pa b) i (pa + 1)

@[simp] theorem storeChunks_mem : ∀ (l : List (Nat × Nat)) (s : State) (i : Nat) (bs : List Byte), (storeChunks s i l bs).mem = s.mem := by
  intro l
  induction l with
  | nil => exact fun _ _ _ => rfl
  | cons a l ih => exact fun s i bs => (ih _ _ _).trans (l1Store_mem _ _ _ _)

theorem memory_wf_storeL1 {s t : State} (w : Memory.wf s.mem = true) {i : Nat} {ch : List (Nat × Nat)} {bs : List Byte}
    (h : storeL1 s i ch bs = some t) : Memory.wf t.mem = true := by
  unfold storeL1 at h
  obtain ⟨s1, h1, rfl⟩ := Option.map_eq_some_iff.mp h
  rw [storeChunks_mem]
  exact memory_wf_l1Allocs w h1

theorem memory_wf_storeQueue : ∀ {bs : List Byte} {s t : State} {i pa : Nat}, Memory.wf s.mem = true → storeQueue s i pa bs = some t →
    Memory.wf t.mem = true := by
  intro bs
  induction bs with
  | nil => intro s t i pa w h; cases h; exact w
  | cons b bs ih =>
    intro s t i pa w h
    unfold storeQueue at h
    split at h
    · cases h
    · next s1 h1 =>
      split at h
      · cases h
      · next s2 h2 => exact ih (memory_wf_cwqPush (memory_wf_evictLine w h1) h2) h

theorem memory_wf_atomicPrep {s t : State} (w : Memory.wf s.mem = true) {i line : Nat} (h : atomicPrep s i line = some t) :
    Memory.wf t.mem = true := by
  unfold atomicPrep at h
  split at h
  · cases h
  · next s1 h1 =>
    split at h
    · cases h
    · next s2 h2 => exact memory_wf_drainAccepted (memory_wf_drainLines (memory_wf_evictLine w h1) h2) h

/-! ### Pending results -/

@[simp] theorem modPend_mem (s : State) (cid id : Nat) (f : Pend → Pend) : (modPend s cid id f).mem = s.mem := rfl

@[simp] theorem reapPend_mem (s : State) (cid : Nat) : (reapPend s cid).mem = s.mem := by
  unfold reapPend
  dsimp only
  rw [modClutch_mem, foldl_mem]
  intro s p
  split
  · exact acquireOp_mem _ _ _
  · rfl

theorem memory_wf_accValue {s t : State} (w : Memory.wf s.mem = true) {cid x : Nat} {a : Option Scope} {src : PSrc}
    (h : accValue s cid a src = some (t, x)) : Memory.wf t.mem = true := by
  unfold accValue at h
  split at h
  · cases h; exact w
  · split at h
    · cases h
    · next s1 b h1 => cases h; exact memory_wf_readOrd w h1
  · cases h; exact w
  · cases h

theorem memory_wf_completeAccs : ∀ {l : List PAcc} {s t : State} {cid id : Nat} {a : Option Scope}, Memory.wf s.mem = true →
    completeAccs s cid id a l = some t → Memory.wf t.mem = true := by
  intro l
  induction l with
  | nil => intro s t cid id a w h; cases h; exact w
  | cons p l ih =>
    intro s t cid id a w h
    unfold completeAccs at h
    split at h
    · cases h
    · next s1 x h1 =>
      refine ih (s := modPend (modClutch s1 _ _) _ _ _) ?_ h
      rw [modPend_mem, modClutch_mem]
      exact memory_wf_accValue w h1

@[simp] theorem l1Forget_mem (s : State) (i line : Nat) : (l1Forget s i line).mem = s.mem := by
  unfold l1Forget
  split <;> rfl

/-- The unit's own read-modify-write (06 R224). -/
theorem memory_wf_unitRmw {s t : State} (w : Memory.wf s.mem = true) {c pa n x : Nat} {f : Nat → Nat} (h : unitRmw s c pa n f = some (t, x)) :
    Memory.wf t.mem = true := by
  unfold unitRmw at h
  dsimp only at h
  split at h
  · cases h
  · split at h
    · cases h
    · next s1 h1 =>
      have w1 : Memory.wf (bankReadLine (sliceDrop s1 (pa / 128)) c (pa / 128) false).1.mem = true := by
        rw [bankReadLine_mem]
        exact memory_wf_sliceDrop (by rw [gatherAll_mem h1]; exact w) _
      split at h
      · cases h; exact w1
      · cases h
        split
        · exact w1
        · exact memory_wf_bankPut w1 ..

theorem memory_wf_syncRmw {s t : State} (w : Memory.wf s.mem = true) {o : SyncOp} {x : Nat} (h : syncRmw s o = some (t, x)) :
    Memory.wf t.mem = true := by
  unfold syncRmw at h
  dsimp only at h
  split at h
  · exact memory_wf_unitRmw w h
  · obtain ⟨s1, h1, h2⟩ := Option.map_eq_some_iff.mp h
    cases h2
    exact memory_wf_performBytes _ _ _ (memory_wf_ownLine w h1)

theorem memory_wf_syncPerform {s t : State} (w : Memory.wf s.mem = true) {o : SyncOp} (h : syncPerform s o = some t) :
    Memory.wf t.mem = true := by
  unfold syncPerform at h
  dsimp only at h
  split at h
  · cases h
  · next s1 x h1 =>
    cases h
    have w0 := memory_wf_syncRmw w h1
    have w1 : ∀ n line (q : List SyncOp), Memory.wf (l1Forget { s1 with sync := q } n line).mem = true := by
      intro n line q
      rw [l1Forget_mem]; exact w0
    split
    · rw [modPend_mem]; exact w1 ..
    · exact w1 ..

theorem memory_wf_syncUntil {cid id : Nat} : ∀ {k : Nat} {s t : State}, Memory.wf s.mem = true → syncUntil cid id k s = some t →
    Memory.wf t.mem = true := by
  intro k
  induction k with
  | zero => intro s t w h; cases h; exact w
  | succ k ih =>
    intro s t w h
    unfold syncUntil at h
    split at h
    · cases h; exact w
    · split at h
      · cases h; exact w
      · split at h
        · cases h
        · next s1 h1 => exact ih (memory_wf_syncPerform w h1) h

theorem memory_wf_completePend {s t : State} (w : Memory.wf s.mem = true) {cid id : Nat} (h : completePend s cid id = some t) :
    Memory.wf t.mem = true := by
  unfold completePend at h
  split at h
  · cases h
  · next s1 h1 =>
    have w1 := memory_wf_syncUntil w h1
    split at h
    · cases h; exact w1
    · split at h
      · cases h
      · next s2 h2 => cases h; rw [reapPend_mem]; exact memory_wf_completeAccs w1 h2

theorem memory_wf_completeIds : ∀ {l : List Nat} {s t : State} {cid : Nat}, Memory.wf s.mem = true → completeIds s cid l = some t →
    Memory.wf t.mem = true := by
  intro l
  induction l with
  | nil => intro s t cid w h; cases h; exact w
  | cons a l ih =>
    intro s t cid w h
    unfold completeIds at h
    split at h
    · cases h
    · next s1 h1 => exact ih (memory_wf_completePend w h1) h

theorem memory_wf_completeAll {s t : State} (w : Memory.wf s.mem = true) {cid : Nat} (h : completeAll s cid = some t) :
    Memory.wf t.mem = true := by
  unfold completeAll at h
  split at h
  · cases h
  · next s1 h1 => cases h; rw [modClutch_mem]; exact memory_wf_completeIds w h1

theorem memory_wf_stopAll {s t : State} (w : Memory.wf s.mem = true) {cid : Nat} (h : stopAll s cid = some t) :
    Memory.wf t.mem = true := by
  unfold stopAll at h
  obtain ⟨s1, h1, rfl⟩ := Option.map_eq_some_iff.mp h
  rw [modClutch_mem]
  exact memory_wf_completeAll w h1

/-- A trap keeps the canonical form of memory (12 R457, R458). -/
theorem memory_wf_takeTrap {s : State} (w : Memory.wf s.mem = true) (n cause : Nat) (addr : Dword) (mask l : Mask) (tpc : BitVec 53)
    (i : Instr) : Memory.wf (takeTrap s n cause addr mask l tpc i).mem = true := by
  cases h : stopAll s n with
  | none => unfold takeTrap; simp only [h]; exact w
  | some s1 => rw [(takeTrap_clutchOnly h cause addr mask l tpc i).mem]; exact memory_wf_stopAll w h

/-! ### The frame of a word (09 R326) -/

theorem pagerFile_mem (s : State) (ctx page col access kind : Nat) (u : FaultFor) : (pagerFile s ctx page col access kind u).mem = s.mem := by
  unfold pagerFile
  split <;> rfl

theorem memory_wf_regionAbort {s : State} (w : Memory.wf s.mem = true) (n st : Nat) : Memory.wf (regionAbort s n st).mem = true := by
  rw [(clutchOnly_regionAbort s n st).mem]; exact w

theorem memory_wf_pageFault {s : State} (w : Memory.wf s.mem = true) (n : Nat) (addr : Dword) (mask l : Mask) (ia : BitVec 53)
    (acc : AccKind) (i : Instr) : Memory.wf (pageFault s n addr mask l ia acc i).mem = true := by
  unfold pageFault
  dsimp only
  split
  · split
    · split
      · exact w
      · next s1 h1 =>
        rw [pagerFile_mem]
        exact memory_wf_regionAbort (memory_wf_completeAll w h1) n stFault
    · exact memory_wf_takeTrap w ..
  · split
    · exact memory_wf_takeTrap w ..
    · split
      · exact memory_wf_takeTrap w ..
      · split
        · rw [pagerFile_mem]; exact w
        · exact memory_wf_takeTrap w ..

/-- What a word's own effect answers keeps the canonical form of memory. -/
def memoryWfRes : Res → Prop
  | .done s _ => Memory.wf s.mem = true
  | .wait _ s => Memory.wf s.mem = true
  | .enter s => Memory.wf s.mem = true
  | .trap .. => True
  | .page .. => True
  | .abort _ => True

theorem memory_wf_finish {s : State} (w : Memory.wf s.mem = true) (x : Ctx) (f : WordInfo) (c0 : Clutch) (j : Mask) :
    Memory.wf (finish s x f c0 j).mem = true := w

theorem memory_wf_poisonSeen {s : State} (w : Memory.wf s.mem = true) (cid cause : Nat) (a : Dword) :
    Memory.wf (poisonSeen s cid cause a).mem = true := by
  unfold poisonSeen
  split
  · exact w
  · split
    · exact w
    · split
      · exact memory_wf_bankFetch w _
      · split
        · exact w
        · exact memory_wf_bankFetch w _

theorem memory_wf_runBody_go {s : State} (w : Memory.wf s.mem = true) (x : Ctx) (f : WordInfo) (i : Instr) (c0 c : Clutch)
    {body : Ctx → State → Res} (hb : ∀ x s, Memory.wf s.mem = true → memoryWfRes (body x s)) :
    Memory.wf (runBody.go x f i c0 body s c).mem = true := by
  unfold runBody.go
  split
  · exact w
  · dsimp only
    generalize (if (f.own || c.region.isNone) = true then c else untagRegs (pinRegs c x.ex f.reads) x.ex f.writes) = d
    have r := hb x (setClutch s x.cid d) w
    split <;> rename_i e <;> rw [e] at r
    · exact r
    · exact memory_wf_takeTrap (memory_wf_poisonSeen w ..) ..
    · exact memory_wf_pageFault w ..
    · exact r
    · exact memory_wf_regionAbort w ..
    · exact r

theorem memory_wf_runBody {s : State} (w : Memory.wf s.mem = true) (x : Ctx) (f : WordInfo) (i : Instr) (c0 : Clutch) (pairing : Bool)
    {body : Ctx → State → Res} (hb : ∀ x s, Memory.wf s.mem = true → memoryWfRes (body x s)) :
    Memory.wf (runBody s x f i c0 pairing body).mem = true := by
  have go := fun c => memory_wf_runBody_go w x f i c0 c hb
  unfold runBody
  dsimp only
  repeat' split
  all_goals first
    | exact go _
    | exact memory_wf_takeTrap (s := (freeD s).2) w ..
    | exact memory_wf_takeTrap w ..
    | exact memory_wf_regionAbort w ..

theorem memory_wf_getD {o : Option State} {s : State} (ho : ∀ {t}, o = some t → Memory.wf t.mem = true) (w : Memory.wf s.mem = true) :
    Memory.wf (o.getD s).mem = true := by
  cases o with
  | none => exact w
  | some t => exact ho rfl

theorem holdReq_mem (s : State) (c : Nat) (r : BankReq) : (holdReq s c r).mem = s.mem := by
  unfold holdReq
  dsimp only
  repeat' split
  all_goals rfl

theorem holdRead_mem (s : State) (line : Nat) : (holdRead s line).mem = s.mem := by
  unfold holdRead
  split
  · split
    · exact holdReq_mem ..
    · rfl
  · rfl

theorem memory_wf_holdRead {s : State} (w : Memory.wf s.mem = true) (line : Nat) : Memory.wf (holdRead s line).mem = true := by
  rw [holdRead_mem]; exact w

theorem memory_wf_readsAt {die : Nat} : ∀ {l : List Nat} {s t : State}, Memory.wf s.mem = true → readsAt s die l = some t → Memory.wf t.mem = true
  | [], _, _, w, h => by cases h; exact w
  | a :: l, s, t, w, h => by
    unfold readsAt at h
    split at h
    · cases h
    · next s1 h1 => exact memory_wf_readsAt (memory_wf_readAt w h1) h

theorem memory_wf_pageWalk {s : State} (w : Memory.wf s.mem = true) (core ctx va : Nat) : Memory.wf (pageWalk s core ctx va).mem = true := by
  unfold pageWalk
  split
  · unfold holdReads
    rw [foldl_mem holdRead_mem]; exact w
  · next s1 h1 =>
    have w1 := memory_wf_readsAt w h1
    split <;> exact w1

theorem memory_wf_xlTake {s : State} (w : Memory.wf s.mem = true) (core ctx : Nat) (k : Option Extent) (va : Nat) :
    Memory.wf (xlTake s core ctx k va).mem = true := by
  unfold xlTake
  split
  · exact w
  · split
    · exact memory_wf_getD (fun h => memory_wf_readAt w h) (memory_wf_holdRead w _)
    · split
      · exact w
      · exact memory_wf_pageWalk w ..

theorem memory_wf_stackTake {s : State} (w : Memory.wf s.mem = true) (c : Clutch) (va : Nat) : Memory.wf (stackTake c s va).mem = true := by
  unfold stackTake
  dsimp only
  have w1 := memory_wf_xlTake w c.core (ctxOf s c) none va
  split
  · split
    · exact w1
    · exact memory_wf_getD (fun h => memory_wf_readAt w1 h) (memory_wf_holdRead w1 _)
  · exact w1

theorem memory_wf_runWord_after {s : State} (w : Memory.wf s.mem = true) (i : Instr) (f : WordInfo) (pairing : Bool)
    {body : Ctx → State → Res} (hb : ∀ x s, Memory.wf s.mem = true → memoryWfRes (body x s)) (ia : BitVec 53) (m : Mask) :
    Memory.wf (runWord.after i f pairing body s ia m).mem = true := by
  unfold runWord.after
  dsimp only
  split
  · exact memory_wf_runBody w _ _ _ _ _ hb
  · have h : ∀ (l : List Nat) (t : State), Memory.wf t.mem = true → Memory.wf (l.foldl (stackTake (clutchAt s s.cur)) t).mem = true := by
      intro l
      induction l with
      | nil => exact fun _ w => w
      | cons a l ih => exact fun t w => ih _ (memory_wf_stackTake w _ _)
    exact h _ s w

/-- A word keeps the canonical form of memory when its own effect does. -/
theorem memory_wf_runWord {s : State} (w : Memory.wf s.mem = true) (i : Instr) (f : WordInfo) (pairing : Bool)
    {body : Ctx → State → Res} (hb : ∀ x s, Memory.wf s.mem = true → memoryWfRes (body x s)) :
    Memory.wf (runWord s i f pairing body).mem = true := by
  unfold runWord
  dsimp only
  split
  · exact w
  · split
    · exact w
    · split
      · split
        · exact w
        · next s1 h1 =>
          have w1 := memory_wf_completeAll w h1
          split
          · exact w1
          · split
            · exact memory_wf_runWord_after (s := setClutch s1 s.cur _) w1 _ _ _ hb _ _
            · exact w1
      · exact memory_wf_runWord_after (s := setClutch s s.cur _) w _ _ _ hb _ _

theorem memory_wf_word {s t : State} (w : Memory.wf s.mem = true) {i : Instr} {body : Ctx → State → Res}
    (hb : ∀ x s, Memory.wf s.mem = true → memoryWfRes (body x s)) (h : word i s body = .next t) : Memory.wf t.mem = true := by
  unfold word at h
  split at h
  · cases h; exact memory_wf_runWord w _ _ _ hb
  · cases h; exact w

end Sys2Proof.Machine
end

