-- ==== Sys2Proof/Laws/Integer.lean ====
section
/-! SUPPORT. Integer results as bit vectors (10 R339 to R344). -/

namespace Sys2Proof.Machine

theorem sgn_eq (w x : Nat) : sgn w x = (BitVec.ofNat w x).toInt := by
  unfold sgn
  simp only [BitVec.toInt_eq_toNat_cond, BitVec.toNat_ofNat]

theorem wrapNat_eq (w : Nat) (x : Int) : wrapNat w x = (BitVec.ofInt w x).toNat := by
  simp [wrapNat, BitVec.toNat_ofInt]

theorem intOf_eq (t : Ty) (x : Nat) :
    intOf t x = if tySigned t then (BitVec.ofNat (tyBits t) x).toInt else ((BitVec.ofNat (tyBits t) x).toNat : Int) := by
  unfold intOf
  split
  · exact sgn_eq _ _
  · simp

theorem iAdd_eq (w a b : Nat) : iAdd w a b = (BitVec.ofNat w a + BitVec.ofNat w b).toNat := by
  simp [iAdd, Nat.add_mod]

theorem iMul_eq (w a b : Nat) : iMul w a b = (BitVec.ofNat w a * BitVec.ofNat w b).toNat := by
  simp [iMul, Nat.mul_mod]

theorem iSub_eq (w a b : Nat) : iSub w a b = (BitVec.ofNat w a - BitVec.ofNat w b).toNat := by
  rw [iSub, wrapNat_eq]
  congr 1
  rw [sub_eq_add_neg, BitVec.ofInt_add, BitVec.ofInt_neg, BitVec.ofInt_natCast, BitVec.ofInt_natCast, BitVec.sub_eq_add_neg]

theorem iNeg_eq (w a : Nat) : iNeg w a = (-BitVec.ofNat w a).toNat := by
  rw [iNeg, wrapNat_eq]
  congr 1
  rw [BitVec.ofInt_neg, BitVec.ofInt_natCast]

theorem iNot_eq (w a : Nat) : iNot w a = (~~~BitVec.ofNat w a).toNat := by
  simp [iNot, BitVec.toNat_not]

theorem iShr_eq (w a n : Nat) (h : a < 2 ^ w) : iShr w a n = (if w ≤ n then 0 else BitVec.ofNat w a >>> n).toNat := by
  unfold iShr
  split
  · simp
  · simp [BitVec.toNat_ushiftRight, Nat.mod_eq_of_lt h, Nat.shiftRight_eq_div_pow]

theorem iShl_eq (w a n : Nat) : iShl w a n = (if w ≤ n then 0 else BitVec.ofNat w a <<< n).toNat := by
  unfold iShl
  split
  · simp
  · simp [BitVec.toNat_shiftLeft, Nat.shiftLeft_eq, Nat.mod_mul_mod]

end Sys2Proof.Machine
end

