-- ==== Sys2Proof/Tests/Slice0.lean ====
section
/-! SUPPORT. Tests of the model, and for every statement with hypotheses a concrete state and operands that meet them. Expected
values come from the spec's own examples and tables, or are worked by hand from its rules; each test names its rule. -/

open Sys2Proof Sys2Proof.Machine

namespace Sys2Proof.Tests

set_option Elab.async false

/-! ### Helpers -/

abbrev hd : Hdr := { stop := false, pred := .always }

/-- Is clutch `cur` ready for the word `i` (`Ready`)? -/
def readyB (s : State) (i : Instr) : Bool :=
  match infoOf i, issueOf (clutchAt s s.cur) with
  | some w, some p => wellFormed i && runs s (clutchAt s s.cur) && decide (exLanes w p ≠ 0) && !mustComplete (atIssue p) w (exLanes w p) &&
    (!w.simt || !isHost p.c) && (!w.host || isHost p.c) && !privFails p.c i w && (badRows (entry s p) (atIssue p) w i p.at_ (exLanes w p)).isNone &&
    (!p.c.fpmode.getLsbD 31 || (hazardOf (entry s p) (atIssue p) w i (exLanes w p)).isNone) &&
    !oddPair (entry s p) (atIssue p) (exLanes w p) i && (!p.c.fpmode.getLsbD 31 || !linkHazard (atIssue p) w (exLanes w p)) &&
    (stackVas (entry s p) (atIssue p) w (exLanes w p)).all (stackReady (entry s p) (atIssue p)) && p.c.region.isNone
  | _, _ => false

/-- What the word's own effect is given, for a test of its conditions. -/
def given (s : State) (i : Instr) (f : State → Ctx → Clutch → Bool) : Bool :=
  match infoOf i, issueOf (clutchAt s s.cur) with
  | some w, some p => f (entry s p) (wordCtx s w p) (atIssue p)
  | _, _ => false

/-- The word is ready and the machine with which it begins meets `f`. -/
def meets (s : State) (i : Instr) (f : State → Ctx → Clutch → Bool) : Bool := readyB s i && given s i f

/-- What the word's own effect is given inside a region. -/
def givenIn (s : State) (i : Instr) (f : State → Ctx → Clutch → Bool) : Bool :=
  match infoOf i, issueOf (clutchAt s s.cur) with
  | some w, some p => f (entryIn s w p) (wordCtx s w p) (atIssueIn w p)
  | _, _ => false

/-- As `readyB`, for a clutch whose region is open (`ReadyIn`). -/
def readyInB (s : State) (i : Instr) : Bool :=
  match infoOf i, issueOf (clutchAt s s.cur) with
  | some w, some p => wellFormed i && runs s (clutchAt s s.cur) && decide (exLanes w p ≠ 0) && !mustComplete (atIssue p) w (exLanes w p) &&
    (!w.simt || !isHost p.c) && (!w.host || isHost p.c) && !privFails p.c i w && (badRows (entry s p) (atIssue p) w i p.at_ (exLanes w p)).isNone &&
    (!p.c.fpmode.getLsbD 31 || (hazardOf (entry s p) (atIssue p) w i (exLanes w p)).isNone) &&
    !oddPair (entry s p) (atIssue p) (exLanes w p) i && (!p.c.fpmode.getLsbD 31 || !linkHazard (atIssue p) w (exLanes w p)) &&
    (stackVas (entry s p) (atIssue p) w (exLanes w p)).all (stackReady (entry s p) (atIssue p)) &&
    (match p.c.region with | some g => decide (g.words < 4096) | none => false) && !w.forbid
  | _, _ => false

theorem readyB_ready {s : State} {i : Instr} (h : readyB s i = true) : ∃ w p, Ready s i w p := by
  unfold readyB at h
  split at h
  · rename_i w p hw hp
    simp only [Bool.and_eq_true, decide_eq_true_eq, Bool.not_eq_true', Bool.or_eq_true, Option.isNone_iff_eq_none] at h
    obtain ⟨⟨⟨⟨⟨⟨⟨⟨⟨⟨⟨⟨h1, h2⟩, h3⟩, h4⟩, h5⟩, h6⟩, h7⟩, h8⟩, h9⟩, ho⟩, hl⟩, hs⟩, h10⟩ := h
    exact ⟨w, p, h1, hw, h2, hp, h3, h4, fun e => by simp_all, fun e => by simp_all, ho, h7, h8, fun e => by simp_all,
      fun e => by simp_all, hs, h10⟩
  · simp at h

theorem meets_ready {s : State} {i : Instr} {f : State → Ctx → Clutch → Bool} (h : meets s i f = true) :
    ∃ w p, Ready s i w p ∧ f (entry s p) (wordCtx s w p) (atIssue p) = true := by
  obtain ⟨hr, hg⟩ := Bool.and_eq_true_iff.mp h
  obtain ⟨w, p, r⟩ := readyB_ready hr
  refine ⟨w, p, r, ?_⟩
  simpa [given, r.info, r.issue] using hg

theorem readyInB_ready {s : State} {i : Instr} (h : readyInB s i = true) : ∃ w p g, ReadyIn s i w p g := by
  unfold readyInB at h
  split at h
  · rename_i w p hw hp
    split at h
    · rename_i g hg
      simp only [Bool.and_eq_true, decide_eq_true_eq, Bool.not_eq_true', Bool.or_eq_true, Option.isNone_iff_eq_none] at h
      obtain ⟨⟨⟨⟨⟨⟨⟨⟨⟨⟨⟨⟨⟨h1, h2⟩, h3⟩, h4⟩, h5⟩, h6⟩, h7⟩, h8⟩, h9⟩, ho⟩, hl⟩, hs⟩, h10⟩, h11⟩ := h
      exact ⟨w, p, g, h1, hw, h2, hp, h3, h4, fun e => by simp_all, fun e => by simp_all, ho, h7, h8, fun e => by simp_all,
        fun e => by simp_all, hs, hg, h10, h11⟩
    · simp at h
  · simp at h

/-- The next state of a word or step meets `f`. -/
def next (s : State) (i : Instr) (f : State → Bool) : Bool := match exec i s with | .next t => f t | _ => false

/-- Clutch 64 of core 0, with a task, stands at a word; `placeWord` builds its task, context and page tables. Virtual page 0 is
mapped to physical 0x10000. -/
def base : State := placeWord State.reset 64 0xA000000941E00002

/-- The scratchpad-window address of offset 0x100, in s20:s21; the virtual address 0x800, in s22:s23; a0 is the task's allocation,
a1 virtual page 0. s5 holds 7 and v0 lane numbers. -/
def simtClutch : Clutch := { clutchAt base 64 with
  lanes := (List.range 4).map (fun n => (n, { startLane n 0 with v := [(0, BitVec.ofNat 32 n)] }))
  s := [(5, 7), (20, 0x100), (21, 0xFFFF00), (22, 0x800)]
  a := [(0, { ptr := 0xFFFF0000000200, base := 0xFFFF0000000000, limit := 0xFFFF0000010000, r := true, w := true, x := true }),
        (1, { ptr := 0x900, base := 0, limit := 0x10000, r := true, w := true, x := true })] }

def simt : State := modTask (setClutch base 64 simtClutch) 0 (fun k => { k with stackN := 64, handler := 0x100 })

/-- Host core 0 at the word. -/
def host : State := placeWord State.reset 64 0x0F00000000000000

/-- Clutch 64 with another content. -/
def withC (f : Clutch → Clutch) : State := modClutch simt 64 f

/-- The task with another content. -/
def withT (f : Task → Task) : State := modTask simt 0 f

abbrev mem (b : Reg) : MemOp := { base := b, idx := .zero, pol := none, off := 0 }

/-! ### Well-formedness and decoding -/

/-- One ill-formed term for each check of 09 R313 to R318, R326 and 10 to 12: types, pairs, classes of operands, immediates. -/
def illFormed : List Instr :=
  [.add hd .f32 (.v 1) (.v 2) (.reg (.v 3)), .add hd .i64 (.v 1) (.v 2) (.reg (.v 4)), .add hd .i64 (.v 2) (.v 3) (.reg (.v 4)),
   .add hd .i64 (.v 2) (.v 4) (.reg (.v 5)), .add hd .i32 (.s 1) (.v 2) (.reg (.s 3)), .add hd .i32 (.s 1) (.s 2) (.reg (.v 3)),
   .add hd .i32 (.a 1) (.v 2) (.reg (.v 3)), .add hd .i32 (.v 1) (.a 2) (.reg (.v 3)), .fadd hd .f16 .mode (.v 1) (.v 2) (.imm 0x10000),
   .fadd hd .f32 .sr (.v 1) (.v 2) (.reg (.v 3)), .fadd hd .f32 .rtz (.v 1) (.v 2) (.imm 1), .mov hd .b32 (.s 1) (.v 2), .mov hd .b64 (.v 2) (.k 1),
   .aset hd true true true (.v 1) (.s 2) (.s 4) (.s 6), .aset hd true true true (.a 1) (.s 3) (.s 4) (.s 6), .aadv hd (.a 1) (.s 2) (.imm 0),
   .shfl hd .idx .i32 (.v 1) (.v 2) (.imm 0), .shfl hd .idx .b32 (.s 1) (.v 2) (.imm 0), .vote hd .lead (.v 1) (.v 2), .redux hd .and .f32 (.v 1) (.v 2),
   .call hd 0 1, .call hd 14 1, .callx hd 14 (.a 1), .brx hd (.v 3), .kop hd .not 1 (.k 2) (.imm 1), .kcmp hd .eq .f32 1 (.v 1) (.imm 0),
   .ld hd .i32 (.rel .core) (.v 1) (mem (.a 0)), .ld hd .i32 .relaxed (.s 1) (mem (.v 2)), .ldx hd .i32 .relaxed (.v 1) (mem (.a 0)),
   .st hd .i32 (.acq .core) (.v 1) (mem (.a 0)), .ldv hd .x4 (.v 2) (mem (.a 0)), .ldv hd .x2 (.s 2) (mem (.a 0)),
   .cwb hd (some { mem (.a 0) with pol := some 1 }), .qpush hd .f32 (.v 1) 0, .qcfgSet hd (.s 1) 0,
   .atom hd .add .b32 .relaxed (.v 1) (.a 0) (.v 2), .atom hd .cas .b32 .relaxed .zero (.a 0) (.v 2), .red hd .xchg .b32 .relaxed (.a 0) (.v 2),
   .atom hd .incw .n64 .relaxed (.v 2) (.a 0) (.v 4), .atxBegin hd (.v 1) 1, .atxPin hd (.k 1), .fcvt hd .e4m3 .e5m2 .mode false 4 (.v 1) (.v 2),
   .fcvt hd .f32 .f16 .sr false 0 (.v 1) (.v 2), .icvt hd .i32 .i64 .mode false (.v 1) (.v 2), .fdot2 hd .f32 .mode (.v 1) (.v 2) (.v 3) (.v 4),
   .fpk hd .f32 .mode false (.v 1) (.v 2) (.imm 0), .mcmp hd 1 false (.v 1) (.v 2) (.s 3), .mplane hd (.s 3) (.v 2) (.s 4), .mscl hd 4 .f32 false (.v 1) (.v 2),
   .tlwait hd 0 (.s 1), .vfsend hd (.s 1), .join hd (.s 6) (.a 1), .launch hd .pkg (.v 2) (.s 4), .barArr hd 0 0, .barArr hd 0 49,
   .waitaddr hd .core .eq .b32 (.a 0) (.s 1), .deqInit hd (.a 0) (.s 2) 0, .deqInit hd (.a 0) (.s 2) 25, .sysr hd (.s 1) 0x015, .sysr hd (.s 1) 0,
   .sysr hd (.s 1) 6, .sysw hd 0 (.s 2), .ipi hd (.v 1), .dualWord false (.bin .add (.a 1) (.v 2)) .nop,
   .dualWord false (.binImm .shl (.v 1) (.v 2) 32) .nop]

theorem test_ill_formed_is_refused : illFormed.all (fun i => !wellFormed i) = true := by decide +kernel

/-- Their well-formed neighbours. -/
def formed : List Instr :=
  [.add hd .i32 (.v 1) (.v 2) (.reg (.v 3)), .add hd .i64 (.v 2) (.v 4) (.reg (.v 6)), .add hd .i32 (.s 1) (.s 2) (.imm 5),
   .fadd hd .f16 .mode (.v 1) (.v 2) (.imm 0xFFFF), .fadd hd .f32 .rtz (.v 1) (.v 2) (.reg (.v 3)), .mov hd .b32 (.k 1) (.s 2), .call hd 1 1, .call hd 13 1,
   .ld hd .i32 (.acq .core) (.v 1) (mem (.a 0)), .ldv hd .x4 (.v 4) (mem (.a 0)), .atom hd .cas .b32 .relaxed (.v 1) (.a 0) (.v 2), .barArr hd 0 48,
   .sysr hd (.v 1) 6, .join hd (.s 8) (.a 4), .dualWord false (.binImm .shl (.v 1) (.v 2) 31) .nop]

theorem test_well_formed_is_accepted : formed.all wellFormed = true := by decide +kernel

/-- A full-form word: S, 0, OP, PRED, FN, D, A, B, C (09 R308, R310). -/
abbrev word (st : BitVec 1) (op : BitVec 8) (pred fn : BitVec 5) (d a b : BitVec 8) (c : BitVec 20) : Dword :=
  st ++ 0#1 ++ op ++ pred ++ fn ++ d ++ a ++ b ++ c

/-- The examples of 09 R328. -/
theorem test_decode_spec_examples :
    decode 0x8008304050600000 = .ok (.add { stop := true, pred := .bitSet 3 } .i32 (.v 4) (.v 5) (.reg (.v 6))) ∧
    decode 0xC08204800E0A0703 = .ok (.dualWord true (.bin .add (.v 4) (.v 9)) (.binImm .shl (.v 10) (.v 7) 3)) := by decide +kernel

/-- One word of each group of instructions, from the OP table (09 R327) and the field tables of 10 to 12. -/
theorem test_decode_integer : decode (word 0 0x1D 0 7 0x03 0x04 0x05 0) = .ok (.cmp hd .eq .n32 (.v 3) (.v 4) (.reg (.v 5))) := by decide +kernel
theorem test_decode_branch : decode (word 1 0x30 0 0 0 0 0 0xFFFFF) = .ok (.br { stop := true, pred := .always } 0xFFFFF) := by decide +kernel
theorem test_decode_store : decode (word 0 0x41 0 3 0x08 0xC0 0xF0 0x00004) = .ok (.st hd .i32 .relaxed (.v 8) { mem (.a 0) with off := 4 }) := by decide +kernel
theorem test_decode_vertical : decode (word 0 0x99 0 0 0 0x05 0 0) = .ok (.vfsend hd (.v 5)) := by decide +kernel
theorem test_decode_leap : decode (word 0 0x9C 0 0 0 0xC4 0 0) = .ok (.leap hd (.a 4)) := by decide +kernel
theorem test_decode_halt : decode (word 0 0xB8 0 0 0 0 0 0) = .ok (.halt hd) := by decide +kernel
theorem test_decode_scall : decode (word 0 0xB2 0 0 0 0 0 0x00042) = .ok (.scall hd 0x42) := by decide +kernel

/-- Reserved: an OP with no instruction, a field that must be zero, a slot pair that clashes on register banks (09 R328). -/
theorem test_decode_refuses_reserved :
    (decode (word 0 0xFF 0 0 0 0 0 0)).toOption = none ∧ (decode (word 0 0x3C 0 0 1 0 0 0)).toOption = none := by decide +kernel

/-! ### Ready words: witnesses of TwoSourceIntegerResults, OneAndThreeSourceIntegerResults,
AddressRegistersAndMoves, LaneExchangeResults, FloatWordResults, ConversionWordResults, MaskWords, ControlFlowWords,
SystemRegisterWords, TrapAndReturnWords -/

/-- A word of vector register n of clutch 64 in a lane, after the step. -/
def v64 (t : State) (lane : Nat) (n : Fin 128) : Word := rd32 t (clutchAt t 64) lane (.v n)

/-- The clutch of vectors: v1 lane numbers, v2 and v4 given. -/
def vec (x y : Word) : State := withC (fun c => { c with lanes := (List.range 32).map (fun n =>
  (n, { startLane n 0 with v := [(1, BitVec.ofNat 32 n), (2, x), (4, y)] })) })

def intWords : List Instr :=
  let r : Reg := .v 2
  let b : Opnd := .reg (.v 4)
  [.add hd .i32 (.v 6) r b, .sub hd .n64 (.v 6) r b, .mul hd .i32 (.v 6) r b, .mulh hd .n32 (.v 6) r b, .min hd .i64 (.v 6) r b, .max hd .n32 (.v 6) r b,
   .and hd .b32 (.v 6) r b, .or hd .b64 (.v 6) r b, .xor hd .b32 (.v 6) r b, .andn hd .b32 (.v 6) r b, .shl hd .b32 (.v 6) r b, .shr hd .b64 (.v 6) r b,
   .sar hd .i32 (.v 6) r b, .rotl hd .b32 (.v 6) r b, .div hd .i32 (.v 6) r b, .rem hd .n64 (.v 6) r b, .neg hd .i32 (.v 6) r, .abs hd .i64 (.v 6) r,
   .not hd .b32 (.v 6) r, .brev hd .b32 (.v 6) r, .clz hd .b64 (.v 6) r, .ctz hd .b32 (.v 6) r, .popc hd .b32 (.v 6) r,
   .cmp hd .lt .i32 (.v 6) r (.imm 5), .isat hd .i8 .i32 (.v 6) r, .mad hd .i32 (.v 6) r r b, .bfx hd .i32 (.v 6) r r b, .bfi hd .b32 (.v 6) r r b,
   .sel hd .b32 (.v 6) r r b, .addc hd (.v 6) r r b, .subb hd (.v 6) r r b, .add hd .i32 .zero r b, .add hd .i32 (.s 3) (.s 5) (.imm 1)]

theorem witness_integer_words : intWords.all (readyB (vec 9 4)) = true := by decide +kernel

def moveWords : List Instr :=
  [.aset hd true true false (.a 3) (.s 20) (.s 22) .zero, .aset hd true true false (.a 3) (.s 20) (.s 22) (.s 24), .amov hd (.a 3) (.a 1),
   .aadv hd (.a 3) (.a 1) (.imm 8), .aget hd .ptr (.s 8) (.a 1), .aget hd .base (.v 6) (.a 1), .aget hd .limit (.s 8) (.a 1), .aget hd .perm (.s 9) (.a 1),
   .mov hd .b32 (.v 6) .lane, .mov hd .b64 (.v 6) (.s 20), .mov hd .b32 (.k 2) (.s 5), .movi hd (.v 6) 0xFFFFF, .movh hd (.s 6) 5,
   .pack hd .n16 false (.v 6) (.v 2) (.imm 1), .pack hd .i8 true (.v 6) (.v 2) (.imm 3), .unpack hd .i8 (.v 6) (.v 2) (.imm 2),
   .shfl hd .idx .b32 (.v 6) (.v 1) (.imm 4), .shfl hd .up .b64 (.v 6) (.v 2) (.imm 4), .shfl hd .down .b32 (.v 6) (.v 1) (.reg .zero),
   .shfl hd .xor .b32 (.v 6) (.v 1) (.imm 31), .bcast hd .b32 (.s 6) (.v 1) (.imm 3), .vote hd .ballot (.k 1) (.v 2), .vote hd .any (.s 6) (.v 2),
   .vote hd .all (.s 6) (.v 2), .vote hd .uni (.s 6) (.v 2), .vote hd .first (.v 6) (.v 2), .vote hd .lead (.v 6) .zero,
   .redux hd .add .i32 (.s 6) (.v 1), .redux hd .max .f32 (.v 6) (.v 1), .scan hd .add false .i32 (.v 6) (.v 1), .scan hd .xor true .b64 (.v 6) (.v 2)]

theorem witness_move_words : moveWords.all (readyB (vec 9 4)) = true := by decide +kernel

/-- Both ends of `aadv`'s range (05 R170, 10 R345): at LIMIT - 1 it moves, at LIMIT it does not. -/
theorem witness_aadv :
    meets simt (.aadv hd (.a 3) (.a 1) (.imm 0x0F6FF)) (fun _ _ k => aadvOk (getA k 1) ((getA k 1).ptr + 0xF6FF)) = true ∧
    meets simt (.aadv hd (.a 3) (.a 1) (.imm 0x0F700)) (fun _ _ k => !aadvOk (getA k 1) ((getA k 1).ptr + 0xF700)) = true := by decide +kernel

def floatWords : List Instr :=
  let b : Opnd := .reg (.v 4)
  [.fadd hd .f32 .rtz (.v 6) (.v 2) b, .fsub hd .f64 .mode (.v 6) (.v 2) b, .fmul hd .f16 .rup (.v 6) (.v 2) b, .fma hd .bf16 .rdn (.v 6) (.v 2) (.v 2) b,
   .fmin hd .f32 (.v 6) (.v 2) b, .fmax hd .f64 (.v 6) (.v 2) b, .fcls hd .f32 (.v 6) (.v 2), .frnd hd .f32 .rna (.v 6) (.v 2),
   .fscl hd .f32 .mode (.v 6) (.v 2) b, .fdot2 hd .f16 .mode (.v 6) (.v 2) (.v 4) (.v 1), .fdot4 hd .e4m3 .mode (.v 6) (.v 2) (.v 4) (.v 1),
   .fcmp hd .lt .f32 (.v 6) (.v 2) (.reg (.v 4)), .fcmp hd .ne .f64 (.k 3) (.v 2) (.imm 0), .fdiv hd .f32 .mode (.v 6) (.v 2) b,
   .fsqrt hd .f64 .rtz (.v 6) (.v 2), .frcp hd (.v 6) (.v 2), .frsq hd (.v 6) (.v 2), .fex2 hd (.v 6) (.v 2), .flg2 hd (.v 6) (.v 2),
   .fsin hd (.v 6) (.v 2), .fcos hd (.v 6) (.v 2), .fcvt hd .e4m3 .f32 .sr true 0 (.v 6) (.v 2), .fcvt hd .bfp7 .f32 .mode false 0 (.v 6) (.v 2),
   .fcvt hd .f32 .bfp4 .mode false 0 (.v 6) (.v 2), .icvt hd .i32 .f32 .rtz true (.v 6) (.v 2), .icvt hd .f64 .n64 .mode false (.v 6) (.v 2),
   .fpk hd .e2m1 .sr false (.v 6) (.v 2) (.imm 7)]

theorem witness_float_words : floatWords.all (readyB (vec 9 4)) = true := by decide +kernel

def controlWords : List Instr :=
  [.br hd 3, .yield hd, .nop hd, .exit hd, .kjoin hd 3, .kleave hd 3, .kop hd .andn 1 (.k 2) (.imm 5), .kop hd .not 1 (.k 2) (.reg (.v 0)),
   .kcmp hd .ge .i32 1 (.v 1) (.imm 16), .kwait hd 2, .sysr hd (.s 5) 3, .sysr hd (.v 6) 6, .sysw hd 1 (.s 5), .sysw hd 6 (.v 1), .scall hd 5, .brk hd 5,
   .dualWord false (.bin .add (.v 4) (.v 9)) (.binImm .shl (.v 10) (.v 7) 3)]

theorem witness_control_words : controlWords.all (readyB simt) = true := by decide +kernel

/-- SystemRegisterWords: a write of `STATUS` by a SIMT clutch, at any level (12 R450). -/
theorem witness_sysw_status : (infoOf (.sysw hd 7 (.s 5))).isSome = true ∧ isHost (clutchAt simt 64) = false ∧ (0xF#32) ≠ 0 := by decide +kernel

/-- DualWordBothSlotsReadFirst: a legal pair, its slots without a trap (09 R325). -/
theorem witness_dual_word :
    pairClash (.bin .add (.v 4) (.v 9)) (.binImm .shl (.v 10) (.v 7) 3) = false ∧
    meets simt (.dualWord true (.bin .add (.v 4) (.v 9)) (.binImm .shl (.v 10) (.v 7) 3)) (fun _ x k =>
      (slotTrap k x.ex (.bin .add (.v 4) (.v 9))).isNone && (slotTrap k x.ex (.binImm .shl (.v 10) (.v 7) 3)).isNone) = true ∧
    pairClash (.bin .add (.v 4) (.v 9)) (.binImm .sub (.v 12) (.v 13) 1) = true ∧
    meets simt (.dualWord true .nop (.aadv 2 1)) (fun _ x k =>
      (slotTrap k x.ex .nop).isNone && (slotTrap k x.ex (.aadv 2 1)).isSome) = true := by decide +kernel

/-- Branches through an address register with X, a call whose window fits, a return that has a window to return to and one that
exits (05 R167, R168). -/
theorem witness_branches :
    meets simt (.brx hd (.a 1)) (fun u x k => (lanesOf x.ex).all (fun j => targetFault k (.a 1) (baseVal u k j (.a 1)) == 0)) = true ∧
    meets simt (.call hd 13 5) (fun u x k => (lanesOf x.ex).all (fun j => windowFits u k j 13)) = true ∧
    meets simt (.callx hd 1 (.a 1)) (fun u x k => (lanesOf x.ex).all (fun j => windowFits u k j 1 && targetFault k (.a 1) (baseVal u k j (.a 1)) == 0)) = true ∧
    meets simt (.ret hd) (fun u x k => (lanesOf x.ex).all (fun j => !retPoison k j && retFault u k j == 0) && retExits k x.ex == x.ex) = true := by decide +kernel

/-- After a call, each lane has a window to return to. -/
theorem witness_return : next simt (.call hd 3 5) (fun t =>
    meets t (.ret hd) (fun u x k => (lanesOf x.ex).all (fun j => !retPoison k j && retFault u k j == 0) && retExits k x.ex == 0)) = true := by decide +kernel

/-- CallAndExitOfALane: a call and an indirect call that find no room above the highest window. -/
def fullStack : State := withC (fun c => { c with lanes := c.lanes.map (fun p => (p.1, { p.2 with wbv := 4000 })) })

theorem witness_call_without_room :
    meets fullStack (.call hd 13 5) (fun u x k => (lanesOf x.ex).any (fun j => !windowFits u k j 13)) = true ∧
    meets fullStack (.callx hd 1 (.a 1)) (fun u x k => (lanesOf x.ex).any (fun j => !windowFits u k j 1) &&
      (lanesOf x.ex).all (fun j => targetFault k (.a 1) (baseVal u k j (.a 1)) == 0)) = true := by decide +kernel

/-- CallAndExitOfALane: a SIMT clutch of a task; with 64 x 8 words the window of advance 13 fits at wbv 37 and not at 38. -/
theorem witness_room : isHost simtClutch = false ∧ simtClutch.task = some 0 ∧ (taskAt simt 0).isSome = true ∧ isHost (clutchAt host 0) = true ∧
    (let at_ := fun (b : BitVec 13) => { simtClutch with lanes := [(0, { startLane 0 0 with wbv := b })] }
     windowFits simt (at_ 37) 0 13 = true ∧ windowFits simt (at_ 38) 0 13 = false) := by decide +kernel

/-- CallAndExitOfALane: the smallest and the largest advance. -/
theorem witness_call_lane : (1 ≤ 1 ∧ 1 ≤ 13) ∧ (1 ≤ 13 ∧ 13 ≤ 13) ∧ isHost simtClutch = false := by decide +kernel

/-- TrapAndReturnWords: `tret` outside a handler, and inside one. -/
def inTrap : State := withC (fun c => { c with traps := [(0, { TrapSet.zero with inTrap := true, lanes := 1, pc := 0x100 })] })

theorem witness_tret :
    meets simt (.tret hd) (fun _ _ c => !(trapSet c).inTrap) = true ∧
    meets inTrap (.tret hd) (fun u x c => (trapSet c).inTrap && (stopAll u x.cid).isSome) = true ∧
    (let c := clutchAt host 0
     isHost c = true ∧ bits (tget TrapSet.zero c.traps 2).cause.toNat 16 2 < 3) := by decide +kernel

/-! Values, worked by hand. -/

theorem test_add_wraps : next (vec 0x7FFFFFFF 1) (.add hd .i32 (.v 6) (.v 2) (.reg (.v 4))) (fun t => v64 t 31 6 == 0x80000000) = true := by decide +kernel
theorem test_sub_wide : next (vec 1 2) (.sub hd .i64 (.v 6) (.v 2) (.reg (.v 4))) (fun t => v64 t 0 6 == 0xFFFFFFFF && v64 t 0 7 == 0xFFFFFFFF) = true := by decide +kernel
theorem test_mulh_signed : next (vec 0x80000000 2) (.mulh hd .i32 (.v 6) (.v 2) (.reg (.v 4))) (fun t => v64 t 5 6 == 0xFFFFFFFF) = true := by decide +kernel
theorem test_div_by_zero : next (vec 7 0) (.div hd .i32 (.v 6) (.v 2) (.reg (.v 4))) (fun t => v64 t 5 6 == 0 && (clutchAt t 64).flags == fDivzero) = true := by decide +kernel
theorem test_rem_sign : next (vec 0xFFFFFFF9 3) (.rem hd .i32 (.v 6) (.v 2) (.reg (.v 4))) (fun t => v64 t 5 6 == 0xFFFFFFFF) = true := by decide +kernel
theorem test_shift_by_width : next (vec 5 32) (.shl hd .b32 (.v 6) (.v 2) (.reg (.v 4))) (fun t => v64 t 5 6 == 0) = true := by decide +kernel
theorem test_sar_by_more : next (vec 0x80000000 99) (.sar hd .i32 (.v 6) (.v 2) (.reg (.v 4))) (fun t => v64 t 5 6 == 0xFFFFFFFF) = true := by decide +kernel
theorem test_addc_carry : next (vec 0xFFFFFFFF 1) (.addc hd (.v 6) (.v 2) (.v 2) (.reg (.v 4))) (fun t => v64 t 5 6 == 0xFFFFFFFF && v64 t 5 7 == 1) = true := by decide +kernel
theorem test_bfx_signed : next (vec 0x00F0 0) (.bfx hd .i32 (.v 6) (.v 2) (.s 30) (.imm 4)) (fun t => v64 t 5 6 == 0) = true := by decide +kernel
theorem test_movi_sign : next simt (.movi hd (.v 6) 0xFFFFF) (fun t => v64 t 3 6 == 0xFFFFFFFF) = true := by decide +kernel
theorem test_zero_keeps_nothing : next simt (.movi hd (.s 6) 9) (fun t => tget 0 (clutchAt t 64).s 6 == 9) && next simt (.add hd .i32 .zero (.v 0) (.imm 9)) (fun t => (clutchAt t 64).s == simtClutch.s) = true := by decide +kernel
theorem test_isat_clamps : next (vec 200 0) (.isat hd .i8 .i32 (.v 6) (.v 2)) (fun t => v64 t 5 6 == 127 && (clutchAt t 64).flags == fSat) = true := by decide +kernel
theorem test_kcmp_mask : next (vec 0 0) (.kcmp hd .ge .i32 1 (.v 1) (.imm 16)) (fun t => getK (clutchAt t 64) 1 == 0xFFFF0000) = true := by decide +kernel
theorem test_branch_displacement : next simt (.br hd 0xFFFFF) (fun t => (laneAt (clutchAt t 64) 3).pc == 0x1FFFFFFFFFFFFF) = true := by decide +kernel
theorem test_exit_leaves_masks : next simt (.exit hd) (fun t => (laneAt (clutchAt t 64) 3).exited) = true := by decide +kernel
/-- 1.5 + 0.25 is 1.75 in `.f32` (08 R286); 1 / 0 raises DIVZERO (11 R387). -/
theorem test_fadd : next (vec 0x3FC00000 0x3E800000) (.fadd hd .f32 .mode (.v 6) (.v 2) (.reg (.v 4))) (fun t => v64 t 2 6 == 0x3FE00000) = true := by decide +kernel
theorem test_fcmp_nan : next (vec 0x7FC00000 0) (.fcmp hd .ne .f32 (.v 6) (.v 2) (.reg (.v 4))) (fun t => v64 t 2 6 == 1) = true := by decide +kernel
theorem test_trap_without_handler : next (withT (fun k => { k with handler := 0 })) (.brk hd 5) (fun t => match taskAt t 0 with | some k => k.failed.isSome | none => true) = true := by decide +kernel

/-- FloatSpecialValues: a NaN of each kind, infinities, zeros and a number, for `.f32`. -/
theorem witness_special_values :
    tyF .f32 = true ∧ isNan (fpRead false .f32 0x7FC00000) = true ∧ isNan (fpRead false .f32 0x3F800000) = false ∧
    isSig (fpRead false .f32 0x7F800001) = true ∧ fpRead false .f32 0x7F800000 = .inf false ∧ fpRead false .f32 0xFF800000 = .inf true ∧
    zeroInf (fpRead false .f32 0x80000000) (fpRead false .f32 0x7F800000) = true ∧ (∃ f e, fpRead false .f32 0x3F800000 = .fin false f e ∧ f ≠ 0) ∧
    (∃ e, fpRead false .f32 0 = .fin false 0 e) ∧ (∃ f e, fpRead false .f32 0xBF800000 = .fin true f e ∧ f ≠ 0) := by
  refine ⟨by decide, by decide +kernel, by decide +kernel, by decide +kernel, by decide +kernel, by decide +kernel, by decide +kernel, ⟨_, _, rfl, by decide⟩, ⟨_, rfl⟩, ⟨_, _, rfl, by decide⟩⟩

/-! ### Memory: witnesses -/

/-- The lanes pass their checks, at places that meet `f`. -/
def placesB (r : Checked) (f : List (Nat × Place) → Bool) : Bool := match r with | .ok ps => f ps | .stop _ => false

/-- The lanes trap, with this cause, address and mask. -/
def trapsB (r : Checked) (cause : Nat) (addr : Dword) (mask : Mask) : Bool :=
  match r with | .stop (.trap c a m) => c == cause && a == addr && m == mask | _ => false

def isPhys : Place → Bool | .phys _ => true | _ => false

/-- Lanes at 16 bytes from each other, by a vector index. -/
abbrev memV (b : Reg) : MemOp := { base := b, idx := .v 0, pol := none, off := 0 }

/-- LoadsMakeTheirResultsPending: scratchpad, cached memory and an acquiring load, narrow and wide, and a vector load. -/
theorem witness_loads :
    ([.ld hd .i32 .relaxed (.v 6) (mem (.a 0)), .ld hd .n64 (.acq .pkg) (.v 6) (mem (.a 1)), .ld hd .i8 .relaxed (.s 6) (mem (.a 1))] : List Instr).all (fun i =>
      match i with
      | .ld _ t o d m => meets simt i (fun u x c => placesB (ldPlaces t o d m u x c) (fun ps =>
          (weightMisses u c.core ps).isEmpty && (syncFirst u x.cid (ps.map (·.2))).isSome))
      | _ => false) = true ∧
    meets simt (.ldx hd .i32 .relaxed (.v 6) { mem (.a 1) with pol := some 5 }) (fun u x c =>
      placesB (ldPlaces .i32 .relaxed (.v 6) { mem (.a 1) with pol := some 5 } u x c) (fun ps =>
        (weightMisses u c.core ps).isEmpty && (syncFirst u x.cid (ps.map (·.2))).isSome)) = true ∧
    meets simt (.ldv hd .x4 (.v 4) (mem (.a 1))) (fun u x c => placesB (vecPlaces .load 4 (mem (.a 1)) u x c) (fun ps =>
      (weightMisses u c.core ps).isEmpty && (match syncFirst u x.cid (ps.map (·.2)) with
        | some v => ps.all (fun p => match p.2 with
          | .phys ch => (List.range 4).all (fun j => !weightPlace v (.phys (subChunks ch (4 * j) 4)))
          | .scratch _ _ => true
          | .dev _ => false)
        | none => false) && (asksOf u (2 * x.cid)).isEmpty)) = true ∧ simt.weights.asks = [] := by decide +kernel

/-- StoresCompleteInLaneOrder and UnorderedStoreFrame. -/
def storeB (s : State) (t : Ty) (o : MOrd) (m : MemOp) : Bool :=
  meets s (.st hd t o (.v 0) m) (fun u x c => placesB (stPlaces t o m u x c) (fun ps =>
    match syncFirst u x.cid (ps.map (·.2)) with
    | none => false
    | some s1 => match bindOverlaps s1 x.cid (ps.map (·.2)) with
      | none => false
      | some s2 => match releaseOpt s2 x.cid (relScope o) with
        | none => false
        | some s3 => (storeLanes s3 c (relScope o).isSome (ps.map (fun p => (p.1, p.2, leBytes ((memSize t).getD 4) (rdN u c p.1 (tyWide t) (.v 0)))))).isSome))

theorem witness_stores :
    storeB simt .i32 .relaxed (mem (.a 0)) = true ∧ storeB simt .n16 .relaxed (memV (.a 1)) = true ∧ storeB simt .i32 (.rel .core) (mem (.a 1)) = true ∧
    meets simt (.stv hd .x2 (.v 0) (mem (.a 0))) (fun u x c => placesB (vecPlaces .store 2 (mem (.a 0)) u x c) (fun ps =>
      (syncFirst u x.cid (ps.map (·.2))).isSome && (bindOverlaps u x.cid (ps.map (·.2))).isSome &&
      (storeLanes u c false (ps.map (fun p => (p.1, p.2, vecBytes u c p.1 2 (.v 0))))).isSome)) = true := by decide +kernel

theorem witness_store_frame :
    simtClutch.inflight = [] ∧ simt.sync = [] ∧ (tget [] simt.l1 0).length + 64 ≤ l1Cap ∧
    meets simt (.st hd .i32 .relaxed (.v 0) (memV (.a 1))) (fun u x c =>
      placesB (stPlaces .i32 .relaxed (memV (.a 1)) u x c) (fun ps => ps.all (fun q => isPhys q.2))) = true := by decide +kernel

/-- BytesReadBackAsWritten: the last bytes of a scratchpad, and the types of a load. -/
theorem witness_scratch_bytes :
    0x1FFFFC + (leBytes 4 5).length ≤ 0x200000 ∧ memSize .i8 = some [0x80#8].length ∧ memSize .n64 = some (leBytes 8 1).length := by decide +kernel

/-! AccessChecksInTheirOrder: each check at the edge of its range. -/

abbrev q0 (acc : AccKind) (align : Nat) : Req := reqOf simt simtClutch (baseReg simtClutch (.a 0)) acc align false

def located (q : Req) (ea : Dword) (n cause : Nat) : Bool := match locate simt q ea n with | .error (.trap k) => k == cause | _ => false

theorem witness_locate_traps :
    located (q0 .load 4) 0xFFFF0000200000 4 cWindow = true ∧ located (q0 .load 0) 0xFFFF00001FFFFE 4 cWindow = true ∧
    located { q0 .load 4 with host := true } 0xFFFF0000000000 4 cWindow = true ∧
    located { q0 .load 4 with landed := true } 0xFFFF0000000000 4 cLeap = true ∧
    located (q0 .load 4) 0xFFFF0000000001 4 cMisalign = true ∧
    located (q0 .load 4) 0xFFFF000000FFFC 4 cBounds = false ∧ located (q0 .load 4) 0xFFFF0000010000 4 cBounds = true ∧
    located { q0 .load 4 with areg := none } 0xFFFF00001FFFFC 4 cBounds = true ∧
    located { q0 .store 4 with areg := some { ptr := 0, base := 0xFFFF0000000000, limit := 0xFFFF0000010000, r := true, w := false, x := false } }
      0xFFFF0000000000 4 cProtection = true ∧
    (match locate simt (q0 .store 4) 0xFFFF0000000010 4 with | .ok p => p == .scratch 0 0x10 | _ => false) = true := by decide +kernel

/-- An ordered load of an odd address, and a store outside its register's range. -/
theorem witness_lanes_trap :
    meets (withC (fun c => { c with s := [(22, 0x801)] })) (.ld hd .i16 (.acq .core) (.v 6) (memV (.s 22))) (fun u x c =>
      trapsB (ldPlaces .i16 (.acq .core) (.v 6) (memV (.s 22)) u x c) cMisalign 0x801 0xF) = true ∧
    meets simt (.st hd .i32 .relaxed (.v 0) { mem (.a 2) with off := 1 }) (fun u x c =>
      trapsB (stPlaces .i32 .relaxed { mem (.a 2) with off := 1 } u x c) cBounds 4 0xF) = true := by decide +kernel

/-- FenceAndCacheWords. -/
theorem witness_fences :
    ([.prf hd false (mem (.a 1)), .prf hd true (mem (.a 1)), .fence hd .acq .pkg, .fence hd .rel .pkg, .fence hd .ar .core, .cwb hd none,
      .cwb hd (some (mem (.a 1))), .cinv hd none, .cinv hd (some (mem (.a 1)))] : List Instr).all (readyB simt) = true ∧
    (completeAll simt 64).isSome = true ∧ (releaseAll simt 64 .pkg).isSome = true ∧
    meets simt (.cwb hd (some (mem (.a 1)))) (fun u x c => (wbLines u c.core (cacheLines u c x.ex (mem (.a 1)))).isSome) = true ∧
    meets simt (.cinv hd none) (fun u _ c => (evictLines u c.core (l1Lines u c.core)).isSome) = true := by decide +kernel

/-- AtomicWordsComplete: in the scratchpad and at a home die. -/
def atomB (base d : Reg) : Bool :=
  meets simt (.atom hd .add .i32 .relaxed d base (.v 0)) (fun u x c => placesB (atomPlaces .i32 base u x c) (fun ps =>
    match bindOverlaps u x.cid (ps.map (·.2)) with
    | none => false
    | some s1 => (atomLanes s1 x c .add .i32 (isVec d) (freshId c) (fun i => rdN u c i false (.v 0)) (fun i => rdN u c i false d)
        (fun i => decide (windowOf (baseVal u c i base).toNat = .colBank)) (fun i src => accFor c i false d src) ps).isSome))

theorem witness_atomics : atomB (.a 0) (.v 6) = true ∧ atomB (.a 1) (.v 6) = true ∧ atomB (.a 0) .zero = true ∧
    readyB simt (.red hd .fmax .f32 (.rel .pkg) (.a 0) (.v 0)) = true ∧ tyWide .i32 = false ∧ tyI .n32 = true := by decide +kernel

/-! Values. -/

/-- A lane-indexed store and load of cached memory give back each lane's number (10 R358, R360). -/
theorem test_store_then_load : next simt (.st hd .i32 .relaxed (.v 0) { memV (.a 1) with idx := .zero }) (fun t =>
    next t (.ld hd .i32 .relaxed (.v 6) (mem (.a 1))) (fun t => match completeAll t 64 with
      | some r => rd32 r (clutchAt r 64) 3 (.v 6) == 3 | none => false)) = true := by decide +kernel
/-- `atom.add` on one word by four lanes: lane n sees n (n - 1) / 2 (10 R365). -/
theorem test_atomic_lane_order : next simt (.atom hd .add .i32 .relaxed (.v 6) (.a 0) (.v 0)) (fun t => match completeAll t 64 with
      | some r => rd32 r (clutchAt r 64) 3 (.v 6) == 3 && leNat (spRead r 0 0x200 4) == 6 | none => false) = true := by decide +kernel
/-- Signed narrow loads extend their sign (10 R357). -/
theorem test_load_sign : extendLoad .i8 0x80 = 0xFFFFFF80 ∧ extendLoad .n8 0x80 = 0x80 := by decide +kernel

/-! ### Atomic regions: witnesses -/

def stateOr (s : State) : Host.Outcome State Fault Refusal → State | .next t => t | _ => s

/-- The four lanes have opened a region. -/
def inRegion : State := stateOr simt (exec (.atxBegin hd (.s 4) 10) simt)

def regionB (s : State) (f : Region → Bool) : Bool := match (clutchAt s 64).region with | some g => f g | none => false

/-- RegionWordsOpenAndClose. -/
theorem witness_region_words :
    meets simt (.atxBegin hd (.s 4) 10) (fun u _ c => decide (regionsOpen u c < regionCtxs u c)) = true ∧
    ([.atxEnd hd (.s 4), .atxAbort hd 3, .atxPin hd (.v 0), .atxStat hd (.s 6)] : List Instr).all (readyB simt) = true ∧
    ([.atxBegin hd (.s 4) 10, .atxEnd hd (.s 4), .atxAbort hd 3, .atxPin hd (.v 0), .atxStat hd (.s 6)] : List Instr).all (readyInB inRegion) = true ∧
    (List.range 4).all (fun j => (laneAt (clutchAt inRegion 64) j).depth == 1) = true := by decide +kernel

/-- RegionAbortReturnsToFallback: a region that raised no flag, and both classes of status. -/
theorem witness_region_abort : regionB inRegion (fun g => g.flagged == 0) = true ∧ (16 % 256 = 16 ∨ 16 % 256 = 17) ∧ ¬ (19 % 256 = 16 ∨ 19 % 256 = 17) := by decide +kernel

/-- The region has taken every store entry. -/
def fullRegion : State := modClutch inRegion 64 (fun c => { c with
  region := c.region.map (fun g => { g with entries := (List.range 64).map (fun k => (0, 0x5000 + k)) }) })

/-- RegionLoadsAndStoresAreTracked: a load, a store, and a store without room. -/
theorem witness_region_words_track :
    readyInB inRegion (.ld hd .i32 .relaxed (.v 6) (mem (.a 1))) = true ∧
    givenIn inRegion (.ld hd .i32 .relaxed (.v 6) (mem (.a 1))) (fun u x c => (ldTracked .i32 .relaxed (.v 6) (mem (.a 1)) u x c).isSome) = true ∧
    readyInB inRegion (.st hd .i32 .relaxed (.v 0) (mem (.a 1))) = true ∧
    givenIn inRegion (.st hd .i32 .relaxed (.v 0) (mem (.a 1))) (fun u x c => (stBuffered .i32 .relaxed (.v 0) (mem (.a 1)) u x c).isSome) = true ∧
    readyInB fullRegion (.st hd .i32 .relaxed (.v 0) (mem (.a 1))) = true ∧
    givenIn fullRegion (.st hd .i32 .relaxed (.v 0) (mem (.a 1))) (fun u x c => placesB (stPlaces .i32 .relaxed (mem (.a 1)) u x c) (fun ps =>
      ps.all (fun q => !regionBars u q.2) &&
      (bufferStores (stEntries .i32 (mem (.a 1)) (.v 0) ps u x c).1 4 (stEntries .i32 (mem (.a 1)) (.v 0) ps u x c).2).isNone)) = true := by decide +kernel

/-- A slot of word 0x10900 / 4 + j in lane 0. -/
def slotOf (j : Nat) (k : SlotKind) : LoadSlot :=
  { lane := 0, pa := 0x10900 / 4 + j, va := 0x900 + 4 * j, obs := 5, pinned := false, kind := k }

/-- Repeats of 32 and 64 bits, a forwarded load, and another load of a slot's bytes. -/
theorem witness_region_repeats :
    (slotAt { Region.opened 0xF 4 none with slots := [slotOf 0 .one] } 0 (0x10900 / 4)).isSome = true ∧
    (let g := { Region.opened 0xF 4 none with slots := [slotOf 0 .lo, slotOf 1 .hi] }
     slotAt g 0 (0x10900 / 4) = some (0, slotOf 0 .lo) ∧ slotAt g 0 (0x10900 / 4 + 1) = some (1, slotOf 1 .hi)) ∧
    (match bufferStore (clutchAt inRegion 64) 0 [(0x10900, 4)] 4 7 none with
     | some c => (match c.region with | some g => (match storeMeeting g [(0x10900, 4)] with
        | some r => r.chunks == [(0x10900, 4)] && r.size == 4 | none => false) | none => false)
     | none => false) = true ∧
    regionB inRegion (fun g => (storeMeeting g [(0x10901, 1)]).isNone && (wordsOf 0x901 [(0x10901, 1)]).length == 1 &&
      (match newSlots inRegion 64 0 (((wordsOf 0x901 [(0x10901, 1)]).filter (fun w => (slotAt g 0 w.1).isNone)).map (fun w => (w.1, w.2, .part))) with
       | .ok u _ _ => (clutchAt u 64).region.isSome | _ => false)) = true := by decide +kernel

/-- RegionLoadsAndStoresAreTracked: the word at 0x10900, and the double word there. -/
theorem witness_region_accesses :
    (bufferStore (clutchAt inRegion 64) 0 [(0x10900, 4)] 4 7 none).isSome = true ∧
    regionB inRegion (fun g => g.hold.isNone && g.stores.isEmpty && (slotAt g 0 (0x10900 / 4)).isNone && decide (g.slots.length < 64)) = true ∧
    (match readChunks inRegion 0 [(0x10900, 4)] with
     | some (u, _) => decide ((clutchAt u 64).region = (clutchAt inRegion 64).region)
     | none => false) = true ∧
    regionB inRegion (fun g => (storeMeeting g [(0x10900, 8)]).isNone && (slotAt g 0 (0x10900 / 4 + 1)).isNone &&
      (match readChunks inRegion 0 [(0x10900, 4)] with
       | some (u, b0) => (clutchAt u 64).region == some g && (clutchAt u 64).core == 0 &&
          (let g1 := { g with slots := g.slots ++ [{ lane := 0, pa := 0x10900 / 4, va := 0x900, obs := BitVec.ofNat 32 (leNat b0), pinned := false, kind := .lo }] }
           match readChunks (modClutch u 64 (fun c => { c with region := some g1 })) 0 [(0x10904, 4)] with
           | some (v, _) => (clutchAt v 64).region == some g1
           | none => false)
       | none => false)) = true := by decide +kernel

/-- A region that observed 5 where memory holds 0, in a pinned slot; every lane has arrived. -/
def observed : State := modClutch inRegion 64 (fun c => { c with
  lanes := (List.range 4).map (fun n => (n, { laneAt c n with arrived := true }))
  region := c.region.map (fun g => { g with slots := [{ lane := 0, pa := 0x10900 / 4, va := 0x900, obs := 5, pinned := true, kind := .one }] }) })

/-- A slot that may be repaired, with a constraint that its fresh value meets, or that it does not meet. -/
def observing (q : Option Constr) : State := modClutch observed 64 (fun c => { c with
  region := c.region.map (fun g => { g with slots := g.slots.map (fun x => { x with pinned := false }), constrs := q.toList }) })

def isZero (r : Bool) : Constr := { lane := 0, slot := 0, cc := .eq, wide := false, signed := true, c := 0, symLeft := true, y := 0, result := r }

/-- The slot's line is poisoned; or another die's plain write has asked for it. -/
def poisoned9 : State := { observed with poison := tput false observed.poison (0x10900 / 128) true }
def contended : State := setTok observed (0x10900 / 128) { tokAt observed (0x10900 / 128) with held := [], owner := none }

theorem witness_commit_repairs :
    [none, some (isZero true)].all (fun q => regionB (observing q) (fun g => g.slots.all (fun y => freshVal (observing q) y != 5 && !y.pinned) &&
      (match checkSlots (observing q) 0 g 0 false g.slots with | .ok b => b | _ => false))) = true ∧
    regionB (observing (some (isZero false))) (fun g => match listGet g.slots 0 with
      | some x => !x.pinned && freshVal (observing (some (isZero false))) x != obsVal g 0 x &&
          g.constrs.any (fun q => q.slot == 0 && !holdsFor q (freshVal (observing (some (isZero false))) x))
      | none => false) = true ∧
    regionB poisoned9 (fun g => g.slots.all (fun y => freshPoison poisoned9 0 (y.pa / 32))) = true ∧
    regionB contended (fun g => match releaseAll (forCommit contended 64 g) 64 .pkg with
      | none => false
      | some u => match prepLines u 0 (regionLines g) with
        | none => false
        | some v => match gatherLines v 64 0 (storeLines g) (regionLines g) with | .error l => l == 0x10900 / 128 | .ok _ => false) = true := by decide +kernel

theorem witness_commit :
    regionB inRegion (fun g => match checkSlots inRegion 0 g 0 false g.slots with | .ok b => !b | _ => false) = true ∧
    regionB observed (fun g => match listGet g.slots 0 with
      | some x => !linePoison observed (x.pa / 32) && freshVal observed x != obsVal g 0 x && x.pinned
      | none => false) = true ∧
    runs observed (clutchAt observed 64) = true ∧
    regionB observed (fun g => (lanesOf g.p).all (fun n => (laneAt (clutchAt observed 64) n).arrived) &&
      (match releaseAll (forCommit observed 64 g) 64 .pkg with
       | none => false
       | some u => match prepLines u 0 (regionLines g) with
         | none => false
         | some v => (match gatherLines v 64 0 (storeLines g) (regionLines g) with
           | .ok w => (readsAt w 0 ((regionLines g).filter (fun l => !isWeight w l))).isSome
           | .error _ => false))) = true := by decide +kernel

/-- A region whose slots read as observed commits with 0; a changed pinned slot aborts with CONFLICT 16 (10 R376, R377). -/
theorem test_region_conflict : next observed (.regionCommit 64) (fun t => tget 0 (clutchAt t 64).s 4 == 16 && (clutchAt t 64).region.isNone) = true := by decide +kernel

/-! ### Queues, rings, planes, the vertical FIFO: witnesses -/

/-- A queue of eight 4-byte elements at offset 0x10000 (05 R178). -/
def qWord (head tail state : Nat) : Nat := 0x10000 + 3 * 2 ^ 21 + 2 * 2 ^ 25 + head * 2 ^ 28 + tail * 2 ^ 44 + state * 2 ^ 60

def queued (head tail state : Nat) : State := setQueue simt 0 3 (qWord head tail state)

def landed (s : State) : State := modClutch s 64 (fun c => { c with pad := some 0 })

/-- QueueWords: room for four lanes, exactly; elements for four lanes, exactly; and what waits or traps beside them. -/
theorem witness_queue_words :
    meets (queued 65534 2 1) (.qpush hd .i32 (.v 0) 3) (fun u x c =>
      c.pad.isNone && qSize (queueAt u 0 3) == 4 && qState (queueAt u 0 3) == 1 && qCount (queueAt u 0 3) + (lanesOf x.ex).length == 8 &&
      (match releaseAll u x.cid .core with | some v => (taskAt v 0).isSome | none => false)) = true ∧
    meets (queued 65534 2 1) (.qpop hd .i32 (.v 6) 3) (fun u x c =>
      (c.task.bind (taskAt u)).isSome && c.pad.isNone && qState (queueAt u 0 3) != 0 && (lanesOf x.ex).length == qCount (queueAt u 0 3)) = true ∧
    meets (queued 65534 3 1) (.qpush hd .i32 (.v 0) 3) (fun u x _ => decide (2 ^ qDepth (queueAt u 0 3) < qCount (queueAt u 0 3) + (lanesOf x.ex).length)) = true ∧
    meets (queued 65534 1 1) (.qpop hd .i32 (.v 6) 3) (fun u x _ => !qDone (queueAt u 0 3) && decide (qCount (queueAt u 0 3) < (lanesOf x.ex).length)) = true ∧
    meets (queued 0 0 1) (.qpush hd .i16 (.v 0) 3) (fun u _ c => c.pad.isNone && qSize (queueAt u 0 3) != 2) = true ∧
    meets (queued 0 0 0) (.qpop hd .i32 (.v 6) 3) (fun u _ c => c.pad.isNone && qState (queueAt u 0 3) == 0) = true ∧
    meets (landed (queued 0 4 1)) (.qpush hd .i32 (.v 0) 3) (fun u _ c => (c.task.bind (taskAt u)).isSome && c.pad.isSome) = true ∧
    meets (withC (fun c => { c with s := [(20, BitVec.ofNat 32 (qWord 0 0 1)), (21, BitVec.ofNat 32 (qWord 0 0 1 / 2 ^ 32))] })) (.qcfgSet hd (.s 20) 3)
      (fun u x c => match c.task.bind (taskAt u) with
        | some k => c.pad.isNone && (qcfgFault u x k 3 (rd64 u c (lowLane x.ex) (.s 20)).toNat).isNone
        | none => false) = true ∧
    meets (queued 0 4 1) (.qcfgGet hd (.s 8) 3) (fun _ _ c => c.pad.isNone) = true := by decide +kernel

/-- The elements of a push that wraps, in the last bytes of a scratchpad. -/
theorem witness_push_bounds :
    4 ≤ qSize (qWord 0 6 1) ∧ 4 ≤ 2 ^ qDepth (qWord 0 6 1) ∧ 0x1EFFE0 + qBase (qWord 0 6 1) + 2 ^ qDepth (qWord 0 6 1) * qSize (qWord 0 6 1) = 0x200000 := by
  decide +kernel

/-- Two stages of 128 B and two roles at offset 0x11000 (05 R184); `st` are the fields of stage 0, `cur` the cursor of role 0. -/
def ringed (st cur : Nat) : State := setRing simt 0 2 (0x11000 + 2 ^ 21 + 2 ^ 24 + 2 ^ 32 + cur * 2 ^ 48 + st * 2 ^ 72)

/-- RingWordsComplete. -/
theorem witness_ring_words :
    meets (withC (fun c => { c with s := [(20, 0x1211000), (21, 1)] })) (.ringCfg hd 2 (.s 20)) (fun u x c => match c.task.bind (taskAt u) with
      | some k => c.pad.isNone && (ringCfgFault u x k 2 (rd64 u c (lowLane x.ex) (.s 20)).toNat).isNone
      | none => false) = true ∧
    meets (ringed 0 0) (.ringAcq hd 2 0 (.s 6)) (fun u x _ => (ringFault u x 2 0).isNone && ringReady (ringAt u 0 2) 0 0) = true ∧
    meets (ringed 0 0) (.ringAcq hd 2 1 (.s 6)) (fun u x _ => (ringFault u x 2 1).isNone && !ringReady (ringAt u 0 2) (rgCur (ringAt u 0 2) 1) 1) = true ∧
    meets (ringed 0 0) (.ringAcq hd 2 2 (.s 6)) (fun u _ c => c.pad.isNone && decide (rgRoles (ringAt u 0 2) ≤ 2)) = true ∧
    meets simt (.ringAcq hd 2 0 (.s 6)) (fun u _ c => c.pad.isNone && !rgConfigured (ringAt u 0 2)) = true ∧
    meets (ringed 2 1) (.ringRel hd 2 0) (fun u x _ => (ringFault u x 2 0).isNone && ringOldest (ringAt u 0 2) 0 == some 0 && (releaseAll u x.cid .core).isSome) = true := by
  decide +kernel

/-- A descriptor: base 0, eight rows, one row-chunk, format code 5 (11 R398). -/
def planed : State := withC (fun c => { c with s := [(9, 0), (20, 0), (21, 5 * 2 ^ 24 + 2 ^ 12 + 8)] })

/-- PlaneAndScaleWords. -/
theorem witness_plane_words :
    meets planed (.mplane hd (.s 20) (.v 0) (.s 9)) (fun u x c =>
      let g := descOf (rd64 u c (lowLane x.ex) (.s 20)).toNat (rd32 u c (lowLane x.ex) (.s 9)).toNat
      (descFault u x g).isNone && (match c.task.bind (taskAt u) with
        | some k => (bindOverlaps u x.cid ((planeWrites u k g x.ex (fun i => planeOf g.fmt (laneCode u c g.fmt i (.v 0)))).map (fun w =>
            Place.scratch k.core (k.spOff + w.1)))).isSome
        | none => false)) = true ∧
    meets planed (.mnplane hd (.v 6) (.s 20) (.s 9)) (fun u x c =>
      (descFault u x (descOf (rd64 u c (lowLane x.ex) (.s 20)).toNat (rd32 u c (lowLane x.ex) (.s 9)).toNat)).isNone && (c.task.bind (taskAt u)).isSome) = true ∧
    meets simt (.mcmp hd 5 true (.v 6) (.v 0) (.s 6)) (fun _ _ c => c.pad.isNone) = true ∧
    meets simt (.mscl hd 5 .f32 false (.s 6) (.v 0)) (fun _ _ c => c.pad.isNone) = true ∧
    mfKind 5 ≠ 2 := by decide +kernel

/-- The gang holds both cores of the pair; `n` entries in the FIFO that leaves, `m` in the one that arrives. -/
def paired (n m : Nat) : State :=
  let s := { simt with gangs := [(0, some { placeGang with cores := [0, partner 0] })] }
  setFifo (setFifo s (fifoOut 0 0) (List.replicate n 5)) (fifoIn 0 0) (List.replicate m 6)

/-- VerticalFifoWords. -/
theorem witness_vertical_fifo :
    meets (paired 7 0) (.vfsend hd (.v 0)) (fun u x c => c.pad.isNone && holdsPair u c && decide ((fifoAt u (fifoOut (gangNo u c) c.core)).length < 8) &&
      (releaseAll u x.cid .column).isSome) = true ∧
    meets (paired 0 1) (.vfrecv hd (.v 6)) (fun u _ c => c.pad.isNone && holdsPair u c && fifoAt u (fifoIn (gangNo u c) c.core) != []) = true ∧
    meets (paired 8 0) (.vffree hd (.s 6)) (fun u _ c => c.pad.isNone && holdsPair u c) = true ∧
    meets (paired 8 0) (.vfsend hd (.v 0)) (fun u _ c => holdsPair u c && decide (8 ≤ (fifoAt u (fifoOut (gangNo u c) c.core)).length)) = true ∧
    meets (paired 0 0) (.vfrecv hd (.v 6)) (fun u _ c => holdsPair u c && fifoAt u (fifoIn (gangNo u c) c.core) == []) = true ∧
    meets (landed (paired 0 0)) (.vffree hd (.s 6)) (fun _ _ c => c.pad.isSome) = true ∧
    meets simt (.vfsend hd (.v 0)) (fun u _ c => c.pad.isNone && !holdsPair u c) = true := by decide +kernel

/-- Lanes push in increasing lane order; a FIFO keeps order (05 R180, R186). -/
theorem test_push_order : next (queued 2 6 1) (.qpush hd .i32 (.v 0) 3) (fun t =>
    leNat (spRead t 0 0x10004 4) == 3 && qTail (queueAt t 0 3) == 10) = true := by decide +kernel

/-! ### Engine contexts: witnesses -/

/-- The issue of a command finds its context, block and room (`IssueFinds`), and its block meets `also`. -/
def issueB (s : State) (i : Instr) (e : Nat) (sc : Scope) (also : State → Clutch → BitVec 1024 → Bool) : Bool :=
  meets s i (fun u x c => c.pad.isNone && decide (e < engCount u c) &&
    placesB (checkLanes u (reqOf u c (baseReg c (.a 0)) .load 128 false) [lowLane x.ex] (fun _ => baseVal u c (lowLane x.ex) (.a 0)) 128 (fun _ => false))
      (fun ps => (weightMisses u c.core ps).isEmpty && (match syncFirst u x.cid (ps.map (·.2)) with
        | none => false
        | some u1 => match (ps.head?).bind (fun p => readPlace u1 c.core p.2 128) with
          | none => false
          | some (w, bs) => decide (outstanding (engAt w (engRef (clutchAt w x.cid)) e) < 32) && (releaseAll w x.cid sc).isSome &&
            also w c (BitVec.ofNat 1024 (leNat bs)))))

/-- The card of a job of one 1 × 1 tile: formats 3, 3 and 3 (0x0C63), one K chunk, one level of one iteration. -/
def carded : State := modClutch (spWrite simt 0 0x200 (leBytes 128 (0x0C63 + 0x240 * 2 ^ 32 + 0x400 * 2 ^ 96 + 0x800 * 2 ^ 128 + 2 * 2 ^ 192 +
  0x900 * 2 ^ 320 + 2 ^ 384))) 64 (fun c => { c with s := [(9, 0x0C63)] })

/-- EngineCommandsIssue: contexts 0 and 7. -/
theorem witness_commands_issue :
    issueB simt (.cpy hd 0 (.a 0)) 0 .pkg (fun _ _ _ => true) = true ∧ issueB simt (.nmeGth hd 7 (.a 0)) 7 .pkg (fun _ _ _ => true) = true ∧
    issueB simt (.nmeRed hd 1 (.a 0)) 1 .pkg (fun _ _ _ => true) = true ∧ issueB simt (.nmeCvt hd 1 (.a 0)) 1 .pkg (fun _ _ _ => true) = true ∧
    issueB simt (.winst hd 1 (.a 0)) 1 .pkg (fun _ _ _ => true) = true ∧
    issueB (setQueue simt 0 0 (qWord 0 0 0)) (.astr hd 1 (.a 0)) 1 .core (fun w _ b =>
      let q := queueAt w 0 (bits b.toNat (8 * 0x14) 4)
      qState q == 0 && qDepth q != 0 && qDepth q != 15) = true ∧
    issueB carded (.mjob hd 2 (.a 0) (.s 9)) 2 .core (fun w c b => decide (windowOf 0xFFFF0000000200 = .scratch) &&
      !voteFails w c 0xF (.s 9) b && !(cardOf b).reserved &&
      (cardOf b).inside (match c.task.bind (taskAt w) with | some t => allocLen t | none => 0) && decide ((coreAt w c.core).jobs.length < 16)) = true := by
  decide +kernel

/-- A copy has been issued in context 1. -/
def issuedCopy : State := stateOr simt (exec (.cpy hd 1 (.a 0)) simt)

/-- CommandsAreRecordedAndCompleteInOrder. -/
theorem witness_command_record :
    (taskAt simt 0).isSome = true ∧ engRef (clutchAt simt 64) = .task 0 ∧
    (match cmdAt issuedCopy simt.pkg.serial with
     | some k => !k.orphan && decide (k.ref = .task 0) && (completeCmd issuedCopy simt.pkg.serial).isSome && (failCmd issuedCopy simt.pkg.serial 1 0 0).isSome
     | none => false) = true := by decide +kernel

/-- EngineContextWords: a count of 0, one not reached, one above what was issued. -/
theorem witness_engine_context :
    meets simt (.tlwait hd 1 .zero) (fun u _ c => c.pad.isNone && decide (1 < engCount u c) && !inTlwait c && decide ((engAt u (engRef c) 1).issued ≤ (engAt u (engRef c) 1).done)) = true ∧
    meets issuedCopy (.tlwait hd 1 .zero) (fun u _ c => decide ((engAt u (engRef c) 1).done < (engAt u (engRef c) 1).issued)) = true ∧
    meets simt (.tlwait hd 1 (.s 20)) (fun u x c => decide ((engAt u (engRef c) 1).issued < (rd64 u c (lowLane x.ex) (.s 20)).toNat)) = true ∧
    meets issuedCopy (.tlget hd .issued (.s 8) 1) (fun u _ c => c.pad.isNone && decide (1 < engCount u c)) = true ∧
    meets issuedCopy (.tlgetClr hd (.s 8) 1) (fun u _ c => c.pad.isNone && decide (1 < engCount u c)) = true ∧
    meets (withT (fun k => { k with engines := 1 })) (.tlget hd .done (.s 8) 1) (fun u _ c => c.pad.isNone && decide (engCount u c ≤ 1)) = true ∧
    meets (landed simt) (.tlget hd .done (.s 8) 1) (fun _ _ c => c.pad.isSome) = true ∧
    readyB simt (.wqry hd (.v 6) (.a 1)) = true := by decide +kernel

/-- The weight window's first page is mapped, and the split is locked. -/
def weighted : State := modClutch { simt with
  tlb := [{ tlb := 0, ctx := 0, va := weightVa, size := 0x200000, frame := weightBase, perm := 0xF }], pkg := { simt.pkg with hbmLock := true } } 64
  (fun c => { c with s := [(20, BitVec.ofNat 32 weightVa), (21, BitVec.ofNat 32 (weightVa / 2 ^ 32))] })

theorem witness_weight_query :
    meets weighted (.wqry hd (.v 6) (.s 20)) (fun u x c => placesB (gatherChecks u .load (accLanes x.ex (isScl (.v 6))) (fun i => baseVal u c i (.s 20)) (fun i =>
      windowed (decide (windowOf (baseVal u c i (.s 20)).toNat = .weight))
        (locate u { reqOf u c (baseReg c (.s 20)) .load 0 false with view := .none } (baseVal u c i (.s 20)) 1))
      (fun i => accessTake { reqOf u c (baseReg c (.s 20)) .load 0 false with view := .none } (baseVal u c i (.s 20)) 1)) (fun ps => ps.length == 4)) = true := by decide +kernel

/-- Completions count in order: `done` stays below a gap (12 R425). -/
theorem test_commands_complete_in_order : donePrefix 4 [6, 7] = (4, [6, 7]) ∧ donePrefix 4 [5, 6, 8] = (6, [8]) := by decide +kernel
/-- A command's number follows the last one (12 R422). -/
theorem test_copy_is_numbered : (engAt issuedCopy (.task 0) 1).issued = 1 ∧ (engAt issuedCopy (.task 0) 1).done = 0 := by decide +kernel

/-! ### Leap, launch, join, barriers, sync objects: witnesses -/

/-- Virtual page 1 is column 0's page of launch lines; line 0 admits device tokens, or is off. -/
def launching (cfg : Dword) : State := modClutch { simt with
  tlb := { tlb := 0, ctx := 0, va := 0x10000, size := 65536, frame := regBase, perm := 0x3F } :: simt.tlb
  mem := pokeBytes simt.mem 0x5008 (leBytes 8 (pteOf regBase 0x3F)), lines := [(0, { Line.zero with cfg := cfg })] } 64
  (fun c => { c with s := [(24, 0x10000)] })

def launchB (s : State) (f : State → Nat → BitVec 512 → Option (Nat × Nat) → Bool) : Bool :=
  meets s (.launch hd .pkg (.s 24) (.a 0)) (fun u x c => match launchKey u x c (.s 24) with
    | .inr key => placesB (checkLanes u (reqOf u c (baseReg c (.a 0)) .load 64 false) [lowLane x.ex] (fun _ => baseVal u c (lowLane x.ex) (.a 0)) 64 (fun _ => false))
      (fun ps => (weightMisses u c.core ps).isEmpty && (match syncFirst u x.cid (ps.map (·.2)) with
        | none => false
        | some u1 => match (ps.head?).bind (fun p => readPlace u1 c.core p.2 64) with
          | none => false
          | some (u2, bs) => match releaseAll u2 x.cid .pkg with
            | none => false
            | some v => f v key (BitVec.ofNat 512 (leNat bs)) ((c.task.bind (taskAt v)).map (fun t => (t.launch, t.number)))))
    | .inl _ => false)

def armed (v : State) (col : Nat) : State :=
  { modClutch v 64 (fun c => { c with leapTo := some col, waitArg := v.pkg.serial, hazard := [] }) with pkg := { v.pkg with serial := v.pkg.serial + 1 } }

/-- Four clutches have landed on every core of column c, so that a leap there waits. -/
def padsFull (s : State) (c : Nat) : State :=
  (List.range 16).foldl (fun s k => setClutch s (70 + k) { deadClutch with task := some 0, core := 4 * c + k / 4, homeCore := 0, pad := some (k % 4), slot := k % 4 }) s

def leapB (s : State) (i : Instr) (a : Reg) (lands : Bool) : Bool :=
  meets s i (fun u x c => (c.leapTo.isNone || !waitsIn c .leap) && (match leapTarget u x c a with
    | .inl _ => false
    | .inr col => match releaseAll u x.cid (pairScope (colOf c.core) col) with
      | none => false
      | some v => (leapTry (armed v col) 64 col).isSome == lands))

/-- The column that a leap to a1 names. -/
def leapCol : Nat := match leapTarget simt { cid := 64, ia := 0, at_ := 0xF, ex := 0xF } (clutchAt simt 64) (.a 1) with | .inr c => c | .inl _ => 0

/-- LeapLaunchAndJoin. -/
theorem witness_leap : leapB simt (.leap hd (.a 1)) (.a 1) true = true ∧ leapCol ≠ 0 ∧ leapB (padsFull simt leapCol) (.leap hd (.a 1)) (.a 1) false = true := by decide +kernel

theorem witness_launch :
    launchB (launching 4) (fun v key _ _ => !lineEn (lineAt v key)) = true ∧
    launchB (launching 5) (fun v key tok task => lineEn (lineAt v key) && decide ((lineAt v key).queue.length < 8) && (enqueueTok v key tok false task).isSome) = true := by decide +kernel

def objB (acc : AccKind) (n : Nat) (f : State → Ctx → Clutch → List (Nat × Place) → Bool) (u : State) (x : Ctx) (c : Clutch) : Bool :=
  placesB (objCheck u x (objReq u c (.a 1) acc n .slice) (baseVal u c (lowLane x.ex) (.a 1)) n globalOnly) (f u x c)

def placeB (ps : List (Nat × Place)) : Nat := placePa ((ps.head?).elim (.dev 0) (·.2))

/-- PENDING 0 in the join record at 0x900, and PENDING 1. -/
theorem witness_join :
    meets simt (.join hd (.s 8) (.a 1)) (objB .load 64 (fun u _ c ps => match homeTake u c.core (placeB ps) with
      | some v => bits (perfNat v (placeB ps) 32) 0 32 == 0 | none => false)) = true ∧
    meets { simt with mem := pokeBytes simt.mem 0x10900 [1] } (.join hd (.s 8) (.a 1)) (objB .load 64 (fun u _ c ps => match homeTake u c.core (placeB ps) with
      | some v => bits (perfNat v (placeB ps) 32) 0 32 == 1 | none => false)) = true := by decide +kernel

/-- Brood barrier 2 in phase 0 with one of `e` arrivals; the clutch has arrived, or not. -/
def barred (e : BitVec 6) (arrived seen ph : Bool) : State :=
  modClutch (withT (fun k => { k with bars := if e = 0 && !ph then [] else [(2, { e := e, a := (if e = 0 then 0 else 1), ph := ph })] })) 64
    (fun c => { c with arrived := if arrived then 4 else 0, seen := if seen then 4 else 0 })

def barB (s : State) (i : Instr) (f : Bar → Clutch → Bool) : Bool :=
  meets s i (fun u x c => c.pad.isNone && (releaseAll u x.cid .core).isSome && (match c.task.bind (taskAt u) with | some k => f (tget Bar.zero k.bars 2) c | none => false))

/-- BarrierAndWaitWords: brood barriers. -/
theorem witness_brood_barrier :
    barB (barred 0 false false false) (.barArr hd 2 48) (fun b c => !c.arrived.getLsbD 2 && b.e == 0) = true ∧
    barB (barred 2 false false false) (.barArr hd 2 2) (fun b c => !c.arrived.getLsbD 2 && b.e == 2) = true ∧
    barB (barred 2 false false false) (.barArr hd 2 3) (fun b _ => b.e != 0 && b.e != 3) = true ∧
    barB (barred 2 true false false) (.barArr hd 2 2) (fun _ c => c.arrived.getLsbD 2) = true ∧
    barB (barred 0 true false true) (.barWait hd 2) (fun b c => c.arrived.getLsbD 2 && b.ph != c.seen.getLsbD 2) = true ∧
    barB (barred 2 true false false) (.barWait hd 2) (fun b c => c.arrived.getLsbD 2 && b.ph == c.seen.getLsbD 2) = true ∧
    barB simt (.barWait hd 2) (fun _ c => !c.arrived.getLsbD 2) = true := by decide +kernel

theorem witness_wait_words :
    meets simt (.sbarArr hd (.a 1)) (objB .atomic 16 (fun u x c ps => match releaseAll u x.cid .pkg with
      | some v => (homeRmw v c.core (placeB ps) 16 sbarStep).isSome | none => false)) = true ∧
    meets (withC (fun c => { c with sbarGen := 1 })) (.sbarWait hd (.a 1)) (objB .load 16 (fun u _ c ps => match homeTake u c.core (placeB ps) with
      | some v => perfNat v (placeB ps + 8) 4 != c.sbarGen.toNat | none => false)) = true ∧
    meets simt (.waitaddr hd .core .eq .n32 (.a 1) .zero) (fun u x c =>
      placesB (objCheck u x (objReq u c (.a 1) .load 4 .slice) (baseVal u c (lowLane x.ex) (.a 1)) 4 waitWindows) (fun ps =>
        match syncFirst u x.cid (ps.map (·.2)) with
        | none => false
        | some v => match (ps.head?).bind (fun p => waitRead v c.core 4 p.2) with
          | some (w, y) => cmpInt .eq y (rdN w c (lowLane x.ex) false .zero)
          | none => false)) = true ∧
    meets simt (.wake hd (.a 1)) (fun u x c =>
      placesB (objCheck u x (objReq u c (.a 1) .load 0 .none) (baseVal u c (lowLane x.ex) (.a 1)) 1 waitWindows) (fun _ => (releaseAll u x.cid .pkg).isSome)) = true := by
  decide +kernel

/-- A deque of two elements (LOGCAP 1) at 0x900 with its array at 0x800 (12 R447), TOP and BOTTOM as given. -/
def dequed (top bottom : Nat) : State := { simt with mem := pokeBytes simt.mem 0x10900 (leBytes 32 (0x800 + 2 ^ 64 + top * 2 ^ 128 + bottom * 2 ^ 192)) }

def deqB (s : State) (i : Instr) (rel : Option Scope) (f : State → State → Ctx → Clutch → Deq → Bool) : Bool :=
  meets s i (fun u x c => match deqHead u x c (.a 1) rel with
    | .inr (t, pa) => f t u x c (deqOf (perfNat t pa 64))
    | .inl _ => false)

def elemB (t u : State) (x : Ctx) (c : Clutch) (va : Nat) (acc : AccKind) : Bool := match deqElem t u x c va acc with | .inr _ => true | .inl _ => false

/-- DequeWords: an empty deque, one with an element, a full one and a bad header. -/
theorem witness_deque :
    deqB simt (.deqInit hd (.a 1) (.s 22) 24) none (fun _ _ _ _ _ => true) = true ∧
    deqB (dequed 3 4) (.deqPush hd (.a 1) (.s 20)) (some .pkg) (fun t u x c q => !q.bad && decide (q.bottom - q.top < 2 ^ q.logcap) && elemB t u x c (q.slot q.bottom) .store) = true ∧
    deqB (dequed 3 5) (.deqPush hd (.a 1) (.s 20)) (some .pkg) (fun _ _ _ _ q => decide (2 ^ q.logcap ≤ q.bottom - q.top)) = true ∧
    deqB (dequed 3 3) (.deqPop hd (.s 8) (.a 1)) none (fun _ _ _ _ q => !q.bad && q.bottom == q.top) = true ∧
    deqB (dequed 3 4) (.deqPop hd (.s 8) (.a 1)) none (fun t u x c q => !q.bad && q.bottom != q.top && elemB t u x c (q.slot (q.bottom - 1)) .load) = true ∧
    deqB (dequed 3 4) (.deqSteal hd (.s 8) (.a 1)) none (fun t u x c q => !q.bad && q.bottom != q.top && elemB t u x c (q.slot q.top) .load) = true ∧
    deqB (dequed 4 3) (.deqSteal hd (.s 8) (.a 1)) none (fun _ _ _ _ q => q.bad) = true := by decide +kernel

/-- The last expected arrival ends the phase (12 R443). -/
theorem test_barrier_phase : barStep { e := 2, a := 1, ph := false } 2 = { e := 0, a := 0, ph := true } := by decide +kernel

/-! ### System registers, traps, host words: witnesses -/

/-- SystemRegistersReadBackAsWritten: a SIMT clutch with its task, a host core without one; a seed, and none. -/
theorem witness_sys_registers :
    (clutchAt simt 64).task = some 0 ∧ (taskAt simt 0).isSome = true ∧ (clutchAt host 0).task = none ∧ isHost (clutchAt host 0) = true ∧
    (0x20 : Nat).testBit 5 = true ∧ (0x10 : Nat).testBit 5 = false ∧ laneCount (clutchAt simt 64) = 32 ∧ laneCount (clutchAt host 0) = 1 := by decide +kernel

theorem witness_system_words :
    readyB simt (.sysw hd 0x002 (.s 5)) = true ∧ meets host (.sysw hd 0x007 (.s 5)) (fun _ _ c => isHost c) = true ∧ readyB host (.sysr hd (.s 6) 0x048) = true := by
  decide +kernel

/-- SimtTrapEntry: a handler and room; no handler; in a trap; no room. -/
def entryB (s : State) : Bool × Bool × Bool := match taskAt s 0 with
  | some x => (x.handler != 0, (tget TrapSet.zero (clutchAt s 64).traps 0).inTrap,
      (lanesOf (0xF#32)).all (fun i => decide (8 * ((laneAt (clutchAt s 64) i).wbv.toNat + 14) + 112 ≤ 8 * stackLimit s (clutchAt s 64))))
  | none => (false, false, false)

theorem witness_simt_entry :
    (clutchAt simt 64).task = some 0 ∧ cSyscall < 256 ∧ entryB simt = (true, false, true) ∧ entryB inTrap = (true, true, true) ∧
    entryB (withT (fun k => { k with handler := 0 })) = (false, false, true) ∧ entryB (withT (fun k => { k with stackN := 27 })) = (true, false, false) ∧
    entryB (withT (fun k => { k with stackN := 28 })) = (true, false, true) := by decide +kernel

/-- A host core at a level, with its vectors and its stack. -/
def hosted (lv : Fin 3) (u s f limit : Dword) : State :=
  modClutch (modHost host 0 (fun h => { h with uvec := u, svec := s, fvec := f, hstkBase := 0, hstkLimit := limit })) 0 (fun c => { c with level := lv })

def openB (s : State) (lv : Nat) : Bool := !(tget TrapSet.zero (clutchAt s 0).traps lv).inTrap &&
  (if lv = 0 then (hostAt s 0).uvec else if lv = 1 then (hostAt s 0).svec else (hostAt s 0).fvec) != 0

def roomB (s : State) : Bool := decide (8 * ((laneAt (clutchAt s 0) 0).wbv.toNat + 14) + 112 ≤ 8 * stackLimit s (clutchAt s 0))

/-- HostTrapEntry: user to user, to supervisor, and past a level whose vector is 0; no room; no vector. -/
theorem witness_host_entry :
    (openB (hosted 0 8 8 8 0x400) 0 && roomB (hosted 0 8 8 8 0x400)) = true ∧ (!openB (hosted 0 0 8 8 0x400) 0 && openB (hosted 0 0 8 8 0x400) 1) = true ∧
    (!openB (hosted 1 8 0 8 0x400) 1 && openB (hosted 1 8 0 8 0x400) 2 && roomB (hosted 1 8 0 8 0x400)) = true ∧
    roomB (hosted 0 8 8 8 0x360) = false ∧ (List.range 3).all (fun lv => !openB (hosted 0 0 0 0 0x400) lv) = true := by decide +kernel

def pendingInt : State := modHost host 0 (fun h => { h with ipi := true, intEn := 1 })

/-- HostAndInvalidationWords. -/
theorem witness_host_words :
    meets pendingInt (.wfi hd) (fun u _ c => decide (BitVec.ofNat 4 (intPend u (colOf c.core)) &&& (hostAt u (colOf c.core)).intEn ≠ 0)) = true ∧
    meets host (.wfi hd) (fun u _ c => decide (BitVec.ofNat 4 (intPend u (colOf c.core)) &&& (hostAt u (colOf c.core)).intEn = 0)) = true ∧
    meets host (.halt hd) (fun u x _ => (completeAll u x.cid).isSome) = true ∧ readyB host (.ipi hd (.s 5)) = true ∧
    ([.tlbinvVa hd 3 (.s 20), .tlbinvCtx hd 3, .tlbinvAll hd, .icinvLine hd (.s 20), .icinvAll hd] : List Instr).all (fun i =>
      meets host i (fun u x _ => (releaseAll u x.cid .pkg).isSome)) = true := by decide +kernel

/-- WordChecksInTheirOrder: a word for the other kind of core, too low a level, a poisoned row, a pending destination. -/
def ctx0 (ex : Mask) : Ctx := { cid := 64, ia := 0, at_ := 0xF, ex := ex }

def factsB (i : Instr) (f : WordInfo → Bool) : Bool := match infoOf i with | some w => f w | none => false

theorem witness_word_checks :
    factsB (.vfsend hd (.v 0)) (fun w => w.simt && isHost (clutchAt host 0)) = true ∧ factsB (.halt hd) (fun w => w.host && !isHost (clutchAt simt 64)) = true ∧
    factsB (.halt hd) (fun w => decide ((clutchAt (hosted 1 0 0 0 0) 0).level.val < w.priv)) = true ∧
    factsB (.neg hd .i32 (.v 20) (.v 21)) (fun w =>
      let s := withC (fun c => { c with lanes := [(0, { startLane 0 0 with bad := [(5, true)] })] })
      (badRows s (clutchAt s 64) w (.neg hd .i32 (.v 20) (.v 21)) 0xF 1).isSome) = true ∧
    factsB (.ret hd) (fun w =>
      let s := withC (fun c => { c with lanes := [(0, { startLane 0 0 with wbv := 1, bad := [(6, true)] }), (1, { startLane 1 0 with wbv := 1 })] })
      badRows s (clutchAt s 64) w (.ret hd) 0xF 3 == some 1) = true ∧
    factsB (.neg hd .i32 (.v 2) (.v 3)) (fun w =>
      let s := withC (fun c => { c with fpmode := 0x80000000, hazard := [.g 0 3] })
      (hazardOf s (clutchAt s 64) w (.neg hd .i32 (.v 2) (.v 3)) 1).isSome) = true ∧
    factsB (.mplane hd (.s 20) (.v 1) (.s 9)) (fun _ =>
      let s := withC (fun c => { c with s := [(20, 0), (21, 0x01000000)] })
      oddPair s (clutchAt s 64) 1 (.mplane hd (.s 20) (.v 1) (.s 9)) && !oddPair s (clutchAt s 64) 1 (.mplane hd (.s 20) (.v 2) (.s 9))) = true ∧
    factsB (.ret hd) (fun w =>
      let s := withC (fun c => { c with fpmode := 0x80000000, hazard := [.st 0 6], lanes := [(0, { startLane 0 0 with wbv := 1 })] })
      (hazardOf s (clutchAt s 64) w (.ret hd) 1).isNone && linkHazard (clutchAt s 64) w 1) = true ∧
    factsB (.sysw hd 7 (.s 5)) (fun w => privFails (clutchAt (withC (fun c => { c with level := 2 })) 64) (.sysw hd 7 (.s 5)) w) = true ∧
    factsB (.nop hd) (fun w => !w.simt && !w.host && (badRows simt (clutchAt simt 64) w (.nop hd) 0xF 0).isNone) = true ∧ (ctx0 0).ex = 0 := by decide +kernel

/-- The second part: inside a region, a word it forbids, and its 4,096th word. -/
theorem witness_region_checks :
    regionB inRegion (fun g => decide (g.words < 4096)) = true ∧ factsB (.cpy hd 0 (.a 0)) (fun w => w.forbid && w.priv == 0 && (badRows inRegion (clutchAt inRegion 64) w (.cpy hd 0 (.a 0)) 0xF 0xF).isNone) = true ∧
    regionB (modClutch inRegion 64 (fun c => { c with region := c.region.map (fun g => { g with words := 4096 }) })) (fun g => decide (4096 ≤ g.words)) = true := by decide +kernel

/-- `tret` outside a handler is ILLEGAL, with the handler's entry as its effect (12 R457, R459). -/
theorem test_tret_illegal : next simt (.tret hd) (fun t => (laneAt (clutchAt t 64) 2).pc == 0x20 && (tget TrapSet.zero (clutchAt t 64).traps 0).cause == 1) = true := by decide +kernel
/-- `scall` names the next word (12 R451). -/
theorem test_scall_next : next simt (.scall hd 7) (fun t => (tget TrapSet.zero (clutchAt t 64).traps 0).pc == 8 && (tget TrapSet.zero (clutchAt t 64).traps 0).addr == 7 &&
    (laneAt (clutchAt t 64) 0).wbv == 14) = true := by decide +kernel
/-- At reset `STATUS` reads firmware level (12 R450). -/
theorem test_reset_status : statusVal (clutchAt State.reset 5) = 2 := by decide +kernel

/-! ### Steps of other agents: issue, results, waits -/

/-- IssueCycleGivesTheTurn: a host core, a quadrant whose clutch has waited less than three cycles, and one overdue. -/
def cycling (n : Nat) : State := withC (fun c => { c with waitCount := n })

def quadB (s : State) (f : List (Nat × Clutch) → Bool) : Bool :=
  f ((clutchesOn s 0).filter (fun p => decide (p.2.quad = 0) && ready s p.2))

theorem witness_issue_cycle :
    ready host (clutchAt host 0) = true ∧
    quadB (cycling 2) (fun l => l.map (·.1) == [64] && l.all (fun p => !p.2.yielded && decide (clutchAt (cycling 2) p.1 = p.2) && decide (p.2.waitCount < 3))) = true ∧
    quadB (cycling 3) (fun l => l.map (·.1) == [64] && l.all (fun p => decide (3 ≤ p.2.waitCount))) = true := by decide +kernel

/-- PendingPartsAreWritten: the result of a `shfl`. -/
def shuffled : State := stateOr simt (exec (.shfl hd .idx .b32 (.v 6) (.v 0) (.imm 3)) simt)

theorem witness_pending :
    live shuffled = true ∧ shuffled.sync = [] ∧
    (match (clutchAt shuffled 64).inflight with
     | [p] => p.acq.isNone && p.accs.length == 4 && p.accs.all (fun a => (match a.src with | .val _ _ => true | _ => false) && a.hi != some a.lo)
     | _ => false) = true := by decide +kernel

/-- WaitsEndAndEntriesAreMade: clutches that wait. -/
def waiting (k : WaitKind) (i : Instr) : State := withC (fun c => { c with wait := some { kind := k, instr := i } })

theorem witness_waits :
    [(WaitKind.queue, Instr.qpush hd .i32 (.v 0) 3), (.queue, .qpop hd .i32 (.v 6) 3), (.ring, .ringAcq hd 2 0 (.s 6)), (.vfifo, .vfsend hd (.v 0)),
     (.vfifo, .vfrecv hd (.v 6)), (.tlwait, .tlwait hd 1 .zero), (.join, .join hd (.s 8) (.a 1)), (.waitaddr, .waitaddr hd .core .eq .n32 (.a 1) .zero),
     (.sbar, .sbarWait hd (.a 1)), (.bar, .barWait hd 2), (.launchLine, .launch hd .pkg (.s 24) (.a 0)), (.leap, .leap hd (.a 1))].all (fun p =>
      decide ((clutchAt (waiting p.1 p.2) 64).wait = some { kind := p.1, instr := p.2 })) = true := by decide +kernel

/-- Lanes 0 to 3 wait on k2, whose set lanes they are. -/
def kwaiting : State := withC (fun c => { c with
  lanes := (List.range 4).map (fun n => (n, { startLane n 0 with kwait := some 2 })), k := [(2, 0xF)] })

/-- A host core in supervisor level with an interrupt that it takes, and its timer due. -/
def interrupted : State := modClutch pendingInt 0 (fun c => { c with level := 1, ie := true })

/-- An engine error of context 1 is due at the stop where the clutch stands. -/
def erred : State :=
  modClutch (setEng (withT (fun k => { k with engTrap := 2 })) (.task 0) 1 { EngCtx.zero with issued := 1, code := 1, cmd := 1, deliv := true, failer := some 64 })
    64 (fun c => { c with atStop := some (0, 0xF) })

theorem witness_entries :
    (let c := clutchAt kwaiting 64
     c.region = none ∧ maskOf (fun n => decide ((laneAt c n).kwait = some 2)) = 0xF ∧ getK c 2 = 0xF) ∧
    (isHost (clutchAt simt 64) = false ∧ live simt = true ∧ busFailed simt (colOf simtClutch.core) = false ∧
      bankBusy simt (colOf simtClutch.core) = false ∧ bankErrLines simt (stackLine (colOf simtClutch.core)) (stackArea / 128) = []) ∧
    (let s := waiting .join (.join hd (.s 8) (.a 1))
     parkable (clutchAt s 64) = true ∧ (clutchAt s 64).windowOut = false ∧ clutchIn s (clutchAt s 64) = true ∧ parkRoom s (colOf (clutchAt s 64).core) = true ∧ busFailed s (colOf (clutchAt s 64).core) = false) ∧
    (asyncStop (clutchAt erred 64)).isSome = true ∧ (asyncDue erred 64).isSome = true ∧ (issueOf (clutchAt erred 64)).isSome = true ∧
    runs erred (clutchAt erred 64) = true ∧ (stopAll erred 64).isSome = true ∧
    intDue interrupted 0 = some 0 ∧ (stopAll interrupted 0).isSome = true ∧ (clutchAt interrupted 0).region = none ∧
    (hostAt (modHost host 0 (fun h => { h with timecmp := 0 })) 0).timecmp.toNat ≤ host.tsc.toNat := by decide +kernel

/-! ### Steps of other agents: engines -/

/-- A command of context 1 with the block `blk`. -/
def commanded (s : State) (k : CmdKind) (blk : Nat) : State := newCmd s 64 1 k true (BitVec.ofNat 1024 blk) 0

def cmdB (s : State) (f : Cmd → Bool) : Bool := match cmdAt s simt.pkg.serial with | some k => cmdRuns s k && f k | none => false

/-- A copy of 16 bytes from 0x800 to scratchpad offset 0x300 (12 R428), one of no bytes, and one with a reserved bit. -/
def copyOf (len : Nat) : State := commanded simt .copy (0x800 + 0xFFFF0000000300 * 2 ^ 64 + len * 2 ^ 128)

/-- A stream of two elements from 0x800 into queue 3 (12 R430). -/
def streaming : State := commanded (queued 0 0 2) .stream (0x800 + 4 * 2 ^ 64 + 2 * 2 ^ 128 + 3 * 2 ^ 160)

/-- Virtual page 1 lies in the local pool of a stack, PLACE 2; a reduction of two `.i32` elements there (12 R432). -/
def reducing : State := commanded { simt with mem := pokeBytes simt.mem 0x5008 (leBytes 8 (pteOf 0x9000000000 0xAF)) } .reduce
  (0x10100 + 2 ^ 64 + (2 + 3 * 16) * 2 ^ 96 + 0x10000 * 2 ^ 128 + 0x10010 * 2 ^ 192)

/-- The job of `carded` is issued. -/
def jobbed : State := stateOr carded (exec (.mjob hd 1 (.a 0) (.s 9)) carded)

/-- EngineStepsRun. -/
theorem witness_engine_steps :
    cmdB (copyOf 16) (fun k => (copyCheck (copyOf 16) k (copyBlk k.block)).isNone && decide (k.progress < (copyBlk k.block).len) &&
      (copyChunk (copyOf 16) simt.pkg.serial k (copyBlk k.block)).isSome) = true ∧
    cmdB (copyOf 0) (fun k => (copyCheck (copyOf 0) k (copyBlk k.block)).isNone && (copyEnd (copyOf 0) simt.pkg.serial k (copyBlk k.block)).isSome) = true ∧
    cmdB (copyOf (2 ^ 40)) (fun k => copyCheck (copyOf (2 ^ 40)) k (copyBlk k.block) == some (eFormat, 0) && (failCmd (copyOf (2 ^ 40)) simt.pkg.serial eFormat 0 0).isSome) = true ∧
    cmdB streaming (fun k => decide (k.ref = .task 0) && !streamBad k.block && decide (qCount (queueAt streaming 0 3) ≠ 2 ^ qDepth (queueAt streaming 0 3)) &&
      bits k.block.toNat (8 * 0x14 + 4) 1 == 0 && (match streamLoad streaming simt.pkg.serial k 0x800 4 4 with
        | .ok p => (match streamRead streaming simt.pkg.serial k p 4 with | .ok _ => true | .error _ => false)
        | .error _ => false)) = true ∧
    cmdB reducing (fun k => isNme k.kind && (match nmeTake reducing k with
      | some v => decide (nmeCheck v k = .ok) && (match nmeRun v k with | .done _ _ => true | _ => false)
      | none => false)) = true ∧
    (match runningJob jobbed 0 with
     | some (_, k, x) => decide (k.progress < (cardOf k.block).tiles) && (tileMetaBad jobbed x (cardOf k.block) k.progress).isNone
     | none => false) = true := by decide +kernel

/-- The job's tile is written; the stream's next element fits the scratchpad to its last byte. -/
theorem witness_engine_ends :
    (let s := stateOr jobbed (exec (.matrixTile 0) jobbed)
     match runningJob s 0 with
     | some (id, k, _) => decide ((cardOf k.block).tiles ≤ k.progress) && (completeCmd (setCmd s id { k with ended := true }) id).isSome
     | none => false) = true ∧
    (match taskAt simt 0 with
     | some x => x.spOff + 0x1F0000 - 0x10000 + qElem (qWord 0 7 2) 7 + qSize (qWord 0 7 2) ≤ 0x200000 && (leBytes 4 1).length == qSize (qWord 0 7 2)
     | none => false) = true := by decide +kernel

/-! ### Steps of other agents: installs -/

/-- An install of unit 0 of extent 0 from page 0; its zone has a unit to charge and a free block. -/
def installable : State := commanded { weighted with
  tlb := [{ tlb := 0, ctx := 0, va := weightVa, size := 0x200000, frame := weightBase, perm := 0x4F }]
  weights := { Weights.reset with zones := [(zoneOf 0, some { remain := 1, charged := 0, free := 1 })] } } .install
  (weightVa * 2 ^ 64 + 65536 * 2 ^ 128)

def install (done fails : Nat) (committed : Bool) : Install :=
  { cmd := simt.pkg.serial, ext := 0, units := [0], src := [(0x10000, 65536)], done := done, fails := fails, committed := committed, old := [] }
def installed (done fails : Nat) (committed : Bool) : State :=
  { installable with weights := { installable.weights with installs := [install done fails committed] } }

/-- A load of clutch 64 waits for line 0 of the weight aperture; it asked before a commit, or not. -/
def askOf (old : Option (BitVec 1024)) : WeightAsk := { who := 128, core := 0, line := weightBase / 128, ver := 0, old := old, got := none }
def weightWaiting (old : Option (BitVec 1024)) : State := { weighted with weights := { weighted.weights with asks := [askOf old] } }

/-- InstallStepsRun. -/
theorem witness_installs :
    (match installCmd installable simt.pkg.serial with
     | some k => (installAt installable simt.pkg.serial).isNone && bits k.block.toNat (8 * 0x18) 832 == 0 &&
        (match walksAt installable (dieOf (colOf k.core)) k.ctx (installPages k) with
         | some v => (match installCheck v simt.pkg.serial k with | .inr x => x.units == [0] | .inl _ => false)
         | none => false)
     | none => false) = true ∧
    (let s : State := { installable with weights := Weights.reset }
     match installCmd s simt.pkg.serial with
     | some k => (match walksAt s (dieOf (colOf k.core)) k.ctx (installPages k) with
        | some v => (match installCheck v simt.pkg.serial k with | .inl c => c == 1 && (failCmd v simt.pkg.serial 10 c (bits k.block.toNat 64 64)).isSome | .inr _ => false)
        | none => false)
     | none => false) = true ∧
    [(0, 0, false), (0, 2, false), (1, 0, false), (1, 0, true)].all (fun p => (installCmd (installed p.1 p.2.1 p.2.2) simt.pkg.serial).isSome &&
      (installAt (installed p.1 p.2.1 p.2.2) simt.pkg.serial).isSome) = true ∧
    (completeCmd (dropInstall (installed 1 0 true) simt.pkg.serial) simt.pkg.serial).isSome = true ∧
    (match installCmd installable simt.pkg.serial with | some k => !installHeld installable k | none => false) = true ∧
    (homeReads (installed 0 0 false) ((sourceLines (install 0 0 false) 0 65536).map (fun l => 128 * l))).isSome = true ∧
    oldReads (installed 1 0 true) 0 = false ∧ live (weightWaiting none) = true ∧
    waitingLines (weightWaiting (some 7)) 0 true = [askOf (some 7)] ∧
    waitingLines (weightWaiting none) 0 true = [] ∧ waitingLines (weightWaiting none) 0 false = [askOf none] ∧
    isWeight (weightWaiting none) (weightBase / 128) = true := by decide +kernel

/-! ### Steps of other agents: caches, tokens, translation: witnesses -/

/-- The line of virtual address 0x900, and its home die. -/
def line9 : Nat := 0x10900 / 128
def home9 : Nat := homeTower simt 0x10900

/-- Core 0 has stored to that line; a column write queue holds it; an atomic is queued at its home. -/
def dirtied : State := stateOr simt (exec (.st hd .i32 .relaxed (.v 0) (mem (.a 1))) simt)
def queuedWrite : State := modCol simt 0 (fun k => { k with cwq := [{ line := line9, data := 7, mask := 1, accepted := some 0, poison := false }] })
def queuedAtomic : State := stateOr simt (exec (.red hd .add .i32 .relaxed (.a 1) (.v 0)) simt)

def tokened (f : LineTok → LineTok) : State := setTok simt line9 (f (tokAt simt line9))
def queuedReturn : State := stateOr simt (exec (.atom hd .add .i32 .relaxed (.v 6) (.a 1) (.v 0)) simt)

def line0 : Nat := weightBase / 128
def weightRoom : State := { weighted with weights := { weighted.weights with room := [(weightUnit line0, 0)] } }

/-- CacheStepsRun: fills of both kinds, an eviction of a dirty line, a drain, an operation that returns a value and one that returns none. -/
theorem witness_caches :
    live simt = true ∧ cached simt line9 = true ∧ isWeight simt line9 = false ∧ (tget [] simt.l1 0).length < l1Cap ∧
    acceptedOf simt (dieOf (colOf 0)) line9 = [] ∧ paKind simt (128 * line9) = .hbm ∧
    (let s := tokened (fun t => { t with held := [(0, 4)] }); 1 ≤ tget 0 (tokAt s line9).held (dieOf (colOf 0))) ∧
    live weightRoom = true ∧ cached weightRoom line0 = true ∧ isWeight weightRoom line0 = true ∧ inRoom weightRoom line0 = true ∧
    (tget [] weightRoom.l1 0).length < l1Cap ∧
    (match l1At dirtied 0 line9 with | some l => l.dirty != 0 && decide ((colAt dirtied 0).cwq.length < 256) | none => false) = true ∧
    (match listGet (colAt queuedWrite 0).cwq 0 with
     | some e => decide (cwqTake e.line (colAt queuedWrite 0).cwq = some (e, [])) && cached queuedWrite e.line && !isWeight queuedWrite e.line &&
        (acceptedOf queuedWrite (dieOf 0) e.line).all (fun a => match e.accepted with | some k => decide (k ≤ a.1) | none => false) &&
        decide (holders queuedWrite e.line none = []) && !claimed queuedWrite e.line (dieOf 0) none && !noRoom queuedWrite e.line
     | none => false) = true ∧
    [queuedAtomic, queuedReturn].all (fun s => match s.sync.find? (fun q => decide (q.die = home9)) with
      | some o => memSize o.t == some 4 && o.pa % 4 == 0 && cached s (o.pa / 128) && !isWeight s (o.pa / 128) &&
          (acceptedOf s o.die (o.pa / 128)).isEmpty && paKind s o.pa == .hbm && decide (1 ≤ tget 0 (tokAt s (o.pa / 128)).held o.die) &&
          decide (holders s (o.pa / 128) none = []) && !claimed s (o.pa / 128) o.die none && !noRoom s (o.pa / 128)
      | none => false) = true ∧ queuedReturn.sync.any (·.ret) = true := by
  decide +kernel

/-- An atomic on a line of column 0's bank, for the bank's unit. -/
def bankOp : SyncOp := { die := 4, cid := 64, pend := 0, lane := 0, pa := bankBase + 0x80, op := .add, t := .i32, b := 1, cmp := 0, ret := false }
def queuedBank : State := { simt with sync := [bankOp] }

theorem witness_bank_unit :
    queuedBank.sync.find? (fun q => decide (q.die = 4)) = some bankOp ∧ dieOf 0 = 0 ∧ (∀ q ∈ queuedBank.sync, q.die = 4) ∧
    memSize bankOp.t = some 4 ∧ bankOp.pa % 4 = 0 ∧ paKind queuedBank bankOp.pa = .bank 0 0x80 ∧ unitIdle queuedBank 0 (bankOp.pa / 128) = true ∧
    busFailed queuedBank 0 = false ∧ sliceAt queuedBank 0 (bankOp.pa / 128) = none ∧ lineUe queuedBank 0 (bankOp.pa / 128) = false ∧
    holders queuedBank (bankOp.pa / 128) none = [] ∧ claimed queuedBank (bankOp.pa / 128) 0 none = false ∧ noRoom queuedBank (bankOp.pa / 128) = false := by
  decide +kernel

/-- The unit answers with the old value's successor in the bank (06 R224). -/
theorem test_bank_unit : next queuedBank (.syncEngineAtomic 0) (fun t => perfNat t bankOp.pa 4 == 1 && t.sync.isEmpty) = true := by decide +kernel

/-- Core 0's fill keeps its dirty bytes; it gives the line up with them, and its column's entry drains (06 R221, R222). -/
theorem test_fill_evict_drain :
    (match cacheFillOp dirtied 0 line9 with
     | some t => (match l1At t 0 line9 with
        | some l => l.valid == BitVec.allOnes 128 && l.dirty.getLsbD 0 && lineByte l.data 0 == 3 | none => false)
     | none => false) = true ∧
    next dirtied (.l1EvictTimeout 0 line9) (fun t => (l1At t 0 line9).isNone && (colAt t 0).cwq.length == 1) = true ∧
    next queuedWrite (.cwqDrain 0 0) (fun t => (colAt t 0).cwq.isEmpty && perfByte t 0x10900 == 7) = true := by decide +kernel

def otherDie : Fin 4 := if home9 = 0 then 1 else 0


/-- Two tokens under way from the home of the line to another die; on WB, they return. -/
def flying (wb : Bool) : State := { tokened (fun t => { t with held := [(home9, 2)] }) with
  msgs := [{ src := home9, dst := otherDie.val, wb := wb, line := line9, n := 2, owner := false }] }

/-- TokenStepsRun. -/
theorem witness_tokens :
    satisfied simt line9 otherDie.val true = false ∧ (tokAt simt line9).reqs = [] ∧ requestsOf simt otherDie.val < 256 ∧
    [false, true].all (fun wb => (flying wb).msgs.any (fun q => decide (q.wb = wb)) && (tokAt (flying wb) line9).active.isNone && live (flying wb) &&
      decide (tokTotal (flying wb) line9 = 4)) = true ∧
    [0, 1].all (fun n => let s : State := { tokened (fun t => { t with reqs := [{ die := otherDie.val, write := true, sent := 0, fails := n }] }) with tsc := 1000 }
      (tokAt s line9).reqs.any (fun q => decide (q.die = otherDie.val) && decide (q.sent + 1000 ≤ s.tsc.toNat) && q.fails == n) && !satisfied s line9 otherDie.val true) = true ∧
    (let s := tokened (fun t => { t with queue := [(5, otherDie.val)] })
     (tokAt s line9).active = none ∧ (tokAt s line9).queue = [(5, otherDie.val)]) ∧
    (let s := tokened (fun t => { t with active := some (home9 + 4) })
     (tokAt s line9).active = some (home9 + 4) ∧ satisfied s line9 ((home9 + 4) % 4) (decide (4 ≤ home9 + 4)) = true) ∧
    paKind simt (128 * (sysBase / 128)) = .sys ∧ sysPart (128 * (sysBase / 128)) = .host 0 := by decide +kernel

/-- A fault of task 0's gang waits for the pager, with a record's tag or without one; the ring lies at 0x10000. -/
def faulted (tag : Option (BitVec 16)) (en : BitVec 19) (page : Nat) : State := { simt with
  pager := [{ ctx := 0, page := page, access := 1, col := 0, tsc := 0, kind := 0, users := [.requeued 0], tag := tag, answer := none }]
  pkg := { simt.pkg with pgfCfg := en, pgfBase := 0x10000 } }

/-- Virtual addresses 0 to 0x1FFFFF are 32 small pages; the destination is at 0x400000. -/
def promotable : State := { simt with
  mem := (List.range 32).foldl (fun m k => pokeBytes m (0x5000 + 8 * k) (leBytes 8 (pteOf (0x200000 + 0x10000 * k) 0x2F))) simt.mem
  promo := [(0, { Promo.zero with dest := 0x400000 })] }

/-- TranslationStepsRun: a walk; records with and without the pager; answers; promotions. -/
theorem witness_translation :
    promoHolds simt 0 0 = false ∧ (ctxAt simt 0).bad = false ∧
    (match readsAt simt (dieOf (colOf 0)) (walkLines simt 0 0) with
     | some u => (match walk u 0 0 with | .ok _ _ _ => true | _ => false) | none => false) = true ∧ (match walk simt 0 0 with | .ok _ _ _ => true | _ => false) = true ∧
    (let s := faulted none 1 9
     s.pkg.pgfCfg.getLsbD 0 = true ∧ (s.pkg.pgfTail - s.pkg.pgfHead).toNat ≠ 4096 ∧
     (match s.pager with | q :: _ => q.tag.isNone && (performAt s (homeTower s 0x10000) 0x10000 (faultRecord q 0)).isSome | [] => false) = true) ∧
    (let s := faulted none 0 9
     s.pkg.pgfCfg.getLsbD 0 = false ∧ (match s.pager with | q :: _ => (answer s q true).isSome | [] => false) = true) ∧
    (let s := faulted (some 5) 1 9
     (match s.pager with | q :: _ => decide (q.tag = some 5) && (answer s q true).isSome && stillFaults s q | [] => false) = true) ∧
    (let s := faulted (some 5) 1 0
     (match s.pager with | q :: _ => (answer s q false).isSome && !stillFaults s q | [] => false) = true) ∧
    ((promoAt promotable 0).busy = false ∧ (promoAt promotable 0).asked = none ∧
     (BitVec.ofNat 64 (2 ^ 8) : Dword).getLsbD 8 = true) := by decide +kernel

/-- The table entries that a promotion reads are at die 0. -/
def readyPromo : State := { promotable with
  toks := [0, 32, 64, 96, 128, 160, 161].map (fun l => (l, some { tokAt simt l with held := [(0, 4)], owner := some 0 })) }

theorem walksFrom_ready (s : State) (die ctx : Nat) (vas : List Nat) (h : vas.all (walkReady s die ctx) = true) : walksFrom s die ctx vas = some s := by
  induction vas with
  | nil => rfl
  | cons va t ih =>
    simp only [List.all_cons, Bool.and_eq_true] at h
    rw [walksFrom, if_pos h.1, ih h.2]

theorem walksAt_ready (s : State) (die ctx : Nat) (vas : List Nat) (h : vas.all (walkReady s die ctx) = true) : walksAt s die ctx vas = some s := by
  unfold walksAt
  rw [walksFrom_ready s die ctx vas h, Option.bind_some, if_pos h]

theorem promo_entries : [0, 1].all (fun c => ((List.range 32).map (fun k => 0 * 0x200000 + 65536 * k)).all (walkReady readyPromo 0 c)) = true := by
  decide +kernel

theorem promo_refusals : promoRefused readyPromo 0 0 0 0x400000 = false ∧ promoRefused readyPromo 0 1 0 0x400000 = true := by decide +kernel

/-- The checks of a promotion of virtual range 0 of context c find its entries, and refuse it (c = 1, without tables) or not (c = 0). -/
theorem witness_promotion_checks (c : Nat) (hc : c = 0 ∨ c = 1) :
    walksAt readyPromo 0 c ((List.range 32).map (fun k => 0 * 0x200000 + 65536 * k)) = some readyPromo ∧
    promoRefused readyPromo 0 c 0 0x400000 = decide (c = 1) := by
  have h := List.all_eq_true.mp promo_entries c (by rcases hc with rfl | rfl <;> simp)
  refine ⟨walksAt_ready _ _ _ _ h, ?_⟩
  rcases hc with rfl | rfl
  · exact promo_refusals.1
  · exact promo_refusals.2

/-- A walk, and an answer, that must wait: the tokens of a line that each reads are on their way (06 R228). -/
def awayTok (s : State) (line : Nat) : State := setTok s line { tokAt s line with held := [], owner := none }

theorem witness_translation_waits :
    (walkLines simt 0 0).any (fun l => (walksAt (awayTok simt l) 0 0 [0]).isNone) = true ∧
    ((walkLines promotable 0 0).take 1).any (fun l => (walksAt (awayTok promotable l) 0 0 ((List.range 32).map (fun k => 0 * 0x200000 + 65536 * k))).isNone) = true ∧
    (let s := awayTok { stateOr simt (exec (.ld hd .i32 .relaxed (.v 6) (mem (.a 1))) simt) with
       gangs := (gangAt simt 0).toList.map (fun g => (0, some { g with state := .requeued })) } line9
     let q : PagerFault := { ctx := 0, page := 9, access := 1, col := 0, tsc := 0, kind := 0, users := [.requeued 0], tag := some 5, answer := none }
     (answer s q true).isNone) = true := by decide +kernel

/-- A promotion that runs. -/
def promoting : State := { promotable with
  clutches := [], promo := [(0, { Promo.zero with dest := 0x400000, busy := true, runDst := 0x400000, runPte := 0x4000 })] }

/-- No region is open, no write is queued, and every line's owner has a token: the lines of HBM can be read and written at a die. -/
def goodTok (x : LineTok) : Prop := x.active = none ∧ x.watch = false ∧ ∃ d, x.owner = some d ∧ 1 ≤ tget 0 x.held d
def quiet (s : State) : Prop :=
  s.clutches = [] ∧ s.cols = promoting.cols ∧
    ∀ line, goodTok (tokAt s line)

theorem tokAt_toks {s t : State} (line : Nat) (e : t.toks = s.toks) (h : goodTok (tokAt s line)) : goodTok (tokAt t line) := by
  unfold tokAt at h ⊢
  rw [e]
  cases hv : tget none s.toks line with
  | none => exact ⟨rfl, rfl, homeTower t (128 * line), rfl, by simp [tget]⟩
  | some y => simpa [hv] using h

theorem quiet_of {s t : State} (h : quiet s) (e : t.toks = s.toks) (hc : t.clutches = s.clutches) (hk : t.cols = s.cols) : quiet t :=
  ⟨hc.trans h.1, hk.trans h.2.1, fun line => tokAt_toks line e (h.2.2 line)⟩

theorem quiet_set {s : State} (h : quiet s) (l : Nat) (x : LineTok) (hx : goodTok x) : quiet (setTok s l x) := by
  refine ⟨h.1, h.2.1, fun line => ?_⟩
  by_cases hl : line = l
  · have : tokAt (setTok s l x) line = x := by unfold tokAt setTok; simp [hl]
    rw [this]; exact hx
  · have e : tget none (setTok s l x).toks line = tget none s.toks line := by
      unfold setTok; exact tget_tput_of_ne (none : Option LineTok) s.toks (some x) hl
    have := h.2.2 line
    unfold tokAt at this ⊢
    rw [e]
    cases hv : tget none s.toks line with
    | none => exact ⟨rfl, rfl, homeTower (setTok s l x) (128 * line), rfl, by simp [tget]⟩
    | some y => simpa [hv] using this

theorem quiet_recall {s : State} (h : quiet s) (line : Nat) : quiet (recallHost s line) := by
  unfold recallHost; split
  · exact quiet_of h rfl rfl rfl
  · exact h

theorem no_holders {s : State} (h : quiet s) (line : Nat) : holders s line none = [] := by simp [holders, h.1, tsome]
theorem paKind_low (s : State) (l : Nat) (h : l < 0x100000) : paKind s (128 * l) = .hbm := by
  unfold paKind hbmTop
  rw [if_pos (by omega)]

theorem not_claimed {s : State} (h : quiet s) (line die : Nat) : claimed s line die none = false := by simp [claimed, (h.2.2 line).1]

theorem unwatch_quiet {s : State} (h : quiet s) (line : Nat) : unwatch s line = s := by simp [unwatch, (h.2.2 line).2.1]

theorem watchEnd_quiet {s : State} (h : quiet s) (line src : Nat) : watchEnd s line src = s := by simp [watchEnd, unwatch_quiet h]

theorem gatherAll_quiet (s : State) (die line : Nat) (h : quiet s) (hl : line < 0x100000) : ∃ t, gatherAll s die line none = some t ∧ quiet t := by
  unfold gatherAll
  rw [if_pos (by simp [no_holders h, not_claimed h, noRoom, paKind_low s line hl])]
  have q := quiet_recall h line
  dsimp only
  rw [unwatch_quiet q]
  exact ⟨_, rfl, quiet_of (quiet_set q line { tokAt (recallHost s line) line with held := [(die, 4)], owner := some die }
    ⟨(q.2.2 line).1, (q.2.2 line).2.1, die, rfl, by rw [show tget 0 [(die, 4)] die = 4 by simp [tget]]; omega⟩) rfl rfl rfl⟩

theorem gatherOne_quiet (s : State) (die line : Nat) (h : quiet s) : ∃ t, gatherOne s die line = some t ∧ quiet t := by
  have q := quiet_recall h line
  unfold gatherOne
  split
  · exact ⟨_, rfl, q⟩
  · unfold fetchTok
    obtain ⟨ha, hw, d, hd, h1⟩ := q.2.2 line
    simp only [not_claimed h, Bool.false_eq_true, if_false, hd, spare, no_holders q, List.filter_nil, List.length_nil, Nat.sub_zero,
      watched, hw, Bool.false_and]
    split
    · rename_i h2
      have e : quiet (setTok (recallHost s line) line { tokAt (recallHost s line) line with
          held := tput 0 (tput 0 (tokAt (recallHost s line) line).held d (tget 0 (tokAt (recallHost s line) line).held d - 1)) die
            (tget 0 (tput 0 (tokAt (recallHost s line) line).held d (tget 0 (tokAt (recallHost s line) line).held d - 1)) die + 1)
          owner := (tokAt (recallHost s line) line).owner }) :=
        quiet_set q line _ ⟨ha, hw, d, hd, by simp only [tget_tput]; split <;> split <;> omega⟩
      refine ⟨_, rfl, ?_⟩
      simp only [moveTok, Bool.false_eq_true, if_false]
      rw [watchEnd_quiet e]
      exact e
    · rw [if_pos (by omega)]
      have e : quiet (setTok (recallHost s line) line { tokAt (recallHost s line) line with
          held := tput 0 (tput 0 (tokAt (recallHost s line) line).held d (tget 0 (tokAt (recallHost s line) line).held d - 1)) die
            (tget 0 (tput 0 (tokAt (recallHost s line) line).held d (tget 0 (tokAt (recallHost s line) line).held d - 1)) die + 1)
          owner := some die }) :=
        quiet_set q line _ ⟨ha, hw, die, rfl, by simp only [tget_tput, if_true]; omega⟩
      refine ⟨_, rfl, ?_⟩
      simp only [moveTok, if_true]
      rw [watchEnd_quiet e]
      exact e

theorem accepted_quiet (s : State) (die l : Nat) (h : quiet s) (hd : die < 4) : acceptedOf s die l = [] := by
  have : ∀ c ∈ dieCols die, (colAt s c).cwq = [] := fun c hc => by
    have : (List.range 64).all (fun c => (colAt promoting c).cwq.isEmpty) = true := by decide +kernel
    have hc : c < 64 := by simp only [dieCols, List.mem_map, List.mem_range] at hc; omega
    have := List.all_eq_true.mp this c (by simpa using hc)
    unfold colAt; rw [h.2.1]; simpa [colAt] using this
  unfold acceptedOf
  rw [List.flatMap_eq_nil_iff.mpr (fun c hc => by simp [this c hc])]
  rfl

theorem readAt_quiet (s : State) (die l : Nat) (h : quiet s) (hd : die < 4) (hl : l < 0x100000) : ∃ t, readAt s die l = some t ∧ quiet t := by
  obtain ⟨t, ht, qt⟩ := gatherOne_quiet s die l h
  refine ⟨t, ?_, qt⟩
  have e1 : drainAccepted s die l = some s := by unfold drainAccepted; rw [accepted_quiet s die l h hd]; rfl
  have e2 : bankHeld s l = false := by unfold bankHeld; rw [paKind_low s l hl]
  have e3 : bankFetch t l = t := by unfold bankFetch; rw [paKind_low t l hl]
  unfold readAt
  rw [e1]
  simp only [e2, Bool.false_eq_true, if_false, ht, Option.map_some, e3]

theorem copyLine_quiet (s : State) (a b : Nat) (h : quiet s) (hb : b < 0x100000) : quiet (copyLine s a b) := by
  have e : ∀ (u : State) (d : BitVec 1024) (m : BitVec 128) (p : Bool), quiet u → quiet (performLine u b d m p) := by
    intro u d m p hu
    unfold performLine
    dsimp only
    rw [paKind_low _ b hb]
    exact quiet_of hu rfl rfl rfl
  have f : ∀ (u : State) (x : Tab Bool), quiet u → quiet { u with poison := x } := fun u x hu => quiet_of hu rfl rfl rfl
  unfold copyLine
  exact f _ _ (e _ _ _ _ (f _ _ h))

theorem copyLines_quiet (die : Nat) (hd : die < 4) (l : List (Nat × Nat)) : ∀ s : State, quiet s → (∀ p ∈ l, p.1 < 0x100000 ∧ p.2 < 0x100000) →
    ∃ t, copyLines die s l = some t ∧ quiet t := by
  induction l with
  | nil => exact fun s h _ => ⟨s, rfl, h⟩
  | cons p l ih =>
    intro s h hp
    obtain ⟨t, ht, qt⟩ := readAt_quiet s die p.1 h hd (hp p (by simp)).1
    obtain ⟨u, hu, qu⟩ := gatherAll_quiet t die p.2 qt (hp p (by simp)).2
    obtain ⟨r, hr, qr⟩ := ih (copyLine u p.1 p.2) (copyLine_quiet u p.1 p.2 qu (hp p (by simp)).2) (fun q hq => hp q (by simp [hq]))
    exact ⟨r, by simp [copyLines, copyTo, ht, hu, hr], qr⟩

theorem foldl_stays {β : Type} (f : State → β → Option State) (s : State) (l : List β) (h : ∀ b ∈ l, f s b = some s) :
    l.foldl (fun (a : Option State) b => a.bind (fun t => f t b)) (some s) = some s := by
  induction l with
  | nil => rfl
  | cons b l ih => rw [List.foldl_cons, Option.bind_some, h b (by simp)]; exact ih (fun b hb => h b (by simp [hb]))

theorem no_lines_dirty : (List.range 320).all (fun i => (l1Lines promoting i).isEmpty) = true := by decide +kernel
theorem no_writes_queued : (List.range 64).all (fun c => (colAt promoting c).cwq.isEmpty) = true := by decide +kernel

theorem witness_promotion_ends :
    (promoAt promoting 0).busy = true ∧ (promoAt promoting 0).asked = none ∧ (promoAt promoting 0).killed = false ∧
    ∃ ps, promoPages promoting 0 0 = some ps ∧ ∃ u t,
      (flushLines promoting (frameLines (ps.map (·.1)))).bind
        (fun s => copyLines 0 s ((frameLines (ps.map (·.1))).zip (frameLines ((List.range 32).map (fun k => 0x400000 + 65536 * k))))) = some u ∧
      performAt u 0 0x4000 (leBytes 8 (0x400000 / 256 * 4096 + (ps.headD (0, 0)).2 * 4 + 3)) = some t := by
  refine ⟨by decide +kernel, by decide +kernel, by decide +kernel, ?_⟩
  obtain ⟨ps, hps⟩ : ∃ ps, promoPages promoting 0 0 = some ps := Option.isSome_iff_exists.mp (by decide +kernel)
  have hf : ∀ ls, flushLines promoting ls = some promoting := by
    intro ls
    unfold flushLines
    dsimp only
    rw [foldl_stays _ promoting (List.range 320), foldl_stays _ promoting (List.range 64)]
    · intro c hc
      have := List.all_eq_true.mp no_writes_queued c hc
      rw [List.isEmpty_iff.mp this]
      rfl
    · intro i hi
      have := List.all_eq_true.mp no_lines_dirty i hi
      rw [List.isEmpty_iff.mp this]
      rfl
  have hq : quiet promoting := by
    refine ⟨rfl, rfl, fun line => ?_⟩
    have : tget none promoting.toks line = none := rfl
    unfold tokAt
    rw [this]
    exact ⟨rfl, rfl, homeTower promoting (128 * line), rfl, by simp [tget]⟩
  have hlow : ∀ fs : List Nat, (∀ f ∈ fs, f < 0x4000000) → ∀ l ∈ frameLines fs, l < 0x100000 := by
    intro fs hf l hl
    simp only [frameLines, List.mem_flatMap, List.mem_map, List.mem_range] at hl
    obtain ⟨f, hm, i, hi, rfl⟩ := hl
    have := hf f hm
    omega
  have hsrc : ∀ f ∈ ps.map (·.1), f < 0x4000000 := by
    have : (match promoPages promoting 0 0 with | some l => (l.map (·.1)).all (fun f => decide (f < 0x4000000)) | none => false) = true := by decide +kernel
    rw [hps] at this
    simpa using this
  obtain ⟨u, hu, hc⟩ := copyLines_quiet 0 (by omega) ((frameLines (ps.map (·.1))).zip (frameLines ((List.range 32).map (fun k => 0x400000 + 65536 * k))))
    promoting hq (fun p hp => ⟨hlow _ hsrc _ (List.of_mem_zip hp).1, hlow _ (by
      intro f hf
      simp only [List.mem_map, List.mem_range] at hf
      obtain ⟨k, hk, rfl⟩ := hf
      omega) _ (List.of_mem_zip hp).2⟩)
  refine ⟨ps, hps, u, ?_⟩
  obtain ⟨t, ht, _⟩ := gatherAll_quiet u 0 (0x4000 / 128) hc (by decide)
  have hl : ∀ v, (leBytes 8 v).length = 8 := fun v => by simp [leBytes]
  refine ⟨performBytes t 0x4000 (leBytes 8 (0x400000 / 256 * 4096 + (ps.headD (0, 0)).2 * 4 + 3)), by rw [hf]; exact hu, ?_⟩
  unfold performAt
  simp only [ht, hl]
  rfl

/-! ### Launches and scheduling: witnesses -/

/-- A launch record (03 R111): priority 4, PREEMPTIBLE and MIGRATABLE, three levels; one task of one clutch of 32 lanes, with
64 KiB x `kib`/64 of scratchpad; `dom` is the first level's descriptor. -/
def recordOf (dom kib : Nat) : Nat :=
  0x346 * 2 ^ (8 * 0x28) + 16 * 2 ^ (8 * 0x2C) + (0x0009000000000000 + kib) * 2 ^ (8 * 0x30) + dom * 2 ^ (8 * 0x40) +
  0x1100000001 * 2 ^ (8 * 0x48) + 0x20 * 2 ^ (8 * 0x50)

/-- One task on a core; one task of a die's gang. -/
def coreLevel : Nat := 0x2200000001
def dieLevel : Nat := 0x3500000001

/-- The page tables of `placeMem`, and the non-zero bytes of `recordOf coreLevel 64` at physical 0x10400. -/
def tables : List Host.Cell :=
  [(0x1000, 1), (0x1002, 2), (0x2000, 1), (0x2002, 3), (0x3000, 1), (0x3002, 4), (0x4000, 1), (0x4002, 5), (0x5000, 0x3F), (0x5002, 0x10)]
def recordCells : List Host.Cell :=
  [(0x10428, 0x46), (0x10429, 0x03), (0x1042C, 0x10), (0x10430, 0x40), (0x10436, 0x09), (0x10440, 0x01), (0x10444, 0x22),
   (0x10448, 0x01), (0x1044C, 0x11), (0x10450, 0x20)]

/-- The machine with no task, a record at virtual address 0x400, and line 0 of column 0 enabled for context 0, of priority 7. -/
def idle : State := { base with
  clutches := [], tasks := [], gangs := []
  ctxs := tput CtxEnt.zero base.ctxs 0 { ctxAt base 0 with prio := 7 }
  mem := tables ++ recordCells
  lines := [(0, { Line.zero with cfg := 7 })] }

def token : Tok := { bits := 0x400, ctx := 0, host := true, join := 0, parent := none, serial := 1, orphan := false, cancelled := false }

def queuedTok (t : Tok) : State := setLine idle 0 { lineAt idle 0 with queue := [t] }

def launchOf (r : Nat) (st : LaunchState) (deps : List (BitVec 128)) : Launch :=
  { tok := token, block := 0, line := 0, record := BitVec.ofNat 2048 r, state := st, deps := deps, met := [], n := 1, left := 1 }

/-- Launch 10 waits for a dependence. -/
def depsOn (deps : List (BitVec 128)) : State := setLaunch idle 10 (launchOf (recordOf coreLevel 64) .waiting deps)

/-- Dependences on the counters at virtual addresses 0x600 and 0x640: at least 0 and at least 1; a JOINOK whose record failed. -/
def counterAt (v : Nat) : BitVec 128 := BitVec.ofNat 128 (0x601 + v * 2 ^ 64)

/-- The spare kill of context 0. -/
def killAsked : State := { idle with pkg := { idle.pkg with ctxBusy := true, ctxCmd := 0x200 } }

/-- LaunchStepsRun: tokens, record checks, dependences, refreshes and kills. -/
theorem witness_tokens_enter :
    (lineEn (lineAt idle 0) && lineHost (lineAt idle 0) && live idle && (enqueueTok { idle with reply := .ok [] } 0 0x400 true none).isSome &&
      decide ((lineAt idle 0).queue.length < 8) && !lineHost (lineAt idle 8)) = true := by decide +kernel

/-- The agent has read the record of a token. -/
def tookRecord (k : Tok) : State := (recordTake (queuedTok k) 0 k).getD (queuedTok k)

theorem record_accepted : checkRecord (tookRecord token) 0 token = .inr (recordOf coreLevel 64, []) := by
  unfold checkRecord
  rw [show ctxOk (tookRecord token) token.ctx = true by decide +kernel,
    show readRecord (tookRecord token) 0 token = some (recordOf coreLevel 64) by decide +kernel]
  have h1 : readDeps (tookRecord token) 0 token.ctx (recordOf coreLevel 64) = some [] := by decide +kernel
  have h2 : joinOk (tookRecord token) token (recordOf coreLevel 64) = true := by decide +kernel
  have h3 : formatBad token.bits (recordOf coreLevel 64) [] = false := by decide +kernel
  have h4 : hierBad 0 (recordOf coreLevel 64) = false := by decide +kernel
  have h5 : timelineOk (tookRecord token) token.ctx (recordOf coreLevel 64) = true := by decide +kernel
  have h6 : extentBad (recordOf coreLevel 64) = false := by decide +kernel
  have h7 : sizeBad (recordOf coreLevel 64) = false := by decide +kernel
  have h8 : (lineCols 0).any (ctxCol (tookRecord token) token.ctx) = true := by decide +kernel
  simp [h1, h2, h3, h4, h5, h6, h7, h8]

theorem witness_record_accepted :
    heldBy (queuedTok token) 0 < heldLimit 0 ∧
    (recordTake (queuedTok token) 0 token).isSome = true ∧
    (acceptTok (popToken (tookRecord token) 0) 0 token (recordOf coreLevel 64) []).isSome = true := by decide +kernel

theorem witness_record_rejected :
    (let k := { token with bits := 0x401 }
     (recordTake (queuedTok k) 0 k).isSome && (match checkRecord (tookRecord k) 0 k with
       | .inl r => (rejectTok (popToken (tookRecord k) 0) 0 k r).isSome | _ => false)) = true := by
  decide +kernel

/-- The agent has read the words of launch 10's dependences. -/
def tookDeps (s : State) : State := match launchAt s 10 with
  | some x => (depTakes s (launchKeyOf x) x.tok.ctx x.deps).getD s
  | none => s

theorem witness_dependences :
    [[counterAt 0], [counterAt 1]].all (fun d => (depTakes (depsOn d) (launchKeyOf (launchOf 0 .waiting d)) 0 d).isSome) = true ∧
    (let s := tookDeps (depsOn [counterAt 0])
     match launchAt s 10 with
     | some x => (match evalDeps s x with | some m => decide (m.length = x.deps.length) && !orderedHeld s { x with met := m } | none => false)
     | none => false) = true ∧
    (let s := tookDeps (depsOn [counterAt 1])
     match launchAt s 10 with | some x => (match evalDeps s x with | some m => decide (m.length ≠ x.deps.length) | none => false) | none => false) = true ∧
    (let s := tookDeps { depsOn [0x603] with mem := pokeBytes idle.mem 0x10604 [1] }
     match launchAt s 10 with | some x => (evalDeps s x).isNone && (endTasks s 10 x (List.range x.n) 0x41 0).isSome | none => false) = true := by
  decide +kernel

theorem witness_contexts :
    (let s : State := { idle with pkg := { idle.pkg with ctxBusy := true, ctxCmd := 0x105 } }
     s.pkg.ctxBusy = true ∧ bits s.pkg.ctxCmd.toNat 8 2 = 1 ∧ bits s.pkg.ctxCmd.toNat 0 8 = 5) ∧
    killing killAsked 0 = true ∧
    bits killAsked.pkg.ctxCmd.toNat 0 8 = 0 ∧ killAsked.lines.all (fun p => p.2.queue.isEmpty) = true ∧
    (tsome killAsked.tasks).isEmpty = true ∧ (tsome killAsked.launches).isEmpty = true := by decide +kernel

theorem witness_kill : (killWhere killAsked (fun n => decide (n = 0))).isSome = true := by decide +kernel

/-- The head token of a line, a launch and a gang of the context that is being killed; a token that has been cancelled. -/
theorem witness_kill_stops_dispatch :
    (let s := setLine killAsked 0 { lineAt killAsked 0 with queue := [token] }
     live s && killing s token.ctx && (endToken (popToken s 0) token 0x45 0).isSome) = true ∧
    (endToken (popToken (queuedTok { token with cancelled := true }) 0) { token with cancelled := true } 0x45 0).isSome = true ∧
    killing { depsOn [] with pkg := killAsked.pkg } token.ctx = true ∧
    (let s : State := { idle with pkg := { idle.pkg with ctxBusy := true, ctxCmd := 0x105 } }
     (readAt s 0 (s.pkg.ctxTable.toNat + 32 * 5)).isSome = true) := by decide +kernel

/-! ### Scheduling: witnesses -/

def gangIn (st : GangState) : Gang := { placeGang with launch := 10, state := st, tasks := [], cores := [] }

/-- Launch 10 of line 0 of column 0, with gang 11. -/
def sched (r : Nat) (g : Gang) : State := setGang (setLaunch idle 10 (launchOf r .ready [])) 11 g

/-- An extent of one page at virtual page 1. -/
def oneExtent : Nat := (1 + 2 ^ 40 + 3 * 2 ^ 60) * 2 ^ (8 * 0x80)

/-- Virtual page 1 is mapped without W. -/
def readOnly : List Host.Cell := pokeBytes idle.mem 0x5008 (leBytes 8 (pteOf 0x20000 0x27))

def wantIs (s : State) (f : Want → Bool) : Bool := match wantOf s 11 with | some w => f w | none => false

/-- Task 20 of gang 11 is out, on core 0. -/
def taskOf (st : TaskState) : Task := { placeTask with gang := 11, launch := 10, state := st, clutches := [] }
def withTask (g : Gang) (st : TaskState) : State := setTask (sched (recordOf coreLevel 64) { g with tasks := [20], cores := [0] }) 20 (taskOf st)

/-- Column 0 has been hot for long enough, and column 1 is cooler. -/
def hotColumn : State :=
  let s := withTask (gangIn .resident) .resident
  let s := setLaunch s 10 { launchOf (recordOf coreLevel 64) .dispatched [] with block := 68 }
  { modCol s 0 (fun c => { c with tj := 100, therm := 2, migrSince := some 0 }) with tsc := 500000 }

/-- A gang of higher priority that finds every core of column 0 gated or full; gang 12 with task 20 may give way. -/
def crowded : State :=
  let s := sched (recordOf coreLevel 2000) (gangIn .ready)
  let s := setLaunch s 13 { launchOf (recordOf coreLevel 64) .dispatched [] with tok := token }
  let s := setGang s 12 { gangIn .resident with launch := 13, tasks := [20], cores := [0] }
  let s := setTask s 20 { taskOf .resident with gang := 12, launch := 13 }
  modCol s 0 (fun c => { c with corePg := 0xE, gated := 0xE })

/-- A gang of 64 tasks, a die's cores; in each die one core is gated. -/
def dieRecord : Nat := recordOf dieLevel 64 + 0x100 * 2 ^ (8 * 0x28) + (0x2200000040 - 0x1100000001) * 2 ^ (8 * 0x48) +
  (0x1100000001 - 0x20) * 2 ^ (8 * 0x50) + 0x20 * 2 ^ (8 * 0x58)
def dieWaits : State :=
  let s := setGang (setLaunch idle 10 { launchOf dieRecord .ready [] with block := 68, n := 64, left := 64 }) 11 { gangIn .ready with count := 64 }
  [0, 16, 32, 48].foldl (fun s c => modCol s c (fun k => { k with corePg := 1, gated := 1 })) s

/-- SchedulingStepsRun, clause by clause. -/
theorem witness_pretranslation :
    (let s := sched (recordOf coreLevel 64) (gangIn .translating)
     wantIs s (fun w => w.g.state == .translating && !killing s w.ctx && (walksAt s (agentDie w.key) w.ctx (preVas s w)).isSome &&
       (cachedTable s w).isNone && (match preAll s w.ctx ((List.range 16).zip (recExtents w.r)) with | .ok fs => (preDone (keepTable s w fs) 11 w.g fs).isSome | _ => false))) = true ∧
    (let s := { sched (recordOf coreLevel 64 + oneExtent) (gangIn .translating) with mem := readOnly }
     wantIs s (fun w => w.g.state == .translating && (match walksAt s (agentDie w.key) w.ctx (preVas s w) with
       | some s => (cachedTable s w).isNone && (match preAll s w.ctx ((List.range 16).zip (recExtents w.r)) with | .error .denied => true | _ => false)
       | none => false))) = true := by decide +kernel

/-- A column launcher's kept table is taken in place of a walk (03 R122). -/
theorem witness_kept_table :
    (let s := { sched (recordOf coreLevel 64 + oneExtent) (gangIn .translating) with mem := readOnly }
     let fs := [(0, (((List.range 16).zip (recExtents (recordOf coreLevel 64 + oneExtent))).headD (0, 0)).2, [5])]
     wantIs s (fun w => decide (w.key / 8 < 64) && isTranslated (fs.headD (0, 0, [])).2.1 &&
       decide (cachedTable (keepTable s w fs) w = some fs) && (preDone (keepTable s w fs) 11 w.g fs).isSome)) = true := by decide +kernel

theorem witness_reservation :
    (let s := dieWaits
     wantIs s (fun w => w.g.state == .ready && decide (5 ≤ gangDom w.r) && (tsome s.gangs).all (fun p => !earlierReady s w p) &&
       (fitFirst s w (mayTake s w) (instances s w false)).isNone && !(instances s w false).isEmpty && w.g.target.isNone)) = true := by
  decide +kernel

/-- Gang 12 of the same agent, of higher priority, is READY too. -/
def overtaken : State :=
  setGang (setLaunch dieWaits 14 { launchOf (dieRecord + 0x10 * 2 ^ (8 * 0x28)) .ready [] with block := 68, n := 64, left := 64 }) 12
    { gangIn .ready with launch := 14, count := 64 }

/-- An overtaken gang gives its reservations up (04 R127). -/
theorem witness_overtaken :
    wantIs overtaken (fun w => w.g.state == .ready && decide (5 ≤ gangDom w.r) && (tsome overtaken.gangs).any (fun p => earlierReady overtaken w p) &&
      (fitFirst overtaken w (mayTake overtaken w) (instances overtaken w false)).isNone) = true := by decide +kernel

theorem witness_dispatch :
    (let s := sched (recordOf coreLevel 64) (gangIn .ready)
     wantIs s (fun w => (launchAt s w.g.launch).isSome && w.g.state == .ready &&
       (let s1 := forwardDie (freeStacks s w.g.stack) w
        let w1 := (wantOf s1 11).getD w
        (fitFirst s1 w1 (mayTake s1 w1) (instances s1 w1 false)).isSome))) = true := by
  decide +kernel

theorem witness_preemption :
    (let s := crowded
     wantIs s (fun w => w.g.state == .ready && (fitFirst s w (fun _ => true) (instances s w false)).isNone &&
       (match bestChoice (choices s w) with | some (_, _, vs) => (preemptGangs s vs).isSome | none => false))) = true := by decide +kernel

theorem witness_resumption :
    (let s := withTask (gangIn .preempted) .preempted
     wantIs s (fun w => w.g.state == .preempted && atHome s w && (match backSeats s 11 w.r (backTasks s w.g) [] with
       | some seats => seats.all (fun q => !higherReady s w q.2.1 (leftCore s q.1 q.2.1)) | none => false))) = true := by decide +kernel

/-- A copy of task 20 in the column-bank window. -/
def bankCopy : Cmd :=
  { ref := .task 20, e := 1, n := 1, issuer := 64, kind := .copy, ctx := 0, user := false, core := 0,
    block := BitVec.ofNat 1024 colBankBase, blockVa := 0, progress := 0, ended := false, orphan := false, stopped := false, dests := [] }

/-- Gang 11 has stopped, and a seat on core 4 of column 1 is reserved for its task; pre-emption has chosen it, or not. -/
def migrating (doomed : Bool) : State := match gangAt hotColumn 11 with
  | some g => setGang hotColumn 11 { g with state := .migrating, seats := [(4, 0, 0)], doomed := doomed }
  | none => hotColumn

/-- A hot column whose gang's copy still runs; one whose gang has no target; the move itself, to the end or to a pre-emption (04 R147 to
R151). -/
theorem witness_migration :
    asksMigration hotColumn 0 = true ∧ migrBusy hotColumn 0 = false ∧ migrBusy (migrating false) 0 = true ∧ nextMigr hotColumn 0 0 = [.migration 11] ∧
    (let s := setCmd hotColumn 30 bankCopy
     wantIs s (fun w => w.g.state == .resident && migratable w && decide (gangCol s w.g = some 0) && !migrBusy s 0 &&
       (match migrTarget s w 0, stopTasks s w.g.tasks with
        | some (_, seats), some u =>
          (let v := (taskSeats u w.g seats).foldl reserveSeat (setGang u 11 { w.g with state := .migrating })
           match wantOf v 11 with
           | some w1 => w1.g.tasks == [20] && (taskCmds v 20).any (fun p => touches .colBank p.2 && !p.2.ended)
           | none => false)
        | _, _ => false))) = true ∧
    (let s : State := { hotColumn with pkg := { hotColumn.pkg with migCfg := 0xFF0B } }
     wantIs s (fun w => w.g.state == .resident && migratable w && decide (gangCol s w.g = some 0) && (migrTarget s w 0).isNone)) = true ∧
    [false, true].all (fun b => let s := migrating b
     wantIs s (fun w => w.g.state == .migrating && decide (gangCol s w.g = some 0) && w.g.tasks.all (fun t => (taskCmds s t).isEmpty) && w.g.doomed == b &&
       (match migrateTasks 11 s (w.g.tasks.zip w.g.seats) with
        | some v => (match gangAt v 11 with
          | some g => (let h := { g with state := GangState.resident, cores := w.g.seats.map (·.1), seats := [], doomed := false }
             (preemptGang (setGang v 11 h) (11, h)).isSome)
          | none => false)
        | none => false))) = true := by
  decide +kernel

/-- A migrating gang that is chosen for pre-emption. -/
theorem witness_doomed :
    (let s := match gangAt crowded 12 with | some g => setGang crowded 12 { g with state := .migrating, seats := [(0, 0, 0)] } | none => crowded
     wantIs s (fun w => w.g.state == .ready && (fitFirst s w (fun _ => true) (instances s w false)).isNone &&
       (match bestChoice (choices s w) with
        | some (_, _, vs) => vs.any (fun p => p.2.state == .migrating) && (preemptGangs s (vs.filter (fun p => p.2.state != .migrating))).isSome
        | none => false))) = true := by decide +kernel

/-- A gang that fits nowhere looks at pre-emption and reserves. -/
theorem witness_dispatch_waits :
    (let s := crowded
     wantIs s (fun w => (launchAt s w.g.launch).isSome &&
       (let s1 := forwardDie (freeStacks s w.g.stack) w
        let w1 := (wantOf s1 11).getD w
        (fitFirst s1 w1 (mayTake s1 w1) (instances s1 w1 false)).isNone))) = true := by decide +kernel

theorem witness_requeue :
    (let s := withTask (gangIn GangState.requeued) .resident
     match gangAt s 11 with | some g => g.state == GangState.requeued && !g.tasks.isEmpty && (requeueGang s 11 g).isSome | none => false) = true := by
  decide +kernel

theorem witness_termination :
    (let s := withTask (gangIn GangState.resident) .resident
     match taskAt s 20 with
     | some x => x.failed.isNone && x.state == TaskState.resident &&
         (match gangAt s x.gang with | some g => g.state == GangState.resident | none => true) && allExited s x &&
         (taskCmds s 20).isEmpty && (endTask s 20 x 0 0).isSome
     | none => false) = true := by decide +kernel

/-! ### Requests from outside, registers, the device, the machine: witnesses -/

/-- Peer 5 may read and write the first 64 KiB of HBM; and perform atomics there. -/
def grantedPeer : State := { idle with pkg := { idle.pkg with ualGrant := [(0, 0x10000 * 2 ^ 64 + 0x5000F)] } }

/-- OutsideRequestsAreServed. -/
theorem witness_outside :
    let s := grantedPeer
    s.emerg = none ∧ dpaKind s 0x10000 = .mem ∧ (gatherAll s (homeTower s 0x10000) 512 none).isSome = true ∧ dpaKind s 0xF000000000 = .hole ∧
    dpaKind s (regBase + 64) = .line 1 0 ∧
    regAt 0x12040 = some (.corePg 0) ∧ canRead .hostLink (.corePg 0) = true ∧ canWrite .hostLink (.corePg 0) = true ∧
    controlWrite (.corePg 0) 3 = false ∧ regAt 0x910330 = some (.mgmtSem false) ∧ canRead .hostLink (.mgmtSem false) = false ∧
    canWrite .user (.corePg 0) = false ∧ canRead .mgmtA (.govStatus 0) = true ∧ canRead .user (.corePg 0) = false ∧
    (readAt s (homeTower s 0x10000) 512).isSome = true ∧ (homeReads s ((List.range 8).map (fun i => (ualPa (64 + i)).getD 0))).isSome = true ∧
    okAtomTy .add .i32 = true ∧ okAtomTy .fadd .i8 = false ∧ (ownLine s (homeTower s 0x40) 0).isSome = true ∧
    granted s 5 64 8 1 = true ∧ granted s 5 64 8 2 = true ∧ granted s 5 64 4 3 = true ∧ ualReach s 64 8 = true ∧ granted s 6 64 8 1 = false ∧
    (gatherBytes s ((List.range 8).map (fun i => (ualPa (64 + i)).getD 0))).isSome = true := by decide +kernel

/-- NamedRegisterWritesTakeEffect: firmware owns the control registers, or nobody does. -/
def owned (n : Byte) : State := { idle with mgmt := { idle.mgmt with owner := BitVec.ofNat 2 n.toNat } }

theorem witness_registers :
    regHeld (owned 3) .firmware = false ∧ ownCode .firmware ≠ 0 ∧ (owned 3).mgmt.owner.toNat = ownCode .firmware ∧
    20000 % 2 ^ 16 ≤ (owned 3).power.curLim.toNat ∧ (owned 0).mgmt.owner.toNat ≠ ownCode .firmware ∧ (owned 0).mgmt.owner = 0 ∧ 7 % 4 = ownCode .firmware ∧
    (let s : State := { owned 3 with tsc := 1000000000 }
     s.mgmt.owner ≠ 0 ∧ s.mgmt.lastCtl.toNat + max 1 s.mgmt.lease.toNat * 10000000 ≤ s.tsc.toNat) ∧
    canWrite .firmware .logCtl = true ∧ idle.pkg.hbmLock = false ∧
    (let n := 0x80001020
     let w : State := { idle with pkg := { idle.pkg with hbmP := BitVec.ofNat 7 n, hbmW := BitVec.ofNat 7 (n / 256), hbmLock := true } }
     (BitVec.ofNat 64 n).getLsbD 31 = true ∧ bits n 0 7 + bits n 8 7 ≤ 64 ∧ reservedBytes w ≤ 12 * bits n 0 7 * gib ∧ w.pkg.hbmLock = true) ∧
    (owned 0).mgmt.semWrites = [] ∧ 6 % 4 = 2 ∧ 5 % 4 = 1 ∧ (owned 3).power.curLim.toNat < 30001 % 2 ^ 16 ∧ 94 % 256 < 95 ∧ 110 < 111 % 256 ∧
    84 % 256 < 85 ∧ 95 < 96 % 256 ∧ ownCode .mgmtA ≠ 0 ∧ ownCode .mgmtB ≠ 0 ∧
    (let w : State := { idle with pkg := { idle.pkg with hbmP := 1, hbmW := 16, hbmLock := true } }
     64 < bits 0x80002821 0 7 + bits 0x80002821 8 7 ∧ 12 * bits 0x80001001 0 7 * gib < reservedBytes w) ∧
    canWrite .supervisor (.corePg 3) = true ∧
    (let s := modCol idle 0 (fun k => { k with corePg := 2 })
     gateAsked s 1 = true ∧ isGated s 1 = false ∧ mayGate s 1 = true ∧ (evictLines s 1 (l1Lines s 1)).isSome = true) ∧
    (let s := modCol idle 0 (fun k => { k with gated := 2 })
     gateAsked s 1 = false ∧ isGated s 1 = true) := by decide +kernel

/-- A frame of the right format, with sequence number 1. -/
def frameBytes : List Byte := [0x42, 0x4C, 1, 0, 1] ++ List.replicate 59 0

/-- Ten estimates; partition 0 is over its own cap, over its rank's, or the device is over DEV_CAP; or there is margin to rise. -/
def capped (f : Power → Power) (g : Part → Part) : State :=
  setPart { idle with power := f { idle.power with ests := List.replicate 10 20000000 } } 0 (g (partAt idle 0))

/-- PowerStepsRun: the cap loop's four reasons to lower partition 0, and its reason to raise it. -/
theorem witness_cap_loop :
    (let s := capped (fun p => { p with partEsts := [(0, 50000)] }) (fun x => { x with cfg := 0x10F })
     s.power.ests.length = 10 ∧ partValid s 0 = true ∧ (partAt s 0).duty < 3 ∧ limitOver s 0 (.partition 0) = true) ∧
    (let s := capped (fun p => { p with partEsts := [(0, 50000)], rankCap := [(7, 1)] }) id
     rankOf s 0 = 7 ∧ partValid s 0 = true ∧ limitOver s 0 (.partition 0) = false ∧ limitOver s 0 (.rank 7) = true) ∧
    (let s := capped (fun p => { p with devCap := 16000 }) id
     limitOver s 0 .device = true ∧ limitOver s 30001 .current = true ∧ limitOver s 0 .current = false ∧ limitOver s 0 (.rank 7) = false ∧
     (List.range 16).all (fun q => !partValid s q || decide (7 ≤ rankOf s q)) = true) ∧
    (let s := capped id (fun x => { x with duty := 1, margin := 9 })
     (limitsOf s 0).all (limitMargin s 0) = true ∧ thermalMargin s 0 97 = true ∧ mayRise (countMargin s 0 0) 0 [] = [0]) := by decide +kernel

/-- A pass that raises partition 0 (02 R64), and one that lowers it for the device cap, with cause 1 (R63). -/
theorem test_cap_loop :
    next (capped id (fun x => { x with duty := 1, margin := 9 })) (.capLoopPass 0) (fun t => (partAt t 0).duty == 0) = true ∧
    next (capped (fun p => { p with devCap := 16000 }) id) (.capLoopPass 0) (fun t => (partAt t 0).duty == 1 && bits (partAt t 0).cause.toNat 1 3 == 1 &&
      (colAt t 5).duty == 1) = true := by decide +kernel

theorem witness_power :
    idle.power.ests.length < 10 ∧
    (let s := modCol idle 0 (fun k => { k with tj := 110 })
     isHot s 0 = true ∧ (colAt s 0).thermAt = none ∧ (colAt s 0).therm < 3) ∧
    (let s := { modCol idle 0 (fun k => { k with tj := 80, therm := 2, coolAt := some 0 }) with tsc := 100000 }
     isCool s 0 = true ∧ (colAt s 0).coolAt = some 0 ∧ 0 + 100000 ≤ s.tsc.toNat ∧ 0 < (colAt s 0).therm) ∧
    (let s : State := { idle with power := { idle.power with ballastAt := some 5 } }
     s.power.ballastAt = some 5 ∧ s.power.ballast = 0) ∧
    idle.emerg = none ∧ (2 : Nat) ∉ idle.power.alarms ∧ 45 < 46 ∧
    (let s : State := { idle with emerg := some 7, tsc := 20000000000 }
     s.emerg = some 7 ∧ 7 + 10000000000 ≤ s.tsc.toNat ∧ (List.range 64).all (fun n => decide ((colAt s n).tj.toNat ≤ 95) && decide ((colAt s n).tb.toNat ≤ 95)) = true) ∧
    frameFormat frameBytes = true ∧ frameMac idle frameBytes = true ∧ idle.mgmt.capValid = false ∧ frameFormat [] = false ∧
    (let s : State := { idle with mgmt := { idle.mgmt with capValid := true, capSeq := 0 } }
     serialNewer (BitVec.ofNat 32 (frameField frameBytes 4 4)) s.mgmt.capSeq = true ∧ serialNewer 0 s.mgmt.capSeq = false) ∧
    (let s : State := { idle with mgmt := { idle.mgmt with frameKey := some 1 } }
     frameMac s frameBytes = false) := by decide +kernel

/-- Both management ports ask at one `TSC`: MGMT-A owns, whichever came first (02 R81). A value out of range is refused (R62, R82). -/
theorem test_semaphore :
    next (owned 0) (.mgmtSemAcquire .mgmtB 2) (fun t => next t (.mgmtSemAcquire .mgmtA 1) (fun u => u.mgmt.owner == 1)) = true ∧
    next (owned 3) (.govTjWrite .firmware 94) (fun t => t.reply == .error 0x53 && t.power.govTj == 105) = true := by decide +kernel

def busState (f : VBus → VBus) : State := setBus idle 0 true (f (busOf idle 0 true))

/-- A lane repair runs on column 0's down direction while a read-modify-write of line 3 of its bank is in flight. -/
def write3 : BankWrite := { line := bankBase / 128 + 3, data := 7, mask := 1 }
def draining (fails : Tab Nat) : State :=
  modCol (busState (fun v => { v with repair := [5] })) 0 (fun k => { k with rmw := [write3], up := { k.up with drainFails := fails } })

/-- Line 1 of column 0's bank has a byte to write back. -/
def line1 : Nat := (bankBase + 0 * 0x100000000 + 128) / 128
def dirtyBank (s : State) : State :=
  modCol s 0 (fun k => { k with slice := tput none k.slice line1 (some { SliceLine.empty with data := 7, mask := 1 }) })

/-- DeviceStepsRun: beats. -/
theorem witness_beats :
    let plain := fun (s : State) => !(busOf s 0 true).failed && s.emerg.isNone && (busOf s 0 true).repair.isEmpty
    plain idle = true ∧ badGroups true [99] = [] ∧ badGroups true [5, 63, 64] = [5, 63] ∧ badGroups false [64, 65, 66] = [64, 65] ∧
    (busOf idle 0 true).newMap = false ∧ (busOf idle 0 true).retries < 3 ∧ tget 0 (busOf idle 0 true).fails 5 < 2 ∧
    (let s := busState (fun v => { v with fails := [(5, 2)], retries := 2 })
     plain s = true ∧ tget 0 (busOf s 0 true).fails 5 = 2) ∧
    (let s := busState (fun v => { v with newMap := true, retries := 2 })
     plain s = true ∧ (busOf s 0 true).newMap = true) ∧
    (let s := busState (fun v => { v with fails := [(4, 1)], retries := 3 })
     plain s = true ∧ tget 0 (busOf s 0 true).fails 5 = 0 ∧ (busOf s 0 true).newMap = false) ∧
    repairing (draining []) 0 = true ∧ (busOf (draining []) 0 false).failed = false ∧ (colAt (draining []) 0).rmw = [write3] ∧
    tget 0 (colAt (draining [(5, 2)]) 0).up.drainFails 5 = 2 ∧ (colAt (busState (fun v => { v with repair := [5] })) 0).rmw = [] := by decide +kernel

/-- A third failure begins the repair of its group; the beat after a swap that fails again makes the bus FAILED (01 R28, R29). -/
theorem test_beats :
    next (busState (fun v => { v with fails := [(5, 2)], retries := 2 })) (.vbusBeat 0 .down [5]) (fun t =>
      (busOf t 0 true).repair == [5] && !(busOf t 0 true).failed) = true ∧
    next (busState (fun v => { v with newMap := true, retries := 2 })) (.vbusBeat 0 .down [5]) (fun t => (busOf t 0 true).failed) = true := by decide +kernel

/-- DeviceStepsRun: repair, the bank, links, start-up. -/
theorem witness_device :
    (let v := busOf (busState (fun v => { v with repair := [5] })) 0 true
     v.repair.head? = some 5 ∧ spareOf 5 ∉ v.spares) ∧
    (let v := busOf (busState (fun v => { v with repair := [5], spares := [1] })) 0 true
     v.repair.head? = some 5 ∧ spareOf 5 ∈ v.spares) ∧
    (∃ y, tget none (colAt (dirtyBank idle) 0).slice line1 = some y ∧ y.mask = 1) ∧
    unitIdle (dirtyBank idle) 0 line1 = true ∧ isPartial 1 = true ∧ isPartial (BitVec.allOnes 128) = false ∧
    (let s := setBus idle 0 false { VBus.zero with retries := 1 }
     unitIdle s 0 line1 = false ∧ unitReads s 0 line1 = true) ∧
    (let s := busState (fun v => { v with retries := 1 })
     unitIdle s 0 line1 = false ∧ unitReads s 0 line1 = false ∧ (colAt s 0).beat = none ∧ (colAt s 0).down.again = true ∧ repairing s 0 = false) ∧
    (let s := busState (fun v => { v with repair := [5] })
     unitIdle s 0 line1 = false ∧ repairing s 0 = true) ∧
    bankBusy idle 0 = false ∧ wayOpen idle .pcie = true ∧
    (colAt idle 0).period ≠ 0 ∧ (linkAt idle (.dl 0)).lost = false ∧ (linkAt idle (.dl 0)).pending = none ∧
    2 ≤ (linkAt idle (.dl 0)).usable ∧ (linkAt idle (.dl 0)).next = [] ∧ State.reset.boot = .rom ∧ State.reset.bootSrc = none := by
  refine ⟨by decide +kernel, by decide +kernel, ⟨{ SliceLine.empty with data := 7, mask := 1 }, by decide +kernel, rfl⟩, ?_⟩
  decide +kernel

/-! ### The machine -/

/-- The state after a step; a machine that stops stays. -/
def placed (w : Nat) : State := placeWord State.reset 64 w

/-- What the next step of a placed word fetches, and the conditions under which it is `exec` of the word. -/
def atWord (s : State) (f : Dword → State → Bool) : Bool :=
  let u : State := { tick s with issuing := false }
  let c := clutchAt u u.cur
  s.boot != .railsOff && s.agenda.isEmpty && runs u c && !asyncReady u u.cur && !intReady u u.cur && c.wait.isNone &&
  (match (if c.parked then completeAll u u.cur else some u) with
   | none => false
   | some y => match issueOf (clutchAt y y.cur) with
     | some p => (match fetchAt y p.c p.ia with
       | (.word w, v) => f w v
       | _ => false)
     | none => false)

/-- StepRunsTheDecodedWord: a NOP on a host core; a word of another major opcode, which decodes to no instruction; an act of the agenda. -/
theorem witness_step_word :
    atWord (placed 0x0F00000000000000) (fun w _ => match decode w with | .ok (.nop _) => true | _ => false) = true ∧
    atWord (placed 0x7F00000000000000) (fun w v => match decode w with | .error _ => (completeAll v v.cur).isSome | _ => false) = true ∧
    (let s : State := { idle with agenda := [.powerEstimate] }
     s.boot ≠ .railsOff ∧ s.issuing = false ∧ s.agenda = [.powerEstimate] ∧ forced (tick s) = none) ∧
    forced (tick (placed 0x0F00000000000000)) = none ∧ forced (tick (placed 0x7F00000000000000)) = none := by decide +kernel

/-- Core 0 has held its line dirty for 100 µs when time passes. -/
def overdue : State := { dirtied with tsc := 200000 - BitVec.ofNat 64 (Config.tscTicks dirtied.fresh) }

theorem tick_at (d : State) (n : Dword) :
    tick { d with tsc := n - BitVec.ofNat 64 (Config.tscTicks d.fresh) } = { d with tsc := n, fresh := d.fresh + 1 } := by
  unfold tick
  simp only [BitVec.sub_add_cancel]

theorem witness_forced : forced (tick overdue) = some (.l1EvictTimeout 0 line9) := by
  unfold overdue
  rw [tick_at]
  decide +kernel

/-- DecodeOfEncodeIsTheInstruction. -/
theorem witness_encode : isWord (.nop hd) = true ∧ wellFormed (.nop hd) = true := by decide

/-- EncodeOfDecodeIsTheWord: the `nop` word. -/
theorem witness_decode : decode 0x0F00000000000000 = .ok (.nop hd) := by decide +kernel

/-- EveryStepKeepsMemoryCanonical, NoInstructionIsRefused: a store's step from a machine whose memory is canonical. -/
theorem witness_machine :
    Memory.wf simt.mem = true ∧ (match step simt with | .next _ => true | _ => false) = true ∧ simt.boot ≠ .railsOff ∧
    (let s : State := { State.reset with boot := .railsOff }
     s.agenda.head? ≠ some .reset ∧ s.boot = .railsOff) := by decide +kernel

end Sys2Proof.Tests
end

section
/-! PROOF. Tokens of a line between the dies (06 R228 to R230, 01 R39 to R41): what is written to a line's entry is read back, every
message that a step sends takes from its sender what it carries, and a message that arrives gives it to the receiver. -/

namespace Sys2Proof.Machine

variable {α : Type} {s t u : State} {line die : Nat}

/-! ### Tables written at many keys -/

theorem tget_foldl_tput [DecidableEq α] (d : α) (f : Nat → α) (l : List Nat) (t : Tab α) (n : Nat) :
    tget d (l.foldl (fun t k => tput d t k (f k)) t) n = if n ∈ l then f n else tget d t n := by
  induction l generalizing t with
  | nil => simp
  | cons k l ih =>
    rw [List.foldl_cons, ih, tget_tput]
    by_cases hk : n = k <;> simp [hk]

theorem tget_foldl_tput_of_ne [DecidableEq α] {β : Type} (d : α) (key : β → Nat) (val : β → α) {n : Nat} {l : List β}
    (h : ∀ p ∈ l, key p ≠ n) (t : Tab α) : tget d (l.foldl (fun t p => tput d t (key p) (val p)) t) n = tget d t n :=
  List.foldlRecOn l _ (motive := fun u => tget d u n = tget d t n) rfl
    (fun u hu p hp => (tget_tput_of_ne d u (val p) (h p hp).symm).trans hu)

/-! ### The entry of a line -/

@[simp] theorem tokAt_setTok_self (s : State) (line : Nat) (x : LineTok) : tokAt (setTok s line x) line = x := by
  simp [tokAt, setTok]

/-- The tokens that the four dies hold. -/
def diesHeld (h : Tab Nat) : Nat := tget 0 h 0 + tget 0 h 1 + tget 0 h 2 + tget 0 h 3

/-- The tokens of a line in messages under way. -/
def underWay (ms : List TokMsg) (line : Nat) : Nat := ((ms.filter (fun m => decide (m.line = line))).map (·.n)).sum

theorem tokTotal_eq (s : State) (line : Nat) : tokTotal s line = diesHeld (tokAt s line).held + underWay s.msgs line := rfl

theorem diesHeld_tput (h : Tab Nat) {d : Nat} (hd : d < 4) (n : Nat) : diesHeld (tput 0 h d n) + tget 0 h d = diesHeld h + n := by
  unfold diesHeld
  simp only [tget_tput]
  obtain rfl | rfl | rfl | rfl : d = 0 ∨ d = 1 ∨ d = 2 ∨ d = 3 := by omega
  all_goals
    simp
    omega

theorem underWay_append (ms : List TokMsg) (m : TokMsg) : underWay (ms ++ [m]) m.line = underWay ms m.line + m.n := by
  simp [underWay]

theorem underWay_erase {ms : List TokMsg} {m : TokMsg} (h : m ∈ ms) : underWay (ms.erase m) m.line + m.n = underWay ms m.line := by
  have hp := (((List.perm_cons_erase h).filter (fun q => decide (q.line = m.line))).map (·.n)).sum_eq
  simp only [decide_true, List.filter_cons_of_pos, List.map_cons, List.sum_cons] at hp
  unfold underWay
  omega

theorem spare_le_held (s : State) (line die : Nat) : spare s line die ≤ tget 0 (tokAt s line).held die := Nat.sub_le _ _

/-! ### Steps that send tokens -/

/-- `t` has the tokens of a line that `s` has, though perhaps elsewhere, and the same requests for it. -/
structure KeepsTokens (line : Nat) (s t : State) : Prop where
  total : tokTotal t line = tokTotal s line
  reqs : (tokAt t line).reqs = (tokAt s line).reqs
  queue : (tokAt t line).queue = (tokAt s line).queue
  active : (tokAt t line).active = (tokAt s line).active

theorem KeepsTokens.refl (line : Nat) (s : State) : KeepsTokens line s s := ⟨rfl, rfl, rfl, rfl⟩

theorem KeepsTokens.trans (h : KeepsTokens line s t) (k : KeepsTokens line t u) : KeepsTokens line s u :=
  ⟨k.total.trans h.total, k.reqs.trans h.reqs, k.queue.trans h.queue, k.active.trans h.active⟩

theorem keepsTokens_foldl {f : State → Nat → State} {l : List Nat} (hf : ∀ s, ∀ d ∈ l, KeepsTokens line s (f s d)) (s : State) :
    KeepsTokens line s (l.foldl f s) :=
  List.foldlRecOn l f (motive := KeepsTokens line s) (.refl line s) (fun t ht d hd => ht.trans (hf t d hd))

/-- The host's copy is no token. -/
theorem tokAt_recallHost (s : State) (line other : Nat) : tokAt (recallHost s line) other = tokAt s other := by
  unfold recallHost
  split <;> rfl

theorem recallHost_msgs (s : State) (line : Nat) : (recallHost s line).msgs = s.msgs := by
  unfold recallHost
  split <;> rfl

/-- The end of a watch frees the watch's token where it is (06 R231). -/
theorem tokAt_watchEnd (s : State) (line src : Nat) :
    ∃ w, tokAt (watchEnd s line src) line = { tokAt s line with watch := w } ∧ (watchEnd s line src).msgs = s.msgs := by
  unfold watchEnd unwatch
  split
  · split
    · exact ⟨false, tokAt_setTok_self .., rfl⟩
    · exact ⟨_, rfl, rfl⟩
  · exact ⟨_, rfl, rfl⟩

theorem tokAt_ite_recallHost (wb : Bool) (s : State) (line : Nat) : tokAt (if wb then s else recallHost s line) line = tokAt s line := by
  split
  · rfl
  · exact tokAt_recallHost ..

theorem ite_recallHost_msgs (wb : Bool) (s : State) (line : Nat) : (if wb then s else recallHost s line).msgs = s.msgs := by
  split
  · rfl
  · exact recallHost_msgs ..

/-- What a message carries its sender no longer has. -/
theorem tokAt_sendTok (s : State) (wb : Bool) (line src dst n : Nat) (flag : Bool) :
    ∃ o w, tokAt (sendTok s wb line src dst n flag) line = { tokAt s line with
        held := tput 0 (tokAt s line).held src (tget 0 (tokAt s line).held src - n), owner := o, watch := w } ∧
      (sendTok s wb line src dst n flag).msgs =
        s.msgs ++ [{ src := src, dst := dst, wb := wb, line := line, n := n, owner := flag }] := by
  have ht := tokAt_ite_recallHost wb s line
  have hm := ite_recallHost_msgs wb s line
  unfold sendTok
  generalize (if wb then s else recallHost s line) = r at ht hm ⊢
  obtain ⟨w, hentry, hmsgs⟩ := tokAt_watchEnd { setTok r line { tokAt r line with
      held := tput 0 (tokAt r line).held src (tget 0 (tokAt r line).held src - n)
      owner := if flag then none else (tokAt r line).owner } with
    msgs := r.msgs ++ [{ src := src, dst := dst, wb := wb, line := line, n := n, owner := flag }] } line src
  refine ⟨if flag then none else (tokAt s line).owner, w, hentry.trans ?_, hmsgs.trans (by rw [hm])⟩
  change ({ tokAt (setTok r line _) line with watch := w } : LineTok) = _
  rw [tokAt_setTok_self, ht]

theorem keepsTokens_sendTok (s : State) (wb : Bool) (line : Nat) {src : Nat} (dst : Nat) {n : Nat} (flag : Bool) (hs : src < 4)
    (hn : n ≤ tget 0 (tokAt s line).held src) : KeepsTokens line s (sendTok s wb line src dst n flag) := by
  obtain ⟨o, w, hentry, hmsgs⟩ := tokAt_sendTok s wb line src dst n flag
  have hheld := diesHeld_tput (tokAt s line).held hs (tget 0 (tokAt s line).held src - n)
  have hsent := underWay_append s.msgs { src := src, dst := dst, wb := wb, line := line, n := n, owner := flag }
  refine ⟨?_, by rw [hentry], by rw [hentry], by rw [hentry]⟩
  rw [tokTotal_eq, tokTotal_eq, hentry, hmsgs, hsent]
  dsimp only
  omega

theorem keepsTokens_answerTransient (s : State) (line dst : Nat) (write : Bool) {src : Nat} (hs : src < 4) :
    KeepsTokens line s (answerTransient line dst write s src) := by
  have hle := spare_le_held s line src
  unfold answerTransient
  dsimp only
  generalize hk : spare s line src - (if write then 0 else watched s line src) = k
  split
  · exact .refl line s
  · split
    · exact keepsTokens_sendTok s false line dst _ hs (by omega)
    · split
      · exact .refl line s
      · exact keepsTokens_sendTok s false line dst _ hs (by omega)

theorem mem_dies {d : Nat} (h : d ∈ [0, 1, 2, 3]) : d < 4 := by
  simp only [List.mem_cons, List.not_mem_nil, or_false] at h
  omega

theorem keepsTokens_answerAll (s : State) (line dst : Nat) (write : Bool) : KeepsTokens line s (answerAll s line dst write) :=
  keepsTokens_foldl (fun s _ hd => keepsTokens_answerTransient s line dst write (mem_dies hd)) s

theorem keepsTokens_forwardActive (s : State) (line : Nat) {die : Nat} (hd : die < 4) :
    KeepsTokens line s (forwardActive s line die) := by
  unfold forwardActive
  split
  · exact .refl line s
  · dsimp only
    split
    · exact .refl line s
    · exact keepsTokens_sendTok s false line _ _ hd (spare_le_held s line die)

theorem forwardActive_of_none (h : (tokAt s line).active = none) (die : Nat) : forwardActive s line die = s := by
  simp [forwardActive, h]

/-- A change of the requests for a line moves no token. -/
theorem tokTotal_setTok {x : LineTok} (h : x.held = (tokAt s line).held) : tokTotal (setTok s line x) line = tokTotal s line := by
  rw [tokTotal_eq, tokTotal_eq, tokAt_setTok_self, h]
  rfl

/-! ### Requests, answers, time-outs, the arbiter -/

/-- A die that holds too few tokens, asks for none yet and has room for a request sends it, and the holders answer. -/
theorem transientRequest_sent {write : Bool} (hs : satisfied s line die write = false) (hr : ∀ q ∈ (tokAt s line).reqs, q.die ≠ die)
    (hq : ∀ q ∈ (tokAt s line).queue, q.2 % 4 ≠ die) (ha : ∀ q, (tokAt s line).active = some q → q % 4 ≠ die)
    (hn : requestsOf s die < 256) :
    transientRequest s die line write = answerAll (setTok s line { tokAt s line with
      reqs := (tokAt s line).reqs ++ [{ die := die, write := write, sent := s.tsc.toNat, fails := 0 }] }) line die write := by
  unfold transientRequest
  rw [if_neg]
  have hr' : (tokAt s line).reqs.any (fun r => decide (r.die = die)) = false := by simpa using hr
  have hq' : (tokAt s line).queue.any (fun q => decide (q.2 % 4 = die)) = false := by simpa using hq
  have ha' : (tokAt s line).active.any (fun q => decide (q % 4 = die)) = false := by
    cases hact : (tokAt s line).active with
    | none => rfl
    | some q => simpa using ha q hact
  simp [hs, hr', hq', ha', hn]

/-- The end of requests that are met changes the list of requests alone. -/
theorem tokAt_dropMet (s : State) (line die : Nat) :
    ∃ rs, tokAt (dropMet s line die) line = { tokAt s line with reqs := rs } ∧ (dropMet s line die).msgs = s.msgs :=
  ⟨_, tokAt_setTok_self .., rfl⟩

/-- A message that arrives while no persistent request is active leaves the link, and its receiver has its tokens. -/
theorem arrive_lands {m : TokMsg} {dst : Fin 4} (hm : m ∈ s.msgs) (hd : m.dst = dst.val) (ha : (tokAt s m.line).active = none) :
    (arrive s m).msgs = s.msgs.erase m ∧
    tget 0 (tokAt (arrive s m) m.line).held dst.val = tget 0 (tokAt s m.line).held dst.val + m.n ∧
    tokTotal (arrive s m) m.line = tokTotal s m.line := by
  rw [← hd]
  unfold arrive
  dsimp only
  have ht : tokAt _ m.line = tokAt s m.line := tokAt_ite_recallHost m.wb { s with msgs := s.msgs.erase m } m.line
  have hs : State.msgs _ = s.msgs.erase m := ite_recallHost_msgs m.wb { s with msgs := s.msgs.erase m } m.line
  generalize (if m.wb then { s with msgs := s.msgs.erase m } else recallHost { s with msgs := s.msgs.erase m } m.line) = r at ht hs ⊢
  rw [ht]
  generalize hx : ({ tokAt s m.line with
    held := tput 0 (tokAt s m.line).held m.dst (tget 0 (tokAt s m.line).held m.dst + m.n)
    owner := if m.owner then some m.dst else (tokAt s m.line).owner } : LineTok) = x
  obtain ⟨rs, hentry, hmsgs⟩ := tokAt_dropMet (setTok r m.line x) m.line m.dst
  rw [tokAt_setTok_self] at hentry
  rw [setTok_msgs, hs] at hmsgs
  have hactive : (tokAt (dropMet (setTok r m.line x) m.line m.dst) m.line).active = none := by
    rw [hentry, ← hx]
    exact ha
  have hsum := diesHeld_tput (tokAt s m.line).held (show m.dst < 4 by omega) (tget 0 (tokAt s m.line).held m.dst + m.n)
  have hgone := underWay_erase hm
  rw [forwardActive_of_none hactive, tokTotal_eq, tokTotal_eq, hentry, hmsgs, ← hx]
  refine ⟨rfl, tget_tput_self .., ?_⟩
  dsimp only
  omega

theorem mem_insReq (a : Nat × Nat) (l : List (Nat × Nat)) : a ∈ insReq a l := by
  induction l with
  | nil => simp [insReq]
  | cons b l ih =>
    unfold insReq
    split
    · exact List.mem_cons_self
    · exact List.mem_cons_of_mem _ ih

/-! ### The host's snoop -/

theorem bankByte_withMem {mem : List Host.Cell} {pa : Nat} (h : tget 0 mem pa = tget 0 s.mem pa) (fresh c bo : Nat) :
    bankByte { s with mem := mem, fresh := fresh } c bo pa = bankByte s c bo pa := by
  unfold bankByte
  dsimp only
  rw [h]
  rfl

/-- A performed byte depends on memory at its own address alone. -/
theorem perfByte_withMem {mem : List Host.Cell} {pa : Nat} (h : tget 0 mem pa = tget 0 s.mem pa) (fresh : Nat) :
    perfByte { s with mem := mem, fresh := fresh } pa = perfByte s pa := by
  have hk : paKind { s with mem := mem, fresh := fresh } pa = paKind s pa := rfl
  unfold perfByte
  rw [hk]
  split
  next c bo _ =>
    rw [bankByte_withMem h]
    rfl
  next => rfl
  next => exact h

theorem perfByte_withReply (r : Reply) (pa : Nat) : perfByte { s with reply := r } pa = perfByte s pa := rfl

/-- A line whose bytes become free values keeps every other line's. -/
theorem perfByte_freeLine {b : Nat} (h : b / 128 ≠ line) : perfByte (freeLine s line) b = perfByte s b := by
  refine perfByte_withMem (tget_foldl_tput_of_ne 0 (fun p : Byte × Nat => 128 * line + p.2) (·.1) (fun p hp => ?_) s.mem) _
  have hlt : p.2 < 128 := List.mem_range.1 (List.of_mem_zip hp).2
  omega

/-! ### O46 -/

theorem exec_transientRequest {die : Fin 4} {write : Bool} (hl : live s = true) (hc : cached s line = true) :
    exec (.transientRequest die line write) s = .next (transientRequest s die.val line write) := by
  change execTransientRequest die line write s = _
  simp [execTransientRequest, hl, hc]

theorem exec_tokenResponse {src dst : Fin 4} {m : TokMsg} (hl : live s = true)
    (hm : s.msgs.find? (fun q => decide (q.src = src.val) && decide (q.dst = dst.val) && !q.wb) = some m) :
    exec (.tokenResponse src dst) s = .next (arrive s m) := by
  change execTokenResponse src dst s = _
  simp [execTokenResponse, hl, hm]

theorem exec_tokenWriteback {src dst : Fin 4} {m : TokMsg} (hl : live s = true)
    (hm : s.msgs.find? (fun q => decide (q.src = src.val) && decide (q.dst = dst.val) && q.wb) = some m) :
    exec (.tokenWriteback src dst) s = .next (arrive s m) := by
  change execTokenWriteback src dst s = _
  simp [execTokenWriteback, hl, hm]

/-- The first failure of a request: it is sent once more. -/
theorem exec_transientTimeout_again {die : Fin 4} {r : TokReq} (hl : live s = true)
    (hr : (tokAt s line).reqs.find? (fun q => decide (q.die = die.val)) = some r) (ht : r.sent + 1000 ≤ s.tsc.toNat)
    (hs : satisfied s line die.val r.write = false) (hf : r.fails = 0) :
    exec (.transientTimeout die line) s = .next (answerAll (setTok s line { tokAt s line with
      reqs := (tokAt s line).reqs.map (fun q => if q = r then { q with sent := s.tsc.toNat, fails := 1 } else q) })
      line die.val r.write) := by
  change execTransientTimeout die line s = _
  simp [execTransientTimeout, hl, hr, hs, hf, Nat.not_lt.2 ht]

/-- The second failure of a request: it queues for the arbiter. -/
theorem exec_transientTimeout_queued {die : Fin 4} {r : TokReq} (hl : live s = true)
    (hr : (tokAt s line).reqs.find? (fun q => decide (q.die = die.val)) = some r) (ht : r.sent + 1000 ≤ s.tsc.toNat)
    (hs : satisfied s line die.val r.write = false) (hf : r.fails ≠ 0) :
    exec (.transientTimeout die line) s = .next (setTok s line { tokAt s line with
      reqs := (tokAt s line).reqs.erase r
      queue := insReq (s.tsc.toNat, die.val + (if r.write then 4 else 0)) (tokAt s line).queue }) := by
  change execTransientTimeout die line s = _
  simp [execTransientTimeout, hl, hr, hs, hf, Nat.not_lt.2 ht]

theorem exec_persistentActivate {ts q : Nat} {rest : List (Nat × Nat)} (hl : live s = true) (ha : (tokAt s line).active = none)
    (hq : (tokAt s line).queue = (ts, q) :: rest) :
    exec (.persistentActivate line) s = .next ([0, 1, 2, 3].foldl (fun s d => forwardActive s line d)
      (setTok s line { tokAt s line with active := some q, queue := rest })) := by
  change execPersistentActivate line s = _
  simp [execPersistentActivate, hl, ha, hq]

theorem exec_persistentDeactivate {q : Nat} (hl : live s = true) (ha : (tokAt s line).active = some q)
    (hs : satisfied s line (q % 4) (decide (4 ≤ q)) = true) :
    exec (.persistentDeactivate line) s = .next (setTok s line { tokAt s line with active := none }) := by
  change execPersistentDeactivate line s = _
  simp [execPersistentDeactivate, hl, ha, hs]

theorem exec_cxlCacheSnoop {pa : Nat} (invalidate : Bool) (hl : live s = true) (hk : paKind s (128 * line) = .sys)
    (hp : sysPart (128 * line) = .host pa) :
    exec (.cxlCacheSnoop line invalidate) s = .next { (if invalidate then freeLine s line else s) with
      reply := .ok ((List.range 128).map (fun i => perfByte s (128 * line + i))) } := by
  have he : s.emerg.isSome = false := by
    simp only [live, Bool.and_eq_true, Option.isNone_iff_eq_none] at hl
    rw [hl.2]
    rfl
  change execCxlCacheSnoop line invalidate s = _
  simp [execCxlCacheSnoop, he, hk, hp]

/-- Settles O46: messages carry what their senders give up (`keepsTokens_sendTok`), and arrive whole (`arrive_lands`). -/
theorem tokenStepsRun : Obligations.TokenStepsRun := by
  unfold Obligations.TokenStepsRun
  intro s line die src dst write m r hl
  refine ⟨fun hc hs hr hq ha hn => ?request, fun hm ha => ?response, fun hm ha => ?writeback,
    fun hr ht hs => ⟨fun hf => ?again, fun hf => ?queued⟩, fun ts q rest ha hq => ?activate,
    fun q ha hs => exec_persistentDeactivate hl ha hs, fun pa hk hp => exec_cxlCacheSnoop false hl hk hp, fun pa hk hp => ?snoop⟩
  case request =>
    refine ⟨_, exec_transientRequest hl hc, ?_⟩
    rw [transientRequest_sent hs hr hq ha hn]
    have keeps := keepsTokens_answerAll (setTok s line { tokAt s line with
      reqs := (tokAt s line).reqs ++ [{ die := die.val, write := write, sent := s.tsc.toNat, fails := 0 }] }) line die.val write
    rw [keeps.reqs, keeps.total, tokAt_setTok_self]
    exact ⟨List.mem_append_right _ (List.mem_singleton_self _), tokTotal_setTok rfl⟩
  case response =>
    have hfound := List.find?_some hm
    simp only [Bool.and_eq_true, decide_eq_true_eq] at hfound
    exact ⟨_, exec_tokenResponse hl hm, arrive_lands (List.mem_of_find?_eq_some hm) hfound.1.2 ha⟩
  case writeback =>
    have hfound := List.find?_some hm
    simp only [Bool.and_eq_true, decide_eq_true_eq] at hfound
    exact ⟨_, exec_tokenWriteback hl hm, arrive_lands (List.mem_of_find?_eq_some hm) hfound.1.2 ha⟩
  case again =>
    refine ⟨_, exec_transientTimeout_again hl hr ht hs hf, ?_⟩
    have keeps := keepsTokens_answerAll (setTok s line { tokAt s line with
      reqs := (tokAt s line).reqs.map (fun q => if q = r then { q with sent := s.tsc.toNat, fails := 1 } else q) }) line die.val r.write
    rw [keeps.reqs, keeps.total, tokAt_setTok_self]
    exact ⟨List.mem_map.2 ⟨r, List.mem_of_find?_eq_some hr, if_pos rfl⟩, tokTotal_setTok rfl⟩
  case queued =>
    refine ⟨_, exec_transientTimeout_queued hl hr ht hs hf, ?_⟩
    rw [tokAt_setTok_self]
    exact ⟨rfl, mem_insReq _ _, rfl⟩
  case activate =>
    refine ⟨_, exec_persistentActivate hl ha hq, ?_⟩
    have keeps := keepsTokens_foldl (fun s d hd => keepsTokens_forwardActive s line (mem_dies hd))
      (setTok s line { tokAt s line with active := some q, queue := rest })
    rw [keeps.active, keeps.queue, keeps.total, tokAt_setTok_self]
    exact ⟨rfl, rfl, tokTotal_setTok rfl⟩
  case snoop =>
    refine ⟨_, exec_cxlCacheSnoop true hl hk hp, ?_⟩
    rw [if_pos rfl]
    generalize Reply.ok _ = reply
    exact ⟨rfl, fun b hb => (perfByte_withReply reply b).trans (perfByte_freeLine hb), rfl⟩

end Sys2Proof.Machine
end

section
/-! PROOF. The vertical bus, the bank, links and start-up (01 R28 to R34, R45 to R48, 02 R87 to R90, 06 R240): what an event of the bus
or of the bank's ECC leaves of its column, and the outcomes of a beat and of a repair one by one. -/

namespace Sys2Proof.Machine

variable {s t u : State} {c g : Nat} {down : Bool} {bs : List Nat}

/-! ### A column read back -/

@[simp] theorem colAt_setCol_self (s : State) (c : Nat) (x : Column) : colAt (setCol s c x) c = x := by
  rw [colAt_setCol, if_pos rfl]

@[simp] theorem colAt_modCol_self (s : State) (c : Nat) (f : Column → Column) : colAt (modCol s c f) c = f (colAt s c) :=
  colAt_setCol_self ..

@[simp] theorem colAt_logPost (s : State) (source cls code : Nat) (data : BitVec 128) (c : Nat) :
    colAt (logPost s source cls code data) c = colAt s c := rfl

@[simp] theorem busOf_setBus_self (s : State) (c : Nat) (down : Bool) (v : VBus) : busOf (setBus s c down v) c down = v := by
  cases down <;> simp [busOf, setBus]

@[simp] theorem setBus_held (s : State) (c : Nat) (down : Bool) (v : VBus) : (colAt (setBus s c down v) c).held = (colAt s c).held := by
  cases down <;> simp [setBus]

@[simp] theorem setBus_rmw (s : State) (c : Nat) (down : Bool) (v : VBus) : (colAt (setBus s c down v) c).rmw = (colAt s c).rmw := by
  cases down <;> simp [setBus]

/-! ### Events -/

/-- `t` is `s` but for the log of column `c`'s vertical bus: of the column nothing else changes, and memory does not. -/
def BusLogged (c : Nat) (s t : State) : Prop := t.mem = s.mem ∧ ∃ log, colAt t c = { colAt s c with vbusLog := log }

theorem BusLogged.refl (c : Nat) (s : State) : BusLogged c s s := ⟨rfl, _, rfl⟩

theorem BusLogged.trans (h : BusLogged c s t) (k : BusLogged c t u) : BusLogged c s u := by
  obtain ⟨hm, _, hc⟩ := h
  obtain ⟨km, log, kc⟩ := k
  exact ⟨km.trans hm, log, by rw [kc, hc]⟩

theorem BusLogged.busOf_eq (h : BusLogged c s t) (down : Bool) : busOf t c down = busOf s c down := by
  obtain ⟨_, log, hc⟩ := h
  unfold busOf
  rw [hc]

theorem busLogged_setCol (s : State) (c : Nat) (log : BitVec 128) : BusLogged c s (setCol s c { colAt s c with vbusLog := log }) :=
  ⟨rfl, log, colAt_setCol_self ..⟩

theorem busLogged_countParity (s : State) (c : Nat) : BusLogged c s (countParity s c) := busLogged_setCol ..

theorem busLogged_logPost (s : State) (c source cls code : Nat) (data : BitVec 128) : BusLogged c s (logPost s source cls code data) :=
  ⟨rfl, _, rfl⟩

theorem busLogged_postVbus (s : State) (c : Nat) (down : Bool) (kind g lane attempts spare : Nat) :
    BusLogged c s (postVbus s c down kind g lane attempts spare) := by
  unfold postVbus
  dsimp only
  split
  · exact (busLogged_setCol ..).trans (busLogged_logPost ..)
  · split
    · exact (busLogged_setCol ..).trans (busLogged_logPost ..)
    · exact busLogged_setCol ..

theorem busLogged_noteBad (s : State) (c : Nat) (down : Bool) (bs : List Nat) (fails : Tab Nat) :
    BusLogged c s (noteBad s c down bs fails) :=
  List.foldlRecOn (motive := BusLogged c s) _ _ (busLogged_countParity s c) (fun _ h _ _ => h.trans (busLogged_postVbus ..))

/-! ### Failure counts -/

theorem tget_bump (fails : Tab Nat) (bs : List Nat) (n : Nat) : tget 0 (bump fails bs) n = if n ∈ bs then tget 0 fails n + 1 else 0 :=
  tget_foldl_tput 0 (fun n => tget 0 fails n + 1) bs [] n

/-- The groups that fail a third time are the bad ones that have failed twice. -/
theorem filter_bump (fails : Tab Nat) (bs : List Nat) :
    bs.filter (fun g => decide (3 ≤ tget 0 (bump fails bs) g)) = bs.filter (fun g => decide (2 ≤ tget 0 fails g)) :=
  List.filter_congr (fun g hg => by simp [tget_bump, hg])

/-! ### Beats -/

/-- The state after a failed beat is counted, before its consequence. -/
def beatCounted (s : State) (c : Nat) (down : Bool) (bs : List Nat) : State :=
  noteBad (setBus s c down { busOf s c down with
    fails := bump (busOf s c down).fails bs, retries := (busOf s c down).retries + 1 }) c down bs (bump (busOf s c down).fails bs)

/-- The attempts of the beat's lowest bad group. -/
def beatAttempts (s : State) (c : Nat) (down : Bool) (bs : List Nat) : Nat :=
  natMin (tget 0 (bump (busOf s c down).fails bs) (bs.headD 0)) 3

theorem busLogged_beatCounted (s : State) (c : Nat) (down : Bool) (bs : List Nat) :
    BusLogged c (setBus s c down { busOf s c down with
      fails := bump (busOf s c down).fails bs, retries := (busOf s c down).retries + 1 }) (beatCounted s c down bs) :=
  busLogged_noteBad ..

theorem busOf_beatCounted (s : State) (c : Nat) (down : Bool) (bs : List Nat) :
    busOf (beatCounted s c down bs) c down = { busOf s c down with
      fails := bump (busOf s c down).fails bs, retries := (busOf s c down).retries + 1 } :=
  ((busLogged_beatCounted s c down bs).busOf_eq down).trans (busOf_setBus_self ..)

theorem plainBeat_good (h : bs = []) :
    plainBeat s c down bs = serveHeld (setBus s c down { busOf s c down with fails := [], retries := 0, newMap := false }) c := by
  simp [plainBeat, h]

theorem beatCounted_held (s : State) (c : Nat) (down : Bool) (bs : List Nat) :
    (colAt (beatCounted s c down bs) c).held = (colAt s c).held := by
  obtain ⟨_, log, hc⟩ := busLogged_beatCounted s c down bs
  rw [hc]
  exact setBus_held ..

theorem beatCounted_rmw (s : State) (c : Nat) (down : Bool) (bs : List Nat) :
    (colAt (beatCounted s c down bs) c).rmw = (colAt s c).rmw := by
  obtain ⟨_, log, hc⟩ := busLogged_beatCounted s c down bs
  rw [hc]
  exact setBus_rmw ..

theorem beatCounted_mem (s : State) (c : Nat) (down : Bool) (bs : List Nat) : (beatCounted s c down bs).mem = s.mem :=
  (busLogged_beatCounted s c down bs).1

/-- What a failed beat leads to, in the order of the checks. -/
theorem plainBeat_bad (h : bs ≠ []) :
    plainBeat s c down bs =
      (if (busOf s c down).newMap = true ∧ 2 ≤ (busOf s c down).retries then
        busFail (beatCounted s c down bs) c down (bs.headD 0) (beatAttempts s c down bs)
      else if bs.filter (fun g => decide (2 ≤ tget 0 (busOf s c down).fails g)) ≠ [] then
        requeueRmw (setBus (beatCounted s c down bs) c down { busOf (beatCounted s c down bs) c down with
          repair := bs.filter (fun g => decide (2 ≤ tget 0 (busOf s c down).fails g)) }) c
      else if 3 ≤ (busOf s c down).retries then busFail (beatCounted s c down bs) c down (bs.headD 0) (beatAttempts s c down bs)
      else beatCounted s c down bs) := by
  unfold plainBeat
  simp only [List.isEmpty_iff, h, if_false, filter_bump, Bool.and_eq_true, decide_eq_true_eq, Bool.not_eq_true', List.isEmpty_eq_false_iff,
    Nat.reduceLeDiff]
  rfl

/-- A group's third failure begins its repair (01 R28). -/
theorem plainBeat_repairs (h : bs ≠ []) (h3 : bs.filter (fun g => decide (2 ≤ tget 0 (busOf s c down).fails g)) ≠ [])
    (hn : (busOf s c down).newMap = false ∨ (busOf s c down).retries < 2) :
    plainBeat s c down bs = requeueRmw (setBus (beatCounted s c down bs) c down { busOf (beatCounted s c down bs) c down with
      repair := bs.filter (fun g => decide (2 ≤ tget 0 (busOf s c down).fails g)) }) c := by
  have hmap : ¬ ((busOf s c down).newMap = true ∧ 2 ≤ (busOf s c down).retries) := by
    rcases hn with hn | hn <;> simp [hn]
  rw [plainBeat_bad h, if_neg hmap, if_pos h3]

/-- The third failure on a new lane map, or a fourth beat in succession, makes the direction FAILED (01 R31). -/
theorem plainBeat_fails (h : bs ≠ []) (hf : (busOf s c down).newMap = true ∧ 2 ≤ (busOf s c down).retries ∨
      bs.filter (fun g => decide (2 ≤ tget 0 (busOf s c down).fails g)) = [] ∧ 3 ≤ (busOf s c down).retries) :
    plainBeat s c down bs = busFail (beatCounted s c down bs) c down (bs.headD 0) (beatAttempts s c down bs) := by
  rw [plainBeat_bad h]
  split
  · rfl
  next hmap =>
    obtain ⟨h3, h4⟩ := hf.resolve_left hmap
    rw [if_neg (not_not.2 h3), if_pos h4]

/-- Any other failed beat is sent again (01 R28). -/
theorem plainBeat_again (h : bs ≠ []) (hn : (busOf s c down).newMap = false) (hr : (busOf s c down).retries < 3)
    (h2 : ∀ g ∈ bs, tget 0 (busOf s c down).fails g < 2) : plainBeat s c down bs = beatCounted s c down bs := by
  have h3 : bs.filter (fun g => decide (2 ≤ tget 0 (busOf s c down).fails g)) = [] := by
    simpa [List.filter_eq_nil_iff] using h2
  rw [plainBeat_bad h, if_neg (by simp [hn]), if_neg (not_not.2 h3), if_neg (Nat.not_le.2 hr)]

/-- A direction that becomes FAILED holds nothing back: the unit's writes are gone, and the held requests go on (01 R31). -/
theorem busFail_serves (s : State) (c : Nat) (down : Bool) (g attempts : Nat) :
    ∃ t, busFail s c down g attempts = serveHeld t c ∧ (busOf t c down).failed = true ∧ (busOf t c down).repair = [] ∧
      (colAt t c).rmw = [] ∧ (colAt t c).late = [] ∧ t.mem = s.mem := by
  have logged := busLogged_postVbus (modCol (setBus s c down { busOf s c down with failed := true, repair := [] }) c
    (fun k => { k with rmw := [], late := [] })) c down 2 g 0 attempts 0
  have hbus : busOf (modCol (setBus s c down { busOf s c down with failed := true, repair := [] }) c
      (fun k => { k with rmw := [], late := [] })) c down = { busOf s c down with failed := true, repair := [] } := by
    cases down <;> simp [busOf, setBus]
  refine ⟨_, rfl, ?_⟩
  rw [logged.busOf_eq, hbus]
  obtain ⟨hm, log, hc⟩ := logged
  rw [hc, colAt_modCol_self]
  exact ⟨rfl, rfl, rfl, rfl, hm⟩

/-- A repair that starts orders the held requests anew and drops none (01 R29). -/
theorem requeueRmw_held (s : State) (c : Nat) : (colAt (requeueRmw s c) c).held.Perm (colAt s c).held := by
  unfold requeueRmw
  rw [colAt_modCol_self]
  exact List.filter_append_perm _ _

theorem requeueRmw_rmw (s : State) (c : Nat) : (colAt (requeueRmw s c) c).rmw = (colAt s c).rmw := by simp [requeueRmw]

theorem busOf_requeueRmw (s : State) (c : Nat) (down : Bool) : busOf (requeueRmw s c) c down = busOf s c down := by
  cases down <;> simp [busOf, requeueRmw]

theorem busOf_repairStarted (s : State) (c : Nat) (down : Bool) (v : VBus) : busOf (requeueRmw (setBus s c down v) c) c down = v :=
  (busOf_requeueRmw ..).trans (busOf_setBus_self ..)

theorem repairStarted_held (s : State) (c : Nat) (down : Bool) (v : VBus) :
    (colAt (requeueRmw (setBus s c down v) c) c).held.Perm (colAt s c).held :=
  (requeueRmw_held ..).trans (.of_eq (setBus_held ..))

theorem repairStarted_rmw (s : State) (c : Nat) (down : Bool) (v : VBus) :
    (colAt (requeueRmw (setBus s c down v) c) c).rmw = (colAt s c).rmw :=
  (requeueRmw_rmw ..).trans (setBus_rmw ..)

/-! ### Beats in a repair -/

theorem drainBeat_of_nil (h : (colAt s c).rmw = []) : drainBeat s c bs = s := by simp [drainBeat, h]

theorem drainBeat_good {w : BankWrite} {ws : List BankWrite} (h : (colAt s c).rmw = w :: ws) (hb : bs = []) :
    drainBeat s c bs = bankPut (setCol s c { colAt s c with rmw := ws, up := { (colAt s c).up with drainFails := [] } }) c
      w.line w.data w.mask := by
  simp [drainBeat, h, hb]

/-- After its third failure a drain write is put off. -/
theorem drainBeat_third {w : BankWrite} {ws : List BankWrite} (h : (colAt s c).rmw = w :: ws)
    (hb : ∃ g ∈ bs, 2 ≤ tget 0 (colAt s c).up.drainFails g) :
    (drainBeat s c bs).mem = s.mem ∧ ∃ log, colAt (drainBeat s c bs) c = { colAt s c with
      vbusLog := log, rmw := ws, late := (colAt s c).late ++ [w], up := { (colAt s c).up with drainFails := [] } } := by
  obtain ⟨g, hg, hf⟩ := hb
  have hne : bs.isEmpty = false := List.isEmpty_eq_false_iff.2 (List.ne_nil_of_mem hg)
  have hthird : bs.any (fun g => decide (3 ≤ tget 0 (bump (colAt s c).up.drainFails bs) g)) = true :=
    List.any_eq_true.2 ⟨g, hg, by simp [tget_bump, hg, hf]⟩
  have hbeat : drainBeat s c bs = modCol (noteBad s c false bs (bump (colAt s c).up.drainFails bs)) c
      (fun k => { k with rmw := ws, late := k.late ++ [w], up := { k.up with drainFails := [] } }) := by
    simp [drainBeat, h, hne, hthird]
  obtain ⟨hm, log, hc⟩ := busLogged_noteBad s c false bs (bump (colAt s c).up.drainFails bs)
  exact ⟨by rw [hbeat]; exact hm, log, by rw [hbeat, colAt_modCol_self, hc]⟩

/-- Before its third failure it is sent again. -/
theorem drainBeat_again {w : BankWrite} {ws : List BankWrite} (h : (colAt s c).rmw = w :: ws) (hne : bs ≠ [])
    (hb : ∀ g ∈ bs, tget 0 (colAt s c).up.drainFails g < 2) :
    (drainBeat s c bs).mem = s.mem ∧ ∃ log, colAt (drainBeat s c bs) c = { colAt s c with
      vbusLog := log, up := { (colAt s c).up with drainFails := bump (colAt s c).up.drainFails bs } } := by
  have hthird : bs.any (fun g => decide (3 ≤ tget 0 (bump (colAt s c).up.drainFails bs) g)) = false := by
    rw [List.any_eq_false]
    intro g hg
    have := hb g hg
    simp [tget_bump, hg]
    omega
  have hbeat : drainBeat s c bs = modCol (noteBad s c false bs (bump (colAt s c).up.drainFails bs)) c
      (fun k => { k with up := { k.up with drainFails := bump (colAt s c).up.drainFails bs } }) := by
    simp [drainBeat, h, List.isEmpty_eq_false_iff.2 hne, hthird]
  obtain ⟨hm, log, hc⟩ := busLogged_noteBad s c false bs (bump (colAt s c).up.drainFails bs)
  exact ⟨by rw [hbeat]; exact hm, log, by rw [hbeat, colAt_modCol_self, hc]⟩

/-! ### The steps of the bus -/

theorem exec_vbusBeat_plain {col : Fin 64} {dir : VDir} (bad : List Nat) (hf : (busOf s col.val (dir == .down)).failed = false)
    (he : s.emerg = none) (hr : (busOf s col.val (dir == .down)).repair = []) (hd : (dir == .down) = true ∨ repairing s col.val = false)
    (ht : plainBeat s col.val (dir == .down) (badGroups (dir == .down) bad) = t) : exec (.vbusBeat col dir bad) s = .next t := by
  have hdrain : (!(dir == .down) && repairing s col.val) = false := by
    rcases hd with hd | hd <;> simp [hd]
  change execVbusBeat col dir bad s = _
  simp [execVbusBeat, hf, he, hr, hdrain, ht]

theorem exec_vbusBeat_drain {col : Fin 64} {dir : VDir} (bad : List Nat) (hf : (busOf s col.val (dir == .down)).failed = false)
    (he : s.emerg = none) (hd : dir = .up) (hr : repairing s col.val = true)
    (ht : drainBeat s col.val (badGroups (dir == .down) bad) = t) : exec (.vbusBeat col dir bad) s = .next t := by
  subst hd ht
  change execVbusBeat col .up bad s = _
  simp [execVbusBeat, hf, he, hr]

/-- A repair that finds one lane, whose spare is free, swaps it in. -/
theorem exec_vbusRepair_swap {col : Fin 64} {dir : VDir} {lane : Nat} (hg : (busOf s col.val (dir == .down)).repair.head? = some g)
    (he : s.emerg = none) (hw : (colAt s col.val).rmw = []) (hl : lane ≤ 16)
    (hs : spareOf g ∉ (busOf s col.val (dir == .down)).spares) :
    exec (.vbusRepair col dir g [lane]) s = .next (serveHeld (postVbus (setBus s col.val (dir == .down)
      { busOf s col.val (dir == .down) with
        fails := tput 0 (busOf s col.val (dir == .down)).fails g 0
        spares := (busOf s col.val (dir == .down)).spares ++ [spareOf g]
        swapped := (busOf s col.val (dir == .down)).swapped ++ [(g, lane)]
        repair := (busOf s col.val (dir == .down)).repair.tail, newMap := true, retries := 0 })
      col.val (dir == .down) 1 g lane 3 (spareOf g)) col.val) := by
  change execVbusRepair col dir g [lane] s = _
  simp [execVbusRepair, hg, he, hw, hs, Nat.not_lt.2 hl]

/-- Any other finding makes the direction FAILED. -/
theorem exec_vbusRepair_fail {col : Fin 64} {dir : VDir} {found : List Nat}
    (hg : (busOf s col.val (dir == .down)).repair.head? = some g) (he : s.emerg = none) (hw : (colAt s col.val).rmw = [])
    (hs : found.length ≠ 1 ∨ spareOf g ∈ (busOf s col.val (dir == .down)).spares)
    (ht : busFail s col.val (dir == .down) g 3 = t) : exec (.vbusRepair col dir g found) s = .next t := by
  subst ht
  change execVbusRepair col dir g found s = _
  unfold execVbusRepair
  match found with
  | [] => simp [hg, he, hw]
  | [lane] => simp [hg, he, hw, hs.resolve_left (fun h => h rfl)]
  | _ :: _ :: _ => simp [hg, he, hw]

/-- A repair waits for the drain writes. -/
theorem exec_vbusRepair_wait {col : Fin 64} {dir : VDir} {found : List Nat} (hw : (colAt s col.val).rmw ≠ []) :
    exec (.vbusRepair col dir g found) s = .next s := by
  change execVbusRepair col dir g found s = _
  simp [execVbusRepair, hw]

/-! ### The bank -/

/-- A read that is held and is not the read of the beat to be sent again joins the queue at its end, unless it stands there. -/
theorem holdReq_read_queued {line : Nat} (hb : (colAt s c).beat ≠ some line)
    (hq : (∃ y, (colAt s c).beat = some y) ∨ (colAt s c).down.again = false ∨ repairing s c = true) :
    .read line ∈ (colAt (holdReq s c (.read line)) c).held ∧ (colAt s c).held <+: (colAt (holdReq s c (.read line)) c).held := by
  have hbeat : ((colAt s c).beat == some line) = false := by simpa using hb
  have hnew : ((colAt s c).beat.isNone && (colAt s c).down.again && !repairing s c) = false := by
    rcases hq with ⟨y, h⟩ | h | h <;> simp [h]
  unfold holdReq
  simp only [hbeat, hnew, Bool.or_false, Bool.false_eq_true, if_false]
  split
  next hmem => exact ⟨by simpa using hmem, List.prefix_refl _⟩
  next =>
    rw [colAt_setCol_self]
    exact ⟨List.mem_append_right _ (List.mem_singleton_self _), List.prefix_append ..⟩

/-- The first read that meets a beat of the down direction which is to be sent again is the read of that beat (01 R28). -/
theorem holdReq_read_beat {line : Nat} (hm : .read line ∉ (colAt s c).held) (hb : (colAt s c).beat = none)
    (ha : (colAt s c).down.again = true) (hr : repairing s c = false) :
    (colAt (holdReq s c (.read line)) c).beat = some line := by
  simp [holdReq, hm, hb, ha, hr]

/-- Bytes that a mask leaves out do not count in a merge. -/
theorem lineMerge_congr {old a b : BitVec 1024} {m : BitVec 128} (h : ∀ k, k < 128 → m.getLsbD k = true → lineByte a k = lineByte b k) :
    lineMerge old a m = lineMerge old b m := by
  refine List.foldl_ext _ _ old (fun d k hk => ?_)
  split
  next hm => rw [h k (List.mem_range.1 hk) hm]
  next => rfl

/-- `t` is `s` but for the bank's errors and its log on column `c`: no byte, no clutch and nothing else of the column changes. -/
def EccLogged (c : Nat) (s t : State) : Prop :=
  t.mem = s.mem ∧ t.clutches = s.clutches ∧ ∃ log, colAt t c = { colAt s c with eccLog := log }

theorem EccLogged.refl (c : Nat) (s : State) : EccLogged c s s := ⟨rfl, rfl, _, rfl⟩

theorem EccLogged.trans (h : EccLogged c s t) (k : EccLogged c t u) : EccLogged c s u := by
  obtain ⟨hm, hl, _, hc⟩ := h
  obtain ⟨km, kl, log, kc⟩ := k
  exact ⟨km.trans hm, kl.trans hl, log, by rw [kc, hc]⟩

theorem eccLogged_postEcc (s : State) (c : Nat) (ue scrub : Bool) (bo word bit : Nat) :
    EccLogged c s (postEcc s c ue scrub bo word bit) := by
  unfold postEcc
  dsimp only
  split
  · exact ⟨rfl, rfl, _, (colAt_logPost ..).trans (colAt_setCol_self ..)⟩
  · exact ⟨rfl, rfl, _, colAt_setCol_self ..⟩

theorem EccLogged.withBankErr (h : EccLogged c s t) (e : Tab (List Nat)) : EccLogged c s { t with bankErr := e } := h

theorem eccLogged_bankReadLine (s : State) (c line : Nat) (scrub : Bool) : EccLogged c s (bankReadLine s c line scrub).1 := by
  unfold bankReadLine
  dsimp only
  split
  · exact .refl c s
  · split
    · exact .refl c s
    · refine List.foldlRecOn (motive := fun p : State × Bool => EccLogged c s p.1) _ _ (.refl c s) (fun p hp i _ => ?_)
      split
      · exact hp
      · exact (hp.trans (eccLogged_postEcc ..)).withBankErr _
      · exact hp.trans (eccLogged_postEcc ..)

theorem exec_bankRead_idle {col : Fin 64} {bo : Nat} (hb : bo < 0x100000000) (he : s.emerg = none)
    (hu : unitIdle s col.val ((bankBase + col.val * 0x100000000 + bo) / 128) = true) :
    exec (.bankRead col bo) s = .next (bankReadLine s col.val ((bankBase + col.val * 0x100000000 + bo) / 128) false).1 := by
  change execBankRead col bo s = _
  simp [execBankRead, gib, hu, he, Nat.not_le.2 hb]

theorem exec_bankRead_held {col : Fin 64} {bo : Nat} (hb : bo < 0x100000000) (he : s.emerg = none)
    (hu : unitIdle s col.val ((bankBase + col.val * 0x100000000 + bo) / 128) = false) :
    exec (.bankRead col bo) s = .next (holdReq s col.val (.read ((bankBase + col.val * 0x100000000 + bo) / 128))) := by
  change execBankRead col bo s = _
  simp [execBankRead, gib, hu, he, Nat.not_le.2 hb]

/-- A write-back of the bytes that the slice holds: at once, with its read before its write, or held. -/
theorem exec_bankPartialWrite {col : Fin 64} {bo line : Nat} {data : BitVec 1024} {mask : BitVec 128} {y : SliceLine}
    (hline : line = (bankBase + col.val * 0x100000000 + bo) / 128) (hb : bo < 0x100000000) (he : s.emerg = none)
    (hy : tget none (colAt s col.val).slice line = some y) (hm : mask = y.mask)
    (hd : ∀ k, k < 128 → mask.getLsbD k = true → lineByte data k = lineByte y.data k) :
    exec (.bankPartialWrite col bo data mask) s = .next (
      if unitIdle s col.val line then sliceDrop s line
      else if isPartial y.mask && unitReads s col.val line then
        modCol (setSlice (bankCheckOld s col.val line y.mask) col.val line none) col.val
          (fun k => { k with rmw := k.rmw ++ [{ line := line, data := y.data, mask := y.mask }] })
      else holdReq s col.val (.writeBack line)) := by
  subst hline hm
  change execBankPartialWrite col bo data y.mask s = _
  have hgib : 4 * gib = 0x100000000 := rfl
  simp only [execBankPartialWrite, hgib, hy, he, lineMerge_congr hd, Nat.not_le.2 hb, Option.isSome_none, Bool.false_eq_true, ne_eq,
    not_true_eq_false, or_self, if_false]
  split
  · rfl
  · split <;> rfl

theorem exec_patrolScrub {col : Fin 64} (hp : (colAt s col.val).period ≠ 0) (he : s.emerg = none) (hb : bankBusy s col.val = false) :
    exec (.patrolScrub col) s = .next (modCol
      (bankReadLine s col.val (bankBase / 128 + col.val * (4 * gib / 128) + (colAt s col.val).scrubPos) true).1 col.val
      (fun k => { k with scrubPos := (k.scrubPos + 1) % (4 * gib / 128) })) := by
  change execPatrolScrub col s = _
  unfold execPatrolScrub
  exact if_neg (not_or.2 ⟨hp, by simp [he, hb]⟩)

end Sys2Proof.Machine
end

section
/-! PROOF. Links and start-up (01 R45 to R48, 02 R87 to R90, 06 R240), and O53. -/

namespace Sys2Proof.Machine

variable {s : State} {l : LinkId} {a : WidthAgent} {w : Nat} {src way : ImageSource} {img : Image}

/-! ### Links -/

@[simp] theorem linkAt_setLink_self (s : State) (l : LinkId) (x : Link) : linkAt (setLink s l x) l = x := by
  cases l <;> simp [linkAt, setLink]

@[simp] theorem linkAt_linkLog (s : State) (l k : LinkId) (code w1 w2 : Nat) : linkAt (linkLog s k code w1 w2) l = linkAt s l := by
  cases l <;> rfl

/-- A request that the link can meet, with no change under way, starts. -/
theorem exec_widthChangeRequest (hl : (linkAt s l).lost = false) (hw : w = 4 ∨ w = 2 ∨ w = 1)
    (hu : a = .linkLayer ∨ w ≤ (linkAt s l).usable) (hp : (linkAt s l).pending = none) :
    exec (.widthChangeRequest l a w) s = .next (setLink s l { linkAt s l with pending := some (a, w) }) := by
  have hwidth : (decide (w = 4) || decide (w = 2) || decide (w = 1)) = true := by
    rcases hw with rfl | rfl | rfl <;> rfl
  have hmet : widthRefused (linkAt s l) a w = false := by
    rcases hu with rfl | hu
    · rfl
    · simp [widthRefused, Nat.not_lt.2 hu]
  change execWidthChangeRequest l a w s = _
  unfold execWidthChangeRequest
  dsimp only
  rw [hl, hwidth, hmet, hp]
  rfl

/-- A change that ends with the link alive, and no request behind it, leaves the link at its new width. -/
theorem linkAt_widthChange {o : Retrain} (hp : (linkAt s l).pending = some (a, w)) (hn : (linkAt s l).next = []) (ho : o ≠ .lost) :
    ∃ t, exec (.widthChange l o) s = .next t ∧ linkAt t l = { linkAt s l with
      width := if o == .atRequested then w else 1
      usable := if isRepair a then natMin (linkAt s l).usable w else (linkAt s l).usable, pending := none } := by
  change ∃ t, execWidthChange l o s = _ ∧ _
  unfold execWidthChange
  dsimp only
  rw [hp, hn]
  cases o with
  | lost => exact absurd rfl ho
  | atRequested => exact ⟨_, rfl, by simp [startWidth]⟩
  | atNarrowest => exact ⟨_, rfl, by simp [startWidth]⟩

/-! ### Reset, images, SPDM -/

/-- Blocks that become free leave what flash holds, its versions and its map. -/
structure FlashKept (s t : State) : Prop where
  flash : t.weights.flash = s.weights.flash
  ver : t.weights.ver = s.weights.ver
  mapped : t.weights.mapped = s.weights.mapped

theorem FlashKept.refl (s : State) : FlashKept s s := ⟨rfl, rfl, rfl⟩

theorem flashKept_freeUnits {t : State} (h : FlashKept s t) (us : List Nat) : FlashKept s (us.foldl freeUnit t) :=
  List.foldlRecOn us freeUnit (motive := FlashKept s) h (fun _ h _ _ => ⟨h.flash, h.ver, h.mapped⟩)

theorem flashKept_settleInstalls (s : State) : FlashKept s (settleInstalls s) :=
  List.foldlRecOn (motive := FlashKept s) _ _ (.refl s) (fun _ h _ _ => flashKept_freeUnits h _)

theorem readSensors_mgmt (s : State) : (readSensors s).mgmt = s.mgmt := by
  unfold readSensors
  dsimp only
  exact List.foldlRecOn (motive := fun t : State => t.mgmt = s.mgmt) _ _ rfl (fun _ h _ _ => h)

theorem exec_firmwareImage_opens (hb : s.boot = .rom) (hs : s.bootSrc = none) :
    exec (.firmwareImage src img) s = .next { s with bootSrc := some src, reply := .ok [] } := by
  change execFirmwareImage src img s = _
  simp [execFirmwareImage, hb, hs]

theorem exec_firmwareImage_rejected {r : Nat} (hb : s.boot = .rom) (hs : s.bootSrc = some src) (hr : imageReason img = some r) :
    exec (.firmwareImage src img) s = .next
      (logPost { s with bootSrc := none, reply := .error 3 } 0 6 0x51 (Config.logData 0x51 [sourceNo src, r])) := by
  change execFirmwareImage src img s = _
  simp [execFirmwareImage, hb, hs, hr]

theorem exec_firmwareImage_accepted (hb : s.boot = .rom) (hs : s.bootSrc = some src) (hr : imageReason img = none) :
    exec (.firmwareImage src img) s = .next
      { readSensors (logPost s 0 6 0x50 (Config.logData 0x50 [sourceNo src, 0])) with
        boot := .running, bootSrc := none, image := some img.digest, reply := .ok [] } := by
  change execFirmwareImage src img s = _
  simp [execFirmwareImage, hb, hs, hr]

/-- The end of a transfer logs the verdict, and runs the firmware where the image is accepted. -/
theorem exec_firmwareImage_judged (hb : s.boot = .rom) (hs : s.bootSrc = some src) :
    ∃ t, exec (.firmwareImage src img) s = .next t ∧ t.bootSrc = none ∧ t.mgmt.tail = s.mgmt.tail + 1 ∧
      t.boot = (if imageReason img = none then .running else .rom) := by
  cases hr : imageReason img with
  | some r => exact ⟨_, exec_firmwareImage_rejected hb hs hr, rfl, rfl, hb⟩
  | none =>
    refine ⟨_, exec_firmwareImage_accepted hb hs hr, rfl, ?_, rfl⟩
    exact congrArg Mgmt.tail (readSensors_mgmt (logPost s 0 6 0x50 (Config.logData 0x50 [sourceNo src, 0])))

/-- What the responder answers (02 R90). -/
def spdmAnswer (s : State) : SpdmMeasure → List Byte
  | .certificates => Config.spdmCerts s.image
  | .bootRom => Config.spdmFixed 1
  | .firmware => match s.image with | some d => leBytes 64 d.toNat | none => Config.spdmFixed 2
  | .fuses => Config.spdmFixed 3
  | .partition => partitionBytes s

theorem exec_spdmRequest {m : SpdmMeasure} (hw : wayOpen s way = true) :
    exec (.spdmRequest { way, what := m }) s = .next { s with reply := .ok (spdmAnswer s m) } := by
  change execSpdmRequest _ s = _
  unfold execSpdmRequest
  rw [hw]
  cases m <;> rfl

theorem spdmAnswer_firmware {d : BitVec 512} (h : s.image = some d) : spdmAnswer s .firmware = leBytes 64 d.toNat := by
  simp [spdmAnswer, h]

/-- Settles O53: the outcomes of a beat (`plainBeat_bad`, `drainBeat_third`, `drainBeat_again`), of a repair, and of the other steps. -/
theorem deviceStepsRun : Obligations.DeviceStepsRun := by
  unfold Obligations.DeviceStepsRun
  intro s col dir bad found g lane bo w data mask l a src way img m wr wrs down v x c bs plain third
  refine ⟨fun ⟨hf, he, hr, hd⟩ hbs => exec_vbusBeat_plain bad hf he hr hd (plainBeat_good hbs),
    fun ⟨hf, he, hr, hd⟩ hbs h3 hn => ?repair,
    fun ⟨hf, he, hr, hd⟩ hbs hn => ?fails,
    fun hf he hd hr => ⟨fun hw => exec_vbusBeat_drain bad hf he hd hr (drainBeat_of_nil hw),
      fun hw hbs => exec_vbusBeat_drain bad hf he hd hr (drainBeat_good hw hbs),
      fun hw hg => ?putOff, fun hw hbs hg => ?drainAgain⟩,
    fun ⟨hf, he, hr, hd⟩ hbs hn hretry hg => ?again,
    fun hg he hw hl hs => ?swap,
    fun hg he hw hs => ?noSwap,
    fun _ hw => exec_vbusRepair_wait hw,
    fun hbo he => ⟨fun hu => exec_bankRead_idle hbo he hu,
      fun hu => ⟨exec_bankRead_held hbo he hu, fun hb hq => holdReq_read_queued hb hq,
        fun hm hb ha hr => holdReq_read_beat hm hb ha hr⟩,
      fun y hy hm hd => ?partialWrite⟩,
    fun hp he hb => ?scrub,
    fun hl hw hu hp => exec_widthChangeRequest hl hw hu hp,
    fun hp hn => ⟨?asked, ?narrowest⟩,
    ?reset, ?loss,
    fun hb hs => exec_firmwareImage_opens hb hs,
    fun hb hs => exec_firmwareImage_judged hb hs,
    fun hw => ?spdm⟩
  case repair =>
    refine ⟨_, exec_vbusBeat_plain bad hf he hr hd (plainBeat_repairs hbs h3 hn), ?_⟩
    rw [busOf_repairStarted, repairStarted_rmw, busOf_beatCounted, beatCounted_rmw]
    exact ⟨rfl, hf, beatCounted_held s col.val down bs ▸ repairStarted_held .., rfl, beatCounted_mem ..⟩
  case fails =>
    obtain ⟨t, ht, hfailed, hrepair, hrmw, hlate, hmem⟩ :=
      busFail_serves (beatCounted s col.val down bs) col.val down (bs.headD 0) (beatAttempts s col.val down bs)
    exact ⟨t, exec_vbusBeat_plain bad hf he hr hd ((plainBeat_fails hbs hn).trans ht),
      hfailed, hrepair, hrmw, hlate, hmem.trans (beatCounted_mem ..)⟩
  case putOff =>
    refine ⟨_, exec_vbusBeat_drain bad hf he hd hr rfl, ?_⟩
    obtain ⟨hmem, log, hcol⟩ := drainBeat_third hw hg
    subst hd
    change _ ∧ _ ∧ (colAt _ col.val).up.repair = _ ∧ (colAt _ col.val).up.failed = _ ∧ _
    rw [hcol]
    exact ⟨rfl, rfl, rfl, hf, hmem⟩
  case drainAgain =>
    refine ⟨_, exec_vbusBeat_drain bad hf he hd hr rfl, ?_⟩
    obtain ⟨hmem, log, hcol⟩ := drainBeat_again hw hbs hg
    rw [hcol]
    exact ⟨rfl, rfl, hmem, fun g hg => (tget_bump ..).trans (if_pos hg)⟩
  case again =>
    refine ⟨_, exec_vbusBeat_plain bad hf he hr hd (plainBeat_again hbs hn hretry hg), ?_⟩
    rw [busOf_beatCounted]
    exact ⟨rfl, hf, hr, fun g hg => (tget_bump ..).trans (if_pos hg)⟩
  case swap =>
    refine ⟨_, exec_vbusRepair_swap hg he hw hl hs, ?_⟩
    rw [(busLogged_postVbus ..).busOf_eq, busOf_setBus_self]
    exact ⟨rfl, rfl, rfl, rfl⟩
  case noSwap =>
    obtain ⟨t, ht, hfailed, hrepair, _, hlate, hmem⟩ := busFail_serves s col.val down g 3
    exact ⟨t, exec_vbusRepair_fail hg he hw hs ht, hfailed, hrepair, hlate, hmem⟩
  case partialWrite =>
    rw [exec_bankPartialWrite rfl hbo he hy hm hd]
    refine ⟨fun hu => by rw [if_pos hu], fun hu hpart hread => ?_, fun hu hwait => ?_⟩
    · rw [if_neg (by simp [hu]), if_pos (by simp [hpart, hread])]
    · rw [if_neg (by simp [hu]), if_neg (by rcases hwait with h | h <;> simp [h])]
  case scrub =>
    obtain ⟨hmem, hclutches, log, hcol⟩ :=
      eccLogged_bankReadLine s col.val (bankBase / 128 + col.val * (4 * gib / 128) + (colAt s col.val).scrubPos) true
    refine ⟨_, exec_patrolScrub hp he hb, ?_, hmem, hclutches⟩
    rw [colAt_modCol_self, hcol]
    rfl
  case asked =>
    obtain ⟨t, ht, hlink⟩ := linkAt_widthChange hp hn (o := .atRequested) (by decide)
    refine ⟨t, ht, by rw [hlink]; rfl, by rw [hlink], ?_⟩
    rw [hlink]
    cases a <;> rfl
  case narrowest =>
    obtain ⟨t, ht, hlink⟩ := linkAt_widthChange hp hn (o := .atNarrowest) (by decide)
    exact ⟨t, ht, by rw [hlink]; rfl, by rw [hlink]⟩
  case reset =>
    have kept := flashKept_settleInstalls s
    exact ⟨_, rfl, rfl, rfl, rfl, kept.flash, kept.ver, kept.mapped⟩
  case loss => exact ⟨_, rfl, rfl, rfl, (flashKept_settleInstalls s).flash⟩
  case spdm =>
    refine ⟨_, exec_spdmRequest hw, fun d hm hd => ?_, fun hm => by rw [hm]; rfl⟩
    rw [hm, spdmAnswer_firmware hd]

end Sys2Proof.Machine
end

section
/-! PROOF. Reset (02 R60 to R62, R79, R87; 03 R98; 04 R136; 05 R170, R198; 12 R450, R456, R460): what the parts of the machine read as
after it, and O54. -/

namespace Sys2Proof.Machine

/-! ### Device registers -/

@[simp] theorem colAt_reset (c : Nat) : colAt State.reset c = Column.reset := rfl
@[simp] theorem partAt_reset (p : Nat) : partAt State.reset p = Part.reset p := rfl

@[simp] theorem bits_zero (lo w : Nat) : bits 0 lo w = 0 := by simp [bits]

@[simp] theorem partOf_reset (c : Nat) : partOf State.reset c = 0 := bits_zero ..

/-- Every column belongs to partition 0, which is valid (02 R60). -/
@[simp] theorem assignedCol_reset (c : Nat) : assignedCol State.reset c = true := by
  unfold assignedCol
  rw [partOf_reset]
  rfl

/-- Full duty, open valve, no sensor value yet. -/
theorem govStatus_reset (c : Nat) (mgmt : Bool) : govStatus State.reset c mgmt = 255 * 2 ^ 24 := by
  unfold govStatus
  rw [assignedCol_reset, partOf_reset, colAt_reset, partAt_reset]
  cases mgmt <;> rfl

theorem tasksOn_reset (core : Nat) : tasksOn State.reset core = [] := rfl
theorem clutchesOn_reset (core : Nat) : clutchesOn State.reset core = [] := rfl
theorem seatsOn_reset (core : Nat) : seatsOn State.reset core = [] := rfl

/-- An idle core has its whole scratchpad free. -/
theorem spFreeMax_reset (core : Nat) : spFreeMax State.reset core = 0x200000 := by
  unfold spFreeMax spUsed
  rw [tasksOn_reset, seatsOn_reset]
  decide

theorem coreOcc_reset (core : Nat) : coreOcc State.reset core = 512 := by
  have hengines : leftEngines State.reset core = 0 := rfl
  simp [coreOcc, spFreeMax_reset, regionsUsed, enginesUsed, landedOn, tasksOn_reset, clutchesOn_reset, seatsOn_reset, hengines, sumBy]

theorem half_zero (hi : Bool) : (if hi then bits 0 64 64 else bits 0 0 64) = 0 := by cases hi <;> simp

theorem partCfg_reset (p : Fin 16) : (Part.reset p.val).cfg.toNat = if p = 0 then 0xFFFFFF0F else 0xFFFFFF0E := by
  by_cases h : p = 0
  · subst h; rfl
  · have hv : p.val ≠ 0 := fun e => h (Fin.ext e)
    simp [Part.reset, h, hv]

theorem regVal_govStatus (s : State) (r : Requester) (c : Nat) : regVal s r (.govStatus c) = govStatus s c (isMgmt r) := rfl
theorem regVal_coreOcc (s : State) (r : Requester) (c q : Nat) : regVal s r (.coreOcc c q) = coreOcc s (4 * c + q) := rfl

theorem capSeq_reset (r : Requester) : regVal State.reset r .capSeq / 2 ^ 32 = 0 := by
  change 0 / 2 ^ 32 = 0
  exact Nat.zero_div _

theorem corePgVal_reset (c : Nat) : corePgVal State.reset c = 0 := by
  unfold corePgVal
  rw [colAt_reset]
  decide

theorem promoCmd_reset (r : Requester) (t : Nat) (hi : Bool) : regVal State.reset r (.promoCmd t hi) = 0 := by
  have hpromo : promoAt State.reset t = Promo.zero := rfl
  unfold regVal
  dsimp only
  rw [hpromo]
  cases hi <;> decide

theorem lineStatus_zero : lineStatus Line.zero = 0 := rfl

theorem resetRegisters_reset : ResetRegisters State.reset := by
  intro r c p k line t q g hi
  dsimp only
  rw [regVal_govStatus, govStatus_reset, regVal_coreOcc, coreOcc_reset]
  exact ⟨rfl, rfl, rfl, rfl, partCfg_reset p, rfl, rfl, rfl, rfl, rfl, rfl, capSeq_reset r, rfl, rfl, rfl, half_zero hi,
    half_zero hi, rfl, rfl, corePgVal_reset c.val, promoCmd_reset r t.val hi, rfl, rfl, rfl, rfl, rfl, rfl, rfl, rfl, rfl,
    lineStatus_zero, half_zero hi, rfl⟩

/-! ### A host core -/

theorem isHost_hostClutch (c : Nat) : isHost (hostClutch c) = true := decide_eq_true (Nat.le_add_right 256 c)

theorem colOf_hostClutch (c : Nat) : colOf (hostClutch c).core = c := by simp [colOf, hostClutch]

theorem statusVal_hostClutch (c : Nat) : statusVal (hostClutch c) = 2 := by
  unfold statusVal
  rw [isHost_hostClutch]
  rfl

/-- Settles O54: the device registers (`resetRegisters_reset`), and the system registers of a host core's clutch. -/
theorem resetValues : Obligations.ResetValues := by
  unfold Obligations.ResetValues
  refine ⟨resetRegisters_reset, rfl, rfl, rfl, rfl, fun c n => ?_⟩
  have hclutch : clutchAt State.reset c.val = hostClutch c.val := if_pos c.isLt
  rw [hclutch]
  exact ⟨statusVal_hostClutch c.val, rfl, rfl, rfl, rfl, rfl, rfl, rfl, rfl, rfl, rfl, rfl, rfl, rfl, rfl, colOf_hostClutch c.val, rfl,
    isHost_hostClutch c.val⟩

end Sys2Proof.Machine
end

section
/-! PROOF. Drains of an L1 leave every column's `CORE_PG` as it is, and gating and ungating follow it (05 R189, R190; 06 R221 to R223). -/

namespace Sys2Proof.Machine

variable {s t u : State} {c i line : Nat}

/-! ### What a drain leaves of the columns -/

/-- `t` has the `CORE_PG` of every column that `s` has. -/
structure CorePgKept (s t : State) : Prop where
  eq : ∀ n, (colAt t n).corePg = (colAt s n).corePg

theorem CorePgKept.refl (s : State) : CorePgKept s s := ⟨fun _ => rfl⟩

theorem CorePgKept.trans (h : CorePgKept s t) (k : CorePgKept t u) : CorePgKept s u := ⟨fun n => (k.eq n).trans (h.eq n)⟩

theorem corePgKept_of_cols (h : t.cols = s.cols) : CorePgKept s t := ⟨fun n => by unfold colAt; rw [h]⟩

/-- An update of other parts of the state after `t`. -/
theorem CorePgKept.of_cols (h : CorePgKept s t) (hu : u.cols = t.cols) : CorePgKept s u := h.trans (corePgKept_of_cols hu)

theorem CorePgKept.logPost (h : CorePgKept s t) {source cls code : Nat} {data : BitVec 128} :
    CorePgKept s (logPost t source cls code data) := ⟨h.eq⟩

theorem corePgKept_setCol {x : Column} (h : x.corePg = (colAt s c).corePg) : CorePgKept s (setCol s c x) := by
  refine ⟨fun n => ?_⟩
  rw [colAt_setCol]
  split
  next hn => rw [h, hn]
  next => rfl

theorem corePgKept_modCol {f : Column → Column} (h : ∀ k, (f k).corePg = k.corePg) : CorePgKept s (modCol s c f) :=
  corePgKept_setCol (h _)

theorem corePgKept_postEcc (s : State) (c : Nat) (ue scrub : Bool) (bo word bit : Nat) :
    CorePgKept s (postEcc s c ue scrub bo word bit) := by
  unfold postEcc
  dsimp only
  split
  · refine CorePgKept.logPost ?_
    exact corePgKept_setCol rfl
  · exact corePgKept_setCol rfl

theorem corePgKept_bankCheckOld (s : State) (c line : Nat) (mask : BitVec 128) : CorePgKept s (bankCheckOld s c line mask) := by
  unfold bankCheckOld
  dsimp only
  split
  · exact .refl s
  · refine List.foldlRecOn (motive := CorePgKept s) _ _ (.refl s) (fun t ht i _ => ?_)
    split
    · exact ht
    · split
      · exact ht
      · exact (ht.trans (corePgKept_postEcc t c ..)).of_cols rfl
      · exact ht.trans (corePgKept_postEcc ..)

theorem corePgKept_unfresh (s : State) (c bo : Nat) : CorePgKept s (unfresh s c bo) := by
  unfold unfresh
  split
  · exact (corePgKept_modCol (s := s) (c := c)
      (f := fun k => { k with fresh := k.fresh.filter (fun b => decide (b ≠ bo / 65536)) }) (fun _ => rfl)).of_cols rfl
  · exact .refl s

theorem corePgKept_bankWriteLine (s : State) (c line : Nat) (data : BitVec 1024) (mask : BitVec 128) :
    CorePgKept s (bankWriteLine s c line data mask) := by
  unfold bankWriteLine bankPut
  split
  · exact .refl s
  · split
    · exact corePgKept_bankCheckOld ..
    · exact ((corePgKept_bankCheckOld s c line mask).trans (corePgKept_unfresh _ c (lineBo line))).of_cols rfl

theorem corePgKept_setSlice (s : State) (c line : Nat) (x : Option SliceLine) : CorePgKept s (setSlice s c line x) :=
  corePgKept_modCol (fun _ => rfl)

theorem corePgKept_sliceOut (s : State) (c line : Nat) : CorePgKept s (sliceOut s c line) := by
  unfold sliceOut
  split
  · exact .refl s
  · split
    · exact corePgKept_setSlice ..
    · exact (corePgKept_setSlice ..).trans (corePgKept_bankWriteLine ..)

theorem corePgKept_sliceRoom (s : State) (c line : Nat) : CorePgKept s (sliceRoom s c line) := by
  unfold sliceRoom
  dsimp only
  split
  · exact .refl s
  · exact (corePgKept_of_cols (s := s) (t := { s with fresh := s.fresh + 1 }) rfl).trans (corePgKept_sliceOut ..)

theorem corePgKept_sliceTouch (s : State) (c line : Nat) : CorePgKept s (sliceTouch s c line) := by
  have henter : CorePgKept s (if (sliceAt s c line).isSome then s else sliceEnter s c line SliceLine.empty) := by
    unfold sliceEnter
    split
    · exact .refl s
    · split
      · exact .refl s
      · exact (corePgKept_sliceRoom ..).trans (corePgKept_setSlice ..)
  unfold sliceTouch
  split
  · exact henter
  · exact henter
  · exact .refl s

theorem corePgKept_performLine (s : State) (line : Nat) (data : BitVec 1024) (mask : BitVec 128) (poison : Bool) :
    CorePgKept s (performLine s line data mask poison) := by
  unfold performLine
  dsimp only
  split
  · refine CorePgKept.trans ?_ (corePgKept_setSlice ..)
    refine CorePgKept.trans ?_ (corePgKept_sliceRoom ..)
    exact corePgKept_of_cols rfl
  all_goals exact corePgKept_of_cols rfl

/-- Tokens move without a column. -/
theorem gatherAll_cols {die : Nat} {me : Option Nat} (h : gatherAll s die line me = some t) : t.cols = s.cols := by
  have hcols : (unwatch (recallHost s line) line).cols = s.cols := by
    unfold unwatch recallHost
    split <;> split <;> rfl
  unfold gatherAll at h
  split at h
  · cases h
    exact hcols
  · cases h

theorem corePgKept_drainHead (h : drainHead s c line = some t) : CorePgKept s t := by
  unfold drainHead at h
  split at h
  · cases h; exact .refl s
  · split at h
    · cases h
    next u hu =>
      cases h
      refine CorePgKept.trans ?_ (corePgKept_sliceTouch ..)
      refine CorePgKept.trans ?_ (corePgKept_performLine ..)
      exact (corePgKept_of_cols (gatherAll_cols hu)).trans (corePgKept_modCol (fun _ => rfl))

theorem corePgKept_drainHeads : ∀ {l : List Nat} {s t : State}, drainHeads s line l = some t → CorePgKept s t
  | [], s, _, h => by cases h; exact .refl s
  | a :: l, s, t, h => by
    unfold drainHeads at h
    split at h
    · cases h
    next u hu => exact (corePgKept_drainHead hu).trans (corePgKept_drainHeads h)

theorem corePgKept_drainLine (h : drainLine s c line = some t) : CorePgKept s t := by
  unfold drainLine at h
  split at h
  · cases h; exact .refl s
  · dsimp only at h
    split at h
    · cases h
    next u hu => exact (corePgKept_drainHeads hu).trans (corePgKept_drainHead h)

theorem corePgKept_cwqPush {d : BitVec 1024} {m : BitVec 128} {p : Bool} (h : cwqPush s c line d m p = some t) : CorePgKept s t := by
  unfold cwqPush at h
  dsimp only at h
  split at h
  · cases h
  next u hu =>
    cases h
    refine CorePgKept.trans ?_ (corePgKept_modCol (fun _ => rfl))
    split at hu
    · split at hu
      · cases hu; exact .refl s
      · exact corePgKept_drainLine hu
    · cases hu; exact .refl s

theorem corePgKept_wbLine (h : wbLine s i line = some t) : CorePgKept s t := by
  unfold wbLine at h
  split at h
  · cases h; exact .refl s
  · split at h
    · cases h; exact .refl s
    · split at h
      · cases h
      next u hu => cases h; exact (corePgKept_cwqPush hu).of_cols rfl

theorem corePgKept_evictLines : ∀ {l : List Nat} {s t : State}, evictLines s i l = some t → CorePgKept s t
  | [], s, _, h => by cases h; exact .refl s
  | a :: l, s, t, h => by
    unfold evictLines evictLine at h
    split at h
    · cases h
    next u hu =>
      split at hu
      · cases hu
      next w hw => cases hu; exact ((corePgKept_wbLine hw).of_cols (u := setL1 w i a none) rfl).trans (corePgKept_evictLines h)

/-! ### Gating -/

theorem corePgKept_gateCore (s : State) (core : Nat) : CorePgKept s (gateCore s core) := by
  unfold gateCore
  split
  · split
    · exact .refl s
    next u hu => exact (corePgKept_evictLines hu).trans (corePgKept_modCol (fun _ => rfl))
  · exact .refl s

theorem corePgKept_ungateCore (s : State) (core : Nat) : CorePgKept s (ungateCore s core) := by
  unfold ungateCore
  split
  · exact (corePgKept_modCol (s := s) (c := colOf core)
      (f := fun k => { k with gated := k.gated &&& ~~~((1#4) <<< (core % 4)) }) (fun _ => rfl)).of_cols rfl
  · exact .refl s

theorem corePgKept_gateColumn (s : State) (c : Nat) : CorePgKept s (gateColumn s c) := by
  refine List.foldlRecOn (motive := CorePgKept s) _ _ (.refl s) (fun t ht p _ => ht.trans ?_)
  split
  · exact corePgKept_gateCore ..
  · exact corePgKept_ungateCore ..

/-- A core whose conditions hold is gated once its L1 is written back (05 R190). -/
theorem gateCore_ready {core : Nat} (hq : gateAsked s core = true) (hg : isGated s core = false) (hm : mayGate s core = true)
    (hu : evictLines s core (l1Lines s core) = some u) :
    gateCore s core = modCol u (colOf core) (fun k => { k with gated := k.gated ||| ((1#4) <<< (core % 4)) }) := by
  simp [gateCore, hq, hg, hm, hu]

/-- A gated core that is no longer requested comes back with an empty L1. -/
theorem ungateCore_ready {core : Nat} (hq : gateAsked s core = false) (hg : isGated s core = true) :
    isGated (ungateCore s core) core = false ∧ tget [] (ungateCore s core).l1 core = [] := by
  have hrun : (!gateAsked s core && isGated s core) = true := by simp [hq, hg]
  have hcol : colAt (ungateCore s core) (colOf core) =
      { colAt s (colOf core) with gated := (colAt s (colOf core)).gated &&& ~~~((1#4) <<< (core % 4)) } := by
    unfold ungateCore
    rw [if_pos hrun]
    exact colAt_modCol_self s (colOf core) (fun k => { k with gated := k.gated &&& ~~~((1#4) <<< (core % 4)) })
  refine ⟨?_, ?_⟩
  · unfold isGated
    rw [hcol]
    simp
  · unfold ungateCore
    rw [if_pos hrun]
    exact tget_tput_self [] s.l1 core []

end Sys2Proof.Machine
end

section
/-! PROOF. Writes of the named registers (02 R62, R79 to R84; 01 R18, R19; 05 R189; 06 R244): who may write, what a write that is let
through and one that is refused leave, and O51. -/

namespace Sys2Proof.Machine

variable {s t u : State} {r : Requester} {off : Nat} {d : DReg} {v : Dword}

/-! ### Fields of a value -/

theorem bits_one_of_getLsbD {w : Nat} {x : BitVec w} {i : Nat} (h : x.getLsbD i = true) : bits x.toNat i 1 = 1 := by
  unfold BitVec.getLsbD at h
  rw [Nat.testBit_eq_decide_div_mod_eq] at h
  simpa [bits] using h

theorem ofNat_bits_zero (w n : Nat) : BitVec.ofNat w (bits n 0 w) = BitVec.ofNat w n := by
  apply BitVec.eq_of_toNat_eq
  simp [bits]

theorem ofNat_bits (w n lo : Nat) : BitVec.ofNat w (bits n lo w) = BitVec.ofNat w (n / 2 ^ lo) := by
  apply BitVec.eq_of_toNat_eq
  simp [bits]

/-! ### Updates of columns alone -/

/-- `t` is `s` but for its columns. -/
structure ColsOnly (s t : State) : Prop where
  eq : t = { s with cols := t.cols }

theorem ColsOnly.refl (s : State) : ColsOnly s s := ⟨rfl⟩

theorem ColsOnly.trans (h : ColsOnly s t) (k : ColsOnly t u) : ColsOnly s u := by
  obtain ⟨h⟩ := h
  obtain ⟨k⟩ := k
  exact ⟨by rw [k, h]⟩

theorem colsOnly_setCol (s : State) (c : Nat) (x : Column) : ColsOnly s (setCol s c x) := ⟨rfl⟩

theorem colsOnly_foldl {f : State → Nat → State} (hf : ∀ s c, ColsOnly s (f s c)) (l : List Nat) (s : State) : ColsOnly s (l.foldl f s) :=
  List.foldlRecOn l f (motive := ColsOnly s) (.refl s) (fun t ht c _ => ht.trans (hf t c))

theorem colsOnly_settle (s : State) (c : Nat) : ColsOnly s (settle s c) := by
  unfold settle
  dsimp only
  split
  · exact .refl s
  · split <;> exact colsOnly_setCol ..

theorem colsOnly_settleAll (s : State) : ColsOnly s (settleAll s) := colsOnly_foldl colsOnly_settle ..

theorem colsOnly_heatWatch (s : State) (c : Nat) : ColsOnly s (heatWatch s c) := colsOnly_setCol ..

theorem ColsOnly.pkg (h : ColsOnly s t) : t.pkg = s.pkg := by rw [h.eq]
theorem ColsOnly.power (h : ColsOnly s t) : t.power = s.power := by rw [h.eq]
theorem ColsOnly.parts (h : ColsOnly s t) : t.parts = s.parts := by rw [h.eq]

theorem ColsOnly.partAt (h : ColsOnly s t) (p : Nat) : partAt t p = partAt s p := by
  unfold Machine.partAt
  rw [h.parts]

/-! ### Where the named registers stand -/

theorem regAt_colOff (c : Fin 64) {o : Nat} (ho : o < 0x20000) : regAt (colOff c o) = some ((lineReg c.val o).getD (colReg c.val o)) := by
  have hc := c.isLt
  have hmod : colOff c o % 0x20000 = o := by unfold colOff; omega
  have hdiv : colOff c o / 0x20000 = c.val := by unfold colOff; omega
  unfold regAt
  rw [hmod, hdiv]
  exact if_pos hc

theorem regAt_valveForce (c : Fin 64) : regAt (colOff c 0x10130) = some (.valveForce c.val) := regAt_colOff c (by decide)
theorem regAt_scrubCfg (c : Fin 64) : regAt (colOff c 0x10138) = some (.scrubCfg c.val) := regAt_colOff c (by decide)
theorem regAt_corePg (c : Fin 64) : regAt (colOff c 0x12040) = some (.corePg c.val) := regAt_colOff c (by decide)

theorem regAt_partMap : regAt (pkgOff 0x10110) = some .partMap := rfl
theorem regAt_devCap : regAt (pkgOff 0x10300) = some .devCap := rfl
theorem regAt_curLim : regAt (pkgOff 0x10308) = some .curLim := rfl
theorem regAt_govTj : regAt (pkgOff 0x10310) = some .govTj := rfl
theorem regAt_govTb : regAt (pkgOff 0x10318) = some .govTb := rfl
theorem regAt_logCtl : regAt (pkgOff 0x10348) = some .logCtl := rfl

theorem regAt_partCfg (p : Fin 16) : regAt (pkgOff (0x10118 + 8 * p.val)) = some (.partCfg p.val) := by
  revert p
  decide

/-! ### Who may write -/

/-- One that can own `MGMT_SEM` may make every control write. -/
theorem canWrite_of_ownCode (h : ownCode r ≠ 0) (hc : controlWrite d v = true) : canWrite r d = true := by
  have hkind : isControl d = true ∨ d = .logCtl := by
    unfold controlWrite at hc
    rcases Bool.or_eq_true_iff.1 hc with hd | hd
    · exact .inl hd
    · exact .inr (by simpa using (Bool.and_eq_true_iff.1 hd).1)
  cases r with
  | mgmtA => rcases hkind with hd | rfl <;> simp [canWrite, *]
  | mgmtB => rcases hkind with hd | rfl <;> simp [canWrite, *]
  | firmware => rfl
  | hostLink => exact absurd rfl h
  | supervisor => exact absurd rfl h
  | user => exact absurd rfl h

theorem canWrite_mgmtSem (h : ownCode r ≠ 0) (hi : Bool) : canWrite r (.mgmtSem hi) = true := by
  cases r with
  | mgmtA => rfl
  | mgmtB => rfl
  | firmware => rfl
  | hostLink => exact absurd rfl h
  | supervisor => exact absurd rfl h
  | user => exact absurd rfl h

theorem not_extStore_of_canWrite (h : canWrite r d = true) : (r == .supervisor && d == .extStore) = false := by
  by_contra hb
  simp only [Bool.not_eq_false, Bool.and_eq_true, beq_iff_eq] at hb
  obtain ⟨rfl, rfl⟩ := hb
  exact absurd h (by decide)

/-! ### A write and its completion -/

/-- A write that is no control write sets the register. -/
theorem namedWrite_plain (hh : regHeld s r = false) (hd : regAt off = some d) (hw : canWrite r d = true) (hc : controlWrite d v = false) :
    namedWrite s r off v = .next { regSet s r d v with reply := .ok [] } := by
  simp [namedWrite, hh, regRow, regWrite, hd, not_extStore_of_canWrite hw, hw, hc]

/-- The lease runs from the last control write (log 23). -/
def ctlNoted (s : State) : State := { s with mgmt := { s.mgmt with lastCtl := s.tsc } }

/-- The owner's control write of a value within its range sets the register, and the lease runs from it. -/
theorem namedWrite_owner (hh : regHeld s r = false) (ho : ownCode r ≠ 0) (hs : s.mgmt.owner.toNat = ownCode r) (hd : regAt off = some d)
    (hc : controlWrite d v = true) (hr : outOfRange s d v.toNat = false) :
    namedWrite s r off v = .next { regSet (ctlNoted s) r d v with reply := .ok [] } := by
  have hw := canWrite_of_ownCode ho hc
  simp [namedWrite, hh, regRow, regWrite, hd, not_extStore_of_canWrite hw, hw, hc, ho, hs, hr, ctlNoted]

/-- What a refusal leaves: an entry of the requester's source in the log, and the reason with the requester (02 R82). -/
def RefusedWrite (s : State) (r : Requester) (code : Byte) (t : State) : Prop :=
  t.reply = .error code ∧ (t.mgmt.tail = s.mgmt.tail + 1 ∧ tget 0 t.mgmt.seq (reqSource r) = tget 0 s.mgmt.seq (reqSource r) + 1) ∧
    { t with reply := .none, mgmt := s.mgmt } = { s with reply := .none }

theorem refusedWrite_refuse (s : State) (r : Requester) (off code : Nat) :
    RefusedWrite s r (BitVec.ofNat 8 code) { (refuse s r off code).1 with reply := .error (BitVec.ofNat 8 code) } :=
  ⟨rfl, ⟨rfl, tget_tput_self ..⟩, rfl⟩

theorem namedWrite_notOwner (hh : regHeld s r = false) (ho : ownCode r ≠ 0) (hs : s.mgmt.owner.toNat ≠ ownCode r)
    (hd : regAt off = some d) (hc : controlWrite d v = true) : ∃ t, namedWrite s r off v = .next t ∧ RefusedWrite s r 0x51 t := by
  have hw := canWrite_of_ownCode ho hc
  refine ⟨_, ?_, refusedWrite_refuse s r off 0x51⟩
  simp [namedWrite, hh, regRow, regWrite, hd, not_extStore_of_canWrite hw, hw, hc, ho, hs, refuse]

theorem namedWrite_outOfRange (hh : regHeld s r = false) (ho : ownCode r ≠ 0) (hs : s.mgmt.owner.toNat = ownCode r)
    (hd : regAt off = some d) (hc : controlWrite d v = true) (hr : outOfRange s d v.toNat = true) :
    ∃ t, namedWrite s r off v = .next t ∧ RefusedWrite s r 0x53 t := by
  have hw := canWrite_of_ownCode ho hc
  refine ⟨_, ?_, refusedWrite_refuse s r off 0x53⟩
  simp [namedWrite, hh, regRow, regWrite, hd, not_extStore_of_canWrite hw, hw, hc, ho, hs, hr, refuse]

/-! ### `LOG_CTL` -/

/-- What LOG_CLEAR writes: CLR, and the requester's INDEX as it stands. -/
theorem logClear_isControl (i : BitVec 13) : controlWrite .logCtl (BitVec.ofNat 64 (2 ^ 13 + i.toNat)) = true := by
  have hclr : (BitVec.ofNat 64 (2 ^ 13 + i.toNat)).getLsbD 13 = true := by
    rw [BitVec.getLsbD_ofNat, Nat.testBit_two_pow_add_eq, Nat.testBit_lt_two_pow i.isLt]
    rfl
  rw [controlWrite, hclr]
  rfl

theorem logCtlWrite_clears (i : BitVec 13) :
    logCtlWrite s r (BitVec.ofNat 64 (2 ^ 13 + i.toNat)).toNat = { s with mgmt := { s.mgmt with
      index := tput 0 s.mgmt.index (reqNo r) i, log := [], tail := 0, lost := 0 } } := by
  have hi := i.isLt
  have hn : (BitVec.ofNat 64 (2 ^ 13 + i.toNat)).toNat = 2 ^ 13 + i.toNat := by
    rw [BitVec.toNat_ofNat]; omega
  have hclr : bits (2 ^ 13 + i.toNat) 13 1 = 1 := by unfold bits; omega
  have hindex : BitVec.ofNat 13 (bits (2 ^ 13 + i.toNat) 0 13) = i := by
    apply BitVec.eq_of_toNat_eq
    unfold bits
    rw [BitVec.toNat_ofNat]
    omega
  unfold logCtlWrite
  rw [hn, hclr, hindex]
  rfl

/-- LOG_INDEX_SET writes INDEX and no CLR. -/
theorem logIndex_notControl (i : BitVec 13) : controlWrite .logCtl (i.setWidth 64) = false := by
  have hclr : (i.setWidth 64).getLsbD 13 = false := by
    rw [BitVec.getLsbD_setWidth, BitVec.getLsbD_of_ge i 13 (Nat.le_refl 13)]
    rfl
  rw [controlWrite, hclr]
  rfl

theorem logCtlWrite_index (i : BitVec 13) : logCtlWrite s r (i.setWidth 64).toNat =
    { s with mgmt := { s.mgmt with index := tput 0 s.mgmt.index (reqNo r) i } } := by
  have hi := i.isLt
  have hn : (i.setWidth 64).toNat = i.toNat := by
    rw [BitVec.toNat_setWidth]; omega
  have hclr : bits i.toNat 13 1 = 0 := by unfold bits; omega
  have hindex : BitVec.ofNat 13 (bits i.toNat 0 13) = i := by rw [ofNat_bits_zero]; simp
  unfold logCtlWrite
  rw [hn, hclr, hindex]
  rfl

/-! ### `MGMT_SEM` -/

/-- The first write at a `TSC` counts from what `MGMT_SEM` holds. -/
theorem semWrite_first (h : s.mgmt.semWrites = [] ∨ s.mgmt.semAt ≠ s.tsc) (n : Nat) :
    semWrite s r n =
      let e := semStep s.tsc (s.mgmt.owner, s.mgmt.lease, s.mgmt.acqTsc) (reqSource r, ownCode r, n)
      { s with mgmt := { s.mgmt with
          owner := e.1, lease := e.2.1, acqTsc := e.2.2, semAt := s.tsc, semBase := (s.mgmt.owner, s.mgmt.lease, s.mgmt.acqTsc)
          semWrites := [(reqSource r, ownCode r, n)]
          lastCtl := if e.1 ≠ s.mgmt.owner ∧ e.1 ≠ 0 then s.tsc else s.mgmt.lastCtl } } := by
  have hsame : (!s.mgmt.semWrites.isEmpty && decide (s.mgmt.semAt = s.tsc)) = false := by
    rcases h with h | h <;> simp [h]
  unfold semWrite
  dsimp only
  rw [hsame]
  rfl

/-- A later write at the same `TSC` counts with those before it, in the order of their sources. -/
theorem semWrite_same (h : s.mgmt.semWrites ≠ []) (ht : s.mgmt.semAt = s.tsc) (n : Nat) :
    (semWrite s r n).mgmt.owner =
      ((insSem (reqSource r, ownCode r, n) s.mgmt.semWrites).foldl (semStep s.tsc) s.mgmt.semBase).1 ∧
    (semWrite s r n).mgmt.lease =
      ((insSem (reqSource r, ownCode r, n) s.mgmt.semWrites).foldl (semStep s.tsc) s.mgmt.semBase).2.1 := by
  have hsame : (!s.mgmt.semWrites.isEmpty && decide (s.mgmt.semAt = s.tsc)) = true := by
    simp [ht, h]
  unfold semWrite
  dsimp only
  rw [hsame]
  exact ⟨rfl, rfl⟩

theorem ownCode_lt (r : Requester) : ownCode r < 4 := by cases r <;> decide

theorem toNat_ofNat_ownCode (r : Requester) : (BitVec.ofNat 2 (ownCode r)).toNat = ownCode r :=
  Nat.mod_eq_of_lt (ownCode_lt r)

/-- A write of one's code takes a free `MGMT_SEM`, with the LEASE that it brings (log 23). -/
theorem semStep_acquires (tsc : Dword) (b : Byte × Dword) (src : Nat) {code n : Nat} (h : n % 4 = code) :
    semStep tsc (0, b) (src, code, n) = (BitVec.ofNat 2 code, BitVec.ofNat 8 (n / 256), tsc) := by
  have hcode : bits n 0 2 = code := by simpa [bits] using h
  have hlease : BitVec.ofNat 8 (bits n 8 8) = BitVec.ofNat 8 (n / 256) := ofNat_bits 8 n 8
  simp [semStep, hcode, hlease]

/-- The owner's write of 0 frees it. -/
theorem semStep_releases (tsc : Dword) (o : BitVec 2) (b : Byte × Dword) (src n : Nat) (ho : o.toNat ≠ 0) (hn : bits n 0 2 = 0) :
    (semStep tsc (o, b) (src, o.toNat, n)).1 = 0 := by
  simp [semStep, hn, ho.symm]

/-- Another requester's code changes nothing while it is owned. -/
theorem semStep_owned (tsc : Dword) (o : BitVec 2) (b : Byte × Dword) (src : Nat) {code : Nat} (n : Nat) (ho : o ≠ 0#2) (hc : o.toNat ≠ code) :
    semStep tsc (o, b) (src, code, n) = (o, b) := by
  simp [semStep, ho, hc]

/-- Of two that acquire a free `MGMT_SEM` at one `TSC`, MGMT-A owns it whichever wrote first (02 R81). -/
theorem semWrite_pair {q : Requester} {n m a b : Nat} {reply : Reply} (ho : s.mgmt.owner = 0)
    (hf : s.mgmt.semWrites = [] ∨ s.mgmt.semAt ≠ s.tsc) (ha : a % 4 = 1)
    (hi : insSem (reqSource q, ownCode q, m) [(reqSource r, ownCode r, n)] = [(2, 1, a), (3, 2, b)]) :
    (semWrite { semWrite s r n with reply := reply } q m).mgmt.owner = 1 ∧
      (semWrite { semWrite s r n with reply := reply } q m).mgmt.lease = BitVec.ofNat 8 (a / 256) := by
  have hfold : [(2, 1, a), (3, 2, b)].foldl (semStep s.tsc) (s.mgmt.owner, s.mgmt.lease, s.mgmt.acqTsc) =
      (1, BitVec.ofNat 8 (a / 256), s.tsc) := by
    rw [ho, List.foldl_cons, semStep_acquires s.tsc _ 2 ha]
    exact semStep_owned s.tsc 1 _ 3 b (by decide) (by decide)
  obtain ⟨howner, hlease⟩ := semWrite_same (s := { semWrite s r n with reply := reply }) (r := q)
    (by rw [semWrite_first hf]; simp) (by rw [semWrite_first hf]) m
  rw [howner, hlease, semWrite_first hf]
  dsimp only
  rw [hi, hfold]
  exact ⟨rfl, rfl⟩

theorem exec_mgmtSemAcquire (hh : regHeld s r = false) (ho : ownCode r ≠ 0) :
    exec (.mgmtSemAcquire r v) s = .next { semWrite s r v.toNat with reply := .ok [] } :=
  namedWrite_plain hh rfl (canWrite_mgmtSem ho false) rfl

theorem exec_mgmtSemRelease (hh : regHeld s r = false) (ho : ownCode r ≠ 0) (hs : s.mgmt.owner.toNat = ownCode r)
    (hf : s.mgmt.semWrites = [] ∨ s.mgmt.semAt ≠ s.tsc) :
    ∃ t, exec (.mgmtSemRelease r) s = .next t ∧ t.mgmt.owner = 0 ∧ t.reply = .ok [] := by
  refine ⟨_, namedWrite_plain hh rfl (canWrite_mgmtSem ho false) rfl, ?_, rfl⟩
  have hlease := s.mgmt.lease.isLt
  have hcode : bits (BitVec.ofNat 64 (s.mgmt.lease.toNat * 256)).toNat 0 2 = 0 := by
    rw [BitVec.toNat_ofNat]
    unfold bits
    omega
  change (semWrite s r _).mgmt.owner = 0
  rw [semWrite_first hf, ← hs]
  exact semStep_releases s.tsc s.mgmt.owner _ (reqSource r) _ (hs ▸ ho) hcode

theorem exec_mgmtLeaseExpiry (ho : s.mgmt.owner ≠ 0) (ht : s.mgmt.lastCtl.toNat + max 1 s.mgmt.lease.toNat * 10000000 ≤ s.tsc.toNat) :
    exec .mgmtLeaseExpiry s = .next { s with mgmt := { s.mgmt with owner := 0, semWrites := [] } } :=
  congrArg Host.Outcome.next (if_pos ⟨ho, ht⟩)

/-! ### `HBM_SPLIT` -/

/-- The split of a value, locked. -/
def splitLocked (s : State) (n : Nat) : State :=
  { s with pkg := { s.pkg with hbmP := BitVec.ofNat 7 n, hbmW := BitVec.ofNat 7 (n / 256), hbmLock := true } }

/-- A locking write checks the split that it locks, and reloads the factory's where the check fails (01 R18, R19). -/
theorem splitWrite_locking (hl : s.pkg.hbmLock = false) (hv : v.getLsbD 31 = true) :
    splitWrite s v.toNat =
      if 64 < bits v.toNat 0 7 + bits v.toNat 8 7 ∨ 12 * bits v.toNat 0 7 * gib < reservedBytes (splitLocked s v.toNat) then
        logPost { s with pkg := { (splitLocked s v.toNat).pkg with hbmP := 32, hbmW := 16, rrSize := 64, extSize := 64 } } 0 3 0x23
          (Config.logData 0x23 [bits v.toNat 0 7, bits v.toNat 8 7])
      else splitLocked s v.toNat := by
  have hlock : bits v.toNat 31 1 = 1 := bits_one_of_getLsbD hv
  have hw : BitVec.ofNat 7 (bits v.toNat 8 7) = BitVec.ofNat 7 (v.toNat / 256) := ofNat_bits 7 v.toNat 8
  unfold splitWrite splitLocked
  simp only [hl, hlock, ofNat_bits_zero, hw, Bool.false_eq_true, if_false, Nat.one_ne_zero, decide_true]

theorem splitWrite_locked (hl : s.pkg.hbmLock = true) (n : Nat) : splitWrite s n = s := by simp [splitWrite, hl]

theorem regHeld_of_emerg (h : s.emerg = none) (r : Requester) : regHeld s r = false := by simp [regHeld, h]

/-- The management ports reach the PMC always (02 R77). -/
theorem regHeld_of_mgmt (s : State) (h : isMgmt r = true) : regHeld s r = false := by simp [regHeld, h]

theorem exec_hbmSplitLock (h : s.emerg = none) : exec (.hbmSplitLock v) s = .next { splitWrite s v.toNat with reply := .ok [] } :=
  namedWrite_plain (d := .hbmSplit) (regHeld_of_emerg h .firmware) rfl rfl rfl

/-! ### `WEAR_SET` and `CORE_PG` -/

theorem zoneAt_wearWrite (s : State) (v : Dword) :
    zoneAt (wearWrite s v) (v.toNat % 128) = { zoneAt s (v.toNat % 128) with
      remain := BitVec.ofNat 32 (v.toNat / 2 ^ 32), charged := 0 } := by
  have hz : bits v.toNat 0 7 = v.toNat % 128 := by simp [bits]
  have hr : BitVec.ofNat 32 (bits v.toNat 32 32) = BitVec.ofNat 32 (v.toNat / 2 ^ 32) := ofNat_bits ..
  unfold wearWrite
  rw [hz, hr]
  unfold zoneAt
  simp

/-- A write of `CORE_PG` takes its bits, whatever the cores then do. -/
theorem regSet_corePg (s : State) (r : Requester) (c : Nat) (v : Dword) :
    (colAt (regSet s r (.corePg c) v) c).corePg = BitVec.ofNat 4 v.toNat := by
  have hcol : (colAt (modCol s c (fun k => { k with corePg := BitVec.ofNat 4 (bits v.toNat 0 4) })) c).corePg = BitVec.ofNat 4 v.toNat := by
    rw [colAt_modCol_self]
    exact ofNat_bits_zero 4 v.toNat
  unfold regSet
  dsimp only
  split
  · exact hcol
  · exact ((corePgKept_gateColumn _ c).eq c).trans hcol

/-! ### Registers whose write acts on every column -/

theorem regSet_partMap (s : State) (r : Requester) (v : Dword) : (regSet s r .partMap v).pkg.partMap = v :=
  congrArg Pkg.partMap (colsOnly_settleAll { s with pkg := { s.pkg with partMap := v } }).pkg

theorem regSet_partCfg (s : State) (r : Requester) (p : Nat) (v : Dword) :
    (partAt (regSet s r (.partCfg p) v) p).cfg = v &&& 0xFFFFFF0F := by
  unfold regSet
  dsimp only
  rw [(colsOnly_settleAll _).partAt, partAt_setPart, if_pos rfl]

theorem regSet_govTj (s : State) (r : Requester) (v : Dword) : (regSet s r .govTj v).power.govTj = BitVec.ofNat 8 v.toNat :=
  congrArg Power.govTj (colsOnly_foldl colsOnly_heatWatch (List.range 64)
    { s with power := { s.power with govTj := BitVec.ofNat 8 v.toNat } }).power

theorem regSet_govTb (s : State) (r : Requester) (v : Dword) : (regSet s r .govTb v).power.govTb = BitVec.ofNat 8 v.toNat :=
  congrArg Power.govTb (colsOnly_foldl colsOnly_heatWatch (List.range 64)
    { s with power := { s.power with govTb := BitVec.ofNat 8 v.toNat } }).power

/-! ### Ranges (02 R62) -/

theorem outOfRange_curLim (s : State) (n : Nat) : outOfRange s .curLim n = decide (s.power.curLim.toNat < n % 2 ^ 16) := by
  simp [outOfRange, bits]

theorem outOfRange_govTj (s : State) (n : Nat) : outOfRange s .govTj n = (decide (n % 256 < 95) || decide (110 < n % 256)) := by
  simp [outOfRange, bits]

theorem outOfRange_govTb (s : State) (n : Nat) : outOfRange s .govTb n = (decide (n % 256 < 85) || decide (95 < n % 256)) := by
  simp [outOfRange, bits]

/-! ### Control writes of the owner (02 R80) -/

section
variable (hh : regHeld s r = false) (ho : ownCode r ≠ 0) (hs : s.mgmt.owner.toNat = ownCode r)
include hh ho hs

theorem exec_partMapWrite : ∃ t, exec (.partMapWrite r v) s = .next t ∧ t.pkg.partMap = v ∧ t.reply = .ok [] :=
  ⟨_, namedWrite_owner hh ho hs regAt_partMap rfl rfl, regSet_partMap (ctlNoted s) r v, rfl⟩

theorem exec_partCfgWrite (p : Fin 16) :
    ∃ t, exec (.partCfgWrite r p v) s = .next t ∧ (partAt t p.val).cfg = v &&& 0xFFFFFF0F ∧ t.reply = .ok [] :=
  ⟨_, namedWrite_owner hh ho hs (regAt_partCfg p) rfl rfl, regSet_partCfg (ctlNoted s) r p.val v, rfl⟩

theorem exec_curLimWrite (hr : v.toNat % 2 ^ 16 ≤ s.power.curLim.toNat) : exec (.curLimWrite r v) s =
    .next { ctlNoted s with reply := .ok [], power := { s.power with curLim := BitVec.ofNat 16 v.toNat } } := by
  refine namedWrite_owner hh ho hs regAt_curLim rfl ?_
  rw [outOfRange_curLim]
  exact decide_eq_false (Nat.not_lt.2 hr)

theorem exec_govTjWrite (hlo : 95 ≤ v.toNat % 256) (hhi : v.toNat % 256 ≤ 110) :
    ∃ t, exec (.govTjWrite r v) s = .next t ∧ t.power.govTj = BitVec.ofNat 8 v.toNat ∧ t.reply = .ok [] := by
  refine ⟨_, namedWrite_owner hh ho hs regAt_govTj rfl ?_, regSet_govTj (ctlNoted s) r v, rfl⟩
  rw [outOfRange_govTj, decide_eq_false (Nat.not_lt.2 hlo), decide_eq_false (Nat.not_lt.2 hhi)]
  rfl

theorem exec_govTbWrite (hlo : 85 ≤ v.toNat % 256) (hhi : v.toNat % 256 ≤ 95) :
    ∃ t, exec (.govTbWrite r v) s = .next t ∧ t.power.govTb = BitVec.ofNat 8 v.toNat ∧ t.reply = .ok [] := by
  refine ⟨_, namedWrite_owner hh ho hs regAt_govTb rfl ?_, regSet_govTb (ctlNoted s) r v, rfl⟩
  rw [outOfRange_govTb, decide_eq_false (Nat.not_lt.2 hlo), decide_eq_false (Nat.not_lt.2 hhi)]
  rfl

theorem exec_valveForceWrite (c : Fin 64) : ∃ t, exec (.valveForceWrite r c v) s = .next t ∧ (colAt t c.val).vfEn = v.getLsbD 8 ∧
    (colAt t c.val).vfValue = BitVec.ofNat 8 (max 64 (v.toNat % 256)) ∧ t.reply = .ok [] := by
  have hcol : ∀ s : State, colAt (regSet s r (.valveForce c.val) v) c.val = { colAt s c.val with
      vfValue := BitVec.ofNat 8 (max 64 (bits v.toNat 0 8)), vfEn := v.getLsbD 8
      valve := if (colAt s c.val).vfEn && !v.getLsbD 8 then (colAt s c.val).vfValue else (colAt s c.val).valve } :=
    fun s => colAt_modCol_self ..
  have hvalue : bits v.toNat 0 8 = v.toNat % 256 := by simp [bits]
  refine ⟨_, namedWrite_owner hh ho hs (regAt_valveForce c) rfl rfl, ?_, ?_, rfl⟩
  · exact congrArg Column.vfEn (hcol (ctlNoted s))
  · exact (congrArg Column.vfValue (hcol (ctlNoted s))).trans (by rw [hvalue])

theorem exec_scrubCfgWrite (c : Fin 64) : ∃ t, exec (.scrubCfgWrite r c v) s = .next t ∧
    (colAt t c.val).period = BitVec.ofNat 8 v.toNat ∧ (colAt t c.val).scrubPos = 0 ∧ t.reply = .ok [] := by
  have hcol : ∀ s : State, colAt (regSet s r (.scrubCfg c.val) v) c.val = { colAt s c.val with
      period := BitVec.ofNat 8 (bits v.toNat 0 8), scrubPos := 0 } := fun s => colAt_modCol_self ..
  refine ⟨_, namedWrite_owner hh ho hs (regAt_scrubCfg c) rfl rfl, ?_, ?_, rfl⟩
  · exact (congrArg Column.period (hcol (ctlNoted s))).trans (ofNat_bits_zero 8 v.toNat)
  · exact congrArg Column.scrubPos (hcol (ctlNoted s))

theorem exec_logClear : ∃ t, exec (.logClear r) s = .next t ∧ t.mgmt.log = [] ∧ t.mgmt.tail = 0 ∧ t.mgmt.lost = 0 ∧ t.reply = .ok [] := by
  refine ⟨_, namedWrite_owner hh ho hs regAt_logCtl (logClear_isControl _) rfl, ?_⟩
  simp only [regSet, logCtlWrite_clears, and_self]

end

/-- One that acquires a free `MGMT_SEM` owns it from this `TSC`, with the LEASE that it wrote. -/
theorem exec_mgmtSemAcquire_free (hh : regHeld s r = false) (ho : ownCode r ≠ 0) (hs : s.mgmt.owner = 0)
    (hf : s.mgmt.semWrites = [] ∨ s.mgmt.semAt ≠ s.tsc) (hv : v.toNat % 4 = ownCode r) :
    ∃ t, exec (.mgmtSemAcquire r v) s = .next t ∧ t.mgmt.owner.toNat = ownCode r ∧ t.mgmt.acqTsc = s.tsc ∧
      t.mgmt.lease = BitVec.ofNat 8 (v.toNat / 256) ∧ t.reply = .ok [] := by
  refine ⟨_, exec_mgmtSemAcquire hh ho, ?_⟩
  rw [semWrite_first hf, hs]
  dsimp only
  rw [semStep_acquires s.tsc _ (reqSource r) hv]
  exact ⟨toNat_ofNat_ownCode r, rfl, rfl, rfl⟩

theorem exec_logIndexSet (hh : regHeld s r = false) (hw : canWrite r .logCtl = true) (i : BitVec 13) : exec (.logIndexSet r i) s =
    .next { s with mgmt := { s.mgmt with index := tput 0 s.mgmt.index (reqNo r) i }, reply := .ok [] } := by
  refine (namedWrite_plain hh regAt_logCtl hw (logIndex_notControl i)).trans ?_
  simp only [regSet, logCtlWrite_index]

/-- A split that passes its check is locked. -/
theorem exec_hbmSplitLock_fits (he : s.emerg = none) (hl : s.pkg.hbmLock = false) (hv : v.getLsbD 31 = true)
    (hsum : bits v.toNat 0 7 + bits v.toNat 8 7 ≤ 64) (hres : reservedBytes (splitLocked s v.toNat) ≤ 12 * bits v.toNat 0 7 * gib) :
    exec (.hbmSplitLock v) s = .next { splitLocked s v.toNat with reply := .ok [] } := by
  rw [exec_hbmSplitLock he, splitWrite_locking hl hv, if_neg (not_or.2 ⟨Nat.not_lt.2 hsum, Nat.not_lt.2 hres⟩)]

/-- A split that fails its check: the factory's stands, locked, and the log says so. -/
theorem exec_hbmSplitLock_reload (he : s.emerg = none) (hl : s.pkg.hbmLock = false) (hv : v.getLsbD 31 = true)
    (hbad : 64 < bits v.toNat 0 7 + bits v.toNat 8 7 ∨ 12 * bits v.toNat 0 7 * gib < reservedBytes (splitLocked s v.toNat)) :
    ∃ t, exec (.hbmSplitLock v) s = .next t ∧
      t.pkg = { (splitLocked s v.toNat).pkg with hbmP := 32, hbmW := 16, rrSize := 64, extSize := 64 } ∧
      (t.mgmt.tail = s.mgmt.tail + 1 ∧ tget 0 t.mgmt.seq 0 = tget 0 s.mgmt.seq 0 + 1) ∧ t.reply = .ok [] ∧
      { t with pkg := s.pkg, mgmt := s.mgmt, reply := .none } = { s with reply := .none } := by
  refine ⟨_, exec_hbmSplitLock he, ?_⟩
  rw [splitWrite_locking hl hv, if_pos hbad]
  exact ⟨rfl, ⟨rfl, tget_tput_self ..⟩, rfl, rfl⟩

theorem exec_wearSetWrite (he : s.emerg = none) : ∃ t, exec (.wearSetWrite v) s = .next t ∧
    zoneAt t (v.toNat % 128) = { zoneAt s (v.toNat % 128) with remain := BitVec.ofNat 32 (v.toNat / 2 ^ 32), charged := 0 } :=
  ⟨_, namedWrite_plain (d := .wearSet) (regHeld_of_emerg he .firmware) rfl rfl rfl, zoneAt_wearWrite s v⟩

theorem exec_coreGate (he : s.emerg = none) (core : Fin 256) : exec (.coreGate core) s = .next (gateCore s core.val) := by
  change execCoreGate core s = _
  simp [execCoreGate, he]

theorem exec_coreUngate (he : s.emerg = none) (core : Fin 256) : exec (.coreUngate core) s = .next (ungateCore s core.val) := by
  change execCoreUngate core s = _
  simp [execCoreUngate, he]

/-- Settles O51: by `namedWrite_owner`, `namedWrite_notOwner`, `namedWrite_outOfRange` and `namedWrite_plain`, with what the write of each
register leaves. -/
theorem namedRegisterWritesTakeEffect : Obligations.NamedRegisterWritesTakeEffect := by
  unfold Obligations.NamedRegisterWritesTakeEffect
  intro s u r v v2 p col core imm ctl n first logged
  refine ⟨fun hh ho hs => ⟨exec_partMapWrite hh ho hs, exec_partCfgWrite hh ho hs p, namedWrite_owner hh ho hs regAt_devCap rfl rfl,
      exec_curLimWrite hh ho hs, exec_govTjWrite hh ho hs, exec_govTbWrite hh ho hs, exec_valveForceWrite hh ho hs col,
      exec_scrubCfgWrite hh ho hs col, exec_logClear hh ho hs, exec_mgmtSemRelease hh ho hs, ?range⟩,
    fun hh ho hs => ?notOwner, exec_mgmtSemAcquire_free, fun ho hf hv hv2 => ⟨?aAfterB, ?bAfterA⟩,
    exec_mgmtLeaseExpiry, fun hh hw => exec_logIndexSet hh hw imm, exec_hbmSplitLock_fits,
    exec_hbmSplitLock_reload, fun he hl => ?locked, fun he => ?wear,
    fun hh hw => ⟨_, namedWrite_plain hh (regAt_corePg col) hw rfl, regSet_corePg s r col.val v⟩,
    fun he hq hg hm hu => ?gate, fun he hq hg => ⟨_, exec_coreUngate he core, ungateCore_ready hq hg⟩⟩
  case range =>
    rintro i (⟨rfl, hr⟩ | ⟨rfl, hr⟩ | ⟨rfl, hr⟩)
    · exact namedWrite_outOfRange hh ho hs regAt_curLim rfl (by rw [outOfRange_curLim]; exact decide_eq_true hr)
    · exact namedWrite_outOfRange hh ho hs regAt_govTj rfl (by rw [outOfRange_govTj]; simpa using hr)
    · exact namedWrite_outOfRange hh ho hs regAt_govTb rfl (by rw [outOfRange_govTb]; simpa using hr)
  case notOwner =>
    rintro i (rfl | rfl | rfl | rfl | rfl | rfl | rfl | rfl | rfl)
    · exact namedWrite_notOwner hh ho hs regAt_partMap rfl
    · exact namedWrite_notOwner hh ho hs (regAt_partCfg p) rfl
    · exact namedWrite_notOwner hh ho hs regAt_devCap rfl
    · exact namedWrite_notOwner hh ho hs regAt_curLim rfl
    · exact namedWrite_notOwner hh ho hs regAt_govTj rfl
    · exact namedWrite_notOwner hh ho hs regAt_govTb rfl
    · exact namedWrite_notOwner hh ho hs (regAt_valveForce col) rfl
    · exact namedWrite_notOwner hh ho hs (regAt_scrubCfg col) rfl
    · exact namedWrite_notOwner hh ho hs regAt_logCtl (logClear_isControl _)
  case aAfterB =>
    intro t ht
    cases (exec_mgmtSemAcquire (regHeld_of_mgmt s (r := .mgmtB) rfl) (by decide)).symm.trans ht
    exact ⟨_, exec_mgmtSemAcquire (regHeld_of_mgmt _ rfl) (by decide), semWrite_pair ho hf hv2 rfl⟩
  case bAfterA =>
    intro t ht
    cases (exec_mgmtSemAcquire (regHeld_of_mgmt s (r := .mgmtA) rfl) (by decide)).symm.trans ht
    exact ⟨_, exec_mgmtSemAcquire (regHeld_of_mgmt _ rfl) (by decide), semWrite_pair ho hf hv2 rfl⟩
  case locked => rw [exec_hbmSplitLock he, splitWrite_locked hl]
  case wear =>
    obtain ⟨t, ht, hz⟩ := exec_wearSetWrite (v := v) he
    exact ⟨t, ht, by rw [hz], by rw [hz], by rw [hz]⟩
  case gate => rw [exec_coreGate he, gateCore_ready hq hg hm hu]

end Sys2Proof.Machine
end

section
/-! PROOF. Columns in the power loops (02 R56 to R59, R71, R74): what a pass over the columns leaves of one of them, and the duty. -/

namespace Sys2Proof.Machine

variable {s t u : State} {c n : Nat}

/-! ### A fold read at one place -/

/-- Where one member of a list without repetition alone changes what `get` reads, the fold changes it as that member does. `P` holds of every
state on the way. -/
theorem get_foldl_once {σ β : Type} {f : σ → Nat → σ} {get : σ → β} {v : β → β} {P : σ → Prop} {l : List Nat} {i : Nat} (hl : l.Nodup)
    (hi : i ∈ l) (hP : ∀ s j, P s → P (f s j)) (hself : ∀ s, P s → get (f s i) = v (get s))
    (hother : ∀ s j, P s → j ∈ l → j ≠ i → get (f s j) = get s) {s : σ} (hs : P s) : get (l.foldl f s) = v (get s) := by
  induction l generalizing s with
  | nil => exact absurd hi List.not_mem_nil
  | cons a l ih =>
    obtain ⟨hal, hl⟩ := List.nodup_cons.1 hl
    rw [List.foldl_cons]
    by_cases ha : a = i
    · subst ha
      refine (List.foldlRecOn l f (motive := fun t => P t ∧ get t = get (f s a)) ⟨hP s a hs, rfl⟩ ?_).2.trans (hself s hs)
      exact fun t ⟨ht, hget⟩ j hj => ⟨hP t j ht, (hother t j ht (List.mem_cons_of_mem _ hj) (fun e => hal (e ▸ hj))).trans hget⟩
    · rw [ih hl (List.mem_of_ne_of_mem (Ne.symm ha) hi) (fun t j ht hj => hother t j ht (List.mem_cons_of_mem _ hj)) (hP s a hs),
        hother s a hs List.mem_cons_self ha]

/-- A pass over the columns that changes each by `g`, read at one column. -/
theorem colAt_foldl {f : State → Nat → State} {g : Nat → Column → Column} (hf : ∀ t c, ColsOnly t (f t c))
    (hg : ∀ t c, ColsOnly s t → ∀ n, colAt (f t c) n = if n = c then g c (colAt t c) else colAt t n) (hn : n < 64) :
    colAt ((List.range 64).foldl f s) n = g n (colAt s n) :=
  get_foldl_once (get := fun t => colAt t n) (v := g n) (P := ColsOnly s) List.nodup_range (List.mem_range.2 hn)
    (fun t c ht => ht.trans (hf t c)) (fun t ht => (hg t n ht n).trans (if_pos rfl))
    (fun t c ht _ hc => (hg t c ht n).trans (if_neg (Ne.symm hc))) (.refl s)

/-! ### What the power loops own -/

/-- `t` is `s` but for columns, partitions, the power state, the management state and the counter of free values. -/
structure PowerOnly (s t : State) : Prop where
  eq : t = { s with cols := t.cols, parts := t.parts, power := t.power, mgmt := t.mgmt, fresh := t.fresh }

theorem PowerOnly.refl (s : State) : PowerOnly s s := ⟨rfl⟩

theorem PowerOnly.trans (h : PowerOnly s t) (k : PowerOnly t u) : PowerOnly s u := by
  obtain ⟨h⟩ := h
  obtain ⟨k⟩ := k
  exact ⟨by rw [k, h]⟩

theorem ColsOnly.powerOnly (h : ColsOnly s t) : PowerOnly s t := ⟨by rw [h.eq]⟩

/-- Memory, the L1s, the clutches and the tasks are none of it. -/
theorem PowerOnly.frame (h : PowerOnly s t) : t.mem = s.mem ∧ t.l1 = s.l1 ∧ t.clutches = s.clutches ∧ t.tasks = s.tasks := by
  rw [h.eq]
  exact ⟨rfl, rfl, rfl, rfl⟩

theorem ColsOnly.fresh (h : ColsOnly s t) : t.fresh = s.fresh := by rw [h.eq]

theorem PowerOnly.pkg (h : PowerOnly s t) : t.pkg = s.pkg := by rw [h.eq]
theorem PowerOnly.tsc (h : PowerOnly s t) : t.tsc = s.tsc := by rw [h.eq]

theorem powerOnly_foldl {ι : Type} {f : State → ι → State} (hf : ∀ s i, PowerOnly s (f s i)) (l : List ι) (s : State) :
    PowerOnly s (l.foldl f s) :=
  List.foldlRecOn l f (motive := PowerOnly s) (.refl s) (fun t ht i _ => ht.trans (hf t i))

theorem powerOnly_setPart (s : State) (p : Nat) (x : Part) : PowerOnly s (setPart s p x) := ⟨rfl⟩
theorem powerOnly_logPost (s : State) (source cls code : Nat) (data : BitVec 128) : PowerOnly s (logPost s source cls code data) := ⟨rfl⟩

/-- An entry of the log counts, and is the next of its source. -/
theorem logPost_counts (s : State) (source cls code : Nat) (data : BitVec 128) :
    (logPost s source cls code data).mgmt.tail = s.mgmt.tail + 1 ∧
      tget 0 (logPost s source cls code data).mgmt.seq source = tget 0 s.mgmt.seq source + 1 := ⟨rfl, tget_tput_self ..⟩

/-! ### Duty (02 R56, R59) -/

/-- The column once its duty is `d`. -/
def dutySet (k : Column) (d : Nat) : Column :=
  if d = k.duty then k
  else if d < k.duty then { k with duty := d }
  else { k with
    duty := d
    throttle := k.throttle + 1
    govPend := k.govPend || k.govIe
    host := if k.govIe && !k.govPend then { k.host with gov := true } else k.host }

/-- Of the limits and times of the governors nothing changes with the duty. -/
theorem dutySet_fields (k : Column) (d : Nat) : (dutySet k d).duty = d ∧ (dutySet k d).therm = k.therm ∧ (dutySet k d).ramp = k.ramp ∧
    (dutySet k d).thermAt = k.thermAt ∧ (dutySet k d).coolAt = k.coolAt := by
  unfold dutySet
  split
  next h => exact ⟨h.symm, rfl, rfl, rfl, rfl⟩
  next => split <;> exact ⟨rfl, rfl, rfl, rfl, rfl⟩

theorem colAt_settle (s : State) (c n : Nat) :
    colAt (settle s c) n = if n = c then dutySet (colAt s c) (dutySteps s c) else colAt s n := by
  unfold settle dutySet
  dsimp only
  split
  · split
    next h => rw [h]
    next => rfl
  · split <;> exact colAt_setCol ..

theorem dutySteps_congr (hparts : t.parts = s.parts) (hpkg : t.pkg = s.pkg) (htherm : (colAt t n).therm = (colAt s n).therm)
    (hramp : (colAt t n).ramp = (colAt s n).ramp) : dutySteps t n = dutySteps s n := by
  unfold dutySteps assignedCol partOf partAt
  dsimp only
  rw [hparts, hpkg, htherm, hramp]

/-- Settling changes no limit. -/
theorem dutySteps_settle (s : State) (c n : Nat) : dutySteps (settle s c) n = dutySteps s n := by
  obtain ⟨_, htherm, hramp, _⟩ := dutySet_fields (colAt s c) (dutySteps s c)
  have hcols := colsOnly_settle s c
  refine dutySteps_congr hcols.parts hcols.pkg ?_ ?_
  all_goals
    rw [colAt_settle]
    split
    next h => simp only [h, htherm, hramp]
    next => rfl

theorem settle_settles (s : State) (c : Nat) : (colAt (settle s c) c).duty = dutySteps (settle s c) c := by
  rw [dutySteps_settle, colAt_settle, if_pos rfl]
  exact (dutySet_fields ..).1

theorem dutySteps_settleAll (s : State) (n : Nat) : dutySteps (settleAll s) n = dutySteps s n :=
  List.foldlRecOn (motive := fun t => dutySteps t n = dutySteps s n) _ _ rfl (fun t ht c _ => (dutySteps_settle t c n).trans ht)

theorem colAt_settleAll (s : State) (hn : n < 64) : colAt (settleAll s) n = dutySet (colAt s n) (dutySteps s n) :=
  get_foldl_once (get := fun t => colAt t n) (v := fun k => dutySet k (dutySteps s n)) (P := fun t => dutySteps t n = dutySteps s n)
    List.nodup_range (List.mem_range.2 hn) (fun t c ht => (dutySteps_settle t c n).trans ht)
    (fun t ht => by rw [colAt_settle, if_pos rfl, ht])
    (fun t c _ _ hc => by rw [colAt_settle, if_neg (Ne.symm hc)]) rfl

/-- Every column stands at the duty that its limits give. -/
def Settled (t : State) : Prop := ∀ n, n < 64 → (colAt t n).duty = dutySteps t n

theorem settled_settleAll (s : State) : Settled (settleAll s) := by
  intro n hn
  rw [dutySteps_settleAll, colAt_settleAll s hn]
  exact (dutySet_fields ..).1

/-! ### Column governors (02 R57) -/

theorem colAt_heatWatch (s : State) (c n : Nat) : colAt (heatWatch s c) n = if n = c then { colAt s c with
    thermAt := if isHot s c then (colAt s c).thermAt else none
    coolAt := if isCool s c then some ((colAt s c).coolAt.getD s.tsc.toNat) else none } else colAt s n := colAt_setCol ..

theorem colsOnly_setSensors (s : State) (c : Nat) (tj tb : BitVec 8) : ColsOnly s (setSensors s c tj tb) :=
  (colsOnly_setCol ..).trans (colsOnly_heatWatch ..)

theorem colsOnly_setTherm (s : State) (c n : Nat) : ColsOnly s (setTherm s c n) := (colsOnly_setCol ..).trans (colsOnly_settle ..)

theorem colAt_setSensors (s : State) (c : Nat) (tj tb : BitVec 8) : ∃ a b, colAt (setSensors s c tj tb) c =
    { colAt s c with tj := tj, tb := tb, thermAt := a, coolAt := b } := by
  unfold setSensors
  rw [colAt_heatWatch, if_pos rfl, colAt_setCol_self]
  exact ⟨_, _, rfl⟩

theorem colAt_setSensors_of_ne (s : State) (tj tb : BitVec 8) (h : n ≠ c) : colAt (setSensors s c tj tb) n = colAt s n := by
  unfold setSensors
  rw [colAt_heatWatch, if_neg h, colAt_setCol, if_neg h]

/-- A column that is not hot keeps no time of a step down, and one that is cool has the time since which it is. -/
theorem heatWatch_times (s : State) (c : Nat) :
    (isHot (heatWatch s c) c = false → (colAt (heatWatch s c) c).thermAt = none) ∧
    (isCool (heatWatch s c) c = true → (colAt (heatWatch s c) c).coolAt.isSome = true) := by
  have hcol : colAt (heatWatch s c) c = _ := (colAt_heatWatch s c c).trans (if_pos rfl)
  have hhot : isHot (heatWatch s c) c = isHot s c := by
    unfold isHot
    rw [hcol, (colsOnly_heatWatch s c).power]
  have hcool : isCool (heatWatch s c) c = isCool s c := by
    unfold isCool
    rw [hcol, (colsOnly_heatWatch s c).power]
  rw [hhot, hcool, hcol]
  exact ⟨fun h => by simp [h], fun h => by simp [h]⟩

/-- A column's thermal limit and the duty that comes of it; no other column changes. -/
theorem setTherm_effect (s : State) (c m : Nat) :
    (colAt (setTherm s c m) c).therm = m ∧ (colAt (setTherm s c m) c).thermAt = (colAt s c).thermAt ∧
    (colAt (setTherm s c m) c).coolAt = (colAt s c).coolAt ∧ (colAt (setTherm s c m) c).duty = dutySteps (setTherm s c m) c ∧
    ∀ n, n ≠ c → colAt (setTherm s c m) n = colAt s n := by
  unfold setTherm
  dsimp only
  refine ⟨?_, ?_, ?_, settle_settles .., fun n hn => ?_⟩
  · rw [colAt_settle, if_pos rfl, colAt_setCol_self]
    exact (dutySet_fields ..).2.1
  · rw [colAt_settle, if_pos rfl, colAt_setCol_self]
    exact (dutySet_fields ..).2.2.2.1
  · rw [colAt_settle, if_pos rfl, colAt_setCol_self]
    exact (dutySet_fields ..).2.2.2.2
  · rw [colAt_settle, if_neg hn, colAt_setCol, if_neg hn]

/-! ### Records of steps down (02 R66) -/

/-- A field is a part of what stands below its end. -/
theorem bits_eq_mod_div (x lo w : Nat) : bits x lo w = x % 2 ^ (lo + w) / 2 ^ lo := by
  unfold bits
  rw [pow_add, Nat.mod_mul_right_div_self]

theorem setBits_eq (x lo w v : Nat) : setBits x lo w v = x % 2 ^ lo + 2 ^ lo * (v % 2 ^ w + 2 ^ w * (x / 2 ^ lo / 2 ^ w)) := by
  have h1 := Nat.div_add_mod x (2 ^ lo)
  have h2 := Nat.div_add_mod (x / 2 ^ lo) (2 ^ w)
  unfold setBits bits
  generalize x / 2 ^ lo / 2 ^ w = q at *
  generalize x / 2 ^ lo % 2 ^ w = b at *
  generalize x % 2 ^ lo = r at *
  rw [← h1, ← h2]
  rw [show 2 ^ lo * (2 ^ w * q + b) + r - b * 2 ^ lo = 2 ^ lo * (2 ^ w * q) + r by rw [Nat.mul_add, Nat.mul_comm b]; omega]
  ring

theorem bits_setBits_self (x lo w v : Nat) : bits (setBits x lo w v) lo w = v % 2 ^ w := by
  rw [setBits_eq, bits, Nat.add_mul_div_left _ _ (Nat.two_pow_pos lo), Nat.div_eq_of_lt (Nat.mod_lt _ (Nat.two_pow_pos lo)), Nat.zero_add,
    Nat.add_mul_mod_self_left, Nat.mod_mod]

/-- A field below the one that is replaced stays. -/
theorem bits_setBits_below {x a b lo w v : Nat} (h : a + b ≤ lo) : bits (setBits x lo w v) a b = bits x a b := by
  have hdvd : 2 ^ (a + b) ∣ 2 ^ lo := Nat.pow_dvd_pow 2 h
  rw [bits_eq_mod_div, bits_eq_mod_div, setBits_eq, Nat.add_mod, Nat.mod_eq_zero_of_dvd (Dvd.dvd.mul_right hdvd _), Nat.add_zero,
    Nat.mod_mod, Nat.mod_mod_of_dvd _ hdvd]

theorem bits_toNat_ofNat {a b m : Nat} (x : Nat) (h : a + b ≤ m) : bits (BitVec.ofNat m x).toNat a b = bits x a b := by
  rw [BitVec.toNat_ofNat, bits_eq_mod_div, bits_eq_mod_div, Nat.mod_mod_of_dvd _ (Nat.pow_dvd_pow 2 h)]

/-- `CAP_CAUSE.CAUSE` of a partition (02 R66). -/
def causeOf (x : Part) : Nat := bits x.cause.toNat 1 3

end Sys2Proof.Machine
end

section
/-! PROOF. The governors, the ramp guard, valves, alarms, emergencies and cap frames (02 R57, R58, R67 to R78): what one act of each
leaves. -/

namespace Sys2Proof.Machine

variable {s t : State} {c n : Nat}

/-! ### Records of steps down (02 R66) -/

theorem partAt_capRecord (s : State) (p cause : Nat) : ∃ v, causeOf { partAt s p with cause := v } = cause % 2 ^ 3 ∧
    ∀ q, partAt (capRecord s p cause) q = if q = p then { partAt s p with cause := v } else partAt s q := by
  refine ⟨_, ?_, fun q => partAt_setPart ..⟩
  unfold causeOf
  dsimp only
  rw [bits_toNat_ofNat _ (by decide), bits_setBits_below (by decide), bits_setBits_below (by decide), bits_setBits_below (by decide),
    bits_setBits_self]

theorem partAt_causeRecord (s : State) (p cause : Nat) : ∃ v, causeOf { partAt s p with cause := v } = cause % 2 ^ 3 ∧
    ∀ q, partAt (causeRecord s p cause) q = if q = p then { partAt s p with cause := v } else partAt s q := by
  refine ⟨_, ?_, fun q => partAt_setPart ..⟩
  unfold causeOf
  dsimp only
  rw [bits_toNat_ofNat _ (by decide), bits_setBits_below (by decide), bits_setBits_self]

theorem powerOnly_capRecord (s : State) (p cause : Nat) : PowerOnly s (capRecord s p cause) := ⟨rfl⟩

/-! ### Thermal steps (02 R57) -/

/-- What a thermal step down records of its partition. -/
def thermRecord (s : State) (c : Nat) : State :=
  match validPart s c with
  | some p => capRecord s p 5
  | none => s

theorem thermRecord_cols (s : State) (c : Nat) : (thermRecord s c).cols = s.cols := by
  unfold thermRecord
  split <;> rfl

theorem powerOnly_thermRecord (s : State) (c : Nat) : PowerOnly s (thermRecord s c) := by
  unfold thermRecord
  split
  · exact powerOnly_capRecord ..
  · exact .refl s

theorem causeOf_thermRecord {p : Nat} (h : validPart s c = some p) : causeOf (partAt (thermRecord s c) p) = 5 := by
  obtain ⟨v, hcause, hpart⟩ := partAt_capRecord s p 5
  unfold thermRecord
  rw [h]
  dsimp only
  rw [hpart, if_pos rfl]
  exact hcause

/-- The state once the record is made and the column's thermal limit is `n`. -/
def thermLowered (s : State) (c n : Nat) : State :=
  setTherm (thermRecord (setCol s c { colAt s c with thermAt := some s.tsc.toNat }) c) c n

theorem exec_thermalStepDown {col : Fin 64} (hh : isHot s col.val = true)
    (hd : ∀ at_, (colAt s col.val).thermAt = some at_ → at_ + 20000 ≤ s.tsc.toNat) (hl : (colAt s col.val).therm < 3) :
    exec (.thermalStepDown col) s = .next (thermLowered s col.val ((colAt s col.val).therm + 1)) := by
  change execThermalStepDown col s = _
  unfold execThermalStepDown
  refine if_neg ?_
  cases hat : (colAt s col.val).thermAt with
  | none => simp [hh, hl]
  | some at_ => simp [hh, hl, hd at_ hat]

theorem exec_thermalStepUp {col : Fin 64} {at_ : Nat} (hc : isCool s col.val = true) (ha : (colAt s col.val).coolAt = some at_)
    (hd : at_ + 100000 ≤ s.tsc.toNat) (hl : 0 < (colAt s col.val).therm) :
    exec (.thermalStepUp col) s = .next (setTherm (setCol s col.val { colAt s col.val with coolAt := some s.tsc.toNat }) col.val
      ((colAt s col.val).therm - 1)) := by
  change execThermalStepUp col s = _
  unfold execThermalStepUp
  dsimp only
  rw [ha, hc]
  exact if_neg (by simp [hd, Nat.ne_of_gt hl])

/-! ### The ramp guard (02 R71 to R73) -/

/-- The hold of column c while the counter of free values stands at `fresh`; column `one` is held wherever one is. -/
def holdOf (fresh one : Nat) (held : Bool) (c : Nat) : Nat :=
  if !held then 0 else if c = one then Config.freeNat (fresh + c) % 3 + 1 else Config.freeNat (fresh + c) % 4

/-- The ramp guard's act on one column. -/
def rampStep (one : Nat) (held : Bool) (t : State) (c : Nat) : State :=
  if holdOf t.fresh one held c = (colAt t c).ramp then t else setCol t c { colAt t c with ramp := holdOf t.fresh one held c }

theorem colsOnly_rampStep (one : Nat) (held : Bool) (t : State) (c : Nat) : ColsOnly t (rampStep one held t c) := by
  unfold rampStep
  split
  · exact .refl t
  · exact colsOnly_setCol ..

theorem colAt_rampStep (one : Nat) (held : Bool) (t : State) (c n : Nat) : colAt (rampStep one held t c) n =
    if n = c then { colAt t c with ramp := holdOf t.fresh one held c } else colAt t n := by
  unfold rampStep
  split
  next h =>
    rw [h]
    split
    next hn => rw [hn]
    next => rfl
  next => exact colAt_setCol ..

/-- The holds of a tick, before the duty follows them. -/
def rampHeld (s : State) (held : Bool) : State :=
  let r := (List.range 64).foldl (rampStep (Config.freeNat (s.fresh + 64) % 64) held) s
  { r with fresh := if held then r.fresh + 65 else r.fresh }

theorem rampHolds_eq (s : State) (held : Bool) : rampHolds s held = settleAll (rampHeld s held) := rfl

/-- Holds touch columns and the counter of free values. -/
theorem rampHolds_frame (s : State) (held : Bool) : PowerOnly s (rampHolds s held) ∧ (rampHolds s held).power = s.power := by
  have hfold := colsOnly_foldl (colsOnly_rampStep (Config.freeNat (s.fresh + 64) % 64) held) (List.range 64) s
  have hall := colsOnly_settleAll (rampHeld s held)
  have hheld : PowerOnly s (rampHeld s held) := hfold.powerOnly.trans ⟨rfl⟩
  exact ⟨hheld.trans hall.powerOnly, hall.power.trans hfold.power⟩

theorem ramp_rampHolds (s : State) (held : Bool) (hn : n < 64) :
    (colAt (rampHolds s held) n).ramp = holdOf s.fresh (Config.freeNat (s.fresh + 64) % 64) held n := by
  have hcol : colAt (rampHeld s held) n = _ :=
    colAt_foldl (g := fun c k => { k with ramp := holdOf s.fresh (Config.freeNat (s.fresh + 64) % 64) held c }) (colsOnly_rampStep _ held)
      (fun t c ht n => by rw [colAt_rampStep, ht.fresh]) hn
  rw [rampHolds_eq, colAt_settleAll _ hn, (dutySet_fields ..).2.2.1, hcol]

/-- A demand within the allowance holds no column; a demand beyond it holds one. -/
theorem exists_ramp_pos (s : State) : ∃ n, n < 64 ∧ 0 < (colAt (rampHolds s true) n).ramp := by
  refine ⟨Config.freeNat (s.fresh + 64) % 64, Nat.mod_lt _ (by decide), ?_⟩
  rw [ramp_rampHolds s true (Nat.mod_lt _ (by decide))]
  simp [holdOf]

theorem ramp_zero (s : State) (hn : n < 64) : (colAt (rampHolds s false) n).ramp = 0 := by
  rw [ramp_rampHolds s false hn]
  rfl

/-! ### Valves (02 R74) -/

/-- A column once its valve follows its sensors. -/
def valveSet (k : Column) : Column := if k.vfEn then k else { k with valve := BitVec.ofNat 8 (valveFor (max k.tj.toNat k.tb.toNat)) }

theorem exec_valvePass : ∃ t, exec .valvePass s = .next t ∧ ColsOnly s t ∧ ∀ n, n < 64 → colAt t n = valveSet (colAt s n) := by
  refine ⟨_, rfl, colsOnly_foldl ?cols _ s, fun n hn => colAt_foldl (g := fun _ => valveSet) ?cols ?valve hn⟩
  case cols =>
    intro t c
    dsimp only
    split
    · exact .refl t
    · exact colsOnly_setCol ..
  case valve =>
    intro t c _ n
    dsimp only [valveSet]
    split
    next h => split <;> simp_all
    next => exact colAt_setCol ..

/-- A tick of 0.5 µs: current moves by at most 750 A, ballast fills what falls short, and a demand beyond that holds some column. -/
theorem exec_rampGuardTick (demand : Nat) : ∃ t, exec (.rampGuardTick demand) s = .next t ∧
    t.power.allow = s.power.current + s.power.ballast + 750 ∧ t.power.floor = s.power.current + s.power.ballast - 750 ∧
    t.power.current = min demand (s.power.current + s.power.ballast + 750) ∧
    t.power.ballast = s.power.current + s.power.ballast - 750 - min demand (s.power.current + s.power.ballast + 750) ∧
    (t.power.ballast ≠ 0 → t.power.ballastAt.isSome = true ∧ t.power.ballast ≤ t.power.ballastPk) ∧
    (demand ≤ s.power.current + s.power.ballast + 750 → ∀ n, n < 64 → (colAt t n).ramp = 0) ∧
    (s.power.current + s.power.ballast + 750 < demand → ∃ n, n < 64 ∧ 0 < (colAt t n).ramp) ∧ Settled t ∧ PowerOnly s t := by
  refine ⟨_, rfl, ?_⟩
  generalize hheld : decide (s.power.current + s.power.ballast + 750 < demand) = held
  generalize hp : ({ s with power := _ } : State) = u
  obtain ⟨hframe, hpower⟩ := rampHolds_frame u held
  have hmin : natMin demand (s.power.current + s.power.ballast + 750) = min demand (s.power.current + s.power.ballast + 750) := rfl
  rw [hpower]
  refine ⟨by rw [← hp], by rw [← hp], by rw [← hp]; exact hmin, by rw [← hp]; exact hmin ▸ rfl, fun hb => ?_, fun hd n hn => ?_,
    fun hd => ?_, settled_settleAll _, ?_⟩
  · subst hp
    refine ⟨?_, Nat.le_max_right ..⟩
    simp only [if_neg hb, Option.isSome_some]
  · rw [decide_eq_false (Nat.not_lt.2 hd)] at hheld
    exact hheld ▸ ramp_zero u hn
  · rw [decide_eq_true hd] at hheld
    exact hheld ▸ exists_ramp_pos u
  · exact PowerOnly.trans ⟨by rw [← hp]⟩ hframe

theorem exec_ballastStop {at_ : Nat} (ha : s.power.ballastAt = some at_) (hb : s.power.ballast = 0) :
    exec .ballastStop s = .next { logPost s 0 2 0x10 (Config.logData 0x10 [s.power.ballastPk, s.tsc.toNat - at_]) with
      power := { s.power with ballastPk := 0, ballastAt := none } } := by
  change execBallastStop s = _
  unfold execBallastStop
  rw [ha]
  exact if_neg (fun h => h hb)

/-! ### Coolant (02 R76) -/

theorem exec_coolantAlarm {tower : Fin 4} {inlet flow : Nat} (h : 45 < inlet ∨ flow < Config.flowFloor tower.val) :
    exec (.coolantAlarm tower inlet flow) s = .next (if s.power.alarms.contains tower.val then s
      else { logPost s 0 1 3 (Config.logData 3 [tower.val, inlet, flow]) with
        power := { s.power with alarms := tower.val :: s.power.alarms } }) := by
  have hbad : ¬(inlet ≤ 45 ∧ Config.flowFloor tower.val ≤ flow) := by omega
  change execCoolantAlarm tower inlet flow s = _
  unfold execCoolantAlarm
  dsimp only
  rw [if_neg hbad]
  split <;> rfl

theorem exec_coolantAlarm_over {tower : Fin 4} {inlet flow : Nat} (hi : inlet ≤ 45) (hf : Config.flowFloor tower.val ≤ flow) :
    exec (.coolantAlarm tower inlet flow) s = .next { s with
      power := { s.power with alarms := s.power.alarms.filter (fun x => decide (x ≠ tower.val)) } } :=
  if_pos ⟨hi, hf⟩

/-! ### The thermal emergency (02 R77, R78) -/

/-- The state in which an emergency has begun at a sensor. -/
def emergencyAt (s : State) (col : Nat) (bank : Bool) (temp : BitVec 8) (tj tb : BitVec 8) : State :=
  { logPost (setSensors s col tj tb) 0 1 1 (Config.logData 1 [col, if bank then 1 else 0, temp.toNat]) with emerg := some s.tsc.toNat }

theorem exec_emergencyBegin {col : Fin 64} {bank : Bool} {temp : BitVec 8} (he : s.emerg = none) (ht : isEmergency bank temp.toNat = true) :
    exec (.emergencyBegin col bank temp) s = .next (if bank then emergencyAt s col.val true temp (colAt s col.val).tj temp
      else emergencyAt s col.val false temp temp (colAt s col.val).tb) := by
  change execEmergencyBegin col bank temp s = _
  unfold execEmergencyBegin
  rw [he, ht]
  cases bank <;> rfl

/-- Its sensors have their readings; it is logged; and of memory, the L1s, the clutches and the tasks nothing changes. -/
theorem emergencyAt_effect (s : State) (col : Nat) (bank : Bool) (temp tj tb : BitVec 8) :
    (colAt (emergencyAt s col bank temp tj tb) col).tj = tj ∧ (colAt (emergencyAt s col bank temp tj tb) col).tb = tb ∧
    (emergencyAt s col bank temp tj tb).mgmt.tail = s.mgmt.tail + 1 ∧
    tget 0 (emergencyAt s col bank temp tj tb).mgmt.seq 0 = tget 0 s.mgmt.seq 0 + 1 ∧
    (emergencyAt s col bank temp tj tb).mem = s.mem ∧ (emergencyAt s col bank temp tj tb).l1 = s.l1 ∧
    (emergencyAt s col bank temp tj tb).clutches = s.clutches ∧ (emergencyAt s col bank temp tj tb).tasks = s.tasks := by
  obtain ⟨a, b, hcol⟩ := colAt_setSensors s col tj tb
  have hat : colAt (emergencyAt s col bank temp tj tb) col = colAt (setSensors s col tj tb) col := rfl
  rw [hat, hcol]
  obtain ⟨htail, hseq⟩ := logPost_counts (setSensors s col tj tb) 0 1 1 (Config.logData 1 [col, if bank then 1 else 0, temp.toNat])
  exact ⟨rfl, rfl, htail, hseq, (colsOnly_setSensors s col tj tb).powerOnly.frame⟩

/-- At its end the cores are gated and ungated as `CORE_PG` asks, in the state that the emergency leaves. -/
theorem exec_emergencyEnd {at_ : Nat} (he : s.emerg = some at_)
    (hcool : ∀ n, n < 64 → (colAt s n).tj.toNat ≤ 95 ∧ (colAt s n).tb.toNat ≤ 95) :
    ∃ data, exec .emergencyEnd s = .next ((s.cols.map (·.1)).foldl gateColumn
      { logPost (shiftTimes s (s.tsc.toNat - at_)) 0 1 2 data with
        emerg := none, power := { s.power with current := 3000, allow := 3000 } }) := by
  have hhot : (List.range 64).any (fun c => decide (95 < (colAt s c).tj.toNat) || decide (95 < (colAt s c).tb.toNat)) = false := by
    rw [List.any_eq_false]
    intro n hn
    obtain ⟨htj, htb⟩ := hcool n (List.mem_range.1 hn)
    simp [htj, htb]
  change ∃ data, execEmergencyEnd s = _
  unfold execEmergencyEnd
  dsimp only
  rw [hhot, he]
  exact ⟨_, rfl⟩

theorem exec_emergencyTimeout {at_ : Nat} (he : s.emerg = some at_) (ht : at_ + 10000000000 ≤ s.tsc.toNat) :
    exec .emergencyTimeout s = .next { afterReset s with
      boot := .railsOff, mgmt := (fatalError s 2).mgmt, msix := (fatalError s 2).msix, tsc := s.tsc } := by
  change execEmergencyTimeout s = _
  unfold execEmergencyTimeout
  rw [he]
  exact if_neg (Nat.not_lt.2 ht)

/-! ### Cap frames (02 R67 to R70) -/

variable {port : Bool} {bytes : List Byte}

/-- A frame that is refused is logged with its reason. -/
theorem exec_capFrame_refused (h : frameFormat bytes = false ∨ frameMac s bytes = false) :
    ∃ r, exec (.capFrame port bytes) s =
      .next (logPost s (if port then 3 else 2) 2 0x12 (Config.logData 0x12 [r])) := by
  change ∃ r, execCapFrame port bytes s = _
  unfold execCapFrame
  cases hf : frameFormat bytes with
  | false => exact ⟨1, rfl⟩
  | true =>
    have hm : frameMac s bytes = false := h.resolve_left (by simp [hf])
    exact ⟨2, by rw [hm]; rfl⟩

/-- An old frame is ignored. -/
theorem exec_capFrame_old (hf : frameFormat bytes = true) (hm : frameMac s bytes = true) (hv : s.mgmt.capValid = true)
    (hn : serialNewer (BitVec.ofNat 32 (frameField bytes 4 4)) s.mgmt.capSeq = false) : exec (.capFrame port bytes) s = .next s := by
  change execCapFrame port bytes s = _
  simp [execCapFrame, hf, hm, hv, hn]

/-- What a frame sets. -/
def frameTaken (s : State) (bytes : List Byte) : State :=
  { s with
    power := { s.power with
      rankCap := (List.range 8).foldl (fun t r => tput 0xFFFFFFFF t r (BitVec.ofNat 32 (frameField bytes (12 + 4 * r) 4))) s.power.rankCap
      devCap := if frameField bytes 3 1 % 2 = 1 then BitVec.ofNat 32 (frameField bytes 8 4) else s.power.devCap }
    mgmt := { s.mgmt with capSeq := BitVec.ofNat 32 (frameField bytes 4 4), capValid := true } }

theorem exec_capFrame_taken (hf : frameFormat bytes = true) (hm : frameMac s bytes = true)
    (hn : s.mgmt.capValid = false ∨ serialNewer (BitVec.ofNat 32 (frameField bytes 4 4)) s.mgmt.capSeq = true) :
    exec (.capFrame port bytes) s = .next (frameTaken s bytes) := by
  have hnew : (s.mgmt.capValid && !serialNewer (BitVec.ofNat 32 (frameField bytes 4 4)) s.mgmt.capSeq) = false := by
    rcases hn with h | h <;> simp [h]
  change execCapFrame port bytes s = _
  unfold execCapFrame
  dsimp only
  rw [hf, hm, hnew]
  rfl

theorem rankCap_frameTaken {r : Nat} (hr : r < 8) :
    tget 0xFFFFFFFF (frameTaken s bytes).power.rankCap r = BitVec.ofNat 32 (frameField bytes (12 + 4 * r) 4) :=
  (tget_foldl_tput ..).trans (if_pos (List.mem_range.2 hr))

end Sys2Proof.Machine
end

section
/-! PROOF. The power model (02 R52 to R55): the counters of an estimate, the powers that it computes from them, and the refit. -/

namespace Sys2Proof.Machine

variable {α : Type} {s t : State} {n : Nat}

/-! ### Lists and tables -/

theorem listGet_eq_getElem? (l : List α) (n : Nat) : listGet l n = l[n]? := by
  induction l generalizing n with
  | nil => simp [listGet]
  | cons x l ih => cases n <;> simp [listGet, ih]

theorem listGet_map_range (f : Nat → α) {m : Nat} (hn : n < m) : listGet ((List.range m).map f) n = some (f n) := by
  simp [listGet_eq_getElem?, hn]

/-- A table of a list's values without its zeros reads as they do. -/
theorem tget_map_filter (f : Nat → Nat) (l : List Nat) (n : Nat) :
    tget 0 ((l.map (fun k => (k, f k))).filter (fun p => decide (p.2 ≠ 0))) n = if n ∈ l then f n else 0 := by
  induction l with
  | nil => rfl
  | cons a l ih =>
    rw [List.map_cons, List.filter_cons]
    by_cases hn : n = a
    · subst hn
      by_cases hf : f n = 0
      · rw [if_neg (by simp [hf]), ih, hf]
        simp
      · rw [if_pos (by simp [hf])]
        simp [tget]
    · have hcons : tget 0 ((a, f a) :: (l.map (fun k => (k, f k))).filter (fun p => decide (p.2 ≠ 0))) n = if n ∈ l then f n else 0 := by
        rw [← ih]
        exact if_neg hn
      simp only [List.mem_cons, hn, false_or]
      split
      · exact hcons
      · exact ih

/-- A table without the keys that `q` refuses. -/
theorem tget_filter_key (d : α) (q : Nat → Bool) (t : Tab α) (n : Nat) :
    tget d (t.filter (fun p => q p.1)) n = if q n then tget d t n else d := by
  induction t with
  | nil => simp [tget]
  | cons p t ih =>
    obtain ⟨k, v⟩ := p
    by_cases hk : q k = true
    · by_cases hn : n = k
      · subst hn
        simp [tget, hk]
      · simp [tget, hk, hn, ih]
    · by_cases hn : n = k
      · subst hn
        simp [hk, ih]
      · simp [tget, hk, hn, ih]

theorem tget_tupd [DecidableEq α] (d : α) (t : Tab α) (n m : Nat) (f : α → α) :
    tget d (tupd d t n f) m = if m = n then f (tget d t n) else tget d t m := tget_tput ..

/-! ### The sample of an estimate (02 R52, R53) -/

/-- The state once the shunts and the counters are read and the free temperatures drawn. -/
def sampled (s : State) : State :=
  { readShunts s with
    power := { (readShunts s).power with counts := freeCounts (readShunts s), tally := [] }
    fresh := (readShunts s).fresh + 24 * 260 + 16 }

/-- The free temperature of domain n. -/
def freeTemp (s : State) (n : Nat) : Nat := Config.freeNat ((readShunts s).fresh + 24 * 260 + n)

/-- The shunts are power state and their free values come from the counter. -/
theorem readShunts_frame (s : State) : readShunts s =
    { s with fresh := (readShunts s).fresh, power := { s.power with shunt := (readShunts s).power.shunt } } := by
  unfold readShunts
  split <;> rfl

theorem powerOnly_sampled (s : State) : PowerOnly s (sampled s) := by
  unfold sampled
  rw [readShunts_frame s]
  exact ⟨rfl⟩

theorem sampled_parts (s : State) : (sampled s).cols = s.cols ∧ (sampled s).parts = s.parts ∧ (sampled s).pkg = s.pkg := by
  unfold sampled
  rw [readShunts_frame s]
  exact ⟨rfl, rfl, rfl⟩

theorem sampled_power (s : State) : (sampled s).power.ests = s.power.ests ∧ (sampled s).power.partEsts = s.power.partEsts ∧
    (sampled s).power.tally = [] := by
  unfold sampled
  rw [readShunts_frame s]
  exact ⟨rfl, rfl, rfl⟩

theorem tget_freeCounts (s : State) {k : Nat} (hk : k < 24 * 260) : tget 0 (freeCounts s) k =
    if counted (k % 24) then tget 0 s.power.tally k
    else if Config.eventIn (blockKind (k / 24)) (k % 24) then Config.freeNat (s.fresh + k) else 0 :=
  (tget_map_filter _ _ _).trans (if_pos (List.mem_range.2 hk))

/-- The counters hold what the steps have tallied, and nothing of an event that a block does not have. -/
theorem sampled_counts (s : State) {b i : Nat} (hb : b < 260) (hi : i < 24) :
    (counted i = true → tget 0 (sampled s).power.counts (24 * b + i) = tget 0 s.power.tally (24 * b + i)) ∧
    (counted i = false → Config.eventIn (blockKind b) i = false → tget 0 (sampled s).power.counts (24 * b + i) = 0) := by
  have hmod : (24 * b + i) % 24 = i := by omega
  have hdiv : (24 * b + i) / 24 = b := by omega
  have htally : (readShunts s).power.tally = s.power.tally := by rw [readShunts_frame s]
  have hcounts : (sampled s).power.counts = freeCounts (readShunts s) := by simp only [sampled]
  rw [hcounts, tget_freeCounts _ (by omega), hmod, hdiv, htally]
  exact ⟨fun h => by rw [if_pos h], fun h he => by rw [if_neg (by simp [h]), if_neg (by simp [he])]⟩

/-! ### Powers (02 R53, R54) -/

theorem domStatic_congr (h : t.cols = s.cols) (n free : Nat) : domStatic t n free = domStatic s n free := by
  unfold domStatic domTemp colAt
  rw [h]

theorem validPart_congr (hparts : t.parts = s.parts) (hpkg : t.pkg = s.pkg) (c : Nat) : validPart t c = validPart s c := by
  unfold validPart assignedCol partOf partAt
  rw [hparts, hpkg]

theorem partOf_congr (h : t.pkg = s.pkg) (c : Nat) : partOf t c = partOf s c := by
  unfold partOf
  rw [h]

/-- Power of domain n, given the static powers. -/
def domPower (s : State) (st : Nat → Rat) (n : Nat) : Rat := (domBlocks n).foldl (fun r b => r + blockEnergy s b) (0 : Rat) / 10000 + st n

/-- What the shunts show, with the constant share (02 R53). -/
def railPower (s : State) : Rat := ((sumBy (fun k => tget 0 s.power.shunt k) [0, 1, 2] + 50000 : Nat) : Rat)

theorem railPower_eq (s : State) :
    railPower s = ((tget 0 s.power.shunt 0 + (tget 0 s.power.shunt 1 + tget 0 s.power.shunt 2) + 50000 : Nat) : Rat) := by
  unfold railPower
  congr 1
  simp only [sumBy, List.foldl_cons, List.foldl_nil]
  omega

/-- Static power of a column's share of its domains. -/
def colStatic (st : Nat → Rat) (c : Nat) : Rat :=
  (colDomains c).foldl (fun r ds => r + ds.foldl (fun r d => r + st d) 0 / 16) 0

/-- Columns of valid partitions. -/
def ownedCols (s : State) : List Nat := (List.range 64).filter (fun c => (validPart s c).isSome)

def ownedBy (s : State) (p : Nat) : List Nat := (ownedCols s).filter (fun c => decide (partOf s c = p))

/-- Event power of a partition. -/
def partEvents (s : State) (cols : List Nat) : Rat := cols.foldl (fun r c => r + colEvents s c) (0 : Rat)

theorem colStatic_congr {st st' : Nat → Rat} (h : ∀ n, n < 16 → st n = st' n) {c : Nat} (hc : c < 64) : colStatic st c = colStatic st' c := by
  unfold colStatic colDomains
  simp only [List.foldl_cons, List.foldl_nil]
  rw [h (2 * (c / 16)) (by omega), h (2 * (c / 16) + 1) (by omega), h (8 + c / 16) (by omega), h (12 + c / 16) (by omega)]

/-- One partition's part in the sums of an estimate. -/
def partStep (s : State) (st : Nat → Rat) (rails : Rat) (owned : List Nat) (t : Tab Nat) (p : Nat) : Tab Nat :=
  let cols := owned.filter (fun c => decide (partOf s c = p))
  let ev := partEvents s cols
  let stat := cols.foldl (fun r c => r + colStatic st c) (0 : Rat)
  let share := rails * mkRat cols.length (max 1 owned.length)
  tupd 0 (tupd 0 (tupd 0 t p (fun x => x + toMw (ev + stat + share))) (16 + p) (fun x => x + toMw ev)) (32 + p)
    (fun x => x + toMw (cols.foldl (fun r c => r + colAmps s c) 0))

/-- The static powers of an estimate, as it lists them. -/
def listedStatic (s : State) (n : Nat) : Rat :=
  (listGet ((List.range 16).map (fun n => domStatic (sampled s) n (freeTemp s n))) n).getD 0

theorem listedStatic_eq (s : State) (hn : n < 16) : listedStatic s n = domStatic s n (freeTemp s n) := by
  unfold listedStatic
  rw [listGet_map_range _ hn]
  exact domStatic_congr (sampled_parts s).1 n _

/-- The state after an estimate, but for `totals`. -/
def estimated (s : State) (totals : Tab Nat) : State :=
  { sampled s with
    power := { (sampled s).power with
      ests := (sampled s).power.ests ++
        [toMw ((List.range 16).foldl (fun r n => r + domPower (sampled s) (listedStatic s) n) (railPower (sampled s)))]
      partEsts := (List.range 16).foldl
        (partStep (sampled s) (listedStatic s) (railPower (sampled s)) (ownedCols (sampled s))) (sampled s).power.partEsts
      totals := totals
      domainPwr := (List.range 16).foldl
        (fun t n => tput 0 t n (BitVec.ofNat 32 (toMw (domPower (sampled s) (listedStatic s) n)))) (sampled s).power.domainPwr } }

theorem exec_powerEstimate (h : s.power.ests.length < 10) : ∃ totals, exec .powerEstimate s = .next (estimated s totals) := by
  change ∃ totals, execPowerEstimate s = _
  unfold execPowerEstimate
  rw [if_neg (Nat.not_le.2 h)]
  exact ⟨_, rfl⟩

theorem blockEnergy_congr (hc : t.power.counts = s.power.counts) (hw : t.power.weights = s.power.weights) (b : Nat) :
    blockEnergy t b = blockEnergy s b := by
  unfold blockEnergy weightOf
  rw [hc, hw]

theorem partEvents_congr (hc : t.power.counts = s.power.counts) (hw : t.power.weights = s.power.weights) (cols : List Nat) :
    partEvents t cols = partEvents s cols := by
  unfold partEvents colEvents
  simp only [blockEnergy_congr hc hw]

/-! ### What an estimate leaves -/

variable {totals : Tab Nat}

theorem estimated_power (s : State) (totals : Tab Nat) : (estimated s totals).power.counts = (sampled s).power.counts ∧
    (estimated s totals).power.weights = (sampled s).power.weights ∧ (estimated s totals).power.shunt = (sampled s).power.shunt ∧
    (estimated s totals).power.tally = (sampled s).power.tally := by
  simp only [estimated, and_self]

theorem powerOnly_estimated (s : State) (totals : Tab Nat) : PowerOnly s (estimated s totals) :=
  (powerOnly_sampled s).trans ⟨by simp only [estimated]⟩

theorem estimated_cols (s : State) (totals : Tab Nat) : (estimated s totals).cols = s.cols := by
  simp only [estimated, (sampled_parts s).1]

theorem domPower_estimated (totals : Tab Nat) (hn : n < 16) : domPower (sampled s) (listedStatic s) n =
    domPower (estimated s totals) (fun n => domStatic s n (freeTemp s n)) n := by
  obtain ⟨hc, hw, _⟩ := estimated_power s totals
  unfold domPower
  simp only [listedStatic_eq s hn, blockEnergy_congr hc hw]

theorem railPower_estimated (s : State) (totals : Tab Nat) : railPower (estimated s totals) = railPower (sampled s) := by
  unfold railPower
  rw [(estimated_power s totals).2.2.1]

theorem ownedCols_sampled (s : State) : ownedCols (sampled s) = ownedCols s := by
  obtain ⟨_, hparts, hpkg⟩ := sampled_parts s
  unfold ownedCols
  simp only [validPart_congr hparts hpkg]

/-- A partition's power in an estimate of `s` that leaves `t`. -/
def partPower (s t : State) (p : Nat) : Rat :=
  partEvents t (ownedBy s p) + (ownedBy s p).foldl (fun r c => r + colStatic (fun n => domStatic s n (freeTemp s n)) c) (0 : Rat) +
    railPower t * mkRat (ownedBy s p).length (max 1 (ownedCols s).length)

theorem partStep_eq (s : State) (totals : Tab Nat) (p : Nat) (x : Tab Nat) :
    partStep (sampled s) (listedStatic s) (railPower (sampled s)) (ownedCols (sampled s)) x p =
      tupd 0 (tupd 0 (tupd 0 x p (fun x => x + toMw (partPower s (estimated s totals) p)))
        (16 + p) (fun x => x + toMw (partEvents (estimated s totals) (ownedBy s p))))
        (32 + p) (fun x => x + toMw ((ownedBy s p).foldl (fun r c => r + colAmps (sampled s) c) 0)) := by
  obtain ⟨_, _, hpkg⟩ := sampled_parts s
  obtain ⟨hc, hw, _⟩ := estimated_power s totals
  have hstat : (ownedBy s p).foldl (fun r c => r + colStatic (listedStatic s) c) (0 : Rat) =
      (ownedBy s p).foldl (fun r c => r + colStatic (fun n => domStatic s n (freeTemp s n)) c) (0 : Rat) :=
    List.foldl_ext _ _ _ (fun r c hc => by
      have hc : c < 64 := List.mem_range.1 (List.mem_of_mem_filter (List.mem_of_mem_filter hc))
      rw [colStatic_congr (fun n hn => listedStatic_eq s hn) hc])
  have howned : (ownedCols s).filter (fun c => decide (partOf s c = p)) = ownedBy s p := by simp only [ownedBy]
  unfold partStep partPower
  simp only [partOf_congr hpkg, ownedCols_sampled, howned, hstat, partEvents_congr hc hw, railPower_estimated]

/-- Each partition's sums rise by its power and by its events' power. -/
theorem partEsts_estimated (s : State) (totals : Tab Nat) {p : Nat} (hp : p < 16) :
    tget 0 (estimated s totals).power.partEsts p = tget 0 s.power.partEsts p + toMw (partPower s (estimated s totals) p) ∧
    tget 0 (estimated s totals).power.partEsts (16 + p) =
      tget 0 s.power.partEsts (16 + p) + toMw (partEvents (estimated s totals) (ownedBy s p)) := by
  have hfold : (estimated s totals).power.partEsts = (List.range 16).foldl
      (partStep (sampled s) (listedStatic s) (railPower (sampled s)) (ownedCols (sampled s))) s.power.partEsts := by
    simp only [estimated, (sampled_power s).2.1]
  have hmem := List.mem_range.2 hp
  rw [hfold]
  constructor
  · refine get_foldl_once (get := fun t => tget 0 t p) (v := fun x => x + toMw (partPower s (estimated s totals) p)) (P := fun _ => True)
      List.nodup_range hmem (fun _ _ _ => trivial) (fun t _ => ?_) (fun t q _ hq hne => ?_) trivial
    all_goals simp only [partStep_eq s totals, tget_tupd]
    · rw [if_neg (by omega), if_neg (by omega), if_pos trivial]
    · rw [if_neg (by omega), if_neg (by omega), if_neg (Ne.symm hne)]
  · refine get_foldl_once (get := fun t => tget 0 t (16 + p)) (v := fun x => x + toMw (partEvents (estimated s totals) (ownedBy s p)))
      (P := fun _ => True) List.nodup_range hmem (fun _ _ _ => trivial) (fun t _ => ?_) (fun t q _ hq hne => ?_) trivial
    all_goals simp only [partStep_eq s totals, tget_tupd]
    · rw [if_neg (by omega), if_pos trivial, if_neg (by omega)]
    · have hq := List.mem_range.1 hq
      rw [if_neg (by omega), if_neg (by omega), if_neg (by omega)]

theorem domainPwr_estimated (s : State) (totals : Tab Nat) (hn : n < 16) : tget 0 (estimated s totals).power.domainPwr n =
    BitVec.ofNat 32 (toMw (domPower (estimated s totals) (fun n => domStatic s n (freeTemp s n)) n)) := by
  rw [← domPower_estimated totals hn]
  simp only [estimated]
  exact (tget_foldl_tput ..).trans (if_pos (List.mem_range.2 hn))

theorem ests_estimated (s : State) (totals : Tab Nat) : (estimated s totals).power.ests = s.power.ests ++
    [toMw ((List.range 16).foldl (fun r n => r + domPower (estimated s totals) (fun n => domStatic s n (freeTemp s n)) n)
      (railPower (estimated s totals)))] := by
  have hsum : (List.range 16).foldl (fun r n => r + domPower (sampled s) (listedStatic s) n) (railPower (sampled s)) =
      (List.range 16).foldl (fun r n => r + domPower (estimated s totals) (fun n => domStatic s n (freeTemp s n)) n)
        (railPower (estimated s totals)) := by
    rw [railPower_estimated]
    exact List.foldl_ext _ _ _ (fun r n hn => by rw [domPower_estimated totals (List.mem_range.1 hn)])
  rw [← hsum]
  simp only [estimated, (sampled_power s).1]

/-! ### The refit (02 R55) -/

theorem sumRat_congr {f g : Nat → Rat} (h : ∀ i, i < 24 → f i = g i) : sumRat f = sumRat g :=
  List.foldl_ext _ _ _ (fun r i hi => by rw [h i (List.mem_range.1 hi)])

/-- Events of kind k in the second. -/
def refitX (s : State) (k i : Nat) : Rat := ((tget 0 s.power.totals (24 * k + i) : Nat) : Rat)

/-- The error of the present weights for an energy. -/
def refitError (s : State) (k : Nat) (energy : Int) : Rat :=
  (energy : Rat) - ((tget 0 s.power.totals (72 + k) : Nat) : Rat) * 10000 - sumRat (fun i => refitX s k i * ratOf (weightOf s k i).toNat)

def refitPx (s : State) (k i : Nat) : Rat := sumRat (fun j => covAt s k i j * refitX s k j)
def refitXp (s : State) (k j : Nat) : Rat := sumRat (fun i => refitX s k i * covAt s k i j)

/-- The gain of weight i. -/
def refitGain (s : State) (k i : Nat) : Rat :=
  refitPx s k i / (mkRat 98 100 + sumRat (fun j => refitX s k j * refitPx s k j))

/-- The weight that a refit gives to event i, between half and twice the factory's. -/
def refitWeight (s : State) (k : Nat) (energy : Int) (i : Nat) : Word :=
  ratTo (clampRat (ratOf (weightOf s k i).toNat + refitGain s k i * refitError s k energy)
    (ratOf (Config.factoryWeight k i).toNat / 2) (2 * ratOf (Config.factoryWeight k i).toNat))

/-- The refit's lists of `Px`, `xP` and gains. -/
def listedPx (s : State) (k : Nat) : List Rat := (List.range 24).map (refitPx s k)
def listedXp (s : State) (k : Nat) : List Rat := (List.range 24).map (refitXp s k)
def listedGain (s : State) (k : Nat) : List Rat :=
  (listedPx s k).map (fun v => v / (mkRat 98 100 + sumRat (fun i => refitX s k i * (listGet (listedPx s k) i).getD 0)))

theorem listedXp_eq (k : Nat) (hn : n < 24) : (listGet (listedXp s k) n).getD 0 = refitXp s k n := by
  unfold listedXp
  rw [listGet_map_range _ hn]
  rfl

theorem listedGain_eq (k : Nat) (hn : n < 24) : (listGet (listedGain s k) n).getD 0 = refitGain s k n := by
  have hpx : ∀ i, i < 24 → (listGet (listedPx s k) i).getD 0 = refitPx s k i := fun i hi => by
    unfold listedPx
    rw [listGet_map_range _ hi]
    rfl
  have hden : sumRat (fun i => refitX s k i * (listGet (listedPx s k) i).getD 0) = sumRat (fun i => refitX s k i * refitPx s k i) :=
    sumRat_congr (fun i hi => by rw [hpx i hi])
  unfold listedGain
  rw [hden]
  unfold listedPx
  rw [List.map_map, listGet_map_range _ hn]
  rfl

/-- The weights of kind k after a refit. -/
def weightsRefit (s : State) (k : Nat) (energy : Int) : Tab (Option Word) :=
  (List.range 24).foldl (fun t i => if refitX s k i = 0 then t else tput none t (24 * k + i)
    (some (ratTo (clampRat (ratOf (weightOf s k i).toNat + (listGet (listedGain s k) i).getD 0 * refitError s k energy)
      (ratOf (Config.factoryWeight k i).toNat / 2) (2 * ratOf (Config.factoryWeight k i).toNat))))) s.power.weights

/-- Its covariance. -/
def covRefit (s : State) (k : Nat) : Tab (Option Rat) :=
  (List.range 576).foldl (fun t n => tput none t (576 * k + n) (some ((covAt s k (n / 24) (n % 24) -
    (listGet (listedGain s k) (n / 24)).getD 0 * (listGet (listedXp s k) (n % 24)).getD 0) / mkRat 98 100))) s.power.cov

theorem exec_weightRefit (k : Fin 3) (energy : Int) : exec (.weightRefit k energy) s = .next { s with power := { s.power with
    weights := weightsRefit s k.val energy, cov := covRefit s k.val
    totals := s.power.totals.filter (fun p => decide ((if p.1 < 72 then p.1 / 24 else p.1 - 72) ≠ k.val)) } } := rfl

theorem tget_weightsRefit (s : State) (k : Nat) (energy : Int) {i : Nat} (hi : i < 24) :
    tget none (weightsRefit s k energy) (24 * k + i) =
      if refitX s k i = 0 then tget none s.power.weights (24 * k + i) else some (refitWeight s k energy i) := by
  refine get_foldl_once (get := fun t => tget none t (24 * k + i))
    (v := fun x => if refitX s k i = 0 then x else some (refitWeight s k energy i)) (P := fun _ => True)
    List.nodup_range (List.mem_range.2 hi) (fun _ _ _ => trivial) (fun t _ => ?_) (fun t j _ _ hj => ?_) trivial
  · rw [listedGain_eq k hi]
    split
    · rfl
    · exact tget_tput_self ..
  · split
    · rfl
    · exact tget_tput_of_ne _ _ _ (by omega)

theorem covAt_refit (s : State) (k : Nat) (t : State) (ht : t.power.cov = covRefit s k) {i j : Nat} (hi : i < 24) (hj : j < 24) :
    covAt t k i j = (covAt s k i j - refitGain s k i * refitXp s k j) / mkRat 98 100 := by
  have hdiv : (24 * i + j) / 24 = i := by omega
  have hmod : (24 * i + j) % 24 = j := by omega
  have hmem : 24 * i + j ∈ List.range 576 := List.mem_range.2 (by omega)
  have hget : tget none (covRefit s k) (576 * k + (24 * i + j)) =
      some ((covAt s k i j - refitGain s k i * refitXp s k j) / mkRat 98 100) := by
    refine get_foldl_once (get := fun t => tget none t (576 * k + (24 * i + j)))
      (v := fun _ => some ((covAt s k i j - refitGain s k i * refitXp s k j) / mkRat 98 100)) (P := fun _ => True)
      List.nodup_range hmem (fun _ _ _ => trivial) (fun t _ => ?_) (fun t m _ _ hm => ?_) trivial
    · rw [tget_tput_self, hdiv, hmod, listedGain_eq k hi, listedXp_eq k hj]
    · exact tget_tput_of_ne _ _ _ (by omega)
  rw [covAt, ht, Nat.add_assoc, hget]
  rfl

/-- The second's totals of the kind begin again. -/
theorem tget_totals_refit (t : Tab Nat) (k : Fin 3) {i : Nat} (hi : i < 24) :
    tget 0 (t.filter (fun p => decide ((if p.1 < 72 then p.1 / 24 else p.1 - 72) ≠ k.val))) (24 * k.val + i) = 0 := by
  have hk := k.isLt
  have hlt : 24 * k.val + i < 72 := by omega
  have hdiv : (24 * k.val + i) / 24 = k.val := by omega
  rw [tget_filter_key 0 (fun n => decide ((if n < 72 then n / 24 else n - 72) ≠ k.val)), if_pos hlt, hdiv]
  simp

end Sys2Proof.Machine
end

section
/-! PROOF. The cap loop (02 R61 to R66): what a pass does to one partition, from the limits that are exceeded when it begins. -/

namespace Sys2Proof.Machine

variable {s t u : State} {amps p q : Nat}

/-! ### What the limits read -/

/-- `t` measures and bounds every limit as `s` does: partitions keep their configuration, and columns and power state stand. -/
structure SameCaps (s t : State) : Prop where
  power : t.power = s.power
  pkg : t.pkg = s.pkg
  cols : t.cols = s.cols
  cfg : ∀ p, (partAt t p).cfg = (partAt s p).cfg

theorem SameCaps.refl (s : State) : SameCaps s s := ⟨rfl, rfl, rfl, fun _ => rfl⟩

theorem SameCaps.trans (h : SameCaps s t) (k : SameCaps t u) : SameCaps s u :=
  ⟨k.power.trans h.power, k.pkg.trans h.pkg, k.cols.trans h.cols, fun p => (k.cfg p).trans (h.cfg p)⟩

theorem sameCaps_setPart {x : Part} (h : x.cfg = (partAt s p).cfg) : SameCaps s (setPart s p x) := by
  refine ⟨rfl, rfl, rfl, fun q => ?_⟩
  rw [partAt_setPart]
  split
  next hq => rw [h, hq]
  next => rfl

theorem sameCaps_capRecord (s : State) (p cause : Nat) : SameCaps s (capRecord s p cause) := sameCaps_setPart rfl

namespace SameCaps

variable (h : SameCaps s t)
include h

theorem partValid (p : Nat) : partValid t p = partValid s p := by
  unfold Machine.partValid
  rw [h.cfg]

theorem rankOf (p : Nat) : rankOf t p = rankOf s p := by
  unfold Machine.rankOf
  rw [h.cfg]

theorem limitsOf (p : Nat) : limitsOf t p = limitsOf s p := by
  unfold Machine.limitsOf
  rw [h.rankOf]

theorem limitParts (l : Limit) : limitParts t l = limitParts s l := by
  unfold Machine.limitParts
  simp only [h.partValid, h.rankOf]

theorem limitLoad (l : Limit) : limitLoad t amps l = limitLoad s amps l := by
  unfold Machine.limitLoad
  simp only [h.power, h.limitParts]

theorem limitBound (l : Limit) : limitBound t l = limitBound s l := by
  unfold Machine.limitBound pcapOf
  simp only [h.power, h.cfg]

theorem limitOver (l : Limit) : limitOver t amps l = limitOver s amps l := by
  unfold Machine.limitOver
  rw [h.limitBound, h.limitLoad]

theorem limitMargin (l : Limit) : limitMargin t amps l = limitMargin s amps l := by
  unfold Machine.limitMargin
  rw [h.limitBound, h.limitLoad]

theorem thermalMargin (p pct : Nat) : thermalMargin t p pct = thermalMargin s p pct := by
  unfold Machine.thermalMargin partCols partOf colAt
  rw [h.power, h.pkg, h.cols]

end SameCaps

theorem mem_limitParts_rank {r : Nat} : p ∈ limitParts s (.rank r) ↔ p < 16 ∧ partValid s p = true ∧ rankOf s p = r := by
  simp [limitParts, and_comm]

theorem rankOf_lt (s : State) (p : Nat) : rankOf s p < 8 := Nat.mod_lt _ (by decide)

/-! ### Margin (02 R64) -/

/-- A partition's limits all have 3 % margin. -/
def marginOk (s : State) (amps p : Nat) : Bool := (limitsOf s p).all (limitMargin s amps) && thermalMargin s p 97

theorem marginOk_congr (h : SameCaps s t) (p : Nat) : marginOk t amps p = marginOk s amps p := by
  have hlimit : limitMargin t amps = limitMargin s amps := funext fun l => h.limitMargin l
  unfold marginOk
  rw [h.limitsOf, hlimit, h.thermalMargin]

/-- The partition once its passes with margin are counted. -/
def marginSet (x : Part) (ok : Bool) : Part := { x with margin := if ok then natMin (x.margin + 1) 10 else 0 }

theorem countMargin_eq (s : State) (amps p : Nat) : countMargin s amps p =
    if (marginSet (partAt s p) (marginOk s amps p)).margin = (partAt s p).margin then s
    else setPart s p (marginSet (partAt s p) (marginOk s amps p)) := rfl

theorem partAt_countMargin (s : State) (amps p q : Nat) :
    partAt (countMargin s amps p) q = if q = p then marginSet (partAt s p) (marginOk s amps p) else partAt s q := by
  rw [countMargin_eq]
  split
  next h =>
    have hset : marginSet (partAt s p) (marginOk s amps p) = partAt s p := congrArg (fun m => { partAt s p with margin := m }) h
    rw [hset]
    split
    next hq => rw [hq]
    next => rfl
  next => exact partAt_setPart ..

theorem sameCaps_countMargin (s : State) (amps p : Nat) : SameCaps s (countMargin s amps p) := by
  rw [countMargin_eq]
  split
  · exact .refl s
  · exact sameCaps_setPart rfl

theorem powerOnly_countMargin (s : State) (amps p : Nat) : PowerOnly s (countMargin s amps p) := by
  rw [countMargin_eq]
  split
  · exact .refl s
  · exact powerOnly_setPart ..

/-- The state in which a pass begins to compare. -/
def marginsCounted (s : State) (amps : Nat) : State := (List.range 16).foldl (fun s p => countMargin s amps p) s

theorem sameCaps_marginsCounted (s : State) (amps : Nat) : SameCaps s (marginsCounted s amps) :=
  List.foldlRecOn (motive := SameCaps s) _ _ (.refl s) (fun t ht p _ => ht.trans (sameCaps_countMargin t amps p))

theorem powerOnly_marginsCounted (s : State) (amps : Nat) : PowerOnly s (marginsCounted s amps) :=
  powerOnly_foldl (fun t p => powerOnly_countMargin t amps p) ..

theorem partAt_marginsCounted (s : State) (amps : Nat) (hp : p < 16) :
    partAt (marginsCounted s amps) p = marginSet (partAt s p) (marginOk s amps p) :=
  get_foldl_once (get := fun t => partAt t p) (v := fun x => marginSet x (marginOk s amps p)) (P := SameCaps s) List.nodup_range
    (List.mem_range.2 hp) (fun t q ht => ht.trans (sameCaps_countMargin t amps q))
    (fun t ht => by rw [partAt_countMargin, if_pos rfl, marginOk_congr ht])
    (fun t q _ _ hq => by rw [partAt_countMargin, if_neg (Ne.symm hq)]) (.refl s)

/-- Ten passes with margin: the limits have it now, and had it for nine. -/
theorem of_margin_ten {x : Part} {ok : Bool} (h : (marginSet x ok).margin = 10) : ok = true ∧ 9 ≤ x.margin := by
  cases ok with
  | false => exact absurd h (by simp [marginSet])
  | true =>
    have hmin : natMin (x.margin + 1) 10 = 10 := h
    unfold natMin at hmin
    refine ⟨rfl, ?_⟩
    split at hmin <;> omega

/-! ### Steps down (02 R63) -/

/-- What a step down makes of a partition `x`: `y`, with the cause. -/
structure SteppedDown (x : Part) (c : Nat) (y : Part) : Prop where
  duty : y.duty = if x.duty < 3 then x.duty + 1 else x.duty
  cause : causeOf y = c % 2 ^ 3
  cfg : y.cfg = x.cfg

/-- A step down of a partition that has made none in the pass. -/
theorem stepDown_effect {a : State × List Nat} (hq : q ∉ a.2) (c : Nat) : ∃ y, SteppedDown (partAt a.1 q) c y ∧
    (∀ p, partAt (stepDown a q c).1 p = if p = q then y else partAt a.1 p) ∧ (stepDown a q c).2 = q :: a.2 ∧
    SameCaps a.1 (stepDown a q c).1 ∧ PowerOnly a.1 (stepDown a q c).1 := by
  have hnew : stepDown a q c = (if (partAt a.1 q).duty < 3
      then capRecord (setPart a.1 q { partAt a.1 q with duty := (partAt a.1 q).duty + 1 }) q c else causeRecord a.1 q c, q :: a.2) :=
    if_neg (by simpa using hq)
  rw [hnew]
  dsimp only
  by_cases hd : (partAt a.1 q).duty < 3
  · obtain ⟨v, hcause, hpart⟩ := partAt_capRecord (setPart a.1 q { partAt a.1 q with duty := (partAt a.1 q).duty + 1 }) q c
    have hself := partAt_setPart a.1 q q { partAt a.1 q with duty := (partAt a.1 q).duty + 1 }
    rw [if_pos rfl] at hself
    rw [hself] at hcause hpart
    rw [if_pos hd]
    refine ⟨_, ⟨(if_pos hd).symm, hcause, rfl⟩, fun p => ?_, rfl, SameCaps.trans ?_ (sameCaps_capRecord ..),
      (powerOnly_setPart ..).trans (powerOnly_capRecord ..)⟩
    · rw [hpart, partAt_setPart]
      split <;> rfl
    · exact sameCaps_setPart rfl
  · obtain ⟨v, hcause, hpart⟩ := partAt_causeRecord a.1 q c
    rw [if_neg hd]
    exact ⟨{ partAt a.1 q with cause := v }, ⟨(if_neg hd).symm, hcause, rfl⟩, hpart, rfl, sameCaps_setPart rfl, powerOnly_setPart ..⟩

theorem stepDown_done {a : State × List Nat} (hq : q ∈ a.2) (c : Nat) : stepDown a q c = a := by
  unfold stepDown
  rw [if_pos (by simpa using hq)]

/-- Partition p in a pass that began in `s`: `o` is the cause of its step down, if it has made one. -/
structure Pass (s : State) (p : Nat) (o : Option Nat) (a : State × List Nat) : Prop where
  caps : SameCaps s a.1
  frame : PowerOnly s a.1
  done : p ∈ a.2 ↔ o.isSome = true
  stays : o = none → partAt a.1 p = partAt s p
  lowers : ∀ c, o = some c → SteppedDown (partAt s p) c (partAt a.1 p)

theorem pass_start (s : State) (p : Nat) : Pass s p none (s, []) :=
  ⟨SameCaps.refl s, PowerOnly.refl s, by simp, fun _ => rfl, nofun⟩

theorem Pass.stepDown {o : Option Nat} {a : State × List Nat} (h : Pass s p o a) (q c : Nat) :
    Pass s p (if q = p then o.or (some c) else o) (stepDown a q c) := by
  by_cases hmem : q ∈ a.2
  · have ho : (if q = p then o.or (some c) else o) = o := by
      split
      next hq =>
        obtain ⟨d, rfl⟩ := Option.isSome_iff_exists.1 (h.done.1 (hq ▸ hmem))
        rfl
      next => rfl
    rw [stepDown_done hmem, ho]
    exact h
  · obtain ⟨y, hy, hpart, hlist, hcaps, hframe⟩ := stepDown_effect hmem c
    by_cases hq : q = p
    · subst hq
      have ho : o = none := by
        cases o with
        | none => rfl
        | some d => exact absurd (h.done.2 rfl) hmem
      have hx : partAt (Machine.stepDown a q c).1 q = y := (hpart q).trans (if_pos rfl)
      rw [if_pos rfl, ho]
      refine ⟨h.caps.trans hcaps, h.frame.trans hframe, by simp [hlist], nofun, fun d e => ?_⟩
      cases e
      rw [hx, ← h.stays ho]
      exact hy
    · have hx : partAt (Machine.stepDown a q c).1 p = partAt a.1 p := (hpart p).trans (if_neg (Ne.symm hq))
      rw [if_neg hq]
      refine ⟨h.caps.trans hcaps, h.frame.trans hframe, ?_, by rw [hx]; exact h.stays, by rw [hx]; exact h.lowers⟩
      rw [hlist, ← h.done]
      simp [Ne.symm hq]

/-- Parts of a pass that may each lower partition p for one cause, read together. -/
theorem Pass.foldl {ι : Type} {f : State × List Nat → ι → State × List Nat} {hits : ι → Bool} {c : Nat}
    (hf : ∀ o a i, Pass s p o a → Pass s p (if hits i then o.or (some c) else o) (f a i)) (l : List ι) {o : Option Nat}
    {a : State × List Nat} (h : Pass s p o a) : Pass s p (if l.any hits then o.or (some c) else o) (l.foldl f a) := by
  induction l generalizing o a with
  | nil => exact h
  | cons i l ih =>
    have htail := ih (hf o a i h)
    have ho : (if (i :: l).any hits then o.or (some c) else o) =
        if l.any hits then (if hits i then o.or (some c) else o).or (some c) else if hits i then o.or (some c) else o := by
      rw [List.any_cons]
      cases hits i <;> cases l.any hits <;> cases o <;> rfl
    rw [List.foldl_cons, ho]
    exact htail

/-- Every partition of a list steps down. -/
theorem Pass.all {o : Option Nat} {a : State × List Nat} (h : Pass s p o a) (l : List Nat) (c : Nat) :
    Pass s p (if p ∈ l then o.or (some c) else o) (l.foldl (fun a q => Machine.stepDown a q c) a) := by
  have hall := h.foldl (f := fun a q => Machine.stepDown a q c) (hits := fun q => decide (q = p)) (c := c)
    (fun o a q h => by simpa using h.stepDown q c) l
  simpa using hall

/-! ### Which partitions a pass lowers, and for which cause (02 R63) -/

/-- Partitions of rank r that can be lowered. -/
def lowerable (s : State) (r : Nat) : List Nat := (limitParts s (.rank r)).filter (fun p => decide ((partAt s p).duty < 3))

/-- The device step takes partition p: p is of the first of the ranks that has one to lower. -/
def deviceTakes (s : State) (p : Nat) : List Nat → Bool
  | [] => false
  | r :: t => if (lowerable s r).isEmpty then deviceTakes s p t else (lowerable s r).contains p

theorem mem_lowerable {r : Nat} :
    p ∈ lowerable s r ↔ (p < 16 ∧ partValid s p = true ∧ rankOf s p = r) ∧ (partAt s p).duty < 3 := by
  simp [lowerable, mem_limitParts_rank]

theorem Pass.device {o : Option Nat} {a : State × List Nat} (h : Pass s p o a) (c : Nat) (l : List Nat) :
    Pass s p (if deviceTakes s p l then o.or (some c) else o) (deviceStep s a c l) := by
  induction l with
  | nil => exact h
  | cons r l ih =>
    unfold deviceStep deviceTakes
    change Pass s p _ (if (lowerable s r).isEmpty then _ else (lowerable s r).foldl (fun a p => Machine.stepDown a p c) a)
    cases (lowerable s r).isEmpty with
    | true => exact ih
    | false => simpa using h.all (lowerable s r) c

theorem partValid_of_deviceTakes {l : List Nat} (h : deviceTakes s p l = true) : partValid s p = true := by
  induction l with
  | nil => cases h
  | cons r l ih =>
    unfold deviceTakes at h
    split at h
    · exact ih h
    · obtain ⟨⟨_, hv, _⟩, _⟩ := mem_lowerable.1 (List.contains_iff_mem.1 h)
      exact hv

/-- Where every lower rank has none to lower, the device step takes a partition that can be. -/
theorem deviceTakes_of_lowest (hp : p < 16) (hv : partValid s p = true) (hd : (partAt s p).duty < 3)
    (hlow : ∀ q, q < 16 → partValid s q = true → rankOf s q < rankOf s p → 3 ≤ (partAt s q).duty) {l : List Nat}
    (hl : l.Pairwise (· < ·)) (hr : rankOf s p ∈ l) : deviceTakes s p l = true := by
  have hmem : p ∈ lowerable s (rankOf s p) := mem_lowerable.2 ⟨⟨hp, hv, rfl⟩, hd⟩
  induction l with
  | nil => exact absurd hr List.not_mem_nil
  | cons r l ih =>
    obtain ⟨hrl, hl⟩ := List.pairwise_cons.1 hl
    unfold deviceTakes
    by_cases hrp : rankOf s p = r
    · rw [← hrp, if_neg (by simpa using List.ne_nil_of_mem hmem)]
      simpa using hmem
    · have hin : rankOf s p ∈ l := (List.mem_cons.1 hr).resolve_left hrp
      have hempty : lowerable s r = [] := by
        refine List.eq_nil_iff_forall_not_mem.2 (fun q hq => ?_)
        obtain ⟨⟨hq, hvq, hrq⟩, hdq⟩ := mem_lowerable.1 hq
        have := hlow q hq hvq (hrq ▸ hrl _ hin)
        omega
      rw [if_pos (by simp [hempty])]
      exact ih hl hin

/-- The cause of partition p's step down in a pass from `s`, if it makes one: its own cap, its rank's, or the device's limits. -/
def downCause (s : State) (amps p : Nat) : Option Nat :=
  let own := if partValid s p && limitOver s amps (.partition p) then some 2 else none
  let ranked := if partValid s p && limitOver s amps (.rank (rankOf s p)) then own.or (some 3) else own
  if limitOver s amps .device || limitOver s amps .current then
    if deviceTakes s p (List.range 8) then ranked.or (some (if limitOver s amps .current then 4 else 1)) else ranked
  else ranked

theorem capDowns_pass (s : State) (amps : Nat) (hp : p < 16) : Pass s p (downCause s amps p) (capDowns s amps) := by
  have hown := (pass_start s p).foldl (c := 2) (hits := fun q => decide (q = p) && (partValid s q && limitOver s amps (.partition q)))
    (f := fun a q => if partValid s q && limitOver s amps (.partition q) then stepDown a q 2 else a) (fun o a q h => by
      cases partValid s q && limitOver s amps (.partition q) with
      | true => simpa using h.stepDown q 2
      | false => simpa using h) (List.range 16)
  have hrank := hown.foldl (c := 3) (hits := fun r => limitOver s amps (.rank r) && decide (p ∈ limitParts s (.rank r)))
    (f := fun a r => if limitOver s amps (.rank r) then (limitParts s (.rank r)).foldl (fun a p => stepDown a p 3) a else a)
    (fun o a r h => by
      cases limitOver s amps (.rank r) with
      | true => simpa using h.all (limitParts s (.rank r)) 3
      | false => simpa using h) (List.range 8)
  have hown_any : (List.range 16).any (fun q => decide (q = p) && (partValid s q && limitOver s amps (.partition q))) =
      (partValid s p && limitOver s amps (.partition p)) := by
    rw [Bool.eq_iff_iff]
    simp [hp]
  have hrank_any : (List.range 8).any (fun r => limitOver s amps (.rank r) && decide (p ∈ limitParts s (.rank r))) =
      (partValid s p && limitOver s amps (.rank (rankOf s p))) := by
    have hr := rankOf_lt s p
    rw [Bool.eq_iff_iff]
    simp only [List.any_eq_true, List.mem_range, Bool.and_eq_true, decide_eq_true_eq, mem_limitParts_rank]
    constructor
    · rintro ⟨r, _, hover, _, hv, rfl⟩
      exact ⟨hv, hover⟩
    · rintro ⟨hv, hover⟩
      exact ⟨_, hr, hover, hp, hv, rfl⟩
  rw [hown_any] at hrank
  rw [hrank_any] at hrank
  unfold capDowns downCause
  dsimp only
  split
  · exact hrank.device _ _
  · exact hrank

theorem downCause_own (hv : partValid s p = true) (ho : limitOver s amps (.partition p) = true) : downCause s amps p = some 2 := by
  unfold downCause
  simp only [hv, ho, Bool.and_self, if_true, Option.some_or, ite_self]

theorem downCause_ranked (hv : partValid s p = true) (ho : limitOver s amps (.partition p) = false)
    (hr : limitOver s amps (.rank (rankOf s p)) = true) : downCause s amps p = some 3 := by
  unfold downCause
  simp only [hv, ho, hr, Bool.and_self, Bool.and_false, Bool.false_eq_true, if_true, if_false, Option.none_or, Option.some_or, ite_self]

/-- The device's limits lower a partition that their step takes; they are the cause where no cap of the partition or its rank was. -/
theorem downCause_device (hd : (limitOver s amps .device || limitOver s amps .current) = true)
    (ht : deviceTakes s p (List.range 8) = true) : (∃ c, downCause s amps p = some c) ∧
    (limitOver s amps (.partition p) = false → limitOver s amps (.rank (rankOf s p)) = false →
      downCause s amps p = some (if limitOver s amps .current then 4 else 1)) := by
  unfold downCause
  simp only [hd, ht, if_true]
  refine ⟨Option.isSome_iff_exists.1 (by simp), fun ho hr => ?_⟩
  simp only [ho, hr, Bool.and_false, Bool.false_eq_true, if_false, Option.none_or]

/-- A partition that is lowered is valid, and one of its limits is exceeded. -/
theorem of_downCause {c : Nat} (h : downCause s amps p = some c) : partValid s p = true ∧ (limitOver s amps (.partition p) = true ∨
    limitOver s amps (.rank (rankOf s p)) = true ∨ (limitOver s amps .device || limitOver s amps .current) = true) := by
  by_cases hd : (limitOver s amps .device || limitOver s amps .current) = true ∧ deviceTakes s p (List.range 8) = true
  · exact ⟨partValid_of_deviceTakes hd.2, .inr (.inr hd.1)⟩
  · have hcaps : downCause s amps p = if partValid s p && limitOver s amps (.rank (rankOf s p))
        then (if partValid s p && limitOver s amps (.partition p) then some 2 else none).or (some 3)
        else if partValid s p && limitOver s amps (.partition p) then some 2 else none := by
      unfold downCause
      dsimp only
      split
      next hdev => rw [if_neg (fun ht => hd ⟨hdev, ht⟩)]
      next => rfl
    rw [hcaps] at h
    split at h
    next hr => exact ⟨(Bool.and_eq_true_iff.1 hr).1, .inr (.inl (Bool.and_eq_true_iff.1 hr).2)⟩
    next =>
      split at h
      next ho => exact ⟨(Bool.and_eq_true_iff.1 ho).1, .inl (Bool.and_eq_true_iff.1 ho).2⟩
      next => cases h

/-! ### Steps up (02 R64) -/

theorem mem_mayRise {downs : List Nat} (h : p ∈ mayRise s amps downs) :
    partValid s p = true ∧ p ∉ downs ∧ 0 < (partAt s p).duty ∧ (partAt s p).margin = 10 := by
  simp only [mayRise, List.mem_filter, Bool.and_eq_true, decide_eq_true_eq, Bool.not_eq_true', List.contains_eq_mem,
    decide_eq_false_iff_not] at h
  obtain ⟨_, ⟨⟨⟨hv, hd⟩, hduty⟩, hm⟩, _⟩ := h
  exact ⟨hv, hd, hduty, hm⟩

/-- The partitions that a pass raises. -/
def risers (s : State) (amps : Nat) (downs : List Nat) : List Nat :=
  (mayRise s amps downs).filter (fun p => decide (rankOf s p = ((mayRise s amps downs).map (rankOf s)).foldl max 0))

/-- One step up. -/
def stepUp (s : State) (p : Nat) : State := setPart s p { partAt s p with duty := (partAt s p).duty - 1 }

theorem capUps_eq (s : State) (amps : Nat) (downs : List Nat) : capUps s amps downs = (risers s amps downs).foldl stepUp s := rfl

theorem partAt_capUps (s : State) (amps : Nat) (downs : List Nat) (p : Nat) : partAt (capUps s amps downs) p =
    if p ∈ risers s amps downs then { partAt s p with duty := (partAt s p).duty - 1 } else partAt s p := by
  have hnodup : (risers s amps downs).Nodup := (List.nodup_range.filter _).filter _
  rw [capUps_eq]
  split
  next hp =>
    exact get_foldl_once (get := fun t => partAt t p) (v := fun x => { x with duty := x.duty - 1 }) (P := fun _ => True) hnodup hp
      (fun _ _ _ => trivial) (fun t _ => (partAt_setPart ..).trans (if_pos rfl))
      (fun t q _ _ hq => (partAt_setPart ..).trans (if_neg (Ne.symm hq))) trivial
  next hp =>
    refine List.foldlRecOn (motive := fun t => partAt t p = partAt s p) _ _ rfl (fun t ht q hq => ?_)
    exact ((partAt_setPart ..).trans (if_neg (fun e : p = q => hp (e ▸ hq)))).trans ht

theorem powerOnly_capUps (s : State) (amps : Nat) (downs : List Nat) : PowerOnly s (capUps s amps downs) :=
  powerOnly_foldl (fun _ _ => powerOnly_setPart ..) ..

/-! ### Unmet caps (02 R65) -/

/-- The episodes' entries and marks leave of a partition its duty and its cause. -/
structure CauseKept (p : Nat) (s t : State) : Prop where
  frame : PowerOnly s t
  duty : (partAt t p).duty = (partAt s p).duty
  cause : causeOf (partAt t p) = causeOf (partAt s p)

theorem CauseKept.refl (p : Nat) (s : State) : CauseKept p s s := ⟨.refl s, rfl, rfl⟩

theorem CauseKept.trans (h : CauseKept p s t) (k : CauseKept p t u) : CauseKept p s u :=
  ⟨h.frame.trans k.frame, k.duty.trans h.duty, k.cause.trans h.cause⟩

/-- The mark of one partition. -/
def unmetSet (s : State) (q : Nat) (m : Bool) : State :=
  if m = (partAt s q).cause.getLsbD 7 then s
  else setPart s q { partAt s q with cause := BitVec.ofNat 128 (setBits (partAt s q).cause.toNat 7 1 (if m then 1 else 0)) }

theorem causeKept_unmetSet (s : State) (p q : Nat) (m : Bool) : CauseKept p s (unmetSet s q m) := by
  unfold unmetSet
  split
  · exact .refl p s
  · refine ⟨powerOnly_setPart .., ?_, ?_⟩
    all_goals
      rw [partAt_setPart]
      split
    next hq => rw [hq]
    next => rfl
    next hq =>
      unfold causeOf
      rw [hq, bits_toNat_ofNat _ (by decide), bits_setBits_below (by decide)]
    next => rfl

/-- Entries for the episodes that begin, and marks for the limits that are open. -/
def unmetNoted (s0 : State) (begun opened : List Limit) (s : State) : State :=
  (List.range 16).foldl (fun s p => unmetSet s p (opened.any (fun l => (limitParts s0 l).contains p)))
    (begun.foldl (fun s l => logPost s 0 2 0x11 (Config.logData 0x11 [(limitParts s0 l).headD 0, limitCause l])) s)

theorem capUnmet_eq (s0 : State) (amps : Nat) (s : State) : ∃ begun opened, capUnmet s0 amps s =
    { unmetNoted s0 begun opened s with
      power := { (unmetNoted s0 begun opened s).power with unmet := opened.map limitNo } } := ⟨_, _, rfl⟩

theorem causeKept_capUnmet (s0 : State) (amps : Nat) (s : State) (p : Nat) : CauseKept p s (capUnmet s0 amps s) := by
  obtain ⟨begun, opened, heq⟩ := capUnmet_eq s0 amps s
  have hnoted : CauseKept p s (unmetNoted s0 begun opened s) := by
    refine List.foldlRecOn (motive := CauseKept p s) _ _ ?_ (fun t ht q _ => ht.trans (causeKept_unmetSet t p q _))
    exact List.foldlRecOn (motive := CauseKept p s) _ _ (.refl p s) (fun t ht l _ => ht.trans ⟨powerOnly_logPost .., rfl, rfl⟩)
  rw [heq]
  exact hnoted.trans ⟨⟨rfl⟩, rfl, rfl⟩

/-! ### A pass -/

/-- A pass ends: its estimates are forgotten, and duty follows the partitions. -/
def passEnd (u : State) : State := settleAll { u with power := { u.power with ests := [], partEsts := [] } }

theorem partAt_passEnd (u : State) (p : Nat) : partAt (passEnd u) p = partAt u p := (colsOnly_settleAll _).partAt p

theorem powerOnly_passEnd (u : State) : PowerOnly u (passEnd u) := PowerOnly.trans ⟨rfl⟩ (colsOnly_settleAll _).powerOnly

theorem power_passEnd (u : State) : (passEnd u).power = { u.power with ests := [], partEsts := [] } := (colsOnly_settleAll _).power

/-- The partitions once a pass has lowered and raised them. -/
def passStepped (s : State) (amps : Nat) : State :=
  capUps (capDowns (marginsCounted s amps) amps).1 amps (capDowns (marginsCounted s amps) amps).2

/-- The state that a pass leaves. -/
def capPassed (s : State) (amps : Nat) : State := passEnd (capUnmet (marginsCounted s amps) amps (passStepped s amps))

theorem exec_capLoopPass (h : s.power.ests.length = 10) : exec (.capLoopPass amps) s = .next (capPassed s amps) :=
  if_neg (fun hne => hne h)

/-- What the pass has made of partition p before duty follows it. -/
theorem partAt_capPassed (s : State) (amps p : Nat) :
    (partAt (capPassed s amps) p).duty = (partAt (passStepped s amps) p).duty ∧
    causeOf (partAt (capPassed s amps) p) = causeOf (partAt (passStepped s amps) p) := by
  obtain ⟨_, hduty, hcause⟩ := causeKept_capUnmet (marginsCounted s amps) amps (passStepped s amps) p
  unfold capPassed
  rw [partAt_passEnd]
  exact ⟨hduty, hcause⟩

theorem capPassed_frame (s : State) (amps : Nat) : PowerOnly s (capPassed s amps) ∧ (capPassed s amps).power.ests = [] ∧
    (capPassed s amps).power.partEsts = [] ∧ Settled (capPassed s amps) := by
  have hdowns := (capDowns_pass (marginsCounted s amps) amps (p := 0) (by decide)).frame
  have hups : PowerOnly _ (passStepped s amps) := powerOnly_capUps _ amps (capDowns (marginsCounted s amps) amps).2
  have hunmet := (causeKept_capUnmet (marginsCounted s amps) amps (passStepped s amps) 0).frame
  have hbefore := (((powerOnly_marginsCounted s amps).trans hdowns).trans hups).trans hunmet
  unfold capPassed
  rw [power_passEnd]
  exact ⟨hbefore.trans (powerOnly_passEnd _), rfl, rfl, settled_settleAll _⟩

/-- A partition that the pass lowers: by one step, above the lowest, and with the cause. -/
theorem capPassed_lowers (hp : p < 16) {c : Nat} (hc : downCause (marginsCounted s amps) amps p = some c) :
    (partAt (capPassed s amps) p).duty = (if (partAt s p).duty < 3 then (partAt s p).duty + 1 else (partAt s p).duty) ∧
    causeOf (partAt (capPassed s amps) p) = c % 2 ^ 3 := by
  have hpass := capDowns_pass (marginsCounted s amps) amps hp
  rw [hc] at hpass
  have hstays : p ∉ risers (capDowns (marginsCounted s amps) amps).1 amps (capDowns (marginsCounted s amps) amps).2 := fun h =>
    (mem_mayRise (List.mem_of_mem_filter h)).2.1 (hpass.done.2 rfl)
  have hups : partAt (passStepped s amps) p = _ := partAt_capUps _ amps (capDowns (marginsCounted s amps) amps).2 p
  rw [if_neg hstays] at hups
  obtain ⟨hduty, hcause, _⟩ := hpass.lowers c rfl
  obtain ⟨hd, hk⟩ := partAt_capPassed s amps p
  rw [hups] at hd hk
  rw [partAt_marginsCounted s amps hp] at hduty
  exact ⟨hd.trans hduty, hk.trans hcause⟩

/-- A partition that it does not lower stays, or rises by one step after ten passes with margin. -/
theorem capPassed_stays (hp : p < 16) (hc : downCause (marginsCounted s amps) amps p = none) :
    (partAt (capPassed s amps) p).duty = (partAt s p).duty ∨
    ((partAt (capPassed s amps) p).duty = (partAt s p).duty - 1 ∧ 0 < (partAt s p).duty ∧ partValid s p = true ∧
      9 ≤ (partAt s p).margin ∧ marginOk s amps p = true) := by
  have hpass := capDowns_pass (marginsCounted s amps) amps hp
  rw [hc] at hpass
  have hpart : partAt (capDowns (marginsCounted s amps) amps).1 p = marginSet (partAt s p) (marginOk s amps p) :=
    (hpass.stays rfl).trans (partAt_marginsCounted s amps hp)
  have hups : partAt (passStepped s amps) p = _ := partAt_capUps _ amps (capDowns (marginsCounted s amps) amps).2 p
  obtain ⟨hd, _⟩ := partAt_capPassed s amps p
  rw [hd, hups, hpart]
  split
  next hrise =>
    obtain ⟨hv, _, hpos, hten⟩ := mem_mayRise (List.mem_of_mem_filter hrise)
    rw [hpart] at hpos hten
    obtain ⟨hok, hnine⟩ := of_margin_ten hten
    rw [((sameCaps_marginsCounted s amps).trans hpass.caps).partValid] at hv
    exact .inr ⟨rfl, hpos, hv, hnine, hok⟩
  next => exact .inl rfl

/-- The device step of a pass takes a valid partition above the lowest duty whose lower ranks all stand there. -/
theorem deviceTakes_marginsCounted (hp : p < 16) (hv : partValid s p = true) (hd : (partAt s p).duty < 3)
    (hlow : ∀ q, q < 16 → partValid s q = true → rankOf s q < rankOf s p → 3 ≤ (partAt s q).duty) :
    deviceTakes (marginsCounted s amps) p (List.range 8) = true := by
  have hcaps := sameCaps_marginsCounted s amps
  have hduty : ∀ q, q < 16 → (partAt (marginsCounted s amps) q).duty = (partAt s q).duty := fun q hq => by
    rw [partAt_marginsCounted s amps hq]
    rfl
  refine deviceTakes_of_lowest hp (by rw [hcaps.partValid, hv]) (by rw [hduty p hp]; exact hd) (fun q hq hvq hr => ?_)
    List.pairwise_lt_range (List.mem_range.2 (rankOf_lt _ p))
  rw [hcaps.partValid] at hvq
  rw [hcaps.rankOf, hcaps.rankOf] at hr
  rw [hduty q hq]
  exact hlow q hq hvq hr

/-- A partition that a pass lowers for cause `c` and whose duty can fall: it falls by one step, with that cause. -/
theorem capPassed_falls (hp : p < 16) (hd : (partAt s p).duty < 3) {c : Nat} (hc : downCause (marginsCounted s amps) amps p = some c) :
    (partAt (capPassed s amps) p).duty = (partAt s p).duty + 1 ∧ causeOf (partAt (capPassed s amps) p) = c % 2 ^ 3 := by
  obtain ⟨hduty, hcause⟩ := capPassed_lowers hp hc
  exact ⟨hduty.trans (if_pos hd), hcause⟩

/-- A step of duty is one step, down for a limit that is exceeded, or up with margin under every limit. -/
theorem capPassed_steps (hp : p < 16) :
    ((partAt (capPassed s amps) p).duty ≤ (partAt s p).duty + 1 ∧ (partAt s p).duty ≤ (partAt (capPassed s amps) p).duty + 1) ∧
    ((partAt (capPassed s amps) p).duty < (partAt s p).duty →
      partValid s p = true ∧ 9 ≤ (partAt s p).margin ∧ marginOk s amps p = true) ∧
    ((partAt s p).duty < (partAt (capPassed s amps) p).duty → partValid s p = true ∧ (limitOver s amps (.partition p) = true ∨
      limitOver s amps (.rank (rankOf s p)) = true ∨ (limitOver s amps .device || limitOver s amps .current) = true)) := by
  have hcaps := sameCaps_marginsCounted s amps
  cases hc : downCause (marginsCounted s amps) amps p with
  | some c =>
    obtain ⟨hduty, _⟩ := capPassed_lowers hp hc
    have hwhy := of_downCause hc
    simp only [hcaps.partValid, hcaps.rankOf, hcaps.limitOver] at hwhy
    split at hduty
    · exact ⟨by omega, fun h => by omega, fun _ => hwhy⟩
    · exact ⟨by omega, fun h => by omega, fun _ => hwhy⟩
  | none =>
    rcases capPassed_stays hp hc with hduty | ⟨hduty, _, hv, hm, hok⟩
    · exact ⟨by omega, fun h => by omega, fun h => by omega⟩
    · exact ⟨by omega, fun _ => ⟨hv, hm, hok⟩, fun h => by omega⟩

/-- The causes of a step down (02 R63, R66): the partition's cap, then its rank's, then the device's limits. -/
theorem capPassed_causes (hp : p < 16) (hv : partValid s p = true) (hd : (partAt s p).duty < 3) :
    (limitOver s amps (.partition p) = true →
      (partAt (capPassed s amps) p).duty = (partAt s p).duty + 1 ∧ causeOf (partAt (capPassed s amps) p) = 2) ∧
    (limitOver s amps (.partition p) = false → limitOver s amps (.rank (rankOf s p)) = true →
      (partAt (capPassed s amps) p).duty = (partAt s p).duty + 1 ∧ causeOf (partAt (capPassed s amps) p) = 3) ∧
    ((limitOver s amps .device || limitOver s amps .current) = true →
      (∀ q, q < 16 → partValid s q = true → rankOf s q < rankOf s p → 3 ≤ (partAt s q).duty) →
      (partAt (capPassed s amps) p).duty = (partAt s p).duty + 1 ∧
      (limitOver s amps (.partition p) = false → limitOver s amps (.rank (rankOf s p)) = false →
        causeOf (partAt (capPassed s amps) p) = if limitOver s amps .current then 4 else 1)) := by
  have hcaps := sameCaps_marginsCounted s amps
  have hv1 : partValid (marginsCounted s amps) p = true := by rw [hcaps.partValid, hv]
  refine ⟨fun ho => ?_, fun ho hr => ?_, fun hdev hlow => ?_⟩
  · exact capPassed_falls hp hd (downCause_own hv1 (by rw [hcaps.limitOver, ho]))
  · exact capPassed_falls hp hd (downCause_ranked hv1 (by rw [hcaps.limitOver, ho]) (by rw [hcaps.rankOf, hcaps.limitOver, hr]))
  · obtain ⟨⟨c, hc⟩, hcause⟩ := downCause_device (s := marginsCounted s amps) (amps := amps)
      (by rw [hcaps.limitOver, hcaps.limitOver, hdev]) (deviceTakes_marginsCounted hp hv hd hlow)
    refine ⟨(capPassed_falls hp hd hc).1, fun ho hr => ?_⟩
    rw [(capPassed_falls hp hd (hcause (by rw [hcaps.limitOver, ho]) (by rw [hcaps.rankOf, hcaps.limitOver, hr]))).2, hcaps.limitOver]
    split <;> rfl

end Sys2Proof.Machine
end

section
/-! PROOF. The statement of the power steps (02 R53 to R78), a clause for each act. -/

namespace Sys2Proof.Machine

variable {s : State}

/-- The valve's opening between its two ends. -/
theorem ofNat_valveFor (x : Nat) : BitVec.ofNat 8 (valveFor x) =
    if x ≤ 60 then 64 else if 95 ≤ x then 255 else BitVec.ofNat 8 (64 + (x - 60) * 191 / 35) := by
  unfold valveFor
  split
  · rfl
  · split <;> rfl

/-- What a thermal step down leaves (02 R57). -/
theorem thermLowered_effect (s : State) (c n : Nat) :
    (colAt (thermLowered s c n) c).therm = n ∧ (colAt (thermLowered s c n) c).thermAt = some s.tsc.toNat ∧
    (colAt (thermLowered s c n) c).duty = dutySteps (thermLowered s c n) c ∧
    (∀ p, validPart s c = some p → causeOf (partAt (thermLowered s c n) p) = 5) ∧
    (∀ m, m ≠ c → colAt (thermLowered s c n) m = colAt s m) ∧ PowerOnly s (thermLowered s c n) := by
  have hset := colsOnly_setCol s c { colAt s c with thermAt := some s.tsc.toNat }
  unfold thermLowered
  generalize hu : setCol s c { colAt s c with thermAt := some s.tsc.toNat } = u at hset
  have hcol : ∀ m, colAt (thermRecord u c) m = if m = c then { colAt s c with thermAt := some s.tsc.toNat } else colAt s m := fun m => by
    rw [← colAt_setCol, hu]
    unfold colAt
    rw [thermRecord_cols]
  obtain ⟨htherm, hat, _, hduty, hother⟩ := setTherm_effect (thermRecord u c) c n
  have hcols := colsOnly_setTherm (thermRecord u c) c n
  refine ⟨htherm, by rw [hat, hcol, if_pos rfl], hduty, fun p hp => ?_, fun m hm => by rw [hother m hm, hcol, if_neg hm],
    (hset.powerOnly.trans (powerOnly_thermRecord u c)).trans hcols.powerOnly⟩
  rw [hcols.partAt]
  exact causeOf_thermRecord ((validPart_congr hset.parts hset.pkg c).trans hp)

/-- Settles O52: each act's clause is what the lemmas above say of it. The temperatures of an estimate are the free ones that it draws. -/
theorem powerStepsRun : Obligations.PowerStepsRun := by
  unfold Obligations.PowerStepsRun
  intro s k energy amps demand inlet flow col tower tj tb temp port bytes c frame settled logged
  refine ⟨?estimate, ?refit, ?cap, ?stepDown, ?stepUp, ?ramp, ?ballast, ?valves, ?alarm, ?alarmOver, ?emergencyDie, ?emergencyBank,
    ?emergencyEnd, ?emergencyTimeout, ?capFrame, ?sensors⟩
  case estimate =>
    intro h
    obtain ⟨totals, ht⟩ := exec_powerEstimate h
    refine ⟨estimated s totals, freeTemp s, ht, ⟨fun n hn => ?_, ?_, fun p hp => ?_⟩, fun b i hb hi => ?_, ?_,
      estimated_cols s totals, (powerOnly_estimated s totals).frame⟩
    · exact domainPwr_estimated s totals hn
    · rw [← railPower_eq]
      exact ests_estimated s totals
    · rw [← railPower_eq]
      exact partEsts_estimated s totals hp
    · rw [(estimated_power s totals).1]
      exact sampled_counts s hb hi
    · rw [(estimated_power s totals).2.2.2, (sampled_power s).2.2]
  case refit =>
    refine ⟨_, exec_weightRefit k energy, rfl, rfl, fun i hi => ⟨tget_weightsRefit s k.val energy hi, fun j hj => ?_, ?_⟩⟩
    · exact covAt_refit s k.val _ (by simp only) hi hj
    · exact tget_totals_refit _ k hi
  case cap =>
    intro h
    obtain ⟨hframe, hests, hparts, hsettled⟩ := capPassed_frame s amps
    refine ⟨_, exec_capLoopPass h, hests, hparts, hframe.frame, hsettled, fun p hp => ?_⟩
    obtain ⟨hstep, hup, hdown⟩ := capPassed_steps (s := s) (amps := amps) hp
    refine ⟨hstep, fun hv hd => (capPassed_causes hp hv hd).1, fun hv hd => (capPassed_causes hp hv hd).2.1,
      fun hv hd => (capPassed_causes hp hv hd).2.2, fun hlt => ?_, hdown⟩
    obtain ⟨hv, hm, hok⟩ := hup hlt
    exact ⟨hv, hm, Bool.and_eq_true_iff.1 hok⟩
  case stepDown =>
    intro hh hd hl
    obtain ⟨htherm, hat, hduty, hcause, hother, hframe⟩ := thermLowered_effect s col.val (c.therm + 1)
    exact ⟨_, exec_thermalStepDown hh hd hl, htherm, hat, hduty, hcause, hother, hframe.frame⟩
  case stepUp =>
    intro at_ hc ha hd hl
    have hset := colsOnly_setCol s col.val { colAt s col.val with coolAt := some s.tsc.toNat }
    obtain ⟨htherm, _, hat, hduty, hother⟩ := setTherm_effect (setCol s col.val { colAt s col.val with coolAt := some s.tsc.toNat })
      col.val (c.therm - 1)
    have hcols := hset.trans (colsOnly_setTherm _ col.val (c.therm - 1))
    refine ⟨_, exec_thermalStepUp hc ha hd hl, htherm, ?_, hduty, fun n hn => ?_, hcols.parts, hcols.powerOnly.frame⟩
    · rw [hat, colAt_setCol_self]
    · rw [hother n hn, colAt_setCol, if_neg hn]
  case ramp =>
    obtain ⟨t, ht, hallow, hfloor, hcurrent, hballast, htimes, hnone, hsome, hsettled, hframe⟩ := exec_rampGuardTick (s := s) demand
    exact ⟨t, ht, hallow, hfloor, hcurrent, hballast, htimes, hnone, hsome, hsettled, hframe.frame⟩
  case ballast =>
    intro at_ ha hb
    exact ⟨_, exec_ballastStop ha hb, rfl, rfl, logPost_counts .., rfl, rfl, rfl, rfl, rfl⟩
  case valves =>
    obtain ⟨t, ht, hcols, hvalve⟩ := exec_valvePass (s := s)
    refine ⟨t, ht, hcols.powerOnly.frame, fun n hn => ?_⟩
    rw [hvalve n hn]
    unfold valveSet
    rw [ofNat_valveFor]
  case alarm =>
    intro h
    refine ⟨fun hnot => ?_, fun hin => ?_⟩
    · refine ⟨_, (exec_coolantAlarm h).trans (congrArg _ (if_neg (by simpa using hnot))), rfl, logPost_counts .., rfl, rfl, rfl, rfl, rfl⟩
    · exact (exec_coolantAlarm h).trans (congrArg _ (if_pos (by simpa using hin)))
  case alarmOver =>
    intro hi hf
    exact ⟨_, exec_coolantAlarm_over hi hf, by simp, rfl⟩
  case emergencyDie =>
    intro he ht
    obtain ⟨htj, htb, htail, hseq, hframe⟩ := emergencyAt_effect s col.val false temp temp (colAt s col.val).tb
    exact ⟨_, exec_emergencyBegin he (by simpa [isEmergency] using ht), rfl, htj, htb, ⟨htail, hseq⟩, hframe⟩
  case emergencyBank =>
    intro he ht
    obtain ⟨htj, htb, htail, hseq, hframe⟩ := emergencyAt_effect s col.val true temp (colAt s col.val).tj temp
    exact ⟨_, exec_emergencyBegin he (by simpa [isEmergency] using ht), rfl, htb, htj, ⟨htail, hseq⟩, hframe⟩
  case emergencyEnd =>
    intro at_ he hcool
    obtain ⟨data, ht⟩ := exec_emergencyEnd he hcool
    exact ⟨_, ht, rfl, rfl, logPost_counts .., rfl, rfl, rfl, rfl, rfl, rfl⟩
  case emergencyTimeout =>
    intro at_ he ht
    exact ⟨_, exec_emergencyTimeout he ht, rfl, rfl, rfl, rfl, (flashKept_settleInstalls s).flash, logPost_counts .., rfl⟩
  case capFrame =>
    refine ⟨fun hf hm hn => ?_, exec_capFrame_old, fun h => ?_⟩
    · exact ⟨_, exec_capFrame_taken hf hm hn, fun r hr => rankCap_frameTaken hr, rfl, rfl⟩
    · obtain ⟨r, ht⟩ := exec_capFrame_refused (port := port) h
      exact ⟨_, ht, rfl, rfl, logPost_counts .., rfl, rfl, rfl, rfl⟩
  case sensors =>
    have hset := colsOnly_setSensors s col.val tj tb
    obtain ⟨a, b, hcol⟩ := colAt_setSensors s col.val tj tb
    obtain ⟨hhot, hcool⟩ := heatWatch_times (setCol s col.val { colAt s col.val with tj := tj, tb := tb }) col.val
    exact ⟨_, rfl, by rw [hcol], by rw [hcol], hhot, hcool, by rw [hcol], hset.powerOnly.frame,
      fun n hn => colAt_setSensors_of_ne s tj tb hn⟩

end Sys2Proof.Machine
end

section
/-! PROOF. Launch lines, launches and contexts as their agents serve them (03 R102 to R119): what an act does when its checks pass, and
the acts that leave everything in its place, as those of a context that is being killed or of a device in a thermal emergency do. -/

namespace Sys2Proof.Machine

variable {s t v0 : State} {b : Block} {line : Fin 8} {k : Tok} {rest : List Tok} {gang l : Nat} {w : Want} {x : Launch}

theorem live_of_emerg {e : Nat} (h : s.emerg = some e) : live s = false := by simp [live, h]

/-! ### Tokens -/

theorem exec_tokenEnqueue_enters {tok : BitVec 512} (he : s.emerg = none) (hb : s.boot = .running)
    (hen : lineEn (lineAt s (lineKey b line)) = true) (hh : lineHost (lineAt s (lineKey b line)) = true)
    (hroom : (lineAt s (lineKey b line)).queue.length < 8)
    (ht : enqueueTok { s with reply := .ok [] } (lineKey b line) tok true none = some t) :
    exec (.tokenEnqueue b line tok true) s = .next t := by
  change hostToken s (lineKey b line) tok true = _
  unfold hostToken
  dsimp only
  rw [if_neg (by simp [he]), if_neg (by simp [hb, hen, hh, hroom]), ht]
  rfl

theorem exec_tokenEnqueue_dropped {tok : BitVec 512} (he : s.emerg = none)
    (hbad : lineEn (lineAt s (lineKey b line)) = false ∨ lineHost (lineAt s (lineKey b line)) = false ∨
      8 ≤ (lineAt s (lineKey b line)).queue.length) (whole : Bool) :
    exec (.tokenEnqueue b line tok whole) s = .next (dropToken { s with reply := .ok [] } (lineKey b line)) := by
  change hostToken s (lineKey b line) tok whole = _
  rcases hbad with h | h | h <;> simp [hostToken, he, h]

/-- What a write of `LL_CFG` does with the line's tokens depends on EN before and after (03 R103). -/
theorem exec_llCfgWrite (he : s.emerg = none) (v : Dword) : exec (.llCfgWrite b line v) s =
    .next (if lineEn (lineAt s (lineKey b line)) && !v.getLsbD 0
      then cancelToks (setLine s (lineKey b line) { lineAt s (lineKey b line) with cfg := v &&& 0x7FFFFF }) (lineKey b line) (fun _ => true)
      else setLine s (lineKey b line) { lineAt s (lineKey b line) with cfg := v &&& 0x7FFFFF }) := by
  change execLlCfgWrite b line v s = _
  simp [execLlCfgWrite, he]

/-! ### Record checks -/

theorem queue_popToken (s : State) (key : Nat) : (lineAt (popToken s key) key).queue = (lineAt s key).queue.tail :=
  congrArg Line.queue ((lineAt_setLine s key key _).trans (if_pos rfl))

/-- The line is checked again when tokens are left in it. -/
theorem checkAgain_popToken {key : Nat} (hq : (lineAt s key).queue = k :: rest) (u : State) :
    startNext u (if (lineAt (popToken s key) key).queue.isEmpty then [] else [checkNext key]) =
      { u with agenda := (if rest = [] then [] else [checkNext key]) ++ u.agenda } := by
  rw [queue_popToken, hq]
  cases rest <;> rfl

/-- A check of a token that stands: its record is read, then accepted or rejected. -/
theorem exec_launchRecordCheck_read (hl : live s = true) (hq : (lineAt s (lineKey b line)).queue = k :: rest) (hc : k.cancelled = false)
    (hk : killing s k.ctx = false) (hroom : heldBy s (lineKey b line / 8) < heldLimit (lineKey b line / 8))
    (hr : recordTake s (lineKey b line) k = some v0) :
    let popped := popToken v0 (lineKey b line)
    let more := { popped with agenda := (if rest = [] then [] else [checkNext (lineKey b line)]) ++ popped.agenda }
    exec (.launchRecordCheck b line) s = orStay s (match checkRecord v0 (lineKey b line) k with
      | .inl reason => rejectTok more (lineKey b line) k reason
      | .inr (r, deps) => acceptTok more (lineKey b line) k r deps) := by
  intro popped more
  change execLaunchRecordCheck b line s = _
  simp only [execLaunchRecordCheck, checkAgain_popToken hq]
  simp only [hq, hl, hc, hk, hr, Nat.not_le.2 hroom, Bool.not_true, Bool.or_self, Bool.false_eq_true, if_false]
  cases checkRecord v0 (lineKey b line) k <;> rfl

/-- A head token that is cancelled, or whose context is being killed, ends without a check (03 R110). -/
theorem exec_launchRecordCheck_cancels (hl : live s = true) (hq : (lineAt s (lineKey b line)).queue = k :: rest)
    (hc : k.cancelled = true ∨ killing s k.ctx = true) (ht : endToken (popToken s (lineKey b line)) k 0x45 0 = some t) :
    exec (.launchRecordCheck b line) s =
      .next { t with agenda := (if rest = [] then [] else [checkNext (lineKey b line)]) ++ t.agenda } := by
  have hend : (k.cancelled || killing s k.ctx) = true := by simpa using hc
  change execLaunchRecordCheck b line s = _
  simp only [execLaunchRecordCheck, checkAgain_popToken hq]
  simp only [hq, hl, hend, ht, Bool.not_true, Bool.false_eq_true, if_false, if_true]
  rfl

theorem exec_launchRecordCheck_held (hl : live s = false) : exec (.launchRecordCheck b line) s = .next s := by
  change execLaunchRecordCheck b line s = _
  simp only [execLaunchRecordCheck, hl]
  cases (lineAt s (lineKey b line)).queue <;> rfl

/-! ### Dependences -/

theorem exec_dependenceEvaluation_killing (hx : launchAt s l = some x) (hk : killing s x.tok.ctx = true) :
    exec (.dependenceEvaluation l) s = .next s := by
  change execDependenceEvaluation l s = _
  simp [execDependenceEvaluation, hx, hk]

/-- A launch whose dependences have been read: it becomes READY once all are met and no launch before it holds it back, and its tasks end
when a join record has failed. -/
theorem exec_dependenceEvaluation_read (hx : launchAt s l = some x) (hw : x.state = .waiting) (hl : live s = true)
    (hk : killing s x.tok.ctx = false) (ho : x.tok.orphan = false) (hd : depTakes s (launchKeyOf x) x.tok.ctx x.deps = some v0) :
    exec (.dependenceEvaluation l) s = match evalDeps v0 x with
      | none => orStay v0 (endTasks v0 l x (List.range x.n) 0x41 0)
      | some m =>
        if m.length = x.deps.length ∧ orderedHeld v0 { x with met := m } = false then .next (makeReady v0 l { x with met := m })
        else .next (setLaunch v0 l { x with met := m }) := by
  change execDependenceEvaluation l s = _
  have hgo : (x.state != .waiting || !live s || killing s x.tok.ctx) = false := by simp [hw, hl, hk]
  simp only [execDependenceEvaluation, hx, hgo, ho, hd, Bool.false_and, Bool.false_eq_true, if_false]
  cases evalDeps v0 x with
  | none => rfl
  | some m => simp only [Bool.and_eq_true, decide_eq_true_eq, Bool.not_eq_true']

/-! ### Gangs of a context that is being killed -/

section
variable (hw : wantOf s gang = some w) (hk : killing s w.ctx = true)
include hw hk

theorem exec_preTranslation_killing (hg : w.g.state ≠ .ended) : exec (.preTranslation gang) s = .next s := by
  change execPreTranslation gang s = _
  simp [execPreTranslation, hw, hk, hg]

theorem exec_gangReserve_killing : exec (.gangReserve gang) s = .next s := by
  change execGangReserve gang s = _
  simp [execGangReserve, hw, hk]

theorem exec_gangDispatch_killing : exec (.gangDispatch gang) s = .next s := by
  change execGangDispatch gang s = _
  simp only [execGangDispatch, hw]
  cases launchAt s w.g.launch with
  | none => rfl
  | some l => simp [hk]

theorem exec_preemption_killing : exec (.preemption gang) s = .next s := by
  change execPreemption gang s = _
  simp [execPreemption, hw, hk]

theorem exec_preemptResume_killing : exec (.preemptResume gang) s = .next s := by
  change execPreemptResume gang s = _
  simp [execPreemptResume, hw, hk]

end

/-! ### Contexts -/

theorem exec_ctxRefresh {ctx : BitVec 8} (hb : s.pkg.ctxBusy = true) (hop : bits s.pkg.ctxCmd.toNat 8 2 = 1)
    (hctx : bits s.pkg.ctxCmd.toNat 0 8 = ctx.toNat) (he : s.emerg = none) :
    let pa := s.pkg.ctxTable.toNat + 32 * ctx.toNat
    exec (.ctxRefresh ctx) s = match readAt s 0 (pa / 128) with
      | none => .next (holdRead s (pa / 128))
      | some u => .next { u with
          ctxs := tput CtxEnt.zero u.ctxs ctx.toNat (ctxDecode (perfNat u pa 32)), pkg := { u.pkg with ctxBusy := false } } := by
  intro pa
  change execCtxRefresh ctx s = _
  have hgo : (!s.pkg.ctxBusy || decide (bits s.pkg.ctxCmd.toNat 8 2 ≠ 1) || decide (bits s.pkg.ctxCmd.toNat 0 8 ≠ ctx.toNat) ||
      s.emerg.isSome) = false := by simp [hb, hop, hctx, he]
  simp only [execCtxRefresh, hgo, Bool.false_eq_true, if_false]
  cases readAt s 0 (pa / 128) <;> rfl

theorem exec_ctxKill {ctx : BitVec 8} (hk : killing s ctx.toNat = true) (hl : live s = true)
    (ht : killWhere s (fun n => decide (n = ctx.toNat)) = some t) : exec (.ctxKill ctx) s = .next (retryNext t) := by
  change execCtxKill ctx s = _
  simp [execCtxKill, hk, hl, ht]

/-- A kill is complete when no token, task or launch of its context is left. -/
theorem exec_killComplete {n : Nat} (hn : bits s.pkg.ctxCmd.toNat 0 8 = n) (hk : killing s n = true) (he : s.emerg = none)
    (htoks : ∀ p ∈ s.lines, ∀ k ∈ p.2.queue, k.ctx ≠ n) (htasks : ∀ p ∈ tsome s.tasks, p.2.ctx ≠ n)
    (hlaunches : ∀ p ∈ tsome s.launches, p.2.tok.ctx ≠ n) :
    exec .killComplete s = .next (raiseVec { s with pkg := { s.pkg with ctxBusy := false } } (ctxAt s n).vec.toNat) := by
  have hqueues : s.lines.any (fun p => p.2.queue.any (fun k => decide (k.ctx = n))) = false := by simpa using htoks
  have hresident : (tsome s.tasks).any (fun p => decide (p.2.ctx = n)) = false := by simpa using htasks
  have haccepted : (tsome s.launches).any (fun p => decide (p.2.tok.ctx = n)) = false := by simpa using hlaunches
  change execKillComplete s = _
  simp [execKillComplete, hn, hk, he, hqueues, hresident, haccepted]

/-! ### A thermal emergency (02 R77) -/

section
variable {e : Nat} (he : s.emerg = some e)
include he

theorem exec_llCfgWrite_emerg (v : Dword) : exec (.llCfgWrite b line v) s = .next s := by
  change execLlCfgWrite b line v s = _
  simp [execLlCfgWrite, he]

theorem exec_ctxRefresh_emerg (ctx : BitVec 8) : exec (.ctxRefresh ctx) s = .next s := by
  change execCtxRefresh ctx s = _
  simp [execCtxRefresh, he]

theorem exec_killComplete_emerg : exec .killComplete s = .next s := by
  change execKillComplete s = _
  simp [execKillComplete, he]

end

/-- Settles O48: each clause is the act's lemma above, at the outcome that the clause names. -/
theorem launchStepsRun : Obligations.LaunchStepsRun := by
  unfold Obligations.LaunchStepsRun
  intro s t v0 b line tok k rest v ctx l x key y popped more
  refine ⟨exec_tokenEnqueue_enters, exec_tokenEnqueue_dropped, fun hl hq hc hk hroom hr => ?check, exec_launchRecordCheck_cancels,
    exec_dependenceEvaluation_killing, fun gang w hw hk hg => ?killed, fun hx hw hl hk ho hd => ?dependences,
    fun he hen => ?configured, fun he hen hv => ?disabled, fun hb hop hctx he => ?refresh, fun e he => ?emergency, exec_ctxKill,
    exec_killComplete rfl⟩
  case check =>
    have hact := exec_launchRecordCheck_read hl hq hc hk hroom hr
    refine ⟨fun r deps hcheck ht => ?_, fun reason hcheck ht => ?_⟩
    · rw [hact, hcheck]
      exact congrArg (orStay s) ht
    · rw [hact, hcheck]
      exact congrArg (orStay s) ht
  case killed =>
    exact ⟨exec_preTranslation_killing hw hk hg, exec_gangReserve_killing hw hk, exec_gangDispatch_killing hw hk,
      exec_preemption_killing hw hk, exec_preemptResume_killing hw hk⟩
  case dependences =>
    have hact := exec_dependenceEvaluation_read hx hw hl hk ho hd
    refine ⟨fun m hm hall hfree => ?_, fun m hm hwait => ?_, fun hfail ht => ?_⟩
    · rw [hact, hm]
      exact if_pos ⟨hall, hfree⟩
    · rw [hact, hm]
      refine if_neg fun h => ?_
      rcases hwait with hlen | hheld
      · exact hlen h.1
      · exact Bool.false_ne_true (h.2.symm.trans hheld)
    · rw [hact, hfail]
      exact congrArg (orStay v0) ht
  case configured =>
    have hkeeps : (lineEn y && !v.getLsbD 0) = false := by
      rcases hen with h | h
      · rw [h, Bool.false_and]
      · rw [h, Bool.not_true, Bool.and_false]
    exact (exec_llCfgWrite he v).trans (congrArg _ (if_neg (ne_true_of_eq_false hkeeps)))
  case disabled =>
    have hclears : (lineEn y && !v.getLsbD 0) = true := by rw [hen, hv]; rfl
    exact (exec_llCfgWrite he v).trans (congrArg _ (if_pos hclears))
  case refresh =>
    refine ⟨fun ht => ?_, fun ht => ?_⟩
    · rw [exec_ctxRefresh hb hop hctx he, ht]
    · rw [exec_ctxRefresh hb hop hctx he, ht]
  case emergency =>
    exact ⟨exec_llCfgWrite_emerg he, exec_ctxRefresh_emerg he ctx, exec_killComplete_emerg he,
      exec_launchRecordCheck_held (live_of_emerg he)⟩

end Sys2Proof.Machine
end

section
/-! PROOF. Register requests from outside (03 R93, R101, 06 R237): a write of `EXT_STORE` by supervisor code is completed and ignored, not
refused. -/

namespace Sys2Proof.Machine

variable {s : State}

theorem regAt_extStore : regAt (pkgOff 0x12150) = some .extStore := rfl

/-- Supervisor code reaches `EXT_STORE`, which ignores its writes (06 R237): the write completes without an error and without an effect,
though `canWrite` says no. -/
theorem exec_registerWrite_extStore (he : s.emerg = none) (v : Dword) :
    exec (.registerWrite .supervisor (regBase + pkgOff 0x12150) (some v)) s = .next { s with reply := .ok [] } := by
  have haddr : ¬(regBase + pkgOff 0x12150 < regBase ∨ 2 * regBase ≤ regBase + pkgOff 0x12150 ∨ (regBase + pkgOff 0x12150) % 8 ≠ 0) := by
    decide
  have hoff : regOff (regBase + pkgOff 0x12150) = pkgOff 0x12150 := by decide
  change execRegisterWrite .supervisor (regBase + pkgOff 0x12150) (some v) s = _
  unfold execRegisterWrite
  rw [regHeld_of_emerg he, if_neg Bool.false_ne_true, if_neg haddr, hoff, regAt_extStore]
  rfl

/-- Refutes O50: after reset a supervisor's write of `EXT_STORE`, which it may not write, is answered without an error, where the clause on
refused writes of registers asks for error 0x52. -/
theorem not_outsideRequestsAreServed : ¬ Obligations.OutsideRequestsAreServed := by
  unfold Obligations.OutsideRequestsAreServed
  intro h
  obtain ⟨-, -, -, -, -, -, -, hrefused, -⟩ :=
    h State.reset State.reset 0 (pkgOff 0x12150) 8 0 0 .extStore 0 0 0 .supervisor 0 0 [] .add .i32 rfl
  obtain ⟨x, hx, hreply, -⟩ := hrefused regAt_extStore rfl rfl
  rw [exec_registerWrite_extStore rfl] at hx
  cases hx
  cases hreply

end Sys2Proof.Machine
end

section
/-! PROOF. Issue choice (04 R137 to R139, 10 R356): what each part of the choice picks, and what an issue cycle counts. -/

namespace Sys2Proof.Machine

variable {s : State} {core n q : Nat} {p r : Nat × Clutch} {l rs : List (Nat × Clutch)}

/-! ### Clutches of a core -/

theorem nodup_eraseDups {α : Type} [BEq α] [LawfulBEq α] (l : List α) : l.eraseDups.Nodup := by
  cases l with
  | nil => exact List.nodup_nil
  | cons a l =>
    rw [List.eraseDups_cons]
    refine List.nodup_cons.2 ⟨fun h => ?_, nodup_eraseDups _⟩
    simpa using List.mem_eraseDups.1 h
termination_by l.length
decreasing_by exact Nat.lt_succ_of_le (List.length_filter_le ..)

/-- Each clutch of a core is listed once. -/
theorem nodup_clutchesOn (s : State) (core : Nat) : ((clutchesOn s core).map Prod.fst).Nodup := by
  refine List.Nodup.sublist (List.filter_sublist.map _) ?_
  rw [List.map_map]
  exact (List.map_id _).symm ▸ nodup_eraseDups _

theorem eq_clutchAt_of_mem_clutchesOn (h : r ∈ clutchesOn s core) : r.2 = clutchAt s r.1 := by
  obtain ⟨i, -, rfl⟩ := List.mem_map.1 (List.mem_filter.1 h).1
  rfl

/-! ### The parts of the choice -/

/-- The first member of a list in an order, the earlier in the list on a tie. -/
def firstBy {α : Type} (before : α → α → Prop) [DecidableRel before] : List α → Option α
  | [] => none
  | a :: l => match firstBy before l with
    | none => some a
    | some b => if before a b then some a else some b

section
variable {α : Type} {before : α → α → Prop} [DecidableRel before] {a : α} {m : List α}

theorem firstBy_eq_none : firstBy before m = none ↔ m = [] := by
  cases m with
  | nil => exact ⟨fun _ => rfl, fun _ => rfl⟩
  | cons a m =>
    refine ⟨fun h => ?_, nofun⟩
    rw [firstBy] at h
    split at h
    · cases h
    · split at h <;> cases h

/-- In a total preorder it is before every member. -/
theorem firstBy_first (htotal : ∀ a b, before a b ∨ before b a) (htrans : ∀ a b c, before a b → before b c → before a c)
    (h : firstBy before m = some a) : a ∈ m ∧ ∀ b ∈ m, before a b := by
  have hrefl : ∀ a, before a a := fun a => (htotal a a).elim id id
  induction m generalizing a with
  | nil => cases h
  | cons b m ih =>
    rw [firstBy] at h
    cases hm : firstBy before m with
    | none =>
      rw [hm] at h
      cases h
      simpa [firstBy_eq_none.1 hm] using hrefl b
    | some c =>
      obtain ⟨hc, hle⟩ := ih hm
      rw [hm] at h
      dsimp only at h
      split at h
      case isTrue hbc =>
        cases h
        exact ⟨List.mem_cons_self, List.forall_mem_cons.2 ⟨hrefl b, fun d hd => htrans b c d hbc (hle d hd)⟩⟩
      case isFalse hbc =>
        cases h
        exact ⟨List.mem_cons_of_mem _ hc, List.forall_mem_cons.2 ⟨(htotal b _).resolve_left hbc, hle⟩⟩

end

/-- `p` comes no later than `r` among overdue clutches (04 R138): it has waited longer, or as long in a slot no higher. -/
abbrev WaitsLonger (p r : Nat × Clutch) : Prop :=
  r.2.waitCount < p.2.waitCount ∨ (r.2.waitCount = p.2.waitCount ∧ p.2.slot ≤ r.2.slot)

theorem longestWait_eq_firstBy (l : List (Nat × Clutch)) : longestWait l = firstBy WaitsLonger l := by
  induction l with
  | nil => rfl
  | cons a l ih =>
    rw [longestWait, firstBy, ih]
    cases firstBy WaitsLonger l <;> rfl

theorem longestWait_longest (h : longestWait l = some p) : p ∈ l ∧ ∀ r ∈ l, WaitsLonger p r := by
  rw [longestWait_eq_firstBy] at h
  exact firstBy_first (fun _ _ => by omega) (fun _ _ _ _ _ => by omega) h

/-- The task of `p` comes no later than that of `r` (04 R139): it is of higher priority, or of the same and dispatched no later. -/
abbrev RanksFirst (s : State) (p r : Nat × Clutch) : Prop :=
  (taskRank s r.2).1 < (taskRank s p.2).1 ∨
    ((taskRank s r.2).1 = (taskRank s p.2).1 ∧ (taskRank s p.2).2 ≤ (taskRank s r.2).2)

theorem firstTask_eq_firstBy (s : State) (l : List (Nat × Clutch)) : firstTask s l = firstBy (RanksFirst s) l := by
  induction l with
  | nil => rfl
  | cons a l ih =>
    rw [firstTask, firstBy, ih]
    cases firstBy (RanksFirst s) l with
    | none => rfl
    | some b => simp only [RanksFirst, eq_comm]

theorem firstTask_first (h : firstTask s l = some p) : p ∈ l ∧ ∀ r ∈ l, RanksFirst s p r := by
  rw [firstTask_eq_firstBy] at h
  exact firstBy_first (fun _ _ => by omega) (fun _ _ _ _ _ => by omega) h

/-- Clutches of one task have its rank. -/
theorem taskRank_congr {c d : Clutch} (h : c.task = d.task) : taskRank s c = taskRank s d := by unfold taskRank; rw [h]

theorem slotFrom_eq_none : slotFrom n l = none ↔ ∀ r ∈ l, r.2.slot < n := by
  induction l with
  | nil => simp [slotFrom]
  | cons a l ih =>
    rw [slotFrom, List.forall_mem_cons, ← ih]
    cases slotFrom n l with
    | none => simp
    | some b =>
      dsimp only
      split <;> simp

theorem slotFrom_lowest (h : slotFrom n l = some p) : p ∈ l ∧ n ≤ p.2.slot ∧ ∀ r ∈ l, n ≤ r.2.slot → p.2.slot ≤ r.2.slot := by
  induction l generalizing p with
  | nil => cases h
  | cons a l ih =>
    rw [slotFrom] at h
    cases ht : slotFrom n l with
    | none =>
      rw [ht] at h
      obtain ⟨ha, hp⟩ : n ≤ a.2.slot ∧ a = p := by simpa using h
      subst hp
      exact ⟨List.mem_cons_self, ha, List.forall_mem_cons.2
        ⟨fun _ => le_rfl, fun r hr hn => absurd hn (Nat.not_le.2 (slotFrom_eq_none.1 ht r hr))⟩⟩
    | some b =>
      obtain ⟨hb, hn, hle⟩ := ih ht
      rw [ht] at h
      dsimp only at h
      split at h
      case isTrue hab =>
        cases h
        exact ⟨List.mem_cons_self, hab.1, List.forall_mem_cons.2 ⟨fun _ => le_rfl, fun r hr hr' => hab.2.trans (hle r hr hr')⟩⟩
      case isFalse hab =>
        cases h
        exact ⟨List.mem_cons_of_mem _ hb, hn, List.forall_mem_cons.2 ⟨fun ha => by omega, hle⟩⟩

/-- `p` is no later than `r` in the turn that begins at slot n: the slots from n on, then those below it (04 R139). -/
def TurnFirst (n : Nat) (p r : Nat × Clutch) : Prop :=
  (n ≤ p.2.slot ∧ (n ≤ r.2.slot → p.2.slot ≤ r.2.slot)) ∨ (p.2.slot < n ∧ r.2.slot < n ∧ p.2.slot ≤ r.2.slot)

/-- The next slot in turn: the lowest from n on, or where there is none the lowest. -/
def nextInTurn (n : Nat) (l : List (Nat × Clutch)) : Option (Nat × Clutch) :=
  match slotFrom n l with
  | some q => some q
  | none => slotFrom 0 l

theorem nextInTurn_isSome (h : l ≠ []) : (nextInTurn n l).isSome = true := by
  unfold nextInTurn
  split
  · rfl
  · rw [Option.isSome_iff_ne_none, Ne, slotFrom_eq_none]
    obtain ⟨a, ha⟩ := List.exists_mem_of_ne_nil l h
    exact fun hlt => Nat.not_lt_zero _ (hlt a ha)

theorem nextInTurn_first (h : nextInTurn n l = some p) : p ∈ l ∧ ∀ r ∈ l, TurnFirst n p r := by
  unfold nextInTurn at h
  split at h
  case h_1 b hb =>
    cases h
    obtain ⟨hp, hn, hle⟩ := slotFrom_lowest hb
    exact ⟨hp, fun r hr => .inl ⟨hn, hle r hr⟩⟩
  case h_2 hnone =>
    obtain ⟨hp, -, hle⟩ := slotFrom_lowest h
    have hlt := slotFrom_eq_none.1 hnone
    exact ⟨hp, fun r hr => .inr ⟨hlt p hp, hlt r hr, hle r hr (Nat.zero_le _)⟩⟩

/-! ### The choice -/

/-- Clutches that have waited 3 × n cycles or more (04 R138). -/
def overdueOf (n : Nat) (rs : List (Nat × Clutch)) : List (Nat × Clutch) := rs.filter (fun p => decide (3 * n ≤ p.2.waitCount))

theorem mem_overdueOf : p ∈ overdueOf n rs ↔ p ∈ rs ∧ 3 * n ≤ p.2.waitCount := by simp [overdueOf]

/-- The ready clutches of the task of `p`. -/
def ofTask (p : Nat × Clutch) (rs : List (Nat × Clutch)) : List (Nat × Clutch) := rs.filter (fun q => decide (q.2.task = p.2.task))

theorem mem_ofTask : r ∈ ofTask p rs ↔ r ∈ rs ∧ r.2.task = p.2.task := by simp [ofTask]

theorem pickIssue_of_overdue (h : overdueOf n rs ≠ []) : pickIssue s core n rs = longestWait (overdueOf n rs) :=
  if_pos (by rwa [Bool.not_eq_true', ← Bool.not_eq_true, List.isEmpty_iff])

theorem pickIssue_of_none_overdue (h : overdueOf n rs = []) : pickIssue s core n rs =
    (firstTask s rs).bind (fun a => nextInTurn (tget 0 (coreAt s core).lastSlot (rrKey a.2)) (ofTask a rs)) := by
  refine (if_neg (by rw [Bool.not_eq_true', ← Bool.not_eq_true, List.isEmpty_iff, not_not]; exact h)).trans ?_
  cases firstTask s rs <;> rfl

theorem pickIssue_isSome (h : rs ≠ []) : (pickIssue s core n rs).isSome = true := by
  by_cases ho : overdueOf n rs = []
  · rw [pickIssue_of_none_overdue ho]
    cases hf : firstTask s rs with
    | none => exact absurd (firstBy_eq_none.1 ((firstTask_eq_firstBy s rs).symm.trans hf)) h
    | some a => exact nextInTurn_isSome (List.ne_nil_of_mem (mem_ofTask.2 ⟨(firstTask_first hf).1, rfl⟩))
  · rw [pickIssue_of_overdue ho, Option.isSome_iff_ne_none]
    exact fun hl => ho (firstBy_eq_none.1 ((longestWait_eq_firstBy _).symm.trans hl))

/-- An overdue clutch comes first, the longest wait before the others (04 R138). -/
theorem pickIssue_overdue (h : pickIssue s core n rs = some p) (hlate : ∃ r ∈ rs, 3 * n ≤ r.2.waitCount) :
    p ∈ rs ∧ 3 * n ≤ p.2.waitCount ∧
      ∀ r ∈ rs, r.2.waitCount ≤ p.2.waitCount ∧ (r.2.waitCount = p.2.waitCount → p.2.slot ≤ r.2.slot) := by
  obtain ⟨a, ha⟩ := hlate
  rw [pickIssue_of_overdue (List.ne_nil_of_mem (mem_overdueOf.2 ha))] at h
  obtain ⟨hp, hle⟩ := longestWait_longest h
  obtain ⟨hp, hw⟩ := mem_overdueOf.1 hp
  refine ⟨hp, hw, fun r hr => ?_⟩
  by_cases hrw : 3 * n ≤ r.2.waitCount
  · have hpr := hle r (mem_overdueOf.2 ⟨hr, hrw⟩)
    omega
  · omega

/-- With none overdue, the first task's next slot in turn (04 R139). All clutches are of one quadrant, so a task has one pointer. -/
theorem pickIssue_ranked (h : pickIssue s core n rs = some p) (hnone : ∀ r ∈ rs, ¬ 3 * n ≤ r.2.waitCount) (hq : ∀ r ∈ rs, r.2.quad = q) :
    p ∈ rs ∧ ∀ r ∈ rs, RanksFirst s p r ∧
      (r.2.task = p.2.task → TurnFirst (tget 0 (coreAt s core).lastSlot (rrKey p.2)) p r) := by
  have ho : overdueOf n rs = [] := List.eq_nil_iff_forall_not_mem.2 fun r hr => hnone r (mem_overdueOf.1 hr).1 (mem_overdueOf.1 hr).2
  rw [pickIssue_of_none_overdue ho] at h
  obtain ⟨a, ha, hp⟩ := Option.bind_eq_some_iff.1 h
  obtain ⟨ha, hfirst⟩ := firstTask_first ha
  obtain ⟨hp, hturn⟩ := nextInTurn_first hp
  obtain ⟨hp, htask⟩ := mem_ofTask.1 hp
  have hkey : rrKey p.2 = rrKey a.2 := by simp only [rrKey, taskNo, htask, hq p hp, hq a ha]
  refine ⟨hp, fun r hr => ⟨?_, fun hrp => ?_⟩⟩
  · rw [RanksFirst, taskRank_congr htask]
    exact hfirst r hr
  · rw [hkey]
    exact hturn r (mem_ofTask.2 ⟨hr, hrp.trans htask⟩)

/-! ### What a cycle counts -/

/-- A clutch after a cycle in which `pick` had the turn among `rs` (04 R138, 10 R356). -/
def waitCounted (s : State) (pick : Nat) (rs : List (Nat × Clutch)) (p : Nat × Clutch) (c : Clutch) : Clutch :=
  { c with
    waitCount := if p.1 ≠ pick ∧ ready s p.2 = true then c.waitCount + 1 else 0
    yielded := c.yielded && !rs.any (fun q => decide (q.1 ≠ p.1)) }

theorem clutchAt_countWait (pick : Nat) (u : State) (p : Nat × Clutch) (i : Nat) :
    clutchAt (countWait s pick rs u p) i = if i = p.1 then waitCounted s pick rs p (clutchAt u p.1) else clutchAt u i :=
  clutchAt_setClutch ..

theorem foldl_countWait_only (pick : Nat) (u : State) :
    l.foldl (countWait s pick rs) u = { u with clutches := (l.foldl (countWait s pick rs) u).clutches } :=
  List.foldlRecOn l _ (motive := fun t : State => t = { u with clutches := t.clutches }) rfl fun t ht _ _ => by rw [ht]; rfl

theorem clutchAt_foldl_countWait_of_ne (pick : Nat) (u : State) {i : Nat} (h : ∀ r ∈ l, r.1 ≠ i) :
    clutchAt (l.foldl (countWait s pick rs) u) i = clutchAt u i :=
  List.foldlRecOn l _ (motive := fun t => clutchAt t i = clutchAt u i) rfl fun t ht r hr =>
    (clutchAt_countWait pick t r i).trans ((if_neg (Ne.symm (h r hr))).trans ht)

theorem clutchAt_foldl_countWait_of_mem (pick : Nat) (u : State) (hl : (l.map Prod.fst).Nodup) (hr : r ∈ l) :
    clutchAt (l.foldl (countWait s pick rs) u) r.1 = waitCounted s pick rs r (clutchAt u r.1) := by
  induction l generalizing u with
  | nil => exact absurd hr List.not_mem_nil
  | cons a l ih =>
    obtain ⟨ha, hl⟩ := List.nodup_cons.1 hl
    rw [List.foldl_cons]
    have hne : ∀ b ∈ l, b.1 ≠ a.1 := fun b hb e => ha (e ▸ List.mem_map_of_mem hb)
    rcases List.mem_cons.1 hr with rfl | hr
    · rw [clutchAt_foldl_countWait_of_ne pick _ hne]
      exact (clutchAt_countWait ..).trans (if_pos rfl)
    · rw [ih _ hl hr]
      exact congrArg _ ((clutchAt_countWait ..).trans (if_neg (hne r hr)))

/-! ### The cycle -/

/-- The clutches of a quadrant of a core. -/
def quadOf (s : State) (core q : Nat) : List (Nat × Clutch) := (clutchesOn s core).filter (fun p => decide (p.2.quad = q))

/-- Those that are ready. -/
def readyOf (s : State) (core q : Nat) : List (Nat × Clutch) := (quadOf s core q).filter (fun p => ready s p.2)

/-- Those that may have the turn: a clutch that has yielded is passed over while another is ready (10 R356). -/
def mayIssue (rs : List (Nat × Clutch)) : List (Nat × Clutch) :=
  if rs.all (fun p => p.2.yielded) then rs else rs.filter (fun p => !p.2.yielded)

theorem mayIssue_eq (rs : List (Nat × Clutch)) :
    (if (rs.filter (fun p => !p.2.yielded)).isEmpty then rs else rs.filter (fun p => !p.2.yielded)) = mayIssue rs := by
  unfold mayIssue
  congr 1
  simp

theorem mayIssue_ne_nil (h : rs ≠ []) : mayIssue rs ≠ [] := by
  rw [← mayIssue_eq]
  split
  case isTrue => exact h
  case isFalse hfresh => exact fun hnil => hfresh (List.isEmpty_iff.2 hnil)

theorem mem_of_mem_mayIssue (h : p ∈ mayIssue rs) : p ∈ rs := by
  unfold mayIssue at h
  split at h
  · exact h
  · exact (List.mem_filter.1 h).1

/-- The state after `p` has had the turn of a quadrant. -/
def turnTaken (s : State) (core q : Nat) (p : Nat × Clutch) : State :=
  let k := coreAt s core
  { setCore ((quadOf s core q).foldl (countWait s p.1 (readyOf s core q)) s) core
      { k with lastSlot := tput 0 k.lastSlot (rrKey p.2) (p.2.slot + 1) } with cur := p.1, issuing := true }

theorem exec_issueCycle_quad {c : Fin 256} {d : Fin 4}
    (h : pickIssue s c.val (readyOf s c.val d.val).length (mayIssue (readyOf s c.val d.val)) = some p) :
    exec (.issueCycle (.quad c d)) s = .next (turnTaken s c.val d.val p) := by
  rw [← mayIssue_eq] at h
  change execIssueCycle (.quad c d) s = _
  simp only [execIssueCycle]
  split
  case h_1 hnone => exact absurd (hnone.symm.trans h) nofun
  case h_2 a ha =>
    cases ha.symm.trans h
    rfl

theorem clutchAt_turnTaken_of_mem (hr : r ∈ quadOf s core q) :
    clutchAt (turnTaken s core q p) r.1 = waitCounted s p.1 (readyOf s core q) r r.2 := by
  have hnodup : ((quadOf s core q).map Prod.fst).Nodup := (nodup_clutchesOn s core).sublist (List.filter_sublist.map _)
  refine (clutchAt_foldl_countWait_of_mem p.1 s hnodup hr).trans ?_
  rw [← eq_clutchAt_of_mem_clutchesOn (List.mem_filter.1 hr).1]

theorem clutchAt_turnTaken_of_ne {i : Nat} (h : ∀ r ∈ quadOf s core q, r.1 ≠ i) : clutchAt (turnTaken s core q p) i = clutchAt s i :=
  clutchAt_foldl_countWait_of_ne p.1 s h

/-- A turn changes clutches and the cores' pointers alone. -/
theorem turnTaken_frame (s : State) (core q : Nat) (p : Nat × Clutch) :
    turnTaken s core q p = { s with
      clutches := (turnTaken s core q p).clutches, cores := (turnTaken s core q p).cores, cur := p.1, issuing := true } := by
  unfold turnTaken setCore
  rw [foldl_countWait_only]

theorem lastSlot_turnTaken (s : State) (core q : Nat) (p : Nat × Clutch) :
    tget 0 (coreAt (turnTaken s core q p) core).lastSlot (rrKey p.2) = p.2.slot + 1 := by
  refine (congrArg (fun k : CoreSt => tget 0 k.lastSlot (rrKey p.2)) ((coreAt_setCore ..).trans (if_pos rfl))).trans ?_
  exact tget_tput_self (0 : Nat) (coreAt s core).lastSlot (rrKey p.2) (p.2.slot + 1)

/-- Settles O40: the choice by `pickIssue_overdue` and `pickIssue_ranked`, the counts by the clutches read back after the turn. -/
theorem issueCycleGivesTheTurn : Obligations.IssueCycleGivesTheTurn := by
  unfold Obligations.IssueCycleGivesTheTurn
  intro s core q col
  refine ⟨fun hready => ?_, ?_⟩
  · change execIssueCycle (.host col) s = _
    simp [execIssueCycle, hready]
  intro here rs can late hrs
  obtain ⟨p, hp⟩ := Option.isSome_iff_exists.1 (pickIssue_isSome (s := s) (core := core.val) (n := rs.length) (mayIssue_ne_nil hrs))
  have hquad : ∀ r ∈ can, r.2.quad = q.val := fun r hr =>
    of_decide_eq_true (List.mem_filter.1 (List.mem_filter.1 (mem_of_mem_mayIssue hr)).1).2
  have hmem : p ∈ can := by
    by_cases hlate : ∃ r ∈ can, late r
    · exact (pickIssue_overdue hp hlate).1
    · exact (pickIssue_ranked hp (fun r hr h => hlate ⟨r, hr, h⟩) hquad).1
  have hframe := turnTaken_frame s core.val q.val p
  refine ⟨turnTaken s core.val q.val p, p, exec_issueCycle_quad hp, hmem, rfl, rfl, fun hlate => (pickIssue_overdue hp hlate).2,
    fun hnone => (pickIssue_ranked hp hnone hquad).2, lastSlot_turnTaken .., fun r hr => ?counts,
    fun i hi => clutchAt_turnTaken_of_ne hi, by rw [hframe], by rw [hframe], by rw [hframe], by rw [hframe]⟩
  case counts =>
    rw [clutchAt_turnTaken_of_mem hr]
    unfold waitCounted
    congr 1
    by_cases hturn : r.1 = p.1 <;> cases ready s r.2 <;> simp [hturn]

end Sys2Proof.Machine
end

section
/-! PROOF. Steps that end waits (04 R138, 05 R164, R169, R179) and entries that no word makes (12 R427, R460, R461). -/

namespace Sys2Proof.Machine

variable {s u : State} {cid : Nat} {i : Instr} {k : WaitKind}

/-! ### A waiting word runs again -/

theorem exists_word_eq_next (i : Instr) (s : State) (body : Ctx → State → Res) : ∃ t, word i s body = .next t := by
  unfold word
  split <;> exact ⟨_, rfl⟩

theorem waitWord_of_wait (h : (clutchAt s cid).wait = some { kind := k, instr := i }) : waitWord s cid k = some i := by
  simp [waitWord, h]

/-- An act for another clutch leaves the turn where it is. -/
theorem runAs_of_next {f : State → Out} {t : State} (h : f { s with cur := cid } = .next t) : runAs s cid f = .next { t with cur := s.cur } := by
  rw [runAs, h]

/-- An act `ev` that runs the word in which a clutch waits does what that word does for the clutch. -/
theorem exec_resumes {ev : Instr} {body : Ctx → State → Res} (hword : ∀ s, exec i s = word i s body)
    (hev : waitWord s cid k = some i → exec ev s = runAs s cid (exec i)) (hw : (clutchAt s cid).wait = some { kind := k, instr := i }) :
    ∃ t, exec i { s with cur := cid } = .next t ∧ exec ev s = .next { t with cur := s.cur } := by
  obtain ⟨t, ht⟩ := exists_word_eq_next i { s with cur := cid } body
  have hi := (hword _).trans ht
  exact ⟨t, hi, (hev (waitWord_of_wait hw)).trans (runAs_of_next hi)⟩

/-! ### Masks and windows -/

/-- Lanes that wait on a mask are released once every lane whose bit is set waits on it (05 R164). -/
theorem exec_kwaitRelease {j : Fin 12} {waiting : Mask} (hwaiting : maskOf (fun n => decide ((laneAt (clutchAt s cid) n).kwait = some j)) = waiting)
    (hr : (clutchAt s cid).region = none) (hne : waiting ≠ 0)
    (hneed : (if isHost (clutchAt s cid) then getK (clutchAt s cid) j.val &&& 1 else getK (clutchAt s cid) j.val) &&& ~~~waiting = 0) :
    exec (.kwaitRelease cid j) s = .next (setClutch s cid (modLanes (clutchAt s cid) waiting (fun _ l => { l with kwait := none }))) := by
  subst hwaiting
  exact congrArg (fun c => Host.Outcome.next (setClutch s cid c)) (if_pos ⟨by rw [hr]; rfl, hne, hneed⟩)

/-- A window comes back as it left when the bus works and no line of the stack area has an array error (05 R169). -/
theorem exec_registerRecall (hh : isHost (clutchAt s cid) = false) (hl : live s = true) (hbus : busFailed s (colOf (clutchAt s cid).core) = false)
    (hbank : bankBusy s (colOf (clutchAt s cid).core) = false)
    (herr : bankErrLines s (stackLine (colOf (clutchAt s cid).core)) (stackArea / 128) = []) :
    exec (.registerRecall cid) s = .next (setClutch s cid { clutchAt s cid with windowOut := false }) := by
  change execRegisterRecall cid s = _
  simp [execRegisterRecall, hh, hl, hbus, hbank, herr, modClutch_def]

theorem exec_windowParking (hh : isHost (clutchAt s cid) = false) (hl : live s = true) (hp : parkable (clutchAt s cid) = true)
    (hout : (clutchAt s cid).windowOut = false) (hin : clutchIn s (clutchAt s cid) = true)
    (hroom : parkRoom s (colOf (clutchAt s cid).core) = true) (hbus : busFailed s (colOf (clutchAt s cid).core) = false) :
    exec (.windowParking cid) s = .next (setClutch s cid { clutchAt s cid with windowOut := true }) := by
  change execWindowParking cid s = _
  simp [execWindowParking, hh, hl, hp, hout, hin, hroom, hbus, modClutch_def]

/-! ### Entries that no word makes -/

theorem exec_engineAsyncDelivery {e : Nat} {x : EngCtx} {m : Mask} {p : Issue} (hm : asyncStop (clutchAt s cid) = some m)
    (hx : asyncDue s cid = some (e, x)) (hp : issueOf (clutchAt s cid) = some p) (hr : runs s (clutchAt s cid) = true)
    (hu : stopAll s cid = some u) :
    exec (.engineAsyncDelivery cid) s = .next (takeTrap
      (setEng u (engRef (clutchAt s cid)) e { engAt u (engRef (clutchAt s cid)) e with deliv := false })
      cid 0x12 x.cmd m p.at_ p.ia (.nop { stop := false, pred := .always })) := by
  change execEngineAsyncDelivery cid s = _
  simp [execEngineAsyncDelivery, hm, hx, hp, hr, hu, cAsync]

/-- With no open region there is nothing to abort. -/
theorem regionAbort_of_none (h : (clutchAt s cid).region = none) (status : Nat) : regionAbort s cid status = s := by
  simp [regionAbort, regionEnd, regionOut, h, forwardLines]

/-- An interrupt that is due is taken at the host core's next word boundary (12 R461). -/
theorem exec_interruptEntry {col : Fin 64} {n : Nat} (hn : intDue s col.val = some n) (hu : stopAll s col.val = some u)
    (hr : (clutchAt u col.val).region = none) :
    exec (.interruptEntry col) s = .next (trapHost u col.val 0 (some n) 0 1 (laneAt (clutchAt u col.val) 0).pc) := by
  change execInterruptEntry col s = _
  simp only [execInterruptEntry, hn, hu, regionAbort_of_none hr]

/-- What is due is the lowest interrupt that pends and is enabled, of a host core that takes interrupts (12 R460, R461). -/
theorem of_intDue {col n : Nat} (h : intDue s col = some n) : ((clutchAt s col).ie = true ∧ (clutchAt s col).level ≠ 2) ∧
    (List.range 4).find? (fun j => (intPend s col).testBit j && (hostAt s col).intEn.getLsbD j) = some n := by
  obtain ⟨hgo, hfind⟩ := Option.ite_none_left_eq_some.1 h
  simp only [Bool.or_eq_true, not_or] at hgo
  obtain ⟨⟨-, hie⟩, hlevel⟩ := hgo
  exact ⟨⟨by simpa using hie, by simpa using hlevel⟩, hfind⟩

/-- Settles O42: a waiting word runs again by `exec_resumes`; the other clauses are the acts' lemmas above. -/
theorem waitsEndAndEntriesAreMade : Obligations.WaitsEndAndEntriesAreMade := by
  unfold Obligations.WaitsEndAndEntriesAreMade
  refine ⟨?waits, ?entries⟩
  case waits =>
    intro s cid k i again
    refine ⟨?queue, ?ring, ?vfifo, ?tlwait, ?join, ?waitaddr, ?sbar, ?bar, ?launch, ?leap,
      exec_kwaitRelease rfl, exec_registerRecall, exec_windowParking⟩
    case queue =>
      rintro h t d q (rfl | rfl)
      · exact exec_resumes (fun _ => rfl) fun hw => by change execQueueWaitResume cid s = _; rw [execQueueWaitResume, hw]; rfl
      · exact exec_resumes (fun _ => rfl) fun hw => by change execQueueWaitResume cid s = _; rw [execQueueWaitResume, hw]; rfl
    case ring =>
      rintro h n r d rfl
      exact exec_resumes (fun _ => rfl) fun hw => by change execRingAcqResume cid s = _; rw [execRingAcqResume, hw]; rfl
    case vfifo =>
      rintro h a (rfl | rfl)
      · exact exec_resumes (fun _ => rfl) fun hw => by change execVfifoWaitResume cid s = _; rw [execVfifoWaitResume, hw]; rfl
      · exact exec_resumes (fun _ => rfl) fun hw => by change execVfifoWaitResume cid s = _; rw [execVfifoWaitResume, hw]; rfl
    case tlwait =>
      rintro h e a rfl
      exact exec_resumes (fun _ => rfl) fun hw => by change execTlwaitReturn cid s = _; rw [execTlwaitReturn, hw]; rfl
    case join =>
      rintro h d a rfl
      exact exec_resumes (fun _ => rfl) fun hw => by change execJoinReturn cid s = _; rw [execJoinReturn, hw]; rfl
    case waitaddr =>
      rintro h sc cc t a b rfl
      exact exec_resumes (fun _ => rfl) fun hw => by change execWaitaddrReread cid s = _; rw [execWaitaddrReread, hw]; rfl
    case sbar =>
      rintro h a rfl
      exact exec_resumes (fun _ => rfl) fun hw => by change execSbarWaitResume cid s = _; rw [execSbarWaitResume, hw]; rfl
    case bar =>
      rintro h n rfl
      exact exec_resumes (fun _ => rfl) fun hw => by change execBarWaitResume cid s = _; rw [execBarWaitResume, hw]; rfl
    case launch =>
      rintro h sc a b rfl
      exact exec_resumes (fun _ => rfl) fun hw => by change execLaunchQueueResume cid s = _; rw [execLaunchQueueResume, hw]; rfl
    case leap =>
      rintro h a rfl
      exact exec_resumes (fun _ => rfl) fun hw => by change execLeapLand cid s = _; rw [execLeapLand, hw]; rfl
  case entries =>
    intro s u cid e n x m p col
    refine ⟨exec_engineAsyncDelivery, exec_interruptEntry, fun hdue => ?taken, fun hn => ?lowest, fun htime => congrArg _ (if_pos htime)⟩
    case taken =>
      obtain ⟨n, hn⟩ := Option.isSome_iff_exists.1 hdue
      exact (of_intDue hn).1
    case lowest =>
      obtain ⟨hp, -, hlow⟩ := List.find?_range_eq_some.1 (of_intDue hn).2
      obtain ⟨hpend, hen⟩ := Bool.and_eq_true_iff.1 hp
      exact ⟨hpend, hen, fun j hj hdue => by simpa [hdue] using hlow j hj⟩

end Sys2Proof.Machine
end

section
/-! PROOF. Scheduling (04 R126 to R151, 05 R155, R156, 03 R122): what an act on a gang does in each state of the gang, a lemma for each
outcome. -/

namespace Sys2Proof.Machine

variable {s u v : State} {gang : Nat} {w : Want}

/-! ### Acts on a gang whose context runs -/

section
variable (hl : live s = true) (hw : wantOf s gang = some w) (hk : killing s w.ctx = false)
include hl hw hk

/-- A gang whose pages have not all been walked stays as it is. -/
theorem exec_preTranslation_walking (hst : w.g.state = .translating) (hv : walksAt s (agentDie w.key) w.ctx (preVas s w) = none) :
    exec (.preTranslation gang) s = .next s := by
  change execPreTranslation gang s = _
  simp [execPreTranslation, hl, hw, hk, hst, hv]

/-- A gang whose extents are translated is dispatched next (04 R128). -/
theorem exec_preTranslation_done {fs : List (Nat × Nat × List Nat)} (hst : w.g.state = .translating)
    (hv : walksAt s (agentDie w.key) w.ctx (preVas s w) = some v) (hfs : translateExtents v w = .ok fs)
    (hu : preDone (keepTable v w fs) gang w.g fs = some u) :
    exec (.preTranslation gang) s = .next { u with agenda := .gangDispatch gang :: u.agenda } := by
  change execPreTranslation gang s = _
  simp [execPreTranslation, hl, hw, hk, hst, hv, hfs, hu, orStay, startNext]

/-- A page without the declared rights ends the gang (04 R128). -/
theorem exec_preTranslation_denied (hst : w.g.state = .translating) (hv : walksAt s (agentDie w.key) w.ctx (preVas s w) = some v)
    (he : translateExtents v w = .error .denied) :
    exec (.preTranslation gang) s = .next { setGang v gang { w.g with state := .ended, fail := 0x08 } with
      agenda := .preTranslation gang :: v.agenda } := by
  change execPreTranslation gang s = _
  simp [execPreTranslation, hl, hw, hk, hst, hv, he, startNext]

/-- The first READY gang of its agent that does not fit reserves the free cores of its target (04 R127). -/
theorem exec_gangReserve_reserves {i : Inst} {is : List Inst} (hst : w.g.state = .ready) (hd : 5 ≤ gangDom w.r)
    (hfirst : ∀ p ∈ tsome s.gangs, earlierReady s w p = false) (hfit : fitFirst s w (mayTake s w) (instances s w false) = none)
    (his : instances s w false = i :: is) (ht : w.g.target = none) :
    exec (.gangReserve gang) s = .next (setGang s gang { w.g with
      target := some i.no, reserved := (layoutCores i).filter (fun c => mayTake s w c && (fitsCore s w c).isSome) }) := by
  have hany : (tsome s.gangs).any (earlierReady s w) = false := List.any_eq_false.2 fun p hp => by simp [hfirst p hp]
  have hkeep : is.find? (fun _ => false) = none := List.find?_eq_none.2 fun _ _ => Bool.false_ne_true
  rw [his] at hfit
  change execGangReserve gang s = _
  simp [execGangReserve, hl, hw, hk, hst, Nat.not_lt.2 hd, hany, hfit, his, ht, hkeep]

/-- A gang that another has overtaken gives its reservations up (04 R127). -/
theorem exec_gangReserve_overtaken (hst : w.g.state = .ready) (hd : 5 ≤ gangDom w.r)
    (hearlier : ∃ p ∈ tsome s.gangs, earlierReady s w p = true) (hfit : fitFirst s w (mayTake s w) (instances s w false) = none) :
    exec (.gangReserve gang) s = .next (setGang s gang { w.g with target := none, reserved := [] }) := by
  have hany : (tsome s.gangs).any (earlierReady s w) = true := List.any_eq_true.2 hearlier
  change execGangReserve gang s = _
  simp [execGangReserve, hl, hw, hk, hst, Nat.not_lt.2 hd, hany, hfit]

section
variable {l : Launch} (hx : launchAt s w.g.launch = some l) (hst : w.g.state = .ready) {s1 : State} {w1 : Want}
  (hs1 : forwardDie (freeStacks s w.g.stack) w = s1) (hw1 : (wantOf s1 gang).getD w = w1)
include hx hst hs1 hw1

/-- A READY gang is dispatched to the first candidate that it fits (04 R126, R131). -/
theorem exec_gangDispatch_seats {i : Inst} {seats : List Seat}
    (hfit : fitFirst s1 w1 (mayTake s1 w1) (instances s1 w1 false) = some (i, seats)) :
    exec (.gangDispatch gang) s = .next (seatGang s1 w1 l seats) := by
  change execGangDispatch gang s = _
  simp [execGangDispatch, hl, hw, hk, hx, hst, hs1, hw1, hfit]

/-- One that fits nowhere looks at pre-emption and reserves (04 R127, R140). -/
theorem exec_gangDispatch_waits (hfit : fitFirst s1 w1 (mayTake s1 w1) (instances s1 w1 false) = none) :
    exec (.gangDispatch gang) s = .next { s1 with agenda := .preemption gang :: .gangReserve gang :: s1.agenda } := by
  change execGangDispatch gang s = _
  simp [execGangDispatch, hl, hw, hk, hx, hst, hs1, hw1, hfit, startNext]

end

/-- The chosen victims leave, those that migrate at their migration's end, and the gang is dispatched (04 R140, R151). -/
theorem exec_preemption_removes {a b : Nat} {vs : List (Nat × Gang)} (hst : w.g.state = .ready)
    (hfit : fitFirst s w (fun _ => true) (instances s w false) = none) (hvs : bestChoice (choices s w) = some (a, b, vs))
    (hu : preemptGangs s (vs.filter (fun p => p.2.state != .migrating)) = some u) :
    exec (.preemption gang) s = .next { (vs.filter (fun p => p.2.state == .migrating)).foldl doom u with
      agenda := .gangDispatch gang :: ((vs.filter (fun p => p.2.state == .migrating)).foldl doom u).agenda } := by
  change execPreemption gang s = _
  simp [execPreemption, hl, hw, hk, hst, hfit, hvs, preemptAll, hu, orStay, startNext]

section
variable (hst : w.g.state = .preempted) (hhome : atHome s w = true) {seats : List (Nat × Nat × Nat)}
  (hseats : backSeats s gang w.r (backTasks s w.g) [] = some seats)
include hst hhome hseats

/-- A PREEMPTED gang returns to its columns (04 R143). -/
theorem exec_preemptResume_returns (hfree : ∀ q ∈ seats, higherReady s w q.2.1 (leftCore s q.1 q.2.1) = false) :
    exec (.preemptResume gang) s = .next (resumeGang s w seats) := by
  have hany : seats.any (fun q => higherReady s w q.2.1 (leftCore s q.1 q.2.1)) = false :=
    List.any_eq_false.2 fun q hq => by simp [hfree q hq]
  change execPreemptResume gang s = _
  simp only [execPreemptResume, hl, hw, hk, hst, hhome, hseats, hany]
  rfl

/-- It waits while a READY gang of higher priority can use one of the cores (04 R143). -/
theorem exec_preemptResume_givesWay (hhigher : ∃ q ∈ seats, higherReady s w q.2.1 (leftCore s q.1 q.2.1) = true) :
    exec (.preemptResume gang) s = .next s := by
  have hany : seats.any (fun q => higherReady s w q.2.1 (leftCore s q.1 q.2.1)) = true := List.any_eq_true.2 hhigher
  change execPreemptResume gang s = _
  simp only [execPreemptResume, hl, hw, hk, hst, hhome, hseats, hany]
  rfl

end

end

theorem translateExtents_of_kept {fs : List (Nat × Nat × List Nat)} (h : cachedTable v w = some fs) : translateExtents v w = .ok fs := by
  rw [translateExtents, h]

theorem translateExtents_of_walked (h : cachedTable v w = none) :
    translateExtents v w = preAll v w.ctx ((List.range 16).zip (recExtents w.r)) := by
  rw [translateExtents, h]

/-! ### Migration (04 R146 to R148) -/

/-- No command of a gang's tasks uses the column bank (04 R148). -/
def BankFree (s : State) (g : Gang) : Prop := ∀ t ∈ g.tasks, ∀ p ∈ taskCmds s t, touches .colBank p.2 = false ∨ p.2.ended = true

section
variable {src : Nat}

theorem migrEnd_waits (h : ∃ t ∈ w.g.tasks, ∃ p ∈ taskCmds s t, touches .colBank p.2 = true ∧ p.2.ended = false) :
    migrEnd gang src w s = .next s :=
  if_pos (by simpa only [List.any_eq_true, Bool.and_eq_true, Bool.not_eq_true'] using h)

theorem migrEnd_moves (h : BankFree s w.g) (hv : migrateTasks gang s (w.g.tasks.zip w.g.seats) = some v)
    (hu : migrLand gang w.g v = some u) :
    migrEnd gang src w s = .next (startNext (schedCount (retryNext u) src 1) (nextMigr u src (gangOrder u w.g + 1))) := by
  have hany : w.g.tasks.any (fun t => (taskCmds s t).any (fun p => touches .colBank p.2 && !p.2.ended)) = false := by
    refine List.any_eq_false.2 fun t ht => ne_true_of_eq_false (List.any_eq_false.2 fun p hp => ?_)
    rcases h t ht p hp with hno | hended
    · simp [hno]
    · simp [hended]
  refine (if_neg (by simp [hany])).trans ?_
  simp [hv, hu, orStay]

/-- The gang stands at its seats, and a pre-emption that waited takes place there (04 R148, R151). -/
theorem migrLand_eq {g g0 h : Gang} (hg : gangAt v gang = some g)
    (hh : { g with state := .resident, cores := g0.seats.map (·.1), seats := [], doomed := false } = h)
    (hstays : g0.doomed = false → setGang v gang h = u) (hgoes : g0.doomed = true → preemptGang (setGang v gang h) (gang, h) = some u) :
    migrLand gang g0 v = some u := by
  subst hh
  unfold migrLand
  rw [hg]
  cases hd : g0.doomed with
  | false => exact congrArg some (hstays hd)
  | true => exact hgoes hd

end

section
variable {src : Nat} (hl : live s = true) (hw : wantOf s gang = some w) (hc : gangCol s w.g = some src)
include hl hw hc

theorem exec_migration_migrating (hst : w.g.state = .migrating) : exec (.migration gang) s = migrEnd gang src w s := by
  change execMigration gang s = _
  simp [execMigration, hl, hw, hc, hst]

/-- Gangs of a column migrate one at a time (04 R147). -/
theorem exec_migration_busy (hst : w.g.state = .resident) (hb : migrBusy s src = true) : exec (.migration gang) s = .next s := by
  change execMigration gang s = _
  simp [execMigration, hl, hw, hc, hst, hb]

section
variable (hst : w.g.state = .resident) (hm : migratable w = true) (ha : asksMigration s src = true) (hb : migrBusy s src = false)
include hst hm ha hb

/-- Without a target the gang stays, and the next gang of the column follows (04 R148). -/
theorem exec_migration_defers (ht : migrTarget s w src = none) :
    exec (.migration gang) s = .next (startNext (schedCount s src 3) (nextMigr s src (gangOrder s w.g + 1))) := by
  change execMigration gang s = _
  simp [execMigration, hl, hw, hc, hst, hm, ha, hb, ht]

/-- With one its issue stops, its seats are reserved, and it moves when it can (04 R148). -/
theorem exec_migration_starts {i : Inst} {seats : List Seat} {w1 : Want} (ht : migrTarget s w src = some (i, seats))
    (hu : stopTasks s w.g.tasks = some u)
    (hv : (taskSeats u w.g seats).foldl reserveSeat (setGang u gang { w.g with state := .migrating }) = v) (hw1 : wantOf v gang = some w1) :
    exec (.migration gang) s = migrEnd gang src w1 (startNext v [.migration gang]) := by
  change execMigration gang s = _
  simp [execMigration, hl, hw, hc, hst, hm, ha, hb, ht, hu, hv, hw1]

end
end

/-- The gangs of a column that may migrate, dispatched at `lo` or later (04 R147). -/
def migrants (s : State) (col lo : Nat) : List (Nat × Gang) :=
  (tsome s.gangs).filter (fun p => p.2.state == .resident && decide (gangCol s p.2 = some col) && decide (lo ≤ gangOrder s p.2) &&
    (match wantOf s p.1 with | some w => migratable w | none => false))

theorem mem_migrants {col lo : Nat} {p : Nat × Gang} : p ∈ migrants s col lo ↔ p ∈ tsome s.gangs ∧ p.2.state = .resident ∧
    gangCol s p.2 = some col ∧ lo ≤ gangOrder s p.2 ∧ ∃ w, wantOf s p.1 = some w ∧ migratable w = true := by
  cases hw : wantOf s p.1 <;> simp [migrants, hw, and_assoc]

/-- The member of `a :: l` of the least measure. -/
def leastBy {α : Type} (f : α → Nat) (a : α) (l : List α) : α := l.foldl (fun b p => if f p < f b then p else b) a

theorem leastBy_least {α : Type} (f : α → Nat) (l : List α) (a : α) :
    leastBy f a l ∈ a :: l ∧ ∀ p ∈ a :: l, f (leastBy f a l) ≤ f p := by
  induction l generalizing a with
  | nil => simp [leastBy]
  | cons b l ih =>
    have hstep : leastBy f a (b :: l) = leastBy f (if f b < f a then b else a) l := rfl
    rw [hstep]
    split
    case isTrue hlt =>
      obtain ⟨hm, hle⟩ := ih b
      exact ⟨List.mem_cons_of_mem _ hm, List.forall_mem_cons.2 ⟨(hle b List.mem_cons_self).trans hlt.le, hle⟩⟩
    case isFalse hge =>
      obtain ⟨hm, hle⟩ := ih a
      obtain ⟨ha, hle⟩ := List.forall_mem_cons.1 hle
      exact ⟨(List.Sublist.cons_cons a (List.sublist_cons_self b l)).subset hm,
        List.forall_mem_cons.2 ⟨ha, List.forall_mem_cons.2 ⟨ha.trans (Nat.not_lt.1 hge), hle⟩⟩⟩

/-- The gang of a column that migrates next is the oldest of those that may (04 R147). -/
theorem of_nextMigr {col lo n : Nat} (h : nextMigr s col lo = [.migration n]) :
    ∃ g, (n, g) ∈ migrants s col lo ∧ ∀ p ∈ migrants s col lo, gangOrder s g ≤ gangOrder s p.2 := by
  change (match migrants s col lo with
    | [] => []
    | a :: t => [Instr.migration (leastBy (fun p : Nat × Gang => gangOrder s p.2) a t).1]) = _ at h
  cases hgs : migrants s col lo with
  | nil => rw [hgs] at h; cases h
  | cons a t =>
    rw [hgs] at h
    obtain ⟨hm, hle⟩ := leastBy_least (fun p : Nat × Gang => gangOrder s p.2) t a
    cases h
    exact ⟨_, hm, hle⟩

theorem exec_migrationRequest_busy {col : Fin 64} (hb : migrBusy s col.val = true) : exec (.migrationRequest col) s = .next s := by
  change execMigrationRequest col s = _
  simp [execMigrationRequest, hb]

theorem exec_migrationRequest_asks {col : Fin 64} (hl : live s = true) (ha : asksMigration s col.val = true) (hb : migrBusy s col.val = false) :
    exec (.migrationRequest col) s = .next { s with agenda := nextMigr s col.val 0 ++ s.agenda } := by
  change execMigrationRequest col s = _
  simp [execMigrationRequest, hl, ha, hb, startNext]

/-! ### Requeue and termination -/

theorem exec_requeue {g : Gang} (hl : live s = true) (hg : gangAt s gang = some g) (hst : g.state = .requeued) (ht : g.tasks ≠ [])
    (hu : requeueGang s gang g = some u) : exec (.requeue gang) s = .next u := by
  change execRequeue gang s = _
  simp [execRequeue, hl, hg, hst, ht, hu, orStay]

/-- A task whose lanes have all exited and whose commands are complete terminates (05 R156). -/
theorem exec_taskTermination {n : Nat} {x : Task} (hl : live s = true) (hx : taskAt s n = some x) (hf : x.failed = none)
    (hst : x.state = .resident) (hg : ∀ g, gangAt s x.gang = some g → g.state = .resident) (he : allExited s x = true)
    (hc : taskCmds s n = []) (hu : endTask s n x 0 0 = some u) :
    exec (.taskTermination n) s = .next (retryNext (settleLaunch u x.launch)) := by
  change execTaskTermination n s = _
  cases hat : gangAt s x.gang with
  | none => simp [execTaskTermination, hl, hx, hf, hst, hat, he, hc, hu, orStay]
  | some g => simp [execTaskTermination, hl, hx, hf, hst, hat, hg g hat, he, hc, hu, orStay]

/-- Settles O49: each clause is the lemma above for the act and the gang's state that it names. -/
theorem schedulingStepsRun : Obligations.SchedulingStepsRun := by
  unfold Obligations.SchedulingStepsRun
  intro s u v gang w l col tn x hl
  refine ⟨fun hw hk => ⟨?translation, fun hst hd hfirst hfit i is => exec_gangReserve_reserves hl hw hk hst hd hfirst hfit,
      exec_gangReserve_overtaken hl hw hk, ?dispatch, fun hst hfit a b vs => exec_preemption_removes hl hw hk hst hfit, ?resumption,
      fun hc => ⟨?start, exec_migration_busy hl hw hc, ?move⟩⟩,
    fun g => exec_requeue hl, fun _ => exec_migrationRequest_busy, exec_migrationRequest_asks hl, fun lo n hn => ?next,
    exec_taskTermination hl⟩
  case translation =>
    refine fun hst => ⟨exec_preTranslation_walking hl hw hk hst, fun hv => ⟨fun fs hfs => ?_, fun hc hd => ?_⟩⟩
    · refine exec_preTranslation_done hl hw hk hst hv ?_
      rcases hfs with hkept | ⟨hnone, hwalked⟩
      · exact translateExtents_of_kept hkept
      · exact (translateExtents_of_walked hnone).trans hwalked
    · exact exec_preTranslation_denied hl hw hk hst hv ((translateExtents_of_walked hc).trans hd)
  case dispatch =>
    exact fun hx hst => ⟨fun i seats => exec_gangDispatch_seats hl hw hk hx hst rfl rfl, exec_gangDispatch_waits hl hw hk hx hst rfl rfl⟩
  case resumption =>
    exact fun hst hhome seats hseats =>
      ⟨exec_preemptResume_returns hl hw hk hst hhome hseats, exec_preemptResume_givesWay hl hw hk hst hhome hseats⟩
  case start =>
    refine fun hst hm ha hb => ⟨exec_migration_defers hl hw hc hst hm ha hb, fun i seats w1 ht hu hw1 hbusy => ?_⟩
    exact (exec_migration_starts hl hw hc hst hm ha hb ht hu rfl hw1).trans (migrEnd_waits hbusy)
  case move =>
    intro hst
    have hact := exec_migration_migrating hl hw hc hst
    exact ⟨fun hbusy => hact.trans (migrEnd_waits hbusy), fun hfree g hv hg hstays hgoes =>
      hact.trans (migrEnd_moves hfree hv (migrLand_eq hg rfl hstays hgoes))⟩
  case next =>
    obtain ⟨g, hg, hle⟩ := of_nextMigr hn
    obtain ⟨hmem, hst, hcol, hlo, hwant⟩ := mem_migrants.1 hg
    exact ⟨g, hmem, hst, hcol, hlo, hwant, fun p hp hst hcol hlo hwant => hle p (mem_migrants.2 ⟨hp, hst, hcol, hlo, hwant⟩)⟩

end Sys2Proof.Machine
end

section
/-! PROOF. How a ready word runs (09 R326): it completes, traps or waits as its own effect answers. The obligations on words are shown by
computing the effect from what it is given (`Begins`). -/

namespace Sys2Proof.Machine

variable {s : State} {i : Instr} {w : WordInfo} {p : Issue} {body : Ctx → State → Res}

/-- What a word's own effect is given outside a region: its clutch `c`, in a machine `u` that holds it. -/
structure Begins (x : Ctx) (u : State) (c : Clutch) : Prop where
  clutch : clutchAt u x.cid = c
  own    : setClutch u x.cid c = u
  region : c.region = none

theorem Ready.begins (h : Ready s i w p) : Begins (wordCtx s w p) (entry s p) (atIssue p) :=
  ⟨clutchAt_setClutch_self .., setClutch_setClutch .., h.region⟩

theorem Ready.exec_eq (h : Ready s i w p) (hword : ∀ s, exec i s = word i s body) : exec i s = .next (runWord s i w false body) := by
  rw [hword, word, h.info]

/-- What is done is done, whatever stood in the clutch that the word finishes. -/
theorem After.congr {u v t : State} {c : Clutch} {j : Mask} (h : After s v t p c j) (huv : ∀ k, setClutch v s.cur k = setClutch u s.cur k) :
    After s u t p c j :=
  ⟨h.others.trans (huv _), h.book, h.pcs, h.closed⟩

/-- A word completes when its effect is done with what `eff` says. -/
theorem wordDone_of {ok : State → Ctx → Clutch → Prop} {eff : State → Ctx → Clutch → State × Clutch} {jumped : State → Ctx → Clutch → Mask}
    (hword : ∀ s, exec i s = word i s body)
    (hbody : ∀ x u c, Begins x u c → ok u x c → ∃ v, body x u = .done v (jumped u x c) ∧ clutchAt v x.cid = (eff u x c).2 ∧
      ∀ k, setClutch v x.cid k = setClutch (eff u x c).1 x.cid k) : WordDone s i ok eff jumped := by
  intro w p hr hok
  obtain ⟨v, hv, hc, hrest⟩ := hbody _ _ _ hr.begins hok
  exact ⟨_, hr.exec_eq hword, hc ▸ (hr.after hv).congr hrest⟩

/-- A word that changes its own clutch alone. -/
theorem regDone_of {ok : State → Ctx → Clutch → Prop} {eff : State → Ctx → Clutch → Clutch} (hword : ∀ s, exec i s = word i s body)
    (hbody : ∀ x u c, Begins x u c → ok u x c → body x u = .done (setClutch u x.cid (eff u x c)) 0) : RegDone s i ok eff :=
  wordDone_of hword fun x u c hb hok =>
    ⟨_, hbody x u c hb hok, clutchAt_setClutch_self .., fun _ => setClutch_setClutch ..⟩

theorem wordDoneVia_of {α : Type} {ok : State → Ctx → Clutch → α → Prop} {eff : α → State → Ctx → Clutch → State}
    {clutch : α → State → Ctx → Clutch → Clutch} (hword : ∀ s, exec i s = word i s body)
    (hbody : ∀ x u c z, Begins x u c → ok u x c z → ∃ v, body x u = .done v 0 ∧ clutchAt v x.cid = clutch z u x c ∧
      ∀ k, setClutch v x.cid k = setClutch (eff z u x c) x.cid k) : WordDoneVia s i ok eff clutch := by
  intro w p z hr hok
  obtain ⟨v, hv, hc, hrest⟩ := hbody _ _ _ z hr.begins hok
  exact ⟨_, hr.exec_eq hword, hc ▸ (hr.after hv).congr hrest⟩

/-- A word whose effect leaves exactly the machine that `eff` says. -/
theorem wordDoneVia_self {α : Type} {ok : State → Ctx → Clutch → α → Prop} {eff : α → State → Ctx → Clutch → State}
    (hword : ∀ s, exec i s = word i s body)
    (hbody : ∀ x u c z, Begins x u c → ok u x c z → body x u = .done (eff z u x c) 0) :
    WordDoneVia s i ok eff (fun z u x c => clutchAt (eff z u x c) x.cid) :=
  wordDoneVia_of hword fun x u c z hb hok => ⟨_, hbody x u c z hb hok, rfl, fun _ => rfl⟩

/-- A word traps when its effect answers that trap; a breakpoint or system call aside, at its own address. -/
theorem wordTraps_of {ok : State → Ctx → Clutch → Prop} {cause : State → Ctx → Clutch → Nat} {addr : State → Ctx → Clutch → Dword}
    {mask : State → Ctx → Clutch → Mask} (hword : ∀ s, exec i s = word i s body)
    (hcause : ∀ u x c, ¬ (cause u x c = cBreak ∨ cause u x c = cSyscall))
    (hbody : ∀ x u c, Begins x u c → ok u x c → body x u = .trap (cause u x c) (addr u x c) (mask u x c)) :
    WordTraps s i ok cause addr mask := by
  intro w p hr hok
  rw [hr.exec_eq hword, hr.runWord_eq, hbody _ _ _ hr.begins hok]
  simp only [if_neg (hcause _ _ _)]

/-- A word waits when its effect does. -/
theorem Ready.exec_waits {k : WaitKind} {v : State} (hr : Ready s i w p) (hword : ∀ s, exec i s = word i s body)
    (hbody : body (wordCtx s w p) (entry s p) = .wait k v) : exec i s = .next (waitFor v s.cur k i) := by
  rw [hr.exec_eq hword, hr.runWord_eq, hbody]

end Sys2Proof.Machine
end

section
/-! PROOF. Calls, exits and lane masks (05 R163, R167, 10 R352 to R354), and O6. -/

namespace Sys2Proof.Machine

variable {s : State} {c : Clutch}

/-! ### Refused lanes -/

theorem laneTrap_none {ex : Mask} {cause : Nat → Nat} {addr : Nat → Dword} (h : ∀ j ∈ lanesOf ex, cause j = 0) :
    laneTrap ex cause addr = none := by
  have hfind : (lanesOf ex).find? (fun j => decide (cause j ≠ 0)) = none := List.find?_eq_none.2 fun j hj => by simp [h j hj]
  unfold laneTrap
  rw [hfind]

/-- When all lanes that are refused have one cause and one address, these are the trap's, and its mask is theirs. -/
theorem laneTrap_uniform {ex : Mask} {cause : Nat → Nat} {addr : Nat → Dword} {pass : Nat → Bool} {code : Nat} {a : Dword} (hcode : code ≠ 0)
    (hcause : ∀ j ∈ lanesOf ex, cause j = if pass j then 0 else code) (haddr : ∀ j ∈ lanesOf ex, addr j = a)
    (hsome : ¬ ∀ j ∈ lanesOf ex, pass j = true) :
    laneTrap ex cause addr = some (.trap code a (maskOf (fun j => ex.getLsbD j && !pass j))) := by
  have hrefused : ∀ j ∈ lanesOf ex, (cause j ≠ 0 ↔ pass j = false) := fun j hj => by
    rw [hcause j hj]; cases pass j <;> simp [hcode]
  have hmask : (fun j => ex.getLsbD j && decide (cause j ≠ 0)) = fun j => ex.getLsbD j && !pass j := by
    funext j
    cases hj : ex.getLsbD j
    · rfl
    · simp [hrefused j (mem_lanesOf.2 hj)]
  unfold laneTrap
  cases hfind : (lanesOf ex).find? (fun j => decide (cause j ≠ 0)) with
  | none =>
    refine absurd (fun j hj => ?_) hsome
    have := List.find?_eq_none.1 hfind j hj
    simpa [hrefused j hj] using this
  | some j =>
    have hj := List.mem_of_find?_eq_some hfind
    have hbad : cause j ≠ 0 := by simpa using List.find?_some hfind
    have hcj : cause j = code := by rw [hcause j hj, (hrefused j hj).1 hbad]; rfl
    simp only [hmask, hcj, haddr j hj]

/-! ### Calls -/

theorem callLanes_eq_foldl (n : Nat) (ia : BitVec 53) (tgt : Nat → BitVec 53) (l : List Nat) (c : Clutch) :
    callLanes c n ia tgt l = l.foldl (fun c j => callLane c j n ia (tgt j)) c := by
  induction l generalizing c with
  | nil => rfl
  | cons j l ih => exact ih _

theorem wordAddr_eq_extract (t : Dword) : wordAddr t = t.extractLsb' 3 53 := by
  apply BitVec.eq_of_toNat_eq
  simp [wordAddr, bits, Nat.shiftRight_eq_div_pow]

theorem callFault_eq (u : State) (c : Clutch) (n j : Nat) : callFault u c j n = if windowFits u c j n then 0 else cStack := rfl

/-- The room of a window of a task's clutch (05 R167). -/
theorem windowFits_iff {c : Clutch} {tn : Nat} {x : Task} (ht : c.task = some tn) (hx : taskAt s tn = some x) (j n : Nat) :
    windowFits s c j n = true ↔ 8 * ((laneAt c j).wbv.toNat + n) + 112 ≤ 8 * x.stackN := by
  simp [windowFits, stackLimit, ht, hx]

/-- Moving a lane writes no register. -/
theorem cell_modLane (c : Clutch) (j : Nat) (wbv : Lane → BitVec 13) (pc : Lane → BitVec 53) (d : Dst) :
    cell (modLane c j (fun l => { l with wbv := wbv l, pc := pc l })) d = cell c d := by
  cases d with
  | g i r => by_cases hi : i = j <;> simp [cell, laneAt_modLane, hi]
  | st i w => by_cases hi : i = j <;> simp [cell, laneAt_modLane, hi]
  | s n => rfl
  | k n => rfl

@[simp] theorem rest_modLane (c : Clutch) (j : Nat) (f : Lane → Lane) : rest (modLane c j f) = rest c := rfl
@[simp] theorem modLane_flags (c : Clutch) (j : Nat) (f : Lane → Lane) : (modLane c j f).flags = c.flags := rfl

theorem laneAt_setPlace_st_of_ne (c : Clutch) {i j : Nat} (h : i ≠ j) (w : Nat) (v : Word) : laneAt (setPlace c (.st j w) v) i = laneAt c i := by
  simp [setPlace, laneAt_modLane, h]

section
variable {j n top link : Nat} (ia tgt : BitVec 53) (hn : 1 ≤ n) (htop : 8 * ((laneAt c j).wbv.toNat + n) = top) (hlink : (ia + 1).toNat * 16 + n = link)
include hn htop hlink

/-- A call writes two stack words, just below the window that it opens, and moves its lane. -/
theorem callLane_eq : callLane c j n ia tgt =
    modLane (setPlace (setPlace c (.st j (top - 2)) (BitVec.ofNat 32 link)) (.st j (top - 1)) (BitVec.ofNat 32 (link / 2 ^ 32))) j
      (fun l => { l with wbv := l.wbv + BitVec.ofNat 13 n, pc := tgt }) := by
  have hlow : vPlace c j (8 * n + 14) = .st j (top - 2) := by
    simp only [vPlace, stackWord, if_neg (show ¬ 8 * n + 14 < 16 by omega)]; congr 1; omega
  have hhigh : ∀ v, vPlace (setPlace c (.st j (top - 2)) v) j (8 * n + 15) = .st j (top - 1) := fun v => by
    rw [(regOnly_setPlace ..).vPlace]
    simp only [vPlace, stackWord, if_neg (show ¬ 8 * n + 15 < 16 by omega)]; congr 1; omega
  simp only [callLane, setV, hlow, hhigh, hlink]

/-- What a call writes, and what it leaves (05 R167). -/
theorem callLane_spec : let c' := callLane c j n ia tgt
    cell c' (.st j (top - 2)) = (some (BitVec.ofNat 32 link), false) ∧
    cell c' (.st j (top - 1)) = (some (BitVec.ofNat 32 (link / 2 ^ 32)), false) ∧
    (∀ d, d ≠ .st j (top - 2) → d ≠ .st j (top - 1) → cell c' d = cell c d) ∧
    (laneAt c' j).pc = tgt ∧ (laneAt c' j).wbv = (laneAt c j).wbv + BitVec.ofNat 13 n ∧
    (∀ i, i ≠ j → laneAt c' i = laneAt c i) ∧ rest c' = rest c ∧ c'.flags = c.flags := by
  have hregs := (regOnly_setPlace c (.st j (top - 2)) (BitVec.ofNat 32 link)).trans
    (regOnly_setPlace _ (.st j (top - 1)) (BitVec.ofNat 32 (link / 2 ^ 32)))
  have hne : top - 2 ≠ top - 1 := by omega
  dsimp only
  rw [callLane_eq ia tgt hn htop hlink]
  refine ⟨?low, ?high, fun d hd1 hd2 => ?others, ?pc, ?wbv, fun i hi => ?lanes, ?rest, ?flags⟩
  case low => simp [cell_modLane, cell_setPlace, hne, stored]
  case high => simp [cell_modLane, cell_setPlace, stored]
  case others => simp [cell_modLane, cell_setPlace, hd1, hd2]
  case pc => simp [laneAt_modLane]
  case wbv => rw [laneAt_modLane, if_pos rfl, laneRest_wbv (hregs.lanes j)]
  case lanes => simp [laneAt_modLane, hi, laneAt_setPlace_st_of_ne]
  case rest => rw [rest_modLane, hregs.rest]
  case flags => rw [modLane_flags, hregs.flags]

end

/-! ### Masks and exits -/

theorem getK_setK (c : Clutch) (j k : Nat) (x : Mask) :
    getK (setK c j x) k = if k = j then (if isHost c then x &&& 1 else x) else getK c k := by
  simp [getK, setK, setPlace, tget_tput]

@[simp] theorem isHost_setK (c : Clutch) (j : Nat) (x : Mask) : isHost (setK c j x) = isHost c := rfl

theorem isHost_modLanes (c : Clutch) (m : Mask) (f : Nat → Lane → Lane) : isHost (modLanes c m f) = isHost c := by rw [modLanes_eq]; rfl
theorem getK_modLanes (c : Clutch) (m : Mask) (f : Nat → Lane → Lane) (k : Nat) : getK (modLanes c m f) k = getK c k := by
  rw [modLanes_eq]; rfl

/-- Lanes leave masks, one mask after another. -/
def leaveMasks (m : Mask) (c : Clutch) (l : List Nat) : Clutch := l.foldl (fun c k => setK c k (getK c k &&& ~~~m)) c

theorem exitLanes_eq (c : Clutch) (m : Mask) :
    exitLanes c m = leaveMasks m (modLanes c m (fun _ l => { l with exited := true })) (List.range 12) := rfl

theorem laneAt_leaveMasks (m : Mask) (n : Nat) (l : List Nat) (c : Clutch) : laneAt (leaveMasks m c l) n = laneAt c n := by
  induction l generalizing c with
  | nil => rfl
  | cons j l ih => exact ih _

theorem getK_leaveMasks (m : Mask) (k : Nat) (l : List Nat) (hl : l.Nodup) (c : Clutch) : getK (leaveMasks m c l) k =
    if k ∈ l then (if isHost c then getK c k &&& ~~~m &&& 1 else getK c k &&& ~~~m) else getK c k := by
  induction l generalizing c with
  | nil => rfl
  | cons j l ih =>
    obtain ⟨hj, hl⟩ := List.nodup_cons.1 hl
    refine (ih hl _).trans ?_
    rw [getK_setK, isHost_setK]
    by_cases hk : k = j
    · subst hk; simp [hj]
    · simp [hk]

theorem laneAt_exitLanes (c : Clutch) (m : Mask) (n : Nat) :
    laneAt (exitLanes c m) n = if m.getLsbD n then { laneAt c n with exited := true } else laneAt c n := by
  rw [exitLanes_eq, laneAt_leaveMasks, laneAt_modLanes]

theorem exited_exitLanes (c : Clutch) (m : Mask) (n : Nat) :
    (laneAt (exitLanes c m) n).exited = ((laneAt c n).exited || m.getLsbD n) := by
  rw [laneAt_exitLanes]
  cases m.getLsbD n <;> simp

theorem getK_exitLanes (c : Clutch) (m : Mask) (k : Nat) : getK (exitLanes c m) k =
    if k < 12 then (if isHost c then getK c k &&& ~~~m &&& 1 else getK c k &&& ~~~m) else getK c k := by
  rw [exitLanes_eq, getK_leaveMasks _ _ _ List.nodup_range, getK_modLanes, isHost_modLanes]
  simp only [List.mem_range]

/-- Lanes that exit leave every mask, and no other lane does (05 R163); the masks of a host core have one bit. -/
theorem getLsbD_getK_exitLanes {c : Clutch} {m : Mask} {n k : Nat} (hk : k < 12) (hn : isHost c = false ∨ n = 0) :
    (getK (exitLanes c m) k).getLsbD n = ((getK c k).getLsbD n && !m.getLsbD n) := by
  have hleft : (getK c k &&& ~~~m).getLsbD n = ((getK c k).getLsbD n && !m.getLsbD n) := by
    simp only [BitVec.getLsbD_and, BitVec.getLsbD_not]
    cases hbit : (getK c k).getLsbD n
    · rfl
    · simp [BitVec.lt_of_getLsbD hbit]
  rw [getK_exitLanes, if_pos hk]
  split
  · next hhost =>
    obtain rfl : n = 0 := hn.resolve_left (by simp [hhost])
    rw [BitVec.getLsbD_and, hleft]; simp
  · exact hleft

theorem exit_done (h : Hdr) : RegDone s (.exit h) always (fun _ x k => exitLanes k x.ex) :=
  regDone_of (fun _ => rfl) fun x u c hb _ => by rw [modClutch_def, hb.clutch]

theorem kjoin_done (h : Hdr) (q : Fin 12) : RegDone s (.kjoin h q) always (fun _ x k => setK k q.val (getK k q.val ||| x.ex)) :=
  regDone_of (fun _ => rfl) fun x u c hb _ => by rw [modClutch_def, hb.clutch]

theorem kleave_done (h : Hdr) (q : Fin 12) : RegDone s (.kleave h q) always (fun _ x k => setK k q.val (getK k q.val &&& ~~~x.ex)) :=
  regDone_of (fun _ => rfl) fun x u c hb _ => by rw [modClutch_def, hb.clutch]

/-- Settles O6: a call's outcome turns on its lanes' room (`laneTrap_none`, `laneTrap_uniform`), what it writes is `callLane_spec`. -/
theorem callAndExitOfALane : Obligations.CallAndExitOfALane := by
  unfold Obligations.CallAndExitOfALane
  refine ⟨fun s h disp n a => ?words, fun s c j n tn x _ ht hx => windowFits_iff ht hx j n, fun c j n ia tgt hn _ => callLane_spec ia tgt hn rfl rfl,
    fun c m n k => ⟨exited_exitLanes c m n, getLsbD_getK_exitLanes, fun hk => by rw [getK_exitLanes, if_neg (by omega)]⟩,
    fun s h q => ⟨exit_done h, kjoin_done h q, kleave_done h q⟩⟩
  case words =>
    intro room good full
    have hgood : ∀ u x k, good u x k → ∀ j ∈ lanesOf x.ex, (if targetFault k a (baseVal u k j a) ≠ 0 then targetFault k a (baseVal u k j a)
        else callFault u k j n.toNat) = if windowFits u k j n.toNat then 0 else cStack := fun u x k hg j hj => by
      rw [if_neg (by simp [hg j hj]), callFault_eq]
    refine ⟨wordDone_of (fun _ => rfl) ?call, wordDone_of (fun _ => rfl) ?callx, wordTraps_of (fun _ => rfl) ?_ ?callFull,
      wordTraps_of (fun _ => rfl) ?_ ?callxFull⟩
    case call =>
      intro x u c hb hroom
      refine ⟨_, ?_, clutchAt_setClutch_self .., fun _ => setClutch_setClutch ..⟩
      simp only [hb.clutch, callLanes_eq_foldl, laneTrap_none fun j hj => (callFault_eq u c n.toNat j).trans (if_pos (hroom j hj))]
      rfl
    case callx =>
      intro x u c hb hok
      obtain ⟨hroom, hg⟩ := hok
      refine ⟨_, ?_, clutchAt_setClutch_self .., fun _ => setClutch_setClutch ..⟩
      simp only [hb.clutch, callLanes_eq_foldl, wordAddr_eq_extract,
        laneTrap_none fun j hj => (hgood u x c hg j hj).trans (if_pos (hroom j hj))]
    case callFull =>
      intro x u c hb hfull
      simp only [hb.clutch]
      rw [laneTrap_uniform (pass := fun j => windowFits u c j n.toNat) (a := 0) (by decide) (fun j _ => callFault_eq u c n.toNat j)
        (fun _ _ => rfl) hfull]
    case callxFull =>
      intro x u c hb hok
      obtain ⟨hfull, hg⟩ := hok
      simp only [hb.clutch]
      rw [laneTrap_uniform (pass := fun j => windowFits u c j n.toNat) (a := 0) (by decide) (hgood u x c hg)
        (fun j hj => if_neg (by simp [hg j hj])) hfull]
    all_goals exact fun _ _ _ => by decide

end Sys2Proof.Machine
end

section
/-! PROOF. Lanes that wait on a mask (05 R164): which of them go on, and that after a word none is left that could; O7. -/

namespace Sys2Proof.Machine

variable {s u : State} {c : Clutch} {n : Nat} {k : Fin 12}

/-! ### Bits of a mask -/

theorem getLsbD_foldl_bits (f : Nat → Bool) (m : Nat) (hm : m ≤ 32) (n : Nat) :
    ((List.range m).foldl (fun x i => if f i then x ||| ((1#32) <<< i) else x) 0).getLsbD n = (decide (n < m) && f n) := by
  induction m with
  | zero => simp
  | succ m ih =>
    rw [List.range_succ, List.foldl_append, List.foldl_cons, List.foldl_nil]
    have hbit : ((1#32) <<< m).getLsbD n = decide (n = m) := by
      rw [← BitVec.twoPow_eq, BitVec.getLsbD_twoPow]
      simp only [show m < 32 by omega, decide_true, Bool.true_and, eq_comm]
    by_cases hn : n = m
    · subst hn
      split
      · next hf => rw [BitVec.getLsbD_or, hbit]; simp [hf]
      · next hf => rw [ih (by omega)]; simp [hf]
    · have hlt : decide (n < m + 1) = decide (n < m) := by simp only [decide_eq_decide]; omega
      split
      · rw [BitVec.getLsbD_or, ih (by omega), hbit, hlt]; simp [hn]
      · rw [ih (by omega), hlt]

theorem getLsbD_maskOf (f : Nat → Bool) (n : Nat) : (maskOf f).getLsbD n = (decide (n < 32) && f n) :=
  getLsbD_foldl_bits f 32 (Nat.le_refl _) n

theorem maskOf_congr {f g : Nat → Bool} (h : ∀ n, n < 32 → f n = g n) : maskOf f = maskOf g := by
  refine BitVec.eq_of_getLsbD_eq fun n hn => ?_
  rw [getLsbD_maskOf, getLsbD_maskOf, h n hn]

/-! ### Which lanes go on -/

/-- The lanes that wait on a mask. -/
def waitersOf (c : Clutch) (k : Fin 12) : Mask := maskOf (fun n => decide ((laneAt c n).kwait = some k))

/-- The lanes that a wait on a mask is for. -/
def neededBy (c : Clutch) (k : Fin 12) : Mask := if isHost c then getK c k.val &&& 1 else getK c k.val

/-- Every lane whose bit is set in the mask waits on it. -/
def maskArrived (c : Clutch) (k : Fin 12) : Bool := decide (neededBy c k &&& ~~~waitersOf c k = 0)

/-- A lane that waits on a mask goes on when all have arrived. -/
theorem filter_maskArrived (c : Clutch) (k : Fin 12) :
    (some k).filter (fun k => !maskArrived c k) = if neededBy c k &&& ~~~waitersOf c k = 0 then none else some k := by
  simp only [Option.filter_some, maskArrived, Bool.not_eq_true', decide_eq_false_iff_not, ite_not]

theorem getLsbD_waitersOf (c : Clutch) (k : Fin 12) (hn : n < 32) : (waitersOf c k).getLsbD n = decide ((laneAt c n).kwait = some k) := by
  simp only [waitersOf, getLsbD_maskOf, hn, decide_true, Bool.true_and]

theorem waitersOf_ne_zero (hn : n < 32) (h : (laneAt c n).kwait = some k) : waitersOf c k ≠ 0 := fun hz => by
  have := getLsbD_waitersOf c k hn
  simp [hz, h] at this

theorem exists_waiter (h : waitersOf c k ≠ 0) : ∃ n, n < 32 ∧ (laneAt c n).kwait = some k := by
  by_contra hnone
  simp only [not_exists, not_and] at hnone
  refine h (BitVec.eq_of_getLsbD_eq fun n hn => ?_)
  simp [getLsbD_waitersOf c k hn, hnone n hn]

/-- Two clutches whose lanes wait alike, on masks that read alike. -/
structure WaitsAlike (c d : Clutch) : Prop where
  host  : isHost d = isHost c
  masks : ∀ k, getK d k = getK c k
  open_ : d.region = c.region
  waits : ∀ n, (laneAt d n).kwait = (laneAt c n).kwait

theorem WaitsAlike.waitersOf {d : Clutch} (h : WaitsAlike c d) (k : Fin 12) : waitersOf d k = waitersOf c k :=
  maskOf_congr fun n _ => by rw [h.waits n]

theorem WaitsAlike.maskArrived {d : Clutch} (h : WaitsAlike c d) (k : Fin 12) : maskArrived d k = maskArrived c k := by
  have hneed : neededBy d k = neededBy c k := by simp only [neededBy, h.host, h.masks]
  rw [Machine.maskArrived, Machine.maskArrived, hneed, h.waitersOf]

theorem kwaitTry_eq (hr : c.region = none) (k : Fin 12) : kwaitTry c k =
    if waitersOf c k ≠ 0 ∧ maskArrived c k = true then modLanes c (waitersOf c k) (fun _ l => { l with kwait := none }) else c := by
  simp only [kwaitTry, hr, Option.isNone_none, true_and, maskArrived, decide_eq_true_eq]
  rfl

theorem lane_with_kwait {l : Lane} {o : Option (Fin 12)} (h : l.kwait = o) : { l with kwait := o } = l := by subst h; rfl

/-- One mask is looked at: its lanes go on together, or all stay. -/
theorem laneAt_kwaitTry (hr : c.region = none) (k : Fin 12) (hn : n < 32) : laneAt (kwaitTry c k) n =
    { laneAt c n with kwait := (laneAt c n).kwait.filter (fun j => !(decide (j = k) && maskArrived c k)) } := by
  rw [kwaitTry_eq hr]
  by_cases hw : (laneAt c n).kwait = some k
  · simp only [waitersOf_ne_zero hn hw, ne_eq, not_false_eq_true, true_and]
    cases hg : maskArrived c k
    · simp [hw, Option.filter_some, lane_with_kwait hw]
    · simp [laneAt_modLanes, getLsbD_waitersOf c k hn, hw, Option.filter_some]
  · have hstays : (laneAt c n).kwait.filter (fun j => !(decide (j = k) && maskArrived c k)) = (laneAt c n).kwait := by
      cases hj : (laneAt c n).kwait with
      | none => rfl
      | some j =>
        have hjk : j ≠ k := fun e => hw (e ▸ hj)
        simp [Option.filter_some, hjk]
    rw [hstays]
    split
    · simp [laneAt_modLanes, getLsbD_waitersOf c k hn, hw]
    · rfl

theorem KwaitOnly.region {d : Clutch} (h : KwaitOnly c d) : d.region = c.region := by rw [h.eq]
theorem KwaitOnly.neededBy {d : Clutch} (h : KwaitOnly c d) (k : Fin 12) : neededBy d k = neededBy c k := by rw [h.eq]; rfl

/-- Looking at one mask changes nothing for another. -/
theorem maskArrived_kwaitTry (hr : c.region = none) {j : Fin 12} (h : k ≠ j) : maskArrived (kwaitTry c j) k = maskArrived c k := by
  have hwaiters : waitersOf (kwaitTry c j) k = waitersOf c k := maskOf_congr fun n hn => by
    rw [laneAt_kwaitTry hr j hn]
    cases hw : (laneAt c n).kwait with
    | none => rfl
    | some i =>
      by_cases hi : i = j
      · subst hi; cases maskArrived c i <;> simp [Option.filter_some, h.symm]
      · simp [Option.filter_some, hi]
  rw [maskArrived, hwaiters, (kwaitTry_only c j).neededBy]; rfl

theorem laneAt_foldl_kwaitTry (l : List (Fin 12)) (hl : l.Nodup) (hn : n < 32) (c : Clutch) (hr : c.region = none) : laneAt (l.foldl kwaitTry c) n =
    { laneAt c n with kwait := (laneAt c n).kwait.filter (fun k => !(decide (k ∈ l) && maskArrived c k)) } := by
  induction l generalizing c with
  | nil =>
    cases hw : (laneAt c n).kwait with
    | none => exact (lane_with_kwait hw).symm
    | some k => simp [Option.filter_some, lane_with_kwait hw]
  | cons j l ih =>
    obtain ⟨hj, hl⟩ := List.nodup_cons.1 hl
    rw [List.foldl_cons, ih hl _ ((kwaitTry_only c j).region.trans hr), laneAt_kwaitTry hr j hn]
    cases hw : (laneAt c n).kwait with
    | none => rfl
    | some k =>
      by_cases hk : k = j
      · subst hk; cases hg : maskArrived c k <;> simp [Option.filter_some, hj, hg]
      · cases hg : maskArrived c k <;> simp [Option.filter_some, hk, maskArrived_kwaitTry hr hk, hg]

/-- A clutch of whose lanes none is listed as waiting. -/
theorem kwait_of_none_waits (h : c.lanes.any (fun p => p.2.kwait.isSome) = false) (n : Nat) : (laneAt c n).kwait = none := by
  unfold laneAt
  generalize c.lanes = l at h
  induction l with
  | nil => rfl
  | cons p l ih =>
    obtain ⟨hp, hl⟩ := Bool.or_eq_false_iff.1 h
    simp only [tget]
    split
    · simpa using hp
    · exact ih hl

/-- After every mask has been looked at: a lane still waits where some lane of its mask has not arrived. -/
theorem laneAt_kwaitAll (hr : c.region = none) (hn : n < 32) :
    laneAt (kwaitAll c) n = { laneAt c n with kwait := (laneAt c n).kwait.filter (fun k => !maskArrived c k) } := by
  unfold kwaitAll
  split
  · rw [laneAt_foldl_kwaitTry _ (List.nodup_finRange 12) hn c hr]
    simp only [List.mem_finRange, decide_true, Bool.true_and]
  · next h =>
    have hw := kwait_of_none_waits (Bool.eq_false_iff.2 h) n
    rw [hw]; exact (lane_with_kwait hw).symm

/-! ### Nobody is left who could go on -/

/-- No mask is waited on by every lane that it holds. -/
def NoneCanGo (c : Clutch) : Prop := c.region = none → ∀ k, waitersOf c k ≠ 0 → maskArrived c k = false

theorem WaitsAlike.noneCanGo {d : Clutch} (h : WaitsAlike c d) (hc : NoneCanGo c) : NoneCanGo d := fun hr k hk => by
  rw [h.maskArrived]
  exact hc (h.open_ ▸ hr) k (h.waitersOf k ▸ hk)

theorem kwaitAll_of_open (h : c.region ≠ none) : kwaitAll c = c := by
  have hid : ∀ k, kwaitTry c k = c := fun k => by simp [kwaitTry, h]
  unfold kwaitAll
  split
  · exact List.foldlRecOn (List.finRange 12) kwaitTry (motive := (· = c)) rfl fun d hd k _ => by rw [hd]; exact hid k
  · rfl

theorem NoneCanGo.kwaitAll_eq (h : NoneCanGo c) : kwaitAll c = c := by
  by_cases hr : c.region = none
  · have hid : ∀ k, kwaitTry c k = c := fun k => by
      rw [kwaitTry_eq hr, if_neg]
      rintro ⟨hw, hg⟩
      simp [h hr k hw] at hg
    unfold kwaitAll
    split
    · exact List.foldlRecOn (List.finRange 12) kwaitTry (motive := (· = c)) rfl fun d hd k _ => by rw [hd]; exact hid k
    · rfl
  · exact kwaitAll_of_open hr

theorem noneCanGo_kwaitAll (c : Clutch) : NoneCanGo (kwaitAll c) := by
  intro hr k hk
  have hr0 : c.region = none := (kwaitAll_only c).region.symm.trans hr
  have hstill : ∀ n, n < 32 → ((laneAt (kwaitAll c) n).kwait = some k ↔ (laneAt c n).kwait = some k ∧ maskArrived c k = false) := fun n hn => by
    rw [laneAt_kwaitAll hr0 hn]
    simp only [Option.filter_eq_some_iff, Bool.not_eq_true']
  obtain ⟨n, hn, hw⟩ := exists_waiter hk
  have hg := ((hstill n hn).1 hw).2
  have hwaiters : waitersOf (kwaitAll c) k = waitersOf c k := maskOf_congr fun n hn => by simp only [hstill n hn, hg, and_true]
  rw [maskArrived, hwaiters, (kwaitAll_only c).neededBy]
  exact hg

theorem kwaitAll_kwaitAll (c : Clutch) : kwaitAll (kwaitAll c) = kwaitAll c := (noneCanGo_kwaitAll c).kwaitAll_eq

theorem kwaitAll_landAcc {a : PAcc} (h : a.lo = .k n) (c : Clutch) (x : Nat) : kwaitAll (landAcc c a x) = landAcc c a x := by
  simp only [landAcc, h]
  exact kwaitAll_kwaitAll _

/-! ### The end of a word -/

theorem stopMark_eq (c : Clutch) (x : Ctx) (w : WordInfo) (b : Bool) : ∃ parked at_, stopMark c x w b = { c with parked := parked, atStop := at_ } := by
  unfold stopMark
  dsimp only
  split <;> split <;> exact ⟨_, _, rfl⟩

/-- Finishing a word changes no mask and no waiting mark before it looks at the masks. -/
theorem finish_waits (u : State) (x : Ctx) (w : WordInfo) (c0 : Clutch) (j : Mask) :
    ∃ y parked at_, clutchAt (finish u x w c0 j) x.cid = { kwaitAll y with parked := parked, atStop := at_ } ∧
      ((clutchAt u x.cid).region = none → WaitsAlike (clutchAt u x.cid) y) := by
  unfold finish
  dsimp only
  rw [clutchAt_setClutch_self]
  generalize hplaces : (if x.ex = 0 then [] else writtenPlaces c0 w x.ex) = places
  generalize hadv : advance (clutchAt u x.cid) x j = a
  have hadvanced : WaitsAlike (clutchAt u x.cid) a := by
    subst hadv
    refine ⟨by rw [advance, modLanes_eq]; rfl, fun _ => by rw [advance, modLanes_eq]; rfl, by rw [advance, modLanes_eq], fun n => ?_⟩
    rw [advance, laneAt_modLanes]
    split <;> rfl
  obtain ⟨rot, rc, grp, hrot⟩ := rotate_eq c0 a x.ia (eligMask c0) (branchedBack a x w j)
  obtain ⟨parked, at_, hstop⟩ := stopMark_eq (kwaitAll (regionWord (markPending (rotate c0 a x.ia (eligMask c0) (branchedBack a x w j)) w places)
    c0 x w places)) x w (trapSet c0).inTrap
  refine ⟨_, parked, at_, hstop, fun hr => ?_⟩
  have hopen : (markPending (rotate c0 a x.ia (eligMask c0) (branchedBack a x w j)) w places).region = none := by
    rw [hrot]; exact hadvanced.open_.trans hr
  rw [regionWord, hopen]
  refine ⟨?_, ?_, hopen.trans hr.symm, ?_⟩
  · rw [hrot]; exact hadvanced.host
  · rw [hrot]; exact hadvanced.masks
  · rw [hrot]; exact hadvanced.waits

theorem noneCanGo_finish (u : State) (x : Ctx) (w : WordInfo) (c0 : Clutch) (j : Mask) : NoneCanGo (clutchAt (finish u x w c0 j) x.cid) := by
  obtain ⟨y, parked, at_, hfin, -⟩ := finish_waits u x w c0 j
  rw [hfin]
  exact WaitsAlike.noneCanGo (c := kwaitAll y) ⟨rfl, fun _ => rfl, rfl, fun _ => rfl⟩ (noneCanGo_kwaitAll y)

section
variable {i : Instr} {w : WordInfo} {p : Issue} {body : Ctx → State → Res} {v : State} {j : Mask} (h : Ready s i w p)
  (hword : ∀ s, exec i s = word i s body) (hdone : body (wordCtx s w p) (entry s p) = .done v j)
include h hword hdone

/-- A word whose effect is done ends by looking at the masks, which read as the effect left them. -/
theorem Ready.done_waits : ∃ t, exec i s = .next t ∧ After s v t p (clutchAt v s.cur) j ∧
    ∃ y parked at_, clutchAt t s.cur = { kwaitAll y with parked := parked, atStop := at_ } ∧
      ((clutchAt v s.cur).region = none → WaitsAlike (clutchAt v s.cur) y) :=
  ⟨_, h.exec_eq hword, h.after hdone, by rw [h.runWord_done hdone]; exact finish_waits v (wordCtx s w p) w (atIssue p) j⟩

/-- After a word whose effect is done, no lane is left that could go on. -/
theorem Ready.kwaitAll_eq (hu : exec i s = .next u) : kwaitAll (clutchAt u s.cur) = clutchAt u s.cur := by
  obtain rfl : finish v (wordCtx s w p) w (atIssue p) j = u := by
    simpa only [h.exec_eq hword, h.runWord_done hdone, Host.Outcome.next.injEq] using hu
  exact (noneCanGo_finish v (wordCtx s w p) w (atIssue p) j).kwaitAll_eq

end

/-! ### The words -/

theorem kop_done (h : Hdr) (op : KOp) (q : Fin 12) (a : Reg) (o : Opnd) : RegDone s (.kop h op q a o) always (fun u _ k =>
    let x := rd32 u k 0 a
    let y := BitVec.ofNat 32 (op32 u k 0 .b32 o)
    setK k q.val (match op with
      | .and => x &&& y | .or => x ||| y | .xor => x ^^^ y | .andn => x &&& ~~~y | .mov => x | .not => ~~~x)) :=
  regDone_of (fun _ => rfl) fun x u c hb _ => by
    simp only [hb.clutch]
    cases op <;> rfl

theorem iCmp_eq (cc : Cmp) (t : Ty) (a b : Nat) : iCmp cc t a b = cmpInt cc (num t (bv t a)) (num t (bv t b)) := by
  simp only [iCmp, intOf_eq, num, bv]

theorem kcmpMask_eq (old ex : Mask) (f : Nat → Bool) : kcmpMask old ex f = maskOf (fun n => if ex.getLsbD n then f n else old.getLsbD n) := by
  apply BitVec.eq_of_getLsbD_eq
  intro n hn
  simp only [kcmpMask, BitVec.getLsbD_or, BitVec.getLsbD_and, BitVec.getLsbD_not, getLsbD_maskOf, hn, decide_true, Bool.true_and]
  cases ex.getLsbD n <;> simp

/-- Outside a region a comparison keeps no tag. -/
theorem tagCmp_of_none {c0 : Clutch} (h : c0.region = none) (c : Clutch) (lanes : List Nat) (cc : Cmp) (sgnd wide : Bool) (d : Reg) (a b : TagSrc)
    (x y : Nat → Nat) (r : Nat → Bool) : tagCmp c0 c lanes cc sgnd wide d a b x y r = some c := by
  simp [tagCmp, h]

theorem kcmp_done (h : Hdr) (cc : Cmp) (t : Ty) (q : Fin 12) (a : Reg) (b : CmpOpnd) : RegDone s (.kcmp h cc t q a b) always (fun u x k =>
    setK k q.val (maskOf (fun n => if x.ex.getLsbD n then
        cmpInt cc (num t (bv t (rdN u k n (tyWide t) a))) (num t (bv t (opCmp u k n t b)))
      else (getK k q.val).getLsbD n))) :=
  regDone_of (fun _ => rfl) fun x u c hb _ => by
    simp only [hb.clutch, tagCmp_of_none hb.region, kcmpMask_eq, iCmp_eq]

/-- Executing lanes arrive at a mask. -/
def arriveAt (q : Fin 12) (ex : Mask) (c : Clutch) : Clutch := modLanes c ex (fun _ l => { l with kwait := some q })

theorem laneAt_arriveAt (q : Fin 12) (ex : Mask) (c : Clutch) (n : Nat) :
    laneAt (arriveAt q ex c) n = if ex.getLsbD n then { laneAt c n with kwait := some q } else laneAt c n := laneAt_modLanes ..

/-- Arriving is bookkeeping: it moves no lane. -/
theorem After.of_arriveAt {v t : State} {p : Issue} {q : Fin 12} {ex j : Mask} (h : After s v t p (arriveAt q ex c) j) : After s v t p c j := by
  refine ⟨h.others, (book_modLanes c ex (fun _ l => { l with kwait := some q }) fun _ _ => rfl).trans h.book, fun n => ?_, fun hr => h.closed ?_⟩
  · rw [h.pcs n, laneAt_arriveAt]
    cases ex.getLsbD n <;> rfl
  · rw [arriveAt, modLanes_eq]; exact hr

theorem kwait_done (h : Hdr) (q : Fin 12) {w : WordInfo} {p : Issue} (hr : Ready s (.kwait h q) w p) :
    ∃ t, exec (.kwait h q) s = .next t ∧ After s (entry s p) t p (atIssue p) 0 ∧
      ∀ n, (exLanes w p).getLsbD n = true → (laneAt (clutchAt t s.cur) n).kwait =
        if neededBy (arriveAt q (exLanes w p) (atIssue p)) q &&& ~~~waitersOf (arriveAt q (exLanes w p) (atIssue p)) q = 0 then none else some q := by
  obtain ⟨t, ht, hafter, y, parked, at_, hy, halike⟩ := hr.done_waits (v := setClutch (entry s p) s.cur (arriveAt q (exLanes w p) (atIssue p)))
    (j := 0) (fun _ => rfl) (by rw [modClutch_def, hr.begins.clutch]; rfl)
  rw [clutchAt_setClutch_self] at hafter halike
  have hregion : (arriveAt q (exLanes w p) (atIssue p)).region = none := by rw [arriveAt, modLanes_eq]; exact hr.region
  have hwaits : WaitsAlike (arriveAt q (exLanes w p) (atIssue p)) y := halike hregion
  refine ⟨t, ht, (After.congr hafter fun _ => setClutch_setClutch ..).of_arriveAt, fun n hn => ?_⟩
  have harrived : (laneAt (arriveAt q (exLanes w p) (atIssue p)) n).kwait = some q := by rw [laneAt_arriveAt, if_pos hn]
  rw [hy]
  change (laneAt (kwaitAll y) n).kwait = _
  rw [laneAt_kwaitAll (hwaits.open_.trans hregion) (BitVec.lt_of_getLsbD hn)]
  simp only [hwaits.waits, harrived, hwaits.maskArrived, filter_maskArrived]

/-- Settles O7: the words by their effects, the release by `laneAt_kwaitAll`, and that it is complete by `noneCanGo_finish`. -/
theorem maskWords : Obligations.MaskWords := by
  unfold Obligations.MaskWords
  intro s h q op cc t a o b
  refine ⟨kjoin_done h q, kleave_done h q, exit_done h, fun c m n j => getLsbD_getK_exitLanes j.isLt, kop_done h op q a o, kcmp_done h cc t q a b,
    fun w p hr => kwait_done h q hr, ?complete, fun c acc x n hk => kwaitAll_landAcc hk c x, fun c n hr hn => ?release⟩
  case complete =>
    rintro i (rfl | rfl | rfl | rfl | rfl | rfl) w p u hr hu
    · exact hr.kwaitAll_eq (fun _ => rfl) rfl hu
    · exact hr.kwaitAll_eq (fun _ => rfl) rfl hu
    · exact hr.kwaitAll_eq (fun _ => rfl) rfl hu
    · exact hr.kwaitAll_eq (fun _ => rfl) rfl hu
    · exact hr.kwaitAll_eq (fun _ => rfl) (by simp only [hr.begins.clutch, tagCmp_of_none hr.begins.region]; rfl) hu
    · exact hr.kwaitAll_eq (fun _ => rfl) rfl hu
  case release =>
    rw [laneAt_kwaitAll hr hn]
    cases hw : (laneAt c n).kwait with
    | none => rfl
    | some k => exact congrArg (fun o => { laneAt c n with kwait := o }) (filter_maskArrived c k)

end Sys2Proof.Machine
end

section
/-! PROOF. Rings and vertical FIFOs (05 R182 to R188, 11 R419 to R421, 12 R439): O24 and O26. -/

namespace Sys2Proof.Machine

variable {s : State}

/-! ### What changes outside a clutch leaves the clutch -/

theorem clutchAt_of_clutches {s t : State} (h : t.clutches = s.clutches) (n : Nat) : clutchAt t n = clutchAt s n := by
  simp only [clutchAt, h]

theorem acquireOp_clutches (s : State) (i : Nat) (sc : Scope) : (acquireOp s i sc).clutches = s.clutches := by
  unfold acquireOp; split <;> rfl

@[simp] theorem clutchAt_acquireOp (s : State) (i : Nat) (sc : Scope) (n : Nat) : clutchAt (acquireOp s i sc) n = clutchAt s n :=
  clutchAt_of_clutches (acquireOp_clutches s i sc) n

theorem setClutch_acquireOp (s : State) (i : Nat) (sc : Scope) (n : Nat) (c : Clutch) :
    setClutch (acquireOp s i sc) n c = acquireOp (setClutch s n c) i sc := by
  unfold acquireOp; split <;> rfl

@[simp] theorem clutchAt_modTask (s : State) (t : Nat) (f : Task → Task) (n : Nat) : clutchAt (modTask s t f) n = clutchAt s n :=
  clutchAt_of_clutches (modTask_clutches s t f) n

@[simp] theorem clutchAt_setRing (s : State) (t n w : Nat) (k : Nat) : clutchAt (setRing s t n w) k = clutchAt s k := clutchAt_modTask ..
@[simp] theorem clutchAt_setQueue (s : State) (t q w : Nat) (k : Nat) : clutchAt (setQueue s t q w) k = clutchAt s k := clutchAt_modTask ..
@[simp] theorem clutchAt_setFifo (s : State) (k : Nat) (l : List (BitVec 1024)) (n : Nat) : clutchAt (setFifo s k l) n = clutchAt s n := rfl

theorem setClutch_setFifo (s : State) (k : Nat) (l : List (BitVec 1024)) (n : Nat) (c : Clutch) :
    setClutch (setFifo s k l) n c = setFifo (setClutch s n c) k l := rfl

/-! ### Rings -/

/-- A landed clutch has no ring; a ring that is not configured, or has not the role, is not in a state for the word (05 R184). -/
theorem ringFault_of_unfit {x : Ctx} {u : State} {c : Clutch} (hb : Begins x u c) {n r : Nat} (hpad : c.pad = none)
    (h : rgConfigured (ringAt u (taskNo c) n) = false ∨ rgRoles (ringAt u (taskNo c) n) ≤ r) :
    ringFault u x n r = some (.trap cFifo (BitVec.ofNat 64 n) x.at_) := by
  have hunfit : (!rgConfigured (ringAt u (taskNo c) n) || decide (rgRoles (ringAt u (taskNo c) n) ≤ r)) = true := by simpa using h
  simp only [ringFault, hb.clutch, hpad, Option.isSome_none, Bool.false_eq_true, if_false, hunfit, if_true]

/-- Settles O24: each word's effect, computed from the ring that its clutch's task holds. -/
theorem ringWordsComplete : Obligations.RingWordsComplete := by
  unfold Obligations.RingWordsComplete
  intro s h n r a d
  dsimp only
  refine ⟨wordDoneVia_of (fun _ => rfl) ?cfg, wordDone_of (fun _ => rfl) ?acq, wordTraps_of (fun _ => rfl) (fun _ _ _ => by decide) ?unfit,
    ?waits, wordDoneVia_self (fun _ => rfl) ?rel⟩
  case cfg =>
    intro x u c k hb hok
    obtain ⟨hk, hpad, hfault⟩ := hok
    refine ⟨_, ?_, (clutchAt_setRing ..).trans hb.clutch, fun _ => rfl⟩
    simp only [hb.clutch, hpad, Option.isSome_none, Bool.false_eq_true, if_false, hk, hfault]
  case acq =>
    intro x u c hb hok
    obtain ⟨hfault, hready⟩ := hok
    refine ⟨_, ?_, clutchAt_setClutch_self .., fun _ => rfl⟩
    simp only [hfault, hb.clutch, hready, Bool.not_true, Bool.false_eq_true, if_false, pendValue, clutchAt_acquireOp, clutchAt_setRing]
  case unfit =>
    intro x u c hb hok
    obtain ⟨hpad, hunfit⟩ := hok
    simp only [ringFault_of_unfit hb hpad hunfit]
  case waits =>
    intro w p hr hfault hnot
    refine hr.exec_waits (fun _ => rfl) ?_
    simp only [hfault, hr.begins.clutch, hnot, Bool.not_false, if_true]
  case rel =>
    intro x u c z hb hok
    obtain ⟨hfault, holdest, hrel⟩ := hok
    simp only [hfault, hb.clutch, holdest, hrel]

/-! ### Vertical FIFOs -/

theorem fifoFault_none {x : Ctx} {u : State} {c : Clutch} (hb : Begins x u c) (hpad : c.pad = none) (hpair : holdsPair u c = true) :
    fifoFault u x = none := by
  simp [fifoFault, hb.clutch, hpad, hpair]

theorem fifoFault_landed {x : Ctx} {u : State} {c : Clutch} (hb : Begins x u c) (hpad : c.pad.isSome = true) :
    fifoFault u x = some (.trap cLeap 0 x.at_) := by
  simp [fifoFault, hb.clutch, hpad]

theorem fifoFault_unpaired {x : Ctx} {u : State} {c : Clutch} (hb : Begins x u c) (hpad : c.pad = none) (hpair : holdsPair u c = false) :
    fifoFault u x = some (.trap cFifo (freeD u).1 x.at_) := by
  simp [fifoFault, hb.clutch, hpad, hpair]

/-- A word of the vertical FIFO traps as `fifoFault` answers. -/
theorem fifo_traps {i : Instr} {rest : Ctx → State → Res} (hword : ∀ s, exec i s = word i s (fun x s =>
      match fifoFault s x with | some r => r | none => rest x s)) :
    WordTraps s i (fun _ _ c => c.pad.isSome = true) (fun _ _ _ => cLeap) (fun _ _ _ => 0) (fun _ x _ => x.at_) ∧
    WordTraps s i (fun u _ c => c.pad = none ∧ holdsPair u c = false) (fun _ _ _ => cFifo) (fun u _ _ => (freeD u).1) (fun _ x _ => x.at_) := by
  refine ⟨wordTraps_of hword (fun _ _ _ => by decide) fun x u c hb hpad => ?_,
    wordTraps_of hword (fun _ _ _ => by decide) fun x u c hb hok => ?_⟩
  · simp only [fifoFault_landed hb hpad]
  · simp only [fifoFault_unpaired hb hok.1 hok.2]

/-- Settles O26: the words' effects where the gang holds the pair; `fifo_traps` where it does not. -/
theorem verticalFifoWords : Obligations.VerticalFifoWords := by
  unfold Obligations.VerticalFifoWords
  intro s h a d
  dsimp only
  refine ⟨wordDoneVia_self (fun _ => rfl) ?send, wordDoneVia_of (fun _ => rfl) ?recv, regDone_of (fun _ => rfl) ?free, ?full, ?empty, ?traps⟩
  case send =>
    intro x u c v hb hok
    obtain ⟨⟨hpad, hpair⟩, hroom, hrel⟩ := hok
    simp only [fifoFault_none hb hpad hpair, hb.clutch, if_neg (Nat.not_le.2 hroom), hrel]
  case recv =>
    intro x u c z hb hok
    obtain ⟨⟨hpad, hpair⟩, hold⟩ := hok
    refine ⟨acquireOp (setFifo (setClutch u x.cid (pendAll c x.ex false d (fun i => (z.1.extractLsb' (32 * i) 32).toNat)))
      (fifoIn (gangNo u c) c.core) z.2) c.core .column, ?_, ?_, fun k => ?_⟩
    · simp only [fifoFault_none hb hpad hpair, hb.clutch, hold]
    · rw [clutchAt_acquireOp, clutchAt_setFifo, clutchAt_setClutch_self]
    · rw [setClutch_acquireOp, setClutch_acquireOp, setClutch_setFifo, setClutch_setFifo, setClutch_setClutch]
  case free =>
    intro x u c hb hok
    simp only [fifoFault_none hb hok.1 hok.2, hb.clutch, pendValue]
  case full =>
    intro w p hr hmay hfull
    refine hr.exec_waits (fun _ => rfl) ?_
    simp only [fifoFault_none hr.begins hmay.1 hmay.2, hr.begins.clutch, if_pos hfull]
  case empty =>
    intro w p hr hmay hempty
    refine hr.exec_waits (fun _ => rfl) ?_
    simp only [fifoFault_none hr.begins hmay.1 hmay.2, hr.begins.clutch, hempty]
  case traps =>
    rintro i (rfl | rfl | rfl)
    · exact fifo_traps fun _ => rfl
    · exact fifo_traps fun _ => rfl
    · exact fifo_traps fun _ => rfl

end Sys2Proof.Machine
end

section
/-! PROOF. Leaps, launches of a task and joins (05 R191 to R193, 12 R440 to R442): O30. -/

namespace Sys2Proof.Machine

variable {s : State}

/-- With no weight line asked for, a word runs as it is. -/
theorem withAsks_of_none {cid : Nat} (h : asksOf s (2 * cid) = []) (f : State → Res) : withAsks cid s f = f s := by
  simp [withAsks, h]

/-- The clutch asks for a place in a column, behind those that have asked before it. -/
def askPlace (v : State) (cid col : Nat) : State :=
  { modClutch v cid (fun c => { c with leapTo := some col, waitArg := v.pkg.serial, hazard := [] }) with
    pkg := { v.pkg with serial := v.pkg.serial + 1 } }

/-- A leap whose release is done: it lands, or waits for its place. -/
def leapOrWait (v : State) (cid col : Nat) : Res :=
  match leapTry (askPlace v cid col) cid col with
  | some t => .done t 0
  | none => .wait .leap (askPlace v cid col)

theorem exec_leap_eq (h : Hdr) (a : Reg) (s : State) : exec (.leap h a) s = word (.leap h a) s (fun x u =>
    match (clutchAt u x.cid).leapTo, waitsIn (clutchAt u x.cid) .leap with
    | some col, true => match leapTry u x.cid col with
      | some t => .done t 0
      | none => .wait .leap u
    | _, _ => match leapTarget u x (clutchAt u x.cid) a with
      | .inl r => r
      | .inr col => match releaseAll u x.cid (pairScope (colOf (clutchAt u x.cid).core) col) with
        | none => .wait .tokens u
        | some v => leapOrWait v x.cid col) := rfl

/-- Settles O30: each word's effect, its steps being those that the clause names. -/
theorem leapLaunchAndJoin : Obligations.LeapLaunchAndJoin := by
  unfold Obligations.LeapLaunchAndJoin
  intro s h sc a b d armed
  refine ⟨wordDoneVia_self (exec_leap_eq h a) ?leap, ?leapWaits, wordDoneVia_self (fun _ => rfl) ?launch, wordDoneVia_self (fun _ => rfl) ?join, ?joinWaits⟩
  case leap =>
    intro x u c z hb hok
    obtain ⟨hanew, htarget, hrel, hlands⟩ := hok
    have hlands : leapTry (askPlace z.2.1 x.cid z.1) x.cid z.1 = some z.2.2 := hlands
    simp only [hb.clutch]
    split
    · next hto hwaits => exact absurd hanew (by simp [hto, hwaits])
    · simp only [htarget, hrel, leapOrWait, hlands]
  case leapWaits =>
    intro w p col v hr hanew htarget hrel hstays
    refine hr.exec_waits (exec_leap_eq h a) ?_
    have hstays : leapTry (askPlace v s.cur col) s.cur col = none := hstays
    have hrel : releaseAll (entry s p) (wordCtx s w p).cid (pairScope (colOf (atIssue p).core) col) = some v := hrel
    simp only [hr.begins.clutch]
    split
    · next hto hwaits => exact absurd hanew (by simp [hto, hwaits])
    · simp only [htarget, hrel]
      exact congrArg (fun o => match o with | some t => Res.done t 0 | none => .wait .leap (askPlace v s.cur col)) hstays
  case launch =>
    intro x u c z hb hok
    obtain ⟨⟨ps, u1, u2, bs, hasks, hps, hkey, hweights, hsync, hread, hrel, htok⟩, hline⟩ := hok
    simp only [withAsks_of_none hasks, hb.clutch, hps, hkey, hweights, hsync, hread, hrel]
    rcases hline with ⟨hoff, hdrop⟩ | ⟨hon, hroom, hin⟩
    · simp only [hoff, Bool.not_false, if_true, hdrop]
    · simp only [hon, Bool.not_true, Bool.false_eq_true, if_false, if_neg (Nat.not_le.2 hroom), ← htok, hin]
  case join =>
    intro x u c z hb hok
    obtain ⟨⟨hps, htake⟩, hpending⟩ := hok
    simp only [hb.clutch, hps, htake, jPending, hpending, ne_eq, not_true_eq_false, if_false]
  case joinWaits =>
    intro w p z hr htaken hpending
    obtain ⟨hps, htake⟩ := htaken
    refine hr.exec_waits (fun _ => rfl) ?_
    simp only [hr.begins.clutch, hps, htake, jPending, ne_eq, hpending, not_false_eq_true, if_true]

end Sys2Proof.Machine
end

section
/-! PROOF. Queues in a scratchpad (05 R179 to R181, 10 R364, 12 R440): what a push writes where, and O23. -/

namespace Sys2Proof.Machine

variable {s : State}

/-! ### Bytes of a scratchpad -/

theorem length_leBytes (n x : Nat) : (leBytes n x).length = n := by
  induction n generalizing x with
  | zero => rfl
  | succ n ih => simp [leBytes, ih]

theorem spGet_spPut (s : State) (core off : Nat) (b : Byte) (core' off' : Nat) : spGet (spPut s core off b) core' off' =
    if 0x200000 * core' + off' = 0x200000 * core + off then b else spGet s core' off' := tget_tput ..

/-- A byte read after a write: one of those written, or what stood there. -/
theorem spGet_spWrite (core core' off' : Nat) (bs : List Byte) (s : State) (off : Nat) : spGet (spWrite s core off bs) core' off' =
    if 0x200000 * core + off ≤ 0x200000 * core' + off' ∧ 0x200000 * core' + off' < 0x200000 * core + off + bs.length
    then bs.getD (0x200000 * core' + off' - (0x200000 * core + off)) 0 else spGet s core' off' := by
  induction bs generalizing s off with
  | nil => rw [if_neg (by simp)]; rfl
  | cons b bs ih =>
    rw [spWrite, ih, spGet_spPut, List.length_cons]
    by_cases hhere : 0x200000 * core' + off' = 0x200000 * core + off
    · rw [if_neg (by omega), if_pos hhere, if_pos (by omega), hhere, Nat.sub_self]; rfl
    · by_cases hlater : 0x200000 * core + (off + 1) ≤ 0x200000 * core' + off' ∧ 0x200000 * core' + off' < 0x200000 * core + (off + 1) + bs.length
      · rw [if_pos hlater, if_pos (by omega), show 0x200000 * core' + off' - (0x200000 * core + off) =
          (0x200000 * core' + off' - (0x200000 * core + (off + 1))) + 1 by omega, List.getD_cons_succ]
      · rw [if_neg hlater, if_neg hhere, if_neg (by omega)]

/-- What a scratchpad holds reads as written. -/
theorem spRead_eq_of {s : State} {core off : Nat} {bs : List Byte} (h : ∀ i, i < bs.length → spGet s core (off + i) = bs.getD i 0) :
    spRead s core off bs.length = bs := by
  refine List.ext_getElem (by simp [spRead]) fun i h1 h2 => ?_
  simp only [spRead, List.getElem_map, List.getElem_range, h i h2, List.getD_eq_getElem _ _ h2]

/-! ### Elements of a queue -/

/-- Elements in different slots do not meet. -/
theorem qElem_disjoint {w n a b : Nat} (hn : n ≤ qSize w) (h : a % 2 ^ qDepth w ≠ b % 2 ^ qDepth w) :
    qElem w a + n ≤ qElem w b ∨ qElem w b + n ≤ qElem w a := by
  unfold qElem
  rcases Nat.lt_or_gt_of_ne h with hlt | hlt
  · left
    have := Nat.mul_le_mul_right (qSize w) hlt
    rw [Nat.succ_mul] at this
    omega
  · right
    have := Nat.mul_le_mul_right (qSize w) hlt
    rw [Nat.succ_mul] at this
    omega

/-- An element lies in its queue's range. -/
theorem qElem_add_le {w n : Nat} (hn : n ≤ qSize w) (a : Nat) : qElem w a + n ≤ qBase w + 2 ^ qDepth w * qSize w := by
  unfold qElem
  have := Nat.mul_le_mul_right (qSize w) (Nat.mod_lt a (Nat.two_pow_pos (qDepth w)))
  rw [Nat.succ_mul] at this
  omega

/-- Slots of elements that a push enters differ, when it enters no more than the queue holds. -/
theorem slot_ne {m tail i j : Nat} (hij : i < j) (hj : j < m) : (tail + i) % m ≠ (tail + j) % m := by
  intro h
  have hmod : (tail + i) ≡ (tail + j) [MOD m] := h
  have hz : i ≡ j [MOD m] := Nat.ModEq.add_left_cancel' tail hmod
  exact absurd (Nat.ModEq.eq_of_lt_of_lt hz (by omega) hj) (by omega)

section
variable {k : Task} {w n : Nat} {v : Nat → Nat}

/-- Bytes outside the slots that a push fills stay. -/
theorem spGet_pushLanes_of_outside {core off : Nat} (lanes : List Nat) (s : State) (tail : Nat)
    (h : ∀ j, j < lanes.length → ¬ (0x200000 * k.core + (k.spOff + qElem w (tail + j)) ≤ 0x200000 * core + off ∧
      0x200000 * core + off < 0x200000 * k.core + (k.spOff + qElem w (tail + j)) + n)) :
    spGet (pushLanes s k w n v tail lanes) core off = spGet s core off := by
  induction lanes generalizing s tail with
  | nil => rfl
  | cons i lanes ih =>
    rw [pushLanes, ih]
    · rw [spGet_spWrite, length_leBytes, if_neg]
      exact h 0 (Nat.succ_pos _)
    · intro j hj
      have := h (j + 1) (Nat.succ_lt_succ hj)
      rwa [show tail + (j + 1) = tail + 1 + j by omega] at this

/-- The element of the j-th lane stands in the j-th slot from TAIL on (05 R179). -/
theorem spRead_pushLanes (hn : n ≤ qSize w) (lanes : List Nat) (s : State) (tail : Nat) (hroom : lanes.length ≤ 2 ^ qDepth w) {j : Nat}
    (hj : j < lanes.length) :
    spRead (pushLanes s k w n v tail lanes) k.core (k.spOff + qElem w (tail + j)) n = leBytes n (v (lanes.getD j 0)) := by
  induction lanes generalizing s tail j with
  | nil => exact absurd hj (Nat.not_lt_zero j)
  | cons i lanes ih =>
    rw [pushLanes]
    cases j with
    | succ j =>
      rw [show tail + (j + 1) = tail + 1 + j by omega, List.getD_cons_succ]
      exact ih _ _ (Nat.le_of_succ_le hroom) (Nat.lt_of_succ_lt_succ hj)
    | zero =>
      have hread := spRead_eq_of (s := pushLanes (spWrite s k.core (k.spOff + qElem w tail) (leBytes n (v i))) k w n v (tail + 1) lanes)
        (core := k.core) (off := k.spOff + qElem w tail) (bs := leBytes n (v i)) fun b hb => by
          rw [length_leBytes] at hb
          rw [spGet_pushLanes_of_outside, spGet_spWrite, length_leBytes, if_pos (by omega)]
          · congr 1; omega
          · intro j hj
            have hslot := slot_ne (tail := tail) (Nat.succ_pos j) (show j + 1 < 2 ^ qDepth w from
              Nat.lt_of_lt_of_le (Nat.succ_lt_succ hj) hroom)
            have := qElem_disjoint hn hslot
            rw [Nat.add_zero, show tail + (j + 1) = tail + 1 + j by omega] at this
            omega
      rwa [length_leBytes] at hread

/-- A push changes the slots that it fills, in its own core's scratchpad, and no other byte (05 R179, R180). -/
theorem spGet_pushLanes_frame (hn : n ≤ qSize w) (hfits : k.spOff + qBase w + 2 ^ qDepth w * qSize w ≤ 0x200000) (s : State) (tail : Nat)
    (lanes : List Nat) {core off : Nat} (hoff : off < 0x200000)
    (hout : core = k.core → ∀ j, j < lanes.length → ¬ (k.spOff + qElem w (tail + j) ≤ off ∧ off < k.spOff + qElem w (tail + j) + n)) :
    spGet (pushLanes s k w n v tail lanes) core off = spGet s core off := by
  refine spGet_pushLanes_of_outside lanes s tail fun j hj => ?_
  have hend := qElem_add_le hn (tail + j)
  by_cases hcore : core = k.core
  · subst hcore
    have := hout rfl j hj
    omega
  · omega

end

/-! ### The words -/

/-- A pop reads its elements in a scratchpad, which moving HEAD leaves. -/
theorem popParts_setQueue (s : State) (tn q x : Nat) (c : Clutch) (k : Task) (t : Ty) (d : Reg) (w n : Nat) (lanes : List Nat) (j : Nat) :
    popParts (setQueue s tn q x) c k t d w n j lanes = popParts s c k t d w n j lanes := by
  have hread : ∀ core off, spRead (setQueue s tn q x) core off n = spRead s core off n := fun core off => by
    simp only [spRead, spGet, setQueue, modTask_scratch]
  induction lanes generalizing j with
  | nil => rfl
  | cons i lanes ih => rw [popParts, popParts, ih, hread]

/-- The machine after the parts of a pop, if any, are made pending, and the acquire. -/
theorem acquired_popped {cid : Nat} {c : Clutch} (parts : List PAcc) (h : clutchAt s cid = c) (core : Nat) (sc : Scope) :
    clutchAt (acquireOp (if parts.isEmpty then s else setClutch s cid (addPend c parts none)) core sc) cid =
      (if parts = [] then c else addPend c parts none) ∧
    ∀ k, setClutch (acquireOp (if parts.isEmpty then s else setClutch s cid (addPend c parts none)) core sc) cid k =
      setClutch (acquireOp (setClutch s cid (if parts = [] then c else addPend c parts none)) core sc) cid k := by
  simp only [clutchAt_acquireOp, setClutch_acquireOp, setClutch_setClutch]
  cases parts with
  | nil => exact ⟨h, fun _ => rfl⟩
  | cons a parts => exact ⟨clutchAt_setClutch_self .., fun _ => congrArg (acquireOp · core sc) (setClutch_setClutch ..)⟩

/-- Settles O23: the words' effects; where the elements of a push stand is `spRead_pushLanes`, and its frame `spGet_pushLanes_frame`. -/
theorem queueWords : Obligations.QueueWords := by
  unfold Obligations.QueueWords
  refine ⟨⟨fun s h t d a q => ?complete, fun s k w n tail v lanes hn hroom hfits => ?memory⟩, fun s h t d q => ?trapsAndWaits⟩
  case complete =>
    dsimp only
    refine ⟨wordDoneVia_self (fun _ => rfl) ?push, wordDoneVia_of (fun _ => rfl) ?pop, wordDoneVia_of (fun _ => rfl) ?set,
      regDone_of (fun _ => rfl) ?get⟩
    case push =>
      intro x u c z hb hok
      obtain ⟨hpad, hsize, hstate, hroom, hrel, htask⟩ := hok
      simp only [hb.clutch, hpad, Option.isSome_none, Bool.false_eq_true, if_false, hsize, hstate, ne_eq, not_true_eq_false, or_self,
        if_neg (Nat.not_lt.2 hroom), hrel, htask]
    case pop =>
      intro x u c k hb hok
      obtain ⟨hk, hpad, hsize, hstate, hcount⟩ := hok
      refine ⟨_, ?_, acquired_popped _ ((clutchAt_setQueue ..).trans hb.clutch) ..⟩
      simp only [hb.clutch, hk, hpad, Option.isSome_none, Bool.false_eq_true, if_false, hsize, ne_eq, not_true_eq_false, hstate, or_self,
        if_neg (Nat.not_lt.2 hcount), popParts_setQueue]
    case set =>
      intro x u c k hb hok
      obtain ⟨hk, hpad, hfault⟩ := hok
      refine ⟨_, ?_, (clutchAt_modTask ..).trans ((clutchAt_setQueue ..).trans hb.clutch), fun _ => rfl⟩
      simp only [hb.clutch, hpad, Option.isSome_none, Bool.false_eq_true, if_false, hk, hfault]
    case get =>
      intro x u c hb hpad
      simp only [hb.clutch, hpad, Option.isSome_none, Bool.false_eq_true, if_false, pendValue]
  case memory =>
    exact ⟨fun j hj => spRead_pushLanes hn lanes s tail hroom hj, fun core off hoff hout => spGet_pushLanes_frame hn hfits s tail lanes hoff hout⟩
  case trapsAndWaits =>
    dsimp only
    refine ⟨wordTraps_of (fun _ => rfl) ?_ ?pushLanded, wordTraps_of (fun _ => rfl) ?_ ?popLanded, wordTraps_of (fun _ => rfl) ?_ ?setLanded,
      wordTraps_of (fun _ => rfl) ?_ ?getLanded, wordTraps_of (fun _ => rfl) ?_ ?pushState, wordTraps_of (fun _ => rfl) ?_ ?popState,
      ?pushWaits, ?popWaits⟩
    case pushLanded => exact fun x u c hb hok => by simp only [hb.clutch, hok.2, if_true]
    case setLanded => exact fun x u c hb hok => by simp only [hb.clutch, hok.2, if_true]
    case getLanded => exact fun x u c hb hok => by simp only [hb.clutch, hok.2, if_true]
    case popLanded =>
      intro x u c hb hok
      obtain ⟨k, hk⟩ := Option.isSome_iff_exists.1 hok.1
      simp only [hb.clutch, hk, hok.2, if_true]
    case pushState =>
      intro x u c hb hok
      obtain ⟨hpad, hstate⟩ := hok
      simp only [hb.clutch, hpad, Option.isSome_none, Bool.false_eq_true, if_false, if_pos hstate, queueTrap]
    case popState =>
      intro x u c hb hok
      obtain ⟨htask, hpad, hstate⟩ := hok
      obtain ⟨k, hk⟩ := Option.isSome_iff_exists.1 htask
      simp only [hb.clutch, hk, hpad, Option.isSome_none, Bool.false_eq_true, if_false, if_pos hstate, queueTrap]
    case pushWaits =>
      intro w p hr hpad hsize hstate hfull
      refine hr.exec_waits (fun _ => rfl) ?_
      simp only [hr.begins.clutch, hpad, Option.isSome_none, Bool.false_eq_true, if_false, hsize, hstate, ne_eq, not_true_eq_false, or_self]
      exact if_pos hfull
    case popWaits =>
      intro w p hr htask hpad hsize hstate hdone hshort
      obtain ⟨k, hk⟩ := Option.isSome_iff_exists.1 htask
      refine hr.exec_waits (fun _ => rfl) ?_
      have hready : qState (queueAt (entry s p) (taskNo (atIssue p)) q.val) ≠ 0 ∧ qState (queueAt (entry s p) (taskNo (atIssue p)) q.val) ≠ 3 := by
        omega
      simp only [hr.begins.clutch, hk, hpad, Option.isSome_none, Bool.false_eq_true, if_false, hsize, ne_eq, not_true_eq_false, hready.1, or_self,
        hdone, hready.2, decide_false, Bool.or_self]
      exact if_pos hshort
    all_goals exact fun _ _ _ => by decide

end Sys2Proof.Machine
end

section
/-! PROOF. Writing parts of a pending result whose values are known (05 R173): the parts that are taken are those of the lanes named, each
lands in its destinations, and the others stay; O41. -/

namespace Sys2Proof.Machine

variable {s : State} {cid n : Nat} {lanes : Mask}

/-- The part's value is known. -/
def Known (a : PAcc) : Prop := ∃ lo hi, a.src = .val lo hi

/-- The value of a source that is known. -/
def knownNat : PSrc → Nat
  | .val lo hi => lo.toNat + 2 ^ 32 * hi.toNat
  | _ => 0

theorem ofNat_knownNat (lo hi : Word) : BitVec.ofNat 32 (knownNat (.val lo hi)) = lo := by
  apply BitVec.eq_of_toNat_eq
  have := lo.isLt
  simp only [knownNat, BitVec.toNat_ofNat]
  omega

/-! ### Which parts are taken -/

theorem Known.wordOf_eq {a : PAcc} (h : Known a) : wordOf a = none := by
  obtain ⟨lo, hi, h⟩ := h
  simp [wordOf, h]

theorem Known.srcBoth_eq {a : PAcc} (h : Known a) (x : PSrc) : srcBoth a.src x = false := by
  obtain ⟨lo, hi, h⟩ := h
  rw [h]; rfl

section
variable {all : List PAcc} (hknown : ∀ a ∈ all, Known a)
include hknown

/-- Known parts of a lane are taken together. -/
theorem together_of_known {a : PAcc} (ha : a ∈ all) (b : PAcc) : together all a b = decide (a.lane = b.lane) := by
  have hany : all.any (fun x => x.lane = a.lane && (wordOf x).isNone) = true :=
    List.any_eq_true.2 ⟨a, ha, by simp [(hknown a ha).wordOf_eq]⟩
  simp only [together, hany, Bool.or_true, Bool.and_true]

theorem closeParts_of_known (P : Nat → Bool) : closeParts all (all.filter (fun a => P a.lane)) = all.filter (fun a => P a.lane) := by
  have htaken : ∀ a ∈ all, ∀ acc : List PAcc, all.any (fun b => together all a b && ((all.filter (fun a => P a.lane)).contains b ||
      acc.any (fun x => decide (b.lane < x.lane) && srcBoth b.src x.src))) = P a.lane := by
    intro a ha acc
    rw [Bool.eq_iff_iff, List.any_eq_true]
    constructor
    · rintro ⟨b, hb, htake⟩
      simp only [together_of_known hknown ha, (hknown b hb).srcBoth_eq, Bool.and_false, Bool.and_eq_true, decide_eq_true_eq, Bool.or_eq_true,
        List.contains_iff_mem, List.mem_filter, List.any_eq_true] at htake
      obtain ⟨hlane, ⟨-, hP⟩ | ⟨x, -, hx⟩⟩ := htake
      · rwa [hlane]
      · exact absurd hx (by decide)
    · exact fun hP => ⟨a, ha, by simp [together_of_known hknown ha, ha, hP]⟩
  have hfold : ∀ l : List PAcc, (∀ a ∈ l, a ∈ all) → l.foldr (fun a acc =>
      if all.any (fun b => together all a b && ((all.filter (fun a => P a.lane)).contains b ||
        acc.any (fun x => decide (b.lane < x.lane) && srcBoth b.src x.src))) then a :: acc else acc) [] = l.filter (fun a => P a.lane) := by
    intro l hl
    induction l with
    | nil => rfl
    | cons a l ih =>
      rw [List.foldr_cons, htaken a (hl a List.mem_cons_self), ih fun b hb => hl b (List.mem_cons_of_mem _ hb), List.filter_cons]
  exact hfold all fun _ h => h

/-- Of known parts, those of the lanes named are taken. -/
theorem chosenParts_of_known (s : State) (P : Nat → Bool) : chosenParts s all (all.filter (fun a => P a.lane)) = (all.filter (fun a => P a.lane), s) := by
  have hnarrow : ∀ a ∈ all.filter (fun a => P a.lane), all.any (fun b => b.lane = a.lane && !together all a b) = false := by
    intro a ha
    rw [List.any_eq_false]
    intro b _
    rw [together_of_known hknown (List.mem_of_mem_filter ha)]
    by_cases h : b.lane = a.lane <;> simp [h]
  have hnone : (all.filter (fun a => P a.lane)).filter (fun a => all.any (fun b => b.lane = a.lane && !together all a b)) = [] :=
    List.filter_eq_nil_iff.2 fun a ha => by simp only [hnarrow a ha, Bool.false_eq_true, not_false_eq_true]
  have hall : (all.filter (fun a => P a.lane)).filter (fun a => !all.any (fun b => b.lane = a.lane && !together all a b)) =
      all.filter (fun a => P a.lane) := List.filter_eq_self.2 fun a ha => by rw [hnarrow a ha]; rfl
  simp only [chosenParts, hnone, hall, someParts, List.append_nil, closeParts_of_known hknown]

end

/-! ### Where a part lands -/

theorem rest_landAcc (c : Clutch) (a : PAcc) (x : Nat) : rest (landAcc c a x) = rest c := by
  have hlow := (regOnly_setPlace c a.lo (BitVec.ofNat 32 x)).rest
  unfold landAcc
  dsimp only
  split
  · exact (kwaitAll_only _).book.rest.trans hlow
  · exact (regOnly_setPlace ..).rest.trans hlow
  · exact hlow

/-- A part changes its destinations alone. -/
theorem cell_landAcc_of_ne {c : Clutch} {a : PAcc} {d : Dst} (hlo : d ≠ a.lo) (hhi : a.hi ≠ some d) (x : Nat) :
    cell (landAcc c a x) d = cell c d := by
  have hlow : cell (setPlace c a.lo (BitVec.ofNat 32 x)) d = cell c d := by rw [cell_setPlace, if_neg hlo]
  unfold landAcc
  dsimp only
  split
  · exact ((kwaitAll_only _).book.cell d).trans hlow
  · next e he _ => rw [cell_setPlace, if_neg fun h => hhi (he.trans (congrArg some h.symm)), hlow]
  · exact hlow

/-- The low word of a part stands in its destination. -/
theorem cell_landAcc_lo {c : Clutch} {a : PAcc} (hhi : a.hi ≠ some a.lo) (x : Nat) :
    cell (landAcc c a x) a.lo = (some (stored c a.lo (BitVec.ofNat 32 x)), false) := by
  have hlow : cell (setPlace c a.lo (BitVec.ofNat 32 x)) a.lo = (some (stored c a.lo (BitVec.ofNat 32 x)), false) := by
    rw [cell_setPlace, if_pos rfl]
  unfold landAcc
  dsimp only
  split
  · exact ((kwaitAll_only _).book.cell _).trans hlow
  · next e he _ => rw [cell_setPlace, if_neg fun h => hhi (he.trans (congrArg some h.symm)), hlow]
  · exact hlow

/-! ### Parts land one after another -/

/-- A known part lands, and leaves the pending result `id`. -/
def landPart (id : Nat) (c : Clutch) (a : PAcc) : Clutch :=
  let c := landAcc c a (knownNat a.src)
  { c with inflight := c.inflight.map (fun p => if p.id = id then { p with accs := p.accs.filter (fun b => decide (b ≠ a)) } else p) }

theorem cell_withInflight (c : Clutch) (l : List Pend) (b : Bool) (d : Dst) : cell { c with inflight := l, parked := b } d = cell c d := by
  cases d <;> rfl

theorem cell_landPart (id : Nat) (c : Clutch) (a : PAcc) (d : Dst) : cell (landPart id c a) d = cell (landAcc c a (knownNat a.src)) d :=
  cell_withInflight ..

theorem stored_landPart (id : Nat) (c : Clutch) (a : PAcc) (d : Dst) (x : Word) : stored (landPart id c a) d x = stored c d x := by
  have hhost : isHost (landPart id c a) = isHost c := by
    show decide (256 ≤ (landAcc c a (knownNat a.src)).core) = _
    rw [rest_core (rest_landAcc c a (knownNat a.src))]
    rfl
  cases d <;> simp [stored, hhost]

theorem cell_landParts_of_ne {id : Nat} {d : Dst} {l : List PAcc} (h : ∀ a ∈ l, d ≠ a.lo ∧ a.hi ≠ some d) (c : Clutch) :
    cell (l.foldl (landPart id) c) d = cell c d := by
  induction l generalizing c with
  | nil => rfl
  | cons a l ih =>
    obtain ⟨hlo, hhi⟩ := h a List.mem_cons_self
    rw [List.foldl_cons, ih fun b hb => h b (List.mem_cons_of_mem _ hb), cell_landPart, cell_landAcc_of_ne hlo hhi]

/-- A part whose low destination no other names stands there after all have landed. -/
theorem cell_landParts_lo {id : Nat} {a : PAcc} {l : List PAcc} (ha : a ∈ l) (hhi : a.hi ≠ some a.lo)
    (hother : ∀ b ∈ l, b ≠ a → b.lo ≠ a.lo ∧ b.hi ≠ some a.lo) (c : Clutch) :
    cell (l.foldl (landPart id) c) a.lo = (some (stored c a.lo (BitVec.ofNat 32 (knownNat a.src))), false) := by
  induction l generalizing c with
  | nil => exact absurd ha List.not_mem_nil
  | cons b l ih =>
    rw [List.foldl_cons]
    by_cases hlater : a ∈ l
    · rw [ih hlater fun e he => hother e (List.mem_cons_of_mem _ he), stored_landPart]
    · obtain rfl : a = b := (List.mem_cons.1 ha).resolve_right hlater
      have hrest : ∀ e ∈ l, a.lo ≠ e.lo ∧ e.hi ≠ some a.lo := fun e he => by
        obtain ⟨hlo, hhi⟩ := hother e (List.mem_cons_of_mem _ he) fun h => hlater (h ▸ he)
        exact ⟨hlo.symm, hhi⟩
      rw [cell_landParts_of_ne hrest, cell_landPart, cell_landAcc_lo hhi]

/-- The parts that have landed have left the pending result. -/
theorem inflight_landParts {id : Nat} (l : List PAcc) (c : Clutch) (p : Pend) (hp : p.id = id) (hc : c.inflight = [p]) :
    (l.foldl (landPart id) c).inflight = [{ p with accs := p.accs.filter (fun b => decide (b ∉ l)) }] := by
  induction l generalizing c p with
  | nil => simp [hc]
  | cons a l ih =>
    have hrest : (landAcc c a (knownNat a.src)).inflight = [p] := (congrArg Clutch.inflight (rest_landAcc c a (knownNat a.src))).trans hc
    rw [List.foldl_cons, ih (landPart id c a) { p with accs := p.accs.filter (fun b => decide (b ≠ a)) } hp (by simp [landPart, hrest, hp])]
    simp only [List.filter_filter, List.mem_cons, not_or, Bool.decide_and, Bool.and_comm]

/-- Completing known parts changes the clutch alone. -/
theorem completeAccs_of_known {id : Nat} {acq : Option Scope} (l : List PAcc) (hl : ∀ a ∈ l, Known a) (s : State) :
    ∃ t, completeAccs s cid id acq l = some t ∧ clutchAt t cid = l.foldl (landPart id) (clutchAt s cid) ∧ t.sync = s.sync ∧
      ∀ c, setClutch t cid c = setClutch s cid c := by
  induction l generalizing s with
  | nil => exact ⟨s, rfl, rfl, rfl, fun _ => rfl⟩
  | cons a l ih =>
    obtain ⟨lo, hi, hsrc⟩ := hl a List.mem_cons_self
    have hstep : modPend (modClutch s cid (fun c => landAcc c a (knownNat a.src))) cid id
        (fun p => { p with accs := p.accs.filter (fun b => decide (b ≠ a)) }) = setClutch s cid (landPart id (clutchAt s cid) a) := by
      rw [modPend, modClutch_def, modClutch_def, clutchAt_setClutch_self, setClutch_setClutch]; rfl
    obtain ⟨t, ht, hclutch, hsync, hrest⟩ := ih (fun b hb => hl b (List.mem_cons_of_mem _ hb)) (setClutch s cid (landPart id (clutchAt s cid) a))
    refine ⟨t, ?_, ?_, hsync, fun c => (hrest c).trans (setClutch_setClutch ..)⟩
    · rw [← hstep, hsrc] at ht
      simp only [completeAccs, hsrc, accValue]
      exact ht
    · rw [hclutch, clutchAt_setClutch_self, List.foldl_cons]

/-! ### Results that are over -/

theorem foldl_eq_self {σ β : Type} {f : σ → β → σ} {t : σ} {l : List β} (h : ∀ b ∈ l, f t b = t) : l.foldl f t = t :=
  List.foldlRecOn l f (motive := (· = t)) rfl fun _ hu b hb => by rw [hu]; exact h b hb

/-- The clutch with what is left pending, parked no longer when that is nothing. -/
def withPending (c : Clutch) (l : List Pend) : Clutch := { c with inflight := l, parked := c.parked && !l.isEmpty }

@[simp] theorem withPending_inflight (c : Clutch) (l : List Pend) : (withPending c l).inflight = l := rfl

theorem cell_withPending (c : Clutch) (l : List Pend) (d : Dst) : cell (withPending c l) d = cell c d := cell_withInflight ..

/-- Where no pending result acquires, dropping those that are over changes the clutch alone. -/
theorem reapPend_of_plain (h : ∀ p ∈ (clutchAt s cid).inflight, p.acq = none) : reapPend s cid =
    setClutch s cid (withPending (clutchAt s cid) ((clutchAt s cid).inflight.filter (fun p => !pendOver s cid p))) := by
  unfold reapPend
  dsimp only
  rw [foldl_eq_self fun p hp => by simp only [h p (List.mem_of_mem_filter hp)]]
  rfl

/-- With nothing queued at a sync engine, a pending result is over when no part of it is left. -/
theorem pendOver_of_unqueued (h : ∀ o ∈ s.sync, o.cid ≠ cid) (p : Pend) : pendOver s cid p = p.accs.isEmpty := by
  have hnone : s.sync.any (fun o => decide (o.cid = cid) && decide (o.pend = p.id)) = false :=
    List.any_eq_false.2 fun o ho => by simp [h o ho]
  rw [pendOver, hnone, Bool.not_false, Bool.and_true]

/-- With nothing queued at a sync engine, nothing has to be performed first. -/
theorem syncUntil_of_unqueued (h : ∀ o ∈ s.sync, o.cid ≠ cid) (id k : Nat) : syncUntil cid id k s = some s := by
  have hnone : s.sync.find? (fun o => decide (o.cid = cid) && decide (o.pend = id)) = none :=
    List.find?_eq_none.2 fun o ho => by simp [h o ho]
  cases k with
  | zero => rfl
  | succ k => simp only [syncUntil, hnone]

theorem pendPlaces_of_known {p : Pend} (h : ∀ a ∈ p.accs, Known a) : pendPlaces p = [] :=
  List.filterMap_eq_nil_iff.2 fun a ha => by
    obtain ⟨lo, hi, hsrc⟩ := h a ha
    simp only [hsrc]

/-- Writing parts of the one pending result of a clutch, whose values are known. -/
theorem exec_longResultWrite_known {p : Pend} (hl : live s = true) (hp : (clutchAt s cid).inflight = [p]) (hid : p.id = n) (hacq : p.acq = none)
    (hknown : ∀ a ∈ p.accs, Known a) (hsync : ∀ o ∈ s.sync, o.cid ≠ cid) :
    let c := (p.accs.filter (fun a => lanes.getLsbD a.lane)).foldl (landPart n) (clutchAt s cid)
    let left := [{ p with accs := p.accs.filter (fun a => !lanes.getLsbD a.lane) }].filter (fun q => !q.accs.isEmpty)
    exec (.longResultWrite cid n lanes) s =
      .next (setClutch s cid (withPending c left)) := by
  intro c left
  obtain ⟨t, ht, hclutch, htsync, hrest⟩ := completeAccs_of_known (cid := cid) (id := n) (acq := none)
    (p.accs.filter (fun a => lanes.getLsbD a.lane)) (fun a ha => hknown a (List.mem_of_mem_filter ha)) s
  have hinflight : (clutchAt t cid).inflight = [{ p with accs := p.accs.filter (fun a => !lanes.getLsbD a.lane) }] := by
    rw [hclutch, inflight_landParts _ _ p hid hp]
    congr 2
    refine List.filter_congr fun a ha => ?_
    cases hlane : lanes.getLsbD a.lane <;> simp [ha, hlane]
  have hreap : reapPend t cid = setClutch s cid (withPending c left) := by
    rw [reapPend_of_plain (by rw [hinflight]; exact fun q hq => by rw [List.mem_singleton.1 hq, hacq]), hrest]
    simp only [pendOver_of_unqueued (htsync ▸ hsync), hinflight]
    rw [hclutch]
  change execLongResultWrite cid n lanes s = _
  have hfind : (clutchAt s cid).inflight.find? (fun p => decide (p.id = n)) = some p := by simp [hp, hid]
  have hearlier : earlier n (clutchAt s cid).inflight = [] := by simp [hp, earlier, hid]
  simp only [execLongResultWrite, hfind, hl, Bool.not_true, Bool.false_eq_true, if_false, pendPlaces_of_known hknown, hearlier, bindBefore, bindPends,
    syncUntil_of_unqueued hsync, chosenParts_of_known hknown s (fun l => lanes.getLsbD l), hacq, ht, hreap]

/-- Settles O41: the parts of the lanes named land (`cell_landParts_of_ne`, `cell_landParts_lo`), and the rest stays pending. -/
theorem pendingPartsAreWritten : Obligations.PendingPartsAreWritten := by
  unfold Obligations.PendingPartsAreWritten
  intro s cid n lanes p hl hp hid hacq hknown hsync
  refine ⟨_, exec_longResultWrite_known hl hp hid hacq hknown hsync, ?_, fun d hd => ?others, fun a ha hlane lo hi hsrc hhi hother => ?written, ?left⟩
  · rw [clutchAt_setClutch_self]
  case others =>
    rw [clutchAt_setClutch_self, cell_withPending]
    exact cell_landParts_of_ne (fun a ha => hd a (List.mem_filter.1 ha).1 (List.mem_filter.1 ha).2) _
  case written =>
    have hmem : a ∈ p.accs.filter (fun a => lanes.getLsbD a.lane) := List.mem_filter.2 ⟨ha, hlane⟩
    rw [clutchAt_setClutch_self, cell_withPending, cell_landParts_lo hmem hhi fun b hb => hother b (List.mem_of_mem_filter hb), hsrc, ofNat_knownNat]
  case left =>
    intro r hr
    rw [clutchAt_setClutch_self, withPending_inflight] at hr
    have hleft : r ∈ [{ p with accs := p.accs.filter (fun a => !lanes.getLsbD a.lane) }] := List.mem_of_mem_filter hr
    rw [List.mem_singleton.1 hleft]
    exact ⟨hid, rfl⟩

end Sys2Proof.Machine
end

section
/-! PROOF. One step (05 R158, 09 R309, log 1): which act it makes, what a clutch's turn comes to, and what a step adds for the power model
(02 R52); O56. -/

namespace Sys2Proof.Machine

variable {s t u v y : State} {i : Instr} {p : Issue} {w : Dword}

/-! ### Events that are counted -/

/-- The machine with another count of events. -/
def withTally (t : State) (m : Tab Nat) : State := { t with power := { t.power with tally := m } }

/-- From `t` to `u` nothing but the count of events has changed. -/
def TallyOnly (t u : State) : Prop := ∃ m, u = withTally t m

theorem TallyOnly.refl (t : State) : TallyOnly t t := ⟨t.power.tally, rfl⟩

theorem TallyOnly.trans (h : TallyOnly s t) (k : TallyOnly t u) : TallyOnly s u := by
  obtain ⟨m, rfl⟩ := h
  obtain ⟨m', rfl⟩ := k
  exact ⟨m', rfl⟩

theorem tallyOnly_count (t : State) (block event n : Nat) : TallyOnly t (count t block event n) := by
  unfold count
  dsimp only
  split
  · exact .refl t
  · exact ⟨_, rfl⟩

theorem tallyOnly_wordEvents (s t : State) (cid : Nat) (i : Instr) : TallyOnly t (wordEvents s t cid i) := by
  have hretired : TallyOnly t (if isHost (clutchAt s cid) then count t (coreBlock (clutchAt s cid).core) 18 1 else t) := by
    split
    · exact tallyOnly_count ..
    · exact .refl t
  unfold wordEvents
  dsimp only
  split
  · exact hretired.trans (tallyOnly_count ..)
  · exact hretired.trans (tallyOnly_count ..)
  · exact hretired

theorem tallyOnly_tallied (i : Instr) (s t : State) : TallyOnly t (tallied i s t) := by
  unfold tallied
  split
  · exact tallyOnly_count ..
  · exact tallyOnly_count ..
  · split
    · split
      · exact tallyOnly_wordEvents ..
      · exact .refl t
    · exact .refl t

/-- An act counts its events and does nothing else beside `exec`. -/
theorem act_of_exec (h : exec i s = .next t) : ∃ m, act i s = .next { t with power := { t.power with tally := m } } := by
  obtain ⟨m, hm⟩ := tallyOnly_tallied i s t
  exact ⟨m, by rw [act, h]; exact congrArg Host.Outcome.next hm⟩

/-! ### The act of a step -/

theorem step_of_forced (h : forced (tick s) = some i) : step s = act i (tick s) := by simp only [step, stepFrom, h]

theorem step_of_unforced (h : forced (tick s) = none) : step s = stepNext (tick s) := by simp only [step, stepFrom, h]

/-- The first act that is listed, unless an issue cycle has just chosen a clutch. -/
theorem stepNext_listed {more : List Instr} (hb : s.boot ≠ .railsOff) (hi : s.issuing = false) (ha : s.agenda = i :: more) :
    stepNext s = act i { s with agenda := more } := by
  unfold stepNext
  split
  · next hboot _ => exact absurd hboot hb
  · next hboot _ => exact absurd hboot hb
  · next hissue _ _ => exact absurd (hi.symm.trans hissue) Bool.false_ne_true
  · next hempty _ => exact absurd (ha.symm.trans hempty) (List.cons_ne_nil _ _)
  · next hlisted _ _ =>
    obtain ⟨rfl, rfl⟩ := List.cons.inj (ha.symm.trans hlisted)
    rfl

/-- Otherwise the turn is the clutch's. -/
theorem stepNext_clutch (hb : s.boot ≠ .railsOff) (h : s.issuing = true ∨ s.agenda = []) : stepNext s = clutchStep { s with issuing := false } := by
  unfold stepNext
  split
  · next hboot _ => exact absurd hboot hb
  · next hboot _ => exact absurd hboot hb
  · rfl
  · next hi _ _ => rw [← hi]
  · next hi hlisted _ _ => simp [hi, hlisted] at h

/-! ### The turn of a clutch -/

/-- A clutch that runs, waits for nothing and has nothing due issues a word. -/
theorem clutchStep_issues (hr : runs u (clutchAt u u.cur) = true) (ha : asyncReady u u.cur = false) (hn : intReady u u.cur = false)
    (hw : (clutchAt u u.cur).wait = none) : clutchStep u = issueWord u := by
  simp only [clutchStep, hr, ha, hn, hw, Bool.not_true, Bool.false_eq_true, if_false]

/-- A parked clutch issues in the machine that its pending results leave (05 R173). -/
theorem issueWord_eq (h : (if (clutchAt u u.cur).parked then completeAll u u.cur else some u) = some y) : issueWord u = issueNow y := by
  unfold issueWord
  split at h
  · next hp => rw [if_pos hp, h]
  · next hp => rw [if_neg hp, Option.some.inj h]

section
variable (hp : issueOf (clutchAt y y.cur) = some p) (hf : fetchAt y p.c p.ia = (.word w, v))
include hp hf

/-- The word at the issue address runs. -/
theorem issueNow_decoded (hd : decode w = .ok i) : issueNow y = act i v := by
  simp only [issueNow, hp, hf, hd]

/-- A word that decodes to none takes ILLEGAL. -/
theorem issueNow_illegal {e : Reject} (hd : decode w = .error e) : issueNow y = .next (fetchTrap v y.cur cIllegal w p) := by
  simp only [issueNow, hp, hf, hd]

end

theorem fetchTrap_eq {cid cause : Nat} (h : completeAll v cid = some u) :
    fetchTrap v cid cause w p = takeTrap u cid cause w p.at_ p.at_ p.ia nopWord := by
  simp only [fetchTrap, h]

/-- Settles O56: each clause is the lemma above for the act that the step makes. -/
theorem stepRunsTheDecodedWord : Obligations.StepRunsTheDecodedWord := by
  unfold Obligations.StepRunsTheDecodedWord
  intro s v y p w i more u c
  refine ⟨fun hforced hboot hturn hruns hasync hint hwait hy hp hf => ?turn,
    fun hforced hboot hi ha => (step_of_unforced hforced).trans (stepNext_listed hboot hi ha), step_of_forced, fun t => act_of_exec⟩
  case turn =>
    have hstep : step s = issueNow y :=
      calc step s = stepNext (tick s) := step_of_unforced hforced
        _ = clutchStep u := stepNext_clutch hboot hturn
        _ = issueWord u := clutchStep_issues hruns hasync hint hwait
        _ = issueNow y := issueWord_eq hy
    refine ⟨fun hd => hstep.trans (issueNow_decoded hp hf hd), fun e hd => ⟨_, hstep.trans (issueNow_illegal hp hf hd), fun x hx => fetchTrap_eq hx⟩⟩

end Sys2Proof.Machine
end

section
/-! PROOF. What leaves the listed bytes of memory as they are: an equation for each function of the model that writes no byte. -/

namespace Sys2Proof.Machine

variable {s t : State}

@[simp] theorem modHost_mem (s c f) : (modHost s c f).mem = s.mem := rfl

@[simp] theorem setEng_mem (s r e x) : (setEng s r e x).mem = s.mem := by
  unfold setEng
  split <;> simp

@[simp] theorem freeW_mem (s) : (freeW s).2.mem = s.mem := rfl

@[simp] theorem freeD_mem (s) : (freeD s).2.mem = s.mem := rfl

@[simp] theorem freeF_mem (s) : (freeF s).2.mem = s.mem := rfl

@[simp] theorem logPost_mem (s source cls code data) : (logPost s source cls code data).mem = s.mem := rfl

@[simp] theorem raiseVec_mem (s v) : (raiseVec s v).mem = s.mem := by
  unfold raiseVec
  split <;> rfl

@[simp] theorem postVbus_mem (s c down kind group lane attempts spare) : (postVbus s c down kind group lane attempts spare).mem = s.mem
  := by
  unfold postVbus
  repeat' split
  all_goals rfl

@[simp] theorem holdReads_mem (s ls) : (holdReads s ls).mem = s.mem := foldl_mem holdRead_mem ls s

theorem gatherSpare_mem {die line me} (h : gatherSpare s die line me = some t) : t.mem = s.mem := by
  unfold gatherSpare at h
  grind -ring -linarith -order [recallHost_mem, → fetchTok_mem]

@[simp] theorem sendTok_mem (s wb line src dst n flag) : (sendTok s wb line src dst n flag).mem = s.mem := (clutchOnly_sendTok ..).mem

@[simp] theorem answerTransient_mem (s line dst write src) : (answerTransient line dst write s src).mem = s.mem := by
  unfold answerTransient
  dsimp only
  repeat' split
  all_goals simp

@[simp] theorem answerAll_mem (s line dst write) : (answerAll s line dst write).mem = s.mem := by
  unfold answerAll
  simp

@[simp] theorem transientRequest_mem (s die line write) : (transientRequest s die line write).mem = s.mem := by
  unfold transientRequest
  dsimp only
  split <;> simp

@[simp] theorem forwardActive_mem (s line die) : (forwardActive s line die).mem = s.mem := (clutchOnly_forwardActive ..).mem

@[simp] theorem forwardLines_mem (s die ls) : (forwardLines s die ls).mem = s.mem := (clutchOnly_forwardLines s die ls).mem

@[simp] theorem spPut_mem (s core off b) : (spPut s core off b).mem = s.mem := rfl

@[simp] theorem spWrite_mem (s core off l) : (spWrite s core off l).mem = s.mem := by
  fun_induction spWrite s core off l <;> simp [*]

@[simp] theorem havoc_mem (s cid l) : (havoc s cid l).mem = s.mem := (clutchOnly_havoc l s cid).mem

@[simp] theorem regionEnd_mem (s cid st) : (regionEnd s cid st).mem = s.mem := (clutchOnly_regionEnd s cid st).mem

@[simp] theorem failTask_mem (s n code reason) : (failTask s n code reason).mem = s.mem := (clutchOnly_failTask ..).mem

@[simp] theorem trapHost_mem (s cid cause int addr mask tpc) : (trapHost s cid cause int addr mask tpc).mem = s.mem :=
  (clutchOnly_trapHost ..).mem

@[simp] theorem trapReturn_mem (s cid) : (trapReturn s cid).mem = s.mem := (clutchOnly_trapReturn s cid).mem

@[simp] theorem ungateCore_mem (s core) : (ungateCore s core).mem = s.mem := by
  unfold ungateCore
  split <;> rfl

@[simp] theorem settle_mem (s c) : (settle s c).mem = s.mem := by
  unfold settle
  dsimp only
  repeat' split
  all_goals rfl

@[simp] theorem settleAll_mem (s) : (settleAll s).mem = s.mem := foldl_mem settle_mem _ s

@[simp] theorem heatWatch_mem (s c) : (heatWatch s c).mem = s.mem := rfl

@[simp] theorem regReadBy_mem (s r who off) : (regReadBy s r who off).2.mem = s.mem := by
  unfold regReadBy
  dsimp only
  repeat' split
  all_goals rfl

@[simp] theorem regRead_mem (s r off) : (regRead s r off).2.mem = s.mem := by
  unfold regRead
  simp

@[simp] theorem refuse_mem (s r off code) : (refuse s r off code).1.mem = s.mem := rfl

@[simp] theorem dropToken_mem (s key) : (dropToken s key).mem = s.mem := by
  unfold dropToken
  dsimp only
  split <;> simp

@[simp] theorem semWrite_mem (s r v) : (semWrite s r v).mem = s.mem := rfl

@[simp] theorem splitWrite_mem (s v) : (splitWrite s v).mem = s.mem := by
  unfold splitWrite
  dsimp only
  repeat' split
  all_goals rfl

@[simp] theorem wearWrite_mem (s v) : (wearWrite s v).mem = s.mem := rfl

@[simp] theorem logCtlWrite_mem (s r v) : (logCtlWrite s r v).mem = s.mem := rfl

@[simp] theorem dropHeld_mem (s line cid) : (dropHeld s line cid).mem = s.mem := rfl

@[simp] theorem surrender_mem (s line cid) : (surrender s line cid).mem = s.mem := foldl_mem (fun _ _ => dropHeld_mem ..) _ s

theorem takeHold_mem {cid line} (h : takeHold s cid line = some t) : t.mem = s.mem := by
  unfold takeHold at h
  grind -ring -linarith -order [modClutch_mem, → gatherSpare_mem, dropHeld_mem, Option.map_eq_some_iff]

theorem holdLines_mem {cid l} : holdLines s cid l = some t → t.mem = s.mem := by
  fun_induction holdLines s cid l <;> grind -ring -linarith -order [→ takeHold_mem]

@[simp] theorem dropAsks_mem (s who) : (dropAsks s who).mem = s.mem := rfl

@[simp] theorem weightOld_mem (s i line) : (weightOld s i line).mem = s.mem := by
  unfold weightOld
  dsimp only
  repeat' split
  all_goals rfl

@[simp] theorem weightAsk_mem (s who i ps) : (weightAsk s who i ps).mem = s.mem := foldl_mem (fun s l => weightOld_mem s i l) _ s

@[simp] theorem lend_mem (s i as) : (lend s i as).mem = s.mem := foldl_mem (fun s a => by dsimp only; split <;> simp) as s

@[simp] theorem takeBack_mem (s0 s i as) : (takeBack s0 s i as).mem = s.mem :=
  foldl_mem (fun s a => by split <;> simp) as s

theorem gatherLines_mem {cid die full l} : gatherLines s cid die full l = .ok t → t.mem = s.mem := by
  fun_induction gatherLines s cid die full l <;> grind -ring -linarith -order [→ gatherAll_mem, → gatherSpare_mem]

@[simp] theorem forCommit_mem (s cid g) : (forCommit s cid g).mem = s.mem := by
  unfold forCommit
  simp [foldl_mem]

@[simp] theorem pastStop_mem (s cid) : (pastStop s cid).mem = s.mem := by
  unfold pastStop
  repeat' split
  all_goals rfl

@[simp] theorem cmdFlags_mem (s k f) : (cmdFlags s k f).mem = s.mem := by
  unfold cmdFlags
  split <;> simp

@[simp] theorem newCmd_mem (s cid e kind pkgScope blk va) : (newCmd s cid e kind pkgScope blk va).mem = s.mem := by
  unfold newCmd
  simp

@[simp] theorem setQueue_mem (s n q w0) : (setQueue s n q w0).mem = s.mem := by
  unfold setQueue
  simp

@[simp] theorem tlReturn_mem (s cid e n) : (tlReturn s cid e n).mem = s.mem := by
  unfold tlReturn
  simp

@[simp] theorem pendValue_mem (s x wide d v) : (pendValue s x wide d v).mem = s.mem := rfl

@[simp] theorem freeBytes_mem (s n) : (freeBytes s n).2.mem = s.mem := rfl

@[simp] theorem streamPut_mem (s id k n q bs) : (streamPut s id k n q bs).mem = s.mem := by
  unfold streamPut
  split <;> simp

@[simp] theorem cvtOpen_mem (s b n i) : (cvtOpen s b n i).2.mem = s.mem := by
  unfold cvtOpen
  dsimp only
  split <;> rfl

@[simp] theorem setZone_mem (s z x) : (setZone s z x).mem = s.mem := rfl

@[simp] theorem chargeUnit_mem (s u) : (chargeUnit s u).mem = s.mem := rfl

@[simp] theorem returnUnit_mem (s u) : (returnUnit s u).mem = s.mem := rfl

@[simp] theorem freeUnit_mem (s u) : (freeUnit s u).mem = s.mem := rfl

@[simp] theorem setInstall_mem (s x) : (setInstall s x).mem = s.mem := rfl

@[simp] theorem dropInstall_mem (s cmd) : (dropInstall s cmd).mem = s.mem := rfl

@[simp] theorem abandonInstall_mem (s x) : (abandonInstall s x).mem = s.mem := by
  unfold abandonInstall
  rw [dropInstall_mem, foldl_mem freeUnit_mem, foldl_mem returnUnit_mem]

@[simp] theorem broadcast_mem (s ext) : (broadcast s ext).mem = s.mem := rfl

@[simp] theorem serveAsks_mem (s as got) : (serveAsks s as got).mem = s.mem := rfl

@[simp] theorem setRing_mem (s t0 n w0) : (setRing s t0 n w0).mem = s.mem := by
  unfold setRing
  simp

@[simp] theorem pushLanes_mem (s t0 w0 n v l ls) : (pushLanes s t0 w0 n v l ls).mem = s.mem := by
  fun_induction pushLanes s t0 w0 n v l ls <;> simp [*]

@[simp] theorem wakeJoins_mem (s) : (wakeJoins s).mem = s.mem := rfl

@[simp] theorem pendQuad_mem (s x d v) : (pendQuad s x d v).mem = s.mem := by
  unfold pendQuad
  dsimp only
  split <;> rfl

@[simp] theorem leapMove_mem (s cid core slot quad pad) : (leapMove s cid core slot quad pad).mem = s.mem := by
  unfold leapMove
  simp

theorem leapTry_mem {cid col} (h : leapTry s cid col = some t) : t.mem = s.mem := by
  unfold leapTry at h
  grind -ring -linarith -order [leapMove_mem]

@[simp] theorem wakeWaiting_mem (s k mk) : (wakeWaiting s k mk).mem = s.mem := rfl

@[simp] theorem watchLine_mem (s cid o) : (watchLine s cid o).mem = s.mem := by
  unfold watchLine
  split <;> rfl

@[simp] theorem setEngTrap_mem (s c v) : (setEngTrap s c v).mem = s.mem := by
  unfold setEngTrap
  split <;> simp

@[simp] theorem invalidate_mem (s hit ext) : (invalidate s hit ext).mem = s.mem := rfl

@[simp] theorem dropKept_mem (s line) : (dropKept s line).mem = s.mem := by
  unfold dropKept
  split <;> rfl

@[simp] theorem countWait_mem (s pick rs p) (u : State) : (countWait s pick rs u p).mem = u.mem := by
  unfold countWait
  simp

@[simp] theorem someParts_mem (s l) : (someParts s l).2.mem = s.mem := by
  unfold someParts
  split <;> rfl

@[simp] theorem chosenParts_mem (s all listed) : (chosenParts s all listed).2.mem = s.mem := by
  unfold chosenParts
  simp

@[simp] theorem recallRow_mem (s parked cid w0) : (recallRow parked cid s w0).mem = s.mem := by
  unfold recallRow
  dsimp only
  split <;> rfl

@[simp] theorem dropMet_mem (s line die) : (dropMet s line die).mem = s.mem := rfl

@[simp] theorem arrive_mem (s m) : (arrive s m).mem = s.mem := by
  unfold arrive
  split <;> simp

@[simp] theorem finishLaunch_mem (s l x) : (finishLaunch s l x).mem = s.mem := by
  unfold finishLaunch
  split <;> simp

@[simp] theorem lessLeft_mem (s l k) : (lessLeft s l k).mem = s.mem := by
  unfold lessLeft
  repeat' split
  all_goals simp

@[simp] theorem settleLaunch_mem (s l) : (settleLaunch s l).mem = s.mem := by
  unfold settleLaunch
  repeat' split
  all_goals rfl

@[simp] theorem retryNext_mem (s) : (retryNext s).mem = s.mem := rfl

@[simp] theorem freeStacks_mem (s l) : (freeStacks s l).mem = s.mem := foldl_mem (fun _ _ => modCol_mem ..) l s

@[simp] theorem dropGang_mem (s g x) : (dropGang s g x).mem = s.mem := by
  unfold dropGang
  simp

@[simp] theorem dropCached_mem (s lo n) : (dropCached s lo n).mem = s.mem := rfl

@[simp] theorem freeBank_mem (s col base len) : (freeBank s col base len).mem = s.mem := by
  unfold freeBank
  split <;> rfl

@[simp] theorem allocBank_mem (s col base len) : (allocBank s col base len).mem = s.mem := by
  unfold allocBank
  split <;> rfl

@[simp] theorem dropClutches_mem (s cs) : (dropClutches s cs).mem = s.mem := rfl

@[simp] theorem freeImage_mem (s col o) : (freeImage s col o).mem = s.mem := by
  cases o with
  | none => rfl
  | some k => exact modCol_mem ..

@[simp] theorem dropSeat_mem (s x p) : (dropSeat x s p).mem = s.mem := by
  unfold dropSeat
  simp

@[simp] theorem dropTask_mem (s n x) : (dropTask s n x).mem = s.mem := by
  unfold dropTask
  dsimp only
  split
  · simp
  · split <;> simp [foldl_mem, apply_ite State.mem]

@[simp] theorem orphanLaunch_mem (s p) : (orphanLaunch s p).mem = s.mem := by
  unfold orphanLaunch
  dsimp only
  rw [startNext_mem, foldl_mem, setLaunch_mem]
  intro s q
  split <;> simp [foldl_mem]

@[simp] theorem orphanKids_mem (s l n) : (orphanKids l s n).mem = s.mem := by
  unfold orphanKids
  exact foldl_mem orphanLaunch_mem _ _

@[simp] theorem enqueueJob_mem (s core id) : (enqueueJob core id s).mem = s.mem := rfl

@[simp] theorem outWrite_mem (s n c ob i j code) : (outWrite s n c ob i j code).mem = s.mem := by
  unfold outWrite
  dsimp only
  split <;> simp

@[simp] theorem tileWrite_mem (s n c m) : (tileWrite s n c m).1.mem = s.mem := foldl_mem (fun _ _ => outWrite_mem ..) _ s

@[simp] theorem saveArea_mem (s n c st tiles idx kidx group row) : (saveArea s n c st tiles idx kidx group row).mem = s.mem := by
  unfold saveArea
  simp

@[simp] theorem dequeueJob_mem (s core id) : (dequeueJob s core id).mem = s.mem := rfl

@[simp] theorem popToken_mem (s key) : (popToken s key).mem = s.mem := rfl

@[simp] theorem makeReady_mem (s l x) : (makeReady s l x).mem = s.mem := rfl

@[simp] theorem leaveCmd_mem (s p) : (leaveCmd s p).mem = s.mem := by
  unfold leaveCmd
  split <;> rfl

@[simp] theorem keepTable_mem (s w0 fs) : (keepTable s w0 fs).mem = s.mem := by
  unfold keepTable
  split <;> rfl

@[simp] theorem startClutch_mem (s l n x ci) : (startClutch l n x s ci).mem = s.mem := by
  unfold startClutch
  simp

@[simp] theorem startTask_mem (s l gang g p) : (startTask l gang g s p).mem = s.mem := by
  unfold startTask
  dsimp only
  rw [acquireOp_mem]
  split <;> simp [foldl_mem (startClutch_mem · l _ _ ·)]

@[simp] theorem forwardDie_mem (s x) : (forwardDie s x).mem = s.mem := by
  unfold forwardDie
  repeat' split
  · rfl
  · rfl
  · exact foldl_mem (fun s q => by split <;> simp) _ s

@[simp] theorem seatGang_mem (s x l seats) : (seatGang s x l seats).mem = s.mem := by
  unfold seatGang
  rw [settleLaunch_mem, foldl_mem (startTask_mem · l _ _ ·), setGang_mem]

@[simp] theorem stopJob_mem (s x head p) : (stopJob s x head p).mem = s.mem := by
  unfold stopJob
  dsimp only
  repeat' split
  all_goals simp

@[simp] theorem stopEach_mem (s x ps) : (stopEach s x ps).mem = s.mem := foldl_mem (fun s p => by split <;> simp) ps s

@[simp] theorem stopCmds_mem (s n x) : (stopCmds s n x).mem = s.mem := by
  unfold stopCmds
  simp

@[simp] theorem schedCount_mem (s col i) : (schedCount s col i).mem = s.mem := rfl

@[simp] theorem imageOut_mem (s col slot) : (imageOut s col slot).mem = s.mem := by
  unfold imageOut
  split
  · rfl
  · exact foldl_mem (fun s line => by dsimp only; split <;> simp) _ s

@[simp] theorem without_mem (s gs) : (without s gs).mem = s.mem :=
  foldl_mem (fun s _ => (setGang_mem ..).trans (foldl_mem (fun _ _ => modTask_mem ..) _ s)) gs s

@[simp] theorem doom_mem (s p) : (doom s p).mem = s.mem := by
  unfold doom
  split <;> rfl

@[simp] theorem imageBytesOf_mem (s col x) : (imageBytesOf s col x).2.mem = s.mem := by
  unfold imageBytesOf
  split <;> rfl

@[simp] theorem restoreSp_mem (s core off len img) : (restoreSp s core off len img).mem = s.mem := foldl_mem (fun _ _ => spPut_mem ..) _ s

@[simp] theorem seatClutches_mem (s core cs) : (seatClutches s core cs).mem = s.mem :=
  (foldl_mem (fun _ _ => modClutch_mem ..) cs _).trans (foldl_mem (fun _ _ => modClutch_mem ..) cs s)

@[simp] theorem moveCmds_mem (s core ps) : (moveCmds s core ps).mem = s.mem := foldl_mem (fun s p => by dsimp only; split <;> simp) ps s

@[simp] theorem reserveSeat_mem (s p) : (reserveSeat s p).mem = s.mem := by
  unfold reserveSeat
  dsimp only
  repeat' split
  all_goals simp

@[simp] theorem requeueCmd_mem (s p) : (requeueCmd s p).mem = s.mem := by
  unfold requeueCmd
  repeat' split
  all_goals rfl

@[simp] theorem userGoes_mem (s u) : (userGoes s u).mem = s.mem := by
  unfold userGoes
  repeat' split
  all_goals rfl

@[simp] theorem pagerSignal_mem (s) : (pagerSignal s).mem = s.mem := by
  unfold pagerSignal
  dsimp only
  split <;> simp

theorem gatherBytes_mem {l} : gatherBytes s l = some t → t.mem = s.mem := by
  fun_induction gatherBytes s l <;> grind -ring -linarith -order [→ gatherAll_mem]

@[simp] theorem setBus_mem (s c down v) : (setBus s c down v).mem = s.mem := rfl

@[simp] theorem countParity_mem (s c) : (countParity s c).mem = s.mem := rfl

@[simp] theorem noteBad_mem (s c down bs fails) : (noteBad s c down bs fails).mem = s.mem :=
  (foldl_mem (fun _ _ => postVbus_mem ..) _ _).trans (countParity_mem s c)

@[simp] theorem requeueRmw_mem (s c) : (requeueRmw s c).mem = s.mem := rfl

@[simp] theorem readShunts_mem (s) : (readShunts s).mem = s.mem := by
  unfold readShunts
  split <;> rfl

@[simp] theorem capRecord_mem (s p cause) : (capRecord s p cause).mem = s.mem := rfl

@[simp] theorem causeRecord_mem (s p cause) : (causeRecord s p cause).mem = s.mem := rfl

@[simp] theorem stepDown_mem (a p cause) : (stepDown a p cause).1.mem = a.1.mem := by
  unfold stepDown
  split
  · rfl
  · dsimp only
    split <;> simp

@[simp] theorem deviceStep_mem (s a cause l) : (deviceStep s a cause l).1.mem = a.1.mem := by
  fun_induction deviceStep s a cause l with
  | case1 => rfl
  | case2 _ _ _ _ ih => exact ih
  | case3 => exact foldl_fst_mem (fun a p => stepDown_mem a p cause) _ _

@[simp] theorem capDowns_mem (s amps) : (capDowns s amps).1.mem = s.mem := by
  have parts : ∀ (l : List Nat) (a : State × List Nat), (l.foldl (fun a p =>
      if partValid s p && limitOver s amps (.partition p) then stepDown a p 2 else a) a).1.mem = a.1.mem :=
    foldl_fst_mem (fun a p => by split <;> simp)
  have ranks : ∀ (l : List Nat) (a : State × List Nat), (l.foldl (fun a r =>
      if limitOver s amps (.rank r) then (limitParts s (.rank r)).foldl (fun a p => stepDown a p 3) a else a) a).1.mem = a.1.mem :=
    foldl_fst_mem (fun a r => by
      split
      · exact foldl_fst_mem (fun a p => stepDown_mem a p 3) _ a
      · rfl)
  unfold capDowns
  dsimp only
  split
  · rw [deviceStep_mem, ranks, parts]
  · rw [ranks, parts]

@[simp] theorem countMargin_mem (s amps p) : (countMargin s amps p).mem = s.mem := by
  unfold countMargin
  dsimp only
  repeat' split
  all_goals rfl

@[simp] theorem capUps_mem (s amps downs) : (capUps s amps downs).mem = s.mem := foldl_mem (fun _ _ => setPart_mem ..) _ s

@[simp] theorem capUnmet_mem (s0 amps s) : (capUnmet s0 amps s).mem = s.mem := by
  unfold capUnmet
  dsimp only
  rw [foldl_mem, foldl_mem]
  · exact fun _ _ => rfl
  · intro s p
    split <;> simp

@[simp] theorem setTherm_mem (s c n) : (setTherm s c n).mem = s.mem := by
  unfold setTherm
  simp

@[simp] theorem setSensors_mem (s c tj tb) : (setSensors s c tj tb).mem = s.mem := rfl

@[simp] theorem rampHolds_mem (s held) : (rampHolds s held).mem = s.mem := by
  unfold rampHolds
  rw [settleAll_mem]
  exact foldl_mem (fun s c => by simp [apply_ite State.mem]) _ s

@[simp] theorem shiftTimes_mem (s d) : (shiftTimes s d).mem = s.mem := rfl

theorem memory_wf_afterReset (s : State) : Memory.wf (afterReset s).mem = true := memory_wf_reset

@[simp] theorem fatalError_mem (s cause) : (fatalError s cause).mem = s.mem := rfl

@[simp] theorem setLink_mem (s l x) : (setLink s l x).mem = s.mem := by
  unfold setLink
  split <;> rfl

@[simp] theorem linkLog_mem (s l code w1 w2) : (linkLog s l code w1 w2).mem = s.mem := rfl

@[simp] theorem startWidth_mem (s l ls) : (startWidth s l ls).mem = s.mem := by
  fun_induction startWidth s l ls <;> simp [*]

@[simp] theorem dropRegions_mem (s) : (dropRegions s).mem = s.mem := by
  unfold dropRegions
  exact foldl_mem (fun _ _ => regionEnd_mem ..) _ _

@[simp] theorem losePort_mem (s) : (losePort s).mem = s.mem := by
  unfold losePort
  refine foldl_mem (fun s p => ?_) _ s
  rw [modClutch_mem]

@[simp] theorem readSensors_mem (s) : (readSensors s).mem = s.mem := by
  unfold readSensors
  dsimp only
  rw [foldl_mem]
  exact fun _ _ => setSensors_mem ..

@[simp] theorem tick_mem (s) : (tick s).mem = s.mem := rfl

@[simp] theorem count_mem (s block event n) : (count s block event n).mem = s.mem := by
  unfold count
  split <;> rfl

@[simp] theorem wordEvents_mem (s t cid i) : (wordEvents s t cid i).mem = t.mem := by
  unfold wordEvents
  dsimp only
  repeat' split
  all_goals simp

end Sys2Proof.Machine
end

section
/-! PROOF. Folds keep the canonical form of memory where each of their steps does. -/

namespace Sys2Proof.Machine

variable {s t : State}

theorem wf_of_mem_eq (h : t.mem = s.mem) (w : Memory.wf s.mem = true) : Memory.wf t.mem = true := h ▸ w

theorem foldl_mem_wf {β : Type} {f : State → β → State} (hf : ∀ s b, (f s b).mem = s.mem) (l : List β) (w : Memory.wf s.mem = true) :
    Memory.wf (l.foldl f s).mem = true := wf_of_mem_eq (foldl_mem hf l s) w

theorem foldl_wf {β : Type} {f : State → β → State} (hf : ∀ s b, Memory.wf s.mem = true → Memory.wf (f s b).mem = true) :
    ∀ (l : List β) {s : State}, Memory.wf s.mem = true → Memory.wf (l.foldl f s).mem = true
  | [], _, w => w
  | b :: l, s, w => foldl_wf hf l (hf s b w)

theorem foldl_fst_wf {β γ : Type} {f : State × γ → β → State × γ}
    (hf : ∀ p b, Memory.wf p.1.mem = true → Memory.wf (f p b).1.mem = true) :
    ∀ (l : List β) {p : State × γ}, Memory.wf p.1.mem = true → Memory.wf (l.foldl f p).1.mem = true
  | [], _, w => w
  | b :: l, p, w => foldl_fst_wf hf l (hf p b w)

theorem foldl_bind_wf {β : Type} {f : β → State → Option State}
    (hf : ∀ {s t b}, Memory.wf s.mem = true → f b s = some t → Memory.wf t.mem = true) :
    ∀ (l : List β) {o : Option State} {t : State}, (∀ {u}, o = some u → Memory.wf u.mem = true) →
      l.foldl (fun a b => a.bind (f b)) o = some t → Memory.wf t.mem = true
  | [], _, _, ho, h => ho h
  | b :: l, o, t, ho, h => by
    refine foldl_bind_wf hf l (o := o.bind (f b)) (fun {u} hu => ?_) h
    obtain ⟨v, hv, hb⟩ := Option.bind_eq_some_iff.mp hu
    exact hf (ho hv) hb

theorem foldl_some_wf {β : Type} {f : β → State → Option State}
    (hf : ∀ {s t b}, Memory.wf s.mem = true → f b s = some t → Memory.wf t.mem = true) {l : List β} {s t : State}
    (w : Memory.wf s.mem = true) (h : l.foldl (fun a b => a.bind (f b)) (some s) = some t) : Memory.wf t.mem = true :=
  foldl_bind_wf hf l (fun hu => Option.some.inj hu ▸ w) h

end Sys2Proof.Machine
end

section
/-! PROOF. Accesses, pending results, traced regions, loads, stores and atomics (06 R203 to R224, 10 R357 to R371), and registers written
by instructions: each keeps the canonical form of memory. `memoryWfRes` says it of what a word leaves. -/

namespace Sys2Proof.Machine

variable {s t : State} (w : Memory.wf s.mem = true)

include w

theorem memory_wf_walksFrom {die ctx l} : walksFrom s die ctx l = some t → Memory.wf t.mem = true := by
  fun_induction walksFrom s die ctx l <;> grind -ring -linarith -order [→ memory_wf_readsAt]

theorem memory_wf_walksAt {die ctx vas} (h : walksAt s die ctx vas = some t) : Memory.wf t.mem = true := by
  unfold walksAt at h
  grind -ring -linarith -order [→ memory_wf_walksFrom, Option.bind_eq_some_iff]

theorem memory_wf_accessTake {q ea n} : Memory.wf (accessTake q ea n s).mem = true := by
  unfold accessTake
  grind -ring -linarith -order [memory_wf_xlTake, Option.bind_eq_some_iff]

theorem memory_wf_takeAccess {q va n} (h : takeAccess s q va n = some t) : Memory.wf t.mem = true := by
  unfold takeAccess at h
  grind -ring -linarith -order [memory_wf_accessTake]

theorem memory_wf_fetchAt {c ia} : Memory.wf (fetchAt s c ia).2.mem = true := by
  unfold fetchAt
  grind -ring -linarith -order [holdRead_mem, → memory_wf_readAt, memory_wf_xlTake]

omit w in
/-- The `match` of the model is written out: the equation lemmas of `bindAccs` are too deep for Lean to build. -/
theorem bindAccs_cons (s cid id acq need a l) : ∃ (b : Bool) (f : Nat → Pend → Pend), bindAccs s cid id acq need (a :: l) =
    if b then
      match accValue s cid acq a.src with
      | none => none
      | some (s, x) => bindAccs (modPend s cid id (f x)) cid id acq need l
    else bindAccs s cid id acq need l := ⟨_, _, by rfl⟩

omit w in
theorem bindAccs_nil (s cid id acq need) : bindAccs s cid id acq need [] = some s := by rfl

theorem memory_wf_bindAccs {cid id acq need l} (h : bindAccs s cid id acq need l = some t) : Memory.wf t.mem = true := by
  induction l generalizing s with
  | nil =>
    rw [bindAccs_nil] at h
    cases h
    exact w
  | cons a l ih =>
    obtain ⟨b, f, heq⟩ := bindAccs_cons s cid id acq need a l
    rw [heq] at h
    split at h
    · split at h
      · cases h
      next h1 =>
        refine ih ?_ h
        rw [modPend_mem]
        exact memory_wf_accValue w h1
    · exact ih w h

theorem memory_wf_bindPends {cid need l} : bindPends s cid need l = some t → Memory.wf t.mem = true := by
  fun_induction bindPends s cid need l <;> grind -ring -linarith -order [→ memory_wf_bindAccs]

theorem memory_wf_bindBefore {cid ps pends} (h : bindBefore s cid ps pends = some t) : Memory.wf t.mem = true := memory_wf_bindPends w h

theorem memory_wf_bindOverlaps {cid ps} (h : bindOverlaps s cid ps = some t) : Memory.wf t.mem = true := memory_wf_bindBefore w h

theorem memory_wf_gatherChecks {acc lanes ea one take r} (htake : ∀ s i, Memory.wf s.mem = true → Memory.wf (take i s).mem = true)
    (h : gatherChecks s acc lanes ea one take = .stop r) : memoryWfRes r := by
  have waits : memoryWfRes (.wait .translation (lanes.foldl (fun s i => take i s) s)) := foldl_wf htake lanes w
  unfold gatherChecks at h
  dsimp only at h
  repeat' split at h
  all_goals cases h
  · exact waits
  · exact waits
  · trivial
  · trivial

theorem memory_wf_checkLanes {q lanes ea n reach r} (h : checkLanes s q lanes ea n reach = .stop r) : memoryWfRes r :=
  memory_wf_gatherChecks w (fun _ _ w => memory_wf_accessTake w) h

theorem memory_wf_readPlace {i p n} {y} (h : readPlace s i p n = some (t, y)) : Memory.wf t.mem = true := by
  unfold readPlace at h
  grind -ring -linarith -order [→ memory_wf_readChunks]

theorem memory_wf_aluWord {d wide f x} : memoryWfRes (aluWord d wide f x s) := w

theorem memory_wf_aluLong {d wide f x} : memoryWfRes (aluLong d wide f x s) := w

theorem memory_wf_binWord {n d a b f l} : memoryWfRes (binWord n d a b f l s) := w

theorem memory_wf_shiftWord {n d a b f l} : memoryWfRes (shiftWord n d a b f l s) := w

theorem memory_wf_unWord {wide n d a f l} : memoryWfRes (unWord wide n d a f l s) := w

theorem memory_wf_addSubWord {sub n d a b x} : memoryWfRes (addSubWord sub n d a b x s) := by
  unfold addSubWord
  grind -ring -linarith -order [memoryWfRes, setClutch_mem, memory_wf_aluWord]

theorem memory_wf_cmpWord {cc n d a b x} : memoryWfRes (cmpWord cc n d a b x s) := by
  unfold cmpWord
  grind -ring -linarith -order [memoryWfRes, setClutch_mem]

theorem memory_wf_execAadv {h0 d a b} (h : execAadv h0 d a b s = .next t) : Memory.wf t.mem = true := by
  refine memory_wf_word w (fun x s w => ?_) h
  dsimp only
  split <;> simp [memoryWfRes, *]

theorem memory_wf_execMov {h0 n d a} (h : execMov h0 n d a s = .next t) : Memory.wf t.mem = true := by
  refine memory_wf_word w (fun x s w => ?_) h
  grind -ring -linarith -order [memoryWfRes, setClutch_mem, memory_wf_aluWord]

theorem memory_wf_execShfl {h0 m n d a b} (h : execShfl h0 m n d a b s = .next t) : Memory.wf t.mem = true := by
  refine memory_wf_word w (fun x s w => ?_) h
  grind -ring -linarith -order [memoryWfRes, setClutch_mem, memory_wf_aluLong]

theorem memory_wf_execBcast {h0 n d a b} (h : execBcast h0 n d a b s = .next t) : Memory.wf t.mem = true := by
  refine memory_wf_word w (fun x s w => ?_) h
  grind -ring -linarith -order [memoryWfRes, setClutch_mem, memory_wf_aluLong]

omit w in
theorem memory_wf_laneTrap {ex cause addr r} (h : laneTrap ex cause addr = some r) : memoryWfRes r := by
  unfold laneTrap at h
  split at h
  · cases h
  · cases h
    trivial

theorem memory_wf_execBrx {h0 a} (h : execBrx h0 a s = .next t) : Memory.wf t.mem = true := by
  refine memory_wf_word w (fun x s w => ?_) h
  dsimp only
  split
  next h => exact memory_wf_laneTrap h
  next => exact w

theorem memory_wf_execCall {h0 n disp} (h : execCall h0 n disp s = .next t) : Memory.wf t.mem = true := by
  refine memory_wf_word w (fun x s w => ?_) h
  dsimp only
  split
  next h => exact memory_wf_laneTrap h
  next => exact w

theorem memory_wf_execCallx {h0 n a} (h : execCallx h0 n a s = .next t) : Memory.wf t.mem = true := by
  refine memory_wf_word w (fun x s w => ?_) h
  dsimp only
  split
  next h => exact memory_wf_laneTrap h
  next => exact w

theorem memory_wf_execRet {h0} (h : execRet h0 s = .next t) : Memory.wf t.mem = true := by
  refine memory_wf_word w (fun x s w => ?_) h
  dsimp only
  split
  next h => exact memory_wf_laneTrap h
  next =>
    split
    · trivial
    · exact w

theorem memory_wf_execKcmp {h0 cc n k a b} (h : execKcmp h0 cc n k a b s = .next t) : Memory.wf t.mem = true := by
  refine memory_wf_word w (fun x s w => ?_) h
  dsimp only
  split <;> simp [memoryWfRes, *]

omit w in
theorem memory_wf_slotTrap {c ex sl r} (h : slotTrap c ex sl = some r) : memoryWfRes r := by
  unfold slotTrap at h
  split at h
  · dsimp only at h
    split at h
    · cases h
    · cases h
      trivial
  · cases h

theorem memory_wf_dualWord {s0 s1 x} : memoryWfRes (dualWord s0 s1 x s) := by
  unfold dualWord
  dsimp only
  split
  next h => exact memory_wf_slotTrap h
  next h => exact memory_wf_slotTrap h
  next =>
    split
    · trivial
    · split
      · trivial
      · exact w

theorem memory_wf_execDualWord {stop s0 s1} (h : execDualWord stop s0 s1 s = .next t) : Memory.wf t.mem = true := by
  unfold execDualWord at h
  grind -ring -linarith -order [memory_wf_runWord, memory_wf_dualWord]

theorem memory_wf_execFcmp {h0 cc n d a b} (h : execFcmp h0 cc n d a b s = .next t) : Memory.wf t.mem = true := by
  refine memory_wf_word w (fun x s w => ?_) h
  grind -ring -linarith -order [memoryWfRes, setClutch_mem, memory_wf_aluWord]

theorem memory_wf_convWord {d wide rm f x} : memoryWfRes (convWord d wide rm f x s) := w

theorem memory_wf_gateCore {core} : Memory.wf (gateCore s core).mem = true := by
  unfold gateCore
  grind -ring -linarith -order [modCol_mem, → memory_wf_evictLines]

theorem memory_wf_gateColumn {c} : Memory.wf (gateColumn s c).mem = true := by
  refine foldl_wf (fun s p w => ?_) _ w
  split
  · exact memory_wf_gateCore w
  · rw [ungateCore_mem]
    exact w

theorem memory_wf_regSet {r d v} : Memory.wf (regSet s r d v).mem = true := by
  fun_cases regSet s r d v
  all_goals simp +zetaDelta [memory_wf_gateColumn, foldl_mem heatWatch_mem, *]

theorem memory_wf_regWrite {r off v} : Memory.wf (regWrite s r off v).1.mem = true := by
  unfold regWrite
  grind -ring -linarith -order [refuse_mem, memory_wf_regSet]

theorem memory_wf_newSlots {cid lane l x y} : newSlots s cid lane l = .ok t x y → Memory.wf t.mem = true := by
  fun_induction newSlots s cid lane l <;> grind -ring -linarith -order [→ memory_wf_readChunks, modClutch_mem]

theorem memory_wf_trackOther {cid lane ea chunks x y} (h : trackOther s cid lane ea chunks = .ok t x y) : Memory.wf t.mem = true := by
  unfold trackOther at h
  grind -ring -linarith -order [→ memory_wf_newSlots, modClutch_mem]

theorem memory_wf_trackSlots {cid lane ea chunks n x y} (h : trackSlots s cid lane ea chunks n = .ok t x y) : Memory.wf t.mem = true := by
  unfold trackSlots at h
  dsimp only at h
  repeat' split at h
  all_goals grind -ring -linarith -order [→ memory_wf_newSlots, → memory_wf_trackOther]

theorem memory_wf_trackLoad {cid lane ea chunks n x y} (h : trackLoad s cid lane ea chunks n = .ok t x y) : Memory.wf t.mem = true := by
  unfold trackLoad at h
  grind -ring -linarith -order [→ memory_wf_trackSlots, → holdLines_mem]

theorem memory_wf_trackLanes {cid n l x y ps} (h : trackLanes s cid n l = some (.ok t x y, ps)) : Memory.wf t.mem = true := by
  induction l generalizing s ps with
  | nil =>
    cases h
    exact w
  | cons p l ih =>
    unfold trackLanes at h
    split at h
    next h1 =>
      obtain ⟨⟨r, tags⟩, hq, h⟩ := Option.map_eq_some_iff.mp h
      cases h
      exact ih (memory_wf_trackLoad w h1) hq
    next =>
      simp only [Option.some.injEq, Prod.mk.injEq] at h
      exact memory_wf_trackLoad w h.1

theorem memory_wf_syncWhere {cid p l} : syncWhere cid p l s = some t → Memory.wf t.mem = true := by
  fun_induction syncWhere cid p l s <;> grind -ring -linarith -order [→ memory_wf_syncPerform]

theorem memory_wf_settleOps {cid} (h : settleOps s cid = some t) : Memory.wf t.mem = true := by
  unfold settleOps at h
  grind -ring -linarith -order [→ memory_wf_completeAll, → memory_wf_syncWhere]

theorem memory_wf_syncFirst {cid ps} (h : syncFirst s cid ps = some t) : Memory.wf t.mem = true := memory_wf_syncWhere w h

theorem memory_wf_releaseAll {cid sc} (h : releaseAll s cid sc = some t) : Memory.wf t.mem = true := by
  unfold releaseAll at h
  grind -ring -linarith -order [→ memory_wf_releaseOp, → memory_wf_settleOps]

theorem memory_wf_releaseOpt {cid l} (h : releaseOpt s cid l = some t) : Memory.wf t.mem = true := by
  unfold releaseOpt at h
  grind -ring -linarith -order [→ memory_wf_releaseAll]

theorem memory_wf_withAsks {cid f} (hf : ∀ s, Memory.wf s.mem = true → memoryWfRes (f s)) : memoryWfRes (withAsks cid s f) := by
  have r := hf (lend s (clutchAt s cid).core (asksOf s (2 * cid))) (by rw [lend_mem]; exact w)
  unfold withAsks
  dsimp only
  split
  · exact hf s w
  · split
    · exact hf _ w
    · cases hr : f (lend s (clutchAt s cid).core (asksOf s (2 * cid))) <;> simp_all [memoryWfRes]

theorem memory_wf_loadParts {c n mk l} : Memory.wf (loadParts s c n mk l).1.mem = true := by
  fun_induction loadParts s c n mk l <;> grind -ring -linarith -order [→ memory_wf_readChunks, regReadBy_mem]

theorem memory_wf_landTracked {x wide n d r} (hr : ∀ {t k y}, r.1 = .ok t k y → Memory.wf t.mem = true) :
    memoryWfRes (landTracked s x wide n d r) := by
  unfold landTracked
  split
  · trivial
  · exact w
  next h =>
    have w1 := hr h
    exact w1

theorem memory_wf_loadWord {n o d m x} : memoryWfRes (loadWord n o d m x s) := by
  refine memory_wf_withAsks w fun s w => ?_
  dsimp only
  split
  next h => exact memory_wf_checkLanes w h
  next =>
    split
    · trivial
    · split
      · rw [memoryWfRes, weightAsk_mem]
        exact w
      · split
        · exact w
        next h1 =>
          have w1 := memory_wf_syncFirst w h1
          split
          · split
            next h2 => exact memory_wf_landTracked w1 fun hr => memory_wf_trackLanes w1 (h2.trans (by rw [← hr]))
            next => exact w1
          · split <;> exact memory_wf_loadParts w1

theorem memory_wf_trackVec {cid lane ea ch x y} (h : trackVec s cid lane ea ch = .ok t x y) : Memory.wf t.mem = true := by
  unfold trackVec at h
  grind -ring -linarith -order [→ memory_wf_trackOther, → holdLines_mem]

theorem memory_wf_trackVecs {x k d ea l} : memoryWfRes (trackVecs s x k d ea l) := by
  induction l generalizing s with
  | nil => exact w
  | cons p l ih =>
    unfold trackVecs
    split
    · trivial
    · exact w
    next h =>
      have w1 := memory_wf_trackVec w h
      exact ih w1

theorem memory_wf_execLdv {h0 n d m} (h : execLdv h0 n d m s = .next t) : Memory.wf t.mem = true := by
  refine memory_wf_word w (fun x s w => memory_wf_withAsks w fun s w => ?_) h
  dsimp only
  split
  next h => exact memory_wf_checkLanes w h
  next =>
    split
    · trivial
    · split
      · rw [memoryWfRes, weightAsk_mem]
        exact w
      · split
        · exact w
        next h1 =>
          have w1 := memory_wf_syncFirst w h1
          split
          · exact memory_wf_trackVecs w1
          · change Memory.wf (List.foldl _ (_ : State × List PAcc) _).1.mem = true
            exact foldl_fst_wf (fun _ _ w => by exact memory_wf_loadParts w) _ w1

omit w in
/-- The bytes of a store that goes to its column, chunk by chunk. -/
theorem memory_wf_storeChunksQueue {core : Nat} : ∀ {ch : List (Nat × Nat)} {o : Option (State × List Byte)} {bs : List Byte},
    (∀ {u bs}, o = some (u, bs) → Memory.wf u.mem = true) →
    ch.foldl (fun a k => a.bind (fun (q : State × List Byte) =>
      (storeQueue q.1 core k.1 (q.2.take k.2)).map (fun s => (s, q.2.drop k.2)))) o = some (t, bs) → Memory.wf t.mem = true
  | [], _, _, ho, h => ho h
  | _ :: l, _, _, ho, h => by
    refine memory_wf_storeChunksQueue (ch := l) (fun {u bs} hu => ?_) h
    obtain ⟨⟨q, rest⟩, hq, hu⟩ := Option.bind_eq_some_iff.mp hu
    obtain ⟨v, hv, hu⟩ := Option.map_eq_some_iff.mp hu
    cases hu
    exact memory_wf_storeQueue (ho hq) hv

theorem memory_wf_storeLanes {c rel l} (h : storeLanes s c rel l = some t) : Memory.wf t.mem = true := by
  induction l generalizing s with
  | nil =>
    cases h
    exact w
  | cons p l ih =>
    unfold storeLanes at h
    dsimp only at h
    split at h
    · cases h
    next s1 h1 =>
      refine ih ?_ h
      split at h1
      · cases h1
        exact memory_wf_regWrite w
      · cases h1
        rw [spWrite_mem]
        exact w
      · split at h1
        · obtain ⟨⟨u, rest⟩, hu, rfl⟩ := Option.map_eq_some_iff.mp h1
          exact memory_wf_storeChunksQueue (fun hs => by cases hs; exact w) hu
        · exact memory_wf_storeL1 w h1

theorem memory_wf_storeAll {x c rel ps} : memoryWfRes (storeAll s x c rel ps) := by
  unfold storeAll
  dsimp only
  split <;> grind -ring -linarith -order [memoryWfRes, → memory_wf_bindOverlaps, → memory_wf_syncFirst, → memory_wf_releaseOpt,
    → memory_wf_storeLanes]

theorem memory_wf_execSt {h0 n o d m} (h : execSt h0 n o d m s = .next t) : Memory.wf t.mem = true := by
  refine memory_wf_word w (fun x s w => ?_) h
  dsimp only
  split
  next h => exact memory_wf_checkLanes w h
  next =>
    split
    · repeat' split
      · trivial
      · trivial
      · exact w
    · exact memory_wf_storeAll w

theorem memory_wf_execStv {h0 n d m} (h : execStv h0 n d m s = .next t) : Memory.wf t.mem = true := by
  refine memory_wf_word w (fun x s w => ?_) h
  dsimp only
  split
  next h => exact memory_wf_checkLanes w h
  next =>
    split
    · repeat' split
      · trivial
      · trivial
      · exact w
    · exact memory_wf_storeAll w

theorem memory_wf_bareStop {c vas r} (h : bareStop s c vas = some r) : memoryWfRes r := by
  unfold bareStop at h
  split at h
  · cases h
    refine foldl_wf (fun s va w => ?_) vas w
    split
    · exact memory_wf_xlTake w ..
    · exact memory_wf_xlTake w ..
    · exact w
  · cases h

theorem memory_wf_prefetchLine {i line} : Memory.wf (prefetchLine s i line).mem = true := by
  have w1 : Memory.wf (if isWeight s line then weightOld s i line else s).mem = true := by
    split
    · rw [weightOld_mem]
      exact w
    · exact w
  unfold prefetchLine
  generalize (if isWeight s line then weightOld s i line else s) = u at w1 ⊢
  dsimp only
  split
  · exact w1
  · split
    · exact w1
    · exact memory_wf_getD (fun h => memory_wf_cacheFillOp w1 h) w1

theorem memory_wf_weightToSlice {i line} : Memory.wf (weightToSlice s i line).mem = true := by
  unfold weightToSlice
  grind -ring -linarith -order [memory_wf_sliceEnter, weightOld_mem]

theorem memory_wf_prefetchSlice {i line} : Memory.wf (prefetchSlice s i line).mem = true := by
  unfold prefetchSlice
  grind -ring -linarith -order [memory_wf_sliceTouch, → memory_wf_readAt, memory_wf_weightToSlice]

theorem memory_wf_execPrf {h0 sliceOnly m} (h : execPrf h0 sliceOnly m s = .next t) : Memory.wf t.mem = true := by
  refine memory_wf_word w (fun x s w => ?_) h
  refine foldl_wf (fun s l w => ?_) _ w
  split
  · exact memory_wf_prefetchSlice w
  · exact memory_wf_prefetchLine w

theorem memory_wf_execFence {h0 f sc} (h : execFence h0 f sc s = .next t) : Memory.wf t.mem = true := by
  refine memory_wf_word w (fun x s w => ?_) h
  grind -ring -linarith -order [memoryWfRes, acquireOp_mem, → memory_wf_settleOps, → memory_wf_releaseAll]

theorem memory_wf_execCwb {h0 m} (h : execCwb h0 m s = .next t) : Memory.wf t.mem = true := by
  refine memory_wf_word w (fun x s w => ?_) h
  grind -ring -linarith -order [memoryWfRes, → memory_wf_wbLines, → memory_wf_bareStop]

theorem memory_wf_execCinv {h0 m} (h : execCinv h0 m s = .next t) : Memory.wf t.mem = true := by
  refine memory_wf_word w (fun x s w => ?_) h
  grind -ring -linarith -order [memoryWfRes, → memory_wf_evictLines, → memory_wf_bareStop]

theorem memory_wf_bankAtomic {i o} {y} (h : bankAtomic s i o = some (t, y)) : Memory.wf t.mem = true := by
  unfold bankAtomic at h
  grind -ring -linarith -order [holdReq_mem, → memory_wf_drainAccepted, → memory_wf_atomicPrep, → memory_wf_syncRmw,
    Option.bind_eq_some_iff, Option.map_eq_some_iff]

theorem memory_wf_atomLanes {x c op n ret id b cmp bankWin mk l y} (h : atomLanes s x c op n ret id b cmp bankWin mk l = some (t, y)) :
    Memory.wf t.mem = true := by
  induction l generalizing s y with
  | nil => 
    cases h
    exact w
  | cons p l ih =>
    unfold atomLanes at h
    dsimp only at h
    split at h
    · cases h
    next s1 src h1 =>
      split at h
      · cases h
      next h2 =>
        cases h
        refine ih ?_ h2
        split at h1
        · cases h1
          simpa using w
        · cases h1
          exact w
        · split at h1
          · exact memory_wf_bankAtomic w h1
          · obtain ⟨u, hu, h1⟩ := Option.map_eq_some_iff.mp h1
            cases h1
            have w1 := memory_wf_atomicPrep w hu
            exact w1

theorem memory_wf_atomicWord {op n o d base b x} : memoryWfRes (atomicWord op n o d base b x s) := by
  unfold atomicWord
  dsimp only
  split
  next h => exact memory_wf_checkLanes w h
  next =>
    split
    · exact w
    next h1 =>
      split
      · exact w
      next h2 =>
        split
        · exact w
        next h3 =>
          have w3 := memory_wf_atomLanes (memory_wf_releaseOpt (memory_wf_bindOverlaps w h1) h2) h3
          split <;> exact w3

end Sys2Proof.Machine
end

section
/-! PROOF. Regions, engine commands, installs, queues, rings, launches, barriers and deques (10 R368 to R378, 12 R422 to R447): each act and
each word keeps the canonical form of memory. -/

namespace Sys2Proof.Machine

variable {s t : State} (w : Memory.wf s.mem = true)

include w

theorem memory_wf_execAtxBegin {h0 d disp} (h : execAtxBegin h0 d disp s = .next t) : Memory.wf t.mem = true := by
  refine memory_wf_word w (fun x s w => ?_) h
  grind -ring -linarith -order [memoryWfRes, setClutch_mem, memory_wf_regionAbort]

theorem memory_wf_execAtxEnd {h0 d} (h : execAtxEnd h0 d s = .next t) : Memory.wf t.mem = true := by
  refine memory_wf_word w (fun x s w => ?_) h
  dsimp only
  repeat' split
  all_goals trivial

theorem memory_wf_execAtxAbort {h0 code} (h : execAtxAbort h0 code s = .next t) : Memory.wf t.mem = true := by
  refine memory_wf_word w (fun x s w => ?_) h
  split <;> trivial

theorem memory_wf_execAtxPin {h0 a} (h : execAtxPin h0 a s = .next t) : Memory.wf t.mem = true := by
  refine memory_wf_word w (fun x s w => ?_) h
  repeat' split
  all_goals trivial

theorem memory_wf_prepLines {i l} : prepLines s i l = some t → Memory.wf t.mem = true := by
  fun_induction prepLines s i l <;> grind -ring -linarith -order [→ memory_wf_atomicPrep]

theorem memory_wf_performChunks {l ls} : Memory.wf (performChunks s l ls).mem = true := by
  fun_induction performChunks s l ls <;> grind -ring -linarith -order [memory_wf_performBytes]

theorem memory_wf_commitNow {cid g} : Memory.wf (commitNow s cid g).mem = true := by
  unfold commitNow
  dsimp only
  split
  · exact memory_wf_regionAbort w _ _
  · exact memory_wf_takeTrap w ..
  · rw [forwardLines_mem, acquireOp_mem, setClutch_mem]
    exact foldl_wf (fun _ _ w => memory_wf_performChunks w) _ w

theorem memory_wf_execRegionCommit {cid} (h : execRegionCommit cid s = .next t) : Memory.wf t.mem = true := by
  unfold execRegionCommit at h
  dsimp only at h
  repeat' split at h
  all_goals grind -ring -linarith -order [→ memory_wf_releaseAll, forCommit_mem, → memory_wf_prepLines, → gatherLines_mem,
    transientRequest_mem, → memory_wf_readsAt, memory_wf_commitNow]

theorem memory_wf_publish {r e} (h : publish s r e = some t) : Memory.wf t.mem = true := by
  unfold publish at h
  repeat' split at h
  all_goals grind -ring -linarith -order [modTask_mem, → memory_wf_performAt, → memory_wf_takeAccess]

theorem memory_wf_completeCmd {id} (h : completeCmd s id = some t) : Memory.wf t.mem = true := by
  unfold completeCmd at h
  grind -ring -linarith -order [delCmd_mem, setEng_mem, → memory_wf_publish]

theorem memory_wf_failCmd {id code sub detail} (h : failCmd s id code sub detail = some t) : Memory.wf t.mem = true := by
  unfold failCmd at h
  grind -ring -linarith -order [setEng_mem, → memory_wf_completeCmd, pastStop_mem]

omit w in
theorem orStay_next {o} (h : orStay s o = .next t) : o = some t ∨ t = s := by
  unfold orStay at h
  split at h <;> cases h
  · exact .inl rfl
  · exact .inr rfl

theorem memory_wf_execEngineCommandComplete {id} (h : execEngineCommandComplete id s = .next t) : Memory.wf t.mem = true := by
  unfold execEngineCommandComplete at h
  repeat' split at h
  all_goals grind -ring -linarith -order [→ memory_wf_completeCmd, → orStay_next]

theorem memory_wf_issueRead {x e kind sc va blk extra after} (he : ∀ r, extra = some r → memoryWfRes r)
    (ha : ∀ s, Memory.wf s.mem = true → Memory.wf (after s).mem = true) : memoryWfRes (issueRead s x e kind sc va blk extra after) := by
  unfold issueRead
  repeat' split
  · exact he _ rfl
  · exact w
  · exact w
  next h => exact ha _ (by rw [newCmd_mem]; exact memory_wf_releaseAll w h)

theorem memory_wf_issueCmd {e kind sc base extra after x} (he : ∀ s c blk r, extra s c blk = some r → memoryWfRes r)
    (ha : ∀ c blk s, Memory.wf s.mem = true → Memory.wf (after c blk s).mem = true) :
    memoryWfRes (issueCmd e kind sc base extra after x s) := by
  refine memory_wf_withAsks w fun s w => ?_
  dsimp only
  split
  · trivial
  · split
    · trivial
    · split
      next h => exact memory_wf_checkLanes w h
      next =>
        split
        · exact (congrArg Memory.wf (weightAsk_mem ..)).trans w
        · split
          · exact w
          next h1 =>
            split
            · exact memory_wf_syncFirst w h1
            next h2 =>
              obtain ⟨p, -, h2⟩ := Option.bind_eq_some_iff.mp h2
              exact memory_wf_issueRead (memory_wf_readPlace (memory_wf_syncFirst w h1) h2) (he _ _ _) (ha _ _)

/-- The engine commands with no check and no act of their own. -/
theorem memory_wf_issuePlain {e kind sc base x} : memoryWfRes (issueCmd e kind sc base noCheck noMore x s) :=
  memory_wf_issueCmd w (fun _ _ _ _ h => nomatch h) (fun _ _ _ w => w)

theorem memory_wf_execAstr {h0 e a} (h : execAstr h0 e a s = .next t) : Memory.wf t.mem = true := by
  refine memory_wf_word w (fun x s w => memory_wf_issueCmd w (fun s c blk r h => ?_) (fun _ _ _ w => ?_)) h
  · unfold astrCheck at h
    dsimp only at h
    split at h <;> cases h
    trivial
  · unfold astrStart
    rw [setQueue_mem]
    exact w

omit w in
theorem memory_wf_ctxFault {x e r} (h : ctxFault s x e = some r) : memoryWfRes r := by
  unfold ctxFault at h
  grind -ring -linarith -order [memoryWfRes]

theorem memory_wf_execTlwait {h0 e a} (h : execTlwait h0 e a s = .next t) : Memory.wf t.mem = true := by
  refine memory_wf_word w (fun x s w => ?_) h
  grind -ring -linarith -order [memoryWfRes, modClutch_mem, → memory_wf_ctxFault, tlReturn_mem]

theorem memory_wf_execTlget {h0 f d e} (h : execTlget h0 f d e s = .next t) : Memory.wf t.mem = true := by
  refine memory_wf_word w (fun x s w => ?_) h
  grind -ring -linarith -order [memoryWfRes, → memory_wf_ctxFault, pendValue_mem]

theorem memory_wf_execTlgetClr {h0 d e} (h : execTlgetClr h0 d e s = .next t) : Memory.wf t.mem = true := by
  refine memory_wf_word w (fun x s w => ?_) h
  grind -ring -linarith -order [memoryWfRes, setEng_mem, → memory_wf_ctxFault, pendValue_mem]

theorem memory_wf_execWqry {h0 d a} (h : execWqry h0 d a s = .next t) : Memory.wf t.mem = true := by
  refine memory_wf_word w (fun x s w => ?_) h
  dsimp only
  split
  next h => exact memory_wf_gatherChecks w (fun _ _ w => memory_wf_accessTake w) h
  next =>
    split
    · exact w
    · exact w

theorem memory_wf_sliceWrite {die p bs} (h : sliceWrite s die p bs = some t) : Memory.wf t.mem = true := by
  unfold sliceWrite at h
  split at h <;> grind -ring -linarith -order [→ memory_wf_performAt, spWrite_mem]

theorem memory_wf_writePieces {die l ls} : writePieces s die l ls = some t → Memory.wf t.mem = true := by
  fun_induction writePieces s die l ls <;> grind -ring -linarith -order [→ memory_wf_sliceWrite]

theorem memory_wf_copyWord {k b} (h : copyWord s k b = some t) : Memory.wf t.mem = true := by
  unfold copyWord at h
  grind -ring -linarith -order [→ memory_wf_evictLines, spWrite_mem]

theorem memory_wf_copyEnd {id k b} (h : copyEnd s id k b = some t) : Memory.wf t.mem = true := by
  unfold copyEnd at h
  grind -ring -linarith -order [setCmd_mem, → memory_wf_copyWord]

theorem memory_wf_fetchPieces {q die ps} (h : fetchPieces s q die ps = some t) : Memory.wf t.mem = true := memory_wf_readsAt w h

theorem memory_wf_takePieces {q l} : takePieces s q l = some t → Memory.wf t.mem = true := by
  fun_induction takePieces s q l <;> grind -ring -linarith -order [→ memory_wf_takeAccess]

theorem memory_wf_chunkTake {k b} (h : chunkTake s k b = some t) : Memory.wf t.mem = true := by
  unfold chunkTake at h
  grind -ring -linarith -order [→ memory_wf_fetchPieces, → memory_wf_takePieces]

theorem memory_wf_copyChunk {id k b} (h : copyChunk s id k b = some t) : Memory.wf t.mem = true := by
  unfold copyChunk at h
  grind -ring -linarith -order [setCmd_mem, → memory_wf_failCmd, cmdFlags_mem, → memory_wf_writePieces, freeBytes_mem,
    → memory_wf_copyEnd, → memory_wf_chunkTake]

theorem memory_wf_execCopyChunk {id} (h : execCopyChunk id s = .next t) : Memory.wf t.mem = true := by
  unfold execCopyChunk at h
  dsimp only at h
  repeat' split at h
  all_goals grind -ring -linarith -order [→ memory_wf_failCmd, → memory_wf_copyEnd, → memory_wf_copyChunk, → orStay_next]

theorem memory_wf_streamFail {id k q code a} (h : streamFail s id k q code a = some t) : Memory.wf t.mem = true := by
  unfold streamFail at h
  grind -ring -linarith -order [modTask_mem, → memory_wf_failCmd, setQueue_mem]

theorem memory_wf_streamRead {id k p n b} (h : streamRead s id k p n = .ok (t, b)) : Memory.wf t.mem = true := by
  unfold streamRead at h
  dsimp only at h
  repeat' split at h
  all_goals cases h
  next h =>
    rw [dropAsks_mem, takeBack_mem]
    exact memory_wf_readPlace (by rw [lend_mem]; exact w) h

theorem memory_wf_streamRead_error {id k p n} (h : streamRead s id k p n = .error t) : Memory.wf t.mem = true := by
  unfold streamRead at h
  dsimp only at h
  repeat' split at h
  all_goals cases h
  · rw [weightAsk_mem]
    exact w
  · exact w

theorem memory_wf_streamAt {id k i q n va} : Memory.wf (streamAt s id k i q n va).mem = true := by
  unfold streamAt
  split
  · exact memory_wf_accessTake w
  · exact memory_wf_getD (memory_wf_streamFail w) w
  next =>
    split
    next h => exact memory_wf_streamRead_error w h
    next h =>
      rw [streamPut_mem]
      exact memory_wf_streamRead w h

theorem memory_wf_execStreamElement {id} (h : execStreamElement id s = .next t) : Memory.wf t.mem = true := by
  unfold execStreamElement at h
  dsimp only at h
  repeat' split at h
  all_goals grind -ring -linarith -order [memory_wf_accessTake, → memory_wf_streamFail, memory_wf_streamAt, → memory_wf_streamRead,
    → memory_wf_streamRead_error, → orStay_next]

omit w in
/-- What a read of an engine leaves keeps the canonical form. -/
def nmeGotWf : NmeGot → Prop
  | .ok s _ => Memory.wf s.mem = true
  | .poison s _ => Memory.wf s.mem = true
  | .wait => True

theorem memory_wf_nmeReadFrom {k acc l} : nmeGotWf (nmeReadFrom s k acc l) := by
  fun_induction nmeReadFrom s k acc l <;> grind -ring -linarith -order [nmeGotWf, → memory_wf_readAt]

theorem memory_wf_nmeRead {k va n b} (h : nmeRead s k va n = .ok t b) : Memory.wf t.mem = true := by
  have r := memory_wf_nmeReadFrom w (k := k) (acc := []) (l := pieces va n)
  rwa [show nmeReadFrom s k [] (pieces va n) = _ from h] at r

theorem memory_wf_nmeRead_poison {k va n a} (h : nmeRead s k va n = .poison t a) : Memory.wf t.mem = true := by
  have r := memory_wf_nmeReadFrom w (k := k) (acc := []) (l := pieces va n)
  rwa [show nmeReadFrom s k [] (pieces va n) = _ from h] at r

theorem memory_wf_nmeWriteFrom {k l ls} : nmeWriteFrom s k l ls = some t → Memory.wf t.mem = true := by
  fun_induction nmeWriteFrom s k l ls <;> grind -ring -linarith -order [→ memory_wf_performAt]

theorem memory_wf_nmeWrite {k va bs} (h : nmeWrite s k va bs = some t) : Memory.wf t.mem = true := memory_wf_nmeWriteFrom w h

omit w in
/-- What an engine's loop leaves keeps the canonical form. -/
def nmeEndWf : NmeEnd → Prop
  | .done s _ => Memory.wf s.mem = true
  | .fail s .. => Memory.wf s.mem = true
  | .wait => True

theorem memory_wf_gthRows {k n m} : nmeEndWf (gthRows s k n m) := by
  fun_induction gthRows s k n m <;> grind -ring -linarith -order [nmeEndWf, → memory_wf_nmeRead, → memory_wf_nmeRead_poison,
    → memory_wf_nmeWrite]

omit w in
/-- What reading the sources of a reduction leaves keeps the canonical form. -/
def redGotWf : RedGot → Prop
  | .ok s _ => Memory.wf s.mem = true
  | .poison s _ => Memory.wf s.mem = true
  | .wait => True

theorem memory_wf_redRead {k n j l} : redGotWf (redRead s k n j l) := by
  fun_induction redRead s k n j l <;> grind -ring -linarith -order [redGotWf, → memory_wf_nmeRead, → memory_wf_nmeRead_poison]

theorem memory_wf_redRead_ok {k n j l xs} (h : redRead s k n j l = .ok t xs) : Memory.wf t.mem = true := by
  have r := memory_wf_redRead w (k := k) (n := n) (j := j) (l := l)
  rwa [h] at r

theorem memory_wf_redRead_poison {k n j l a} (h : redRead s k n j l = .poison t a) : Memory.wf t.mem = true := by
  have r := memory_wf_redRead w (k := k) (n := n) (j := j) (l := l)
  rwa [h] at r

theorem memory_wf_redLoop {k ty j f m} : nmeEndWf (redLoop s k ty j f m) := by
  fun_induction redLoop s k ty j f m <;> grind -ring -linarith -order [nmeEndWf, → memory_wf_redRead_ok, → memory_wf_redRead_poison,
    → memory_wf_nmeWrite]

theorem memory_wf_nmeFree {k fl r} : nmeEndWf (nmeFree s k fl r) := by
  unfold nmeFree
  dsimp only
  split
  · trivial
  next h => exact memory_wf_nmeWrite (by rw [freeW_mem, freeBytes_mem]; exact w) h

theorem memory_wf_nearRedRun {k} : nmeEndWf (nearRedRun s k) := by
  unfold nearRedRun
  dsimp only
  split
  · exact memory_wf_nmeFree w
  · exact memory_wf_redLoop w

theorem memory_wf_cvtLoop {k ty i f m} : nmeEndWf (cvtLoop s k ty i f m) := by
  fun_induction cvtLoop s k ty i f m <;> grind -ring -linarith -order [nmeEndWf, → memory_wf_nmeRead, → memory_wf_nmeRead_poison,
    cvtOpen_mem, → memory_wf_nmeWrite]

theorem memory_wf_cvtRun {k} : nmeEndWf (cvtRun s k) := by
  unfold cvtRun
  dsimp only
  have r := memory_wf_cvtLoop w (k := k) (ty := (cvtTy k.block).getD .bf16) (i := 0) (f := 0) (m := (blkField k.block 0x10 0 32 + 31) /
    32)
  split
  next h1 =>
    rw [h1] at r
    repeat' split
    · exact r
    · trivial
    next h => exact memory_wf_nmeWrite ((congrArg Memory.wf (freeBytes_mem ..)).trans r) h
  · exact r

theorem memory_wf_nmeRun {k} : nmeEndWf (nmeRun s k) := by
  unfold nmeRun
  split
  · exact memory_wf_gthRows w
  · exact memory_wf_nearRedRun w
  · exact memory_wf_cvtRun w

theorem memory_wf_nmeRun_done {k f} (h : nmeRun s k = .done t f) : Memory.wf t.mem = true := by
  have r := memory_wf_nmeRun w (k := k)
  rwa [h] at r

theorem memory_wf_nmeRun_fail {k code a f} (h : nmeRun s k = .fail t code a f) : Memory.wf t.mem = true := by
  have r := memory_wf_nmeRun w (k := k)
  rwa [h] at r

theorem memory_wf_nmeTake {k} (h : nmeTake s k = some t) : Memory.wf t.mem = true := by
  unfold nmeTake at h
  grind -ring -linarith -order [→ memory_wf_walksAt]

theorem memory_wf_execNmeCommandRun {id} (h : execNmeCommandRun id s = .next t) : Memory.wf t.mem = true := by
  unfold execNmeCommandRun at h
  repeat' split at h
  all_goals grind -ring -linarith -order [setCmd_mem, → memory_wf_failCmd, cmdFlags_mem, → memory_wf_nmeTake, → memory_wf_nmeRun_done,
    → memory_wf_nmeRun_fail, → orStay_next]

theorem memory_wf_chargeUnits {l} : Memory.wf (List.foldl chargeUnit s l).mem = true :=
  foldl_wf (fun _ _ w => (congrArg Memory.wf (chargeUnit_mem ..)).trans w) l w

theorem memory_wf_execInstallStart {id} (h : execInstallStart id s = .next t) : Memory.wf t.mem = true := by
  unfold execInstallStart at h
  dsimp only at h
  repeat' split at h
  all_goals grind -ring -linarith -order [→ memory_wf_walksAt, → memory_wf_failCmd, → orStay_next, memory_wf_chargeUnits]

theorem memory_wf_execInstallUnitProgram {id failed} (h : execInstallUnitProgram id failed s = .next t) : Memory.wf t.mem = true := by
  unfold execInstallUnitProgram at h
  dsimp only at h
  repeat' split at h
  all_goals grind -ring -linarith -order [holdReads_mem, → memory_wf_homeReads, → memory_wf_failCmd, setInstall_mem, abandonInstall_mem,
    → orStay_next]

theorem memory_wf_execInstallCommit {id} (h : execInstallCommit id s = .next t) : Memory.wf t.mem = true := by
  unfold execInstallCommit at h
  grind -ring -linarith -order [setInstall_mem, broadcast_mem]

theorem memory_wf_execInstallComplete {id} (h : execInstallComplete id s = .next t) : Memory.wf t.mem = true := by
  unfold execInstallComplete at h
  split at h
  next x _ _ =>
    split at h
    · cases h; exact w
    · have d := foldl_mem (fun s u => freeUnit_mem s u) x.old s
      grind -ring -linarith -order [→ memory_wf_completeCmd, dropInstall_mem, → orStay_next]
  · cases h; exact w

theorem memory_wf_execReadingRoomFill {unit flashError} (h : execReadingRoomFill unit flashError s = .next t)
    : Memory.wf t.mem = true := by
  unfold execReadingRoomFill at h
  dsimp only at h
  repeat' split at h
  all_goals cases h
  · exact w
  · rw [serveAsks_mem]
    exact w
  · exact w
  all_goals
    rw [serveAsks_mem]
    exact foldl_wf (fun _ _ w => memory_wf_weightPut w ..) _ w

omit w in
theorem memory_wf_descFault {x d r} (h : descFault s x d = some r) : memoryWfRes r := by
  unfold descFault at h
  grind -ring -linarith -order [memoryWfRes, Option.bind_eq_some_iff]

theorem memory_wf_execMplane {h0 a b c} (h : execMplane h0 a b c s = .next t) : Memory.wf t.mem = true := by
  refine memory_wf_word w (fun x s w => ?_) h
  dsimp only
  split
  next h => exact memory_wf_descFault h
  next =>
    split
    · exact w
    · split
      · exact w
      next h => exact foldl_wf (fun _ _ w => by rw [spWrite_mem]; exact w) _ (memory_wf_bindOverlaps w h)

theorem memory_wf_execMnplane {h0 d a c} (h : execMnplane h0 d a c s = .next t) : Memory.wf t.mem = true := by
  refine memory_wf_word w (fun x s w => ?_) h
  grind -ring -linarith -order [memoryWfRes, setClutch_mem, → memory_wf_descFault, Option.bind_eq_some_iff]

theorem memory_wf_execMcmp {h0 fmt hi d a m} (h : execMcmp h0 fmt hi d a m s = .next t) : Memory.wf t.mem = true := by
  refine memory_wf_word w (fun x s w => ?_) h
  dsimp only
  split <;> simp [memoryWfRes, *]

theorem memory_wf_execMscl {h0 fmt st asValue d a} (h : execMscl h0 fmt st asValue d a s = .next t) : Memory.wf t.mem = true := by
  refine memory_wf_word w (fun x s w => ?_) h
  dsimp only
  split <;> simp [memoryWfRes, *]

omit w in
theorem memory_wf_ringCfgFault {x t0 n v r} (h : ringCfgFault s x t0 n v = some r) : memoryWfRes r := by
  unfold ringCfgFault at h
  grind -ring -linarith -order [memoryWfRes]

theorem memory_wf_execRingCfg {h0 n a} (h : execRingCfg h0 n a s = .next t) : Memory.wf t.mem = true := by
  refine memory_wf_word w (fun x s w => ?_) h
  grind -ring -linarith -order [memoryWfRes, setRing_mem, → memory_wf_ringCfgFault, Option.bind_eq_some_iff]

omit w in
theorem memory_wf_ringFault {x n role r} (h : ringFault s x n role = some r) : memoryWfRes r := by
  unfold ringFault at h
  grind -ring -linarith -order [memoryWfRes]

theorem memory_wf_execRingAcq {h0 n r d} (h : execRingAcq h0 n r d s = .next t) : Memory.wf t.mem = true := by
  refine memory_wf_word w (fun x s w => ?_) h
  grind -ring -linarith -order [memoryWfRes, acquireOp_mem, pendValue_mem, setRing_mem, → memory_wf_ringFault]

theorem memory_wf_execRingRel {h0 n r} (h : execRingRel h0 n r s = .next t) : Memory.wf t.mem = true := by
  refine memory_wf_word w (fun x s w => ?_) h
  grind -ring -linarith -order [memoryWfRes, → memory_wf_releaseAll, setRing_mem, → memory_wf_ringFault]

omit w in
theorem memory_wf_queueTrap {q x} : memoryWfRes (queueTrap q x) := trivial

theorem memory_wf_execQpush {h0 ty d q} (h : execQpush h0 ty d q s = .next t) : Memory.wf t.mem = true := by
  refine memory_wf_word w (fun x s w => ?_) h
  dsimp only
  repeat' split
  all_goals grind -ring -linarith -order [memoryWfRes, memory_wf_queueTrap, → memory_wf_releaseAll, pushLanes_mem, setQueue_mem]

theorem memory_wf_execQpop {h0 ty d q} (h : execQpop h0 ty d q s = .next t) : Memory.wf t.mem = true := by
  refine memory_wf_word w (fun x s w => ?_) h
  dsimp only
  repeat' split
  all_goals grind -ring -linarith -order [memoryWfRes, memory_wf_queueTrap, acquireOp_mem, setClutch_mem, setQueue_mem]

omit w in
theorem memory_wf_qcfgFault {x k q v r} (h : qcfgFault s x k q v = some r) : memoryWfRes r := by
  unfold qcfgFault at h
  dsimp only at h
  repeat' split at h
  all_goals cases h
  all_goals trivial

theorem memory_wf_execQcfgSet {h0 a q} (h : execQcfgSet h0 a q s = .next t) : Memory.wf t.mem = true := by
  refine memory_wf_word w (fun x s w => ?_) h
  grind -ring -linarith -order [memoryWfRes, modTask_mem, setQueue_mem, → memory_wf_qcfgFault, Option.bind_eq_some_iff]

theorem memory_wf_execQcfgGet {h0 d q} (h : execQcfgGet h0 d q s = .next t) : Memory.wf t.mem = true := by
  refine memory_wf_word w (fun x s w => ?_) h
  dsimp only
  split <;> simp [memoryWfRes, *]

omit w in
theorem memory_wf_fifoFault {x r} (h : fifoFault s x = some r) : memoryWfRes r := by
  unfold fifoFault at h
  grind -ring -linarith -order [memoryWfRes, freeD_mem]

theorem memory_wf_execVfsend {h0 a} (h : execVfsend h0 a s = .next t) : Memory.wf t.mem = true := by
  refine memory_wf_word w (fun x s w => ?_) h
  grind -ring -linarith -order [memoryWfRes, → memory_wf_releaseAll, setFifo_mem, → memory_wf_fifoFault]

theorem memory_wf_execVfrecv {h0 d} (h : execVfrecv h0 d s = .next t) : Memory.wf t.mem = true := by
  refine memory_wf_word w (fun x s w => ?_) h
  grind -ring -linarith -order [memoryWfRes, setClutch_mem, acquireOp_mem, setFifo_mem, → memory_wf_fifoFault]

theorem memory_wf_execVffree {h0 d} (h : execVffree h0 d s = .next t) : Memory.wf t.mem = true := by
  refine memory_wf_word w (fun x s w => ?_) h
  grind -ring -linarith -order [memoryWfRes, pendValue_mem, → memory_wf_fifoFault]

theorem memory_wf_agentTake {key ctx va n} (h : agentTake s key ctx va n = some t) : Memory.wf t.mem = true := by
  unfold agentTake at h
  grind -ring -linarith -order [→ memory_wf_readsAt, → memory_wf_walksAt, Option.map_eq_some_iff]

theorem memory_wf_joinOwn {ctx va} (h : joinOwn s ctx va = some t) : Memory.wf t.mem = true := by
  unfold joinOwn at h
  grind -ring -linarith -order [→ memory_wf_walksAt, → memory_wf_ownLine]

theorem memory_wf_joinUpdate {ctx va f} (h : joinUpdate s ctx va f = some t) : Memory.wf t.mem = true := by
  unfold joinUpdate at h
  grind -ring -linarith -order [memory_wf_performBytes, → memory_wf_joinOwn, Option.map_eq_some_iff]

theorem memory_wf_joinTask {ctx va code reason task seq} (h : joinTask s ctx va code reason task seq = some t)
    : Memory.wf t.mem = true := by
  unfold joinTask at h
  grind -ring -linarith -order [→ memory_wf_joinUpdate, wakeJoins_mem]

theorem memory_wf_joinTasks {ctx va code reason seq l} : joinTasks s ctx va code reason seq l = some t → Memory.wf t.mem = true := by
  fun_induction joinTasks s ctx va code reason seq l <;> grind -ring -linarith -order [→ memory_wf_joinTask]

theorem memory_wf_joinTake {key ctx n} (h : joinTake s key ctx n = some t) : Memory.wf t.mem = true := by
  unfold joinTake at h
  grind -ring -linarith -order [→ memory_wf_agentTake]

theorem memory_wf_enqueueTok {key n host parent} (h : enqueueTok s key n host parent = some t) : Memory.wf t.mem = true := by
  unfold enqueueTok at h
  grind -ring -linarith -order [setLine_mem, startNext_mem, → memory_wf_joinOwn, → memory_wf_joinUpdate, → memory_wf_joinTake]

theorem memory_wf_objCheck {x q ea n allowed r} (h : objCheck s x q ea n allowed = .stop r) : memoryWfRes r :=
  memory_wf_gatherChecks w (fun _ _ w => memory_wf_accessTake w) h

theorem memory_wf_syncLine {line l} : syncLine line l s = some t → Memory.wf t.mem = true := by
  fun_induction syncLine line l s <;> grind -ring -linarith -order [→ memory_wf_syncPerform]

theorem memory_wf_homeTake {core pa} (h : homeTake s core pa = some t) : Memory.wf t.mem = true := by
  unfold homeTake at h
  grind -ring -linarith -order [→ memory_wf_atomicPrep, → memory_wf_ownLine, → memory_wf_syncLine, Option.bind_eq_some_iff]

theorem memory_wf_homeRmw {core pa n f} {y} (h : homeRmw s core pa n f = some (t, y)) : Memory.wf t.mem = true := by
  unfold homeRmw at h
  grind -ring -linarith -order [memory_wf_performBytes, → memory_wf_homeTake]

theorem memory_wf_leapTarget {x c base r} (h : leapTarget s x c base = .inl r) : memoryWfRes r := by
  unfold leapTarget at h
  dsimp only at h
  split at h
  · cases h
    trivial
  · split at h
    · cases h
      split <;> trivial
    next h1 =>
      cases h
      exact memory_wf_objCheck w h1
    · repeat' split at h
      all_goals cases h
      all_goals trivial

theorem memory_wf_execLeap {h0 a} (h : execLeap h0 a s = .next t) : Memory.wf t.mem = true := by
  refine memory_wf_word w (fun x s w => ?_) h
  dsimp only
  repeat' split
  all_goals grind -ring -linarith -order [memoryWfRes, → memory_wf_releaseAll, modClutch_mem, → leapTry_mem, → memory_wf_leapTarget]

theorem memory_wf_launchKey {x c a r} (h : launchKey s x c a = .inl r) : memoryWfRes r := by
  unfold launchKey at h
  dsimp only at h
  repeat' split at h
  all_goals cases h
  · exact memory_wf_accessTake w
  all_goals trivial

theorem memory_wf_execLaunch {h0 sc a b} (h : execLaunch h0 sc a b s = .next t) : Memory.wf t.mem = true := by
  refine memory_wf_word w (fun x s w => memory_wf_withAsks w fun s w => ?_) h
  dsimp only
  repeat' split
  all_goals grind -ring -linarith -order [memoryWfRes, → memory_wf_checkLanes, → memory_wf_launchKey, weightAsk_mem,
    → memory_wf_syncFirst, → memory_wf_readPlace, → memory_wf_releaseAll, dropToken_mem, → memory_wf_enqueueTok, Option.bind_eq_some_iff]

theorem memory_wf_execJoin {h0 d a} (h : execJoin h0 d a s = .next t) : Memory.wf t.mem = true := by
  refine memory_wf_word w (fun x s w => ?_) h
  dsimp only
  repeat' split
  all_goals grind -ring -linarith -order [memoryWfRes, → memory_wf_objCheck, → memory_wf_homeTake, acquireOp_mem, pendQuad_mem]

omit w in
theorem memory_wf_barTrap {n x} : memoryWfRes (barTrap n x) := trivial

theorem memory_wf_execBarArr {h0 n cnt} (h : execBarArr h0 n cnt s = .next t) : Memory.wf t.mem = true := by
  refine memory_wf_word w (fun x s w => ?_) h
  dsimp only
  repeat' split
  all_goals grind -ring -linarith -order [memoryWfRes, memory_wf_barTrap, → memory_wf_releaseAll, modTask_mem, modClutch_mem]

theorem memory_wf_execBarWait {h0 n} (h : execBarWait h0 n s = .next t) : Memory.wf t.mem = true := by
  refine memory_wf_word w (fun x s w => ?_) h
  dsimp only
  repeat' split
  all_goals grind -ring -linarith -order [memoryWfRes, memory_wf_barTrap, acquireOp_mem, modClutch_mem]

theorem memory_wf_execSbarArr {h0 a} (h : execSbarArr h0 a s = .next t) : Memory.wf t.mem = true := by
  refine memory_wf_word w (fun x s w => ?_) h
  dsimp only
  repeat' split
  all_goals grind -ring -linarith -order [memoryWfRes, → memory_wf_objCheck, → memory_wf_releaseAll, → memory_wf_homeRmw, modClutch_mem,
    wakeWaiting_mem]

theorem memory_wf_execSbarWait {h0 a} (h : execSbarWait h0 a s = .next t) : Memory.wf t.mem = true := by
  refine memory_wf_word w (fun x s w => ?_) h
  dsimp only
  repeat' split
  all_goals grind -ring -linarith -order [memoryWfRes, → memory_wf_objCheck, → memory_wf_homeTake, acquireOp_mem]

theorem memory_wf_waitRead {core n p y} (h : waitRead s core n p = some (t, y)) : Memory.wf t.mem = true := by
  unfold waitRead at h
  grind -ring -linarith -order [→ memory_wf_atomicPrep, → memory_wf_readAt, Option.bind_eq_some_iff, Option.map_eq_some_iff]

theorem memory_wf_execWaitaddr {h0 sc cc ty a b} (h : execWaitaddr h0 sc cc ty a b s = .next t) : Memory.wf t.mem = true := by
  refine memory_wf_word w (fun x s w => ?_) h
  dsimp only
  repeat' split
  all_goals grind -ring -linarith -order [memoryWfRes, → memory_wf_objCheck, → memory_wf_syncFirst, → memory_wf_waitRead, acquireOp_mem,
    watchLine_mem, Option.bind_eq_some_iff]

theorem memory_wf_execWake {h0 a} (h : execWake h0 a s = .next t) : Memory.wf t.mem = true := by
  refine memory_wf_word w (fun x s w => ?_) h
  dsimp only
  repeat' split
  all_goals grind -ring -linarith -order [memoryWfRes, → memory_wf_objCheck, → memory_wf_releaseAll, wakeWaiting_mem]

theorem memory_wf_deqHead {x c a rel pa} (h : deqHead s x c a rel = .inr (t, pa)) : Memory.wf t.mem = true := by
  unfold deqHead at h
  dsimp only at h
  repeat' split at h
  all_goals grind -ring -linarith -order [→ memory_wf_releaseOpt, → memory_wf_homeTake, Option.bind_eq_some_iff]

theorem memory_wf_deqHead_stop {x c a rel r} (h : deqHead s x c a rel = .inl r) : memoryWfRes r := by
  unfold deqHead at h
  dsimp only at h
  repeat' split at h
  all_goals cases h
  next h1 => exact memory_wf_objCheck w h1
  · exact w

theorem memory_wf_deqPut {pa off n v} : Memory.wf (deqPut s pa off n v).mem = true := memory_wf_performBytes _ _ _ w

theorem memory_wf_execDeqInit {h0 a b lc} (h : execDeqInit h0 a b lc s = .next t) : Memory.wf t.mem = true := by
  refine memory_wf_word w (fun x s w => ?_) h
  dsimp only
  split
  next h => exact memory_wf_deqHead_stop w h
  next h => exact memory_wf_deqPut (memory_wf_deqPut (memory_wf_deqPut (memory_wf_deqPut (memory_wf_deqHead w h))))

theorem memory_wf_deqElem {s0 x c va acc pa} (h : deqElem s s0 x c va acc = .inr (t, pa)) : Memory.wf t.mem = true := by
  unfold deqElem at h
  dsimp only at h
  repeat' split at h
  all_goals grind -ring -linarith -order [→ memory_wf_homeTake]

theorem memory_wf_deqElem_stop {s0 x c va acc r} (w0 : Memory.wf s0.mem = true) (h : deqElem s s0 x c va acc = .inl r) : memoryWfRes r :=
  by
  unfold deqElem at h
  dsimp only at h
  repeat' split at h
  all_goals cases h
  next h1 => exact memory_wf_objCheck w h1
  · exact w0

theorem memory_wf_execDeqPush {h0 a b} (h : execDeqPush h0 a b s = .next t) : Memory.wf t.mem = true := by
  refine memory_wf_word w (fun x s w => ?_) h
  dsimp only
  split
  next h => exact memory_wf_deqHead_stop w h
  next h =>
    repeat' split
    · trivial
    · trivial
    next h1 => exact memory_wf_deqElem_stop (memory_wf_deqHead w h) w h1
    next h1 => exact memory_wf_deqPut (memory_wf_performBytes _ _ _ (memory_wf_deqElem (memory_wf_deqHead w h) h1))

theorem memory_wf_deqTake {steal d a x} : memoryWfRes (deqTake steal d a x s) := by
  unfold deqTake
  dsimp only
  split
  next h => exact memory_wf_deqHead_stop w h
  next h =>
    have w1 := memory_wf_deqHead w h
    split
    · trivial
    · split
      · exact (congrArg Memory.wf (pendQuad_mem ..)).trans w1
      · split
        next h1 => exact memory_wf_deqElem_stop w1 w h1
        next h1 =>
          refine ((congrArg Memory.wf ((acquireOp_mem ..).trans (pendQuad_mem ..))).trans ?_ :)
          split <;> exact memory_wf_deqPut (memory_wf_deqElem w1 h1)

end Sys2Proof.Machine
end

section
/-! PROOF. Waits that end, caches, tokens, walks, launches, schedules, the pager, the host, the bank and power: each act keeps the canonical
form of memory; with the words above, every instruction does (`memory_wf_exec`), and every step (`memory_wf_step`). O59. -/

namespace Sys2Proof.Machine

variable {s t : State} (w : Memory.wf s.mem = true)

include w

theorem memory_wf_rowOut {cid p} (h : rowOut s cid p = some t) : Memory.wf t.mem = true := by
  unfold rowOut at h
  grind -ring -linarith -order [setL1_mem, → memory_wf_storeL1, memory_wf_xlTake, Option.map_eq_some_iff]

theorem memory_wf_rowsOutFrom {cid l} : rowsOutFrom s cid l = some t → Memory.wf t.mem = true := by
  fun_induction rowsOutFrom s cid l <;> grind -ring -linarith -order [modClutch_mem, → memory_wf_rowOut]

theorem memory_wf_beforeSysw {cid n} (h : beforeSysw s cid n = some t) : Memory.wf t.mem = true := by
  unfold beforeSysw at h
  grind -ring -linarith -order [→ memory_wf_rowsOutFrom]

theorem memory_wf_sysPut {cid n v} : Memory.wf (sysPut s cid n v).mem = true := by
  fun_cases sysPut s cid n v <;> grind -ring -linarith -order [setClutch_mem, modHost_mem, memory_wf_regSet, setEngTrap_mem]

theorem memory_wf_execSysw {h0 n a} (h : execSysw h0 n a s = .next t) : Memory.wf t.mem = true := by
  refine memory_wf_word w (fun x s w => ?_) h
  grind -ring -linarith -order [memoryWfRes, setClutch_mem, → memory_wf_beforeSysw, memory_wf_sysPut]

theorem memory_wf_execTret {h0} (h : execTret h0 s = .next t) : Memory.wf t.mem = true := by
  refine memory_wf_word w (fun x s w => ?_) h
  grind -ring -linarith -order [memoryWfRes, → memory_wf_stopAll, trapReturn_mem]

theorem memory_wf_execWfi {h0} (h : execWfi h0 s = .next t) : Memory.wf t.mem = true := by
  refine memory_wf_word w (fun x s w => ?_) h
  dsimp only
  split <;> simp [memoryWfRes, *]

theorem memory_wf_execHalt {h0} (h : execHalt h0 s = .next t) : Memory.wf t.mem = true := by
  refine memory_wf_word w (fun x s w => ?_) h
  grind -ring -linarith -order [memoryWfRes, modHost_mem, → memory_wf_completeAll]

theorem memory_wf_tlbinvWord {hit ext x} : memoryWfRes (tlbinvWord hit ext x s) := by
  unfold tlbinvWord
  grind -ring -linarith -order [memoryWfRes, → memory_wf_releaseAll, invalidate_mem]

theorem memory_wf_execIcinvLine {h0 a} (h : execIcinvLine h0 a s = .next t) : Memory.wf t.mem = true := by
  refine memory_wf_word w (fun x s w => ?_) h
  grind -ring -linarith -order [memoryWfRes, → memory_wf_releaseAll, → memory_wf_bareStop, dropKept_mem]

theorem memory_wf_execIcinvAll {h0} (h : execIcinvAll h0 s = .next t) : Memory.wf t.mem = true := by
  refine memory_wf_word w (fun x s w => ?_) h
  grind -ring -linarith -order [memoryWfRes, → memory_wf_releaseAll, dropKept_mem]

theorem memory_wf_execIssueCycle {u} (h : execIssueCycle u s = .next t) : Memory.wf t.mem = true := by
  unfold execIssueCycle at h
  dsimp only at h
  repeat' split at h
  all_goals cases h
  · exact w
  · exact w
  · exact w
  · exact foldl_mem_wf (fun _ _ => countWait_mem ..) _ w

theorem memory_wf_execLongResultWrite {cid n lanes} (h : execLongResultWrite cid n lanes s = .next t) : Memory.wf t.mem = true := by
  unfold execLongResultWrite at h
  dsimp only at h
  repeat' split at h
  all_goals grind -ring -linarith -order [holdReads_mem, reapPend_mem, → memory_wf_completeAccs, → memory_wf_syncUntil,
    → memory_wf_bindBefore, chosenParts_mem]

theorem memory_wf_execKwaitRelease {cid k} (h : execKwaitRelease cid k s = .next t) : Memory.wf t.mem = true := by
  unfold execKwaitRelease at h
  grind -ring -linarith -order [modClutch_mem]

theorem memory_wf_runAs {cid f} (hf : ∀ {s t}, Memory.wf s.mem = true → f s = .next t → Memory.wf t.mem = true)
    (h : runAs s cid f = .next t) : Memory.wf t.mem = true := by
  unfold runAs at h
  cases h1 : f { s with cur := cid } with
  | next u =>
    rw [h1] at h
    obtain rfl := Host.Outcome.next.inj h
    exact hf (t := u) (s := { s with cur := cid }) w h1
  | fault _ | refused _ =>
    rw [h1] at h
    cases h

theorem memory_wf_execQueueWaitResume {cid} (h : execQueueWaitResume cid s = .next t) : Memory.wf t.mem = true := by
  unfold execQueueWaitResume at h
  split at h
  · exact memory_wf_runAs w (fun w h => memory_wf_execQpush w h) h
  · exact memory_wf_runAs w (fun w h => memory_wf_execQpop w h) h
  · cases h
    exact w

theorem memory_wf_execRingAcqResume {cid} (h : execRingAcqResume cid s = .next t) : Memory.wf t.mem = true := by
  unfold execRingAcqResume at h
  repeat' split at h
  all_goals grind -ring -linarith -order [→ memory_wf_execRingAcq, → memory_wf_runAs]

theorem memory_wf_execVfifoWaitResume {cid} (h : execVfifoWaitResume cid s = .next t) : Memory.wf t.mem = true := by
  unfold execVfifoWaitResume at h
  repeat' split at h
  all_goals grind -ring -linarith -order [→ memory_wf_execVfsend, → memory_wf_execVfrecv, → memory_wf_runAs]

theorem memory_wf_execTlwaitReturn {cid} (h : execTlwaitReturn cid s = .next t) : Memory.wf t.mem = true := by
  unfold execTlwaitReturn at h
  repeat' split at h
  all_goals grind -ring -linarith -order [→ memory_wf_execTlwait, → memory_wf_runAs]

theorem memory_wf_execJoinReturn {cid} (h : execJoinReturn cid s = .next t) : Memory.wf t.mem = true := by
  unfold execJoinReturn at h
  repeat' split at h
  all_goals grind -ring -linarith -order [→ memory_wf_execJoin, → memory_wf_runAs]

theorem memory_wf_execWaitaddrReread {cid} (h : execWaitaddrReread cid s = .next t) : Memory.wf t.mem = true := by
  unfold execWaitaddrReread at h
  repeat' split at h
  all_goals grind -ring -linarith -order [→ memory_wf_execWaitaddr, → memory_wf_runAs]

theorem memory_wf_execSbarWaitResume {cid} (h : execSbarWaitResume cid s = .next t) : Memory.wf t.mem = true := by
  unfold execSbarWaitResume at h
  repeat' split at h
  all_goals grind -ring -linarith -order [→ memory_wf_execSbarWait, → memory_wf_runAs]

theorem memory_wf_execBarWaitResume {cid} (h : execBarWaitResume cid s = .next t) : Memory.wf t.mem = true := by
  unfold execBarWaitResume at h
  repeat' split at h
  all_goals grind -ring -linarith -order [→ memory_wf_execBarWait, → memory_wf_runAs]

theorem memory_wf_execLaunchQueueResume {cid} (h : execLaunchQueueResume cid s = .next t) : Memory.wf t.mem = true := by
  unfold execLaunchQueueResume at h
  repeat' split at h
  all_goals grind -ring -linarith -order [→ memory_wf_execLaunch, → memory_wf_runAs]

theorem memory_wf_execLeapLand {cid} (h : execLeapLand cid s = .next t) : Memory.wf t.mem = true := by
  unfold execLeapLand at h
  repeat' split at h
  all_goals grind -ring -linarith -order [→ memory_wf_execLeap, → memory_wf_runAs]

omit w in
@[simp] theorem recallLine_mem {cid col line} : (recallLine cid col s line).mem = s.mem := by
  unfold recallLine
  dsimp only
  repeat' split
  · exact freeF_mem s
  · exact (foldl_mem (fun _ _ => recallRow_mem ..) _ _).trans ((bankReadLine_mem ..).trans (freeF_mem s))
  · exact (bankReadLine_mem ..).trans (freeF_mem s)

theorem memory_wf_execRegisterRecall {cid} (h : execRegisterRecall cid s = .next t) : Memory.wf t.mem = true := by
  unfold execRegisterRecall at h
  dsimp only at h
  split at h <;> cases h
  · exact w
  · rw [modClutch_mem]
    split
    · exact foldl_mem_wf (fun _ _ => recallRow_mem ..) _ w
    · exact foldl_mem_wf (fun _ _ => recallLine_mem) _ w

theorem memory_wf_execWindowParking {cid} (h : execWindowParking cid s = .next t) : Memory.wf t.mem = true := by
  unfold execWindowParking at h
  grind -ring -linarith -order [modClutch_mem, havoc_mem]

theorem memory_wf_execEngineAsyncDelivery {cid} (h : execEngineAsyncDelivery cid s = .next t) : Memory.wf t.mem = true := by
  unfold execEngineAsyncDelivery at h
  grind -ring -linarith -order [setEng_mem, → memory_wf_stopAll, memory_wf_takeTrap]

theorem memory_wf_execInterruptEntry {col} (h : execInterruptEntry col s = .next t) : Memory.wf t.mem = true := by
  unfold execInterruptEntry at h
  grind -ring -linarith -order [→ memory_wf_stopAll, memory_wf_regionAbort, trapHost_mem]

theorem memory_wf_execTimerExpiry {col} (h : execTimerExpiry col s = .next t) : Memory.wf t.mem = true := by
  unfold execTimerExpiry at h
  grind -ring -linarith -order [startNext_mem]

theorem memory_wf_sliceMay {c} : Memory.wf (sliceMay s c).mem = true := by
  unfold sliceMay
  grind -ring -linarith -order [memory_wf_sliceOut]

theorem memory_wf_execCacheFill {l1 line} (h : execCacheFill l1 line s = .next t) : Memory.wf t.mem = true := by
  unfold execCacheFill at h
  grind -ring -linarith -order [holdRead_mem, → memory_wf_cacheFillOp, memory_wf_sliceMay]

theorem memory_wf_execL1EvictTimeout {l1 line} (h : execL1EvictTimeout l1 line s = .next t) : Memory.wf t.mem = true := by
  unfold execL1EvictTimeout at h
  repeat' split at h
  all_goals grind -ring -linarith -order [→ memory_wf_evictLine, → orStay_next]

theorem memory_wf_execCwqDrain {col n} (h : execCwqDrain col n s = .next t) : Memory.wf t.mem = true := by
  unfold execCwqDrain at h
  repeat' split at h
  all_goals grind -ring -linarith -order [→ memory_wf_drainLine, → orStay_next]

theorem memory_wf_syncOldest {d} (h : syncOldest s d = some t) : Memory.wf t.mem = true := by
  unfold syncOldest at h
  grind -ring -linarith -order [→ memory_wf_syncPerform, Option.bind_eq_some_iff]

theorem memory_wf_execSyncEngineAtomic {die} (h : execSyncEngineAtomic die s = .next t) : Memory.wf t.mem = true := by
  unfold execSyncEngineAtomic at h
  split at h
  · obtain h | h := orStay_next h
    · obtain ⟨d, -, h⟩ := List.exists_of_findSome?_eq_some h
      exact memory_wf_syncOldest w h
    · exact h ▸ w
  · cases h
    exact w

theorem memory_wf_execTransientRequest {die line write} (h : execTransientRequest die line write s = .next t)
    : Memory.wf t.mem = true := by
  unfold execTransientRequest at h
  grind -ring -linarith -order [transientRequest_mem]

theorem memory_wf_execTokenResponse {src dst} (h : execTokenResponse src dst s = .next t) : Memory.wf t.mem = true := by
  unfold execTokenResponse at h
  grind -ring -linarith -order [arrive_mem]

theorem memory_wf_execTokenWriteback {src dst} (h : execTokenWriteback src dst s = .next t) : Memory.wf t.mem = true := by
  unfold execTokenWriteback at h
  grind -ring -linarith -order [sendTok_mem, arrive_mem]

theorem memory_wf_execTransientTimeout {die line} (h : execTransientTimeout die line s = .next t) : Memory.wf t.mem = true := by
  unfold execTransientTimeout at h
  grind -ring -linarith -order [setTok_mem, answerAll_mem, dropMet_mem]

theorem memory_wf_execPersistentActivate {line} (h : execPersistentActivate line s = .next t) : Memory.wf t.mem = true := by
  unfold execPersistentActivate at h
  grind -ring -linarith -order [setTok_mem, forwardActive_mem]

theorem memory_wf_execPersistentDeactivate {line} (h : execPersistentDeactivate line s = .next t) : Memory.wf t.mem = true := by
  unfold execPersistentDeactivate at h
  grind -ring -linarith -order [setTok_mem]

theorem memory_wf_freeLine {line} : Memory.wf (freeLine s line).mem = true :=
  memory_wf_foldl (fun _ _ w => memory_wf_tput w _ _) _ _ w

theorem memory_wf_execCxlCacheSnoop {line invalidate} (h : execCxlCacheSnoop line invalidate s = .next t) : Memory.wf t.mem = true := by
  unfold execCxlCacheSnoop at h
  grind -ring -linarith -order [invalidate_mem, memory_wf_freeLine]

theorem memory_wf_execPageWalk {l1 ctx va} (h : execPageWalk l1 ctx va s = .next t) : Memory.wf t.mem = true := by
  unfold execPageWalk at h
  grind -ring -linarith -order [memory_wf_pageWalk]

theorem memory_wf_promoTake {die v} (h : promoTake s die v = some t) : Memory.wf t.mem = true := memory_wf_walksAt w h

theorem memory_wf_execPromoGo {die v} (h : execPromoGo die v s = .next t) : Memory.wf t.mem = true := by
  unfold execPromoGo at h
  grind -ring -linarith -order [setPromo_mem, invalidate_mem, → memory_wf_promoTake]

theorem memory_wf_flushLines {ls} (h : flushLines s ls = some t) : Memory.wf t.mem = true := by
  unfold flushLines at h
  generalize hl : List.range 64 = cols at h
  generalize hk : List.range 320 = cores at h
  refine foldl_bind_wf (f := fun c s => drainLines s c (((colAt s c).cwq.map (·.line)).filter (fun l => ls.contains l)))
    (fun w h => memory_wf_drainLines w h) _ (fun hu => ?_) h
  exact foldl_some_wf (f := fun i s => wbLines s i ((l1Lines s i).filter (fun l => ls.contains l)))
    (fun w h => memory_wf_wbLines w h) w hu

theorem memory_wf_copyLine {src dst} : Memory.wf (copyLine s src dst).mem = true := by
  unfold copyLine
  grind -ring -linarith -order [memory_wf_performLine]

theorem memory_wf_copyTo {die src dst} (h : copyTo s die src dst = some t) : Memory.wf t.mem = true := by
  unfold copyTo at h
  grind -ring -linarith -order [→ gatherAll_mem, → memory_wf_readAt, memory_wf_copyLine, Option.map_eq_some_iff]

theorem memory_wf_copyLines {die l} : copyLines die s l = some t → Memory.wf t.mem = true := by
  fun_induction copyLines die s l <;> grind -ring -linarith -order [→ memory_wf_copyTo]

theorem memory_wf_execPromotionComplete {die} (h : execPromotionComplete die s = .next t) : Memory.wf t.mem = true := by
  unfold execPromotionComplete at h
  dsimp only at h
  split at h
  · exact Host.Outcome.next.inj h ▸ w
  · split at h
    · obtain rfl := Host.Outcome.next.inj h
      rw [setPromo_mem]
      exact foldl_wf (fun _ _ w => memory_wf_freeLine w) _ w
    · split at h
      · exact Host.Outcome.next.inj h ▸ w
      · split at h
        · exact Host.Outcome.next.inj h ▸ w
        next h1 =>
          obtain ⟨u, hu, h1⟩ := Option.bind_eq_some_iff.mp h1
          have w1 := memory_wf_copyLines (memory_wf_flushLines w hu) h1
          split at h
          · exact Host.Outcome.next.inj h ▸ w1
          next h2 =>
            obtain rfl := Host.Outcome.next.inj h
            rw [setPromo_mem]
            exact memory_wf_performAt w1 h2

theorem memory_wf_recordTake {key k} (h : recordTake s key k = some t) : Memory.wf t.mem = true := by
  unfold recordTake at h
  split at h
  · cases h
    exact w
  · split at h
    · cases h
    next h1 =>
      have w1 := memory_wf_agentTake w h1
      split at h
      · exact Option.some.inj h ▸ w1
      next r _ =>
        split at h
        · exact Option.some.inj h ▸ w1
        · exact foldl_some_wf (f := fun i s => agentTake s key k.ctx (recDeps r + 16 * i) 16) (fun w h => memory_wf_agentTake w h) w1 h

theorem memory_wf_endTasks {l x tasks code reason} (h : endTasks s l x tasks code reason = some t) : Memory.wf t.mem = true := by
  obtain ⟨u, hu, rfl⟩ := Option.map_eq_some_iff.mp h
  have wu := memory_wf_joinTasks w hu
  rw [lessLeft_mem]
  split
  · exact wu
  · exact foldl_mem_wf (fun _ _ => orphanKids_mem ..) _ wu

theorem memory_wf_releaseCores {sc l} : releaseCores sc s l = some t → Memory.wf t.mem = true := by
  fun_induction releaseCores sc s l <;> grind -ring -linarith -order [→ memory_wf_releaseOp]

theorem memory_wf_syncTask {l} : syncTask s l = some t → Memory.wf t.mem = true := by
  fun_induction syncTask s l <;> grind -ring -linarith -order [→ memory_wf_syncWhere]

theorem memory_wf_gateNext {cores} : Memory.wf (gateNext s cores).mem = true := foldl_wf (fun _ _ w => memory_wf_gateCore w) cores w

theorem memory_wf_endTask {n x code reason} (h : endTask s n x code reason = some t) : Memory.wf t.mem = true := by
  unfold endTask at h
  dsimp only at h
  repeat' split at h
  all_goals grind -ring -linarith -order [→ memory_wf_joinTask, lessLeft_mem, dropTask_mem, orphanKids_mem, → memory_wf_releaseCores,
    → memory_wf_syncTask, memory_wf_gateNext, Option.bind_eq_some_iff]

theorem memory_wf_execTaskTermination {n} (h : execTaskTermination n s = .next t) : Memory.wf t.mem = true := by
  have gone (l : List (Nat × Cmd)) : Memory.wf (l.foldl (fun s p => delCmd s p.1) s).mem = true := 
    foldl_mem_wf (f := fun s (p : Nat × Cmd) => delCmd s p.1) (fun _ _ => rfl) l w
  unfold execTaskTermination at h
  dsimp only at h
  repeat' split at h
  all_goals grind -ring -linarith -order [settleLaunch_mem, retryNext_mem, → memory_wf_endTask, → orStay_next, Option.map_eq_some_iff]

theorem memory_wf_jobIssue {e f x va card} : memoryWfRes (jobIssue e f x va card s) := by
  have read : memoryWfRes (issueRead s x e .matrix .core va.toNat card none (enqueueJob (clutchAt s x.cid).core s.pkg.serial)) :=
    memory_wf_issueRead w (fun _ h => nomatch h) (fun _ w => w)
  unfold jobIssue
  dsimp only
  repeat' split
  all_goals trivial

theorem memory_wf_execMjob {h0 e a b} (h : execMjob h0 e a b s = .next t) : Memory.wf t.mem = true := by
  refine memory_wf_word w (fun x s w => ?_) h
  dsimp only
  repeat' split
  · trivial
  · trivial
  · trivial
  next h => exact memory_wf_checkLanes w h
  · exact w
  next h =>
    obtain ⟨p, -, h⟩ := Option.bind_eq_some_iff.mp h
    exact memory_wf_jobIssue (memory_wf_readPlace w h)

theorem memory_wf_execMatrixTile {core} (h : execMatrixTile core s = .next t) : Memory.wf t.mem = true := by
  unfold execMatrixTile at h
  dsimp only at h
  repeat' split at h
  all_goals grind -ring -linarith -order [setCmd_mem, → memory_wf_failCmd, cmdFlags_mem, tileWrite_mem, saveArea_mem, dequeueJob_mem,
    → orStay_next]

theorem memory_wf_execMatrixJobComplete {core} (h : execMatrixJobComplete core s = .next t) : Memory.wf t.mem = true := by
  unfold execMatrixJobComplete at h
  grind -ring -linarith -order [setCmd_mem, saveArea_mem, dequeueJob_mem]

theorem memory_wf_hostToken {key tok whole} (h : hostToken s key tok whole = .next t) : Memory.wf t.mem = true := by
  unfold hostToken at h
  dsimp only at h
  repeat' split at h
  · cases h
    exact w
  · cases h
    rw [dropToken_mem]
    exact w
  · obtain h | h := orStay_next h
    · exact memory_wf_enqueueTok (s := { s with reply := .ok [] }) w h
    · exact h ▸ w

theorem memory_wf_execTokenEnqueue {b line tok whole} (h : execTokenEnqueue b line tok whole s = .next t) : Memory.wf t.mem = true :=
  memory_wf_hostToken w h

theorem memory_wf_endToken {k code reason} (h : endToken s k code reason = some t) : Memory.wf t.mem = true := by
  unfold endToken at h
  grind -ring -linarith -order [→ memory_wf_joinTask]

theorem memory_wf_cancelMarked {key l} : Memory.wf (cancelMarked s key l).mem = true := by
  fun_induction cancelMarked s key l <;> grind -ring -linarith -order [setLine_mem, → memory_wf_endToken]

theorem memory_wf_cancelToks {key p} : Memory.wf (cancelToks s key p).mem = true := by
  unfold cancelToks
  grind -ring -linarith -order [setLine_mem, wakeWaiting_mem, memory_wf_cancelMarked]

theorem memory_wf_execLlCfgWrite {b line v} (h : execLlCfgWrite b line v s = .next t) : Memory.wf t.mem = true := by
  unfold execLlCfgWrite at h
  grind -ring -linarith -order [setLine_mem, memory_wf_cancelToks]

theorem memory_wf_rejectTok {key k reason} (h : rejectTok s key k reason = some t) : Memory.wf t.mem = true := by
  unfold rejectTok at h
  grind -ring -linarith -order [setLine_mem, → memory_wf_endToken, Option.map_eq_some_iff]

theorem memory_wf_acceptTok {key k r deps} (h : acceptTok s key k r deps = some t) : Memory.wf t.mem = true := by
  unfold acceptTok at h
  dsimp only at h
  repeat' split at h
  all_goals grind -ring -linarith -order [setLaunch_mem, startNext_mem, → memory_wf_joinUpdate]

theorem memory_wf_execLaunchRecordCheck {b line} (h : execLaunchRecordCheck b line s = .next t) : Memory.wf t.mem = true := by
  unfold execLaunchRecordCheck at h
  dsimp only at h
  repeat' split at h
  all_goals grind -ring -linarith -order [startNext_mem, → memory_wf_recordTake, → memory_wf_endToken, popToken_mem,
    → memory_wf_rejectTok, → memory_wf_acceptTok, → orStay_next, Option.map_eq_some_iff]

theorem memory_wf_depTake {key ctx d} (h : depTake s key ctx d = some t) : Memory.wf t.mem = true := by
  unfold depTake at h
  repeat' split at h
  all_goals grind -ring -linarith -order [→ memory_wf_readAt, → memory_wf_agentTake]

theorem memory_wf_depTakes {key ctx l} : depTakes s key ctx l = some t → Memory.wf t.mem = true := by
  fun_induction depTakes s key ctx l <;> grind -ring -linarith -order [→ memory_wf_depTake]

theorem memory_wf_execDependenceEvaluation {l} (h : execDependenceEvaluation l s = .next t) : Memory.wf t.mem = true := by
  unfold execDependenceEvaluation at h
  dsimp only at h
  repeat' split at h
  all_goals grind -ring -linarith -order [setLaunch_mem, → memory_wf_endTasks, makeReady_mem, → memory_wf_depTakes, → orStay_next]

theorem memory_wf_execCtxRefresh {ctx} (h : execCtxRefresh ctx s = .next t) : Memory.wf t.mem = true := by
  unfold execCtxRefresh at h
  grind -ring -linarith -order [holdRead_mem, → memory_wf_readAt]

theorem memory_wf_killCmd {p} (h : killCmd s p = some t) : Memory.wf t.mem = true := by
  unfold killCmd at h
  repeat' split at h
  all_goals grind -ring -linarith -order [delCmd_mem, → memory_wf_failCmd, abandonInstall_mem, dequeueJob_mem, leaveCmd_mem]

theorem memory_wf_killCmds {l} : killCmds s l = some t → Memory.wf t.mem = true := by
  fun_induction killCmds s l <;> grind -ring -linarith -order [→ memory_wf_killCmd]

theorem memory_wf_killTask {n} (h : killTask n s = some t) : Memory.wf t.mem = true := by
  unfold killTask at h
  grind -ring -linarith -order [failTask_mem, → memory_wf_endTask]

theorem memory_wf_killTasks {l} : killTasks s l = some t → Memory.wf t.mem = true := by
  fun_induction killTasks s l <;> grind -ring -linarith -order [→ memory_wf_killTask]

theorem memory_wf_killGangs {l} : killGangs s l = some t → Memory.wf t.mem = true := by
  fun_induction killGangs s l <;> grind -ring -linarith -order [dropGang_mem, → memory_wf_endTasks]

theorem memory_wf_killWaiting {l} : killWaiting s l = some t → Memory.wf t.mem = true := by
  fun_induction killWaiting s l <;> grind -ring -linarith -order [→ memory_wf_endTasks]

theorem memory_wf_killQueued {sel} : Memory.wf (killQueued s sel).mem = true := by
  unfold killQueued
  refine foldl_wf (fun s key w => ?_) (s.lines.map (·.1)) w
  split
  · exact w
  · exact memory_wf_cancelToks w

theorem memory_wf_killRegions {sel} (h : killRegions s sel = some t) : Memory.wf t.mem = true := by
  refine foldl_some_wf (f := fun (p : Nat × Clutch) s => (completeAll s p.1).map (fun s => regionEnd s p.1 none)) (fun w h => ?_) w h
  obtain ⟨u, hu, rfl⟩ := Option.map_eq_some_iff.mp h
  rw [regionEnd_mem]
  exact memory_wf_completeAll w hu

theorem memory_wf_killWhere {sel} (h : killWhere s sel = some t) : Memory.wf t.mem = true := by
  unfold killWhere at h
  dsimp only at h
  repeat' split at h
  all_goals grind -ring -linarith -order [→ memory_wf_killCmds, → memory_wf_killTasks, → memory_wf_killGangs, → memory_wf_killWaiting,
    memory_wf_killQueued, → memory_wf_killRegions, Option.bind_eq_some_iff, Option.map_eq_some_iff]

theorem memory_wf_execCtxKill {ctx} (h : execCtxKill ctx s = .next t) : Memory.wf t.mem = true := by
  unfold execCtxKill at h
  grind -ring -linarith -order [retryNext_mem, → memory_wf_killWhere]

theorem memory_wf_execKillComplete (h : execKillComplete s = .next t) : Memory.wf t.mem = true := by
  unfold execKillComplete at h
  grind -ring -linarith -order [raiseVec_mem]

omit w in
/-- A range is written one piece at a time; none where a piece cannot be written. -/
theorem performRange_step {l : List (Nat × Nat)} : ∀ {o : Option (State × List Byte)} {q}, (∀ {u},
  o = some u → Memory.wf u.1.mem = true) →
    l.foldl (fun a p => a.bind (fun (q : State × List Byte) =>
      (performAt q.1 (homeTower q.1 p.1) p.1 (q.2.take p.2)).map (fun s => (s,
        q.2.drop p.2)))) o = some q → Memory.wf q.1.mem = true := by
  induction l with
  | nil => exact fun ho h => ho h
  | cons p l ih =>
    intro o q ho h
    refine ih (fun hu => ?_) h
    obtain ⟨v, hv, hu⟩ := Option.bind_eq_some_iff.mp hu
    obtain ⟨x, hx, rfl⟩ := Option.map_eq_some_iff.mp hu
    exact memory_wf_performAt (ho hv) hx

theorem memory_wf_performRange {pa bs} (h : performRange s pa bs = some t) : Memory.wf t.mem = true := by
  obtain ⟨q, hq, rfl⟩ := Option.map_eq_some_iff.mp h
  exact performRange_step (fun hu => Option.some.inj hu ▸ w) hq

theorem memory_wf_preDone {gang g fs} (h : preDone s gang g fs = some t) : Memory.wf t.mem = true := by
  unfold preDone at h
  dsimp only at h
  split at h
  · exact Option.some.inj h ▸ w
  · split at h
    · cases h
    · split at h
      · cases h
      next u h1 =>
        have w1 : Memory.wf u.mem = true := foldl_some_wf
          (f := fun (z : (Nat × Nat × List Nat) × Nat × Nat) s => performRange s (storeBase s + z.2.1) (z.1.2.2.flatMap (leBytes 8)))
          (fun w h => memory_wf_performRange w h) w h1
        exact Option.some.inj h ▸ w1

theorem memory_wf_endGang {gang g} (h : endGang s gang g = some t) : Memory.wf t.mem = true := by
  unfold endGang at h
  repeat' split at h
  all_goals grind -ring -linarith -order [settleLaunch_mem, retryNext_mem, dropGang_mem, → memory_wf_endTasks, Option.map_eq_some_iff]

theorem memory_wf_execPreTranslation {gang} (h : execPreTranslation gang s = .next t) : Memory.wf t.mem = true := by
  unfold execPreTranslation at h
  dsimp only at h
  repeat' split at h
  all_goals grind -ring -linarith -order [setGang_mem, → memory_wf_walksAt, pagerFile_mem, startNext_mem, → memory_wf_preDone,
    keepTable_mem, → memory_wf_endGang, → orStay_next, Option.map_eq_some_iff]

theorem memory_wf_execGangReserve {gang} (h : execGangReserve gang s = .next t) : Memory.wf t.mem = true := by
  unfold execGangReserve at h
  grind -ring -linarith -order [setGang_mem]

theorem memory_wf_execGangDispatch {gang} (h : execGangDispatch gang s = .next t) : Memory.wf t.mem = true := by
  unfold execGangDispatch at h
  grind -ring -linarith -order [startNext_mem, freeStacks_mem, forwardDie_mem, seatGang_mem]

theorem memory_wf_stopClutches {l} : stopClutches s l = some t → Memory.wf t.mem = true := by
  fun_induction stopClutches s l <;> grind -ring -linarith -order [modClutch_mem, → memory_wf_completeAll, memory_wf_regionAbort]

theorem memory_wf_preemptTask {n} (h : preemptTask s n = some t) : Memory.wf t.mem = true := by
  unfold preemptTask at h
  split at h <;> grind -ring -linarith -order [setTask_mem, modCol_mem, setFifo_mem, → memory_wf_releaseCores, memory_wf_gateNext,
    → memory_wf_stopClutches, stopCmds_mem, schedCount_mem, imageOut_mem]

theorem memory_wf_preemptTasks {l} : preemptTasks s l = some t → Memory.wf t.mem = true := by
  fun_induction preemptTasks s l <;> grind -ring -linarith -order [→ memory_wf_preemptTask]

theorem memory_wf_preemptGang {p} (h : preemptGang s p = some t) : Memory.wf t.mem = true := by
  obtain ⟨u, hu, rfl⟩ := Option.map_eq_some_iff.mp h
  have wu := memory_wf_preemptTasks w hu
  dsimp only
  split
  · rw [setGang_mem]
    exact foldl_mem_wf (fun _ _ => modTask_mem ..) _ wu
  · exact foldl_mem_wf (fun _ _ => modTask_mem ..) _ wu

theorem memory_wf_preemptGangs {l} : preemptGangs s l = some t → Memory.wf t.mem = true := by
  fun_induction preemptGangs s l <;> grind -ring -linarith -order [→ memory_wf_preemptGang]

theorem memory_wf_preemptAll {vs} (h : preemptAll s vs = some t) : Memory.wf t.mem = true := by
  obtain ⟨u, hu, rfl⟩ := Option.map_eq_some_iff.mp h
  exact foldl_mem_wf (fun _ _ => doom_mem ..) _ (memory_wf_preemptGangs w hu)

theorem memory_wf_execPreemption {gang} (h : execPreemption gang s = .next t) : Memory.wf t.mem = true := by
  unfold execPreemption at h
  repeat' split at h
  all_goals grind -ring -linarith -order [startNext_mem, → memory_wf_preemptAll, → orStay_next, Option.map_eq_some_iff]

omit w in
@[simp] theorem imageRows_mem (col slot) (s : State) (cid) : (imageRows col slot s cid).mem = s.mem := by
  unfold imageRows
  split
  · exact foldl_mem (fun _ _ => recallRow_mem ..) _ _
  · exact foldl_mem (fun _ _ => recallLine_mem) _ _

omit w in
@[simp] theorem resumeTask_mem {gang p} : (resumeTask gang s p).mem = s.mem := by
  unfold resumeTask
  dsimp only
  split
  · rfl
  next x _ =>
    rw [acquireOp_mem]
    have clutches (s : State) := foldl_mem (f := fun s c => modClutch s c (fun k => { k with pad := none })) (fun _ _ => modClutch_mem
      ..) x.clutches s
    have rows (slot : Nat) (s : State) := foldl_mem (f := imageRows (colOf x.core) slot) (fun _ _ => imageRows_mem ..) x.clutches s
    split <;> split <;> simp [clutches, rows]

theorem memory_wf_moveBank {src dst len} (h : moveBank s src dst len = some t) : Memory.wf t.mem = true := by
  unfold moveBank at h
  grind -ring -linarith -order [→ memory_wf_flushLines, → memory_wf_copyLines, Option.bind_eq_some_iff, Option.map_eq_some_iff]

theorem memory_wf_moveAlloc {n x col b} {y} (h : moveAlloc s n x col b = some (t, y)) : Memory.wf t.mem = true := by
  unfold moveAlloc at h
  grind -ring -linarith -order [setTask_mem, setGang_mem, freeStacks_mem, freeBank_mem, → memory_wf_moveBank, Option.map_eq_some_iff]

theorem memory_wf_moveTasks {l} : moveTasks s l = some t → Memory.wf t.mem = true := by
  induction l generalizing s with
  | nil =>
    intro h
    cases h
    exact w
  | cons q l ih =>
    intro h
    unfold moveTasks at h
    dsimp only at h
    split at h
    · exact ih w h
    next x _ =>
      split at h
      · cases h
      next u y h1 =>
        refine ih ?_ h
        rw [setTask_mem, freeImage_mem]
        refine memory_wf_moveAlloc ?_ h1
        rw [reserveSeat_mem]
        split
        · exact foldl_mem_wf (fun _ _ => imageRows_mem ..) _ (wf_of_mem_eq (imageBytesOf_mem ..) w)
        · exact wf_of_mem_eq (imageBytesOf_mem ..) w

theorem memory_wf_resumeGang {want seats} : Memory.wf (resumeGang s want seats).mem = true := by
  have wu := foldl_mem_wf (f := resumeTask want.gang) (fun _ _ => resumeTask_mem) seats w
  unfold resumeGang
  dsimp only
  split
  · exact wu
  · exact wu

theorem memory_wf_execPreemptResume {gang} (h : execPreemptResume gang s = .next t) : Memory.wf t.mem = true := by
  unfold execPreemptResume at h
  dsimp only at h
  repeat' split at h
  all_goals grind -ring -linarith -order [→ memory_wf_moveTasks, memory_wf_resumeGang, → orStay_next, Option.map_eq_some_iff]

theorem memory_wf_requeueTask_complete {l} : requeueTask.complete s l = some t → Memory.wf t.mem = true := by
  fun_induction requeueTask.complete s l <;> grind -ring -linarith -order [→ memory_wf_completeAll]

theorem memory_wf_requeueTask {gang n} (h : requeueTask gang s n = some t) : Memory.wf t.mem = true := by
  unfold requeueTask at h
  dsimp only at h
  repeat' split at h
  · cases h
    exact w
  · cases h
  all_goals
    cases h
    refine memory_wf_gateNext ?_
    simp only [setGang_mem, freeImage_mem, freeBank_mem, dropClutches_mem]
    exact foldl_mem_wf (fun _ _ => requeueCmd_mem ..) _ (memory_wf_requeueTask_complete w ‹_›)

theorem memory_wf_requeueTasks {gang l} : requeueTasks gang s l = some t → Memory.wf t.mem = true := by
  fun_induction requeueTasks gang s l <;> grind -ring -linarith -order [→ memory_wf_requeueTask]

theorem memory_wf_requeueGang {gang g} (h : requeueGang s gang g = some t) : Memory.wf t.mem = true := by
  obtain ⟨u, hu, rfl⟩ := Option.map_eq_some_iff.mp h
  have wu := foldl_wf (f := fun s c => schedCount s c 2) (fun _ _ w => wf_of_mem_eq (schedCount_mem ..) w)
    (g.tasks.filterMap (fun t => (taskAt s t).map (fun x => colOf x.core))).eraseDups (memory_wf_requeueTasks w hu)
  dsimp only
  split
  · rw [retryNext_mem]
    exact wu
  · exact wu

theorem memory_wf_execRequeue {gang} (h : execRequeue gang s = .next t) : Memory.wf t.mem = true := by
  unfold execRequeue at h
  repeat' split at h
  all_goals grind -ring -linarith -order [→ memory_wf_requeueGang, → orStay_next]

theorem memory_wf_execMigrationRequest {col} (h : execMigrationRequest col s = .next t) : Memory.wf t.mem = true := by
  unfold execMigrationRequest at h
  grind -ring -linarith -order [startNext_mem]

theorem memory_wf_migrateTask {gang p} (h : migrateTask gang s p = some t) : Memory.wf t.mem = true := by
  unfold migrateTask at h
  dsimp only at h
  split at h
  · exact Option.some.inj h ▸ w
  · split at h
    · cases h
    next h1 =>
      split at h
      · cases h
      next h2 =>
        split at h
        · cases h
        next h3 =>
          have w1 := memory_wf_moveAlloc (memory_wf_releaseCores (memory_wf_stopClutches w h1) h2) h3
          obtain rfl := Option.some.inj h
          rw [acquireOp_mem, moveCmds_mem]
          refine foldl_mem_wf (fun s f => ?_) _ (foldl_mem_wf (fun _ _ => setFifo_mem ..) _ ?_)
          · split <;> simp
          · simpa using w1

theorem memory_wf_migrateTasks {gang l} : migrateTasks gang s l = some t → Memory.wf t.mem = true := by
  fun_induction migrateTasks gang s l <;> grind -ring -linarith -order [→ memory_wf_migrateTask]

theorem memory_wf_stopTasks {l} : stopTasks s l = some t → Memory.wf t.mem = true := by
  fun_induction stopTasks s l <;> grind -ring -linarith -order [→ memory_wf_stopClutches]

theorem memory_wf_migrLand {gang g0} (h : migrLand gang g0 s = some t) : Memory.wf t.mem = true := by
  unfold migrLand at h
  grind -ring -linarith -order [setGang_mem, → memory_wf_preemptGang, Option.map_eq_some_iff]

theorem memory_wf_migrEnd {gang src want} (h : migrEnd gang src want s = .next t) : Memory.wf t.mem = true := by
  unfold migrEnd at h
  split at h
  · cases h
    exact w
  · obtain h | h := orStay_next h
    · obtain ⟨u, hu, rfl⟩ := Option.map_eq_some_iff.mp h
      obtain ⟨v, hv, hu⟩ := Option.bind_eq_some_iff.mp hu
      rw [startNext_mem, schedCount_mem, retryNext_mem]
      exact memory_wf_migrLand (memory_wf_migrateTasks w hv) hu
    · exact h ▸ w

theorem memory_wf_execMigration {gang} (h : execMigration gang s = .next t) : Memory.wf t.mem = true := by
  unfold execMigration at h
  dsimp only at h
  have seat (g : Gang) (l : List (Nat × Seat)) (s : State) : (l.foldl reserveSeat (setGang s gang g)).mem = s.mem :=
    (foldl_mem (fun _ _ => reserveSeat_mem ..) l _).trans (setGang_mem ..)
  repeat' split at h
  all_goals grind -ring -linarith -order [startNext_mem, schedCount_mem, → memory_wf_stopTasks, → memory_wf_migrEnd]

theorem memory_wf_userEnds {u} : Memory.wf (userEnds s u).mem = true := by
  unfold userEnds
  grind -ring -linarith -order [setClutch_mem, setGang_mem, memory_wf_takeTrap, startNext_mem]

theorem memory_wf_settled {us} (h : settled s us = some t) : Memory.wf t.mem = true :=
  foldl_some_wf (f := fun (u : FaultFor) s => match u with
    | .requeued g => match gangAt s g with
      | some x => if x.state == .requeued && !x.tasks.isEmpty then requeueGang s g x else some s
      | none => some s
    | _ => some s) (fun w h => by
      repeat' split at h
      all_goals grind -ring -linarith -order [→ memory_wf_requeueGang]) w h

theorem memory_wf_answer {p fail} (h : answer s p fail = some t) : Memory.wf t.mem = true := by
  obtain ⟨u, hu, rfl⟩ := Option.map_eq_some_iff.mp h
  have wu := memory_wf_settled w hu
  refine foldl_wf (s := { u with pager := u.pager.erase p }) (fun s f w => ?_) p.users wu
  split
  · exact memory_wf_userEnds w
  · exact wf_of_mem_eq (userGoes_mem ..) w

theorem memory_wf_execPagerRecord (h : execPagerRecord s = .next t) : Memory.wf t.mem = true := by
  unfold execPagerRecord at h
  dsimp only at h
  repeat' split at h
  all_goals grind -ring -linarith -order [→ memory_wf_performAt, → memory_wf_answer, pagerSignal_mem, → orStay_next]

theorem memory_wf_pagerTake {p fail} (h : pagerTake s p fail = some t) : Memory.wf t.mem = true := by
  unfold pagerTake at h
  grind -ring -linarith -order [→ memory_wf_walksAt]

theorem memory_wf_execPgfDoneWrite {tag fail} (h : execPgfDoneWrite tag fail s = .next t) : Memory.wf t.mem = true := by
  unfold execPgfDoneWrite at h
  grind -ring -linarith -order [startNext_mem, → memory_wf_answer, → memory_wf_pagerTake]

theorem memory_wf_execPgfHeadWrite {v} (h : execPgfHeadWrite v s = .next t) : Memory.wf t.mem = true := by
  unfold execPgfHeadWrite at h
  grind -ring -linarith -order [startNext_mem]

theorem memory_wf_answerError {code} (h : answerError s code = .next t) : Memory.wf t.mem = true := by
  unfold answerError at h
  grind -ring -linarith -order

theorem memory_wf_performMasked {pa data mask} : Memory.wf (performMasked s pa data mask).mem = true :=
  foldl_wf (fun _ _ w => by split; exacts [memory_wf_performLine w .., w]) _ w

theorem memory_wf_execCxlMemWrite {dpa data mask} (h : execCxlMemWrite dpa data mask s = .next t) : Memory.wf t.mem = true := by
  unfold execCxlMemWrite at h
  grind -ring -linarith -order [→ gatherAll_mem, → memory_wf_hostToken, → memory_wf_answerError, memory_wf_performMasked]

theorem memory_wf_execCxlMemRead {dpa} (h : execCxlMemRead dpa s = .next t) : Memory.wf t.mem = true := by
  unfold execCxlMemRead at h
  grind -ring -linarith -order [holdRead_mem, → memory_wf_homeReads, → memory_wf_answerError]

theorem memory_wf_regRow {r off v} (h : regRow s r off v = .next t) : Memory.wf t.mem = true := by
  unfold regRow at h
  grind -ring -linarith -order [memory_wf_regWrite]

theorem memory_wf_execBar0Access {off size write} (h : execBar0Access off size write s = .next t) : Memory.wf t.mem = true := by
  unfold execBar0Access at h
  grind -ring -linarith -order [regRead_mem, → memory_wf_answerError, → memory_wf_regRow]

theorem memory_wf_execRegisterWrite {r addr write} (h : execRegisterWrite r addr write s = .next t) : Memory.wf t.mem = true := by
  unfold execRegisterWrite at h
  grind -ring -linarith -order [regRead_mem, → memory_wf_answerError, → memory_wf_regRow]

theorem memory_wf_namedWrite {r off v} (h : namedWrite s r off v = .next t) : Memory.wf t.mem = true := by
  unfold namedWrite at h
  grind -ring -linarith -order [→ memory_wf_regRow]

theorem memory_wf_execPartMapWrite {r v} (h : execPartMapWrite r v s = .next t) : Memory.wf t.mem = true := memory_wf_namedWrite w h

theorem memory_wf_execPartCfgWrite {r p v} (h : execPartCfgWrite r p v s = .next t) : Memory.wf t.mem = true := memory_wf_namedWrite w h

theorem memory_wf_execDevCapWrite {r v} (h : execDevCapWrite r v s = .next t) : Memory.wf t.mem = true := memory_wf_namedWrite w h

theorem memory_wf_execCurLimWrite {r v} (h : execCurLimWrite r v s = .next t) : Memory.wf t.mem = true := memory_wf_namedWrite w h

theorem memory_wf_execGovTjWrite {r v} (h : execGovTjWrite r v s = .next t) : Memory.wf t.mem = true := memory_wf_namedWrite w h

theorem memory_wf_execGovTbWrite {r v} (h : execGovTbWrite r v s = .next t) : Memory.wf t.mem = true := memory_wf_namedWrite w h

theorem memory_wf_execValveForceWrite {r col v} (h : execValveForceWrite r col v s = .next t) : Memory.wf t.mem = true :=
  memory_wf_namedWrite w h

theorem memory_wf_execScrubCfgWrite {r col v} (h : execScrubCfgWrite r col v s = .next t) : Memory.wf t.mem = true :=
  memory_wf_namedWrite w h

theorem memory_wf_execCorePgWrite {r col v} (h : execCorePgWrite r col v s = .next t) : Memory.wf t.mem = true := memory_wf_namedWrite w h

theorem memory_wf_execMgmtSemAcquire {r v} (h : execMgmtSemAcquire r v s = .next t) : Memory.wf t.mem = true := memory_wf_namedWrite w h

theorem memory_wf_execMgmtSemRelease {r} (h : execMgmtSemRelease r s = .next t) : Memory.wf t.mem = true := memory_wf_namedWrite w h

theorem memory_wf_execMgmtLeaseExpiry (h : execMgmtLeaseExpiry s = .next t) : Memory.wf t.mem = true := by
  unfold execMgmtLeaseExpiry at h
  grind -ring -linarith -order

theorem memory_wf_execLogClear {r} (h : execLogClear r s = .next t) : Memory.wf t.mem = true := memory_wf_namedWrite w h

theorem memory_wf_execLogIndexSet {r i} (h : execLogIndexSet r i s = .next t) : Memory.wf t.mem = true := memory_wf_namedWrite w h

theorem memory_wf_execHbmSplitLock {v} (h : execHbmSplitLock v s = .next t) : Memory.wf t.mem = true := memory_wf_namedWrite w h

theorem memory_wf_execWearSetWrite {v} (h : execWearSetWrite v s = .next t) : Memory.wf t.mem = true := memory_wf_namedWrite w h

theorem memory_wf_execCoreGate {core} (h : execCoreGate core s = .next t) : Memory.wf t.mem = true := by
  unfold execCoreGate at h
  grind -ring -linarith -order [memory_wf_gateCore]

theorem memory_wf_execCoreUngate {core} (h : execCoreUngate core s = .next t) : Memory.wf t.mem = true := by
  unfold execCoreUngate at h
  grind -ring -linarith -order [ungateCore_mem]

theorem memory_wf_execUalinkRequest {peer off op} (h : execUalinkRequest peer off op s = .next t) : Memory.wf t.mem = true := by
  unfold execUalinkRequest at h
  dsimp only at h
  have put (l : List (Nat × Byte)) {s : State} (w : Memory.wf s.mem = true) :
      Memory.wf (l.foldl (fun s p => performBytes s p.1 [p.2]) s).mem = true := foldl_wf (fun _ _ w => memory_wf_performBytes _ _ _ w) l w
  repeat' split at h
  all_goals grind -ring -linarith -order [→ memory_wf_answerError, → memory_wf_homeReads, holdReads_mem, → gatherBytes_mem,
    → memory_wf_ownLine, memory_wf_performBytes]

theorem memory_wf_writesOut {c} : Memory.wf (writesOut s c).mem = true := by
  unfold writesOut
  dsimp only
  split
  · exact w
  · exact foldl_wf (fun _ _ w => memory_wf_bankPut w ..) _ w

theorem memory_wf_serveReq {c r} : Memory.wf (serveReq c s r).mem = true := by
  unfold serveReq
  split
  · exact memory_wf_bankFetch w _
  · exact memory_wf_sliceDrop w _
  · split
    · exact memory_wf_getD (memory_wf_syncPerform w) w
    · exact w

theorem memory_wf_serveHeld {c} : Memory.wf (serveHeld s c).mem = true := by
  unfold serveHeld
  dsimp only
  split
  · exact memory_wf_writesOut w
  · exact foldl_wf (fun _ _ w => memory_wf_serveReq w) _ (memory_wf_writesOut w (c := c))

theorem memory_wf_busFail {c down g attempts} : Memory.wf (busFail s c down g attempts).mem = true := by
  unfold busFail
  grind -ring -linarith -order [modCol_mem, postVbus_mem, setBus_mem, memory_wf_serveHeld]

theorem memory_wf_drainBeat {c bs} : Memory.wf (drainBeat s c bs).mem = true := by
  unfold drainBeat
  grind -ring -linarith -order [setCol_mem, modCol_mem, memory_wf_bankPut, noteBad_mem]

theorem memory_wf_plainBeat {c down bs} : Memory.wf (plainBeat s c down bs).mem = true := by
  unfold plainBeat
  grind -ring -linarith -order [setBus_mem, memory_wf_serveHeld, memory_wf_busFail, noteBad_mem, requeueRmw_mem]

theorem memory_wf_execVbusBeat {col dir bad} (h : execVbusBeat col dir bad s = .next t) : Memory.wf t.mem = true := by
  unfold execVbusBeat at h
  grind -ring -linarith -order [memory_wf_drainBeat, memory_wf_plainBeat]

theorem memory_wf_execVbusRepair {col dir group found} (h : execVbusRepair col dir group found s = .next t) : Memory.wf t.mem = true := by
  unfold execVbusRepair at h
  grind -ring -linarith -order [postVbus_mem, setBus_mem, memory_wf_serveHeld, memory_wf_busFail]

theorem memory_wf_execBankRead {col bo} (h : execBankRead col bo s = .next t) : Memory.wf t.mem = true := by
  unfold execBankRead at h
  grind -ring -linarith -order [bankReadLine_mem, holdReq_mem]

theorem memory_wf_execBankPartialWrite {col bo data mask} (h : execBankPartialWrite col bo data mask s = .next t)
    : Memory.wf t.mem = true := by
  unfold execBankPartialWrite at h
  grind -ring -linarith -order [modCol_mem, bankCheckOld_mem, setSlice_mem, holdReq_mem, memory_wf_sliceDrop]

theorem memory_wf_execPatrolScrub {col} (h : execPatrolScrub col s = .next t) : Memory.wf t.mem = true := by
  unfold execPatrolScrub at h
  grind -ring -linarith -order [modCol_mem, bankReadLine_mem]

theorem memory_wf_execPowerEstimate (h : execPowerEstimate s = .next t) : Memory.wf t.mem = true := by
  unfold execPowerEstimate at h
  grind -ring -linarith -order [readShunts_mem]

theorem memory_wf_execWeightRefit {kind energy} (h : execWeightRefit kind energy s = .next t) : Memory.wf t.mem = true := by
  unfold execWeightRefit at h
  grind -ring -linarith -order

theorem memory_wf_execCapLoopPass {amps} (h : execCapLoopPass amps s = .next t) : Memory.wf t.mem = true := by
  unfold execCapLoopPass at h
  dsimp only at h
  split at h <;> cases h
  · exact w
  · rw [settleAll_mem]
    dsimp only
    rw [capUnmet_mem, capUps_mem, capDowns_mem]
    exact foldl_mem_wf (fun _ _ => countMargin_mem ..) _ w

theorem memory_wf_execThermalStepDown {col} (h : execThermalStepDown col s = .next t) : Memory.wf t.mem = true := by
  unfold execThermalStepDown at h
  grind -ring -linarith -order [setCol_mem, capRecord_mem, setTherm_mem]

theorem memory_wf_execThermalStepUp {col} (h : execThermalStepUp col s = .next t) : Memory.wf t.mem = true := by
  unfold execThermalStepUp at h
  grind -ring -linarith -order [setCol_mem, setTherm_mem]

theorem memory_wf_execSensorRefresh {col tj tb} (h : execSensorRefresh col tj tb s = .next t) : Memory.wf t.mem = true := by
  unfold execSensorRefresh at h
  grind -ring -linarith -order [setSensors_mem]

theorem memory_wf_execRampGuardTick {demand} (h : execRampGuardTick demand s = .next t) : Memory.wf t.mem = true := by
  unfold execRampGuardTick at h
  grind -ring -linarith -order [rampHolds_mem]

theorem memory_wf_execBallastStop (h : execBallastStop s = .next t) : Memory.wf t.mem = true := by
  unfold execBallastStop at h
  grind -ring -linarith -order [logPost_mem]

theorem memory_wf_execValvePass (h : execValvePass s = .next t) : Memory.wf t.mem = true := by
  unfold execValvePass at h
  obtain rfl := Host.Outcome.next.inj h
  refine foldl_mem_wf (fun s c => ?_) _ w
  dsimp only
  split
  · rfl
  · exact setCol_mem ..

theorem memory_wf_execCoolantAlarm {tower inlet flow} (h : execCoolantAlarm tower inlet flow s = .next t) : Memory.wf t.mem = true := by
  unfold execCoolantAlarm at h
  grind -ring -linarith -order [logPost_mem]

theorem memory_wf_execEmergencyBegin {col bank temp} (h : execEmergencyBegin col bank temp s = .next t) : Memory.wf t.mem = true := by
  unfold execEmergencyBegin at h
  grind -ring -linarith -order [logPost_mem, setSensors_mem]

theorem memory_wf_execEmergencyEnd (h : execEmergencyEnd s = .next t) : Memory.wf t.mem = true := by
  unfold execEmergencyEnd at h
  dsimp only at h
  split at h <;> cases h
  · exact w
  · rw [logPost_mem, shiftTimes_mem]
    exact foldl_wf (fun _ _ w => memory_wf_gateColumn w) _ w

theorem memory_wf_execCapFrame {port bytes} (h : execCapFrame port bytes s = .next t) : Memory.wf t.mem = true := by
  unfold execCapFrame at h
  grind -ring -linarith -order [logPost_mem]

omit w in
theorem memory_wf_execReset (h : execReset s = .next t) : Memory.wf t.mem = true := by
  unfold execReset at h
  grind -ring -linarith -order [memory_wf_afterReset]

omit w in
theorem memory_wf_execPowerLoss (h : execPowerLoss s = .next t) : Memory.wf t.mem = true := by
  unfold execPowerLoss at h
  grind -ring -linarith -order [memory_wf_afterReset]

theorem memory_wf_execEmergencyTimeout (h : execEmergencyTimeout s = .next t) : Memory.wf t.mem = true := by
  unfold execEmergencyTimeout at h
  grind -ring -linarith -order [memory_wf_afterReset, fatalError_mem]

theorem memory_wf_execWidthChangeRequest {l a w0} (h : execWidthChangeRequest l a w0 s = .next t) : Memory.wf t.mem = true := by
  unfold execWidthChangeRequest at h
  grind -ring -linarith -order [setLink_mem, linkLog_mem]

theorem memory_wf_loseLink {l} (h : loseLink s l = some t) : Memory.wf t.mem = true := by
  unfold loseLink at h
  grind -ring -linarith -order [→ memory_wf_killWhere, fatalError_mem, setLink_mem, linkLog_mem, dropRegions_mem, losePort_mem,
    Option.map_eq_some_iff]

theorem memory_wf_execWidthChange {l o} (h : execWidthChange l o s = .next t) : Memory.wf t.mem = true := by
  unfold execWidthChange at h
  dsimp only at h
  repeat' split at h
  all_goals grind -ring -linarith -order [setLink_mem, linkLog_mem, startWidth_mem, → memory_wf_loseLink, → orStay_next]

theorem memory_wf_execFirmwareImage {src img} (h : execFirmwareImage src img s = .next t) : Memory.wf t.mem = true := by
  unfold execFirmwareImage at h
  grind -ring -linarith -order [logPost_mem, readSensors_mem]

theorem memory_wf_execSpdmRequest {q} (h : execSpdmRequest q s = .next t) : Memory.wf t.mem = true := by
  unfold execSpdmRequest at h
  grind -ring -linarith -order

theorem memory_wf_exec {i} (h : exec i s = .next t) : Memory.wf t.mem = true := by
  cases i with dsimp only [exec] at h
  | add | sub => exact memory_wf_word w (fun _ _ w => memory_wf_addSubWord w) h
  | addc | subb | mad | bfx | bfi | sel | isat | aget | movi | movh | pack | unpack | fadd | fsub | fmul | fma | fmin | fmax
    | fcls | frnd | fscl | fdot2 | fdot4 | sysr => exact memory_wf_word w (fun _ _ w => memory_wf_aluWord w) h
  | mul | mulh | div | rem | min | max | and | or | xor | andn => exact memory_wf_word w (fun _ _ w => memory_wf_binWord w) h
  | neg | abs | not | clz | ctz | popc | brev => exact memory_wf_word w (fun _ _ w => memory_wf_unWord w) h
  | shl | shr | sar | rotl => exact memory_wf_word w (fun _ _ w => memory_wf_shiftWord w) h
  | cmp => exact memory_wf_word w (fun _ _ w => memory_wf_cmpWord w) h
  | aset | amov | br | exit | kjoin | kleave | kwait | kop | yield | nop | ipi =>
    exact memory_wf_word w (fun _ _ w => by exact w) h
  | aadv => exact memory_wf_execAadv w h
  | mov => exact memory_wf_execMov w h
  | shfl => exact memory_wf_execShfl w h
  | bcast => exact memory_wf_execBcast w h
  | vote | redux | scan | atxStat | fdiv | fsqrt | frcp | frsq | fex2 | flg2 | fsin | fcos =>
    exact memory_wf_word w (fun _ _ w => memory_wf_aluLong w) h
  | brx => exact memory_wf_execBrx w h
  | call => exact memory_wf_execCall w h
  | callx => exact memory_wf_execCallx w h
  | ret => exact memory_wf_execRet w h
  | kcmp => exact memory_wf_execKcmp w h
  | ld | ldx => exact memory_wf_word w (fun _ _ w => memory_wf_loadWord w) h
  | st => exact memory_wf_execSt w h
  | ldv => exact memory_wf_execLdv w h
  | stv => exact memory_wf_execStv w h
  | prf => exact memory_wf_execPrf w h
  | fence => exact memory_wf_execFence w h
  | cwb => exact memory_wf_execCwb w h
  | cinv => exact memory_wf_execCinv w h
  | qpush => exact memory_wf_execQpush w h
  | qpop => exact memory_wf_execQpop w h
  | qcfgSet => exact memory_wf_execQcfgSet w h
  | qcfgGet => exact memory_wf_execQcfgGet w h
  | atom | red => exact memory_wf_word w (fun _ _ w => memory_wf_atomicWord w) h
  | atxBegin => exact memory_wf_execAtxBegin w h
  | atxEnd => exact memory_wf_execAtxEnd w h
  | atxAbort => exact memory_wf_execAtxAbort w h
  | atxPin => exact memory_wf_execAtxPin w h
  | fcmp => exact memory_wf_execFcmp w h
  | fcvt | icvt | fpk => exact memory_wf_word w (fun _ _ w => memory_wf_convWord w) h
  | mjob => exact memory_wf_execMjob w h
  | mcmp => exact memory_wf_execMcmp w h
  | mplane => exact memory_wf_execMplane w h
  | mnplane => exact memory_wf_execMnplane w h
  | mscl => exact memory_wf_execMscl w h
  | ringCfg => exact memory_wf_execRingCfg w h
  | ringAcq => exact memory_wf_execRingAcq w h
  | ringRel => exact memory_wf_execRingRel w h
  | cpy | nmeGth | nmeRed | nmeCvt | winst => exact memory_wf_word w (fun _ _ w => memory_wf_issuePlain w) h
  | astr => exact memory_wf_execAstr w h
  | wqry => exact memory_wf_execWqry w h
  | tlwait => exact memory_wf_execTlwait w h
  | tlget => exact memory_wf_execTlget w h
  | tlgetClr => exact memory_wf_execTlgetClr w h
  | vfsend => exact memory_wf_execVfsend w h
  | vfrecv => exact memory_wf_execVfrecv w h
  | vffree => exact memory_wf_execVffree w h
  | leap => exact memory_wf_execLeap w h
  | launch => exact memory_wf_execLaunch w h
  | join => exact memory_wf_execJoin w h
  | barArr => exact memory_wf_execBarArr w h
  | barWait => exact memory_wf_execBarWait w h
  | sbarArr => exact memory_wf_execSbarArr w h
  | sbarWait => exact memory_wf_execSbarWait w h
  | waitaddr => exact memory_wf_execWaitaddr w h
  | wake => exact memory_wf_execWake w h
  | deqInit => exact memory_wf_execDeqInit w h
  | deqPush => exact memory_wf_execDeqPush w h
  | deqPop | deqSteal => exact memory_wf_word w (fun _ _ w => memory_wf_deqTake w) h
  | sysw => exact memory_wf_execSysw w h
  | tret => exact memory_wf_execTret w h
  | wfi => exact memory_wf_execWfi w h
  | tlbinvVa | tlbinvCtx | tlbinvAll => exact memory_wf_word w (fun _ _ w => memory_wf_tlbinvWord w) h
  | icinvLine => exact memory_wf_execIcinvLine w h
  | icinvAll => exact memory_wf_execIcinvAll w h
  | halt => exact memory_wf_execHalt w h
  | dualWord => exact memory_wf_execDualWord w h
  | issueCycle => exact memory_wf_execIssueCycle w h
  | longResultWrite => exact memory_wf_execLongResultWrite w h
  | kwaitRelease => exact memory_wf_execKwaitRelease w h
  | queueWaitResume => exact memory_wf_execQueueWaitResume w h
  | ringAcqResume => exact memory_wf_execRingAcqResume w h
  | vfifoWaitResume => exact memory_wf_execVfifoWaitResume w h
  | tlwaitReturn => exact memory_wf_execTlwaitReturn w h
  | joinReturn => exact memory_wf_execJoinReturn w h
  | waitaddrReread => exact memory_wf_execWaitaddrReread w h
  | sbarWaitResume => exact memory_wf_execSbarWaitResume w h
  | barWaitResume => exact memory_wf_execBarWaitResume w h
  | launchQueueResume => exact memory_wf_execLaunchQueueResume w h
  | leapLand => exact memory_wf_execLeapLand w h
  | registerRecall => exact memory_wf_execRegisterRecall w h
  | windowParking => exact memory_wf_execWindowParking w h
  | regionCommit => exact memory_wf_execRegionCommit w h
  | engineAsyncDelivery => exact memory_wf_execEngineAsyncDelivery w h
  | interruptEntry => exact memory_wf_execInterruptEntry w h
  | timerExpiry => exact memory_wf_execTimerExpiry w h
  | copyChunk => exact memory_wf_execCopyChunk w h
  | streamElement => exact memory_wf_execStreamElement w h
  | nmeCommandRun => exact memory_wf_execNmeCommandRun w h
  | matrixTile => exact memory_wf_execMatrixTile w h
  | matrixJobComplete => exact memory_wf_execMatrixJobComplete w h
  | engineCommandComplete => exact memory_wf_execEngineCommandComplete w h
  | installStart => exact memory_wf_execInstallStart w h
  | installUnitProgram => exact memory_wf_execInstallUnitProgram w h
  | installCommit => exact memory_wf_execInstallCommit w h
  | installComplete => exact memory_wf_execInstallComplete w h
  | readingRoomFill => exact memory_wf_execReadingRoomFill w h
  | cacheFill => exact memory_wf_execCacheFill w h
  | l1EvictTimeout => exact memory_wf_execL1EvictTimeout w h
  | cwqDrain => exact memory_wf_execCwqDrain w h
  | transientRequest => exact memory_wf_execTransientRequest w h
  | tokenResponse => exact memory_wf_execTokenResponse w h
  | transientTimeout => exact memory_wf_execTransientTimeout w h
  | persistentActivate => exact memory_wf_execPersistentActivate w h
  | persistentDeactivate => exact memory_wf_execPersistentDeactivate w h
  | tokenWriteback => exact memory_wf_execTokenWriteback w h
  | syncEngineAtomic => exact memory_wf_execSyncEngineAtomic w h
  | pageWalk => exact memory_wf_execPageWalk w h
  | pagerRecord => exact memory_wf_execPagerRecord w h
  | pgfDoneWrite => exact memory_wf_execPgfDoneWrite w h
  | pgfHeadWrite => exact memory_wf_execPgfHeadWrite w h
  | promoGo => exact memory_wf_execPromoGo w h
  | promotionComplete => exact memory_wf_execPromotionComplete w h
  | tokenEnqueue => exact memory_wf_execTokenEnqueue w h
  | launchRecordCheck => exact memory_wf_execLaunchRecordCheck w h
  | dependenceEvaluation => exact memory_wf_execDependenceEvaluation w h
  | preTranslation => exact memory_wf_execPreTranslation w h
  | gangReserve => exact memory_wf_execGangReserve w h
  | gangDispatch => exact memory_wf_execGangDispatch w h
  | preemption => exact memory_wf_execPreemption w h
  | preemptResume => exact memory_wf_execPreemptResume w h
  | requeue => exact memory_wf_execRequeue w h
  | migrationRequest => exact memory_wf_execMigrationRequest w h
  | migration => exact memory_wf_execMigration w h
  | taskTermination => exact memory_wf_execTaskTermination w h
  | ctxRefresh => exact memory_wf_execCtxRefresh w h
  | ctxKill => exact memory_wf_execCtxKill w h
  | killComplete => exact memory_wf_execKillComplete w h
  | llCfgWrite => exact memory_wf_execLlCfgWrite w h
  | cxlMemWrite => exact memory_wf_execCxlMemWrite w h
  | cxlMemRead => exact memory_wf_execCxlMemRead w h
  | bar0Access => exact memory_wf_execBar0Access w h
  | ualinkRequest => exact memory_wf_execUalinkRequest w h
  | registerWrite => exact memory_wf_execRegisterWrite w h
  | vbusBeat => exact memory_wf_execVbusBeat w h
  | vbusRepair => exact memory_wf_execVbusRepair w h
  | bankRead => exact memory_wf_execBankRead w h
  | bankPartialWrite => exact memory_wf_execBankPartialWrite w h
  | patrolScrub => exact memory_wf_execPatrolScrub w h
  | scrubCfgWrite => exact memory_wf_execScrubCfgWrite w h
  | powerEstimate => exact memory_wf_execPowerEstimate w h
  | weightRefit => exact memory_wf_execWeightRefit w h
  | capLoopPass => exact memory_wf_execCapLoopPass w h
  | thermalStepDown => exact memory_wf_execThermalStepDown w h
  | thermalStepUp => exact memory_wf_execThermalStepUp w h
  | rampGuardTick => exact memory_wf_execRampGuardTick w h
  | ballastStop => exact memory_wf_execBallastStop w h
  | valvePass => exact memory_wf_execValvePass w h
  | valveForceWrite => exact memory_wf_execValveForceWrite w h
  | coolantAlarm => exact memory_wf_execCoolantAlarm w h
  | emergencyBegin => exact memory_wf_execEmergencyBegin w h
  | emergencyEnd => exact memory_wf_execEmergencyEnd w h
  | emergencyTimeout => exact memory_wf_execEmergencyTimeout w h
  | capFrame => exact memory_wf_execCapFrame w h
  | partMapWrite => exact memory_wf_execPartMapWrite w h
  | partCfgWrite => exact memory_wf_execPartCfgWrite w h
  | devCapWrite => exact memory_wf_execDevCapWrite w h
  | curLimWrite => exact memory_wf_execCurLimWrite w h
  | govTjWrite => exact memory_wf_execGovTjWrite w h
  | govTbWrite => exact memory_wf_execGovTbWrite w h
  | mgmtSemAcquire => exact memory_wf_execMgmtSemAcquire w h
  | mgmtSemRelease => exact memory_wf_execMgmtSemRelease w h
  | mgmtLeaseExpiry => exact memory_wf_execMgmtLeaseExpiry w h
  | logClear => exact memory_wf_execLogClear w h
  | logIndexSet => exact memory_wf_execLogIndexSet w h
  | hbmSplitLock => exact memory_wf_execHbmSplitLock w h
  | wearSetWrite => exact memory_wf_execWearSetWrite w h
  | corePgWrite => exact memory_wf_execCorePgWrite w h
  | coreGate => exact memory_wf_execCoreGate w h
  | coreUngate => exact memory_wf_execCoreUngate w h
  | widthChangeRequest => exact memory_wf_execWidthChangeRequest w h
  | widthChange => exact memory_wf_execWidthChange w h
  | reset => exact memory_wf_execReset h
  | firmwareImage => exact memory_wf_execFirmwareImage w h
  | spdmRequest => exact memory_wf_execSpdmRequest w h
  | powerLoss => exact memory_wf_execPowerLoss h
  | cxlCacheSnoop => exact memory_wf_execCxlCacheSnoop w h
  | sensorRefresh => exact memory_wf_execSensorRefresh w h
  | scall | brk => exact memory_wf_word w (fun _ _ _ => by trivial) h

omit w in
@[simp] theorem tallied_mem (i s t) : (tallied i s t).mem = t.mem := by
  unfold tallied
  repeat' split
  · exact count_mem ..
  · exact count_mem ..
  · exact wordEvents_mem ..
  · rfl
  · rfl

theorem memory_wf_act {i} (h : act i s = .next t) : Memory.wf t.mem = true := by
  unfold act at h
  split at h
  next h1 =>
    cases h
    rw [tallied_mem]
    exact memory_wf_exec w h1
  · exact memory_wf_exec w h

theorem memory_wf_fetchTrap {cid cause addr p} : Memory.wf (fetchTrap s cid cause addr p).mem = true := by
  unfold fetchTrap
  grind -ring -linarith -order [→ memory_wf_completeAll, memory_wf_takeTrap]

theorem memory_wf_issueNow (h : issueNow s = .next t) : Memory.wf t.mem = true := by
  unfold issueNow at h
  grind -ring -linarith -order [memory_wf_fetchAt, → memory_wf_stopAll, memory_wf_pageFault, → memory_wf_act, memory_wf_fetchTrap]

theorem memory_wf_issueWord (h : issueWord s = .next t) : Memory.wf t.mem = true := by
  unfold issueWord at h
  grind -ring -linarith -order [→ memory_wf_completeAll, → memory_wf_issueNow]

theorem memory_wf_clutchStep (h : clutchStep s = .next t) : Memory.wf t.mem = true := by
  unfold clutchStep at h
  grind -ring -linarith -order [→ memory_wf_act, → memory_wf_issueWord]

theorem memory_wf_stepNext (h : stepNext s = .next t) : Memory.wf t.mem = true := by
  unfold stepNext at h
  split at h
  · refine memory_wf_act ?_ h
    exact w
  · cases h
  · exact memory_wf_clutchStep (s := { s with issuing := false }) w h
  · exact memory_wf_clutchStep w h
  · refine memory_wf_act ?_ h
    exact w

theorem memory_wf_stepFrom (h : stepFrom s = .next t) : Memory.wf t.mem = true := by
  unfold stepFrom at h
  grind -ring -linarith -order [→ memory_wf_act, → memory_wf_stepNext]

theorem memory_wf_step (h : step s = .next t) : Memory.wf t.mem = true := by
  unfold step at h
  grind -ring -linarith -order [tick_mem, → memory_wf_stepFrom]

omit w in
/-- Settles O59: every function that makes the next state keeps the form (`memory_wf_step`), down to the few that write bytes. -/
theorem everyStepKeepsMemoryCanonical : Obligations.EveryStepKeepsMemoryCanonical :=
  fun _ _ w h => memory_wf_step w h

end Sys2Proof.Machine
end

section
/-! PROOF. Bytes of lines, of an L1 and of a scratchpad read back as written (06 R221, 05 R175), and the extension of a loaded value
(10 R357): O15. -/

namespace Sys2Proof.Machine

variable {s : State} {i j : Nat}

theorem getLsbD_byteMask (k : Nat) : (0xFF#1024).getLsbD k = decide (k < 8) := by
  rw [show (0xFF#1024) = BitVec.ofNat 1024 (2 ^ 8 - 1) from rfl, BitVec.getLsbD_ofNat, Nat.testBit_two_pow_sub_one]
  by_cases h : k < 8
  · simp [h, show k < 1024 by omega]
  · simp [h]

/-- A byte of a line after one of its bytes was replaced. -/
theorem lineByte_lineSet (d : BitVec 1024) (b : Byte) (hi : i < 128) (hj : j < 128) :
    lineByte (lineSet d i b) j = if j = i then b else lineByte d j := by
  refine BitVec.eq_of_getLsbD_eq fun k hk => ?_
  simp only [lineByte, lineSet, BitVec.getLsbD_extractLsb', BitVec.getLsbD_or, BitVec.getLsbD_and, BitVec.getLsbD_not, BitVec.getLsbD_shiftLeft,
    BitVec.getLsbD_setWidth, getLsbD_byteMask, hk, show 8 * j + k < 1024 by omega, decide_true, Bool.true_and]
  obtain h | rfl | h := Nat.lt_trichotomy j i
  · simp [show 8 * j + k < 8 * i by omega, show j ≠ i by omega, hk]
  · simp [show ¬8 * j + k < 8 * j by omega, show 8 * j + k - 8 * j = k by omega, hk]
    omega
  · simp [show ¬8 * j + k < 8 * i by omega, show ¬8 * j + k - 8 * i < 8 by omega, show j ≠ i by omega, hk,
      BitVec.getLsbD_of_ge b (8 * j + k - 8 * i) (by omega)]

theorem getLsbD_bit128 (m : BitVec 128) (hj : j < 128) : (bit128 m i).getLsbD j = (m.getLsbD j || decide (j = i)) := by
  rw [bit128, BitVec.getLsbD_or, BitVec.getLsbD_shiftLeft]
  congr 1
  obtain h | rfl | h := Nat.lt_trichotomy j i
  · simp [h, show j ≠ i by omega]
  · simp [hj]
  · simp [hj, show ¬j < i by omega, show j ≠ i by omega, show j - i ≠ 0 by omega]

theorem l1At_setL1 (s : State) (i line : Nat) (x : Option L1Line) (j l : Nat) :
    l1At (setL1 s i line x) j l = if j = i ∧ l = line then x else l1At s j l := by
  unfold l1At setL1
  rw [tget_tput]
  by_cases hj : j = i
  · subst hj
    rw [if_pos rfl, tget_tput]
    by_cases hl : l = line
    · rw [if_pos hl, if_pos ⟨rfl, hl⟩]
    · rw [if_neg hl, if_neg fun h => hl h.2]
  · rw [if_neg hj, if_neg fun h => hj h.1]

/-- What a core reads of a line that its L1 holds, or over the column. -/
def lineRead (d : BitVec 1024) (x : Option L1Line) (k : Nat) : Byte :=
  match x with
  | some l => if (l.valid ||| l.dirty).getLsbD k then lineByte l.data k else lineByte d k
  | none => lineByte d k

theorem coreByte_eq (s : State) (i pa : Nat) :
    coreByte s i pa = lineRead (columnLine s (colOf i) (pa / 128)) (l1At s i (pa / 128)) (pa % 128) := rfl

/-- A byte stored into an L1 is what its core reads there, and the core reads every other byte as before. -/
theorem coreByte_l1StoreByte (s : State) (i pa q : Nat) (b : Byte) :
    coreByte (l1StoreByte s i pa b) i q = if q = pa then b else coreByte s i q := by
  have hq : q % 128 < 128 := Nat.mod_lt _ (by decide)
  have hp : pa % 128 < 128 := Nat.mod_lt _ (by decide)
  have hcol : columnLine (l1StoreByte s i pa b) (colOf i) (q / 128) = columnLine s (colOf i) (q / 128) := rfl
  rw [coreByte_eq, coreByte_eq, hcol, l1StoreByte, l1At_setL1]
  by_cases hline : q / 128 = pa / 128
  · rw [if_pos ⟨rfl, hline⟩, hline]
    simp only [lineRead, BitVec.getLsbD_or, getLsbD_bit128 _ hq, lineByte_lineSet _ _ hp hq]
    by_cases hbyte : q % 128 = pa % 128
    · simp [show q = pa by omega]
    · have hne : q ≠ pa := fun h => hbyte (by rw [h])
      cases l1At s i (pa / 128) <;> simp [hbyte, hne, L1Line.empty]
  · rw [if_neg fun h => hline h.2, if_neg fun h => hline (by rw [h])]

theorem coreByte_l1Store (i q : Nat) (bs : List Byte) (s : State) (pa : Nat) :
    coreByte (l1Store s i pa bs) i q = if pa ≤ q ∧ q < pa + bs.length then bs.getD (q - pa) 0 else coreByte s i q := by
  induction bs generalizing s pa with
  | nil => rw [if_neg (by simp)]; rfl
  | cons b bs ih =>
    rw [l1Store, ih, coreByte_l1StoreByte, List.length_cons]
    by_cases hhere : q = pa
    · rw [if_neg (by omega), if_pos hhere, if_pos (by omega), hhere, Nat.sub_self, List.getD_cons_zero]
    · by_cases hlater : pa + 1 ≤ q ∧ q < pa + 1 + bs.length
      · rw [if_pos hlater, if_pos (by omega), show q - pa = (q - (pa + 1)) + 1 by omega, List.getD_cons_succ]
      · rw [if_neg hlater, if_neg hhere, if_neg (by omega)]

/-- A write to one scratchpad, read in it and in another. -/
theorem spGet_spWrite_fits (s : State) (core off q : Nat) (bs : List Byte) (hfits : off + bs.length ≤ 0x200000) (hq : q < 0x200000) :
    spGet (spWrite s core off bs) core q = (if off ≤ q ∧ q < off + bs.length then bs.getD (q - off) 0 else spGet s core q) ∧
    ∀ other, other ≠ core → spGet (spWrite s core off bs) other q = spGet s other q := by
  refine ⟨?_, fun other hother => ?_⟩
  · rw [spGet_spWrite, show 0x200000 * core + q - (0x200000 * core + off) = q - off by omega]
    by_cases h : off ≤ q ∧ q < off + bs.length
    · rw [if_pos h, if_pos (by omega)]
    · rw [if_neg h, if_neg (by omega)]
  · rw [spGet_spWrite, if_neg (by omega)]

/-- A signed value below 32 bits is sign-extended to 32, any other is kept as it is. -/
theorem extendLoad_eq {t : Ty} {n : Nat} (x : Nat) (hn : memSize t = some n) :
    extendLoad t x = if tySigned t ∧ n < 4 then ((BitVec.ofNat (8 * n) x).signExtend 32).toNat else (BitVec.ofNat (8 * n) x).toNat := by
  simp only [extendLoad, hn, Option.getD_some, Bool.and_eq_true, decide_eq_true_eq]
  by_cases h : tySigned t = true ∧ n < 4
  · rw [if_pos h, if_pos ⟨h.1, by omega⟩, sgn_eq, wrapNat_eq, BitVec.signExtend]
  · rw [if_neg h, if_neg fun k => h ⟨k.1, by omega⟩, BitVec.toNat_ofNat]

/-- Settles O15: a stored byte is read where it was written (`coreByte_l1Store`, `spGet_spWrite_fits`), and `extendLoad_eq`. -/
theorem bytesReadBackAsWritten : Obligations.BytesReadBackAsWritten :=
  ⟨fun s i pa q bs => coreByte_l1Store i q bs s pa, spGet_spWrite_fits, fun _ b h => extendLoad_eq (leNat b) h⟩

end Sys2Proof.Machine
end

section
/-! PROOF. The checks of one lane of an access and of its lanes together (06 R214, 05 R194, 12 R455): O16. -/

namespace Sys2Proof.Machine

variable {s u : State} {q : Req} {ea : Dword} {n : Nat}

/-! ### Causes of a failing access -/

/-- The causes that the checks of an access give (06 R214). -/
def accessCauses : List Nat := [cWindow, cLeap, cMisalign, cBounds, cPage, cProtection, cPoison]

theorem xlTable_cause {core ctx va k : Nat} {user : Bool} {acc : AccKind} (h : xlTable s core ctx user va acc = .error (.trap k)) :
    k ∈ accessCauses := by
  unfold xlTable at h
  repeat' split at h
  all_goals cases h
  all_goals decide

theorem xlOne_cause {core ctx va k : Nat} {user : Bool} {hit : Option Extent} {acc : AccKind}
    (h : xlOne s core ctx user hit va acc = .error (.trap k)) : k ∈ accessCauses := by
  unfold xlOne at h
  split at h
  · repeat' split at h
    all_goals cases h
    decide
  · exact xlTable_cause h

theorem xlRange_cause {core ctx va k : Nat} {user : Bool} {hit : Option Extent} {acc : AccKind}
    (h : xlRange s core ctx user hit va n acc = .error (.trap k)) : k ∈ accessCauses := by
  unfold xlRange at h
  dsimp only at h
  split at h
  · cases hone : xlOne s core ctx user hit va acc with
    | ok pa => rw [hone] at h; cases h
    | error e => rw [hone] at h; cases h; exact xlOne_cause hone
  · split at h
    case h_4 hone _ =>
      cases h
      split
      · decide
      · exact xlOne_cause hone
    case h_5 hone _ => cases h; exact xlOne_cause hone
    case h_6 hone => cases h; exact xlOne_cause hone
    all_goals cases h

theorem checkPhys_cause {ch : List (Nat × Nat)} {k : Nat} (h : checkPhys s q ch n = .error (.trap k)) : k ∈ accessCauses := by
  unfold checkPhys at h
  repeat' split at h
  all_goals cases h
  all_goals decide

/-! ### The checks of one lane, in their order -/

/-- The address lies in no window, the access leaves its window, or a host core names a window that it has not. -/
def WindowFails (q : Req) (va n : Nat) : Prop :=
  windowOf va = .hole ∨ windowOf (va + n - 1) ≠ windowOf va ∨ (q.host = true ∧ (windowOf va = .colBank ∨ windowOf va = .scratch))

def LeapFails (q : Req) (va : Nat) : Prop := windowOf va = .scratch ∧ q.landed = true

def AlignFails (q : Req) (va : Nat) : Prop := q.align ≠ 0 ∧ va % q.align ≠ 0

/-- The access leaves the range of its address register. -/
def RangeFails (q : Req) (va n : Nat) : Prop := ∃ a, q.areg = some a ∧ (va < a.base.toNat ∨ a.limit.toNat < va + n)

/-- The access leaves what the task has in its window. -/
def TaskFails (q : Req) (va n : Nat) : Prop :=
  (windowOf va = .scratch ∧ ∀ t, q.task = some t → allocLen t < va - scratchBase + n) ∨
    (windowOf va = .colBank ∧ ∀ t, q.task = some t → t.cbLen < va - colBankBase + n)

/-- The address register lacks the permission. -/
def PermFails (q : Req) : Prop :=
  ∃ a, q.areg = some a ∧ ((q.acc = .load ∧ a.r = false) ∨ ((q.acc = .store ∨ q.acc = .atomic) ∧ a.w = false))

/-- Where an access that passes its own checks lies. -/
def located (s : State) (q : Req) (va n : Nat) : Except XErr Place :=
  match windowOf va, q.task with
  | .scratch, some t => .ok (.scratch t.core (t.spOff + (va - scratchBase)))
  | .colBank, some t =>
    match colExt t with
    | none => .error (.trap cProtection)
    | some e =>
      if declares e q.acc then
        let ch := [(bankBase + colOf t.core * (4 * gib) + t.cbBase + (va - colBankBase), n)]
        if q.acc = .atomic && q.view = .l1 && unitPoison s q.core ch then .error (.trap cPoison) else checkPhys s q ch n
      else .error (.trap cProtection)
  | .weight, _ =>
    if q.acc = .store ∨ q.acc = .atomic then .error (.trap cProtection)
    else match xlRange s q.core q.ctx q.user (q.task.bind (fun t => extHit t va n)) va n q.acc with
      | .error e => .error e
      | .ok ch => checkPhys s q ch n
  | _, _ =>
    match xlRange s q.core q.ctx q.user (q.task.bind (fun t => extHit t va n)) va n q.acc with
    | .error e => .error e
    | .ok ch => checkPhys s q ch n

open Classical in
/-- The checks of one lane, in their order. -/
theorem locate_eq (s : State) (q : Req) (ea : Dword) (n : Nat) : locate s q ea n =
    if WindowFails q ea.toNat n then .error (.trap cWindow)
    else if LeapFails q ea.toNat then .error (.trap cLeap)
    else if AlignFails q ea.toNat then .error (.trap cMisalign)
    else if RangeFails q ea.toNat n then .error (.trap cBounds)
    else if TaskFails q ea.toNat n then .error (.trap cBounds)
    else if PermFails q then .error (.trap cProtection)
    else located s q ea.toNat n := by
  unfold locate
  dsimp only
  by_cases h1 : windowOf ea.toNat = .hole ∨ windowOf (ea.toNat + n - 1) ≠ windowOf ea.toNat
  · rw [if_pos h1, if_pos (by unfold WindowFails; tauto)]
  rw [if_neg h1]
  by_cases h2 : q.host = true ∧ (windowOf ea.toNat = .colBank ∨ windowOf ea.toNat = .scratch)
  · rw [if_pos h2, if_pos (by unfold WindowFails; tauto)]
  rw [if_neg h2, if_neg (c := WindowFails q ea.toNat n) (by unfold WindowFails; tauto)]
  refine if_congr Iff.rfl rfl (if_congr Iff.rfl rfl (if_congr ?range rfl (if_congr ?task rfl (if_congr ?perm rfl rfl))))
  case range =>
    unfold RangeFails
    cases q.areg <;> simp
  case task =>
    unfold TaskFails
    cases windowOf ea.toNat <;> cases q.task <;> simp
  case perm =>
    unfold PermFails
    cases q.areg <;> cases q.acc <;> simp

theorem located_cause {va k : Nat} (h : located s q va n = .error (.trap k)) : k ∈ accessCauses := by
  unfold located at h
  dsimp only at h
  have range : ∀ {hit : Option Extent}, (match xlRange s q.core q.ctx q.user hit va n q.acc with
      | .error e => .error e
      | .ok ch => checkPhys s q ch n) = Except.error (XErr.trap k) → k ∈ accessCauses := by
    intro hit h
    split at h
    next hx =>
      cases h
      exact xlRange_cause hx
    next => exact checkPhys_cause h
  split at h
  · cases h
  · split at h
    · cases h
      decide
    · split at h
      · split at h
        · cases h
          decide
        · exact checkPhys_cause h
      · cases h
        decide
  · split at h
    · cases h
      decide
    · exact range h
  · exact range h

theorem locate_cause {k : Nat} (h : locate s q ea n = .error (.trap k)) : k ∈ accessCauses := by
  rw [locate_eq] at h
  repeat' split at h
  · cases h; decide
  · cases h; decide
  · cases h; decide
  · cases h; decide
  · cases h; decide
  · cases h; decide
  · exact located_cause h

/-- The first clause of O16: which check gives an access of one lane its cause. -/
theorem locate_in_order (s : State) (q : Req) (ea : Dword) (n : Nat) :
    (WindowFails q ea.toNat n → locate s q ea n = .error (.trap cWindow)) ∧
    (¬ WindowFails q ea.toNat n → LeapFails q ea.toNat → locate s q ea n = .error (.trap cLeap)) ∧
    (¬ WindowFails q ea.toNat n → ¬ LeapFails q ea.toNat → AlignFails q ea.toNat → locate s q ea n = .error (.trap cMisalign)) ∧
    (¬ WindowFails q ea.toNat n → ¬ LeapFails q ea.toNat → ¬ AlignFails q ea.toNat → RangeFails q ea.toNat n ∨ TaskFails q ea.toNat n →
      locate s q ea n = .error (.trap cBounds)) ∧
    (¬ WindowFails q ea.toNat n → ¬ LeapFails q ea.toNat → ¬ AlignFails q ea.toNat → ¬ RangeFails q ea.toNat n → ¬ TaskFails q ea.toNat n →
      PermFails q → locate s q ea n = .error (.trap cProtection)) ∧
    (¬ WindowFails q ea.toNat n → ¬ LeapFails q ea.toNat → ¬ AlignFails q ea.toNat → ¬ RangeFails q ea.toNat n → ¬ TaskFails q ea.toNat n →
      ¬ PermFails q → windowOf ea.toNat = .scratch → ∀ t, q.task = some t →
      locate s q ea n = .ok (.scratch t.core (t.spOff + (ea.toNat - scratchBase)))) := by
  rw [locate_eq]
  refine ⟨fun h => if_pos h, fun hw h => ?_, fun hw hl h => ?_, fun hw hl ha h => ?_, fun hw hl ha hr ht h => ?_,
    fun hw hl ha hr ht hp hwin t hq => ?_⟩
  · rw [if_neg hw, if_pos h]
  · rw [if_neg hw, if_neg hl, if_pos h]
  · rw [if_neg hw, if_neg hl, if_neg ha]
    obtain h | h := h
    · rw [if_pos h]
    · rw [if_pos h, ite_self]
  · rw [if_neg hw, if_neg hl, if_neg ha, if_neg hr, if_neg ht, if_pos h]
  · rw [if_neg hw, if_neg hl, if_neg ha, if_neg hr, if_neg ht, if_neg hp]
    simp only [located, hwin, hq]

/-! ### The lanes together -/

/-- The lanes that fail, and how. -/
def failing (one : Nat → Except XErr Place) : List Nat → List (Nat × XErr)
  | [] => []
  | i :: l => match one i with
    | .error e => (i, e) :: failing one l
    | .ok _ => failing one l

def laneFails (one : Nat → Except XErr Place) (i : Nat) : Bool :=
  match one i with
  | .error _ => true
  | .ok _ => false

section
variable {one : Nat → Except XErr Place}

theorem failing_any (k : Nat) : ∀ lanes : List Nat, (failing one lanes).any (fun p => decide (p.1 = k)) = (lanes.contains k && laneFails one k)
  | [] => rfl
  | i :: l => by
    have ih := failing_any k l
    unfold failing
    cases hi : one i with
    | error e =>
      by_cases hk : k = i
      · simp [hk, laneFails, hi]
      · simp [hk, Ne.symm hk, ih]
    | ok x =>
      by_cases hk : k = i
      · simp [hk, laneFails, hi, hk ▸ ih]
      · simp [hk, ih]

theorem failing_head {i : Nat} {e : XErr} {r : List (Nat × XErr)} : ∀ {lanes : List Nat}, failing one lanes = (i, e) :: r →
    lanes.find? (laneFails one) = some i ∧ one i = .error e
  | [], h => nomatch h
  | j :: l, h => by
    unfold failing at h
    cases hj : one j with
    | error x =>
      rw [hj] at h
      cases h
      exact ⟨List.find?_cons_of_pos (by simp [laneFails, hj]), hj⟩
    | ok x =>
      rw [hj] at h
      rw [List.find?_cons_of_neg (by simp [laneFails, hj])]
      exact failing_head h

/-- What the lanes of an access come to when one of them fails: the lowest that fails gives the cause, the mask is all that fail. -/
theorem gatherChecks_trap {acc : AccKind} {lanes : List Nat} {ea : Nat → Dword} {take : Nat → State → State} {cause : Nat} {addr : Dword}
    {mask : Mask} (h : gatherChecks s acc lanes ea one take = .stop (.trap cause addr mask)) :
    mask = maskOf (fun k => lanes.contains k && laneFails one k) ∧ cause ≠ cPage ∧
      ∃ i, lanes.find? (laneFails one) = some i ∧ addr = ea i ∧ one i = .error (.trap cause) := by
  unfold gatherChecks at h
  dsimp only at h
  generalize hbad : (List.filterMap _ _ : List (Nat × XErr)) = bad at h
  have hfail : bad = failing one lanes := by
    rw [← hbad, List.filterMap_map]
    clear hbad h
    induction lanes with
    | nil => rfl
    | cons i l ih =>
      rw [List.filterMap_cons, ih, failing]
      dsimp only [Function.comp]
      cases one i <;> rfl
  cases bad with
  | nil =>
    split at h <;> cases h
  | cons b r =>
    obtain ⟨i, e⟩ := b
    obtain ⟨hfind, hone⟩ := failing_head hfail.symm
    split at h
    · cases h
    · cases e with
      | wait => cases h
      | trap k =>
        dsimp only at h
        split at h <;> cases h
        next hpage =>
          refine ⟨?_, hpage, i, hfind, rfl, hone⟩
          rw [hfail]
          simp only [failing_any]

end

/-- The place of one lane, a device register aside that its code may not reach. -/
def lanePlace (u : State) (q : Req) (ea : Nat → Dword) (n : Nat) (f : Nat → Bool) (i : Nat) : Except XErr Place :=
  match locate u q (ea i) n with
  | .ok (.dev pa) => if f pa then .ok (.dev pa) else .error (.trap cProtection)
  | r => r

theorem lanePlace_trap {ea : Nat → Dword} {f : Nat → Bool} {i cause : Nat} (h : lanePlace u q ea n f i = .error (.trap cause)) :
    locate u q (ea i) n = .error (.trap cause) ∨ (cause = cProtection ∧ ∃ pa, locate u q (ea i) n = .ok (.dev pa) ∧ f pa = false) := by
  unfold lanePlace at h
  split at h
  next pa hpa =>
    split at h <;> cases h
    next hf => exact .inr ⟨rfl, pa, hpa, by simpa using hf⟩
  · exact .inl h

/-- The lanes of an access of which one fails. -/
theorem checkLanes_trap {lanes : List Nat} {ea : Nat → Dword} {f : Nat → Bool} {cause : Nat} {addr : Dword} {mask : Mask}
    (h : checkLanes u q lanes ea n f = .stop (.trap cause addr mask)) :
    mask = maskOf (fun k => lanes.contains k && laneFails (lanePlace u q ea n f) k) ∧ cause ≠ cPage ∧
      ∃ i, lanes.find? (laneFails (lanePlace u q ea n f)) = some i ∧ addr = ea i ∧
        (locate u q (ea i) n = .error (.trap cause) ∨ (cause = cProtection ∧ ∃ pa, locate u q (ea i) n = .ok (.dev pa) ∧ f pa = false)) := by
  obtain ⟨hmask, hpage, i, hfind, haddr, hone⟩ := gatherChecks_trap (one := lanePlace u q ea n f) h
  exact ⟨hmask, hpage, i, hfind, haddr, lanePlace_trap hone⟩

theorem checkLanes_cause {lanes : List Nat} {ea : Nat → Dword} {f : Nat → Bool} {cause : Nat} {addr : Dword} {mask : Mask}
    (h : checkLanes u q lanes ea n f = .stop (.trap cause addr mask)) : cause ∈ accessCauses := by
  obtain ⟨-, -, i, -, -, h | ⟨rfl, -⟩⟩ := checkLanes_trap h
  · exact locate_cause h
  · decide

/-! ### Words -/

/-- A word traps as the checks of its access say: at its own address, as no access raises a breakpoint or a system call. -/
theorem wordTraps_of_access {i : Instr} {body : Ctx → State → Res} {ok : State → Ctx → Clutch → Prop} {cause : Nat} {addr : Dword} {mask : Mask}
    (hword : ∀ s, exec i s = word i s body) (hcause : ∀ u x c, ok u x c → cause ∈ accessCauses)
    (hbody : ∀ x u c, Begins x u c → ok u x c → body x u = .trap cause addr mask) :
    WordTraps s i ok (fun _ _ _ => cause) (fun _ _ _ => addr) (fun _ _ _ => mask) := by
  intro w p hr hok
  have hne : ¬(cause = cBreak ∨ cause = cSyscall) := by
    have hmem := hcause _ _ _ hok
    rintro (rfl | rfl) <;> revert hmem <;> decide
  rw [hr.exec_eq hword, hr.runWord_eq, hbody _ _ _ hr.begins hok]
  simp only [if_neg hne]

theorem withAsks_nil {x : Ctx} {body : State → Res} (h : asksOf u (2 * x.cid) = []) : withAsks x.cid u body = body u := by
  simp only [withAsks, h, List.isEmpty_nil, if_true]

theorem ld_traps (s : State) (h : Hdr) (t : Ty) (o : MOrd) (d : Reg) (m : MemOp) (cause : Nat) (addr : Dword) (mask : Mask) :
    WordTraps s (.ld h t o d m) (fun u x c => asksOf u (2 * x.cid) = [] ∧ ldPlaces t o d m u x c = .stop (.trap cause addr mask))
      (fun _ _ _ => cause) (fun _ _ _ => addr) (fun _ _ _ => mask) := by
  refine wordTraps_of_access (body := loadWord t o d m) (fun _ => rfl) (fun u x c hok => checkLanes_cause hok.2) (fun x u c hb hok => ?_)
  obtain ⟨hasks, hstop⟩ := hok
  unfold ldPlaces at hstop
  rw [loadWord, withAsks_nil hasks]
  dsimp only
  rw [hb.clutch, hstop]

theorem st_traps (s : State) (h : Hdr) (t : Ty) (o : MOrd) (d : Reg) (m : MemOp) (cause : Nat) (addr : Dword) (mask : Mask) :
    WordTraps s (.st h t o d m) (fun u x c => stPlaces t o m u x c = .stop (.trap cause addr mask))
      (fun _ _ _ => cause) (fun _ _ _ => addr) (fun _ _ _ => mask) := by
  refine wordTraps_of_access (fun _ => rfl) (fun u x c hok => checkLanes_cause hok) (fun x u c hb hok => ?_)
  unfold stPlaces at hok
  dsimp only
  rw [hb.clutch, hok]

/-- Settles O16: `locate_in_order` for one lane, `checkLanes_trap` for the lanes together, `ld_traps` and `st_traps` for the words. -/
theorem accessChecksInTheirOrder : Obligations.AccessChecksInTheirOrder := by
  refine ⟨fun s q ea n _ => locate_in_order s q ea n, fun s h t o d m cause addr mask =>
    ⟨ld_traps s h t o d m cause addr mask, st_traps s h t o d m cause addr mask, ?_⟩⟩
  intro u q lanes ea n f fails hstop
  have hfails : laneFails (lanePlace u q ea n f) = fails := by
    funext k
    unfold laneFails lanePlace fails
    cases locate u q (ea k) n with
    | error e => rfl
    | ok x =>
      cases x with
      | dev pa => dsimp only; cases f pa <;> rfl
      | _ => rfl
  exact hfails ▸ checkLanes_trap hstop

end Sys2Proof.Machine
end

section
/-! PROOF. What reads and writes of the column banks and their slices leave as it is (01 R31, R32, 06 R223, R233): memory, poison, errors,
the columns, the log and the counter of free values may change, all else stays. -/

namespace Sys2Proof.Machine

variable {s t u : State}

/-- From `s` to `t` nothing changes but what an access of a column bank can change. -/
def BankOnly (s t : State) : Prop :=
  t = { s with mem := t.mem, poison := t.poison, bankErr := t.bankErr, cols := t.cols, mgmt := t.mgmt, fresh := t.fresh }

theorem BankOnly.refl (s : State) : BankOnly s s := rfl

theorem BankOnly.trans (h : BankOnly s t) (k : BankOnly t u) : BankOnly s u := by
  unfold BankOnly at k ⊢
  rw [h] at k
  exact k

theorem BankOnly.clutches (h : BankOnly s t) : t.clutches = s.clutches := (congrArg State.clutches h).trans rfl
theorem BankOnly.weights (h : BankOnly s t) : t.weights = s.weights := (congrArg State.weights h).trans rfl
theorem BankOnly.toks (h : BankOnly s t) : t.toks = s.toks := (congrArg State.toks h).trans rfl
theorem BankOnly.l1 (h : BankOnly s t) : t.l1 = s.l1 := (congrArg State.l1 h).trans rfl
theorem BankOnly.pkg (h : BankOnly s t) : t.pkg = s.pkg := (congrArg State.pkg h).trans rfl
theorem BankOnly.sync (h : BankOnly s t) : t.sync = s.sync := (congrArg State.sync h).trans rfl
theorem BankOnly.msgs (h : BankOnly s t) : t.msgs = s.msgs := (congrArg State.msgs h).trans rfl
theorem BankOnly.hostHas (h : BankOnly s t) : t.hostHas = s.hostHas := (congrArg State.hostHas h).trans rfl

theorem bankOnly_foldl {β : Type} {f : State → β → State} (hf : ∀ s b, BankOnly s (f s b)) : ∀ (l : List β) (s : State), BankOnly s (l.foldl f s)
  | [], s => .refl s
  | b :: l, s => (hf s b).trans (bankOnly_foldl hf l _)

theorem bankOnly_setSlice (s : State) (c line : Nat) (x : Option SliceLine) : BankOnly s (setSlice s c line x) := rfl

theorem bankOnly_postEcc (s : State) (c : Nat) (ue scrub : Bool) (bo word bit : Nat) : BankOnly s (postEcc s c ue scrub bo word bit) := by
  unfold postEcc
  dsimp only
  split <;> rfl

theorem bankOnly_bankCheckOld (s : State) (c line : Nat) (mask : BitVec 128) : BankOnly s (bankCheckOld s c line mask) := by
  unfold bankCheckOld
  dsimp only
  split
  · rfl
  · refine bankOnly_foldl (fun s i => ?_) _ s
    split
    · rfl
    · split
      · rfl
      · exact (bankOnly_postEcc ..).trans rfl
      · exact bankOnly_postEcc ..

theorem bankOnly_unfresh (s : State) (c bo : Nat) : BankOnly s (unfresh s c bo) := by
  unfold unfresh
  split <;> rfl

theorem bankOnly_memPutLine (s : State) (line : Nat) (d : BitVec 1024) (m : BitVec 128) : BankOnly s (memPutLine s line d m) := by
  unfold memPutLine
  generalize List.range 128 = bytes
  rfl

theorem bankOnly_bankPut (s : State) (c line : Nat) (d : BitVec 1024) (m : BitVec 128) : BankOnly s (bankPut s c line d m) := by
  unfold bankPut
  split
  · rfl
  · exact (bankOnly_unfresh ..).trans (BankOnly.trans (t := { unfresh s c (lineBo line) with bankErr := _ }) rfl (bankOnly_memPutLine ..))

theorem bankOnly_bankWriteLine (s : State) (c line : Nat) (d : BitVec 1024) (m : BitVec 128) : BankOnly s (bankWriteLine s c line d m) := by
  unfold bankWriteLine
  split
  · rfl
  · exact (bankOnly_bankCheckOld ..).trans (bankOnly_bankPut ..)

theorem bankOnly_sliceOut (s : State) (c line : Nat) : BankOnly s (sliceOut s c line) := by
  unfold sliceOut
  split
  · rfl
  · split
    · rfl
    · exact (bankOnly_setSlice ..).trans (bankOnly_bankWriteLine ..)

theorem bankOnly_sliceRoom (s : State) (c line : Nat) : BankOnly s (sliceRoom s c line) := by
  unfold sliceRoom
  dsimp only
  split
  · rfl
  · exact BankOnly.trans (t := { s with fresh := s.fresh + 1 }) rfl (bankOnly_sliceOut ..)

theorem bankOnly_sliceEnter (s : State) (c line : Nat) (x : SliceLine) : BankOnly s (sliceEnter s c line x) := by
  unfold sliceEnter
  split
  · rfl
  · exact (bankOnly_sliceRoom ..).trans (bankOnly_setSlice ..)

end Sys2Proof.Machine
end

section
/-! PROOF. Installs and the reading room (06 R238 to R242): what is written to a unit reads back, what a commit keeps for the loads that
wait, and O44. -/

namespace Sys2Proof.Machine

variable {s t u : State} {id : Nat} {k : Cmd} {x : Install}

/-! ### Units of flash -/

/-- Bytes of a unit, from offset `n` on, after they were written there. -/
theorem tget_foldl_put (base off : Nat) (bs : List Byte) (n : Nat) (m : Tab Byte) :
    tget 0 ((bs.zip (List.range' n bs.length)).foldl (fun m p => tput 0 m (base + p.2) p.1) m) off =
      if base + n ≤ off ∧ off < base + n + bs.length then bs.getD (off - (base + n)) 0 else tget 0 m off := by
  induction bs generalizing n m with
  | nil => rw [if_neg (by simp)]; rfl
  | cons b bs ih =>
    rw [List.length_cons, List.range'_succ, List.zip_cons_cons, List.foldl_cons, ih, tget_tput]
    by_cases hhere : off = base + n
    · rw [if_neg (by omega), if_pos hhere, if_pos (by omega), hhere, Nat.sub_self, List.getD_cons_zero]
    · by_cases hlater : base + (n + 1) ≤ off ∧ off < base + (n + 1) + bs.length
      · rw [if_pos hlater, if_pos (by omega), show off - (base + n) = (off - (base + (n + 1))) + 1 by omega, List.getD_cons_succ]
      · rw [if_neg hlater, if_neg hhere, if_neg (by omega)]

theorem tget_putUnit (m : Tab Byte) (v : Nat) (f : Nat → Byte) (w j : Nat) (hj : j < 65536) :
    tget 0 (putUnit m v ((List.range 65536).map f)) (65536 * w + j) = if w = v then f j else tget 0 m (65536 * w + j) := by
  unfold putUnit
  rw [List.range_eq_range' (n := List.length _), tget_foldl_put]
  rw [List.length_map, List.length_range]
  by_cases h : w = v
  · subst h
    rw [if_pos (by omega), if_pos rfl, show 65536 * w + j - (65536 * w + 0) = j by omega, List.getD_eq_getElem _ _ (by simpa using hj),
      List.getElem_map, List.getElem_range]
  · rw [if_neg (by omega), if_neg h]

/-- After units are written, each of them holds what was written, the others what they held. -/
theorem tget_foldl_putUnit (f : Nat → Nat → Byte) (w j : Nat) (hj : j < 65536) (us : List Nat) (m : Tab Byte) :
    tget 0 (us.foldl (fun m v => putUnit m v ((List.range 65536).map (f v))) m) (65536 * w + j) =
      if w ∈ us then f w j else tget 0 m (65536 * w + j) := by
  induction us generalizing m with
  | nil => rfl
  | cons v us ih =>
    rw [List.foldl_cons, ih, tget_putUnit _ _ _ _ _ hj]
    by_cases h : w = v
    · subst h
      simp
    · simp [h]

/-! ### Acts of an install -/

/-- The machine after a commit. -/
def installCommitted (s : State) (x : Install) : State :=
  broadcast (setInstall { s with weights := { s.weights with
    flash := x.units.foldl (fun m u => putUnit m u ((List.range 65536).map (fun j => tget 0 s.weights.staged (65536 * u + j)))) s.weights.flash
    staged := unstage s.weights.staged x.units
    mapped := (s.weights.mapped ++ x.units).eraseDups
    ver := tput 0 s.weights.ver x.ext (verOf s x.ext + 1)
    asks := keepOld s x.ext } } { x with committed := true }) x.ext

theorem verOf_installCommitted (s : State) (x : Install) (e : Nat) :
    verOf (installCommitted s x) e = if e = x.ext then verOf s x.ext + 1 else verOf s e := tget_tput ..

theorem flash_installCommitted (s : State) (x : Install) {u j : Nat} (hj : j < 65536) :
    tget 0 (installCommitted s x).weights.flash (65536 * u + j) =
      if u ∈ x.units then tget 0 s.weights.staged (65536 * u + j) else tget 0 s.weights.flash (65536 * u + j) :=
  tget_foldl_putUnit (fun v j => tget 0 s.weights.staged (65536 * v + j)) u j hj x.units s.weights.flash

section
variable (hk : installCmd s id = some k)
include hk

theorem exec_installStart {v : State} (hno : installAt s id = none) (hheld : installHeld s k = false) (hzero : blkField k.block 0x18 0 832 = 0)
    (hwalk : walksAt s (dieOf (colOf k.core)) k.ctx (installPages k) = some v) :
    exec (.installStart id) s = match installCheck v id k with
      | .inl code => orStay v (failCmd v id eInstall code (blkField k.block 8 0 64))
      | .inr x => .next { x.units.foldl chargeUnit v with
        weights := { (x.units.foldl chargeUnit v).weights with installs := (x.units.foldl chargeUnit v).weights.installs ++ [x] } } := by
  change execInstallStart id s = _
  simp only [execInstallStart, hk, hno, hheld, hzero, hwalk, Option.isSome_none, Bool.or_false, Bool.false_eq_true, if_false, ne_eq,
    not_true_eq_false] <;>
  cases installCheck v id k <;> rfl

variable (hx : installAt s id = some x)
include hx

theorem exec_installUnitProgram {unit : Nat} (hc : x.committed = false) (hu : listGet x.units x.done = some unit)
    (hr : homeReads s ((sourceLines x (65536 * x.done) 65536).map (fun l => 128 * l)) = some t) :
    exec (.installUnitProgram id false) s = .next (setInstall
      { t with
        fresh := t.fresh + 65536
        weights := { t.weights with staged := putUnit t.weights.staged unit (sourceBytes t x (65536 * x.done) 65536) } }
      { x with done := x.done + 1, fails := 0 }) := by
  change execInstallUnitProgram id false s = _
  simp only [execInstallUnitProgram, hk, hx, hu, hc, hr, Bool.false_eq_true, if_false]

theorem exec_installUnitProgram_fails {unit : Nat} (hc : x.committed = false) (hu : listGet x.units x.done = some unit) (hf : x.fails < 3) :
    exec (.installUnitProgram id true) s = .next (setInstall s { x with fails := x.fails + 1 }) := by
  change execInstallUnitProgram id true s = _
  simp only [execInstallUnitProgram, hk, hx, hu, hc, Bool.false_eq_true, if_false, if_true, if_neg (show ¬ x.fails = 3 by omega)]

theorem exec_installComplete (hc : x.committed = true) (ho : oldReads s x.ext = false)
    (h : completeCmd (dropInstall (x.old.foldl freeUnit s) id) id = some t) : exec (.installComplete id) s = .next t := by
  change execInstallComplete id s = _
  simp only [execInstallComplete, hk, hx, hc, ho, h, orStay, Bool.not_true, Bool.or_false, Bool.false_eq_true, if_false]

theorem exec_installCommit (hc : x.committed = false) (hd : x.done = x.units.length) :
    exec (.installCommit id) s = .next (installCommitted s x) := by
  change execInstallCommit id s = _
  have go : ¬(x.committed ∨ x.done ≠ x.units.length) := by simp [hc, hd]
  simp only [execInstallCommit, hk, hx, if_neg go]
  rfl

end

theorem mem_keepOld {a : WeightAsk} {e : Nat} (ha : a ∈ s.weights.asks) (hgot : a.got = none) (hold : a.old = none) (he : weightExt a.line = e) :
    { a with old := some (perfLine s a.line) } ∈ keepOld s e :=
  List.mem_map.mpr ⟨a, ha, if_pos ⟨he, hgot, hold⟩⟩

/-! ### The reading room -/

theorem mem_serveAsks {a : WeightAsk} {as : List WeightAsk} {got : WeightAsk → BitVec 1024 × Bool} (ha : a ∈ s.weights.asks) (has : a ∈ as) :
    { a with got := some (got a) } ∈ (serveAsks s as got).weights.asks :=
  List.mem_map.mpr ⟨a, ha, if_pos (List.contains_iff_mem.mpr has)⟩

theorem mem_waitingLines {a : WeightAsk} {unit : Nat} {old : Bool} (ha : a ∈ waitingLines s unit old) : a ∈ s.weights.asks :=
  List.mem_of_mem_filter ha

theorem weightPut_weights (s : State) (i line : Nat) (d : BitVec 1024) (p : Bool) : (weightPut s i line d p).weights = s.weights :=
  (bankOnly_sliceEnter ..).weights

theorem weightPut_clutches (s : State) (i line : Nat) (d : BitVec 1024) (p : Bool) : (weightPut s i line d p).clutches = s.clutches :=
  (bankOnly_sliceEnter ..).clutches

/-- Lines that enter L1s and slices change neither the weight store nor a clutch. -/
theorem foldl_weightPut (p : Bool) : ∀ (as : List WeightAsk) (s : State),
    (as.foldl (fun s a => weightPut s a.core a.line (perfLine s a.line) p) s).weights = s.weights ∧
    (as.foldl (fun s a => weightPut s a.core a.line (perfLine s a.line) p) s).clutches = s.clutches
  | [], _ => ⟨rfl, rfl⟩
  | a :: as, s => by
    obtain ⟨hw, hc⟩ := foldl_weightPut p as (weightPut s a.core a.line (perfLine s a.line) p)
    exact ⟨hw.trans (weightPut_weights ..), hc.trans (weightPut_clutches ..)⟩

/-- Loads that asked before a commit are served first, from the bytes kept for them. -/
theorem exec_readingRoomFill_old {unit : Nat} (err : Bool) (hlive : live s = true) (hold : waitingLines s unit true ≠ []) :
    exec (.readingRoomFill unit err) s = .next (serveAsks s (waitingLines s unit true) (fun a => (a.old.getD 0, err))) := by
  change execReadingRoomFill unit err s = _
  simp only [execReadingRoomFill, hlive, List.isEmpty_eq_false_iff.mpr hold, Bool.not_true, Bool.not_false, Bool.false_eq_true, if_false, if_true]

/-- The reading room with a unit most recent. -/
def roomWith (s : State) (unit : Nat) (err : Bool) : State :=
  if err then s else { s with weights := { s.weights with
    room := ((unit, verOf s (unit / 16384)) :: s.weights.room.erase (unit, verOf s (unit / 16384))).take (roomUnits s) } }

/-- The other loads are served from the unit as it is, which the reading room takes. -/
theorem exec_readingRoomFill {unit : Nat} (err : Bool) (hlive : live s = true) (hold : waitingLines s unit true = [])
    (hasks : waitingLines s unit false ≠ []) :
    exec (.readingRoomFill unit err) s = .next (serveAsks ((waitingLines s unit false).foldl (fun s a => weightPut s a.core a.line
      (perfLine s a.line) err) (roomWith s unit err)) (waitingLines s unit false) (fun a => (perfLine (roomWith s unit err) a.line, err))) := by
  change execReadingRoomFill unit err s = _
  simp only [execReadingRoomFill, hlive, hold, List.isEmpty_eq_false_iff.mpr hasks, List.isEmpty_nil, Bool.not_true, Bool.false_eq_true, if_false]
  rfl

theorem roomWith_facts (s : State) (unit : Nat) (err : Bool) : (roomWith s unit err).weights.asks = s.weights.asks ∧
    (roomWith s unit err).weights.flash = s.weights.flash ∧ (roomWith s unit err).weights.ver = s.weights.ver ∧
    (roomWith s unit err).clutches = s.clutches ∧ (∀ line, perfLine (roomWith s unit err) line = perfLine s line) := by
  unfold roomWith
  cases err <;> exact ⟨rfl, rfl, rfl, rfl, fun _ => rfl⟩

/-- Settles O44, act by act. -/
theorem installStepsRun : Obligations.InstallStepsRun := by
  unfold Obligations.InstallStepsRun
  intro s t id unit k x hk
  refine ⟨fun v hno hheld hzero hwalk => ⟨fun hx => ?start, fun code hx hf => ?refused⟩, fun hx hc hu hr => exec_installUnitProgram hk hx hc hu hr,
    fun hx hc hu hf => exec_installUnitProgram_fails hk hx hc hu hf, fun hx hc hd => ?commit, fun hx hc ho h => exec_installComplete hk hx hc ho h, ?room⟩
  case start => rw [exec_installStart hk hno hheld hzero hwalk, hx]
  case refused =>
    rw [exec_installStart hk hno hheld hzero hwalk, hx]
    exact congrArg (orStay v) hf
  case commit =>
    exact ⟨_, exec_installCommit hk hx hc hd, (verOf_installCommitted s x _).trans (if_pos rfl),
      fun e he => (verOf_installCommitted s x e).trans (if_neg he), fun u j hj => flash_installCommitted s x hj,
      fun a ha hgot hold he => mem_keepOld ha hgot hold he, rfl, rfl, rfl⟩
  case room =>
    intro err old asks v hlive
    refine ⟨fun hold => ⟨_, exec_readingRoomFill_old err hlive hold, rfl, fun a ha =>
      mem_serveAsks (got := fun a => (a.old.getD 0, err)) (mem_waitingLines ha) ha⟩, fun hold hasks => ?_⟩
    obtain ⟨hasksW, hflashW, hverW, hclutchesW, hperf⟩ := roomWith_facts s unit err
    obtain ⟨hw, hcl⟩ := foldl_weightPut err (waitingLines s unit false) (roomWith s unit err)
    refine ⟨_, exec_readingRoomFill err hlive hold hasks, ?_, fun a ha _ => ?_, hcl.trans hclutchesW, ?_, ?_⟩
    · refine (congrArg Weights.room hw).trans ?_
      unfold roomWith
      cases err <;> rfl
    · rw [← hperf]
      exact mem_serveAsks (got := fun a => (perfLine (roomWith s unit err) a.line, err)) (by rw [hw, hasksW]; exact mem_waitingLines ha) ha
    · exact (congrArg Weights.flash hw).trans hflashW
    · exact (congrArg Weights.ver hw).trans hverW

end Sys2Proof.Machine
end

section
/-! PROOF. Walks, page faults and promotions (06 R208 to R220): what a walk puts into the TLBs, how a fault is filed and answered, what a
promotion does once its tables are read, and O47. -/

namespace Sys2Proof.Machine

variable {s t u : State} {q : PagerFault} {tag : BitVec 16} {die : Fin 4} {v : Dword}

theorem emerg_of_live (hlive : live s = true) : s.emerg = none := by
  simp only [live, Bool.and_eq_true, Option.isNone_iff_eq_none] at hlive
  exact hlive.2

/-! ### Walks -/

/-- An entry of a walk stands in the TLB of its core and in the TLB of the core's column. -/
theorem mem_tlbInsert {i : Nat} (hi : i < 320) {e : Nat → TlbEntry} (he : ∀ k, (e k).tlb = k) {k : Nat} (hk : k = i ∨ k = 320 + colOf i) :
    e k ∈ (tlbInsert s i e).tlb := by
  unfold tlbInsert
  rcases hk with rfl | rfl
  · exact List.mem_cons_self
  · refine List.mem_cons_of_mem _ (List.mem_append_right _ (List.mem_filter.2 ⟨List.mem_cons_self, ?_⟩))
    simp only [he, decide_eq_true_eq]
    omega

theorem exec_pageWalk {i ctx f sz p : Nat} {va : Dword} (hlive : live s = true) (hi : i < 320) (hpromo : promoHolds s ctx va.toNat = false)
    (hread : readsAt s (dieOf (colOf i)) (walkLines s ctx va.toNat) = some u) (hwalk : walk u ctx va.toNat = .ok f sz p) :
    exec (.pageWalk i ctx va) s = .next (tlbInsert u i (fun k =>
      { tlb := k, ctx := ctx, va := va.toNat / sz * sz, size := sz, frame := f, perm := BitVec.ofNat 8 p })) := by
  change execPageWalk i ctx va s = _
  simp only [execPageWalk, pageWalk, hlive, hpromo, hread, hwalk, decide_eq_false (Nat.not_le.2 hi), Bool.not_true, Bool.or_self,
    Bool.false_eq_true, if_false]

/-! ### Page faults -/

theorem exec_pagerRecord_on (hlive : live s = true) (hfind : s.pager.find? (fun x => x.tag.isNone) = some q) (hon : s.pkg.pgfCfg.getLsbD 0 = true)
    (hroom : (s.pkg.pgfTail - s.pkg.pgfHead).toNat ≠ 4096)
    (hwrite : performAt s (homeTower s (s.pkg.pgfBase.toNat + 32 * (s.pkg.pgfTail.toNat % 4096)))
      (s.pkg.pgfBase.toNat + 32 * (s.pkg.pgfTail.toNat % 4096)) (faultRecord q (s.pkg.pgfTail.toNat % 65536)) = some t)
    {t' : State} (ht' : t' = { t with
        pager := t.pager.map (fun x => if x = q then { x with tag := some (s.pkg.pgfTail.setWidth 16) } else x)
        pkg := { t.pkg with pgfTail := s.pkg.pgfTail + 1 } }) :
    exec .pagerRecord s = .next (if s.pkg.pgfTail = s.pkg.pgfHead then pagerSignal t' else t') := by
  change execPagerRecord s = _
  simp only [execPagerRecord, hfind, hlive, hon, hroom, hwrite, ht', Bool.not_true, Bool.false_eq_true, if_false]

theorem exec_pagerRecord_off (hlive : live s = true) (hfind : s.pager.find? (fun x => x.tag.isNone) = some q)
    (hoff : s.pkg.pgfCfg.getLsbD 0 = false) (hans : answer s q true = some t) : exec .pagerRecord s = .next t := by
  change execPagerRecord s = _
  simp only [execPagerRecord, hfind, hlive, hoff, hans, orStay, Bool.not_true, Bool.not_false, Bool.false_eq_true, if_false, if_true]

section Done

variable (hlive : live s = true) (hfind : s.pager.find? (fun x => decide (x.tag = some tag)) = some q)
include hlive hfind

/-- An answer whose walks cannot be read yet is kept. -/
theorem exec_pgfDoneWrite_unread {fail : Bool} (htake : pagerTake s q fail = none) :
    exec (.pgfDoneWrite tag fail) s = .next { s with pager := s.pager.map (fun r => if r = q then { q with answer := some fail } else r) } := by
  change execPgfDoneWrite tag fail s = _
  simp only [execPgfDoneWrite, hfind, emerg_of_live hlive, htake, Option.isSome_none, Bool.false_eq_true, if_false]

/-- A page that still faults is filed again. -/
theorem exec_pgfDoneWrite_refiles (htake : pagerTake s q false = some u) (hstill : stillFaults u q = true) :
    exec (.pgfDoneWrite tag false) s = .next { u with
      pager := u.pager.map (fun r => if r = q then { q with tag := none, answer := none } else r), agenda := .pagerRecord :: u.agenda } := by
  change execPgfDoneWrite tag false s = _
  simp only [execPgfDoneWrite, hfind, emerg_of_live hlive, htake, hstill, startNext, Option.isSome_none, Bool.not_false, Bool.and_self,
    Bool.false_eq_true, if_false, if_true, List.cons_append, List.nil_append]

theorem exec_pgfDoneWrite_answers {fail : Bool} (htake : pagerTake s q fail = some u) (hstill : (!fail && stillFaults u q) = false)
    (hans : answer u q fail = some t) : exec (.pgfDoneWrite tag fail) s = .next t := by
  change execPgfDoneWrite tag fail s = _
  simp only [execPgfDoneWrite, hfind, emerg_of_live hlive, htake, hstill, hans, Option.isSome_none, Bool.false_eq_true, if_false]

/-- An answer that must wait is kept. -/
theorem exec_pgfDoneWrite_keeps {fail : Bool} (htake : pagerTake s q fail = some u) (hstill : (!fail && stillFaults u q) = false)
    (hans : answer u q fail = none) :
    exec (.pgfDoneWrite tag fail) s = .next { u with pager := u.pager.map (fun r => if r = q then { q with answer := some fail } else r) } := by
  change execPgfDoneWrite tag fail s = _
  simp only [execPgfDoneWrite, hfind, emerg_of_live hlive, htake, hstill, hans, Option.isSome_none, Bool.false_eq_true, if_false]

end Done

/-- To rewrite the places of `q` from `q` or from what stands there is the same. -/
theorem map_replace_eq (l : List PagerFault) (f : PagerFault → PagerFault) :
    l.map (fun r => if r = q then f q else r) = l.map (fun r => if r = q then f r else r) :=
  List.map_congr_left fun r _ => by split <;> simp_all

theorem exec_pgfHeadWrite {w : Word} (hlive : live s = true) : exec (.pgfHeadWrite w) s = .next { s with
    pkg := { s.pkg with pgfHead := w }, agenda := (if s.pager.any (fun x => x.tag.isNone) then [.pagerRecord] else []) ++ s.agenda } := by
  change execPgfHeadWrite w s = _
  simp only [execPgfHeadWrite, emerg_of_live hlive, startNext, Option.isSome_none, Bool.false_eq_true, if_false]

/-! ### Promotions -/

/-- What a promotion that is asked for with `v` latches. -/
def latched (x : Promo) (v : Dword) : Promo :=
  { x with ctx := BitVec.ofNat 8 (bits v.toNat 0 8), va := BitVec.ofNat 35 (bits v.toNat 29 35), runCtx := bits v.toNat 0 8, runVa := bits v.toNat 29 35, runDst := x.dest.toNat, killed := false }

/-- The TLB entries that a promotion of page `n` of context `ctx` drops: those that meet its 2 MiB. -/
def promoHit (ctx n : Nat) (e : TlbEntry) : Bool :=
  decide (e.ctx = ctx) && decide (e.va < n * 0x200000 + 0x200000) && decide (n * 0x200000 < e.va + e.size)

theorem promoHit_of_meets {ctx n : Nat} {e : TlbEntry} (hctx : e.ctx = ctx) (hlt : e.va < (n + 1) * 0x200000) (hgt : n * 0x200000 < e.va + e.size) :
    promoHit ctx n e = true := by
  rw [promoHit, decide_eq_true hctx, decide_eq_true (by omega), decide_eq_true hgt]
  rfl

theorem promoLatch_eq {x : Promo} (h : x.asked = none) : promoLatch x v = latched x v := by
  rw [promoLatch, if_neg (by rw [h]; decide)]
  rfl

theorem promoAt_setPromo_self (s : State) (d : Nat) (x : Promo) : promoAt (setPromo s d x) d = x := by
  rw [promoAt_setPromo, if_pos rfl]

section Go

variable (hlive : live s = true) (hidle : (promoAt s die.val).busy = false) (hasked : (promoAt s die.val).asked = none) (hgo : v.getLsbD 8 = true)
include hlive hidle hasked hgo

/-- A promotion whose tables cannot be read yet waits for them. -/
theorem exec_promoGo_unread (htake : promoTake s die.val v = none) :
    exec (.promoGo die v) s = .next (setPromo s die.val { latched (promoAt s die.val) v with busy := true, asked := some v }) := by
  change execPromoGo die v s = _
  simp only [execPromoGo, hidle, hgo, emerg_of_live hlive, promoLatch_eq hasked, htake, latched, Option.isSome_none, Bool.not_true, Bool.false_and,
    Bool.or_self, Bool.false_eq_true, if_false]

theorem exec_promoGo_refused (htake : promoTake s die.val v = some u)
    (hrefused : promoRefused u die.val (bits v.toNat 0 8) (bits v.toNat 29 35) (promoAt s die.val).dest.toNat = true) :
    exec (.promoGo die v) s = .next (setPromo u die.val { latched (promoAt s die.val) v with busy := false, asked := none, result := 1 }) := by
  change execPromoGo die v s = _
  simp only [execPromoGo, hidle, hgo, emerg_of_live hlive, promoLatch_eq hasked, htake, latched, hrefused, Option.isSome_none, Bool.not_true,
    Bool.false_and, Bool.or_self, Bool.false_eq_true, if_false, if_true]

/-- A promotion that is not refused is busy with what it latched; no TLB entry of its range stays. -/
theorem exec_promoGo_begins (htake : promoTake s die.val v = some u)
    (hrefused : promoRefused u die.val (bits v.toNat 0 8) (bits v.toNat 29 35) (promoAt s die.val).dest.toNat = false) :
    ∃ pte ext, exec (.promoGo die v) s = .next (setPromo (invalidate u (promoHit (bits v.toNat 0 8) (bits v.toNat 29 35)) ext) die.val
      { latched (promoAt s die.val) v with busy := true, asked := none, runPte := pte }) := by
  apply Exists.intro
  apply Exists.intro
  change execPromoGo die v s = _
  simp only [execPromoGo, hidle, hgo, emerg_of_live hlive, promoLatch_eq hasked, htake, latched, hrefused, Option.isSome_none, Bool.not_true,
    Bool.false_and, Bool.or_self, Bool.false_eq_true, if_false]
  rfl

end Go

/-- A promotion that runs copies its pages, writes its entry and ends. -/
theorem exec_promotionComplete {ps : List (Nat × Nat)} (hlive : live s = true) (hbusy : (promoAt s die.val).busy = true)
    (hasked : (promoAt s die.val).asked = none) (hkilled : (promoAt s die.val).killed = false)
    (hpages : promoPages s (promoAt s die.val).runCtx ((promoAt s die.val).runVa * 0x200000) = some ps)
    (hcopy : (flushLines s (frameLines (ps.map (·.1)))).bind (fun r => copyLines die.val r ((frameLines (ps.map (·.1))).zip
      (frameLines ((List.range 32).map (fun k => (promoAt s die.val).runDst + 65536 * k))))) = some u)
    (hwrite : performAt u die.val (promoAt s die.val).runPte
      (leBytes 8 ((promoAt s die.val).runDst / 256 * 4096 + (ps.headD (0, 0)).2 * 4 + 3)) = some t) :
    exec (.promotionComplete die) s = .next (setPromo t die.val { promoAt s die.val with busy := false, result := 0 }) := by
  have hruns : promoRuns s die.val = true := by rw [promoRuns, hbusy, hasked]; rfl
  change execPromotionComplete die s = _
  simp only [execPromotionComplete, hruns, hlive, hkilled, hpages, Bool.not_true, Bool.or_self, Bool.false_eq_true, if_false]
  rw [hcopy]
  dsimp only
  rw [hwrite]

/-- Settles O47, act by act: each clause is the equation of its act in the case that the clause names. -/
theorem translationStepsRun : Obligations.TranslationStepsRun := by
  unfold Obligations.TranslationStepsRun
  intro s t u i ctx f sz p va v tag w die q hlive
  refine ⟨?_, ?_, ?_, ?_, exec_pgfHeadWrite hlive, ?_, ?_⟩
  · intro hi hpromo _ hread hwalk
    exact ⟨_, exec_pageWalk hlive hi hpromo hread hwalk, fun k hk => mem_tlbInsert hi (fun _ => rfl) hk, rfl⟩
  · intro hfind hon hroom slot hwrite
    exact exec_pagerRecord_on hlive hfind hon hroom hwrite rfl
  · exact exec_pagerRecord_off hlive
  · intro hfind
    have hkept : ∀ (r : State) (b : Bool), r.pager.map (fun x => if x = q then { q with answer := some b } else x) =
        r.pager.map (fun x => if x = q then { x with answer := some b } else x) := fun r b => map_replace_eq r.pager (fun x => { x with answer := some b })
    refine ⟨fun ha => exec_pgfDoneWrite_answers hlive hfind rfl rfl ha,
      fun ha => (exec_pgfDoneWrite_keeps hlive hfind rfl rfl ha).trans (by rw [hkept]),
      fun hu => (exec_pgfDoneWrite_unread hlive hfind (fail := false) hu).trans (by rw [hkept]), fun hu => ⟨fun hs ha => ?_, fun hs ha => ?_, fun hs => ?_⟩⟩
    · exact exec_pgfDoneWrite_answers hlive hfind (fail := false) hu hs ha
    · exact (exec_pgfDoneWrite_keeps hlive hfind (fail := false) hu hs ha).trans (by rw [hkept])
    · exact (exec_pgfDoneWrite_refiles hlive hfind hu hs).trans
        (by rw [map_replace_eq u.pager (fun x => { x with tag := none, answer := none })])
  · intro x n entries y hidle hasked hgo
    refine ⟨exec_promoGo_unread hlive hidle hasked hgo, exec_promoGo_refused hlive hidle hasked hgo, fun htake hrefused => ?_⟩
    obtain ⟨pte, ext, hexec⟩ := exec_promoGo_begins hlive hidle hasked hgo htake hrefused
    have hat := promoAt_setPromo_self (invalidate u (promoHit (bits v.toNat 0 8) (bits v.toNat 29 35)) ext) die.val
      { latched (promoAt s die.val) v with busy := true, asked := none, runPte := pte }
    refine ⟨_, hexec, congrArg Promo.busy hat, congrArg Promo.runVa hat, congrArg Promo.runCtx hat, congrArg Promo.runDst hat, fun e he => ?_⟩
    have hmiss := (List.mem_filter.1 (show e ∈ u.tlb.filter (fun e => !promoHit _ _ e) from he)).2
    rintro ⟨hctx, hlt, hgt⟩
    rw [promoHit_of_meets hctx hlt hgt] at hmiss
    exact absurd hmiss (by decide)
  · intro ps x dst hbusy hasked hkilled hpages hcopy hwrite
    exact exec_promotionComplete hlive hbusy hasked hkilled hpages hcopy hwrite

end Sys2Proof.Machine
end

section
/-! PROOF. What a performed byte is made of (07 R250, 06 R232, R233): bytes of merged and whole lines, and the acts on column banks and
slices that leave performed bytes as they are. -/

namespace Sys2Proof.Machine

variable {s t u : State} {c line k : Nat}

/-! ### Bytes of lines -/

/-- Bytes set at the places of a line that `p` picks. -/
theorem lineByte_foldl_lineSet (p : Nat → Bool) (f : Nat → Byte) (d : BitVec 1024) (hk : k < 128) : ∀ n, n ≤ 128 →
    lineByte ((List.range n).foldl (fun d i => if p i then lineSet d i (f i) else d) d) k = if k < n ∧ p k then f k else lineByte d k
  | 0, _ => by simp
  | n + 1, hn => by
    have ih := lineByte_foldl_lineSet p f d hk n (by omega)
    rw [List.range_succ, List.foldl_append, List.foldl_cons, List.foldl_nil]
    by_cases hp : p n
    · rw [if_pos hp, lineByte_lineSet _ _ (by omega) hk, ih]
      by_cases hkn : k = n
      · subst hkn
        simp [hp]
      · simp [hkn, show k < n + 1 ↔ k < n by omega]
    · rw [if_neg hp, ih]
      by_cases hkn : k = n
      · subst hkn
        simp [hp]
      · simp [show k < n + 1 ↔ k < n by omega]

theorem lineByte_lineMerge (old new : BitVec 1024) (m : BitVec 128) (hk : k < 128) :
    lineByte (lineMerge old new m) k = if m.getLsbD k then lineByte new k else lineByte old k := by
  rw [lineMerge, lineByte_foldl_lineSet (fun i => m.getLsbD i) _ old hk 128 le_rfl]
  simp [hk]

theorem lineByte_perfLine (s : State) (line : Nat) (hk : k < 128) : lineByte (perfLine s line) k = perfByte s (128 * line + k) := by
  have h := lineByte_foldl_lineSet (fun _ => true) (fun i => perfByte s (128 * line + i)) 0 hk 128 le_rfl
  simp only [if_true, hk, and_self] at h
  exact h

/-! ### Where a byte stands -/

theorem paKind_congr (h : t.pkg = s.pkg) (pa : Nat) : paKind t pa = paKind s pa := by rw [paKind, paKind, h]

theorem cached_congr (h : t.pkg = s.pkg) (line : Nat) : cached t line = cached s line := by rw [cached, cached, paKind_congr h]

theorem isWeight_congr (h : t.pkg = s.pkg) (line : Nat) : isWeight t line = isWeight s line := by rw [isWeight, isWeight, paKind_congr h]

/-- The bytes of a line of a column bank stand in the bank one after another. -/
theorem paKind_bank_iff (s : State) (pa c bo : Nat) : paKind s pa = .bank c bo ↔
    bankBase ≤ pa ∧ pa < bankBase + 64 * (4 * gib) ∧ c = (pa - bankBase) / (4 * gib) ∧ bo = (pa - bankBase) % (4 * gib) := by
  unfold paKind hbmTop bankBase regBase weightBase sysBase gib
  split_ifs <;> simp only [PaKind.bank.injEq, false_iff] <;> omega

/-- A line of a column bank, with its bytes. -/
theorem paKind_bank_line {bo : Nat} (h : paKind s (128 * line) = .bank c bo) (hk : k < 128) :
    paKind s (128 * line + k) = .bank c (bo + k) ∧ c < 64 ∧ bo = lineBo line ∧ bo % 128 = 0 := by
  rw [paKind_bank_iff] at h ⊢
  simp only [lineBo, bankBase, gib] at h ⊢
  omega

/-- A byte of the array of column bank `c` (06 R232). -/
def arrayByte (s : State) (c bo pa : Nat) : Byte := if isFresh s c bo then 0 else tget 0 s.mem pa

/-- A performed byte is made of its slice's line, the writes of its unit, the array, memory and the weight store. -/
theorem perfByte_congr {pa : Nat} (hpkg : t.pkg = s.pkg) (hweights : t.weights = s.weights)
    (hslice : ∀ c, sliceAt t c (pa / 128) = sliceAt s c (pa / 128)) (hunit : ∀ c, unitWrites (colAt t c) = unitWrites (colAt s c))
    (harray : ∀ c bo, paKind s pa = .bank c bo → arrayByte t c bo pa = arrayByte s c bo pa)
    (hmem : (∀ c bo, paKind s pa ≠ .bank c bo) → tget 0 t.mem pa = tget 0 s.mem pa) : perfByte t pa = perfByte s pa := by
  unfold perfByte
  rw [paKind_congr hpkg]
  cases hk : paKind s pa with
  | bank c bo =>
    have hbyte : bankByte t c bo pa = bankByte s c bo pa := by
      have h := harray c bo hk
      unfold arrayByte at h
      simp only [bankByte, hunit, h]
    have hs : tget none (colAt t c).slice (pa / 128) = tget none (colAt s c).slice (pa / 128) := hslice c
    simp only [hs, hbyte]
  | weight off => simp only [hweights]
  | hbm => exact hmem (by simp [hk])
  | regs => exact hmem (by simp [hk])
  | sys => exact hmem (by simp [hk])
  | hole => exact hmem (by simp [hk])

theorem perfByte_bank {bo pa : Nat} (h : paKind s pa = .bank c bo) : perfByte s pa =
    match sliceAt s c (pa / 128) with
    | some l => if l.whole || l.mask.getLsbD (pa % 128) then lineByte l.data (pa % 128) else bankByte s c bo pa
    | none => bankByte s c bo pa := by
  rw [perfByte, h] <;>
  rfl

/-! ### Acts that keep the bytes of some lines -/

/-- From `s` to `t` only column banks and slices change, no column but in its slice, its log of errors and its fresh blocks, and the lines
of `P` keep their bytes and their places in slices. -/
structure Keeps (P : Nat → Prop) (s t : State) : Prop where
  only : BankOnly s t
  col : ∀ c, colAt t c = { colAt s c with slice := (colAt t c).slice, eccLog := (colAt t c).eccLog, fresh := (colAt t c).fresh }
  slice : ∀ c l, P l → sliceAt t c l = sliceAt s c l
  byte : ∀ pa, P (pa / 128) → perfByte t pa = perfByte s pa

namespace Keeps

variable {P Q : Nat → Prop}

theorem refl (P : Nat → Prop) (s : State) : Keeps P s s := ⟨.refl s, fun _ => rfl, fun _ _ _ => rfl, fun _ _ => rfl⟩

theorem trans (h : Keeps P s t) (k : Keeps P t u) : Keeps P s u where
  only := h.only.trans k.only
  col c := by rw [k.col c, h.col c]
  slice c l hl := (k.slice c l hl).trans (h.slice c l hl)
  byte pa hl := (k.byte pa hl).trans (h.byte pa hl)

theorem mono (h : Keeps P s t) (hPQ : ∀ l, Q l → P l) : Keeps Q s t :=
  ⟨h.only, h.col, fun c l hl => h.slice c l (hPQ l hl), fun pa hl => h.byte pa (hPQ _ hl)⟩

theorem cwq (h : Keeps P s t) (c : Nat) : (colAt t c).cwq = (colAt s c).cwq := by rw [h.col c]
theorem unitWrites (h : Keeps P s t) (c : Nat) : unitWrites (colAt t c) = unitWrites (colAt s c) := by rw [h.col c]; rfl
theorem busFailed (h : Keeps P s t) (c : Nat) : busFailed t c = busFailed s c := by rw [Machine.busFailed, h.col c]; rfl
theorem bankBusy (h : Keeps P s t) (c : Nat) : bankBusy t c = bankBusy s c := by
  rw [Machine.bankBusy, Machine.repairing, h.busFailed, h.col c]
  rfl
theorem lineLocked (h : Keeps P s t) (c line : Nat) : lineLocked t c line = lineLocked s c line := by
  rw [Machine.lineLocked, h.unitWrites]
  rfl

/-- Acts on the parts that no performed byte is made of. -/
theorem of_cols (honly : BankOnly s t) (hc : t.cols = s.cols) (hm : t.mem = s.mem) : Keeps P s t := by
  have hcol : ∀ c, colAt t c = colAt s c := fun c => by rw [colAt, colAt, hc]
  refine ⟨honly, fun c => ?_, fun c l _ => ?_, fun pa _ => ?_⟩
  · rw [hcol]
  · rw [sliceAt, sliceAt, hcol]
  · refine perfByte_congr honly.pkg honly.weights (fun c => ?_) (fun c => ?_) (fun c bo _ => ?_) (fun _ => by rw [hm])
    · rw [sliceAt, sliceAt, hcol]
    · rw [hcol]
    · rw [arrayByte, arrayByte, isFresh, isFresh, hcol, hm]

end Keeps

theorem keeps_foldl {P : Nat → Prop} {β : Type} {f : State → β → State} (hf : ∀ s b, Keeps P s (f s b)) :
    ∀ (l : List β) (s : State), Keeps P s (l.foldl f s)
  | [], s => .refl P s
  | b :: l, s => (hf s b).trans (keeps_foldl hf l _)

/-- A column that keeps all but its log of errors. -/
theorem keeps_setCol_eccLog (P : Nat → Prop) (s : State) (c : Nat) (log : BitVec 128) : Keeps P s (setCol s c { colAt s c with eccLog := log }) := by
  have hcol : ∀ b, colAt (setCol s c { colAt s c with eccLog := log }) b = { colAt s b with eccLog := if b = c then log else (colAt s b).eccLog } := by
    intro b
    rw [colAt_setCol]
    by_cases hb : b = c
    · rw [if_pos hb, if_pos hb, hb]
    · rw [if_neg hb, if_neg hb]
  refine ⟨rfl, fun b => ?_, fun b l _ => ?_, fun pa _ => ?_⟩
  · rw [hcol]
  · rw [sliceAt, hcol]
    rfl
  · refine perfByte_congr rfl rfl (fun b => ?_) (fun b => ?_) (fun b bo _ => ?_) (fun _ => rfl)
    · rw [sliceAt, hcol]
      rfl
    · rw [hcol]
      rfl
    · rw [arrayByte, isFresh, hcol]
      rfl

theorem keeps_postEcc (P : Nat → Prop) (s : State) (c : Nat) (ue scrub : Bool) (bo word bit : Nat) : Keeps P s (postEcc s c ue scrub bo word bit) := by
  unfold postEcc
  dsimp only
  split
  · exact (keeps_setCol_eccLog P s c _).trans (.of_cols rfl rfl rfl)
  · exact keeps_setCol_eccLog P s c _

theorem keeps_bankCheckOld (P : Nat → Prop) (s : State) (c line : Nat) (mask : BitVec 128) : Keeps P s (bankCheckOld s c line mask) := by
  unfold bankCheckOld
  dsimp only
  split
  · exact .refl P s
  · refine keeps_foldl (fun s i => ?_) _ s
    split
    · exact .refl P s
    · split
      · exact .refl P s
      · exact (keeps_postEcc P ..).trans (.of_cols rfl rfl rfl)
      · exact keeps_postEcc P ..

theorem keeps_bankReadLine (P : Nat → Prop) (s : State) (c line : Nat) (scrub : Bool) : Keeps P s (bankReadLine s c line scrub).1 := by
  unfold bankReadLine
  dsimp only
  split
  · exact .refl P s
  · split
    · exact .refl P s
    · refine List.foldlRecOn (motive := fun q : State × Bool => Keeps P s q.1) _ _ (.refl P s) (fun q hq i _ => ?_)
      split
      · exact hq
      · exact hq.trans ((keeps_postEcc P ..).trans (.of_cols rfl rfl rfl))
      · exact hq.trans (show Keeps P q.1 (postEcc q.1 c true scrub (lineBo line) i 0) from keeps_postEcc ..)

/-! ### Fresh blocks (06 R232) -/

/-- The addresses of the block of column bank `c` that holds offset `bo`. -/
def inBlock (c bo pa : Nat) : Prop :=
  bankBase + c * (4 * gib) + bo / 65536 * 65536 ≤ pa ∧ pa < bankBase + c * (4 * gib) + bo / 65536 * 65536 + 65536

theorem inBlock_iff {bo pa b bo' : Nat} (hbo : bo < 4 * gib) (hpa : paKind s pa = .bank b bo') :
    inBlock c bo pa ↔ b = c ∧ bo' / 65536 = bo / 65536 := by
  rw [paKind_bank_iff] at hpa
  simp only [inBlock, bankBase, gib] at *
  omega

theorem not_inBlock {bo pa : Nat} (hc : c < 64) (hbo : bo < 4 * gib) (hpa : ∀ b bo', paKind s pa ≠ .bank b bo') : ¬inBlock c bo pa := by
  intro h
  refine hpa _ _ ((paKind_bank_iff s pa _ _).2 ⟨?_, ?_, rfl, rfl⟩) <;>
  · simp only [inBlock, bankBase, gib] at *
    omega

theorem unfresh_of_fresh {bo : Nat} (h : isFresh s c bo = true) : unfresh s c bo =
    { setCol s c { colAt s c with fresh := (colAt s c).fresh.filter (fun b => decide (b ≠ bo / 65536)) } with
      mem := s.mem.filter (fun x => decide (x.1 < bankBase + c * (4 * gib) + bo / 65536 * 65536) ||
        decide (bankBase + c * (4 * gib) + bo / 65536 * 65536 + 65536 ≤ x.1))
      bankErr := s.bankErr.filter (fun x => decide (x.1 < (bankBase + c * (4 * gib) + bo / 65536 * 65536) / 8) ||
        decide ((bankBase + c * (4 * gib) + bo / 65536 * 65536) / 8 + 8192 ≤ x.1)) } := by
  rw [unfresh, if_pos h]
  rfl

theorem unfresh_of_not_fresh {bo : Nat} (h : ¬isFresh s c bo = true) : unfresh s c bo = s := by rw [unfresh, if_neg h]

theorem colAt_unfresh_of_fresh {bo b : Nat} (h : isFresh s c bo = true) : colAt (unfresh s c bo) b =
    if b = c then { colAt s c with fresh := (colAt s c).fresh.filter (fun b => decide (b ≠ bo / 65536)) } else colAt s b := by
  rw [unfresh_of_fresh h]
  exact colAt_setCol ..

theorem colAt_unfresh (s : State) (c bo b : Nat) : colAt (unfresh s c bo) b = { colAt s b with fresh := (colAt (unfresh s c bo) b).fresh } := by
  by_cases h : isFresh s c bo = true
  · rw [colAt_unfresh_of_fresh h]
    split
    next hb => rw [hb]
    next => rfl
  · rw [unfresh_of_not_fresh h]

theorem isFresh_unfresh (s : State) (c bo b bo' : Nat) :
    isFresh (unfresh s c bo) b bo' = (isFresh s b bo' && !decide (b = c ∧ bo' / 65536 = bo / 65536)) := by
  by_cases h : isFresh s c bo = true
  · rw [isFresh, isFresh, colAt_unfresh_of_fresh h]
    by_cases hb : b = c
    · rw [if_pos hb, hb, Bool.eq_iff_iff]
      simp
    · rw [if_neg hb]
      simp [hb]
  · rw [unfresh_of_not_fresh h]
    by_cases hb : b = c ∧ bo' / 65536 = bo / 65536
    · obtain ⟨rfl, hblk⟩ := hb
      have hnot : isFresh s b bo' = false := by rw [isFresh, hblk]; simpa [isFresh] using h
      simp [hnot]
    · simp [hb]

theorem mem_unfresh_out {bo pa : Nat} (h : ¬inBlock c bo pa) : tget 0 (unfresh s c bo).mem pa = tget 0 s.mem pa := by
  by_cases hf : isFresh s c bo = true
  · rw [unfresh_of_fresh hf]
    refine (tget_filter_key 0 (fun a => decide (a < bankBase + c * (4 * gib) + bo / 65536 * 65536) ||
      decide (bankBase + c * (4 * gib) + bo / 65536 * 65536 + 65536 ≤ a)) s.mem pa).trans (if_pos ?_)
    simp only [inBlock, Bool.or_eq_true, decide_eq_true_eq] at *
    omega
  · rw [unfresh_of_not_fresh hf]

theorem mem_unfresh_in {bo pa : Nat} (hf : isFresh s c bo = true) (h : inBlock c bo pa) : tget 0 (unfresh s c bo).mem pa = 0 := by
  rw [unfresh_of_fresh hf]
  refine (tget_filter_key 0 (fun a => decide (a < bankBase + c * (4 * gib) + bo / 65536 * 65536) ||
    decide (bankBase + c * (4 * gib) + bo / 65536 * 65536 + 65536 ≤ a)) s.mem pa).trans (if_neg ?_)
  simp only [inBlock, Bool.or_eq_true, decide_eq_true_eq] at *
  omega

/-- The first write of a fresh block leaves every byte as it was read. -/
theorem arrayByte_unfresh {bo b bo' pa : Nat} (hc : c < 64) (hbo : bo < 4 * gib) (hpa : paKind s pa = .bank b bo') :
    arrayByte (unfresh s c bo) b bo' pa = arrayByte s b bo' pa := by
  unfold arrayByte
  rw [isFresh_unfresh]
  by_cases hin : inBlock c bo pa
  · obtain ⟨rfl, hblk⟩ := (inBlock_iff hbo hpa).1 hin
    have hsame : isFresh s b bo' = isFresh s b bo := by rw [isFresh, isFresh, hblk]
    by_cases hf : isFresh s b bo = true
    · rw [mem_unfresh_in hf hin, hsame, hf]
      simp
    · rw [unfresh_of_not_fresh hf, hsame, Bool.not_eq_true] at *
      simp [hf]
  · rw [mem_unfresh_out hin, decide_eq_false (fun h => hin ((inBlock_iff hbo hpa).2 h))]
    simp

theorem keeps_unfresh (P : Nat → Prop) (s : State) {bo : Nat} (hc : c < 64) (hbo : bo < 4 * gib) : Keeps P s (unfresh s c bo) := by
  have hcol := colAt_unfresh s c bo
  refine ⟨bankOnly_unfresh .., fun b => ?_, fun b l _ => ?_, fun pa _ => ?_⟩
  · rw [hcol b]
  · rw [sliceAt, hcol b]
    rfl
  · refine perfByte_congr (bankOnly_unfresh ..).pkg (bankOnly_unfresh ..).weights (fun b => ?_) (fun b => ?_)
      (fun b bo' hpa => arrayByte_unfresh hc hbo hpa) (fun hpa => mem_unfresh_out (not_inBlock hc hbo hpa))
    · rw [sliceAt, hcol b]
      rfl
    · rw [hcol b]
      rfl

/-! ### Writes of lines -/

/-- Memory after the masked bytes of a line were stored. -/
theorem mem_memPutLine (s : State) (line : Nat) (d : BitVec 1024) (m : BitVec 128) (pa : Nat) :
    tget 0 (memPutLine s line d m).mem pa =
      if pa / 128 = line ∧ m.getLsbD (pa % 128) = true then lineByte d (pa % 128) else tget 0 s.mem pa := by
  have hfold : ∀ n, n ≤ 128 → tget 0 ((List.range n).foldl (fun t i => if m.getLsbD i then tput 0 t (128 * line + i) (lineByte d i) else t) s.mem) pa =
      if pa / 128 = line ∧ pa % 128 < n ∧ m.getLsbD (pa % 128) = true then lineByte d (pa % 128) else tget 0 s.mem pa := by
    intro n hn
    induction n with
    | zero => simp
    | succ n ih =>
      rw [List.range_succ, List.foldl_append, List.foldl_cons, List.foldl_nil]
      by_cases hm : m.getLsbD n
      · rw [if_pos hm, tget_tput, ih (by omega)]
        by_cases hpa : pa = 128 * line + n
        · have hoff : pa % 128 = n := by omega
          rw [if_pos hpa, if_pos ⟨by omega, by omega, by rw [hoff, hm]⟩, hoff]
        · rw [if_neg hpa]
          refine if_congr ?_ rfl rfl
          constructor <;> rintro ⟨h1, h2, h3⟩ <;> exact ⟨h1, by omega, h3⟩
      · rw [if_neg hm, ih (by omega)]
        refine if_congr ⟨fun ⟨h1, h2, h3⟩ => ⟨h1, by omega, h3⟩, fun ⟨h1, h2, h3⟩ => ⟨h1, ?_, h3⟩⟩ rfl rfl
        have hne : pa % 128 ≠ n := fun h => hm (h ▸ h3)
        omega
  refine (hfold 128 le_rfl).trans (if_congr ?_ rfl rfl)
  have := Nat.mod_lt pa (show 128 > 0 by decide)
  tauto

theorem keeps_memPutLine (s : State) (line : Nat) (d : BitVec 1024) (m : BitVec 128) : Keeps (· ≠ line) s (memPutLine s line d m) := by
  have hcols : (memPutLine s line d m).cols = s.cols := by
    unfold memPutLine
    generalize List.range 128 = bytes
    rfl
  have hcol : ∀ c, colAt (memPutLine s line d m) c = colAt s c := fun c => by rw [colAt, colAt, hcols]
  refine ⟨bankOnly_memPutLine .., fun c => by rw [hcol], fun c l _ => by rw [sliceAt, sliceAt, hcol], fun pa hpa => ?_⟩
  have hmem : tget 0 (memPutLine s line d m).mem pa = tget 0 s.mem pa := (mem_memPutLine ..).trans (if_neg fun h => hpa h.1)
  exact perfByte_congr (bankOnly_memPutLine ..).pkg (bankOnly_memPutLine ..).weights (fun c => by rw [sliceAt, sliceAt, hcol])
    (fun c => by rw [hcol]) (fun c bo _ => by rw [arrayByte, arrayByte, isFresh, isFresh, hcol, hmem]) (fun _ => hmem)

theorem lineBo_lt (line : Nat) : lineBo line < 4 * gib := Nat.mod_lt _ (by decide)

theorem keeps_bankPut (s : State) (hc : c < 64) (line : Nat) (d : BitVec 1024) (m : BitVec 128) : Keeps (· ≠ line) s (bankPut s c line d m) := by
  unfold bankPut
  split
  · exact .refl _ s
  · refine (keeps_unfresh _ s hc (lineBo_lt line)).trans (Keeps.trans ?_ (keeps_memPutLine _ line d m))
    exact .of_cols rfl rfl rfl

theorem keeps_bankWriteLine (s : State) (hc : c < 64) (line : Nat) (d : BitVec 1024) (m : BitVec 128) :
    Keeps (· ≠ line) s (bankWriteLine s c line d m) := by
  unfold bankWriteLine
  split
  · exact .refl _ s
  · exact (keeps_bankCheckOld ..).trans (keeps_bankPut _ hc ..)

/-! ### Slices -/

theorem sliceAt_setSlice (s : State) (c line : Nat) (x : Option SliceLine) (b l : Nat) :
    sliceAt (setSlice s c line x) b l = if b = c ∧ l = line then x else sliceAt s b l := by
  rw [sliceAt, setSlice, modCol, colAt_setCol]
  by_cases hb : b = c
  · subst hb
    rw [if_pos rfl, tget_tput]
    simp [sliceAt]
  · rw [if_neg hb, if_neg (fun h => hb h.1), sliceAt]

theorem colAt_setSlice (s : State) (c line : Nat) (x : Option SliceLine) (b : Nat) :
    colAt (setSlice s c line x) b = { colAt s b with slice := (colAt (setSlice s c line x) b).slice } := by
  rw [setSlice, modCol, colAt_setCol]
  split
  next hb => rw [hb]
  next => rfl

theorem bankByte_setSlice (s : State) (c line : Nat) (x : Option SliceLine) (b bo pa : Nat) :
    bankByte (setSlice s c line x) b bo pa = bankByte s b bo pa := by
  rw [bankByte, isFresh, colAt_setSlice]
  rfl

theorem keeps_setSlice (s : State) (c line : Nat) (x : Option SliceLine) : Keeps (· ≠ line) s (setSlice s c line x) := by
  have hcol := colAt_setSlice s c line x
  have hslice : ∀ b l, l ≠ line → sliceAt (setSlice s c line x) b l = sliceAt s b l :=
    fun b l hl => (sliceAt_setSlice ..).trans (if_neg fun h => hl h.2)
  refine ⟨bankOnly_setSlice .., fun b => by rw [hcol b], hslice, fun pa hpa => ?_⟩
  refine perfByte_congr rfl rfl (fun b => hslice b _ hpa) (fun b => ?_) (fun b bo _ => ?_) (fun _ => rfl)
  · rw [hcol b]
    rfl
  · rw [arrayByte, isFresh, hcol b]
    rfl

/-- A slice that gives a line up keeps the bytes and the places of the others, and of that line when it does not hold it. -/
theorem keeps_sliceOut (s : State) (hc : c < 64) (line : Nat) : Keeps (fun l => l ≠ line ∨ sliceAt s c line = none) s (sliceOut s c line) := by
  unfold sliceOut
  cases hat : sliceAt s c line with
  | none => exact .refl _ s
  | some x =>
    refine Keeps.mono (P := (· ≠ line)) ?_ (fun l hl => hl.resolve_right (by simp))
    dsimp only
    split
    · exact keeps_setSlice ..
    · exact (keeps_setSlice ..).trans (keeps_bankWriteLine _ hc ..)

/-- Room in a slice for a line leaves the line as it is. -/
theorem keeps_sliceRoom (s : State) (hc : c < 64) (line : Nat) : Keeps (· = line) s (sliceRoom s c line) := by
  unfold sliceRoom
  dsimp only
  split
  · exact .refl _ s
  next hno =>
    have hnone : sliceAt s c line = none := by
      simp only [Bool.or_eq_true, not_or, Bool.not_eq_true, Option.isSome_eq_false_iff, Option.isNone_iff_eq_none] at hno
      exact hno.1
    refine Keeps.trans (t := { s with fresh := s.fresh + 1 }) (.of_cols rfl rfl rfl) ((keeps_sliceOut _ hc _).mono fun l hl => ?_)
    by_cases h : l = ((listGet ((colAt s c).slice.filter (mayLeave s c)) (Config.freeNat s.fresh %
        ((colAt s c).slice.filter (mayLeave s c)).length)).getD ((colAt s c).slice.headD (line, none))).1
    · refine .inr ?_
      rw [← h, hl]
      exact hnone
    · exact .inl h

theorem sliceAt_sliceEnter (s : State) {line : Nat} {x : SliceLine} (hfull : sliceFull s c line = false) : sliceAt (sliceEnter s c line x) c line = some x := by
  rw [sliceEnter, if_neg (by rw [hfull]; decide), sliceAt_setSlice, if_pos ⟨rfl, rfl⟩]

/-- What enters a slice changes no column but in the parts that slices use. -/
theorem keeps_sliceEnter_no_line (s : State) (hc : c < 64) (line : Nat) (x : SliceLine) : Keeps (fun _ => False) s (sliceEnter s c line x) := by
  unfold sliceEnter
  split
  · exact .refl _ s
  · exact ((keeps_sliceRoom s hc line).mono fun _ h => h.elim).trans ((keeps_setSlice ..).mono fun _ h => h.elim)

end Sys2Proof.Machine
end

section
/-! PROOF. Performed writes, tokens and reads at a home (07 R250, R262, 06 R224, R228, R229): what they change and what they keep. -/

namespace Sys2Proof.Machine

variable {s t u : State} {c line k die : Nat}

/-! ### Performed writes -/

/-- Lines whose bytes a performed write changes: cached memory outside the weight aperture. -/
theorem kind_of_stored (hcached : cached s line = true) (hweight : isWeight s line = false) :
    (∃ c bo, paKind s (128 * line) = .bank c bo) ∨ paKind s (128 * line) = .hbm ∨ paKind s (128 * line) = .sys := by
  unfold cached at hcached
  unfold isWeight at hweight
  cases h : paKind s (128 * line) <;> simp_all

theorem paKind_hbm_iff (s : State) (pa : Nat) : paKind s pa = .hbm ↔ pa < hbmTop := by
  unfold paKind
  by_cases h : pa < hbmTop
  · simp [h]
  · rw [if_neg h]
    split_ifs <;> simp [h]

theorem paKind_sys_iff (s : State) (pa : Nat) : paKind s pa = .sys ↔ sysBase ≤ pa ∧ pa < 0x10000000000000 := by
  unfold paKind hbmTop bankBase regBase weightBase sysBase gib
  split_ifs <;> simp only [false_iff, true_iff] <;> omega

/-- The bytes of a line of HBM or of host memory are memory's. -/
theorem perfByte_of_plain (h : paKind s (128 * line) = .hbm ∨ paKind s (128 * line) = .sys) (hk : k < 128) :
    perfByte s (128 * line + k) = tget 0 s.mem (128 * line + k) := by
  have hsame : paKind s (128 * line + k) = .hbm ∨ paKind s (128 * line + k) = .sys := by
    rw [paKind_hbm_iff, paKind_sys_iff] at h ⊢
    unfold hbmTop sysBase at h ⊢
    omega
  unfold perfByte
  rcases hsame with h | h <;> rw [h]

theorem keeps_memPutLine_no_line (s : State) (line : Nat) (d : BitVec 1024) (m : BitVec 128) : Keeps (fun _ => False) s (memPutLine s line d m) :=
  (keeps_memPutLine s line d m).mono fun _ h => h.elim

theorem bank_lt {bo : Nat} (h : paKind s (128 * line) = .bank c bo) : c < 64 := (paKind_bank_line (k := 0) h (by decide)).2.1

/-- The poison of a line after a write of its masked bytes (06 R225). -/
def poisoned (s : State) (line : Nat) (m : BitVec 128) (p : Bool) : State :=
  { s with poison := tput false s.poison line (if m = BitVec.allOnes 128 then false else tget false s.poison line || p) }

theorem keeps_poisoned (P : Nat → Prop) (s : State) (line : Nat) (m : BitVec 128) (p : Bool) : Keeps P s (poisoned s line m p) := .of_cols rfl rfl rfl

/-- A slice's line after a write of masked bytes. -/
def written (x : SliceLine) (d : BitVec 1024) (m : BitVec 128) : SliceLine :=
  { x with data := lineMerge x.data d m, mask := x.mask ||| m, poison := x.poison && !decide (m = BitVec.allOnes 128) }

theorem performLine_bank {bo : Nat} (h : paKind s (128 * line) = .bank c bo) (d : BitVec 1024) (m : BitVec 128) (p : Bool) :
    performLine s line d m p = setSlice (sliceRoom (poisoned s line m p) c line) c line
      (some (written ((sliceAt s c line).getD SliceLine.empty) d m)) := by
  have hkind : paKind (poisoned s line m p) (128 * line) = .bank c bo := h
  unfold poisoned at hkind
  simp only [performLine, decide_eq_true_eq, hkind]
  rfl

theorem performLine_plain (h : paKind s (128 * line) = .hbm ∨ paKind s (128 * line) = .sys) (d : BitVec 1024) (m : BitVec 128) (p : Bool) :
    performLine s line d m p = memPutLine (poisoned s line m p) line d m := by
  have hkind : paKind (poisoned s line m p) (128 * line) = .hbm ∨ paKind (poisoned s line m p) (128 * line) = .sys := h
  unfold poisoned at hkind
  rcases hkind with hkind | hkind <;>
  · simp only [performLine, decide_eq_true_eq, hkind]
    rfl

section

variable (hcached : cached s line = true) (hweight : isWeight s line = false)
include hcached hweight

/-- A performed write changes no column but in the parts that slices use. -/
theorem keeps_performLine (d : BitVec 1024) (m : BitVec 128) (p : Bool) : Keeps (fun _ => False) s (performLine s line d m p) := by
  rcases kind_of_stored hcached hweight with ⟨c, bo, h⟩ | h
  · rw [performLine_bank h]
    refine (keeps_poisoned _ s line m p).trans (((keeps_sliceRoom _ (bank_lt h) line).mono ?_).trans ((keeps_setSlice ..).mono ?_)) <;>
    exact fun _ h => h.elim
  · rw [performLine_plain h]
    exact (keeps_poisoned _ s line m p).trans (keeps_memPutLine_no_line ..)

/-- A performed write changes the masked bytes of its line and no other byte of it. -/
theorem perfByte_performLine (d : BitVec 1024) (m : BitVec 128) (p : Bool) (hk : k < 128) :
    perfByte (performLine s line d m p) (128 * line + k) = if m.getLsbD k then lineByte d k else perfByte s (128 * line + k) := by
  have hline : (128 * line + k) / 128 = line := by omega
  have hoff : (128 * line + k) % 128 = k := by omega
  rcases kind_of_stored hcached hweight with ⟨c, bo, h⟩ | h
  · rw [performLine_bank h]
    obtain ⟨hpa, hc, -⟩ := paKind_bank_line h hk
    have hroom : Keeps (· = line) s (sliceRoom (poisoned s line m p) c line) := (keeps_poisoned ..).trans (keeps_sliceRoom _ hc line)
    have hbyte := hroom.byte _ hline
    rw [← hbyte]
    have hat := hroom.slice c line rfl
    generalize sliceRoom (poisoned s line m p) c line = r at hbyte hat hroom ⊢
    rw [← hat]
    have hpr : paKind r (128 * line + k) = .bank c (bo + k) := (paKind_congr hroom.only.pkg _).trans hpa
    rw [perfByte_bank (s := setSlice r c line _) hpr, perfByte_bank hpr, hline, hoff, sliceAt_setSlice, if_pos ⟨rfl, rfl⟩]
    have harray : bankByte (setSlice r c line (some (written ((sliceAt r c line).getD SliceLine.empty) d m))) c (bo + k) (128 * line + k) =
        bankByte r c (bo + k) (128 * line + k) := bankByte_setSlice ..
    rw [harray]
    cases hx : sliceAt r c line with
    | none =>
      by_cases hm : m.getLsbD k <;> simp [written, SliceLine.empty, lineByte_lineMerge _ _ _ hk, hm]
    | some x =>
      by_cases hm : m.getLsbD k <;> simp [written, lineByte_lineMerge _ _ _ hk, hm]
  · rw [performLine_plain h, perfByte_of_plain h hk, perfByte_of_plain (s := memPutLine ..) _ hk, mem_memPutLine, hline, hoff]
    · simp only [true_and]
      rfl
    · rw [paKind_congr (bankOnly_memPutLine ..).pkg]
      exact h

end

end Sys2Proof.Machine
end

section
/-! PROOF. Numbers of performed bytes, tokens that come to a die, and reads of a line at its die (07 R250, R262, 06 R224, R228, R229). -/

namespace Sys2Proof.Machine

variable {s t u : State} {c line k die : Nat}

/-! ### Numbers of bytes -/

theorem leNat_leBytes (n x : Nat) : leNat (leBytes n x) = x % 2 ^ (8 * n) := by
  induction n generalizing x with
  | zero => simp [leBytes, leNat, Nat.mod_one]
  | succ n ih =>
    rw [leBytes, leNat, ih, BitVec.toNat_ofNat, show 2 ^ (8 * (n + 1)) = 2 ^ 8 * 2 ^ (8 * n) by rw [← pow_add]; congr 1; omega,
      Nat.mod_mul (x := x) (a := 2 ^ 8)]
    rfl

/-- The number that bytes make once they are written. -/
theorem perfNat_of_bytes {pa n x : Nat} (h : ∀ i, i < n → perfByte s (pa + i) = (leBytes n x).getD i 0) : perfNat s pa n = x % 2 ^ (8 * n) := by
  have hbytes : (List.range n).map (fun i => perfByte s (pa + i)) = leBytes n x := by
    refine List.ext_getElem (by simp [length_leBytes]) fun i hi hi' => ?_
    rw [List.getElem_map, List.getElem_range, h i (by simpa using hi), List.getD_eq_getElem _ _ hi']
  rw [perfNat, hbytes, leNat_leBytes]

theorem perfNat_congr {pa n : Nat} (h : ∀ q, q / 128 = pa / 128 → perfByte t q = perfByte s q) (hin : pa % 128 + n ≤ 128) :
    perfNat t pa n = perfNat s pa n := by
  unfold perfNat
  refine congrArg leNat (List.map_congr_left fun i hi => h _ ?_)
  have := List.mem_range.1 hi
  omega

/-- An aligned value lies in one line. -/
theorem aligned_in_line {ty : Ty} {pa w : Nat} (hw : memSize ty = some w) (ha : pa % w = 0) : pa % 128 + w ≤ 128 ∧ 0 < w := by
  have hcases : w = 1 ∨ w = 2 ∨ w = 4 ∨ w = 8 := by
    cases ty <;> simp_all [memSize]
  rcases hcases with rfl | rfl | rfl | rfl <;> omega

/-! ### Writes of some bytes -/

theorem stored_congr (hpkg : t.pkg = s.pkg) (h : cached s line = true ∧ isWeight s line = false) : cached t line = true ∧ isWeight t line = false := by
  rwa [cached_congr hpkg, isWeight_congr hpkg]

/-- Bytes written one after another in a line, and what stays of it. -/
theorem performBytes_facts {bs : List Byte} {pa : Nat} (hstored : cached s (pa / 128) = true ∧ isWeight s (pa / 128) = false)
    (hin : pa % 128 + bs.length ≤ 128) : Keeps (fun _ => False) s (performBytes s pa bs) ∧
    ∀ q, q / 128 = pa / 128 → perfByte (performBytes s pa bs) q = if pa ≤ q ∧ q < pa + bs.length then bs.getD (q - pa) 0 else perfByte s q := by
  induction bs generalizing s pa with
  | nil => exact ⟨.refl _ s, fun q _ => by rw [if_neg (by simp)]; rfl⟩
  | cons b bs ih =>
    rw [List.length_cons] at hin
    have hfirst := keeps_performLine hstored.1 hstored.2 (lineSet 0 (pa % 128) b) (bit128 0 (pa % 128)) false
    have hbyte : ∀ q, q / 128 = pa / 128 → perfByte (performLine s (pa / 128) (lineSet 0 (pa % 128) b) (bit128 0 (pa % 128)) false) q =
        if q = pa then b else perfByte s q := by
      intro q hq
      have hk : q % 128 < 128 := Nat.mod_lt _ (by decide)
      have h := perfByte_performLine hstored.1 hstored.2 (lineSet 0 (pa % 128) b) (bit128 0 (pa % 128)) false hk
      rw [show 128 * (pa / 128) + q % 128 = q by omega, getLsbD_bit128 _ hk, lineByte_lineSet _ _ (Nat.mod_lt _ (by decide)) hk] at h
      rw [h]
      by_cases hqp : q = pa
      · simp [hqp]
      · simp [hqp, show q % 128 ≠ pa % 128 by omega]
    by_cases hbs : bs = []
    · subst hbs
      refine ⟨hfirst, fun q hq => (hbyte q hq).trans ?_⟩
      by_cases hqp : q = pa
      · rw [if_pos hqp, if_pos (by simp; omega), hqp, Nat.sub_self]
        rfl
      · rw [if_neg hqp, if_neg (by simp; omega)]
    · have hlen : 0 < bs.length := List.length_pos_iff.2 hbs
      have hnext : (pa + 1) / 128 = pa / 128 := by omega
      obtain ⟨hkeeps, hbytes⟩ := ih (pa := pa + 1) (by rw [hnext]; exact stored_congr hfirst.only.pkg hstored) (by omega)
      refine ⟨hfirst.trans hkeeps, fun q hq => (hbytes q (by rw [hnext, hq])).trans ?_⟩
      rw [hbyte q hq, List.length_cons]
      by_cases hqp : q = pa
      · rw [if_neg (by omega), if_pos hqp, if_pos (by omega), hqp, Nat.sub_self]
        rfl
      · by_cases hlater : pa + 1 ≤ q ∧ q < pa + 1 + bs.length
        · rw [if_pos hlater, if_pos (by omega), show q - pa = (q - (pa + 1)) + 1 by omega, List.getD_cons_succ]
        · rw [if_neg hlater, if_neg hqp, if_neg (by omega)]

/-! ### Tokens -/

/-- From `s` to `t` nothing changes but tokens, the host's copies and the reads of waiters that follow. -/
def TokOnly (s t : State) : Prop := t = { s with hostHas := t.hostHas, toks := t.toks, agenda := t.agenda, msgs := t.msgs }

theorem TokOnly.keeps_byte (h : TokOnly s t) (pa : Nat) : perfByte t pa = perfByte s pa := by
  rw [h]
  rfl

theorem TokOnly.parts (h : TokOnly s t) : t.cols = s.cols ∧ t.pkg = s.pkg ∧ t.clutches = s.clutches ∧ t.l1 = s.l1 ∧ t.sync = s.sync ∧
    t.bankErr = s.bankErr := by
  rw [h]
  exact ⟨rfl, rfl, rfl, rfl, rfl, rfl⟩

theorem tokOnly_recallHost (s : State) (line : Nat) : TokOnly s (recallHost s line) := by
  unfold recallHost
  split <;> rfl

/-- What a die that nothing keeps a line's tokens from obtains. -/
theorem gatherAll_taken (hholders : holders s line none = []) (hclaimed : claimed s line die none = false) (hroom : noRoom s line = false) :
    ∃ t, gatherAll s die line none = some t ∧ TokOnly s t ∧ (tokAt t line).held = [(die, 4)] := by
  rw [gatherAll, hholders, hclaimed, hroom]
  refine ⟨_, rfl, ?_, ?_⟩
  · unfold unwatch recallHost
    split <;> split <;> rfl
  · exact congrArg LineTok.held (tokAt_setTok_self ..)

/-! ### Reads at a die -/

end Sys2Proof.Machine
end

section
/-! PROOF. Reads of a line at its die, drains and fills (07 R262, 06 R221, R222, R228): what each does when nothing keeps it waiting. -/

namespace Sys2Proof.Machine

variable {s t u : State} {c line k die : Nat}

/-! ### What the conditions of a read and a write depend on -/

theorem acceptedOf_congr (h : ∀ c, (colAt t c).cwq = (colAt s c).cwq) (die line : Nat) : acceptedOf t die line = acceptedOf s die line := by
  simp only [acceptedOf, h]

theorem holders_congr (h : t.clutches = s.clutches) (line : Nat) (me : Option Nat) : holders t line me = holders s line me := by
  simp only [holders, h]

theorem hbmDecode_congr (h : t.pkg = s.pkg) (pa : Nat) : hbmDecode t pa = hbmDecode s pa := by simp only [hbmDecode, h]

theorem homeTower_congr (h : t.pkg = s.pkg) (pa : Nat) : homeTower t pa = homeTower s pa := by
  simp only [homeTower, paKind_congr h, hbmDecode_congr h]

theorem tokAt_congr (htoks : t.toks = s.toks) (hpkg : t.pkg = s.pkg) (line : Nat) : tokAt t line = tokAt s line := by
  simp only [tokAt, htoks, homeTower_congr hpkg]

theorem claimed_congr (htoks : t.toks = s.toks) (hpkg : t.pkg = s.pkg) (line die : Nat) : claimed t line die none = claimed s line die none := by
  simp only [claimed, tokAt_congr htoks hpkg]

/-- Nothing keeps the reads and writes of a line of a column bank waiting: its bus is free and its unit has not locked it. -/
def BankOpen (s : State) (line : Nat) : Prop := ∀ c bo, paKind s (128 * line) = .bank c bo → bankBusy s c = false ∧ lineLocked s c line = false

theorem BankOpen.keeps {P : Nat → Prop} (h : BankOpen s line) (hk : Keeps P s t) : BankOpen t line := by
  intro c bo hkind
  rw [paKind_congr hk.only.pkg] at hkind
  rw [hk.bankBusy, hk.lineLocked]
  exact h c bo hkind

theorem bankHeld_of_open (h : BankOpen s line) : bankHeld s line = false := by
  unfold bankHeld
  cases hk : paKind s (128 * line) with
  | bank c bo =>
    obtain ⟨hbusy, hlocked⟩ := h c bo hk
    simp [hbusy, hlocked]
  | _ => rfl

/-! ### The read of a line at its home -/

/-- A line of a column bank that its slice fetched is the slice's. -/
theorem keeps_bankFetch (s : State) (line : Nat) : Keeps (fun _ => False) s (bankFetch s line) := by
  unfold bankFetch
  split
  next c bo h =>
    dsimp only
    split
    · exact .refl _ s
    · exact (keeps_bankReadLine ..).trans (keeps_sliceEnter_no_line _ (bank_lt h) ..)
  next => exact .refl _ s

theorem sliceFull_bankReadLine (s : State) (c line l : Nat) (scrub : Bool) :
    sliceFull (bankReadLine s c line scrub).1 c l = sliceFull s c l := by
  obtain ⟨-, -, log, hcol⟩ := eccLogged_bankReadLine s c line scrub
  have hkeeps := keeps_bankReadLine (fun _ => False) s c line scrub
  have hmay : mayLeave (bankReadLine s c line scrub).1 c = mayLeave s c := by
    funext q
    simp only [mayLeave, hkeeps.bankBusy, hkeeps.lineLocked]
  simp only [sliceFull, hcol, hmay]

theorem bankFetch_of_kind (h : ∀ c bo, paKind s (128 * line) ≠ .bank c bo) : bankFetch s line = s := by
  unfold bankFetch
  split
  next hk => exact absurd hk (h _ _)
  next => rfl

/-- A fetched line reads as before, and its slice has room for it. -/
theorem bankFetch_facts (hroom : noRoom s line = false) :
    (∀ q, q / 128 = line → perfByte (bankFetch s line) q = perfByte s q) ∧ noRoom (bankFetch s line) line = false := by
  by_cases hbank : ∃ c bo, paKind s (128 * line) = .bank c bo
  · obtain ⟨c, bo, hk⟩ := hbank
    have hfull : sliceFull s c line = false := by simpa only [noRoom, hk] using hroom
    have hkeeps := keeps_bankFetch s line
    cases hl : ((sliceAt s c line).getD SliceLine.empty).full with
    | true =>
      have hsame : bankFetch s line = s := by simp only [bankFetch, hk, hl, if_true]
      rw [hsame]
      exact ⟨fun _ _ => rfl, hroom⟩
    | false =>
      have hat : ∃ x : SliceLine, sliceAt (bankFetch s line) c line = some x ∧ x.whole = true ∧ x.data = perfLine s line := by
        refine ⟨{ (sliceAt s c line).getD SliceLine.empty with
          data := perfLine s line, whole := true
          poison := ((sliceAt s c line).getD SliceLine.empty).poison || (bankReadLine s c line false).2 }, ?_, rfl, rfl⟩
        simp only [bankFetch, hk, hl, Bool.false_eq_true, if_false]
        exact sliceAt_sliceEnter _ ((sliceFull_bankReadLine ..).trans hfull)
      obtain ⟨x, hx, hwhole, hdata⟩ := hat
      have hkind : paKind (bankFetch s line) (128 * line) = .bank c bo := (paKind_congr hkeeps.only.pkg _).trans hk
      refine ⟨fun q hq => ?_, ?_⟩
      · have hoff : q % 128 < 128 := Nat.mod_lt _ (by decide)
        have hpa := (paKind_bank_line hkind hoff).1
        rw [show 128 * line + q % 128 = q by omega] at hpa
        rw [perfByte_bank hpa, hq, hx]
        simp only [hwhole, hdata, Bool.true_or, if_true]
        rw [lineByte_perfLine _ _ hoff, show 128 * line + q % 128 = q by omega]
      · have hsome : (tget none (colAt (bankFetch s line) c).slice line).isNone = false := by
          change (sliceAt (bankFetch s line) c line).isNone = false
          rw [hx]
          rfl
        simp only [noRoom, hkind, sliceFull, hsome, Bool.false_and]
  · rw [bankFetch_of_kind (fun c bo h => hbank ⟨c, bo, h⟩)]
    exact ⟨fun _ _ => rfl, hroom⟩

/-- A read at a die that holds a token and for which nothing waits takes place. -/
theorem readAt_ready (hacc : acceptedOf s die line = []) (hopen : BankOpen s line) (htok : 1 ≤ tget 0 (tokAt s line).held die) :
    readAt s die line = some (bankFetch (recallHost s line) line) := by
  simp only [readAt, drainAccepted, hacc, List.map_nil, drainHeads, bankHeld_of_open hopen, Bool.false_eq_true, if_false, gatherOne, if_pos htok,
    Option.map_some]

/-- All of a line comes to a die that reads it and for which nothing is kept. -/
theorem ownLine_ready (hacc : acceptedOf s die line = []) (hopen : BankOpen s line) (htok : 1 ≤ tget 0 (tokAt s line).held die)
    (hholders : holders s line none = []) (hclaimed : claimed s line die none = false) (hroom : noRoom s line = false) :
    ∃ t, ownLine s die line = some t ∧ (tokAt t line).held = [(die, 4)] ∧ (∀ q, q / 128 = line → perfByte t q = perfByte s q) ∧
      t.sync = s.sync ∧ t.clutches = s.clutches ∧ t.pkg = s.pkg := by
  have hrecall := tokOnly_recallHost s line
  have hfetch := keeps_bankFetch (recallHost s line) line
  obtain ⟨hcols, hpkg, hclutches, -, hsync, -⟩ := hrecall.parts
  have htoks : (recallHost s line).toks = s.toks := by unfold recallHost; split <;> rfl
  have hroom' : noRoom (recallHost s line) line = false := by
    unfold recallHost
    split <;> exact hroom
  obtain ⟨hbytes, hroom2⟩ := bankFetch_facts hroom'
  obtain ⟨t, ht, honly, hheld⟩ := gatherAll_taken (s := bankFetch (recallHost s line) line) (die := die)
    ((holders_congr (hfetch.only.clutches.trans hclutches) line none).trans hholders)
    ((claimed_congr (hfetch.only.toks.trans htoks) (hfetch.only.pkg.trans hpkg) line die).trans hclaimed) hroom2
  obtain ⟨-, hpkgt, hclutchest, -, hsynct, -⟩ := honly.parts
  refine ⟨t, ?_, hheld, fun q hq => ?_, ?_, ?_, ?_⟩
  · rw [ownLine, readAt_ready hacc hopen htok]
    exact ht
  · rw [honly.keeps_byte, hbytes q hq, hrecall.keeps_byte]
  · rw [hsynct, hfetch.only.sync, hsync]
  · rw [hclutchest, hfetch.only.clutches, hclutches]
  · rw [hpkgt, hfetch.only.pkg, hpkg]

/-! ### Slices that cache lines of other homes -/

theorem keeps_sliceTouch (s : State) (hc : c < 64) (line : Nat) : Keeps (fun _ => False) s (sliceTouch s c line) := by
  have henter : Keeps (fun _ => False) s (if (sliceAt s c line).isSome then s else sliceEnter s c line SliceLine.empty) := by
    split
    · exact .refl _ s
    · exact keeps_sliceEnter_no_line s hc ..
  unfold sliceTouch
  split
  next => exact henter
  next => exact henter
  next => exact .refl _ s

/-- A line that a slice caches for another home reads as before. -/
theorem perfByte_sliceTouch (hc : c < 64) {q : Nat} (hq : q / 128 = line) : perfByte (sliceTouch s c line) q = perfByte s q := by
  have hkeeps := keeps_sliceTouch s hc line
  have hmem : paKind s (128 * line) = .hbm ∨ paKind s (128 * line) = .sys → perfByte (sliceEnter s c line SliceLine.empty) q = perfByte s q := by
    intro hk
    have hqk : 128 * line + q % 128 = q := by omega
    have hoff : q % 128 < 128 := Nat.mod_lt _ (by decide)
    unfold sliceEnter
    split
    · rfl
    · have hroom := keeps_sliceRoom s hc line
      have hkr : paKind (sliceRoom s c line) (128 * line) = .hbm ∨ paKind (sliceRoom s c line) (128 * line) = .sys := by
        rwa [paKind_congr hroom.only.pkg]
      rw [← hroom.byte q hq, ← hqk, perfByte_of_plain hkr hoff, perfByte_of_plain (s := setSlice ..) hkr hoff]
      rfl
  unfold sliceTouch
  split
  next h =>
    split
    · rfl
    · exact hmem (.inl h)
  next h =>
    split
    · rfl
    · exact hmem (.inr h)
  next => rfl

end Sys2Proof.Machine
end

section
/-! PROOF. Fills, evictions and drains (06 R221, R222, R238, 07 R250, R252), the first clauses of O45. -/

namespace Sys2Proof.Machine

variable {s t u : State} {c line k die i : Nat}

/-! ### Fills -/

theorem colOf_lt (hi : i < 320) : colOf i < 64 := by
  unfold colOf
  split <;> omega

/-- A line that a slice may give up changes no column but in the parts that slices use, and no other line's place in a slice. -/
theorem sliceMay_cases (s : State) (c : Nat) : sliceMay s c = { s with fresh := s.fresh + 2 } ∨ ∃ l, sliceMay s c = sliceOut { s with fresh := s.fresh + 2 } c l := by
  unfold sliceMay
  dsimp only
  split
  · exact .inr ⟨_, rfl⟩
  · exact .inl rfl

theorem sliceAt_bankWriteLine (s : State) (hc : c < 64) (line : Nat) (d : BitVec 1024) (m : BitVec 128) (b l : Nat) :
    sliceAt (bankWriteLine s c line d m) b l = sliceAt s b l := by
  have hput : ∀ r : State, sliceAt (memPutLine r line d m) b l = sliceAt r b l := fun r => by
    have hcols : (memPutLine r line d m).cols = r.cols := by
      unfold memPutLine
      generalize List.range 128 = bytes
      rfl
    rw [sliceAt, sliceAt, colAt, colAt, hcols]
  unfold bankWriteLine
  split
  · rfl
  · unfold bankPut
    split
    · exact (keeps_bankCheckOld (fun _ => True) s c line m).slice b l trivial
    · exact (hput _).trans (((keeps_unfresh (fun _ => True) _ hc (lineBo_lt line)).slice b l trivial).trans
        ((keeps_bankCheckOld (fun _ => True) s c line m).slice b l trivial))

theorem sliceAt_sliceOut_self (s : State) (hc : c < 64) (line : Nat) : sliceAt (sliceOut s c line) c line = none := by
  unfold sliceOut
  cases hat : sliceAt s c line with
  | none => exact hat
  | some x =>
    have hout : sliceAt (setSlice s c line none) c line = none := (sliceAt_setSlice ..).trans (if_pos ⟨rfl, rfl⟩)
    dsimp only
    split
    · exact hout
    · rw [sliceAt_bankWriteLine _ hc, hout]

theorem keeps_withFresh (P : Nat → Prop) (s : State) (n : Nat) : Keeps P s { s with fresh := n } := .of_cols rfl rfl rfl

theorem keeps_sliceMay (s : State) (hc : c < 64) : Keeps (fun _ => False) s (sliceMay s c) := by
  rcases sliceMay_cases s c with h | ⟨l, h⟩ <;> rw [h]
  · exact keeps_withFresh ..
  · exact (keeps_withFresh ..).trans ((keeps_sliceOut _ hc l).mono fun _ h => h.elim)

/-- A slice that gives a line up holds no line that it did not hold before. -/
theorem sliceAt_sliceMay {x : SliceLine} (hc : c < 64) (h : sliceAt (sliceMay s c) c line = some x) : sliceAt s c line = some x := by
  rcases sliceMay_cases s c with hs | ⟨l, hs⟩ <;> rw [hs] at h
  · exact h
  · by_cases hl : line ≠ l ∨ sliceAt { s with fresh := s.fresh + 2 } c l = none
    · rw [(keeps_sliceOut _ hc l).slice c line hl] at h
      exact h
    · exfalso
      simp only [not_or, not_not] at hl
      obtain ⟨rfl, hsome⟩ := hl
      rw [sliceAt_sliceOut_self _ hc] at h
      cases h

theorem weightSlice_sliceMay {x : SliceLine} (hi : i < 320) (h : weightSlice (sliceMay s (colOf i)) i line = some x) : weightSlice s i line = some x := by
  have hver : verOf (sliceMay s (colOf i)) (weightExt line) = verOf s (weightExt line) := by
    rw [verOf, (keeps_sliceMay s (colOf_lt hi)).only.weights, verOf]
  unfold weightSlice at h ⊢
  rw [hver] at h
  split at h
  next y hy =>
    have hy' : tget none (colAt s (colOf i)).slice line = some y := sliceAt_sliceMay (colOf_lt hi) hy
    simp only [hy']
    exact h
  next => cases h

theorem perfLine_congr (h : ∀ k, k < 128 → perfByte t (128 * line + k) = perfByte s (128 * line + k)) : perfLine t line = perfLine s line :=
  List.foldl_ext _ _ 0 fun d k hk => by rw [h k (List.mem_range.1 hk)]

theorem columnLine_setL1 (s : State) (i line : Nat) (x : Option L1Line) (c l : Nat) : columnLine (setL1 s i line x) c l = columnLine s c l := by
  rw [columnLine, columnLine, perfLine_congr (t := setL1 s i line x) (s := s) fun _ _ => rfl]
  rfl

theorem paKind_weight_iff (s : State) (pa off : Nat) : paKind s pa = .weight off ↔
    weightBase ≤ pa ∧ pa < weightBase + 16384 * gib ∧ s.pkg.hbmLock = true ∧ off = pa - weightBase := by
  unfold paKind hbmTop bankBase regBase weightBase sysBase gib
  cases s.pkg.hbmLock <;> simp only [if_true, Bool.false_eq_true, if_false] <;> split_ifs <;> simp <;> omega

/-- The bytes of a weight line are the weight store's. -/
theorem perfLine_of_weight (hweight : isWeight s line = true) (hpkg : t.pkg = s.pkg) (hweights : t.weights = s.weights) :
    perfLine t line = perfLine s line := by
  refine perfLine_congr fun k hk => ?_
  have hkind : ∃ off, paKind s (128 * line + k) = .weight off := by
    unfold isWeight at hweight
    split at hweight
    next off h =>
      obtain ⟨hlo, hhi, hlock, -⟩ := (paKind_weight_iff ..).1 h
      refine ⟨_, (paKind_weight_iff ..).2 ⟨by omega, ?_, hlock, rfl⟩⟩
      simp only [weightBase, gib] at *
      omega
    next => cases hweight
  obtain ⟨off, hoff⟩ := hkind
  rw [perfByte, perfByte, paKind_congr hpkg, hoff, hweights]

theorem l1Room_of_room {keep : List Nat} (h : (l1At s i line).isSome = true ∨ (tget [] s.l1 i).length < l1Cap) : l1Room s i keep line = some s := by
  have hroom : ((tget none (tget [] s.l1 i) line).isSome || decide ((tget [] s.l1 i).length < l1Cap)) = true := by
    rw [Bool.or_eq_true, decide_eq_true_eq]
    exact h
  rw [l1Room, hroom]
  rfl

/-- The state in which a fill has read its line. -/
def filled (s : State) (i line : Nat) : State := sliceTouch (bankFetch (recallHost s line) line) (colOf i) line

theorem filled_facts (hi : i < 320) : (filled s i line).l1 = s.l1 ∧ (filled s i line).toks = s.toks ∧ (filled s i line).clutches = s.clutches := by
  have hfetch := keeps_bankFetch (recallHost s line) line
  have htouch := keeps_sliceTouch (bankFetch (recallHost s line) line) (colOf_lt hi) line
  obtain ⟨-, -, hclutches, hl1, -, -⟩ := (tokOnly_recallHost s line).parts
  refine ⟨htouch.only.l1.trans (hfetch.only.l1.trans hl1), htouch.only.toks.trans (hfetch.only.toks.trans ?_),
    htouch.only.clutches.trans (hfetch.only.clutches.trans hclutches)⟩
  unfold recallHost
  split <;> rfl

/-- A fill of a line outside the weight aperture that need not wait. -/
theorem cacheFillOp_ready (hweight : isWeight s line = false) (hroom : (l1At s i line).isSome = true ∨ (tget [] s.l1 i).length < l1Cap)
    (hacc : acceptedOf s (dieOf (colOf i)) line = []) (hopen : BankOpen s line) (htok : 1 ≤ tget 0 (tokAt s line).held (dieOf (colOf i))) :
    cacheFillOp s i line = some (setL1 (filled s i line) i line (some { (l1At (filled s i line) i line).getD L1Line.empty with
      data := lineMerge (columnLine (filled s i line) (colOf i) line) ((l1At (filled s i line) i line).getD L1Line.empty).data
        ((l1At (filled s i line) i line).getD L1Line.empty).dirty
      valid := BitVec.allOnes 128
      poison := linePoison (filled s i line) line || cwqPoison (filled s i line) (colOf i) line ||
        ((l1At (filled s i line) i line).getD L1Line.empty).poison })) := by
  simp only [cacheFillOp, l1Room_of_room hroom, hweight, readAt_ready hacc hopen htok, Bool.false_eq_true, if_false]
  rfl

theorem exec_cacheFill (hlive : live s = true) (hi : i < 320) (hcached : cached s line = true)
    (hgoes : isWeight s line = true → inRoom s line = true) (h : cacheFillOp (sliceMay s (colOf i)) i line = some t) :
    exec (.cacheFill i line) s = .next t := by
  have hkeeps := keeps_sliceMay s (colOf_lt hi)
  have hwait : (isWeight (sliceMay s (colOf i)) line && (weightSlice (sliceMay s (colOf i)) i line).isNone &&
      !inRoom (sliceMay s (colOf i)) line) = false := by
    rw [isWeight_congr hkeeps.only.pkg, inRoom, verOf, hkeeps.only.weights]
    cases hw : isWeight s line
    · rfl
    · have hin := hgoes hw
      rw [inRoom, verOf] at hin
      rw [hin]
      simp
  change execCacheFill i line s = _
  simp only [execCacheFill, hlive, hcached, decide_eq_false (Nat.not_le.2 hi), hwait, h, Bool.not_true, Bool.or_self, Bool.false_eq_true, if_false]

/-- A fill of a line outside the weight aperture: the L1 holds its dirty bytes over those that its column sees. -/
theorem cacheFill_facts (hlive : live s = true) (hi : i < 320) (hcached : cached s line = true) (hweight : isWeight s line = false)
    (hroom : (l1At s i line).isSome = true ∨ (tget [] s.l1 i).length < l1Cap) (hacc : acceptedOf s (dieOf (colOf i)) line = [])
    (htok : 1 ≤ tget 0 (tokAt s line).held (dieOf (colOf i))) (hopen : BankOpen s line) :
    ∃ t l, exec (.cacheFill i line) s = .next t ∧ l1At t i line = some l ∧ l.valid = BitVec.allOnes 128 ∧
      l.dirty = ((l1At s i line).getD L1Line.empty).dirty ∧
      (∀ k, k < 128 → lineByte l.data k = if ((l1At s i line).getD L1Line.empty).dirty.getLsbD k
        then lineByte ((l1At s i line).getD L1Line.empty).data k else lineByte (columnLine t (colOf i) line) k) ∧
      (∀ j m, (j ≠ i ∨ m ≠ line) → l1At t j m = l1At s j m) ∧ t.clutches = s.clutches ∧ t.toks = s.toks := by
  have hmay := keeps_sliceMay s (colOf_lt hi)
  obtain ⟨hl1, htoks, hclutches⟩ := filled_facts (s := sliceMay s (colOf i)) (line := line) hi
  have hat : ∀ j m, l1At (filled (sliceMay s (colOf i)) i line) j m = l1At s j m := fun j m => by rw [l1At, hl1, hmay.only.l1, l1At]
  have hop := cacheFillOp_ready (s := sliceMay s (colOf i)) ((isWeight_congr hmay.only.pkg line).trans hweight)
    (by rwa [l1At, hmay.only.l1, ← l1At]) ((acceptedOf_congr hmay.cwq _ _).trans hacc) (hopen.keeps hmay)
    (by rwa [tokAt_congr hmay.only.toks hmay.only.pkg])
  refine ⟨_, _, exec_cacheFill hlive hi hcached (fun h => by rw [hweight] at h; cases h) hop, (l1At_setL1 ..).trans (if_pos ⟨rfl, rfl⟩), rfl,
    ?_, fun k hk => ?_, fun j m hjm => ?_, ?_, ?_⟩
  · rw [hat]
  · rw [hat]
    rw [columnLine_setL1]
    dsimp only
    rw [lineByte_lineMerge _ _ _ hk]
  · rw [l1At_setL1, if_neg (fun h => hjm.elim (absurd h.1) (absurd h.2)), hat]
  · exact hclutches.trans hmay.only.clutches
  · exact htoks.trans hmay.only.toks

/-- A fill of a weight line from the slice, else from the reading room. -/
theorem weightFill_facts (s : State) (i line : Nat) : ∃ l, l1At (weightFill s i line) i line = some l ∧ l.valid = BitVec.allOnes 128 ∧ l.dirty = 0 ∧
    l.ver = some (verOf s (weightExt line)) ∧
    ((l.data = perfLine s line ∧ l.poison = false) ∨ ∃ y, weightSlice s i line = some y ∧ l.data = y.data ∧ l.poison = y.poison) ∧
    (∀ j m, (j ≠ i ∨ m ≠ line) → l1At (weightFill s i line) j m = l1At s j m) ∧ (weightFill s i line).clutches = s.clutches := by
  have hput : ∀ (r : State) (d : BitVec 1024) (p : Bool), (∀ j m, (j ≠ i ∨ m ≠ line) → l1At (weightPut r i line d p) j m = l1At r j m) :=
    fun r d p j m hjm => by
      refine (l1At_setL1 ..).trans ((if_neg fun h => hjm.elim (absurd h.1) (absurd h.2)).trans ?_)
      rw [l1At, (bankOnly_sliceEnter ..).l1, l1At]
  unfold weightFill
  cases hslice : weightSlice s i line with
  | some y =>
    exact ⟨_, (l1At_setL1 ..).trans (if_pos ⟨rfl, rfl⟩), rfl, rfl, rfl, .inr ⟨y, rfl, rfl, rfl⟩, hput _ _ _, weightPut_clutches ..⟩
  | none =>
    dsimp only
    refine ⟨_, (l1At_setL1 ..).trans (if_pos ⟨rfl, rfl⟩), rfl, rfl, ?_, .inl ⟨?_, rfl⟩, fun j m hjm => (hput _ _ _ j m hjm).trans ?_,
      (weightPut_clutches ..).trans ?_⟩
    · split <;> rfl
    · dsimp only
      refine perfLine_congr fun k _ => ?_
      split <;> rfl
    all_goals split <;> rfl

theorem cacheFill_weight_facts (hlive : live s = true) (hi : i < 320) (hcached : cached s line = true) (hweight : isWeight s line = true)
    (hin : inRoom s line = true) (hroom : (l1At s i line).isSome = true ∨ (tget [] s.l1 i).length < l1Cap) :
    ∃ t l, exec (.cacheFill i line) s = .next t ∧ l1At t i line = some l ∧ l.valid = BitVec.allOnes 128 ∧ l.dirty = 0 ∧
      l.ver = some (verOf s (weightExt line)) ∧
      ((l.data = perfLine s line ∧ l.poison = false) ∨ ∃ y, weightSlice s i line = some y ∧ l.data = y.data ∧ l.poison = y.poison) ∧
      (∀ j m, (j ≠ i ∨ m ≠ line) → l1At t j m = l1At s j m) ∧ t.clutches = s.clutches := by
  have hmay := keeps_sliceMay s (colOf_lt hi)
  have hw : isWeight (sliceMay s (colOf i)) line = true := (isWeight_congr hmay.only.pkg line).trans hweight
  have hop : cacheFillOp (sliceMay s (colOf i)) i line = some (weightFill (sliceMay s (colOf i)) i line) := by
    simp only [cacheFillOp, l1Room_of_room (s := sliceMay s (colOf i)) (by rwa [l1At, hmay.only.l1, ← l1At]), hw, if_true]
  obtain ⟨l, hat, hvalid, hdirty, hver, hdata, hothers, hclutches⟩ := weightFill_facts (sliceMay s (colOf i)) i line
  refine ⟨_, l, exec_cacheFill hlive hi hcached (fun _ => hin) hop, hat, hvalid, hdirty, ?_, ?_, fun j m hjm => (hothers j m hjm).trans ?_,
    hclutches.trans hmay.only.clutches⟩
  · rw [hver, verOf, hmay.only.weights, verOf]
  · rcases hdata with ⟨hd, hp⟩ | ⟨y, hy, hd, hp⟩
    · exact .inl ⟨hd.trans (perfLine_of_weight hweight hmay.only.pkg hmay.only.weights), hp⟩
    · exact .inr ⟨y, weightSlice_sliceMay hi hy, hd, hp⟩
  · rw [l1At, hmay.only.l1, l1At]

end Sys2Proof.Machine
end

section
/-! PROOF. Evictions and drains (06 R221, R222, 07 R250, R252), queued atomics (06 R224, R233, 07 R265), and O45. -/

namespace Sys2Proof.Machine

variable {s t u : State} {c line k die i : Nat}

/-! ### Column queues -/

/-- The state with another queue in a column. -/
def withCwq (s : State) (c : Nat) (q : List CwqEntry) : State := modCol s c (fun k => { k with cwq := q })

theorem colAt_withCwq (s : State) (c : Nat) (q : List CwqEntry) (b : Nat) :
    colAt (withCwq s c q) b = { colAt s b with cwq := if b = c then q else (colAt s b).cwq } := by
  rw [withCwq, modCol, colAt_setCol]
  split
  next h => rw [h]
  next => rfl

theorem perfByte_withCwq (s : State) (c : Nat) (q : List CwqEntry) (pa : Nat) : perfByte (withCwq s c q) pa = perfByte s pa := by
  have hcol := colAt_withCwq s c q
  refine perfByte_congr rfl rfl (fun b => ?_) (fun b => ?_) (fun b bo _ => ?_) (fun _ => rfl)
  · rw [sliceAt, hcol b]
    rfl
  · rw [hcol b]
    rfl
  · rw [arrayByte, isFresh, hcol b]
    rfl

/-! ### Evictions -/

/-- A write of a line of which no waiting entry can take it is appended. -/
theorem cwqMerge_appends {d : BitVec 1024} {m : BitVec 128} {p : Bool} {q : List CwqEntry}
    (h : ∀ e ∈ q, e.line = line → e.accepted.isSome = true) :
    cwqMerge line d m p q = q ++ [{ line := line, data := d, mask := m, accepted := none, poison := p }] := by
  induction q with
  | nil => rfl
  | cons e q ih =>
    have hno : ¬(e.line = line ∧ e.accepted = none) := fun ⟨hl, hn⟩ => by
      have := h e List.mem_cons_self hl
      rw [hn] at this
      cases this
    rw [cwqMerge, if_neg hno, ih (fun e he => h e (List.mem_cons_of_mem _ he)), List.cons_append]

/-- The state without a line that an L1 evicted, its dirty bytes in the column's queue. -/
def evicted (s : State) (i line : Nat) (l : L1Line) : State :=
  setL1 (if l.dirty = 0 then s else withCwq s (colOf i) (cwqMerge line l.data l.dirty l.poison (colAt s (colOf i)).cwq)) i line none

theorem setL1_setL1 (s : State) (i line : Nat) (x y : Option L1Line) (j m : Nat) :
    l1At (setL1 (setL1 s i line x) i line y) j m = l1At (setL1 s i line y) j m := by
  rw [l1At_setL1, l1At_setL1, l1At_setL1]
  split <;> rfl

/-- A line that an L1 writes back and drops, into a queue that has room for it. -/
theorem evictLine_facts {l : L1Line} (hl : l1At s i line = some l) (hroom : l.dirty = 0 ∨ (colAt s (colOf i)).cwq.length < 256) :
    ∃ t, evictLine s i line = some t ∧ t = { evicted s i line l with l1 := t.l1 } ∧
      ∀ j m, l1At t j m = if j = i ∧ m = line then none else l1At s j m := by
  by_cases hd : l.dirty = 0
  · refine ⟨setL1 s i line none, ?_, ?_, fun j m => l1At_setL1 ..⟩
    · rw [evictLine, wbLine, hl]
      simp only [hd, if_true]
    · rw [evicted, if_pos hd]
  · have hlen : ¬ 256 ≤ (colAt s (colOf i)).cwq.length := Nat.not_le.2 (hroom.resolve_left hd)
    refine ⟨setL1 (setL1 (withCwq s (colOf i) (cwqMerge line l.data l.dirty l.poison (colAt s (colOf i)).cwq)) i line (some { l with
      valid := l.valid ||| l.dirty, dirty := 0, poison := l.poison && !decide (l.dirty = BitVec.allOnes 128) })) i line none, ?_, ?_, fun j m => ?_⟩
    · rw [evictLine, wbLine, hl]
      simp only [hd, if_false, cwqPush, hlen]
      rfl
    · rw [evicted, if_neg hd]
      rfl
    · rw [setL1_setL1, l1At_setL1]
      rfl

theorem exec_l1Evict (hlive : live s = true) {l : L1Line} (hl : l1At s i line = some l) :
    exec (.l1EvictTimeout i line) s = orStay s (evictLine s i line) := by
  change execL1EvictTimeout i line s = _
  simp only [execL1EvictTimeout, hlive, hl, Option.isSome_some, Bool.and_self, if_true]

theorem l1Evict_facts (hlive : live s = true) {l : L1Line} (hl : l1At s i line = some l) (hroom : l.dirty = 0 ∨ (colAt s (colOf i)).cwq.length < 256) :
    ∃ t, exec (.l1EvictTimeout i line) s = .next t ∧ l1At t i line = none ∧ (∀ j m, (j ≠ i ∨ m ≠ line) → l1At t j m = l1At s j m) ∧
      (colAt t (colOf i)).cwq = (if l.dirty = 0 then (colAt s (colOf i)).cwq else cwqMerge line l.data l.dirty l.poison (colAt s (colOf i)).cwq) ∧
      ((∀ e ∈ (colAt s (colOf i)).cwq, e.line = line → e.accepted.isSome = true) → l.dirty ≠ 0 → (colAt t (colOf i)).cwq =
        (colAt s (colOf i)).cwq ++ [{ line := line, data := l.data, mask := l.dirty, accepted := none, poison := l.poison }]) ∧
      (∀ pa, perfByte t pa = perfByte s pa) ∧ t.clutches = s.clutches := by
  obtain ⟨t, hevict, ht, hl1⟩ := evictLine_facts hl hroom
  have hexec : exec (.l1EvictTimeout i line) s = .next t := by rw [exec_l1Evict hlive hl, hevict, orStay]
  have hcwq : (colAt t (colOf i)).cwq =
      if l.dirty = 0 then (colAt s (colOf i)).cwq else cwqMerge line l.data l.dirty l.poison (colAt s (colOf i)).cwq := by
    rw [ht]
    change (colAt (if l.dirty = 0 then s else withCwq s (colOf i) _) (colOf i)).cwq = _
    split
    · rfl
    · rw [colAt_withCwq]
      exact if_pos rfl
  refine ⟨t, hexec, (hl1 i line).trans (if_pos ⟨rfl, rfl⟩), fun j m hjm => (hl1 j m).trans (if_neg fun h => hjm.elim (absurd h.1) (absurd h.2)),
    hcwq, fun hacc hd => ?_, fun pa => ?_, ?_⟩
  · rw [hcwq, if_neg hd, cwqMerge_appends hacc]
  · rw [ht]
    change perfByte (if l.dirty = 0 then s else withCwq s (colOf i) _) pa = _
    split
    · rfl
    · exact perfByte_withCwq ..
  · rw [ht]
    change (if l.dirty = 0 then s else withCwq s (colOf i) _).clutches = _
    split <;> rfl

/-! ### Drains -/

/-- An entry that no write accepted before it precedes drains first. -/
theorem drainLine_first {e : CwqEntry} {rest : List CwqEntry} (htake : cwqTake line (colAt s c).cwq = some (e, rest))
    (hfirst : ∀ a ∈ acceptedOf s (dieOf c) line, ∃ k, e.accepted = some k ∧ k ≤ a.1) : drainLine s c line = drainHead s c line := by
  rw [drainLine, htake]
  dsimp only
  rw [List.filter_eq_nil_iff.2 fun a ha => ?_]
  · rfl
  · obtain ⟨k, hk, hle⟩ := hfirst a ha
    simpa [hk] using hle

/-- A drain of the oldest entry of a line, which no write that the die accepted before it precedes. -/
theorem cwqDrain_facts {col : Fin 64} {n : Nat} {e : CwqEntry} {rest : List CwqEntry} (hlive : live s = true)
    (hget : listGet (colAt s col.val).cwq n = some e) (htake : cwqTake e.line (colAt s col.val).cwq = some (e, rest))
    (hcached : cached s e.line = true) (hweight : isWeight s e.line = false)
    (hfirst : ∀ a ∈ acceptedOf s (dieOf col.val) e.line, ∃ k, e.accepted = some k ∧ k ≤ a.1)
    (hholders : holders s e.line none = []) (hclaimed : claimed s e.line (dieOf col.val) none = false) (hroom : noRoom s e.line = false) :
    ∃ t, exec (.cwqDrain col n) s = .next t ∧ (colAt t col.val).cwq = rest ∧
      (∀ k, k < 128 → perfByte t (128 * e.line + k) = if e.mask.getLsbD k then lineByte e.data k else perfByte s (128 * e.line + k)) ∧
      (tokAt t e.line).held = [(dieOf col.val, 4)] ∧ t.l1 = s.l1 ∧ t.clutches = s.clutches := by
  obtain ⟨u, hu, honly, hheld⟩ := gatherAll_taken hholders hclaimed hroom
  obtain ⟨hcols, hpkg, hclutches, hl1, -, -⟩ := honly.parts
  have hcachedU : cached (withCwq u col.val rest) e.line = true := (cached_congr hpkg e.line).trans hcached
  have hweightU : isWeight (withCwq u col.val rest) e.line = false := (isWeight_congr hpkg e.line).trans hweight
  have hperform := keeps_performLine hcachedU hweightU e.data e.mask e.poison
  have htouch := keeps_sliceTouch (performLine (withCwq u col.val rest) e.line e.data e.mask e.poison) col.isLt e.line
  have hkeeps := hperform.trans htouch
  refine ⟨sliceTouch (performLine (withCwq u col.val rest) e.line e.data e.mask e.poison) col.val e.line, ?_, ?_, fun k hk => ?_, ?_, ?_, ?_⟩
  · change execCwqDrain col n s = _
    simp only [execCwqDrain, hget, hlive, if_true, drainLine_first htake hfirst, drainHead, htake, hu]
    rfl
  · rw [hkeeps.cwq, colAt_withCwq]
    exact if_pos rfl
  · rw [perfByte_sliceTouch col.isLt (by omega), perfByte_performLine hcachedU hweightU _ _ _ hk, perfByte_withCwq, honly.keeps_byte]
  · rw [tokAt_congr hkeeps.only.toks hkeeps.only.pkg]
    exact hheld
  · exact hkeeps.only.l1.trans hl1
  · exact hkeeps.only.clutches.trans hclutches

end Sys2Proof.Machine
end

section
/-! PROOF. Queued atomics (06 R224, R233, 07 R265, log 88), and O45. -/

namespace Sys2Proof.Machine

variable {s t u : State} {c line k die i : Nat}

/-! ### What an operation that is performed leaves -/

/-- The core of an operation forgets its clean bytes, the operation leaves the queue, and the lane that waits for it is answered. -/
def answeredSync (s : State) (o : SyncOp) (old : Nat) : State :=
  let u := l1Forget { s with sync := s.sync.erase o } (clutchAt s o.cid).core (o.pa / 128)
  if o.ret then modPend u o.cid o.pend (fun p => { p with accs := p.accs.map (fun a =>
    if a.lane = o.lane then { a with src := .val (BitVec.ofNat 32 old) (BitVec.ofNat 32 (old / 2 ^ 32)) } else a) }) else u

theorem syncPerform_of {o : SyncOp} {old : Nat} (h : syncRmw s o = some (t, old)) : syncPerform s o = some (answeredSync t o old) := by
  rw [syncPerform, h]
  rfl

theorem l1Forget_eq (s : State) (i line : Nat) : l1Forget s i line = { s with l1 := (l1Forget s i line).l1 } := by
  unfold l1Forget
  split <;> rfl

/-- But for the answer, the L1 and the queue all stays. -/
theorem answeredSync_eq (s : State) (o : SyncOp) (old : Nat) : answeredSync s o old =
    { s with l1 := (answeredSync s o old).l1, clutches := (answeredSync s o old).clutches, sync := s.sync.erase o } := by
  unfold answeredSync
  dsimp only
  rw [l1Forget_eq]
  split <;> rfl

theorem answeredSync_clutches {o : SyncOp} (hret : o.ret = false) (s : State) (old : Nat) : (answeredSync s o old).clutches = s.clutches := by
  unfold answeredSync
  dsimp only
  rw [l1Forget_eq, hret]
  rfl

theorem answeredSync_inflight {o : SyncOp} (hret : o.ret = true) (s : State) (old : Nat) : (clutchAt (answeredSync s o old) o.cid).inflight =
    (clutchAt s o.cid).inflight.map (fun p => if p.id = o.pend then
      { p with accs := p.accs.map (fun a => if a.lane = o.lane then
        { a with src := .val (BitVec.ofNat 32 old) (BitVec.ofNat 32 (old / 2 ^ 32)) } else a) } else p) := by
  unfold answeredSync
  dsimp only
  rw [l1Forget_eq, hret, if_pos rfl, modPend, modClutch, clutchAt_setClutch_self]
  rfl

/-- What is known of a state after an operation: its place holds the new value, the rest of its line stays, and the die holds all tokens. -/
structure Performed (s t : State) (o : SyncOp) (die w : Nat) : Prop where
  value : perfNat t o.pa w = atomNew o.op o.t (perfNat s o.pa w) o.b.toNat o.cmp.toNat % 2 ^ (8 * w)
  rest : ∀ pa, pa / 128 = o.pa / 128 → (pa < o.pa ∨ o.pa + w ≤ pa) → perfByte t pa = perfByte s pa
  held : (tokAt t (o.pa / 128)).held = [(die, 4)]

theorem Performed.answered {o : SyncOp} {w : Nat} (h : Performed s t o die w) (old : Nat) : Performed s (answeredSync t o old) o die w := by
  obtain ⟨hvalue, hrest, hheld⟩ := h
  rw [answeredSync_eq]
  exact ⟨hvalue, hrest, hheld⟩

/-- Bytes of a new value make it. -/
theorem performed_of_bytes {o : SyncOp} {w new : Nat} (hnew : new = atomNew o.op o.t (perfNat s o.pa w) o.b.toNat o.cmp.toNat)
    (hin : o.pa % 128 + w ≤ 128)
    (hbytes : ∀ q, q / 128 = o.pa / 128 → perfByte t q = if o.pa ≤ q ∧ q < o.pa + w then (leBytes w new).getD (q - o.pa) 0 else perfByte s q)
    (hheld : (tokAt t (o.pa / 128)).held = [(die, 4)]) : Performed s t o die w := by
  refine ⟨?_, fun pa hpa hout => ?_, hheld⟩
  · rw [← hnew]
    refine perfNat_of_bytes fun i hi => ?_
    rw [hbytes (o.pa + i) (by omega), if_pos (by omega), Nat.add_sub_cancel_left]
  · rw [hbytes pa hpa, if_neg (by omega)]

/-! ### The two places of an operation -/

theorem stored_place {pa : Nat} (hcached : cached s (pa / 128) = true) (hweight : isWeight s (pa / 128) = false) (hpkg : t.pkg = s.pkg) :
    cached t (pa / 128) = true ∧ isWeight t (pa / 128) = false := stored_congr hpkg ⟨hcached, hweight⟩

/-- An operation at a sync engine that nothing keeps waiting. -/
theorem syncRmw_engine {o : SyncOp} {w : Nat} (hdie : o.die < 4) (hw : memSize o.t = some w) (ha : o.pa % w = 0)
    (hcached : cached s (o.pa / 128) = true) (hweight : isWeight s (o.pa / 128) = false) (hacc : acceptedOf s o.die (o.pa / 128) = [])
    (hopen : BankOpen s (o.pa / 128)) (htok : 1 ≤ tget 0 (tokAt s (o.pa / 128)).held o.die) (hholders : holders s (o.pa / 128) none = [])
    (hclaimed : claimed s (o.pa / 128) o.die none = false) (hroom : noRoom s (o.pa / 128) = false) :
    ∃ t, syncRmw s o = some (t, perfNat s o.pa w) ∧ Performed s t o o.die w ∧ t.sync = s.sync ∧ t.clutches = s.clutches := by
  obtain ⟨u, hu, hheld, hbytes, hsync, hclutches, hpkg⟩ := ownLine_ready hacc hopen htok hholders hclaimed hroom
  obtain ⟨hin, -⟩ := aligned_in_line hw ha
  have hold : perfNat u o.pa w = perfNat s o.pa w := perfNat_congr hbytes hin
  obtain ⟨hkeeps, hnew⟩ := performBytes_facts (bs := leBytes w (atomNew o.op o.t (perfNat s o.pa w) o.b.toNat o.cmp.toNat))
    (stored_place hcached hweight hpkg) (by rw [length_leBytes]; exact hin)
  refine ⟨_, ?_, performed_of_bytes rfl hin (fun q hq => ?_) ?_, hkeeps.only.sync.trans hsync, hkeeps.only.clutches.trans hclutches⟩
  · rw [syncRmw, if_neg (by omega), hu, hw]
    simp only [Option.getD_some, Option.map_some, hold]
  · rw [hnew q hq, length_leBytes, hbytes q hq]
  · rw [tokAt_congr hkeeps.only.toks hkeeps.only.pkg]
    exact hheld

/-! ### The unit of a column bank -/

/-- A line without uncorrectable errors reads well. -/
theorem bankReadLine_good (hbus : busFailed s c = false) (hue : lineUe s c line = false) (scrub : Bool) : (bankReadLine s c line scrub).2 = false := by
  unfold bankReadLine
  rw [hbus]
  dsimp only
  split
  · contradiction
  split
  · rfl
  next hfresh =>
    have hgood : ∀ i < 16, (tget [] s.bankErr (16 * line + i)).length < 2 := by
      intro i hi
      simp only [lineUe, hfresh, Bool.not_false, Bool.true_and, List.any_eq_false, List.mem_range, wordUe, decide_eq_true_eq] at hue
      exact Nat.not_le.1 (hue i hi)
    refine (List.foldlRecOn (motive := fun q : State × Bool => (∀ i < 16, (tget [] q.1.bankErr (16 * line + i)).length < 2) ∧ q.2 = false)
      _ _ ⟨hgood, rfl⟩ fun q hq i hi => ?_).2
    obtain ⟨hfew, hok⟩ := hq
    split
    next => exact ⟨hfew, hok⟩
    next b hb =>
      refine ⟨fun j hj => ?_, hok⟩
      change (tget [] (tput [] q.1.bankErr (16 * line + i) []) (16 * line + j)).length < 2
      rw [tget_tput]
      split
      · exact Nat.zero_lt_two
      · exact hfew j hj
    next l hnil hone =>
      have hlen := hfew i (List.mem_range.1 hi)
      rcases hl : tget [] q.1.bankErr (16 * line + i) with _ | ⟨b, _ | ⟨b', l'⟩⟩
      · exact absurd hl hnil
      · exact absurd hl (hone b)
      · rw [hl] at hlen
        simp at hlen

theorem perfByte_array {bo pa : Nat} (hpa : paKind s pa = .bank c bo) (hat : sliceAt s c (pa / 128) = none) (hlock : lineLocked s c (pa / 128) = false) :
    perfByte s pa = arrayByte s c bo pa := by
  have hnone : (unitWrites (colAt s c)).find? (fun w => decide (w.line = pa / 128) && w.mask.getLsbD (pa % 128)) = none := by
    rw [List.find?_eq_none]
    intro w hw
    have := (List.any_eq_false.1 hlock) w hw
    simp only [decide_eq_true_eq] at this
    simp [this]
  rw [perfByte_bank hpa, hat]
  simp only [bankByte, hnone]
  rfl

/-- Bytes put into the array of a column bank of which neither its slice nor its unit holds the line. -/
theorem perfByte_bankPut {bo : Nat} (hkind : paKind s (128 * line) = .bank c bo) (hbus : busFailed s c = false) (hat : sliceAt s c line = none)
    (hlock : lineLocked s c line = false) (d : BitVec 1024) (m : BitVec 128) (hk : k < 128) :
    perfByte (bankPut s c line d m) (128 * line + k) = if m.getLsbD k then lineByte d k else perfByte s (128 * line + k) := by
  have hline : (128 * line + k) / 128 = line := by omega
  have hoff : (128 * line + k) % 128 = k := by omega
  obtain ⟨hpa, hc, hbo, hmod⟩ := paKind_bank_line hkind hk
  have hput : ∃ e, bankPut s c line d m = memPutLine { unfresh s c (lineBo line) with bankErr := e } line d m := by
    unfold bankPut
    rw [hbus]
    exact ⟨_, rfl⟩
  obtain ⟨e, he⟩ := hput
  have hkeeps := keeps_bankPut s hc line d m
  have hcols : (bankPut s c line d m).cols = (unfresh s c (lineBo line)).cols := by
    rw [he]
    unfold memPutLine
    generalize List.range 128 = bytes
    rfl
  have hcol : ∀ b, colAt (bankPut s c line d m) b = colAt (unfresh s c (lineBo line)) b := fun b => by rw [colAt, colAt, hcols]
  have hfresh : isFresh (bankPut s c line d m) c (bo + k) = false := by
    have h : isFresh (bankPut s c line d m) c (bo + k) = isFresh (unfresh s c (lineBo line)) c (bo + k) := by rw [isFresh, hcol, isFresh]
    rw [h, isFresh_unfresh, decide_eq_true ⟨rfl, by omega⟩]
    simp
  have hsliceP : sliceAt (bankPut s c line d m) c line = none := by
    rw [sliceAt, hcol]
    exact ((keeps_unfresh (fun _ => True) s hc (lineBo_lt line)).slice c line trivial).trans hat
  have hbefore : arrayByte (unfresh s c (lineBo line)) c (bo + k) (128 * line + k) = perfByte s (128 * line + k) :=
    (arrayByte_unfresh hc (lineBo_lt line) hpa).trans (perfByte_array hpa (by rwa [hline]) (by rwa [hline])).symm
  have hfreshU : isFresh (unfresh s c (lineBo line)) c (bo + k) = false := by rw [isFresh, ← hcol, ← isFresh, hfresh]
  rw [perfByte_array ((paKind_congr hkeeps.only.pkg _).trans hpa) (by rwa [hline]) (by rwa [hline, hkeeps.lineLocked]), arrayByte, hfresh, ← hbefore,
    arrayByte, hfreshU, he, mem_memPutLine, hline, hoff]
  simp

/-- Bytes at a place of a line: data and mask. -/
theorem placeBytes_spec {off : Nat} {bs : List Byte} (hin : off + bs.length ≤ 128) (hk : k < 128) :
    ((placeBytes off bs).2.getLsbD k = decide (off ≤ k ∧ k < off + bs.length)) ∧
    (off ≤ k ∧ k < off + bs.length → lineByte (placeBytes off bs).1 k = bs.getD (k - off) 0) := by
  have hfold : ∀ (bs : List Byte) (n : Nat) (a : BitVec 1024 × BitVec 128), off + n + bs.length ≤ 128 →
      (((bs.zip (List.range' n bs.length)).foldl (fun a b => (lineSet a.1 (off + b.2) b.1, bit128 a.2 (off + b.2))) a).2.getLsbD k =
        (a.2.getLsbD k || decide (off + n ≤ k ∧ k < off + n + bs.length))) ∧
      lineByte ((bs.zip (List.range' n bs.length)).foldl (fun a b => (lineSet a.1 (off + b.2) b.1, bit128 a.2 (off + b.2))) a).1 k =
        if off + n ≤ k ∧ k < off + n + bs.length then bs.getD (k - (off + n)) 0 else lineByte a.1 k := by
    intro bs
    induction bs with
    | nil => intro n a _; simp
    | cons b bs ih =>
      intro n a hle
      rw [List.length_cons] at hle ⊢
      rw [List.range'_succ, List.zip_cons_cons, List.foldl_cons]
      obtain ⟨hmask, hdata⟩ := ih (n + 1) (lineSet a.1 (off + n) b, bit128 a.2 (off + n)) (by omega)
      rw [hmask, hdata, getLsbD_bit128 _ hk, lineByte_lineSet _ _ (by omega) hk]
      constructor
      · rw [Bool.or_assoc, ← Bool.decide_or]
        congr 2
        rw [eq_iff_iff]
        omega
      · by_cases hhere : k = off + n
        · rw [if_neg (by omega), if_pos hhere, if_pos (by omega), hhere, Nat.sub_self, List.getD_cons_zero]
        · by_cases hlater : off + (n + 1) ≤ k ∧ k < off + (n + 1) + bs.length
          · rw [if_pos hlater, if_pos (by omega), show k - (off + n) = (k - (off + (n + 1))) + 1 by omega, List.getD_cons_succ]
          · rw [if_neg hlater, if_neg hhere, if_neg (by omega)]
  obtain ⟨hmask, hdata⟩ := hfold bs 0 (0, 0) (by omega)
  rw [← List.range_eq_range'] at hmask hdata
  refine ⟨?_, fun h => ?_⟩
  · rw [placeBytes, hmask]
    simp
  · rw [placeBytes, hdata, if_pos (by omega)]
    rfl

/-- An operation of the unit of a column bank that nothing keeps waiting. -/
theorem syncRmw_unit {o : SyncOp} {w bo : Nat} (hdie : o.die = 4 + c) (hw : memSize o.t = some w) (ha : o.pa % w = 0)
    (hkind : paKind s o.pa = .bank c bo) (hidle : unitIdle s c (o.pa / 128) = true) (hbus : busFailed s c = false)
    (hat : sliceAt s c (o.pa / 128) = none) (hue : lineUe s c (o.pa / 128) = false) (hholders : holders s (o.pa / 128) none = [])
    (hclaimed : claimed s (o.pa / 128) (dieOf c) none = false) (hroom : noRoom s (o.pa / 128) = false) :
    ∃ t, syncRmw s o = some (t, perfNat s o.pa w) ∧ Performed s t o (dieOf c) w ∧ t.sync = s.sync := by
  have hlineKind : ∃ bo', paKind s (128 * (o.pa / 128)) = .bank c bo' := by
    rw [paKind_bank_iff] at hkind
    refine ⟨_, (paKind_bank_iff ..).2 ⟨?_, ?_, ?_, rfl⟩⟩ <;>
    · simp only [bankBase, gib] at *
      omega
  obtain ⟨bo', hlk⟩ := hlineKind
  have hc := bank_lt hlk
  obtain ⟨hin, -⟩ := aligned_in_line hw ha
  have hlocked : lineLocked s c (o.pa / 128) = false := by
    simp only [unitIdle, Bool.and_eq_true, Bool.not_eq_true'] at hidle
    exact hidle.2
  obtain ⟨u, hu, honly, hheld⟩ := gatherAll_taken hholders hclaimed hroom
  obtain ⟨hcols, hpkg, -, -, hsync, herr⟩ := honly.parts
  have hcol : ∀ b, colAt u b = colAt s b := fun b => by rw [colAt, colAt, hcols]
  have hatU : sliceAt u c (o.pa / 128) = none := by rw [sliceAt, hcol, ← sliceAt, hat]
  have hdrop : sliceDrop u (o.pa / 128) = u := by
    simp only [sliceDrop, (paKind_congr hpkg _).trans hlk, sliceOut, hatU]
  have hidleU : unitIdle u c (o.pa / 128) = true := by
    simp only [unitIdle, bankBusy, busFailed, repairing, lineLocked, hcol] at hidle ⊢
    exact hidle
  have hgood : (bankReadLine u c (o.pa / 128) false).2 = false := by
    refine bankReadLine_good ?_ ?_ false
    · simp only [busFailed, hcol] at hbus ⊢
      exact hbus
    · simp only [lineUe, isFresh, wordUe, hcol, herr] at hue ⊢
      exact hue
  have hread := keeps_bankReadLine (fun _ => True) u c (o.pa / 128) false
  have hbytes : ∀ q, perfByte (bankReadLine u c (o.pa / 128) false).1 q = perfByte s q := fun q => (hread.byte q trivial).trans (honly.keeps_byte q)
  have hold : perfNat (bankReadLine u c (o.pa / 128) false).1 o.pa w = perfNat s o.pa w := perfNat_congr (fun q _ => hbytes q) hin
  have hput := keeps_bankPut (bankReadLine u c (o.pa / 128) false).1 hc (o.pa / 128)
    (placeBytes (o.pa % 128) (leBytes w (atomNew o.op o.t (perfNat s o.pa w) o.b.toNat o.cmp.toNat))).1
    (placeBytes (o.pa % 128) (leBytes w (atomNew o.op o.t (perfNat s o.pa w) o.b.toNat o.cmp.toNat))).2
  refine ⟨_, ?_, performed_of_bytes rfl hin (fun q hq => ?_) ?_, (hput.only.sync.trans hread.only.sync).trans hsync⟩
  · rw [syncRmw, if_pos (by omega), hdie, Nat.add_sub_cancel_left, hw, unitRmw, hidle, hu]
    simp only [Option.getD_some, Bool.true_or, Bool.not_true, Bool.false_eq_true, if_false, hdrop, hgood, hidleU, hold]
  · have hk : q % 128 < 128 := Nat.mod_lt _ (by decide)
    have hlen := length_leBytes w (atomNew o.op o.t (perfNat s o.pa w) o.b.toNat o.cmp.toNat)
    obtain ⟨hmask, hdata⟩ := placeBytes_spec (off := o.pa % 128) (bs := leBytes w (atomNew o.op o.t (perfNat s o.pa w) o.b.toNat o.cmp.toNat))
      (by rw [hlen]; exact hin) hk
    have h := perfByte_bankPut (s := (bankReadLine u c (o.pa / 128) false).1) ((paKind_congr (hread.only.pkg.trans hpkg) _).trans hlk)
      (by rw [hread.busFailed]; simp only [busFailed, hcol] at hbus ⊢; exact hbus) ((hread.slice c _ trivial).trans hatU)
      (by rw [hread.lineLocked]; simp only [lineLocked, hcol] at hlocked ⊢; exact hlocked)
      (placeBytes (o.pa % 128) (leBytes w (atomNew o.op o.t (perfNat s o.pa w) o.b.toNat o.cmp.toNat))).1
      (placeBytes (o.pa % 128) (leBytes w (atomNew o.op o.t (perfNat s o.pa w) o.b.toNat o.cmp.toNat))).2 hk
    rw [show 128 * (o.pa / 128) + q % 128 = q by omega, hmask, hbytes, hlen] at h
    rw [h]
    by_cases hplace : o.pa ≤ q ∧ q < o.pa + w
    · rw [if_pos (by simp; omega), if_pos hplace, hdata (by rw [hlen]; omega)]
      congr 1
      omega
    · rw [if_neg (by simp; omega), if_neg hplace]
  · rw [tokAt_congr (hput.only.toks.trans hread.only.toks) (hput.only.pkg.trans hread.only.pkg)]
    exact hheld

/-! ### The step, and O45 -/

/-- The oldest operation at the sync engine of a die is performed first. -/
theorem exec_syncEngine {d : Fin 4} {o : SyncOp} {old : Nat} (hlive : live s = true) (hfind : s.sync.find? (fun q => decide (q.die = d.val)) = some o)
    (hrmw : syncRmw s o = some (t, old)) : exec (.syncEngineAtomic d) s = .next (answeredSync t o old) := by
  change execSyncEngineAtomic d s = _
  simp only [execSyncEngineAtomic, hlive, if_true, List.findSome?_cons, syncOldest, hfind, Option.bind_some, syncPerform_of hrmw, orStay]

/-- With none queued at the engine and no other unit of the die, a bank unit performs its own. -/
theorem exec_syncUnit {d : Fin 4} {o : SyncOp} {old : Nat} (hlive : live s = true) (hfind : s.sync.find? (fun q => decide (q.die = o.die)) = some o)
    (hdie : o.die = 4 + c) (hd : dieOf c = d.val)
    (honly : ∀ q ∈ s.sync, q.die = o.die ∨ (q.die ≠ d.val ∧ (q.die < 4 ∨ dieOf (q.die - 4) ≠ d.val)))
    (hrmw : syncRmw s o = some (t, old)) : exec (.syncEngineAtomic d) s = .next (answeredSync t o old) := by
  have hmem : o.die ∈ d.val :: (dieCols d.val).map (4 + ·) := by
    refine List.mem_cons_of_mem _ (List.mem_map.2 ⟨c, List.mem_map.2 ⟨c % 16, List.mem_range.2 (Nat.mod_lt _ (by decide)), ?_⟩, hdie.symm⟩)
    simp only [dieOf] at hd
    omega
  have hothers : ∀ e ∈ d.val :: (dieCols d.val).map (4 + ·), e ≠ o.die → syncOldest s e = none := by
    intro e he hne
    have hnone : s.sync.find? (fun q => decide (q.die = e)) = none := by
      rw [List.find?_eq_none]
      intro q hq hqe
      rw [decide_eq_true_eq] at hqe
      rcases honly q hq with h | ⟨hnd, hfar⟩
      · exact hne (hqe.symm.trans h)
      · rcases List.mem_cons.1 he with rfl | he
        · exact hnd hqe
        · simp only [dieCols, List.map_map, List.mem_map, List.mem_range, Function.comp_apply] at he
          obtain ⟨j, hj, rfl⟩ := he
          simp only [dieOf] at hfar
          omega
    rw [syncOldest, hnone]
    rfl
  have hown : syncOldest s o.die = some (answeredSync t o old) := by rw [syncOldest, hfind, Option.bind_some, syncPerform_of hrmw]
  have hfirst : (d.val :: (dieCols d.val).map (4 + ·)).findSome? (syncOldest s) = some (answeredSync t o old) := by
    revert hmem hothers
    generalize d.val :: (dieCols d.val).map (4 + ·) = es
    intro hmem hothers
    induction es with
    | nil => cases hmem
    | cons e es ih =>
      by_cases he : e = o.die
      · rw [List.findSome?_cons, he, hown]
      · rw [List.findSome?_cons, hothers e List.mem_cons_self he]
        exact ih ((List.mem_cons.1 hmem).resolve_left (Ne.symm he)) (fun e he => hothers e (List.mem_cons_of_mem _ he))
  change execSyncEngineAtomic d s = _
  rw [execSyncEngineAtomic, hlive, if_pos rfl, hfirst]
  rfl

/-- Settles O45, act by act. -/
theorem cacheStepsRun : Obligations.CacheStepsRun := by
  unfold Obligations.CacheStepsRun
  intro s i line n col die hlive old cwq others open_ taken
  refine ⟨fun hi hcached hweight hroom hacc htok hopen => cacheFill_facts hlive hi hcached hweight hroom hacc htok hopen,
    fun hi hcached hweight hin hroom => cacheFill_weight_facts hlive hi hcached hweight hin hroom, fun l hl hroom => l1Evict_facts hlive hl hroom,
    fun e rest hget htake hcached hweight hfirst ⟨hholders, hclaimed, hroom⟩ =>
      cwqDrain_facts hlive hget htake hcached hweight hfirst hholders hclaimed hroom, ?engine, ?unit⟩
  case engine =>
    intro o w hfind hw ha hcached hweight hacc hopen htok htaken v
    obtain ⟨hholders, hclaimed, hroom⟩ := htaken
    have hdie : o.die = die.val := by simpa using List.find?_some hfind
    obtain ⟨t, hrmw, hperformed, hsync, hclutches⟩ := syncRmw_engine (by omega) hw ha hcached hweight hacc hopen htok hholders hclaimed hroom
    obtain ⟨hvalue, hrest, hheld⟩ := hperformed.answered v
    refine ⟨_, exec_syncEngine hlive hfind hrmw, ?_, hvalue, hrest, hheld, fun hret => ?_, fun hret => ?_⟩
    · rw [answeredSync_eq, hsync]
    · rw [answeredSync_clutches hret, hclutches]
    · rw [answeredSync_inflight hret, clutchAt, hclutches]
      rfl
  case unit =>
    intro o w c bo hfind hdie hc hd honly hw ha hkind hidle hbus hat hue htaken
    obtain ⟨hholders, hclaimed, hroom⟩ := htaken
    obtain ⟨t, hrmw, hperformed, hsync⟩ := syncRmw_unit hdie hw ha hkind hidle hbus hat hue hholders (by rwa [hd]) hroom
    obtain ⟨hvalue, hrest, hheld⟩ := hperformed.answered (perfNat s o.pa w)
    refine ⟨_, exec_syncUnit hlive hfind hdie hd honly hrmw, ?_, hvalue, hrest, hd ▸ hheld⟩
    rw [answeredSync_eq, hsync]

end Sys2Proof.Machine
end

section
/-! PROOF. Stores into a full L1 (06 R221, R227, log 89), and the refutation of O14. -/

namespace Sys2Proof.Machine

variable {s t u : State} {i line : Nat}

/-! ### Stores, lane by lane and line by line -/

theorem storeLanes_append (c : Clutch) (rel : Bool) (a b : List (Nat × Place × List Byte)) (s : State) :
    storeLanes s c rel (a ++ b) = (storeLanes s c rel a).bind (fun t => storeLanes t c rel b) := by
  induction a generalizing s with
  | nil => rfl
  | cons x a ih =>
    obtain ⟨n, place, bs⟩ := x
    simp only [List.cons_append, storeLanes]
    split
    · rfl
    · exact ih _

theorem l1Allocs_append (keep a b : List Nat) (s : State) :
    l1Allocs i keep s (a ++ b) = (l1Allocs i keep s a).bind (fun t => l1Allocs i keep t b) := by
  induction a generalizing s with
  | nil => rfl
  | cons x a ih =>
    rw [List.cons_append, l1Allocs, l1Allocs]
    split
    · rfl
    · exact ih _

/-- A write into an L1 leaves what the other cores read. -/
theorem coreByte_setL1_other {j : Nat} (hj : j ≠ i) (s : State) (line : Nat) (x : Option L1Line) (pa : Nat) :
    coreByte (setL1 s i line x) j pa = coreByte s j pa := by
  rw [coreByte_eq, coreByte_eq, l1At_setL1, if_neg (fun h => hj h.1), columnLine_setL1]

theorem coreByte_l1Store_other {j : Nat} (hj : j ≠ i) (bs : List Byte) (s : State) (pa q : Nat) :
    coreByte (l1Store s i pa bs) j q = coreByte s j q := by
  induction bs generalizing s pa with
  | nil => rfl
  | cons b bs ih => exact (ih _ _).trans (coreByte_setL1_other hj ..)

theorem coreByte_storeChunks_other {j : Nat} (hj : j ≠ i) (ch : List (Nat × Nat)) (s : State) (bs : List Byte) (q : Nat) :
    coreByte (storeChunks s i ch bs) j q = coreByte s j q := by
  induction ch generalizing s bs with
  | nil => rfl
  | cons c ch ih =>
    obtain ⟨pa, n⟩ := c
    exact (ih _ _).trans (coreByte_l1Store_other hj ..)

theorem coreByte_setClutch (s : State) (cid : Nat) (c : Clutch) (j pa : Nat) : coreByte (setClutch s cid c) j pa = coreByte s j pa := by
  rw [coreByte_eq, coreByte_eq, columnLine, columnLine, perfLine_congr (t := setClutch s cid c) (s := s) fun _ _ => rfl]
  rfl

/-! ### Eviction shows a dirty byte to the cores of its column -/

theorem listGet_of_lt {α : Type} : ∀ {l : List α} {n : Nat}, n < l.length → ∃ x ∈ l, listGet l n = some x
  | x :: _, 0, _ => ⟨x, List.mem_cons_self, rfl⟩
  | _ :: l, n + 1, h => by
    obtain ⟨x, hx, hget⟩ := listGet_of_lt (l := l) (n := n) (by simpa using h)
    exact ⟨x, List.mem_cons_of_mem _ hx, hget⟩

/-- What a full L1 that keeps some lines becomes when one of its lines leaves it. -/
def leaves (s : State) (i : Nat) (keep : List Nat) (q : Nat × Option L1Line) : Option State :=
  if keep.contains q.1 then none else evictLine { s with fresh := s.fresh + 1 } i q.1

theorem leaves_of_not_kept {keep : List Nat} {q : Nat × Option L1Line} (h : keep.contains q.1 = false) :
    leaves s i keep q = evictLine { s with fresh := s.fresh + 1 } i q.1 := by
  rw [leaves, h]
  exact if_neg Bool.false_ne_true

/-- A full L1 some line of which can leave evicts one of its lines. -/
theorem l1Room_of_full {keep : List Nat} (habsent : l1At s i line = none) (hfull : l1Cap ≤ (tget [] s.l1 i).length)
    (hleave : ∃ p ∈ tget [] s.l1 i, keep.contains p.1 = false ∧ (evictLine { s with fresh := s.fresh + 1 } i p.1).isSome = true) :
    ∃ p ∈ tget [] s.l1 i, keep.contains p.1 = false ∧ ∃ t, evictLine { s with fresh := s.fresh + 1 } i p.1 = some t ∧ l1Room s i keep line = some t := by
  have hno : ((tget none (tget [] s.l1 i) line).isSome || decide ((tget [] s.l1 i).length < l1Cap)) = false := by
    rw [l1At] at habsent
    rw [habsent, decide_eq_false (Nat.not_lt.2 hfull)]
    rfl
  have hroom : l1Room s i keep line = listGet ((tget [] s.l1 i).filterMap (leaves s i keep))
      (Config.freeNat s.fresh % ((tget [] s.l1 i).filterMap (leaves s i keep)).length) := by
    rw [l1Room, hno]
    rfl
  have hlen : 0 < ((tget [] s.l1 i).filterMap (leaves s i keep)).length := by
    obtain ⟨p, hp, hkeep, hsome⟩ := hleave
    obtain ⟨t, ht⟩ := Option.isSome_iff_exists.1 hsome
    exact List.length_pos_iff.2 (List.ne_nil_of_mem (List.mem_filterMap.2 ⟨p, hp, (leaves_of_not_kept hkeep).trans ht⟩))
  obtain ⟨t, ht, hget⟩ := listGet_of_lt (Nat.mod_lt (Config.freeNat s.fresh) hlen)
  obtain ⟨p, hp, hpt⟩ := List.mem_filterMap.1 ht
  by_cases hkeep : keep.contains p.1 = true
  · rw [leaves, if_pos hkeep] at hpt
    cases hpt
  · rw [Bool.not_eq_true] at hkeep
    exact ⟨p, hp, hkeep, t, (leaves_of_not_kept hkeep).symm.trans hpt, hroom.trans hget⟩

/-- A line of an L1 whose byte `k` is dirty and not zero. -/
def showsAt (s : State) (i line k : Nat) : Bool :=
  match l1At s i line with
  | some l => l.dirty.getLsbD k && lineByte l.data k != 0
  | none => false

/-- Evicted into an empty queue, such a line changes what another core of the column reads. -/
theorem coreByte_evictLine {j k : Nat} (hshow : showsAt s i line k = true) (hk : k < 128) (hq : (colAt s (colOf i)).cwq = [])
    (hj : tget [] s.l1 j = []) (hji : j ≠ i) (hcol : colOf j = colOf i) :
    ∃ t, evictLine s i line = some t ∧ coreByte t j (128 * line + k) ≠ 0 := by
  unfold showsAt at hshow
  split at hshow
  next l hl =>
    simp only [Bool.and_eq_true, bne_iff_ne] at hshow
    obtain ⟨hdirty, hbyte⟩ := hshow
    obtain ⟨t, ht, heq, hl1⟩ := evictLine_facts hl (.inr (by rw [hq]; decide))
    have hd : l.dirty ≠ 0 := fun h => by simp [h] at hdirty
    have hcwq : (colAt t (colOf i)).cwq = [{ line := line, data := l.data, mask := l.dirty, accepted := none, poison := l.poison }] := by
      rw [heq]
      change (colAt (if l.dirty = 0 then s else withCwq s (colOf i) _) (colOf i)).cwq = _
      rw [if_neg hd, colAt_withCwq, hq]
      exact if_pos rfl
    have hnone : l1At t j line = none := by
      rw [hl1, if_neg (fun h => hji h.1), l1At, hj]
      rfl
    refine ⟨t, ht, ?_⟩
    rw [coreByte_eq, show (128 * line + k) / 128 = line by omega, show (128 * line + k) % 128 = k by omega, hnone, hcol, columnLine, hcwq]
    simp only [lineRead, decide_true, List.filter_cons_of_pos, List.filter_nil, List.foldl_cons, List.foldl_nil, lineByte_lineMerge _ _ _ hk, hdirty,
      if_true]
    exact hbyte
  next => cases hshow

/-- Without a line in its L1 or an entry in its column's queue, a core reads the performed bytes. -/
theorem coreByte_of_empty (hl1 : tget [] s.l1 i = []) (hq : (colAt s (colOf i)).cwq = []) (pa : Nat) : coreByte s i pa = perfByte s pa := by
  have hnone : l1At s i (pa / 128) = none := by
    rw [l1At, hl1]
    rfl
  rw [coreByte_eq, hnone, lineRead, columnLine, hq, List.filter_nil, List.foldl_nil, lineByte_perfLine _ _ (Nat.mod_lt _ (by decide))]
  congr 1
  omega

/-! ### A store that waits for nothing -/

/-- What an unordered store does whose clutch has nothing pending. -/
theorem storeAll_unordered {x : Ctx} {c : Clutch} {ps : List (Nat × Place × List Byte)} (hsync : s.sync = []) (hpend : (clutchAt s x.cid).inflight = [])
    (hlanes : storeLanes s c false ps = some t) : storeAll s x c none ps = .done t 0 := by
  have hfirst : ∀ places, syncFirst s x.cid places = some s := fun places => by
    rw [syncFirst, hsync]
    rfl
  have hbind : ∀ places, bindOverlaps s x.cid places = some s := fun places => by
    rw [bindOverlaps, hpend]
    rfl
  simp only [storeAll, hfirst, hbind, releaseOpt, Option.isSome_none, hlanes]

/-- An unordered store of a clutch with nothing pending: its lanes' bytes are stored in lane order. -/
theorem st_stores (s : State) (h : Hdr) (ty : Ty) (d : Reg) (m : MemOp) :
    WordDoneVia s (.st h ty .relaxed d m) (fun u x c a => u.sync = [] ∧ c.inflight = [] ∧ stPlaces ty .relaxed m u x c = .ok a.1 ∧
        storeLanes u c false (a.1.map (fun q => (q.1, q.2, leBytes ((memSize ty).getD 4) (rdN u c q.1 (tyWide ty) d)))) = some a.2)
      (fun (a : List (Nat × Place) × State) _ _ _ => a.2) (fun a _ x _ => clutchAt a.2 x.cid) := by
  refine wordDoneVia_self (fun _ => rfl) (fun x u c a hb hok => ?_)
  obtain ⟨hsync, hpend, hplaces, hlanes⟩ := hok
  unfold stPlaces at hplaces
  dsimp only
  rw [hb.clutch, hplaces]
  simp only [hb.region, Option.isSome_none, Bool.false_eq_true, if_false]
  exact storeAll_unordered hsync (by rwa [hb.clutch]) hlanes

/-! ### A store that finds more lines than its L1 has room for

The TLB of the machine maps virtual page 17 to a frame off the grid of lines, which no hypothesis of O14 excludes. Lane 31, whose store
crosses into that page, needs three lines, where room for 64 lines in all reckons with two for each lane. -/

/-- The address that a lane stores to: in lanes 0 to 30 across two lines, in lane 31 across two pages. -/
def crowdVa (n : Nat) : Nat := if n < 31 then 0x10007C + 256 * n else 0x10FFFC

/-- A line with one dirty byte, as the L1 of core 0 holds 1984 times. -/
def dirtyLine : L1Line := { L1Line.empty with data := 1, dirty := 1 }

/-- A machine whose core 0 is ready to store and whose L1 has room for 64 lines. -/
def crowded : State :=
  let s := placeWord State.reset 64 0xA000000941E00002
  { setClutch s 64 { clutchAt s 64 with lanes := (List.range 32).map (fun n => (n, { startLane n 0 with
      v := [(0, BitVec.ofNat 32 (crowdVa n)), (2, 0x01010101), (3, 0x01010101)] })) } with
    tlb := [{ tlb := 0, ctx := 0, va := 0x100000, size := 65536, frame := 0x4000000, perm := 0x3F },
            { tlb := 0, ctx := 0, va := 0x110000, size := 65536, frame := 0x500007E, perm := 0x3F }]
    l1 := [(0, List.replicate 1984 (0x100000, some dirtyLine))] }

/-- `st` of 64 bits, each lane at its own address. -/
def crowdMem : MemOp := { base := .v 0, idx := .zero, pol := none, off := 0 }
def crowdStore : Instr := .st { stop := false, pred := .always } .i64 .relaxed (.v 2) crowdMem

def crowdInfo : WordInfo := (infoOf crowdStore).get (by decide +kernel)
def crowdIssue : Issue := (issueOf (clutchAt crowded crowded.cur)).get (by decide +kernel)

theorem crowd_ready : Ready crowded crowdStore crowdInfo crowdIssue where
  wf := by decide +kernel
  info := (Option.some_get _).symm
  runs := by decide +kernel
  issue := (Option.some_get _).symm
  lanes := by decide +kernel
  free := by decide +kernel
  simt := by decide +kernel
  host := by decide +kernel
  pairs := by decide +kernel
  priv := by decide +kernel
  rows := by decide +kernel
  hazard := by decide +kernel
  links := by decide +kernel
  stack := by decide +kernel
  region := by decide +kernel

/-- The places of the lanes but the last, and the last lane's chunks. -/
def crowdFirst : List (Nat × Place) := (List.range 31).map (fun n => (n, .phys [(0x400007C + 256 * n, 8)]))
def crowdLast : List (Nat × Nat) := [(0x400FFFC, 4), (0x500007E, 4)]

theorem crowd_places : stPlaces .i64 .relaxed crowdMem (entry crowded crowdIssue) (wordCtx crowded crowdInfo crowdIssue) (atIssue crowdIssue) =
    .ok (crowdFirst ++ [(31, .phys crowdLast)]) := by
  have h : (match stPlaces .i64 .relaxed crowdMem (entry crowded crowdIssue) (wordCtx crowded crowdInfo crowdIssue) (atIssue crowdIssue) with
    | .ok ps => decide (ps = crowdFirst ++ [(31, .phys crowdLast)])
    | .stop _ => false) = true := by decide +kernel
  split at h
  next ps hps => rw [hps, of_decide_eq_true h]
  next => cases h

/-- What a lane stores: eight bytes 1. -/
def crowdBytes : List Byte := List.replicate 8 1

theorem crowd_data : (crowdFirst ++ [(31, Place.phys crowdLast)]).map (fun q : Nat × Place => (q.1, q.2, leBytes ((memSize .i64).getD 4)
      (rdN (entry crowded crowdIssue) (atIssue crowdIssue) q.1 (tyWide .i64) (.v 2)))) =
    crowdFirst.map (fun q => (q.1, q.2, crowdBytes)) ++ [(31, Place.phys crowdLast, crowdBytes)] := by decide +kernel

/-- The lines of the last lane: three, the first of them listed twice. -/
def crowdLines : List Nat := [0x801FF, 0x801FF, 0xA0000]
def crowdLine : Nat := 0xA0001

theorem crowdLast_lines : crowdLast.flatMap (fun c => [c.1 / 128, (c.1 + c.2 - 1) / 128]) = crowdLines ++ [crowdLine] := by decide

/-- The machine once the last lane has room for its lines but one. -/
def crowdFull : Option State :=
  (storeLanes (entry crowded crowdIssue) (atIssue crowdIssue) false (crowdFirst.map (fun q => (q.1, q.2, crowdBytes)))).bind
    (fun s => l1Allocs 0 (crowdLines ++ [crowdLine]) s crowdLines)

/-- The L1 of core 0 is full, and each line that may leave it has a byte that another core of the column reads as zero; the queue is empty. -/
def isCrowded (s : State) : Bool :=
  (l1At s 0 crowdLine).isNone && decide (l1Cap ≤ (tget [] s.l1 0).length) && (tget [] s.l1 0).any (fun p => !(crowdLines ++ [crowdLine]).contains p.1) &&
    (tget [] s.l1 0).all (fun p => (crowdLines ++ [crowdLine]).contains p.1 ||
      (List.range 128).any (fun k => showsAt s 0 p.1 k && perfByte crowded (128 * p.1 + k) == 0)) &&
    (colAt s 0).cwq.isEmpty && (tget [] s.l1 1).isEmpty

theorem crowdFull_crowded : (match crowdFull with | some s => isCrowded s | none => false) = true := by decide +kernel

theorem isCrowded_evicts (h : isCrowded s = true) : ∃ t pa, l1Room s 0 (crowdLines ++ [crowdLine]) crowdLine = some t ∧
    coreByte t 1 pa ≠ 0 ∧ perfByte crowded pa = 0 := by
  simp only [isCrowded, Bool.and_eq_true, Option.isNone_iff_eq_none, decide_eq_true_eq, List.any_eq_true, List.all_eq_true, Bool.or_eq_true,
    Bool.not_eq_true', List.isEmpty_iff, List.mem_range, beq_iff_eq] at h
  obtain ⟨⟨⟨⟨⟨habsent, hfull⟩, p, hp, hfree⟩, hall⟩, hq⟩, hother⟩ := h
  have hshown : ∀ p ∈ tget [] s.l1 0, (crowdLines ++ [crowdLine]).contains p.1 = false →
      ∃ k t, evictLine { s with fresh := s.fresh + 1 } 0 p.1 = some t ∧ coreByte t 1 (128 * p.1 + k) ≠ 0 ∧ perfByte crowded (128 * p.1 + k) = 0 := by
    intro p hp hkeep
    obtain ⟨k, hk, hshow, hzero⟩ := (hall p hp).resolve_left (by rw [hkeep]; decide)
    obtain ⟨t, ht, hbyte⟩ := coreByte_evictLine (s := { s with fresh := s.fresh + 1 }) (i := 0) (j := 1) hshow hk hq hother (by decide) rfl
    exact ⟨k, t, ht, hbyte, hzero⟩
  obtain ⟨p, hp, hkeep, t, ht, hroom⟩ := l1Room_of_full habsent hfull ⟨p, hp, hfree, by
    obtain ⟨k, t, ht, -⟩ := hshown p hp hfree
    rw [ht]
    rfl⟩
  obtain ⟨k, t', ht', hbyte, hzero⟩ := hshown p hp hkeep
  rw [ht, Option.some.injEq] at ht'
  exact ⟨t, _, hroom, ht' ▸ hbyte, hzero⟩

/-- The last lane's store evicts a line, and core 1 reads one of its bytes where it read zero. -/
theorem crowd_lanes : ∃ t pa, storeLanes (entry crowded crowdIssue) (atIssue crowdIssue) false
      (crowdFirst.map (fun q => (q.1, q.2, crowdBytes)) ++ [(31, Place.phys crowdLast, crowdBytes)]) = some t ∧
    coreByte t 1 pa ≠ 0 ∧ perfByte crowded pa = 0 := by
  obtain ⟨v, hv, hcrowded⟩ : ∃ v, crowdFull = some v ∧ isCrowded v = true := by
    have h := crowdFull_crowded
    split at h
    next v hv => exact ⟨v, hv, h⟩
    next => cases h
  obtain ⟨u, hu, hlines⟩ := Option.bind_eq_some_iff.1 hv
  obtain ⟨t, pa, hroom, hbyte, hzero⟩ := isCrowded_evicts hcrowded
  have hcore : (atIssue crowdIssue).core = 0 := by decide +kernel
  have hone : (1 : Nat) ≠ 0 := by decide
  have hfit : ∃ r, l1Fit u 0 crowdLast = some r ∧ coreByte r 1 pa = coreByte t 1 pa := by
    unfold l1Fit
    rw [crowdLast_lines]
    dsimp only
    rw [l1Allocs_append, hlines, Option.bind_some, l1Allocs, l1Alloc, hroom]
    refine ⟨_, rfl, ?_⟩
    dsimp only
    split
    · rfl
    · exact coreByte_setL1_other hone ..
  obtain ⟨r, hr, hsame⟩ := hfit
  refine ⟨storeChunks r 0 crowdLast crowdBytes, pa, ?_, ?_, hzero⟩
  · rw [storeLanes_append, hu, Option.bind_some]
    simp only [storeLanes, hcore, storeL1, hr, Option.map_some, Bool.false_eq_true, if_false]
  · rw [coreByte_storeChunks_other hone, hsame]
    exact hbyte

/-- Refutes O14: a TLB entry off the grid of lines gives a lane three lines, the L1 of 2048 lines is full before the last of them, and the
line that it evicts shows its dirty byte to the other cores of the column (`crowd_lanes`). -/
theorem not_unorderedStoreFrame : ¬ Obligations.UnorderedStoreFrame := by
  unfold Obligations.UnorderedStoreFrame
  intro h
  obtain ⟨t, pa, hlanes, hbyte, hzero⟩ := crowd_lanes
  have hsync : crowded.sync = [] := by decide +kernel
  have hpend : crowdIssue.c.inflight = [] := by decide +kernel
  have hlen : (tget [] crowded.l1 crowdIssue.c.core).length + 64 ≤ l1Cap := by decide +kernel
  have hphys : ∀ q ∈ crowdFirst ++ [(31, Place.phys crowdLast)], ∃ ch, q.2 = .phys ch := by
    intro q hq
    rcases List.mem_append.1 hq with hq | hq
    · obtain ⟨n, -, rfl⟩ := List.mem_map.1 hq
      exact ⟨_, rfl⟩
    · rw [List.mem_singleton.1 hq]
      exact ⟨_, rfl⟩
  obtain ⟨r, hexec, -, -, -, hothers, -⟩ := h crowded _ .i64 (.v 2) crowdMem crowdInfo crowdIssue _ crowd_ready hpend
    (by rw [hsync]; simp) hlen crowd_places hphys
  obtain ⟨r', hexec', hafter⟩ := st_stores crowded _ .i64 (.v 2) crowdMem crowdInfo crowdIssue (_, t) crowd_ready
    ⟨hsync, hpend, crowd_places, by rw [crowd_data]; exact hlanes⟩
  have hsame : r = r' := by
    rw [hexec] at hexec'
    cases hexec'
    rfl
  have hread : coreByte r 1 pa = coreByte t 1 pa := by
    rw [hsame, hafter.others]
    exact coreByte_setClutch ..
  have hcore : 1 ≠ crowdIssue.c.core := by decide +kernel
  have hl1 : tget [] crowded.l1 1 = [] := by decide +kernel
  have hcwq : (colAt crowded (colOf 1)).cwq = [] := by decide +kernel
  rw [hothers 1 pa hcore, coreByte_of_empty hl1 hcwq, hzero] at hread
  exact hbyte hread.symm

end Sys2Proof.Machine
end

section
/-! PROOF. Waiting on and reading an engine context, and the query of an extent (07 R270, R271, 12 R435 to R438): O29. -/

namespace Sys2Proof.Machine

variable {s u : State} {x : Ctx} {c : Clutch} {e : Nat}

/-! ### Writing an engine context leaves the clutches -/

theorem setEng_clutches (s : State) (r : EngRef) (e : Nat) (k : EngCtx) : (setEng s r e k).clutches = s.clutches := by
  cases r with
  | task t => exact modTask_clutches ..
  | host n => rfl

@[simp] theorem clutchAt_setEng (s : State) (r : EngRef) (e : Nat) (k : EngCtx) (n : Nat) : clutchAt (setEng s r e k) n = clutchAt s n :=
  clutchAt_of_clutches (setEng_clutches s r e k) n

/-! ### The checks of a context (12 R436, R438) -/

theorem ctxFault_none (hb : Begins x u c) (hpad : c.pad = none) (hctx : e < engCount u c) : ctxFault u x e = none := by
  simp [ctxFault, hb.clutch, hpad, hctx]

theorem ctxFault_landed (hb : Begins x u c) (hpad : c.pad.isSome = true) : ctxFault u x e = some (.trap cLeap 0 x.at_) := by
  simp [ctxFault, hb.clutch, hpad]

theorem ctxFault_noContext (hb : Begins x u c) (hpad : c.pad = none) (hctx : engCount u c ≤ e) :
    ctxFault u x e = some (.trap cBounds 0 x.at_) := by
  simp [ctxFault, hb.clutch, hpad, hctx]

/-! ### `tlwait` (07 R271, 12 R436) -/

/-- The count that a `tlwait` takes when it begins. -/
def tlCount (u : State) (x : Ctx) (c : Clutch) (e : Nat) : Reg → Nat
  | .zero => (engAt u (engRef c) e).issued
  | a => (rd64 u c (lowLane x.ex) a).toNat

/-- A `tlwait` on count n: it traps, waits or returns. -/
def tlTry (u : State) (x : Ctx) (e n : Nat) : Res :=
  if (engAt u (engRef (clutchAt u x.cid)) e).issued < n then .trap cBounds 0 x.at_
  else if (engAt u (engRef (clutchAt u x.cid)) e).done < n then .wait .tlwait (modClutch u x.cid (fun c => { c with waitArg := n }))
  else .done (tlReturn u x.cid e n) 0

/-- What a `tlwait` does: the check of its context, then its count, taken anew or the one that it waits for. -/
def tlwaitBody (e : Nat) (a : Reg) (x : Ctx) (u : State) : Res :=
  match ctxFault u x e with
  | some r => r
  | none => tlTry u x e (if inTlwait (clutchAt u x.cid) then (clutchAt u x.cid).waitArg else tlCount u x (clutchAt u x.cid) e a)

theorem exec_tlwait_eq (h : Hdr) (e : Fin 8) (a : Reg) (s : State) :
    exec (.tlwait h e a) s = word (.tlwait h e a) s (tlwaitBody e.val a) := by
  cases a <;> rfl

theorem tlwaitBody_begins (hb : Begins x u c) {a : Reg} (hpad : c.pad = none) (hctx : e < engCount u c) (hanew : inTlwait c = false) :
    tlwaitBody e a x u = tlTry u x e (tlCount u x c e a) := by
  simp only [tlwaitBody, ctxFault_none hb hpad hctx, hb.clutch, hanew, Bool.false_eq_true, if_false]

theorem tlTry_traps (hb : Begins x u c) {n : Nat} (hn : (engAt u (engRef c) e).issued < n) : tlTry u x e n = .trap cBounds 0 x.at_ := by
  simp only [tlTry, hb.clutch, if_pos hn]

theorem tlTry_waits (hb : Begins x u c) {n : Nat} (hissued : n ≤ (engAt u (engRef c) e).issued) (hdone : (engAt u (engRef c) e).done < n) :
    tlTry u x e n = .wait .tlwait (modClutch u x.cid (fun c => { c with waitArg := n })) := by
  simp only [tlTry, hb.clutch, if_neg (Nat.not_lt.2 hissued), if_pos hdone]

theorem tlTry_returns (hb : Begins x u c) {n : Nat} (hissued : n ≤ (engAt u (engRef c) e).issued)
    (hdone : n ≤ (engAt u (engRef c) e).done) : tlTry u x e n = .done (tlReturn u x.cid e n) 0 := by
  simp only [tlTry, hb.clutch, if_neg (Nat.not_lt.2 hissued), if_neg (Nat.not_lt.2 hdone)]

/-- The flags of the commands 1 to n of a context that no wait has merged yet. -/
def tlMerged (k : EngCtx) (n : Nat) : Fl := (k.cflags.filter (fun p => decide (p.1 ≤ n))).foldl (fun a p => a ||| p.2) 0

/-- The clutch after a wait for the commands 1 to n of a context: their flags, and `ENG_STAT`. -/
def tlClutch (c : Clutch) (k : EngCtx) (n : Nat) : Clutch :=
  let mine : Bool := k.code ≠ 0 ∧ k.cmd.toNat ≤ n
  let stat := (if mine then k.code.toNat + k.sub.toNat * 256 else 0) + (tlMerged k n).toNat * 2 ^ 16 + (if k.ovf then 2 ^ 22 else 0)
  { c with flags := c.flags ||| tlMerged k n, engStat := BitVec.ofNat 32 stat }

theorem tlReturn_eq (hb : Begins x u c) (n : Nat) :
    tlReturn u x.cid e n =
      acquireOp (setClutch (setEng u (engRef c) e
          { engAt u (engRef c) e with cflags := (engAt u (engRef c) e).cflags.filter (fun p => decide (n < p.1)) })
        x.cid (tlClutch c (engAt u (engRef c) e) n)) c.core (tlScope (engAt u (engRef c) e) n) := by
  simp only [tlReturn, modClutch, hb.clutch, clutchAt_setEng, clutchAt_setClutch_self]
  rfl

/-! ### O29 -/

/-- Settles O29: the words by their effects where their context is there (`ctxFault_none`), `tlwait` by `tlTry_returns`, `tlTry_traps` and
`tlTry_waits`. -/
theorem engineContextWords : Obligations.EngineContextWords := by
  unfold Obligations.EngineContextWords
  intro s h e a d f home eng n stop
  have hcount : ∀ u x c, n u x c = tlCount u x c e.val a := fun u x c => by cases a <;> rfl
  refine ⟨wordDone_of (exec_tlwait_eq h e a) ?returns, wordTraps_of (exec_tlwait_eq h e a) (fun _ _ _ => by decide) ?above, ?waits,
    regDone_of (fun _ => rfl) ?get, wordDone_of (fun _ => rfl) ?clear, wordTraps_of (fun _ => rfl) (fun _ _ _ => by decide) ?noContext,
    wordTraps_of (fun _ => rfl) (fun _ _ _ => by decide) ?landed, fun ps => regDone_of (fun _ => rfl) ?query⟩
  case returns =>
    intro x u c hb hok
    obtain ⟨⟨hpad, hctx, hanew⟩, hissued, hdone⟩ := hok
    refine ⟨_, ?_, ?_, fun k => rfl⟩
    · rw [tlwaitBody_begins hb hpad hctx hanew, ← hcount, tlTry_returns hb hissued hdone, tlReturn_eq hb]
      rfl
    · exact (clutchAt_acquireOp ..).trans (clutchAt_setClutch_self ..)
  case above =>
    intro x u c hb hok
    obtain ⟨⟨hpad, hctx, hanew⟩, habove⟩ := hok
    rw [tlwaitBody_begins hb hpad hctx hanew, ← hcount, tlTry_traps hb habove]
  case waits =>
    intro w p hr hhome hissued hdone
    obtain ⟨hpad, hctx, hanew⟩ := hhome
    refine hr.exec_waits (exec_tlwait_eq h e a) ?_
    rw [tlwaitBody_begins hr.begins hpad hctx hanew, ← hcount, tlTry_waits hr.begins hissued hdone]
    rfl
  case get =>
    intro x u c hb hok
    simp only [ctxFault_none hb hok.1 hok.2, hb.clutch, pendValue]
    cases f <;> rfl
  case clear =>
    intro x u c hb hok
    refine ⟨_, ?_, clutchAt_setClutch_self .., fun _ => setClutch_setClutch ..⟩
    simp only [ctxFault_none hb hok.1 hok.2, hb.clutch, pendValue, clutchAt_setEng, eng]
  case noContext =>
    intro x u c hb hok
    simp only [ctxFault_noContext hb hok.1 hok.2]
  case landed =>
    intro x u c hb hok
    simp only [ctxFault_landed hb hok]
  case query =>
    intro x u c hb hok
    simp only [hb.clutch, hok, wqryVal, List.isEmpty_iff]
    split
    · exact congrArg (Res.done · 0) hb.own.symm
    · rfl

end Sys2Proof.Machine
end

section
/-! PROOF. NaN, infinity and zero operands of `fadd`, `fsub`, `fmul`, `fma`, `fdiv`, `fsqrt`, `fmin`, `fmax` and `fcmp` (08 R288, R293, 11 R385,
R386, R388): what the operations on decoded values give, then those on codes, whose operands decode to such values; O11. -/

namespace Sys2Proof.Machine

variable {t : Ty} {rm : Rnd} {ftz maxi : Bool} {cc : Cmp} {a b c : Nat} {m n p : Bool} {f g : Nat} {e k : Int} {x y z : Fp}

/-! ### Kinds of values (08 R280, R288) -/

/-- The four vector types have a NaN, so that delivering one raises INVALID for an invalid operation alone. -/
theorem giveNan_of_tyF (ht : tyF t = true) (inv : Bool) : giveNan t inv = (canonNan t, if inv then fInvalid else 0) := by
  simp only [tyF, Bool.or_eq_true, beq_iff_eq] at ht
  have hnan : noNan t = false := by rcases ht with ((rfl | rfl) | rfl) | rfl <;> rfl
  rw [giveNan, hnan, Bool.or_false, flagIf]

theorem isNan_iff : isNan x = true ↔ ∃ s, x = .nan s := by cases x <;> simp [isNan]

theorem isSig_of_not_isNan (h : isNan x = false) : isSig x = false := by
  cases x with
  | nan s => cases h
  | inf n => rfl
  | fin n f e => rfl

@[simp] theorem isNan_fpNegV (x : Fp) : isNan (fpNegV x) = isNan x := by cases x <;> rfl

@[simp] theorem isSig_fpNegV (x : Fp) : isSig (fpNegV x) = isSig x := by cases x <;> rfl

theorem zeroInf_of_isNan (h : isNan x = true ∨ isNan y = true) : zeroInf x y = false := by
  rcases h with h | h
  · obtain ⟨s, rfl⟩ := isNan_iff.mp h
    rfl
  · obtain ⟨r, rfl⟩ := isNan_iff.mp h
    cases x <;> rfl

/-! ### Sums of decoded values (08 R293) -/

theorem fpAddV_of_isNan (h : isNan x = true ∨ isNan y = true) : fpAddV t rm ftz x y = giveNan t (isSig x || isSig y) := by
  rcases h with h | h
  · obtain ⟨s, rfl⟩ := isNan_iff.mp h
    cases y <;> simp [fpAddV, isSig]
  · obtain ⟨r, rfl⟩ := isNan_iff.mp h
    cases x <;> simp [fpAddV, isSig]

theorem fpAddV_inf_inf : fpAddV t rm ftz (.inf m) (.inf n) = if m = n then (infCode t m, 0) else giveNan t true := by
  simp only [fpAddV, beq_iff_eq]

theorem fpAddV_inf_fin : fpAddV t rm ftz (.inf m) (.fin n f e) = (infCode t m, 0) := rfl

theorem fpAddV_fin_inf : fpAddV t rm ftz (.fin n f e) (.inf m) = (infCode t m, 0) := rfl

/-- An infinity keeps its sign in a sum with any number but the infinity of the other sign. -/
theorem fpAddV_inf_left (hz : z = .inf p ∨ ∃ f e, z = .fin p f e) :
    fpAddV t rm ftz (.inf m) z = if z = .inf (!m) then giveNan t true else (infCode t m, 0) := by
  rcases hz with rfl | ⟨f, e, rfl⟩
  · rw [fpAddV_inf_inf]
    cases m <;> cases p <;> rfl
  · rw [fpAddV_inf_fin, if_neg (by simp)]

theorem fpAddV_zeros :
    fpAddV t rm ftz (.fin m 0 e) (.fin n 0 k) = (signBit t (if m = n then m else decide (rm = .rdn)), 0) := by
  simp [fpAddV, fpSumFin, zeroSign, beq_eq_decide]

/-- The exact sum of a number and its opposite is +0, but −0 for RDN. -/
theorem fpAddV_opposite (hf : f ≠ 0) : fpAddV t rm ftz (.fin m f e) (.fin (!m) f e) = (signBit t (decide (rm = .rdn)), 0) := by
  have hsum : intAt m f e e + intAt (!m) f e e = 0 := by cases m <;> simp [intAt]
  simp [fpAddV, fpSumFin, zeroSign, minInt, hf, hsum, beq_eq_decide]

/-! ### Products of decoded values (08 R293) -/

theorem fpMulV_of_zeroInf : ∀ {x y : Fp}, zeroInf x y = true → fpMulV x y = none
  | .inf _, .fin _ _ _, h => if_pos (of_decide_eq_true h)
  | .fin _ _ _, .inf _, h => if_pos (of_decide_eq_true h)

/-- But for 0 × ∞ there is a product, and it is a NaN, a signalling one, where a factor is. -/
theorem fpMulV_of_not_zeroInf : ∀ {x y : Fp}, zeroInf x y = false →
    ∃ v, fpMulV x y = some v ∧ isNan v = (isNan x || isNan y) ∧ isSig v = (isSig x || isSig y)
  | .nan _, .nan _, _ => ⟨_, rfl, rfl, rfl⟩
  | .nan s, .inf _, _ | .nan s, .fin _ _ _, _ => ⟨_, rfl, rfl, (Bool.or_false s).symm⟩
  | .inf _, .nan _, _ | .fin _ _ _, .nan _, _ => ⟨_, rfl, rfl, rfl⟩
  | .inf _, .inf _, _ | .fin _ _ _, .fin _ _ _, _ => ⟨_, rfl, rfl, rfl⟩
  | .inf _, .fin _ _ _, h | .fin _ _ _, .inf _, h => ⟨_, if_neg (of_decide_eq_false h), rfl, rfl⟩

theorem fpMulV_inf_left (hy : y = .inf n ∨ ∃ f e, f ≠ 0 ∧ y = .fin n f e) : fpMulV (.inf m) y = some (.inf (m != n)) := by
  rcases hy with rfl | ⟨f, e, hf, rfl⟩
  · rfl
  · exact if_neg hf

theorem fpMulV_fin_inf (hf : f ≠ 0) : fpMulV (.fin n f e) (.inf m) = some (.inf (m != n)) := by
  rw [fpMulV, if_neg hf, bne_comm]

theorem fpMulV_fin_fin : fpMulV (.fin m f e) (.fin n g k) = some (.fin (m != n) (f * g) (e + k)) := rfl

theorem fpRound_zero (sat : Bool) (s24 : Nat) : fpRound t rm ftz sat s24 n { m := 0, e := e, sticky := false } = (signBit t n, 0) :=
  if_pos ⟨rfl, rfl⟩

theorem fpGive_of_isNan (h : isNan x = true) : fpGive t rm ftz x = giveNan t (isSig x) := by
  obtain ⟨s, rfl⟩ := isNan_iff.mp h
  rfl

/-! ### Order of decoded values (11 R386, R388) -/

theorem fpLe_inf_fin (zeros : Bool) : fpLe zeros (.inf m) (.fin n f e) = m := rfl

theorem fpLe_fin_inf (zeros : Bool) : fpLe zeros (.fin n f e) (.inf m) = !m := rfl

theorem fpLe_zeros (zeros : Bool) : fpLe zeros (.fin m 0 e) (.fin n 0 k) = (!zeros || m || !n) := by
  cases zeros <;> simp [fpLe, intAt]

/-! ### Multiplication and fused multiply-add -/

theorem fpMul_of_product (h : fpMulV (fpRead ftz t a) (fpRead ftz t b) = some x) : fpMul t rm ftz a b = fpGive t rm ftz x := by
  rw [fpMul, h]

theorem fpMul_of_infinite_product (h : fpMulV (fpRead ftz t a) (fpRead ftz t b) = some (.inf m)) :
    fpMul t rm ftz a b = (infCode t m, 0) :=
  fpMul_of_product h

theorem fpMul_of_isNan (h : isNan (fpRead ftz t a) = true ∨ isNan (fpRead ftz t b) = true) :
    fpMul t rm ftz a b = giveNan t (isSig (fpRead ftz t a) || isSig (fpRead ftz t b)) := by
  obtain ⟨v, hv, hnan, hsig⟩ := fpMulV_of_not_zeroInf (zeroInf_of_isNan h)
  rw [fpMul_of_product hv, ← hsig, fpGive_of_isNan (by rw [hnan, Bool.or_eq_true]; exact h)]

theorem fpMul_of_zeroInf (h : zeroInf (fpRead ftz t a) (fpRead ftz t b) = true) : fpMul t rm ftz a b = giveNan t true := by
  rw [fpMul, fpMulV_of_zeroInf h]

theorem fpMul_zero (hx : fpRead ftz t a = .fin m f e) (hy : fpRead ftz t b = .fin n g k) (h : f = 0 ∨ g = 0) :
    fpMul t rm ftz a b = (signBit t (m != n), 0) := by
  rw [fpMul_of_product (by rw [hx, hy, fpMulV_fin_fin]), mul_eq_zero.mpr h]
  exact fpRound_zero ..

theorem fpFma_of_product (h : fpMulV (fpRead ftz t a) (fpRead ftz t b) = some x) :
    fpFma t rm ftz a b c = fpAddV t rm ftz x (fpRead ftz t c) := by
  rw [fpFma, h]

theorem fpFma_of_isNan (h : isNan (fpRead ftz t a) = true ∨ isNan (fpRead ftz t b) = true ∨
      (isNan (fpRead ftz t c) = true ∧ zeroInf (fpRead ftz t a) (fpRead ftz t b) = false)) :
    fpFma t rm ftz a b c = giveNan t (isSig (fpRead ftz t a) || isSig (fpRead ftz t b) || isSig (fpRead ftz t c)) := by
  have hprod : zeroInf (fpRead ftz t a) (fpRead ftz t b) = false := by
    rcases h with h | h | ⟨-, h⟩
    · exact zeroInf_of_isNan (.inl h)
    · exact zeroInf_of_isNan (.inr h)
    · exact h
  obtain ⟨v, hv, hnan, hsig⟩ := fpMulV_of_not_zeroInf hprod
  have hsum : isNan v = true ∨ isNan (fpRead ftz t c) = true := by
    rw [hnan, Bool.or_eq_true, or_assoc]
    exact h.imp_right (Or.imp_right And.left)
  rw [fpFma_of_product hv, fpAddV_of_isNan hsum, hsig]

theorem fpFma_of_zeroInf (h : zeroInf (fpRead ftz t a) (fpRead ftz t b) = true) : fpFma t rm ftz a b c = giveNan t true := by
  rw [fpFma, fpMulV_of_zeroInf h]

/-- An infinite product and a number that is added to it. -/
theorem fpFma_of_infinite_product (h : fpMulV (fpRead ftz t a) (fpRead ftz t b) = some (.inf (m != n)))
    (hz : fpRead ftz t c = .inf p ∨ ∃ f e, fpRead ftz t c = .fin p f e) :
    fpFma t rm ftz a b c = if fpRead ftz t c = .inf (m == n) then giveNan t true else (infCode t (m != n), 0) := by
  rw [fpFma_of_product h, fpAddV_inf_left hz, bne, Bool.not_not]

/-! ### Division and square root -/

theorem fpDiv_of_isNan (h : isNan (fpRead ftz t a) = true ∨ isNan (fpRead ftz t b) = true) :
    fpDiv t rm ftz a b = giveNan t (isSig (fpRead ftz t a) || isSig (fpRead ftz t b)) := by
  unfold fpDiv
  rcases h with h | h
  · obtain ⟨s, hs⟩ := isNan_iff.mp h
    rw [hs]
    cases fpRead ftz t b <;> simp [isSig]
  · obtain ⟨r, hr⟩ := isNan_iff.mp h
    rw [hr]
    cases fpRead ftz t a <;> simp [isSig]

theorem fpDiv_inf_inf (hx : fpRead ftz t a = .inf m) (hy : fpRead ftz t b = .inf n) : fpDiv t rm ftz a b = giveNan t true := by
  rw [fpDiv, hx, hy]

theorem fpDiv_inf_fin (hx : fpRead ftz t a = .inf m) (hy : fpRead ftz t b = .fin n f e) :
    fpDiv t rm ftz a b = (infCode t (m != n), 0) := by
  rw [fpDiv, hx, hy]

theorem fpDiv_fin_inf (hx : fpRead ftz t a = .fin n f e) (hy : fpRead ftz t b = .inf m) :
    fpDiv t rm ftz a b = (signBit t (m != n), 0) := by
  rw [fpDiv, hx, hy, bne_comm]

theorem fpDiv_by_zero (hx : fpRead ftz t a = .fin m f e) (hy : fpRead ftz t b = .fin n 0 k) :
    fpDiv t rm ftz a b = if f = 0 then giveNan t true else (infCode t (m != n), fDivzero) := by
  rw [fpDiv, hx, hy]
  rfl

theorem fpDiv_of_zero (hx : fpRead ftz t a = .fin m 0 e) (hy : fpRead ftz t b = .fin n g k) (hg : g ≠ 0) :
    fpDiv t rm ftz a b = (signBit t (m != n), 0) := by
  rw [fpDiv, hx, hy]
  simp only [hg, if_false, zero_mul, Nat.zero_div, Nat.zero_mod, ne_eq, not_true_eq_false, decide_false]
  exact fpRound_zero ..

theorem fpSqrt_of_isNan (h : isNan (fpRead ftz t a) = true) : fpSqrt t rm ftz a = giveNan t (isSig (fpRead ftz t a)) := by
  obtain ⟨s, hs⟩ := isNan_iff.mp h
  rw [fpSqrt, hs]
  rfl

theorem fpSqrt_inf (hx : fpRead ftz t a = .inf n) : fpSqrt t rm ftz a = if n then giveNan t true else (infCode t false, 0) := by
  rw [fpSqrt, hx]

theorem fpSqrt_zero (hx : fpRead ftz t a = .fin n 0 e) : fpSqrt t rm ftz a = (signBit t n, 0) := by
  rw [fpSqrt, hx]
  rfl

theorem fpSqrt_negative (hx : fpRead ftz t a = .fin true f e) (hf : f ≠ 0) : fpSqrt t rm ftz a = giveNan t true := by
  rw [fpSqrt, hx]
  exact if_neg hf

/-! ### Minimum, maximum and comparison -/

theorem ftzCode_zero (hx : fpRead ftz t a = .fin n 0 e) : ftzCode ftz t a = signBit t n := by
  rw [ftzCode, hx]
  rfl

theorem fpMinMax_of_isNan_both (hx : isNan (fpRead ftz t a) = true) (hy : isNan (fpRead ftz t b) = true) :
    fpMinMax t ftz maxi a b = (canonNan t, if isSig (fpRead ftz t a) || isSig (fpRead ftz t b) then fInvalid else 0) := by
  simp only [fpMinMax, hx, hy, Bool.and_self, if_true, flagIf]

theorem fpMinMax_of_isNan_left (hx : isNan (fpRead ftz t a) = true) (hy : isNan (fpRead ftz t b) = false) :
    fpMinMax t ftz maxi a b = (ftzCode ftz t b, if isSig (fpRead ftz t a) || isSig (fpRead ftz t b) then fInvalid else 0) := by
  simp [fpMinMax, hx, hy, flagIf]

theorem fpMinMax_of_isNan_right (hx : isNan (fpRead ftz t a) = false) (hy : isNan (fpRead ftz t b) = true) :
    fpMinMax t ftz maxi a b = (ftzCode ftz t a, if isSig (fpRead ftz t a) || isSig (fpRead ftz t b) then fInvalid else 0) := by
  simp [fpMinMax, hx, hy, flagIf]

theorem fpMinMax_of_numbers (hx : isNan (fpRead ftz t a) = false) (hy : isNan (fpRead ftz t b) = false) :
    fpMinMax t ftz maxi a b =
      (if fpLe true (fpRead ftz t a) (fpRead ftz t b) = maxi then ftzCode ftz t b else ftzCode ftz t a, 0) := by
  simp only [fpMinMax, hx, hy, isSig_of_not_isNan, flagIf]
  by_cases h : fpLe true (fpRead ftz t a) (fpRead ftz t b) = maxi <;> simp [h]

theorem fpMinMax_zeros (hx : fpRead ftz t a = .fin m 0 e) (hy : fpRead ftz t b = .fin n 0 k) :
    fpMinMax t ftz maxi a b = (signBit t (if maxi then m && n else m || n), 0) := by
  have hsign : ∀ maxi m n : Bool, (if (!true || m || !n) = maxi then n else m) = if maxi then m && n else m || n := by decide
  rw [fpMinMax_of_numbers (by rw [hx]; rfl) (by rw [hy]; rfl), ftzCode_zero hx, ftzCode_zero hy, hx, hy, fpLe_zeros,
    ← apply_ite (signBit t), hsign]

theorem fpCmp_of_isNan (h : isNan (fpRead ftz t a) = true ∨ isNan (fpRead ftz t b) = true) :
    fpCmp t ftz cc a b = (decide (cc = .ne),
      if (isSig (fpRead ftz t a) || isSig (fpRead ftz t b)) = true ∨ (cc ≠ .eq ∧ cc ≠ .ne) then fInvalid else 0) := by
  unfold fpCmp
  rw [if_pos (by rwa [Bool.or_eq_true])]
  cases cc <;> simp [flagIf]

/-- Two numbers compare as integers `i` and `j` that stand in the same order. -/
theorem fpCmp_of_order {i j : Int} (hx : isNan (fpRead ftz t a) = false) (hy : isNan (fpRead ftz t b) = false)
    (hle : fpLe false (fpRead ftz t a) (fpRead ftz t b) = decide (i ≤ j))
    (hge : fpLe false (fpRead ftz t b) (fpRead ftz t a) = decide (j ≤ i)) : fpCmp t ftz cc a b = (cmpInt cc i j, 0) := by
  have heq : (decide (i ≤ j) && decide (j ≤ i)) = decide (i = j) := by rw [← Bool.decide_and, decide_eq_decide, le_antisymm_iff]
  have hlt (i j : Int) : (decide (i ≤ j) && !decide (j ≤ i)) = decide (i < j) := by
    rw [← decide_not, ← Bool.decide_and, decide_eq_decide, lt_iff_le_not_ge]
  unfold fpCmp
  rw [if_neg (by rw [hx, hy]; decide)]
  cases cc <;> simp only [hle, hge, heq, hlt, cmpInt, decide_not, ne_eq]

/-- An infinity compares with a finite value as its sign does with 0. -/
theorem fpCmp_inf_fin (hx : fpRead ftz t a = .inf m) (hy : fpRead ftz t b = .fin n f e) :
    fpCmp t ftz cc a b = (cmpInt cc (if m then -1 else 1) 0, 0) :=
  fpCmp_of_order (by rw [hx]; rfl) (by rw [hy]; rfl) (by rw [hx, hy, fpLe_inf_fin]; cases m <;> rfl)
    (by rw [hx, hy, fpLe_fin_inf]; cases m <;> rfl)

theorem fpCmp_zeros (hx : fpRead ftz t a = .fin m 0 e) (hy : fpRead ftz t b = .fin n 0 k) :
    fpCmp t ftz cc a b = (cmpInt cc 0 0, 0) :=
  fpCmp_of_order (by rw [hx]; rfl) (by rw [hy]; rfl) (by rw [hx, hy, fpLe_zeros]; rfl) (by rw [hx, hy, fpLe_zeros]; rfl)

/-! ### O11 -/

/-- Settles O11: each clause by the lemma of its operation on those operands; a NaN is delivered into the four vector types by
`giveNan_of_tyF`. -/
theorem floatSpecialValues : Obligations.FloatSpecialValues := by
  unfold Obligations.FloatSpecialValues
  intro t rm ftz maxi cc a b c ht
  dsimp only
  have hgive := giveNan_of_tyF ht
  have hnan : giveNan t true = (canonNan t, fInvalid) := hgive true
  refine ⟨?nan, fun h => (fpFma_of_isNan h).trans (hgive _), fun h => (fpSqrt_of_isNan h).trans (hgive _), fpMinMax_of_isNan_both,
    fpMinMax_of_isNan_left, fpMinMax_of_isNan_right,
    fun h => ⟨(fpMul_of_zeroInf h).trans hnan, (fpFma_of_zeroInf h).trans hnan⟩, ?infInf, ?infFin, ?finInf, ?fmaInfLeft, ?fmaInfRight,
    ?fmaInfAdded, ?zeros, ?opposite, fun m f e n g k hx hy h => fpMul_zero hx hy h, ?fmaZeros,
    fun m e n g k hx hy hg => fpDiv_of_zero hx hy hg, ?divByZero, fun hx => (fpSqrt_inf hx).trans hnan, fun hx => fpSqrt_inf hx,
    fun m e hx => fpSqrt_zero hx, fun f e hx hf => (fpSqrt_negative hx hf).trans hnan⟩
  case nan =>
    intro h
    refine ⟨(fpAddV_of_isNan h).trans (hgive _), ?_, (fpMul_of_isNan h).trans (hgive _), (fpDiv_of_isNan h).trans (hgive _),
      fpCmp_of_isNan h⟩
    rw [fpSub, fpAddV_of_isNan (by rwa [isNan_fpNegV]), isSig_fpNegV, hgive]
  case infInf =>
    intro m n hx hy
    refine ⟨?_, ?_, ?_, (fpDiv_inf_inf hx hy).trans hnan⟩
    · rw [fpAdd, hx, hy, fpAddV_inf_inf, hnan]
    · rw [fpSub, hx, hy, fpNegV, fpAddV_inf_inf, hnan]
      cases m <;> cases n <;> rfl
    · exact fpMul_of_infinite_product (by rw [hx, fpMulV_inf_left (.inl hy)])
  case infFin =>
    intro m n f e hx hy
    refine ⟨?_, ?_, fpDiv_inf_fin hx hy, fun hf => ?_, ?_, ?_⟩
    · rw [fpAdd, hx, hy, fpAddV_inf_fin]
    · rw [fpSub, hx, hy, fpNegV, fpAddV_inf_fin]
    · exact fpMul_of_infinite_product (by rw [hx, fpMulV_inf_left (.inr ⟨f, e, hf, hy⟩)])
    · rw [fpMinMax_of_numbers (by rw [hx]; rfl) (by rw [hy]; rfl), hx, hy, fpLe_inf_fin]
    · rw [fpCmp_inf_fin hx hy]
      cases cc <;> cases m <;> rfl
  case finInf =>
    intro m n f e hx hy
    refine ⟨?_, ?_, fpDiv_fin_inf hx hy, fun hf => fpMul_of_infinite_product (by rw [hx, hy, fpMulV_fin_inf hf])⟩
    · rw [fpAdd, hx, hy, fpAddV_fin_inf]
    · rw [fpSub, hx, hy, fpNegV, fpAddV_fin_inf]
  case fmaInfLeft =>
    intro m n p hx hy hz
    rw [fpFma_of_infinite_product (by rw [hx, fpMulV_inf_left hy]) hz, hnan]
  case fmaInfRight =>
    rintro m n p ⟨f, e, hf, hx⟩ hy hz
    rw [fpFma_of_infinite_product (by rw [hx, hy, fpMulV_fin_inf hf]) hz, hnan]
  case fmaInfAdded =>
    intro m n p f e g k hx hy hz
    have hprod : fpMulV (fpRead ftz t a) (fpRead ftz t b) = some (.fin (m != n) (f * g) (e + k)) := by rw [hx, hy, fpMulV_fin_fin]
    rw [fpFma_of_product hprod, hz, fpAddV_fin_inf]
  case zeros =>
    intro m e n g hx hy
    refine ⟨?_, ?_, (fpDiv_by_zero hx hy).trans hnan, fpMinMax_zeros hx hy, ?_⟩
    · rw [fpAdd, hx, hy, fpAddV_zeros]
    · rw [fpSub, hx, hy, fpNegV, fpAddV_zeros]
      cases m <;> cases n <;> rfl
    · rw [fpCmp_zeros hx hy]
      cases cc <;> rfl
  case opposite =>
    intro m n f e hx hy hf hn
    rw [fpAdd, hx, hy, fpAddV_opposite hf, hn]
  case fmaZeros =>
    intro m f e n g k p j hx hy h hz
    have hprod : fpMulV (fpRead ftz t a) (fpRead ftz t b) = some (.fin (m != n) 0 (e + k)) := by
      rw [hx, hy, fpMulV_fin_fin, mul_eq_zero.mpr h]
    rw [fpFma_of_product hprod, hz, fpAddV_zeros]
    by_cases hp : (m != n) = p
    · rw [if_pos hp, if_pos hp, hp]
    · rw [if_neg hp, if_neg hp]
  case divByZero =>
    intro m f e n g hx hf hy
    rw [fpDiv_by_zero hx hy, if_neg hf]

end Sys2Proof.Machine
end

section
/-! PROOF. Codes of the word's fields (09 R311, R312, R318, R320). -/

namespace Sys2Proof

open Machine

/-! ### Codes -/

/-- A reader whose every answer has the code read is decided by the code alone. -/
theorem eq_some_iff_of_inverse {α β : Type} [DecidableEq β] {read : β → Option α} {code : α → β}
    (hread : ∀ a, read (code a) = some a)
    (hcode : ∀ c, ((read c).all fun a => decide (c = code a)) = true) {c : β} {a : α} : read c = some a ↔ c = code a := by
  constructor
  · intro h
    simpa [h] using hcode c
  · rintro rfl
    exact hread a

@[simp] theorem tyOfCode_tyCode (t : Ty) : tyOfCode (tyCode t) = some t := by cases t <;> rfl
@[simp] theorem scopeOfCode_scopeCode (s : Scope) : scopeOfCode (scopeCode s) = some s := by cases s <;> rfl
@[simp] theorem rndOfCode_rndCode (r : Rnd) : rndOfCode (rndCode r) = some r := by cases r <;> rfl
@[simp] theorem cmpOfCode_cmpCode (c : Cmp) : cmpOfCode (cmpCode c) = some c := by cases c <;> rfl
@[simp] theorem vecNOf_vecNCode (n : VecN) : vecNOf (vecNCode n) = some n := by cases n <;> rfl
@[simp] theorem atomOfCode_atomCode (o : AtomOp) : atomOfCode (atomCode o) = some o := by cases o <;> rfl
@[simp] theorem redOfCode_redCode (o : RedOp) : redOfCode (redCode o) = some o := by cases o <;> rfl
@[simp] theorem shflOfCode_shflCode (m : ShflMode) : shflOfCode (shflCode m) = m := by cases m <;> rfl
@[simp] theorem voteOfCode_voteCode (f : VoteFn) : voteOfCode (voteCode f) = some f := by cases f <;> rfl
@[simp] theorem kopOfCode_kopCode (o : KOp) : kopOfCode (kopCode o) = some o := by cases o <;> rfl
@[simp] theorem agetOfCode_agetCode (f : AField) : agetOfCode (agetCode f) = some f := by cases f <;> rfl
@[simp] theorem fenceOfCode_fenceCode (k : FenceKind) : fenceOfCode (fenceCode k) = some k := by cases k <;> rfl
@[simp] theorem tlOfCode_tlCode (f : TlField) : tlOfCode (tlCode f) = some f := by cases f <;> rfl

@[simp] theorem mordOfCode_mordCode : ∀ o : MOrd, mordOfCode (mordCode o) = some o
  | .relaxed => rfl
  | .acq s => by cases s <;> rfl
  | .rel s => by cases s <;> rfl
  | .ar s => by cases s <;> rfl

@[simp] theorem predOfCode_predCode : ∀ p : Pred, predOfCode (predCode p) = some p
  | .always => rfl
  | .bitSet k => by revert k; decide
  | .bitClear k => by revert k; decide

@[simp] theorem regOfCode_regCode (r : Reg) : regOfCode (regCode r) = some r := by
  cases r with
  | v n | s n | a n | k n => revert n; decide +kernel
  | zero | lane => decide

@[simp] theorem tyOfCode_eq_some {c : BitVec 5} {t : Ty} : tyOfCode c = some t ↔ c = tyCode t :=
  eq_some_iff_of_inverse tyOfCode_tyCode (by decide)

@[simp] theorem scopeOfCode_eq_some {c : BitVec 3} {s : Scope} : scopeOfCode c = some s ↔ c = scopeCode s :=
  eq_some_iff_of_inverse scopeOfCode_scopeCode (by decide)

@[simp] theorem rndOfCode_eq_some {c : BitVec 3} {r : Rnd} : rndOfCode c = some r ↔ c = rndCode r :=
  eq_some_iff_of_inverse rndOfCode_rndCode (by decide)

@[simp] theorem cmpOfCode_eq_some {c : BitVec 3} {cc : Cmp} : cmpOfCode c = some cc ↔ c = cmpCode cc :=
  eq_some_iff_of_inverse cmpOfCode_cmpCode (by decide)

@[simp] theorem vecNOf_eq_some {c : BitVec 5} {n : VecN} : vecNOf c = some n ↔ c = vecNCode n :=
  eq_some_iff_of_inverse vecNOf_vecNCode (by decide)

@[simp] theorem atomOfCode_eq_some {c : BitVec 4} {o : AtomOp} : atomOfCode c = some o ↔ c = atomCode o :=
  eq_some_iff_of_inverse atomOfCode_atomCode (by decide)

@[simp] theorem redOfCode_eq_some {c : BitVec 4} {o : RedOp} : redOfCode c = some o ↔ c = redCode o :=
  eq_some_iff_of_inverse redOfCode_redCode (by decide)

@[simp] theorem voteOfCode_eq_some {c : BitVec 5} {f : VoteFn} : voteOfCode c = some f ↔ c = voteCode f :=
  eq_some_iff_of_inverse voteOfCode_voteCode (by decide)

@[simp] theorem kopOfCode_eq_some {c : BitVec 5} {o : KOp} : kopOfCode c = some o ↔ c = kopCode o :=
  eq_some_iff_of_inverse kopOfCode_kopCode (by decide)

@[simp] theorem agetOfCode_eq_some {c : BitVec 5} {f : AField} : agetOfCode c = some f ↔ c = agetCode f :=
  eq_some_iff_of_inverse agetOfCode_agetCode (by decide)

@[simp] theorem fenceOfCode_eq_some {c : BitVec 5} {k : FenceKind} : fenceOfCode c = some k ↔ c = fenceCode k :=
  eq_some_iff_of_inverse fenceOfCode_fenceCode (by decide)

@[simp] theorem tlOfCode_eq_some {c : BitVec 5} {f : TlField} : tlOfCode c = some f ↔ c = tlCode f :=
  eq_some_iff_of_inverse tlOfCode_tlCode (by decide)

@[simp] theorem mordOfCode_eq_some {c : BitVec 5} {o : MOrd} : mordOfCode c = some o ↔ c = mordCode o :=
  eq_some_iff_of_inverse mordOfCode_mordCode (by decide)

@[simp] theorem predOfCode_eq_some {c : BitVec 5} {p : Pred} : predOfCode c = some p ↔ c = predCode p :=
  eq_some_iff_of_inverse predOfCode_predCode (by decide)

@[simp] theorem regOfCode_eq_some {c : BitVec 8} {r : Reg} : regOfCode c = some r ↔ c = regCode r :=
  eq_some_iff_of_inverse regOfCode_regCode (by decide +kernel)

@[simp] theorem mskOf_eq_some {c : BitVec 8} {k : Fin 12} : mskOf c = some k ↔ c = kCode k := by
  rw [kCode, ← regOfCode_eq_some]
  unfold mskOf
  split <;> simp_all

@[simp] theorem adrOf_eq_some {c : BitVec 8} {n : Fin 16} : adrOf c = some n ↔ c = regCode (.a n) := by
  rw [← regOfCode_eq_some]
  unfold adrOf
  split <;> simp_all

@[simp] theorem adrOf_regCode (n : Fin 16) : adrOf (regCode (.a n)) = some n := by simp

@[simp] theorem shflCode_shflOfCode (c : BitVec 2) : shflCode (shflOfCode c) = c := by revert c; decide

end Sys2Proof
end

section
/-! PROOF. Fields of a word (09 R310, R315, R317): -/

namespace Sys2Proof

open Machine

/-! ### Bit fields -/

/-- Two words agree on adjoining fields of the given lengths, the lowest of which starts at bit `lo`. -/
def AgreeOn {n : Nat} (x y : BitVec n) : Nat → List Nat → Prop
  | _, [] => True
  | lo, len :: lens => x.extractLsb' lo len = y.extractLsb' lo len ∧ AgreeOn x y (lo + len) lens

theorem AgreeOn.getLsbD_eq {n : Nat} {x y : BitVec n} :
    ∀ {lens : List Nat} {lo : Nat}, AgreeOn x y lo lens → ∀ i, lo ≤ i → i < lo + lens.sum →
    x.getLsbD i = y.getLsbD i
  | [], lo, _, i, hlo, hi => by simp at hi; omega
  | len :: lens, lo, ⟨hfield, hrest⟩, i, hlo, hi => by
    by_cases h : i < lo + len
    · have := congrArg (fun z => z.getLsbD (i - lo)) hfield
      simpa [BitVec.getLsbD_extractLsb', show i - lo < len by omega, show lo + (i - lo) = i by omega] using this
    · exact hrest.getLsbD_eq i (by omega) (by simp at hi; omega)

/-- Words that agree on fields which cover them are equal. -/
theorem eq_of_agreeOn {n : Nat} {x y : BitVec n} (lens : List Nat) (hsum : lens.sum = n) (h : AgreeOn x y 0 lens) : x = y :=
  BitVec.eq_of_getLsbD_eq fun i hi => h.getLsbD_eq i (Nat.zero_le i) (by omega)

theorem extractLsb'_one {n : Nat} (x : BitVec n) (i : Nat) : x.extractLsb' i 1 = BitVec.ofBool (x.getLsbD i) := by
  ext j hj
  obtain rfl : j = 0 := by omega
  simp

theorem getLsbD_append_high {m n i : Nat} (x : BitVec m) (y : BitVec n) (h : n ≤ i) : (x ++ y).getLsbD i = x.getLsbD (i - n) := by
  simp [BitVec.getLsbD_append, Nat.not_lt.2 h]

theorem getLsbD_append_low {m n i : Nat} (x : BitVec m) (y : BitVec n) (h : i < n) : (x ++ y).getLsbD i = y.getLsbD i := by
  simp [BitVec.getLsbD_append, h]

theorem fieldsOf_wordOf (f : Fields) : fieldsOf (wordOf f) = f := by
  obtain ⟨stop, op, pred, fn, d, a, b, c⟩ := f
  simp (disch := decide) only [fieldsOf, wordOf, BitVec.extractLsb'_append_eq_of_add_le,
    BitVec.extractLsb'_append_eq_of_le, getLsbD_append_high]
  simp

theorem wordOf_fieldsOf {w : BitVec 64} (h : w.getLsbD 62 = false) : wordOf (fieldsOf w) = w := by
  refine eq_of_agreeOn [20, 8, 8, 8, 5, 5, 8, 1, 1] rfl ?_
  simp (disch := decide) only [AgreeOn, fieldsOf, wordOf, BitVec.extractLsb'_append_eq_of_add_le,
    BitVec.extractLsb'_append_eq_of_le]
  simp [extractLsb'_one, h, -BitVec.getLsbD_eq_getElem]

end Sys2Proof
end

section
/-! PROOF. What each reader of an operand layout accepts (09 R315 to R317). -/

namespace Sys2Proof

open Machine

/-! ### Readers of the operand layouts -/

@[simp] theorem need_eq_some {p : Bool} {u : Unit} : need p = some u ↔ p = true := by
  cases p <;> simp [need]

theorem ofBool_eq_zero {b : Bool} : BitVec.ofBool b = 0 ↔ b = false := by cases b <;> decide

variable {f : Fields}

/-- An immediate fills field C (09 R315). -/
theorem imm19_eq {c : BitVec 20} (hI : c.getLsbD 19 = true) : c = 1#1 ++ c.extractLsb' 0 19 := by
  refine eq_of_agreeOn [19, 1] rfl ?_
  simp (disch := decide) only [AgreeOn, BitVec.extractLsb'_append_eq_of_add_le, BitVec.extractLsb'_append_eq_of_le]
  simp [extractLsb'_one, hI, -BitVec.getLsbD_eq_getElem]

@[simp] theorem imm19_bit (i : BitVec 19) : (1#1 ++ i : BitVec 20).getLsbD 19 = true := by
  rw [getLsbD_append_high _ _ (by decide)]; rfl

@[simp] theorem imm19_low (i : BitVec 19) : (1#1 ++ i : BitVec 20).extractLsb' 0 19 = i := BitVec.extractLsb'_append_eq_right

@[simp] theorem opndB_eq_some {b : Opnd} : opndB f = some b ↔ f.b = (encOpndB b).1 ∧ f.c = (encOpndB b).2 := by
  constructor
  · intro h
    unfold opndB at h
    split_ifs at h with hI hb hc
    · cases h
      exact ⟨hb, imm19_eq hI⟩
    · obtain ⟨r, hr, rfl⟩ := Option.map_eq_some_iff.1 h
      exact ⟨regOfCode_eq_some.1 hr, hc⟩
  · rintro ⟨hb, hc⟩
    unfold opndB
    rw [hb, hc]
    cases b <;> simp [encOpndB, -BitVec.getLsbD_eq_getElem]

theorem pad12_eq {c : BitVec 20} (hI : c.getLsbD 19 = false) (hc : c.extractLsb' 8 11 = 0) : c = 0#12 ++ c.extractLsb' 0 8 := by
  refine eq_of_agreeOn [8, 11, 1] rfl ?_
  simp (disch := decide) only [AgreeOn, BitVec.extractLsb'_append_eq_of_add_le, BitVec.extractLsb'_append_eq_of_le]
  simp [extractLsb'_one, hI, hc, -BitVec.getLsbD_eq_getElem]

@[simp] theorem opndC_eq_some {b : Opnd} : opndC f = some b ↔ f.c = encOpndC b := by
  constructor
  · intro h
    unfold opndC at h
    split_ifs at h with hI hc
    · cases h
      exact imm19_eq hI
    · obtain ⟨r, hr, rfl⟩ := Option.map_eq_some_iff.1 h
      rw [regOfCode_eq_some] at hr
      rw [encOpndC, ← hr]
      exact pad12_eq (by simpa using hI) hc
  · rintro hc
    unfold opndC
    rw [hc]
    cases b with
    | reg r =>
      simp (disch := decide) only [encOpndC, BitVec.extractLsb'_append_eq_of_add_le,
        BitVec.extractLsb'_append_eq_of_le, getLsbD_append_high]
      simp
    | imm i => simp [encOpndC, -BitVec.getLsbD_eq_getElem]

theorem rndField_eq {c : BitVec 20} (hI : c.getLsbD 19 = false) (hc : c.extractLsb' 0 16 = 0) :
    c = 0#1 ++ c.extractLsb' 16 3 ++ 0#16 := by
  refine eq_of_agreeOn [16, 3, 1] rfl ?_
  simp (disch := decide) only [AgreeOn, BitVec.extractLsb'_append_eq_of_add_le, BitVec.extractLsb'_append_eq_of_le]
  simp [extractLsb'_one, hI, hc, -BitVec.getLsbD_eq_getElem]

@[simp] theorem rndB_eq_some {rm : Rnd} {b : Opnd} :
    rndB f = some (rm, b) ↔ f.b = (encRndB rm b).1 ∧ f.c = (encRndB rm b).2 ∧ ∀ i, b = .imm i → rm = .mode := by
  constructor
  · intro h
    unfold rndB at h
    split_ifs at h with hI hb hc
    · cases h
      exact ⟨hb, imm19_eq hI, fun _ _ => rfl⟩
    · simp only [Option.bind_eq_bind, Option.bind_eq_some_iff, rndOfCode_eq_some, regOfCode_eq_some, Option.some.injEq,
      Prod.mk.injEq] at h
      obtain ⟨_, hrm, r, hr, rfl, rfl⟩ := h
      refine ⟨hr, ?_, by simp⟩
      rw [encRndB, ← hrm]
      exact rndField_eq (by simpa using hI) hc
  · rintro ⟨hb, hc, hrm⟩
    unfold rndB
    rw [hb, hc]
    cases b with
    | reg r =>
      simp (disch := decide) only [encRndB, BitVec.extractLsb'_append_eq_of_add_le,
        BitVec.extractLsb'_append_eq_of_le, getLsbD_append_high]
      simp
    | imm i => simp [encRndB, hrm i rfl, -BitVec.getLsbD_eq_getElem]

theorem rnd3_eq {c : BitVec 20} (hI : c.getLsbD 19 = false) (hc : c.extractLsb' 8 8 = 0) :
    c = 0#1 ++ c.extractLsb' 16 3 ++ 0#8 ++ c.extractLsb' 0 8 := by
  refine eq_of_agreeOn [8, 8, 3, 1] rfl ?_
  simp (disch := decide) only [AgreeOn, BitVec.extractLsb'_append_eq_of_add_le, BitVec.extractLsb'_append_eq_of_le]
  simp [extractLsb'_one, hI, hc, -BitVec.getLsbD_eq_getElem]

@[simp] theorem rndC_eq_some {rm : Rnd} {b : Opnd} :
    rndC f = some (rm, b) ↔ f.c = encRndC rm b ∧ ∀ i, b = .imm i → rm = .mode := by
  constructor
  · intro h
    unfold rndC at h
    split_ifs at h with hI hc
    · cases h
      exact ⟨imm19_eq hI, fun _ _ => rfl⟩
    · simp only [Option.bind_eq_bind, Option.bind_eq_some_iff, rndOfCode_eq_some, regOfCode_eq_some, Option.some.injEq,
      Prod.mk.injEq] at h
      obtain ⟨_, hrm, r, hr, rfl, rfl⟩ := h
      refine ⟨?_, by simp⟩
      rw [encRndC, ← hrm, ← hr]
      exact rnd3_eq (by simpa using hI) hc
  · rintro ⟨hc, hrm⟩
    unfold rndC
    rw [hc]
    cases b with
    | reg r =>
      simp (disch := decide) only [encRndC, BitVec.extractLsb'_append_eq_of_add_le,
        BitVec.extractLsb'_append_eq_of_le, getLsbD_append_high]
      simp
    | imm i => simp [encRndC, hrm i rfl, -BitVec.getLsbD_eq_getElem]

@[simp] theorem rndOnly_eq_some {rm : Rnd} : rndOnly f = some rm ↔ f.b = 0 ∧ f.c = encRndOnly rm := by
  unfold rndOnly
  constructor
  · intro h
    split_ifs at h with hz
    obtain ⟨hb, hI, hc⟩ := hz
    rw [rndOfCode_eq_some] at h
    rw [encRndOnly, ← h]
    rw [extractLsb'_one, ofBool_eq_zero] at hI
    exact ⟨hb, rndField_eq hI hc⟩
  · rintro ⟨hb, hc⟩
    rw [hb, hc]
    simp (disch := decide) only [encRndOnly, BitVec.extractLsb'_append_eq_of_add_le, BitVec.extractLsb'_append_eq_of_le]
    simp

theorem cmpImm_eq {c : BitVec 20} (hI : c.getLsbD 19 = true) : c = 1#1 ++ c.extractLsb' 16 3 ++ c.extractLsb' 0 16 := by
  refine eq_of_agreeOn [16, 3, 1] rfl ?_
  simp (disch := decide) only [AgreeOn, BitVec.extractLsb'_append_eq_of_add_le, BitVec.extractLsb'_append_eq_of_le]
  simp [extractLsb'_one, hI, -BitVec.getLsbD_eq_getElem]

@[simp] theorem cmpB_eq_some {cc : Cmp} {b : CmpOpnd} :
    cmpB f = some (cc, b) ↔ f.b = (encCmp cc b).1 ∧ f.c = (encCmp cc b).2 := by
  unfold cmpB
  simp only [Option.bind_eq_bind, Option.bind_eq_some_iff, cmpOfCode_eq_some]
  constructor
  · rintro ⟨cc', hcc, h⟩
    split_ifs at h with hI hb hc
    · cases h
      rw [encCmp, ← hcc]
      exact ⟨hb, cmpImm_eq hI⟩
    · simp only [Option.bind_eq_some_iff, regOfCode_eq_some, Option.some.injEq, Prod.mk.injEq] at h
      obtain ⟨r, hr, rfl, rfl⟩ := h
      rw [encCmp, ← hcc]
      exact ⟨hr, rndField_eq (by simpa using hI) hc⟩
  · rintro ⟨hb, hc⟩
    refine ⟨cc, ?_⟩
    rw [hb, hc]
    cases b <;>
      simp (disch := decide) only [encCmp, BitVec.extractLsb'_append_eq_of_add_le,
        BitVec.extractLsb'_append_eq_of_le, getLsbD_append_high] <;>
      simp

theorem encMem_eq (o : MOrd) (m : MemOp) :
    encMem o m = mordCode o ++ (BitVec.ofBool m.pol.isSome ++ BitVec.ofNat 6 (m.pol.elim 0 Fin.val)) ++ m.off := by
  obtain ⟨base, idx, pol, off⟩ := m
  cases pol with
  | none => exact congrArg (mordCode o ++ · ++ off) (show 0#7 = BitVec.ofBool false ++ BitVec.ofNat 6 0 by decide)
  | some p => rfl

@[simp] theorem polOf_eq_some {p : Option (Fin 64)} :
    polOf f = some p ↔ f.c.getLsbD 14 = p.isSome ∧ f.c.extractLsb' 8 6 = BitVec.ofNat 6 (p.elim 0 Fin.val) := by
  unfold polOf
  cases hPE : f.c.getLsbD 14 <;> cases p <;>
    simp [← BitVec.toNat_inj, Fin.ext_iff]

@[simp] theorem memOf_eq_some {o : MOrd} {m : MemOp} :
    memOf f = some (o, m) ↔ f.a = regCode m.base ∧ f.b = regCode m.idx ∧ f.c = encMem o m := by
  obtain ⟨base, idx, pol, off⟩ := m
  unfold memOf
  simp only [Option.bind_eq_bind, Option.bind_eq_some_iff, mordOfCode_eq_some, regOfCode_eq_some, polOf_eq_some,
    Option.some.injEq,
    Prod.mk.injEq, MemOp.mk.injEq, encMem_eq]
  constructor
  · rintro ⟨_, ho, _, ha, _, hb, _, ⟨hPE, hpol⟩, rfl, rfl, rfl, rfl, rfl⟩
    refine ⟨ha, hb, eq_of_agreeOn [8, 6, 1, 5] rfl ?_⟩
    simp (disch := decide) only [AgreeOn, BitVec.extractLsb'_append_eq_of_add_le, BitVec.extractLsb'_append_eq_of_le]
    simp [extractLsb'_one, ho, hPE, hpol, -BitVec.getLsbD_eq_getElem]
  · rintro ⟨ha, hb, hc⟩
    refine ⟨o, ?_, base, ha, idx, hb, pol, ⟨?_, ?_⟩, rfl, rfl, rfl, rfl, ?_⟩ <;>
      simp (disch := decide) only [hc, BitVec.extractLsb'_append_eq_of_add_le,
        BitVec.extractLsb'_append_eq_of_le, getLsbD_append_high, getLsbD_append_low] <;> simp

/-! ### A register or a 5-bit immediate (10 R347, R351, 11 R394) -/

/-- Bit I of the layout. -/
def immBit : Opnd5 → Bool
  | .reg _ => false
  | .imm _ => true

/-- The immediate, zero beside a register. -/
def immField : Opnd5 → BitVec 5
  | .reg _ => 0
  | .imm i => i

@[simp] theorem opnd5_eq_some {lo : Nat} {b : Opnd5} :
    opnd5 lo f = some b ↔ f.b = (encOpnd5 lo b).1 ∧ f.c.getLsbD 19 = immBit b ∧ f.c.extractLsb' lo 5 = immField b := by
  unfold opnd5
  cases hI : f.c.getLsbD 19 <;> cases b <;> simp [encOpnd5, immBit, immField, and_comm]

theorem encOpnd5_shfl (b : Opnd5) (m : BitVec 2) :
    (encOpnd5 8 b).2 ||| m.setWidth 20 = BitVec.ofBool (immBit b) ++ 0#6 ++ immField b ++ 0#6 ++ m := by
  cases b with
  | reg r =>
    change 0#20 ||| m.setWidth 20 = 0#1 ++ 0#6 ++ 0#5 ++ 0#6 ++ m
    revert m
    decide
  | imm i => revert i m; decide

theorem encOpnd5_pack (b : Opnd5) (sat : Bool) :
    (encOpnd5 0 b).2 ||| (0#1 ++ BitVec.ofBool sat ++ 0#18) = BitVec.ofBool (immBit b) ++ BitVec.ofBool sat ++ 0#13 ++ immField b := by
  cases b with
  | reg r =>
    change 0#20 ||| (0#1 ++ BitVec.ofBool sat ++ 0#18) = 0#1 ++ BitVec.ofBool sat ++ 0#13 ++ 0#5
    revert sat
    decide
  | imm i => revert i sat; decide

theorem encOpnd5_fpk (b : Opnd5) (rm : BitVec 3) (sat : Bool) :
    (encOpnd5 0 b).2 ||| (0#1 ++ rm ++ BitVec.ofBool sat ++ 0#15) =
      BitVec.ofBool (immBit b) ++ rm ++ BitVec.ofBool sat ++ 0#10 ++ immField b := by
  cases b with
  | reg r =>
    change 0#20 ||| (0#1 ++ rm ++ BitVec.ofBool sat ++ 0#15) = 0#1 ++ rm ++ BitVec.ofBool sat ++ 0#10 ++ 0#5
    revert rm sat
    decide
  | imm i => revert i rm sat; decide +kernel

end Sys2Proof
end

section
/-! PROOF. Each row of the opcode table reads only what the encoder writes (09 R312, R313, R328). -/

namespace Sys2Proof

open Machine

variable {h : Hdr} {op : BitVec 8} {fn : BitVec 5} {d a b : BitVec 8} {c c' : BitVec 20} {i : Instr} {f : Fields}

/-- What is read, if anything, satisfies `p`. -/
def Yields {α : Type} (p : α → Prop) (o : Option α) : Prop := ∀ x, o = some x → p x

/-- What a reader makes of the fields of a word is encoded with these fields. -/
abbrev Reads (f : Fields) (o : Option Instr) : Prop := Yields (encFields · = some f) o

section
variable {α β : Type} {p : α → Prop}

@[simp] theorem yields_some {x : α} : Yields p (some x) ↔ p x := by simp [Yields]

@[simp] theorem yields_none : Yields p none := by simp [Yields]

@[simp] theorem yields_bind {o : Option β} {k : β → Option α} : Yields p (o.bind k) ↔ ∀ x, o = some x → Yields p (k x) := by
  simp only [Yields, Option.bind_eq_some_iff]
  exact ⟨fun h x hx i hi => h i ⟨x, hx, hi⟩, fun h i ⟨x, hx, hi⟩ => h x hx i hi⟩

theorem yields_ite {q : Prop} [Decidable q] {x y : Option α} :
    Yields p (if q then x else y) ↔ (q → Yields p x) ∧ (¬ q → Yields p y) := by
  split <;> simp [*]

end

theorem finOf8_pad {c : BitVec 20} (hc : c.extractLsb' 3 17 = 0) : BitVec.ofNat 20 (finOf8 (c.extractLsb' 0 3)).val = c := by
  have hc := congrArg BitVec.toNat hc
  apply BitVec.eq_of_toNat_eq
  simp [finOf8, Nat.shiftRight_eq_div_pow] at hc ⊢
  omega

theorem finOf16_pad {c : BitVec 20} (hc : c.extractLsb' 4 16 = 0) : BitVec.ofNat 20 (finOf16 (c.extractLsb' 0 4)).val = c := by
  have hc := congrArg BitVec.toNat hc
  apply BitVec.eq_of_toNat_eq
  simp [finOf16, Nat.shiftRight_eq_div_pow] at hc ⊢
  omega

@[simp] theorem ofFin_finOf8 (c : BitVec 3) : BitVec.ofFin (finOf8 c) = c := rfl
@[simp] theorem ofFin_finOf16 (c : BitVec 4) : BitVec.ofFin (finOf16 c) = c := rfl

theorem eq_relaxed {o : MOrd} (h : isRelaxed o = true) : o = .relaxed := by 
  cases o with
  | relaxed => rfl
  | acq | rel | ar => cases h

theorem op_eq {hi lo : Nat} (hhi : (op.extractLsb' 4 4).toNat = hi) (hlo : (op.extractLsb' 0 4).toNat = lo) :
    op = BitVec.ofNat 8 (16 * hi + lo) := by
  apply BitVec.eq_of_toNat_eq
  have := op.isLt
  simp [Nat.shiftRight_eq_div_pow] at hhi hlo ⊢
  omega

/-- Field C is given by its parts. -/
theorem encFields_of_agreeOn (lens : List Nat) (hi : encFields i = some (enc h op fn d a b c')) (hsum : lens.sum = 20)
    (hc : AgreeOn c' c 0 lens) :
    
    encFields i = some (enc h op fn d a b c) := by
  rw [hi, eq_of_agreeOn lens hsum hc]

theorem reads_p2 {mk : Hdr → Ty → Reg → Reg → Opnd → Instr} (hmk : ∀ t d a b, encFields (mk h t d a b) = some (e2 h op t d a b)) :
    Reads (enc h op fn d a b c) (p2 mk h (enc h op fn d a b c)) := by
  simp [p2, enc]
  rintro t rfl d rfl a rfl b rfl rfl
  exact hmk ..

theorem reads_p1 {mk : Hdr → Ty → Reg → Reg → Instr} (hmk : ∀ t d a, encFields (mk h t d a) = some (e1 h op t d a)) :
    Reads (enc h op fn d a b c) (p1 mk h (enc h op fn d a b c)) := by
  simp [p1, enc]
  rintro t rfl d rfl a rfl rfl rfl
  exact hmk ..

theorem reads_p3 {mk : Hdr → Ty → Reg → Reg → Reg → Opnd → Instr}
    (hmk : ∀ t d a b c, encFields (mk h t d a b c) = some (e3 h op (tyCode t) d a b c)) :
    Reads (enc h op fn d a b c) (p3 mk h (enc h op fn d a b c)) := by
  simp [p3, enc]
  rintro t rfl d rfl a rfl b rfl c rfl
  exact hmk ..

theorem reads_p3n {mk : Hdr → Reg → Reg → Reg → Opnd → Instr}
    (hmk : ∀ d a b c, encFields (mk h d a b c) = some (e3 h op 7 d a b c)) :
    
    Reads (enc h op fn d a b c) (p3n mk h (enc h op fn d a b c)) := by
  simp [p3n, enc]
  rintro rfl d rfl a rfl b rfl c rfl
  exact hmk ..

theorem reads_pf2 {mk : Hdr → Ty → Rnd → Reg → Reg → Opnd → Instr}
    (hmk : ∀ t rm d a b, encFields (mk h t rm d a b) = some (ef2 h op t rm d a b)) :
    Reads (enc h op fn d a b c) (pf2 mk h (enc h op fn d a b c)) := by
  simp [pf2, enc]
  rintro t rfl d rfl a rfl rm b rfl rfl -
  exact hmk ..

theorem reads_pf1 {mk : Hdr → Ty → Rnd → Reg → Reg → Instr}
    (hmk : ∀ t rm d a, encFields (mk h t rm d a) = some (ef1 h op t rm d a)) :
    
    Reads (enc h op fn d a b c) (pf1 mk h (enc h op fn d a b c)) := by
  simp [pf1, enc]
  rintro t rfl d rfl a rfl rm rfl rfl
  exact hmk ..

theorem reads_pfs {mk : Hdr → Reg → Reg → Instr} (hmk : ∀ d a, encFields (mk h d a) = some (efs h op d a)) :
    Reads (enc h op fn d a b c) (pfs mk h (enc h op fn d a b c)) := by
  simp [pfs, enc]
  rintro rfl rfl rfl d rfl a rfl
  exact hmk ..

theorem reads_p0 {mk : Hdr → Instr} (hmk : encFields (mk h) = some (enc h op 0 0 0 0 0)) :
    Reads (enc h op fn d a b c) (p0 mk h (enc h op fn d a b c)) := by
  simp [p0, enc]
  rintro rfl rfl rfl rfl rfl
  exact hmk

theorem reads_pA {mk : Hdr → Reg → Instr} (hmk : ∀ a, encFields (mk h a) = some (enc h op 0 0 (regCode a) 0 0)) :
    Reads (enc h op fn d a b c) (pA mk h (enc h op fn d a b c)) := by
  simp [pA, enc]
  rintro rfl rfl rfl rfl a rfl
  exact hmk a

theorem reads_pD {mk : Hdr → Reg → Instr} (hmk : ∀ d, encFields (mk h d) = some (enc h op 0 (regCode d) 0 0 0)) :
    Reads (enc h op fn d a b c) (pD mk h (enc h op fn d a b c)) := by
  simp [pD, enc]
  rintro rfl rfl rfl rfl d rfl
  exact hmk d

theorem reads_pDA {mk : Hdr → Reg → Reg → Instr}
    (hmk : ∀ d a, encFields (mk h d a) = some (enc h op 0 (regCode d) (regCode a) 0 0)) :
    
    Reads (enc h op fn d a b c) (pDA mk h (enc h op fn d a b c)) := by
  simp [pDA, enc]
  rintro rfl rfl rfl d rfl a rfl
  exact hmk d a

theorem reads_pE {mk : Hdr → Fin 8 → Reg → Instr} (hmk : ∀ e a, encFields (mk h e a) = some (eE h op e a)) :
    Reads (enc h op fn d a b c) (pE mk h (enc h op fn d a b c)) := by
  simp [pE, enc]
  rintro rfl rfl rfl hc a rfl
  rw [hmk, eE, finOf8_pad hc]
  rfl

theorem reads_pK {mk : Hdr → Fin 12 → Instr} (hmk : ∀ k, encFields (mk h k) = some (enc h op 0 (kCode k) 0 0 0)) :
    Reads (enc h op fn d a b c) (pK mk h (enc h op fn d a b c)) := by
  simp [pK, enc]
  rintro rfl rfl rfl rfl k rfl
  exact hmk k

theorem reads_pMem {mk : Hdr → Ty → MOrd → Reg → MemOp → Instr}
    (hmk : ∀ t o d m, encFields (mk h t o d m) = some (eMem h op (tyCode t) (regCode d) o m)) :
    Reads (enc h op fn d a b c) (pMem mk h (enc h op fn d a b c)) := by
  simp [pMem, enc]
  rintro t rfl d rfl o m rfl rfl rfl
  exact hmk ..

theorem reads_pVec {mk : Hdr → VecN → Reg → MemOp → Instr}
    (hmk : ∀ n d m, encFields (mk h n d m) = some (eMem h op (vecNCode n) (regCode d) .relaxed m)) :
    Reads (enc h op fn d a b c) (pVec mk h (enc h op fn d a b c)) := by
  simp [pVec, enc]
  rintro n rfl d rfl o m rfl rfl rfl ho
  obtain rfl := eq_relaxed ho
  exact hmk ..

theorem reads_pCw {mk : Hdr → Option MemOp → Instr}
    (hsome : ∀ m, encFields (mk h (some m)) = some (eMem h op 0 0 .relaxed m))
    (hnone : encFields (mk h none) = some (enc h op 1 0 0 0 0)) :
    Reads (enc h op fn d a b c) (pCw mk h (enc h op fn d a b c)) := by
  simp [pCw, enc]
  rintro rfl
  split
  next hfn =>
    obtain rfl : fn = 0 := BitVec.eq_of_toNat_eq hfn
    simp
    rintro o m rfl rfl rfl ho
    obtain rfl := eq_relaxed ho
    exact hsome m
  next hfn =>
    obtain rfl : fn = 1 := BitVec.eq_of_toNat_eq hfn
    simp
    rintro rfl rfl rfl
    exact hnone
  next => simp

theorem reads_pQ {mk : Hdr → Ty → Reg → Fin 16 → Instr}
    (hmk : ∀ t d q, encFields (mk h t d q) = some (enc h op (tyCode t) (regCode d) 0 0 (BitVec.ofNat 20 q.val))) :
    Reads (enc h op fn d a b c) (pQ mk h (enc h op fn d a b c)) := by
  simp [pQ, enc]
  rintro t rfl d rfl rfl rfl hc
  rw [hmk, finOf16_pad hc]
  rfl

theorem reads_parse0 (hop : (op.extractLsb' 4 4).toNat = 0) : Reads (enc h op fn d a b c) (parse0 h (enc h op fn d a b c)) := by
  unfold parse0
  split
  case h_16 =>
    have hlt := (op.extractLsb' 0 4).isLt
    have hlo : (op.extractLsb' 0 4).toNat = 15 := by simp only [enc, imp_false] at *; omega
    obtain rfl := op_eq hop hlo
    exact reads_p2 fun _ _ _ _ => rfl
  all_goals obtain rfl := op_eq hop ‹_ = _›
  case h_3 | h_4 => exact reads_p3n fun _ _ _ _ => rfl
  case h_7 => exact reads_p3 fun _ _ _ _ _ => rfl
  case h_10 | h_11 => exact reads_p1 fun _ _ _ => rfl
  all_goals exact reads_p2 fun _ _ _ _ => rfl

theorem reads_parse1 (hop : (op.extractLsb' 4 4).toNat = 1) : Reads (enc h op fn d a b c) (parse1 h (enc h op fn d a b c)) := by
  unfold parse1
  split
  case h_16 => exact yields_none
  all_goals obtain rfl := op_eq hop ‹_ = _›
  case h_1 | h_7 | h_8 | h_9 | h_10 => exact reads_p1 fun _ _ _ => rfl
  case h_11 | h_12 | h_13 => exact reads_p3 fun _ _ _ _ _ => rfl
  case h_14 =>
    simp [enc]
    rintro t rfl d rfl a rfl cc b rfl rfl
    rfl
  case h_15 =>
    simp [enc]
    rintro t rfl st hst d rfl a rfl rfl hc
    refine encFields_of_agreeOn [5, 15] rfl rfl ?_
    simp (disch := decide) only [AgreeOn, BitVec.extractLsb'_append_eq_of_add_le, BitVec.extractLsb'_append_eq_of_le]
    simp [hc, hst]
  all_goals exact reads_p2 fun _ _ _ _ => rfl

theorem reads_parse2 (hop : (op.extractLsb' 4 4).toNat = 2) : Reads (enc h op fn d a b c) (parse2 h (enc h op fn d a b c)) := by
  unfold parse2
  split
  case h_15 => exact yields_none
  all_goals obtain rfl := op_eq hop ‹_ = _›
  case h_1 =>
    simp [enc]
    rintro hfn hc d rfl a rfl b rfl c' hc'
    refine encFields_of_agreeOn (c' := 0#12 ++ regCode c') [8, 12] ?_ rfl ?_
    · refine congrArg (fun fn => some (enc h _ fn _ _ _ _)) (eq_of_agreeOn [1, 1, 1, 2] rfl ?_)
      simp (disch := decide) only [AgreeOn, BitVec.extractLsb'_append_eq_of_add_le, BitVec.extractLsb'_append_eq_of_le]
      simp [hfn, extractLsb'_one]
    · simp (disch := decide) only [AgreeOn, BitVec.extractLsb'_append_eq_of_add_le, BitVec.extractLsb'_append_eq_of_le]
      simp [hc, hc']
  case h_2 =>
    simp [enc]
    rintro rfl d rfl a rfl b rfl rfl
    rfl
  case h_3 =>
    simp [enc]
    rintro fl rfl d rfl a rfl rfl rfl
    rfl
  case h_4 => exact reads_pDA fun _ _ => rfl
  case h_5 => exact reads_p1 fun _ _ _ => rfl
  case h_6 | h_7 =>
    simp [enc]
    rintro rfl rfl rfl d rfl
    rfl
  case h_8 =>
    simp [enc]
    rintro t rfl d rfl a rfl b rfl hI hi hz hz'
    refine encFields_of_agreeOn [2, 6, 5, 6, 1] (congrArg (fun c => some (enc h _ _ _ _ _ c)) (encOpnd5_shfl b _)) rfl ?_
    simp (disch := decide) only [AgreeOn, BitVec.extractLsb'_append_eq_of_add_le, BitVec.extractLsb'_append_eq_of_le]
    simp [extractLsb'_one, hI, hi, hz, hz']
  case h_9 | h_14 => exact reads_p2 fun _ _ _ _ => rfl
  case h_10 =>
    simp [enc]
    rintro v rfl d rfl a rfl rfl rfl
    rfl
  case h_11 =>
    simp [enc]
    rintro t rfl o ho d rfl a rfl rfl hc
    refine encFields_of_agreeOn [4, 16] rfl rfl ?_
    simp (disch := decide) only [AgreeOn, BitVec.extractLsb'_append_eq_of_add_le, BitVec.extractLsb'_append_eq_of_le]
    simp [hc, ho]
  case h_12 =>
    simp [enc]
    rintro t rfl o ho d rfl a rfl rfl hc
    refine encFields_of_agreeOn [4, 1, 15] rfl rfl ?_
    simp (disch := decide) only [AgreeOn, BitVec.extractLsb'_append_eq_of_add_le, BitVec.extractLsb'_append_eq_of_le]
    simp [hc, ho, extractLsb'_one]
  case h_13 =>
    simp [enc]
    rintro t rfl d rfl a rfl b rfl hI hi hz
    refine encFields_of_agreeOn [5, 13, 1, 1] (congrArg (fun c => some (enc h _ _ _ _ _ c)) (encOpnd5_pack b _)) rfl ?_
    simp (disch := decide) only [AgreeOn, BitVec.extractLsb'_append_eq_of_add_le, BitVec.extractLsb'_append_eq_of_le]
    simp [extractLsb'_one, hI, hi, hz]

theorem reads_parse3 (hop : (op.extractLsb' 4 4).toNat = 3) : Reads (enc h op fn d a b c) (parse3 h (enc h op fn d a b c)) := by
  unfold parse3
  split
  case h_14 => exact yields_none
  all_goals obtain rfl := op_eq hop ‹_ = _›
  case h_1 =>
    simp [enc]
    rintro rfl rfl rfl rfl
    rfl
  case h_2 => exact reads_pA fun _ => rfl
  case h_3 =>
    simp [enc]
    rintro rfl rfl rfl
    rfl
  case h_4 =>
    simp [enc]
    rintro rfl rfl rfl a rfl
    rfl
  case h_5 | h_6 | h_12 | h_13 => exact reads_p0 rfl
  case h_7 | h_8 | h_9 => exact reads_pK fun _ => rfl
  case h_10 =>
    simp [enc]
    rintro o rfl k rfl a rfl b rfl rfl
    rfl
  case h_11 =>
    simp [enc]
    rintro t rfl k rfl a rfl cc b rfl rfl
    rfl

theorem reads_parse4 (hop : (op.extractLsb' 4 4).toNat = 4) : Reads (enc h op fn d a b c) (parse4 h (enc h op fn d a b c)) := by
  unfold parse4
  split
  case h_13 => exact yields_none
  all_goals obtain rfl := op_eq hop ‹_ = _›
  case h_1 | h_2 | h_12 => exact reads_pMem fun _ _ _ _ => rfl
  case h_3 | h_4 => exact reads_pVec fun _ _ _ => rfl
  case h_5 =>
    simp [enc]
    rintro rfl hfn o m rfl rfl rfl ho
    obtain rfl := eq_relaxed ho
    refine congrArg (fun fn => some (enc h _ fn _ _ _ _)) (eq_of_agreeOn [1, 4] rfl ?_)
    simp (disch := decide) only [AgreeOn, BitVec.extractLsb'_append_eq_of_add_le, BitVec.extractLsb'_append_eq_of_le]
    simp [hfn, extractLsb'_one]
  case h_6 =>
    simp [enc]
    rintro k rfl sc hsc rfl rfl rfl hz hc
    refine encFields_of_agreeOn [15, 3, 2] rfl rfl ?_
    simp (disch := decide) only [AgreeOn, BitVec.extractLsb'_append_eq_of_add_le, BitVec.extractLsb'_append_eq_of_le]
    simp [hz, hc, hsc]
  case h_7 | h_8 => exact reads_pCw (fun _ => rfl) rfl
  case h_9 | h_10 => exact reads_pQ fun _ _ _ => rfl
  case h_11 =>
    simp [enc]
    rintro rfl hc
    split
    next hfn =>
      obtain rfl : fn = 1 := BitVec.eq_of_toNat_eq hfn
      simp
      rintro rfl a rfl
      rw [encFields, finOf16_pad hc]
      rfl
    next hfn =>
      obtain rfl : fn = 2 := BitVec.eq_of_toNat_eq hfn
      simp
      rintro rfl d rfl
      rw [encFields, finOf16_pad hc]
      rfl
    next => exact yields_none

theorem reads_parse5 (hop : (op.extractLsb' 4 4).toNat = 5) : Reads (enc h op fn d a b c) (parse5 h (enc h op fn d a b c)) := by
  unfold parse5
  split
  case h_8 => exact yields_none
  all_goals obtain rfl := op_eq hop ‹_ = _›
  case h_1 =>
    simp [enc]
    rintro t rfl o ho op hop d rfl a rfl b rfl hc
    refine encFields_of_agreeOn [4, 11, 5] rfl rfl ?_
    simp (disch := decide) only [AgreeOn, BitVec.extractLsb'_append_eq_of_add_le, BitVec.extractLsb'_append_eq_of_le]
    simp [ho, hop, hc]
  case h_2 =>
    simp [enc]
    rintro t rfl o ho op hop a rfl b rfl rfl hc
    refine encFields_of_agreeOn [4, 11, 5] rfl rfl ?_
    simp (disch := decide) only [AgreeOn, BitVec.extractLsb'_append_eq_of_add_le, BitVec.extractLsb'_append_eq_of_le]
    simp [ho, hop, hc]
  case h_3 =>
    simp [enc]
    rintro rfl rfl rfl d rfl
    rfl
  case h_4 | h_7 => exact reads_pD fun _ => rfl
  case h_5 =>
    simp [enc]
    rintro rfl rfl rfl rfl hc
    refine encFields_of_agreeOn [8, 12] rfl rfl ?_
    simp (disch := decide) only [AgreeOn, BitVec.extractLsb'_append_eq_of_add_le, BitVec.extractLsb'_append_eq_of_le]
    simp [hc]
  case h_6 => exact reads_pA fun _ => rfl

theorem reads_parse6 (hop : (op.extractLsb' 4 4).toNat = 6) : Reads (enc h op fn d a b c) (parse6 h (enc h op fn d a b c)) := by
  unfold parse6
  split
  case h_16 =>
    have hlt := (op.extractLsb' 0 4).isLt
    have hlo : (op.extractLsb' 0 4).toNat = 15 := by simp only [enc, imp_false] at *; omega
    obtain rfl := op_eq hop hlo
    exact reads_p1 fun _ _ _ => rfl
  all_goals obtain rfl := op_eq hop ‹_ = _›
  case h_4 =>
    simp [enc]
    rintro t rfl d rfl a rfl b rfl rm c rfl -
    rfl
  case h_6 => exact reads_pf1 fun _ _ _ _ => rfl
  case h_7 | h_8 | h_9 | h_10 | h_11 | h_12 => exact reads_pfs fun _ _ => rfl
  case h_13 | h_14 => exact reads_p2 fun _ _ _ _ => rfl
  case h_15 =>
    simp [enc]
    rintro t rfl d rfl a rfl cc b rfl rfl
    rfl
  all_goals exact reads_pf2 fun _ _ _ _ _ => rfl

theorem reads_parse7 (hop : (op.extractLsb' 4 4).toNat = 7) : Reads (enc h op fn d a b c) (parse7 h (enc h op fn d a b c)) := by
  unfold parse7
  split
  case h_8 => exact yields_none
  all_goals obtain rfl := op_eq hop ‹_ = _›
  case h_1 => exact reads_pf1 fun _ _ _ _ => rfl
  case h_2 => exact reads_pf2 fun _ _ _ _ _ => rfl
  case h_3 =>
    simp [enc]
    rintro t rfl st hst rm hrm d rfl a rfl rfl hc
    refine encFields_of_agreeOn [5, 3, 1, 3, 8] rfl rfl ?_
    simp (disch := decide) only [AgreeOn, BitVec.extractLsb'_append_eq_of_add_le, BitVec.extractLsb'_append_eq_of_le]
    simp [hst, hrm, hc, extractLsb'_one]
  case h_4 =>
    simp [enc]
    rintro t rfl st hst rm hrm d rfl a rfl rfl hc
    refine encFields_of_agreeOn [5, 3, 1, 11] rfl rfl ?_
    simp (disch := decide) only [AgreeOn, BitVec.extractLsb'_append_eq_of_add_le, BitVec.extractLsb'_append_eq_of_le]
    simp [hst, hrm, hc, extractLsb'_one]
  case h_5 | h_6 =>
    simp [enc]
    rintro rfl hz hI t ht rm hrm d rfl a rfl b rfl c' hc'
    refine encFields_of_agreeOn [8, 5, 3, 3, 1] rfl rfl ?_
    simp (disch := decide) only [AgreeOn, BitVec.extractLsb'_append_eq_of_add_le, BitVec.extractLsb'_append_eq_of_le]
    simp [ht, hrm, hz, hI, hc']
  case h_7 =>
    simp [enc]
    rintro t rfl rm hrm d rfl a rfl b rfl hI hi hz
    refine encFields_of_agreeOn [5, 10, 1, 3, 1] (congrArg (fun c => some (enc h _ _ _ _ _ c)) (encOpnd5_fpk b _ _)) rfl ?_
    simp (disch := decide) only [AgreeOn, BitVec.extractLsb'_append_eq_of_add_le, BitVec.extractLsb'_append_eq_of_le]
    simp [extractLsb'_one, hI, hi, hz, hrm]

theorem reads_parse8 (hop : (op.extractLsb' 4 4).toNat = 8) : Reads (enc h op fn d a b c) (parse8 h (enc h op fn d a b c)) := by
  simp only [parse8, Option.bind_eq_bind, yields_bind, need_eq_some, beq_iff_eq]
  intro _ hfn
  obtain rfl : fn = 0 := hfn
  split
  case h_9 => exact yields_none
  all_goals obtain rfl := op_eq hop ‹_ = _›
  case h_1 =>
    simp [enc]
    rintro rfl hc a rfl b rfl
    rw [encFields, finOf8_pad hc]
    rfl
  case h_2 =>
    simp [enc]
    rintro d rfl a rfl m rfl hc
    refine encFields_of_agreeOn [5, 1, 14] rfl rfl ?_
    simp (disch := decide) only [AgreeOn, BitVec.extractLsb'_append_eq_of_add_le, BitVec.extractLsb'_append_eq_of_le]
    simp [hc, extractLsb'_one]
  case h_3 =>
    simp [enc]
    rintro a rfl b rfl c' hc' rfl hc
    refine encFields_of_agreeOn [8, 12] rfl rfl ?_
    simp (disch := decide) only [AgreeOn, BitVec.extractLsb'_append_eq_of_add_le, BitVec.extractLsb'_append_eq_of_le]
    simp [hc, hc']
  case h_4 =>
    simp [enc]
    rintro d rfl a rfl c' hc' rfl hc
    refine encFields_of_agreeOn [8, 12] rfl rfl ?_
    simp (disch := decide) only [AgreeOn, BitVec.extractLsb'_append_eq_of_add_le, BitVec.extractLsb'_append_eq_of_le]
    simp [hc, hc']
  case h_5 =>
    simp [enc]
    rintro st hst d rfl a rfl rfl hc
    refine encFields_of_agreeOn [5, 5, 1, 9] rfl rfl ?_
    simp (disch := decide) only [AgreeOn, BitVec.extractLsb'_append_eq_of_add_le, BitVec.extractLsb'_append_eq_of_le]
    simp [hc, hst, extractLsb'_one]
  case h_6 =>
    simp [enc]
    rintro a rfl rfl rfl hc
    rw [encFields, finOf8_pad hc]
    rfl
  case h_7 =>
    simp [enc]
    rintro d rfl rfl rfl hc
    refine encFields_of_agreeOn [3, 3, 14] rfl rfl ?_
    simp (disch := decide) only [AgreeOn, BitVec.extractLsb'_append_eq_of_add_le, BitVec.extractLsb'_append_eq_of_le]
    simp [hc]
  case h_8 =>
    simp [enc]
    rintro rfl rfl rfl hc
    refine encFields_of_agreeOn [3, 3, 14] rfl rfl ?_
    simp (disch := decide) only [AgreeOn, BitVec.extractLsb'_append_eq_of_add_le, BitVec.extractLsb'_append_eq_of_le]
    simp [hc]

theorem reads_parse9 (hop : (op.extractLsb' 4 4).toNat = 9) : Reads (enc h op fn d a b c) (parse9 h (enc h op fn d a b c)) := by
  unfold parse9
  split
  case h_16 => exact yields_none
  all_goals obtain rfl := op_eq hop ‹_ = _›
  case h_1 | h_2 | h_3 | h_4 | h_5 | h_6 | h_8 => exact reads_pE fun _ _ => rfl
  case h_7 | h_15 => exact reads_pDA fun _ _ => rfl
  case h_9 =>
    simp [enc]
    rintro d rfl rfl rfl hc
    refine yields_ite.2 ⟨?_, ?_⟩
    · rintro rfl
      rw [yields_some, encFields, finOf8_pad hc]
      rfl
    · simp
      rintro - fl rfl
      rw [encFields, finOf8_pad hc]
      rfl
  case h_10 | h_13 => exact reads_pA fun _ => rfl
  case h_11 | h_12 => exact reads_pD fun _ => rfl
  case h_14 =>
    simp [enc]
    rintro sc hsc a rfl b rfl rfl rfl hz hc
    refine encFields_of_agreeOn [15, 3, 2] rfl rfl ?_
    simp (disch := decide) only [AgreeOn, BitVec.extractLsb'_append_eq_of_add_le, BitVec.extractLsb'_append_eq_of_le]
    simp [hz, hc, hsc]

theorem reads_parseA (hop : (op.extractLsb' 4 4).toNat = 10) : Reads (enc h op fn d a b c) (parseA h (enc h op fn d a b c)) := by
  unfold parseA
  split
  case h_11 => exact yields_none
  all_goals obtain rfl := op_eq hop ‹_ = _›
  case h_1 =>
    simp [enc]
    rintro rfl rfl rfl rfl hc
    refine encFields_of_agreeOn [4, 6, 10] rfl rfl ?_
    simp (disch := decide) only [AgreeOn, BitVec.extractLsb'_append_eq_of_add_le, BitVec.extractLsb'_append_eq_of_le]
    simp [hc]
  case h_2 =>
    simp [enc]
    rintro rfl rfl rfl rfl hc
    rw [encFields, finOf16_pad hc]
    rfl
  case h_3 | h_4 | h_6 => exact reads_pA fun _ => rfl
  case h_5 =>
    simp [enc]
    rintro t rfl cc hcc sc hsc a rfl b rfl rfl hI hz
    refine encFields_of_agreeOn [13, 3, 3, 1] rfl rfl ?_
    simp (disch := decide) only [AgreeOn, BitVec.extractLsb'_append_eq_of_add_le, BitVec.extractLsb'_append_eq_of_le]
    simp [hcc, hsc, hI, hz]
  case h_7 =>
    simp [enc]
    rintro a rfl b rfl rfl rfl hc
    refine encFields_of_agreeOn [5, 15] rfl rfl ?_
    simp (disch := decide) only [AgreeOn, BitVec.extractLsb'_append_eq_of_add_le, BitVec.extractLsb'_append_eq_of_le]
    simp [hc]
  case h_8 =>
    simp [enc]
    rintro a rfl b rfl rfl rfl rfl
    rfl
  case h_9 | h_10 => exact reads_pDA fun _ _ => rfl

theorem reads_parseB (hop : (op.extractLsb' 4 4).toNat = 11) : Reads (enc h op fn d a b c) (parseB h (enc h op fn d a b c)) := by
  unfold parseB
  split
  case h_11 => exact yields_none
  all_goals obtain rfl := op_eq hop ‹_ = _›
  case h_1 =>
    simp [enc]
    rintro d rfl rfl rfl rfl hc
    refine encFields_of_agreeOn [12, 8] rfl rfl ?_
    simp (disch := decide) only [AgreeOn, BitVec.extractLsb'_append_eq_of_add_le, BitVec.extractLsb'_append_eq_of_le]
    simp [hc]
  case h_2 =>
    simp [enc]
    rintro a rfl rfl rfl rfl hc
    refine encFields_of_agreeOn [12, 8] rfl rfl ?_
    simp (disch := decide) only [AgreeOn, BitVec.extractLsb'_append_eq_of_add_le, BitVec.extractLsb'_append_eq_of_le]
    simp [hc]
  case h_3 | h_4 =>
    simp [enc]
    rintro rfl rfl rfl rfl hc
    refine encFields_of_agreeOn [16, 4] rfl rfl ?_
    simp (disch := decide) only [AgreeOn, BitVec.extractLsb'_append_eq_of_add_le, BitVec.extractLsb'_append_eq_of_le]
    simp [hc]
  case h_5 | h_6 | h_9 => exact reads_p0 rfl
  case h_7 =>
    simp [enc]
    rintro rfl rfl hc a rfl
    split
    next hfn =>
      obtain rfl : fn = 1 := BitVec.eq_of_toNat_eq hfn
      refine yields_some.2 (encFields_of_agreeOn [8, 12] rfl rfl ?_)
      simp (disch := decide) only [AgreeOn, BitVec.extractLsb'_append_eq_of_add_le, BitVec.extractLsb'_append_eq_of_le]
      simp [hc]
    next hfn =>
      obtain rfl : fn = 2 := BitVec.eq_of_toNat_eq hfn
      simp
      rintro rfl
      refine encFields_of_agreeOn [8, 12] rfl rfl ?_
      simp (disch := decide) only [AgreeOn, BitVec.extractLsb'_append_eq_of_add_le, BitVec.extractLsb'_append_eq_of_le]
      simp [hc]
    next hfn =>
      obtain rfl : fn = 3 := BitVec.eq_of_toNat_eq hfn
      simp
      rintro rfl rfl
      rfl
    next => exact yields_none
  case h_8 =>
    simp [enc]
    rintro rfl rfl rfl
    split
    next hfn =>
      obtain rfl : fn = 1 := BitVec.eq_of_toNat_eq hfn
      simp
      rintro a rfl
      rfl
    next hfn =>
      obtain rfl : fn = 2 := BitVec.eq_of_toNat_eq hfn
      simp
      rintro rfl
      rfl
    next => exact yields_none
  case h_10 => exact reads_pA fun _ => rfl

/-- A full-form word that is read is the encoding of what is read (09 R315, R318, R326). -/
theorem encFields_of_parseFull : Reads f (parseFull f) := by
  obtain ⟨stop, op, pred, fn, d, a, b, c⟩ := f
  simp only [parseFull, Option.bind_eq_bind, yields_bind, predOfCode_eq_some]
  rintro p rfl
  split
  case h_1 hop => exact reads_parse0 (h := ⟨stop, p⟩) hop
  case h_2 hop => exact reads_parse1 (h := ⟨stop, p⟩) hop
  case h_3 hop => exact reads_parse2 (h := ⟨stop, p⟩) hop
  case h_4 hop => exact reads_parse3 (h := ⟨stop, p⟩) hop
  case h_5 hop => exact reads_parse4 (h := ⟨stop, p⟩) hop
  case h_6 hop => exact reads_parse5 (h := ⟨stop, p⟩) hop
  case h_7 hop => exact reads_parse6 (h := ⟨stop, p⟩) hop
  case h_8 hop => exact reads_parse7 (h := ⟨stop, p⟩) hop
  case h_9 hop => exact reads_parse8 (h := ⟨stop, p⟩) hop
  case h_10 hop => exact reads_parse9 (h := ⟨stop, p⟩) hop
  case h_11 hop => exact reads_parseA (h := ⟨stop, p⟩) hop
  case h_12 hop => exact reads_parseB (h := ⟨stop, p⟩) hop
  case h_13 => exact yields_none

end Sys2Proof
end

section
/-! PROOF. The decoder reads back the fields that the encoder lays out (09 R310 to R321). -/

namespace Sys2Proof

open Machine

variable {h : Hdr} {op : BitVec 8} {fn : BitVec 5} {d a b : BitVec 8} {c c' : BitVec 20} {i : Instr} {f : Fields}

section
variable (stop : Bool) (op : BitVec 8) (pred fn : BitVec 5) (d a b : BitVec 8)

@[simp] theorem opndB_encOpndB (x : Opnd) : opndB ⟨stop, op, pred, fn, d, a, (encOpndB x).1, (encOpndB x).2⟩ = some x := by simp
@[simp] theorem opndC_encOpndC (x : Opnd) : opndC ⟨stop, op, pred, fn, d, a, b, encOpndC x⟩ = some x := by simp
@[simp] theorem rndOnly_encRndOnly (rm : Rnd) : rndOnly ⟨stop, op, pred, fn, d, a, 0#8, encRndOnly rm⟩ = some rm := by simp
@[simp] theorem cmpB_encCmp (cc : Cmp) (x : CmpOpnd) :
    cmpB ⟨stop, op, pred, fn, d, a, (encCmp cc x).1, (encCmp cc x).2⟩ = some (cc, x) := by
  simp

@[simp] theorem memOf_encMem (o : MOrd) (m : MemOp) :
    memOf ⟨stop, op, pred, fn, d, regCode m.base, regCode m.idx, encMem o m⟩ = some (o, m) := by
  simp

theorem opnd5_eq (lo : Nat) {c : BitVec 20} {x : Opnd5} (hI : c.getLsbD 19 = immBit x) (hi : c.extractLsb' lo 5 = immField x) :
    opnd5 lo ⟨stop, op, pred, fn, d, a, (encOpnd5 lo x).1, c⟩ = some x := opnd5_eq_some.2 ⟨rfl, hI, hi⟩

theorem opnd5_shfl (x : Opnd5) (m : BitVec 2) :
    opnd5 8 ⟨stop, op, pred, fn, d, a, (encOpnd5 8 x).1, (encOpnd5 8 x).2 ||| m.setWidth 20⟩ = some x := by
  rw [encOpnd5_shfl]
  apply opnd5_eq <;>
    simp (disch := decide) only [BitVec.extractLsb'_append_eq_of_add_le,
      BitVec.extractLsb'_append_eq_of_le, getLsbD_append_high] <;> simp

theorem opnd5_pack (x : Opnd5) (sat : Bool) :
    opnd5 0 ⟨stop, op, pred, fn, d, a, (encOpnd5 0 x).1, (encOpnd5 0 x).2 ||| (0#1 ++ BitVec.ofBool sat ++ 0#18)⟩ = some x := by
  rw [encOpnd5_pack]
  apply opnd5_eq <;>
    simp (disch := decide) only [BitVec.extractLsb'_append_eq_of_add_le, getLsbD_append_high] <;> simp

theorem opnd5_fpk (x : Opnd5) (rm : BitVec 3) (sat : Bool) :
    opnd5 0 ⟨stop, op, pred, fn, d, a, (encOpnd5 0 x).1, (encOpnd5 0 x).2 ||| (0#1 ++ rm ++ BitVec.ofBool sat ++ 0#15)⟩ = some x := by
  rw [encOpnd5_fpk]
  apply opnd5_eq <;>
    simp (disch := decide) only [BitVec.extractLsb'_append_eq_of_add_le, getLsbD_append_high] <;> simp

theorem mode_of_okRnd {rm : Rnd} {x : Opnd} (hx : okRnd rm x = true) (i : BitVec 19) (hi : x = .imm i) : rm = .mode := by
  subst hi
  simpa [okRnd] using (Bool.and_eq_true_iff.1 hx).2

theorem rndB_encRndB {rm : Rnd} {x : Opnd} (hx : okRnd rm x = true) :
    rndB ⟨stop, op, pred, fn, d, a, (encRndB rm x).1, (encRndB rm x).2⟩ = some (rm, x) :=
  rndB_eq_some.2 ⟨rfl, rfl, mode_of_okRnd hx⟩

theorem rndC_encRndC {rm : Rnd} {x : Opnd} (hx : okRnd rm x = true) :
    rndC ⟨stop, op, pred, fn, d, a, b, encRndC rm x⟩ = some (rm, x) :=
  rndC_eq_some.2 ⟨rfl, mode_of_okRnd hx⟩
end

@[simp] theorem regOfCode_F0 : regOfCode 0xF0#8 = some .zero := regOfCode_regCode .zero
@[simp] theorem tlCode_ne_five (f : TlField) : tlCode f ≠ 5#5 := by cases f <;> decide
@[simp] theorem mskOf_kCode (k : Fin 12) : mskOf (kCode k) = some k := by simp
@[simp] theorem finOf8_low (n : Fin 8) : finOf8 ((BitVec.ofNat 20 n.val).extractLsb' 0 3) = n := by revert n; decide
@[simp] theorem finOf8_high (n : Fin 8) : (BitVec.ofNat 20 n.val).extractLsb' 3 17 = 0 := by revert n; decide
@[simp] theorem finOf8_ofNat (n : Fin 8) : finOf8 (BitVec.ofNat 3 n.val) = n := by revert n; decide
@[simp] theorem finOf8_ofFin (n : Fin 8) : finOf8 (BitVec.ofFin n) = n := rfl
@[simp] theorem finOf16_ofFin (n : Fin 16) : finOf16 (BitVec.ofFin n) = n := rfl
@[simp] theorem finOf16_low (n : Fin 16) : finOf16 ((BitVec.ofNat 20 n.val).extractLsb' 0 4) = n := by revert n; decide
@[simp] theorem finOf16_high (n : Fin 16) : (BitVec.ofNat 20 n.val).extractLsb' 4 16 = 0 := by revert n; decide
@[simp] theorem finOf16_ofNat (n : Fin 16) : finOf16 (BitVec.ofNat 4 n.val) = n := by revert n; decide
@[simp] theorem enc_op : (enc h op fn d a b c).op = op := rfl

/-- The high digit of the opcode selects the row of the opcode table (09 R312). -/
theorem parseFull_row {k : Nat} (hop : (op.extractLsb' 4 4).toNat = k) :
    parseFull (enc h op fn d a b c) =
      match (generalizing := false) k with
      | 0 => parse0 h (enc h op fn d a b c)
      | 1 => parse1 h (enc h op fn d a b c)
      | 2 => parse2 h (enc h op fn d a b c)
      | 3 => parse3 h (enc h op fn d a b c)
      | 4 => parse4 h (enc h op fn d a b c)
      | 5 => parse5 h (enc h op fn d a b c)
      | 6 => parse6 h (enc h op fn d a b c)
      | 7 => parse7 h (enc h op fn d a b c)
      | 8 => parse8 h (enc h op fn d a b c)
      | 9 => parse9 h (enc h op fn d a b c)
      | 10 => parseA h (enc h op fn d a b c)
      | 11 => parseB h (enc h op fn d a b c)
      | _ => none := by
  subst hop
  unfold parseFull
  rw [enc_op, show (enc h op fn d a b c).pred = predCode h.pred from rfl, predOfCode_predCode]
  rfl

@[simp] theorem need_true : need true = some () := rfl

theorem p2_e2 {mk : Hdr → Ty → Reg → Reg → Opnd → Instr} {t d a b} :
    p2 mk h (e2 h op t d a b) = some (mk h t d a b) := by
  simp [p2, e2, enc]

theorem p1_e1 {mk : Hdr → Ty → Reg → Reg → Instr} {t d a} : p1 mk h (e1 h op t d a) = some (mk h t d a) := by simp [p1, e1, enc]
theorem p3_e3 {mk : Hdr → Ty → Reg → Reg → Reg → Opnd → Instr} {t d a b c} :
    p3 mk h (e3 h op (tyCode t) d a b c) = some (mk h t d a b c) := by simp [p3, e3, enc]

theorem p3n_e3 {mk : Hdr → Reg → Reg → Reg → Opnd → Instr} {d a b c} : p3n mk h (e3 h op 7 d a b c) = some (mk h d a b c) := by
  simp [p3n, e3, enc]

theorem pf2_ef2 {mk : Hdr → Ty → Rnd → Reg → Reg → Opnd → Instr} {t rm d a b} (hb : okRnd rm b = true) :
    pf2 mk h (ef2 h op t rm d a b) = some (mk h t rm d a b) := by simp [pf2, ef2, enc, rndB_encRndB _ _ _ _ _ _ hb]

theorem pf1_ef1 {mk : Hdr → Ty → Rnd → Reg → Reg → Instr} {t rm d a} : pf1 mk h (ef1 h op t rm d a) = some (mk h t rm d a) := by
  simp [pf1, ef1, enc]

theorem pfs_efs {mk : Hdr → Reg → Reg → Instr} {d a} : pfs mk h (efs h op d a) = some (mk h d a) := by simp [pfs, efs, enc]
theorem p0_enc {mk : Hdr → Instr} : p0 mk h (enc h op 0 0 0 0 0) = some (mk h) := by simp [p0, enc]
theorem pA_enc {mk : Hdr → Reg → Instr} {a} : pA mk h (enc h op 0 0 (regCode a) 0 0) = some (mk h a) := by simp [pA, enc]
theorem pD_enc {mk : Hdr → Reg → Instr} {d} : pD mk h (enc h op 0 (regCode d) 0 0 0) = some (mk h d) := by simp [pD, enc]
theorem pDA_enc {mk : Hdr → Reg → Reg → Instr} {d a} :
    pDA mk h (enc h op 0 (regCode d) (regCode a) 0 0) = some (mk h d a) := by
  simp [pDA, enc]

theorem pE_eE {mk : Hdr → Fin 8 → Reg → Instr} {e a} : pE mk h (eE h op e a) = some (mk h e a) := by simp [pE, eE, enc]
theorem pK_enc {mk : Hdr → Fin 12 → Instr} {k} : pK mk h (enc h op 0 (kCode k) 0 0 0) = some (mk h k) := by simp [pK, enc]
theorem pMem_eMem {mk : Hdr → Ty → MOrd → Reg → MemOp → Instr} {t o d m} :
    pMem mk h (eMem h op (tyCode t) (regCode d) o m) = some (mk h t o d m) := by
  simp [pMem, eMem, enc]

theorem pVec_eMem {mk : Hdr → VecN → Reg → MemOp → Instr} {n d m} :
    pVec mk h (eMem h op (vecNCode n) (regCode d) .relaxed m) = some (mk h n d m) := by
  simp [pVec, eMem, enc, isRelaxed]

theorem pCw_eMem {mk : Hdr → Option MemOp → Instr} {m} :
    pCw mk h (eMem h op 0 0 .relaxed m) = some (mk h (some m)) := by
  simp [pCw, eMem, enc, isRelaxed]

theorem pCw_enc {mk : Hdr → Option MemOp → Instr} : pCw mk h (enc h op 1 0 0 0 0) = some (mk h none) := by simp [pCw, enc]
theorem pQ_enc {mk : Hdr → Ty → Reg → Fin 16 → Instr} {t d q} :
    pQ mk h (enc h op (tyCode t) (regCode d) 0 0 (BitVec.ofNat 20 q.val)) = some (mk h t d q) := by
  simp [pQ, enc]

theorem okRnd_of_and {p rm x} (hi : (p && okRnd rm x) = true) : okRnd rm x = true := (Bool.and_eq_true_iff.1 hi).2

/-- The fields of a well-formed instruction are read back as it (09 R315 to R321). -/
theorem parseFull_encFields (hi : wellFormed i = true) (hf : encFields i = some f) : parseFull f = some i := by
  cases i with
  | add | sub | mul | mulh | div | rem | min | max | and | or | xor =>
    cases hf
    refine (parseFull_row (k := 0) rfl).trans (?_ : parse0 _ _ = _)
    rw [parse0, enc_op]
    exact p2_e2
  | neg | abs =>
    cases hf
    refine (parseFull_row (k := 0) rfl).trans (?_ : parse0 _ _ = _)
    rw [parse0, enc_op]
    exact p1_e1
  | addc | subb =>
    cases hf
    refine (parseFull_row (k := 0) rfl).trans (?_ : parse0 _ _ = _)
    rw [parse0, enc_op]
    exact p3n_e3
  | mad =>
    cases hf
    refine (parseFull_row (k := 0) rfl).trans (?_ : parse0 _ _ = _)
    rw [parse0, enc_op]
    exact p3_e3
  | not | clz | ctz | popc | brev =>
    cases hf
    refine (parseFull_row (k := 1) rfl).trans (?_ : parse1 _ _ = _)
    rw [parse1, enc_op]
    exact p1_e1
  | andn | shl | shr | sar | rotl =>
    cases hf
    refine (parseFull_row (k := 1) rfl).trans (?_ : parse1 _ _ = _)
    rw [parse1, enc_op]
    exact p2_e2
  | bfx | bfi | sel =>
    cases hf
    refine (parseFull_row (k := 1) rfl).trans (?_ : parse1 _ _ = _)
    rw [parse1, enc_op]
    exact p3_e3
  | cmp =>
    cases hf
    refine (parseFull_row (k := 1) rfl).trans (?_ : parse1 _ _ = _)
    simp [enc, parse1]
  | isat =>
    cases hf
    refine (parseFull_row (k := 1) rfl).trans (?_ : parse1 _ _ = _)
    simp (disch := decide) only [enc, parse1, BitVec.extractLsb'_append_eq_of_add_le, BitVec.extractLsb'_append_eq_of_le]
    simp
  | aset =>
    cases hf
    refine (parseFull_row (k := 2) rfl).trans (?_ : parse2 _ _ = _)
    simp (disch := decide) only [enc, parse2, BitVec.extractLsb'_append_eq_of_add_le,
      BitVec.extractLsb'_append_eq_of_le, getLsbD_append_high, getLsbD_append_low]
    simp
  | aadv | aget | movi | movh | vote =>
    cases hf
    refine (parseFull_row (k := 2) rfl).trans (?_ : parse2 _ _ = _)
    simp [enc, parse2]
  | amov =>
    cases hf
    refine (parseFull_row (k := 2) rfl).trans (?_ : parse2 _ _ = _)
    rw [parse2, enc_op]
    exact pDA_enc
  | mov =>
    cases hf
    refine (parseFull_row (k := 2) rfl).trans (?_ : parse2 _ _ = _)
    rw [parse2, enc_op]
    exact p1_e1
  | shfl =>
    cases hf
    refine (parseFull_row (k := 2) rfl).trans (?_ : parse2 _ _ = _)
    simp only [enc, parse2, opnd5_shfl]
    simp (disch := decide) only [BitVec.extractLsb'_append_eq_of_add_le, BitVec.extractLsb'_append_eq_of_le, encOpnd5_shfl]
    simp
  | bcast | unpack =>
    cases hf
    refine (parseFull_row (k := 2) rfl).trans (?_ : parse2 _ _ = _)
    rw [parse2, enc_op]
    exact p2_e2
  | redux =>
    cases hf
    refine (parseFull_row (k := 2) rfl).trans (?_ : parse2 _ _ = _)
    simp (disch := decide) only [enc, parse2, BitVec.extractLsb'_append_eq_of_add_le, BitVec.extractLsb'_append_eq_of_le]
    simp
  | scan =>
    cases hf
    refine (parseFull_row (k := 2) rfl).trans (?_ : parse2 _ _ = _)
    simp (disch := decide) only [enc, parse2, BitVec.extractLsb'_append_eq_of_add_le,
      BitVec.extractLsb'_append_eq_of_le, getLsbD_append_high, getLsbD_append_low]
    simp
  | pack =>
    cases hf
    refine (parseFull_row (k := 2) rfl).trans (?_ : parse2 _ _ = _)
    simp only [enc, parse2, opnd5_pack]
    simp (disch := decide) only [BitVec.extractLsb'_append_eq_of_add_le,
      BitVec.extractLsb'_append_eq_of_le, encOpnd5_pack, getLsbD_append_high, getLsbD_append_low]
    simp
  | br | call | callx | kop | kcmp =>
    cases hf
    refine (parseFull_row (k := 3) rfl).trans (?_ : parse3 _ _ = _)
    simp [enc, parse3]
  | brx =>
    cases hf
    refine (parseFull_row (k := 3) rfl).trans (?_ : parse3 _ _ = _)
    rw [parse3, enc_op]
    exact pA_enc
  | ret | exit | yield | nop =>
    cases hf
    refine (parseFull_row (k := 3) rfl).trans (?_ : parse3 _ _ = _)
    rw [parse3, enc_op]
    exact p0_enc
  | kjoin | kleave | kwait =>
    cases hf
    refine (parseFull_row (k := 3) rfl).trans (?_ : parse3 _ _ = _)
    rw [parse3, enc_op]
    exact pK_enc
  | ld | st | ldx =>
    cases hf
    refine (parseFull_row (k := 4) rfl).trans (?_ : parse4 _ _ = _)
    rw [parse4, enc_op]
    exact pMem_eMem
  | ldv | stv =>
    cases hf
    refine (parseFull_row (k := 4) rfl).trans (?_ : parse4 _ _ = _)
    rw [parse4, enc_op]
    exact pVec_eMem
  | prf =>
    cases hf
    refine (parseFull_row (k := 4) rfl).trans (?_ : parse4 _ _ = _)
    simp (disch := decide) only [enc, parse4, BitVec.extractLsb'_append_eq_of_le, getLsbD_append_low]
    simp [isRelaxed]
  | fence =>
    cases hf
    refine (parseFull_row (k := 4) rfl).trans (?_ : parse4 _ _ = _)
    simp (disch := decide) only [enc, parse4, BitVec.extractLsb'_append_eq_of_add_le, BitVec.extractLsb'_append_eq_of_le]
    simp
  | cwb h m | cinv h m =>
    cases m <;> cases hf
    · refine (parseFull_row (k := 4) rfl).trans (?_ : parse4 _ _ = _)
      rw [parse4, enc_op]
      exact pCw_enc
    · refine (parseFull_row (k := 4) rfl).trans (?_ : parse4 _ _ = _)
      rw [parse4, enc_op]
      exact pCw_eMem
  | qpush | qpop =>
    cases hf
    refine (parseFull_row (k := 4) rfl).trans (?_ : parse4 _ _ = _)
    rw [parse4, enc_op]
    exact pQ_enc
  | qcfgSet | qcfgGet =>
    cases hf
    refine (parseFull_row (k := 4) rfl).trans (?_ : parse4 _ _ = _)
    simp [enc, parse4]
  | atom | red =>
    cases hf
    refine (parseFull_row (k := 5) rfl).trans (?_ : parse5 _ _ = _)
    simp (disch := decide) only [enc, parse5, BitVec.extractLsb'_append_eq_of_add_le, BitVec.extractLsb'_append_eq_of_le]
    simp
  | atxBegin =>
    cases hf
    refine (parseFull_row (k := 5) rfl).trans (?_ : parse5 _ _ = _)
    simp [enc, parse5]
  | atxEnd | atxStat =>
    cases hf
    refine (parseFull_row (k := 5) rfl).trans (?_ : parse5 _ _ = _)
    rw [parse5, enc_op]
    exact pD_enc
  | atxAbort =>
    cases hf
    refine (parseFull_row (k := 5) rfl).trans (?_ : parse5 _ _ = _)
    simp (disch := decide) only [enc, parse5, BitVec.extractLsb'_append_eq_of_add_le, BitVec.extractLsb'_append_eq_of_le]
    simp
  | atxPin =>
    cases hf
    refine (parseFull_row (k := 5) rfl).trans (?_ : parse5 _ _ = _)
    rw [parse5, enc_op]
    exact pA_enc
  | fadd | fsub | fmul | fdiv =>
    cases hf
    refine (parseFull_row (k := 6) rfl).trans (?_ : parse6 _ _ = _)
    rw [parse6, enc_op]
    exact pf2_ef2 (okRnd_of_and hi)
  | fma =>
    cases hf
    refine (parseFull_row (k := 6) rfl).trans (?_ : parse6 _ _ = _)
    simp [enc, parse6, rndC_encRndC _ _ _ _ _ _ _ (okRnd_of_and (Bool.and_eq_true_iff.1 hi).1)]
  | fscl =>
    cases hf
    refine (parseFull_row (k := 7) rfl).trans (?_ : parse7 _ _ = _)
    rw [parse7, enc_op]
    exact pf2_ef2 (okRnd_of_and hi)
  | fsqrt =>
    cases hf
    refine (parseFull_row (k := 6) rfl).trans (?_ : parse6 _ _ = _)
    rw [parse6, enc_op]
    exact pf1_ef1
  | frcp | frsq | fex2 | flg2 | fsin | fcos =>
    cases hf
    refine (parseFull_row (k := 6) rfl).trans (?_ : parse6 _ _ = _)
    rw [parse6, enc_op]
    exact pfs_efs
  | fmin | fmax =>
    cases hf
    refine (parseFull_row (k := 6) rfl).trans (?_ : parse6 _ _ = _)
    rw [parse6, enc_op]
    exact p2_e2
  | fcmp =>
    cases hf
    refine (parseFull_row (k := 6) rfl).trans (?_ : parse6 _ _ = _)
    simp [enc, parse6]
  | fcls =>
    cases hf
    refine (parseFull_row (k := 6) rfl).trans (?_ : parse6 _ _ = _)
    rw [parse6, enc_op]
    exact p1_e1
  | frnd =>
    cases hf
    refine (parseFull_row (k := 7) rfl).trans (?_ : parse7 _ _ = _)
    rw [parse7, enc_op]
    exact pf1_ef1
  | fcvt | icvt =>
    cases hf
    refine (parseFull_row (k := 7) rfl).trans (?_ : parse7 _ _ = _)
    simp (disch := decide) only [enc, parse7, BitVec.extractLsb'_append_eq_of_add_le,
      BitVec.extractLsb'_append_eq_of_le, getLsbD_append_high, getLsbD_append_low]
    simp
  | fdot2 | fdot4 =>
    cases hf
    refine (parseFull_row (k := 7) rfl).trans (?_ : parse7 _ _ = _)
    simp (disch := decide) only [enc, parse7, BitVec.extractLsb'_append_eq_of_add_le, BitVec.extractLsb'_append_eq_of_le]
    simp
  | fpk =>
    cases hf
    refine (parseFull_row (k := 7) rfl).trans (?_ : parse7 _ _ = _)
    simp only [enc, parse7, opnd5_fpk]
    simp (disch := decide) only [BitVec.extractLsb'_append_eq_of_add_le,
      BitVec.extractLsb'_append_eq_of_le, encOpnd5_fpk, getLsbD_append_high, getLsbD_append_low]
    simp
  | mjob | ringCfg =>
    cases hf
    refine (parseFull_row (k := 8) rfl).trans (?_ : parse8 _ _ = _)
    simp [enc, parse8]
  | mcmp | mscl | mplane | mnplane =>
    cases hf
    refine (parseFull_row (k := 8) rfl).trans (?_ : parse8 _ _ = _)
    simp (disch := decide) only [enc, parse8, BitVec.extractLsb'_append_eq_of_add_le,
      BitVec.extractLsb'_append_eq_of_le, getLsbD_append_high, getLsbD_append_low]
    simp
  | ringAcq | ringRel =>
    cases hf
    refine (parseFull_row (k := 8) rfl).trans (?_ : parse8 _ _ = _)
    simp (disch := decide) only [enc, parse8, BitVec.extractLsb'_append_eq_of_add_le, BitVec.extractLsb'_append_eq_of_le]
    simp
  | cpy | astr | nmeGth | nmeRed | nmeCvt | winst | tlwait =>
    cases hf
    refine (parseFull_row (k := 9) rfl).trans (?_ : parse9 _ _ = _)
    rw [parse9, enc_op]
    exact pE_eE
  | wqry | join =>
    cases hf
    refine (parseFull_row (k := 9) rfl).trans (?_ : parse9 _ _ = _)
    rw [parse9, enc_op]
    exact pDA_enc
  | tlget | tlgetClr =>
    cases hf
    refine (parseFull_row (k := 9) rfl).trans (?_ : parse9 _ _ = _)
    simp [enc, parse9]
  | vfsend | leap =>
    cases hf
    refine (parseFull_row (k := 9) rfl).trans (?_ : parse9 _ _ = _)
    rw [parse9, enc_op]
    exact pA_enc
  | vfrecv | vffree =>
    cases hf
    refine (parseFull_row (k := 9) rfl).trans (?_ : parse9 _ _ = _)
    rw [parse9, enc_op]
    exact pD_enc
  | launch =>
    cases hf
    refine (parseFull_row (k := 9) rfl).trans (?_ : parse9 _ _ = _)
    simp (disch := decide) only [enc, parse9, BitVec.extractLsb'_append_eq_of_add_le, BitVec.extractLsb'_append_eq_of_le]
    simp
  | barArr =>
    cases hf
    refine (parseFull_row (k := 10) rfl).trans (?_ : parseA _ _ = _)
    simp (disch := decide) only [enc, parseA, BitVec.extractLsb'_append_eq_of_add_le, BitVec.extractLsb'_append_eq_of_le]
    simp
  | barWait | deqPush =>
    cases hf
    refine (parseFull_row (k := 10) rfl).trans (?_ : parseA _ _ = _)
    simp [enc, parseA]
  | sbarArr | sbarWait | wake =>
    cases hf
    refine (parseFull_row (k := 10) rfl).trans (?_ : parseA _ _ = _)
    rw [parseA, enc_op]
    exact pA_enc
  | waitaddr =>
    cases hf
    refine (parseFull_row (k := 10) rfl).trans (?_ : parseA _ _ = _)
    simp (disch := decide) only [enc, parseA, BitVec.extractLsb'_append_eq_of_add_le, BitVec.extractLsb'_append_eq_of_le]
    simp
  | deqInit =>
    cases hf
    refine (parseFull_row (k := 10) rfl).trans (?_ : parseA _ _ = _)
    simp (disch := decide) only [enc, parseA, BitVec.extractLsb'_append_eq_of_add_le, BitVec.extractLsb'_append_eq_of_le]
    simp
  | deqPop | deqSteal =>
    cases hf
    refine (parseFull_row (k := 10) rfl).trans (?_ : parseA _ _ = _)
    rw [parseA, enc_op]
    exact pDA_enc
  | sysr | sysw | scall | brk =>
    cases hf
    refine (parseFull_row (k := 11) rfl).trans (?_ : parseB _ _ = _)
    simp (disch := decide) only [enc, parseB, BitVec.extractLsb'_append_eq_of_add_le, BitVec.extractLsb'_append_eq_of_le]
    simp
  | tret | wfi | halt =>
    cases hf
    refine (parseFull_row (k := 11) rfl).trans (?_ : parseB _ _ = _)
    rw [parseB, enc_op]
    exact p0_enc
  | tlbinvVa | tlbinvCtx =>
    cases hf
    refine (parseFull_row (k := 11) rfl).trans (?_ : parseB _ _ = _)
    simp (disch := decide) only [enc, parseB, BitVec.extractLsb'_append_eq_of_add_le, BitVec.extractLsb'_append_eq_of_le]
    simp
  | tlbinvAll | icinvLine | icinvAll =>
    cases hf
    refine (parseFull_row (k := 11) rfl).trans (?_ : parseB _ _ = _)
    simp [enc, parseB]
  | ipi =>
    cases hf
    refine (parseFull_row (k := 11) rfl).trans (?_ : parseB _ _ = _)
    rw [parseB, enc_op]
    exact pA_enc
  | dualWord | _ => cases hf

end Sys2Proof
end

section
/-! PROOF. The decoder and the encoder are inverse to each other (09 R308 to R326): O55, O57, O58. -/

namespace Sys2Proof

open Machine

variable {i : Instr} {f : Fields} {w : BitVec 64}

theorem assigned_of_encFields (hf : encFields i = some f) : assigned f.op = true := by
  cases i
  case cwb h m | cinv h m => cases m <;> cases hf <;> dsimp only [eMem, enc_op] <;> rfl
  all_goals cases hf
  all_goals dsimp only [e1, e2, e3, ef1, ef2, efs, eE, eMem, enc_op]; rfl

/-! ### slots -/

variable {z : Slot} {g : SlotFields}

theorem slotWord_slot0 (b : Bool) (y : BitVec 31) (g : SlotFields) : slot0Of (BitVec.ofBool b ++ 1#1 ++ slotWord g ++ y) = g := by
  obtain ⟨op, d, s, i⟩ := g
  simp (disch := decide) only [slot0Of, slotWord, BitVec.extractLsb'_append_eq_of_add_le, BitVec.extractLsb'_append_eq_of_le]
  simp

theorem slotWord_slot1 (x : BitVec 33) (g : SlotFields) : slot1Of (x ++ slotWord g) = g := by
  obtain ⟨op, d, s, i⟩ := g
  simp (disch := decide) only [slot1Of, slotWord, BitVec.extractLsb'_append_eq_of_add_le, BitVec.extractLsb'_append_eq_of_le]
  simp

theorem dualWord_eq {w : BitVec 64} (h : w.getLsbD 62 = true) :
    BitVec.ofBool (w.getLsbD 63) ++ 1#1 ++ slotWord (slot0Of w) ++ slotWord (slot1Of w) = w := by
  refine eq_of_agreeOn [8, 8, 8, 7, 8, 8, 8, 7, 1, 1] rfl ?_
  simp (disch := decide) only [AgreeOn, slot0Of, slot1Of, slotWord, BitVec.extractLsb'_append_eq_of_add_le,
    BitVec.extractLsb'_append_eq_of_le]
  simp [extractLsb'_one, h, -BitVec.getLsbD_eq_getElem]

theorem parseSlot_encSlot (z : Slot) : parseSlot (encSlot z) = some z := by
  cases z with
  | bin op d s => cases op <;> simp [encSlot, slotOpCode, parseSlot, sBin]
  | binImm op d s i => cases op <;> simp [encSlot, slotImmCode, parseSlot, sImm]
  | un op d s => cases op <;> simp [encSlot, slotUnCode, parseSlot, sUn]
  | kop op d s => cases op <;> simp [encSlot, slotKCode, parseSlot, sKop]
  | kcmp c d s i => cases c <;> simp [encSlot, slotCmpCode, parseSlot, sKcmp]
  | movi d i => simp [encSlot, parseSlot]
  | aadv d i => simp [encSlot, parseSlot]
  | nop => simp [encSlot, parseSlot]

theorem slotAssigned_encSlot (z : Slot) : slotAssigned (encSlot z).op = true := by
  cases z with
  | bin op d s | binImm op d s i | un op d s | kop op d s | kcmp op d s i => cases op <;> rfl
  | movi | aadv | nop => rfl

section
variable {g : SlotFields}

theorem yields_sBin {op : SlotOp} (hop : g.op.toNat = (slotOpCode op).toNat) : Yields (encSlot · = g) (sBin op g) := by
  obtain ⟨c, d, s, i⟩ := g
  obtain rfl := BitVec.eq_of_toNat_eq hop
  simp [sBin]
  rintro d rfl s rfl rfl
  rfl

theorem yields_sImm {op : SlotImmOp} (hop : g.op.toNat = (slotImmCode op).toNat) : Yields (encSlot · = g) (sImm op g) := by
  obtain ⟨c, d, s, i⟩ := g
  obtain rfl := BitVec.eq_of_toNat_eq hop
  simp [sImm]
  rintro d rfl s rfl
  rfl

theorem yields_sUn {op : SlotUnOp} (hop : g.op.toNat = (slotUnCode op).toNat) : Yields (encSlot · = g) (sUn op g) := by
  obtain ⟨c, d, s, i⟩ := g
  obtain rfl := BitVec.eq_of_toNat_eq hop
  simp [sUn]
  rintro d rfl s rfl rfl
  rfl

theorem yields_sKop {op : SlotKOp} (hop : g.op.toNat = (slotKCode op).toNat) : Yields (encSlot · = g) (sKop op g) := by
  obtain ⟨c, d, s, i⟩ := g
  obtain rfl := BitVec.eq_of_toNat_eq hop
  simp [sKop]
  rintro d rfl s rfl rfl
  rfl

theorem yields_sKcmp {op : SlotCmp} (hop : g.op.toNat = (slotCmpCode op).toNat) : Yields (encSlot · = g) (sKcmp op g) := by
  obtain ⟨c, d, s, i⟩ := g
  obtain rfl := BitVec.eq_of_toNat_eq hop
  simp [sKcmp]
  rintro d rfl s rfl
  rfl

/-- A slot that is read is the encoding of what is read (09 R321, R326). -/
theorem encSlot_of_parseSlot : Yields (encSlot · = g) (parseSlot g) := by
  unfold parseSlot
  split
  case h_26 hop =>
    obtain ⟨c, d, s, i⟩ := g
    obtain rfl : c = 0x1A := BitVec.eq_of_toNat_eq hop
    simp
    rintro d rfl rfl
    rfl
  case h_37 hop =>
    obtain ⟨c, d, s, i⟩ := g
    obtain rfl : c = 0x30 := BitVec.eq_of_toNat_eq hop
    simp
    rintro d rfl rfl
    rfl
  case h_47 hop =>
    obtain ⟨c, d, s, i⟩ := g
    obtain rfl : c = 0x3F := BitVec.eq_of_toNat_eq hop
    simp
    rintro rfl rfl rfl
    rfl
  case h_48 => exact yields_none
  case h_2 | h_4 | h_6 | h_8 | h_10 | h_12 | h_14 | h_16 | h_18 | h_20 | h_22 => exact yields_sImm ‹_›
  case h_25 | h_28 | h_29 | h_30 | h_31 => exact yields_sUn ‹_›
  case h_38 | h_39 | h_40 | h_41 | h_42 => exact yields_sKop ‹_›
  case h_43 | h_44 | h_45 | h_46 => exact yields_sKcmp ‹_›
  all_goals exact yields_sBin ‹_›

end

theorem slotAssigned_of_parseSlot {z : Slot} (h : parseSlot g = some z) : slotAssigned g.op = true :=
  encSlot_of_parseSlot z h ▸ slotAssigned_encSlot z

theorem wordOf_form (f : Fields) : (wordOf f).getLsbD 62 = false := by
  simp (disch := decide) only [wordOf, getLsbD_append_high, getLsbD_append_low]
  simp

theorem encode_of_encFields (hf : encFields i = some f) : encode i = some (wordOf f) := by
  unfold encode
  split
  next => cases hf
  next => rw [hf, Option.map_some]

/-- The word of two slots. -/
def dualBits (stop : Bool) (g0 g1 : SlotFields) : BitVec 64 := BitVec.ofBool stop ++ 1#1 ++ slotWord g0 ++ slotWord g1

section
variable (stop : Bool) (g0 g1 : SlotFields)

@[simp] theorem dualBits_form : (dualBits stop g0 g1).getLsbD 62 = true := by
  simp (disch := decide) only [dualBits, getLsbD_append_high, getLsbD_append_low]
  simp

@[simp] theorem dualBits_stop : (dualBits stop g0 g1).getLsbD 63 = stop := by
  simp (disch := decide) only [dualBits, getLsbD_append_high]
  simp

@[simp] theorem slot0Of_dualBits : slot0Of (dualBits stop g0 g1) = g0 := slotWord_slot0 stop _ g0
@[simp] theorem slot1Of_dualBits : slot1Of (dualBits stop g0 g1) = g1 := slotWord_slot1 _ g1
end

theorem parse_dualBits (stop : Bool) (z0 z1 : Slot) :
    parse (dualBits stop (encSlot z0) (encSlot z1)) = some (.dualWord stop z0 z1) := by
  simp [parse, parseSlot_encSlot, -BitVec.getLsbD_eq_getElem]

theorem opAssigned_dualBits (stop : Bool) (z0 z1 : Slot) : opAssigned (dualBits stop (encSlot z0) (encSlot z1)) = true := by
  simp [opAssigned, slotAssigned_encSlot, -BitVec.getLsbD_eq_getElem]

theorem parse_wordOf (f : Fields) : parse (wordOf f) = parseFull f := by
  simp only [parse, wordOf_form, fieldsOf_wordOf, Bool.false_eq_true, if_false]

theorem opAssigned_wordOf (f : Fields) : opAssigned (wordOf f) = assigned f.op := by
  simp only [opAssigned, wordOf_form, fieldsOf_wordOf, Bool.false_eq_true, if_false]

theorem opAssigned_parse_of_encode (hi : wellFormed i = true) (hw : encode i = some w) :
    opAssigned w = true ∧ parse w = some i := by
  unfold encode at hw
  split at hw
  next st z0 z1 =>
    obtain rfl := Option.some.inj hw
    exact ⟨opAssigned_dualBits st z0 z1, parse_dualBits st z0 z1⟩
  next =>
    obtain ⟨f, hf, rfl⟩ := Option.map_eq_some_iff.1 hw
    exact ⟨(opAssigned_wordOf f).trans (assigned_of_encFields hf), (parse_wordOf f).trans (parseFull_encFields hi hf)⟩

theorem encode_of_parse (h : parse w = some i) : encode i = some w := by
  unfold parse at h
  split at h
  next hform =>
    simp only [Option.bind_eq_bind, Option.bind_eq_some_iff, Option.some.injEq] at h
    obtain ⟨z0, h0, z1, h1, rfl⟩ := h
    rw [encode, encSlot_of_parseSlot z0 h0, encSlot_of_parseSlot z1 h1, dualWord_eq hform]
  next hform =>
    rw [encode_of_encFields (encFields_of_parseFull i h), wordOf_fieldsOf (by simpa using hform)]

/-- The decoder inverts the encoder on well-formed instructions, and accepts no other word (09 R313, R318, R326). -/
theorem decode_eq_ok_iff : decode w = .ok i ↔ wellFormed i = true ∧ encode i = some w := by
  constructor
  · intro h
    unfold decode at h
    split at h
    next =>
      split at h
      next => cases h
      next j hp =>
        split at h
        next hwf =>
          cases h
          exact ⟨hwf, encode_of_parse hp⟩
        next => cases h
    next => cases h
  · rintro ⟨hi, hw⟩
    obtain ⟨hop, hp⟩ := opAssigned_parse_of_encode hi hw
    simp [decode, hop, hp, hi]

/-- Exactly the instructions of words have an encoding. -/
theorem encode_isSome (i : Instr) : (encode i).isSome = isWord i := by
  cases i with
  | cwb h m | cinv h m => cases m <;> rfl
  | _ => rfl

/-- Settles O57: encoding succeeds for every word, and the decoder inverts it. -/
theorem decodeOfEncodeIsTheInstruction : Obligations.DecodeOfEncodeIsTheInstruction := by
  intro i hword hi
  obtain ⟨w, hw⟩ := Option.isSome_iff_exists.1 ((encode_isSome i).trans hword)
  exact ⟨w, hw, decode_eq_ok_iff.2 ⟨hi, hw⟩⟩

/-- Settles O58: what the decoder accepts is what the encoder writes. -/
theorem encodeOfDecodeIsTheWord : Obligations.EncodeOfDecodeIsTheWord := by
  intro w i h
  obtain ⟨hi, hw⟩ := decode_eq_ok_iff.1 h
  exact ⟨(encode_isSome i).symm.trans (by rw [hw, Option.isSome_some]), hi, hw⟩

/-- Settles O55: each instruction is well-formed, and its encoding is the word. -/
theorem wordsOfTheSpecDecode : Obligations.WordsOfTheSpecDecode := by
  unfold Obligations.WordsOfTheSpecDecode
  intro h
  refine ⟨?_, ?_, ?_, ?_, ?_, ?_, ?_, ?_, ?_, ?_, ?_, ?_, ?_, ?_, ?_, ?_, ?_⟩
  all_goals exact decode_eq_ok_iff.2 ⟨rfl, by decide⟩

end Sys2Proof
end

section
/-! PROOF. Dual words (09 R321, R322), and O8. -/

namespace Sys2Proof.Machine

variable {s u : State} {x : Ctx} {c k : Clutch} {ex : Mask} {stop : Bool} {z z0 z1 : Slot} {cause : Nat} {addr : Dword} {mask : Mask}

theorem exec_dualWord (hclash : pairClash z0 z1 = false) (s : State) :
    exec (.dualWord stop z0 z1) s = word (.dualWord stop z0 z1) s (dualWord z0 z1) := by
  change execDualWord stop z0 z1 s = _
  rw [execDualWord, word, hclash]

/-- The one trap of a slot is BOUNDS (05 R170). -/
theorem cause_of_slotTrap (h : slotTrap c ex z = some (.trap cause addr mask)) : cause = cBounds := by
  unfold slotTrap at h
  split at h
  case h_1 d m =>
    dsimp only at h
    split at h
    · cases h
    · cases h
      rfl
  case h_2 => cases h

theorem slotTags_outside_region (h : c.region = none) : slotTags s c ex z k = some k := by
  unfold slotTags
  rw [h]
  rfl

theorem dualWord_done (hb : Begins x u c) (h0 : slotTrap c x.ex z0 = none) (h1 : slotTrap c x.ex z1 = none) :
    dualWord z0 z1 x u = .done (setClutch u x.cid (slotWrite u c x.ex z1 (slotWrite u c x.ex z0 c))) 0 := by
  simp only [dualWord, hb.clutch, h0, h1, slotTags_outside_region hb.region]

theorem dualWord_trap {r : Res} (hb : Begins x u c)
    (h : slotTrap c x.ex z0 = some r ∨ (slotTrap c x.ex z0 = none ∧ slotTrap c x.ex z1 = some r)) : dualWord z0 z1 x u = r := by
  rcases h with h0 | ⟨h0, h1⟩
  · simp only [dualWord, hb.clutch, h0]
  · simp only [dualWord, hb.clutch, h0, h1]

/-- Settles O8: outside a region a dual word adds no tags, and a slot traps for BOUNDS alone, so `TRAP_PC` is the word's own address. -/
theorem dualWordBothSlotsReadFirst : Obligations.DualWordBothSlotsReadFirst := by
  intro s stop z0 z1 hclash
  have hword := exec_dualWord (stop := stop) hclash
  refine ⟨regDone_of hword fun x u c hb ⟨h0, h1⟩ => dualWord_done hb h0 h1, fun cause addr mask => ?_⟩
  by_cases hcause : cause = cBounds
  · subst hcause
    exact wordTraps_of hword (fun _ _ _ => by decide) fun x u c hb ht => dualWord_trap hb ht
  · rintro w p - (ht | ⟨-, ht⟩) <;> exact absurd (cause_of_slotTrap ht) hcause

end Sys2Proof.Machine
end

section
/-! PROOF. The checks of a word at its issue address, in their order (09 R326), and O39. -/

namespace Sys2Proof.Machine

variable {s : State} {x : Ctx} {w : WordInfo} {i : Instr} {c c0 : Clutch} {ex m : Mask} {body : Ctx → State → Res} {g : Region} {r : Reg}

/-- The word is one of the other kind of core, or its FP64 plane element begins at an odd register (05 R166). -/
def kindFails (s : State) (c : Clutch) (w : WordInfo) (ex : Mask) (i : Instr) : Bool :=
  (w.simt && isHost c) || (w.host && !isHost c) || oddPair s c ex i

theorem kindFails_iff : kindFails s c w ex i = true ↔
    (w.simt = true ∧ isHost c = true) ∨ (w.host = true ∧ isHost c = false) ∨ oddPair s c ex i = true := by
  simp [kindFails, or_assoc]

theorem kindFails_eq_false_iff : kindFails s c w ex i = false ↔
    ¬ ((w.simt = true ∧ isHost c = true) ∨ (w.host = true ∧ isHost c = false) ∨ oddPair s c ex i = true) := by
  rw [← kindFails_iff, Bool.not_eq_true]

/-- The rules of a region (10 R370, R375), then the word's own effect. -/
def regionRules (s : State) (x : Ctx) (w : WordInfo) (i : Instr) (c0 : Clutch) (body : Ctx → State → Res) : State :=
  match (clutchAt s x.cid).region with
  | some g =>
    if 4096 ≤ g.words then regionAbort s x.cid stLength
    else if x.ex ≠ 0 ∧ w.forbid then regionAbort s x.cid stIllegal
    else runBody.go x w i c0 body s (clutchAt s x.cid)
  | none => runBody.go x w i c0 body s (clutchAt s x.cid)

/-- Check 6 (05 R174), then what follows it. -/
def hazardRules (s : State) (x : Ctx) (w : WordInfo) (i : Instr) (c0 : Clutch) (body : Ctx → State → Res) : State :=
  match (if (clutchAt s x.cid).fpmode.getLsbD 31 then hazardOf s (clutchAt s x.cid) w i x.ex else none) with
  | some r => takeTrap s x.cid cHazard (specOf r) x.at_ x.at_ x.ia i
  | none =>
    if (clutchAt s x.cid).fpmode.getLsbD 31 && linkHazard (clutchAt s x.cid) w x.ex then
      takeTrap (freeD s).2 x.cid cHazard (freeD s).1 x.at_ x.at_ x.ia i
    else regionRules s x w i c0 body

/-- The checks in their order. -/
theorem runBody_eq (pairing : Bool) : runBody s x w i c0 pairing body =
    if kindFails s (clutchAt s x.cid) w x.ex i then takeTrap s x.cid cIllegal ((encode i).getD 0) x.at_ x.at_ x.ia i
    else if pairing then takeTrap s x.cid cPairing ((encode i).getD 0) x.at_ x.at_ x.ia i
    else if x.ex ≠ 0 ∧ privFails (clutchAt s x.cid) i w then takeTrap s x.cid cPrivilege 0 x.at_ x.at_ x.ia i
    else match badRows s (clutchAt s x.cid) w i x.at_ x.ex with
      | some m => takeTrap (freeD s).2 x.cid cPoison (freeD s).1 m x.at_ x.ia i
      | none => hazardRules s x w i c0 body :=
  rfl

theorem runBody_of_kindFails {pairing : Bool} (h : kindFails s (clutchAt s x.cid) w x.ex i = true) :
    runBody s x w i c0 pairing body = takeTrap s x.cid cIllegal ((encode i).getD 0) x.at_ x.at_ x.ia i := by
  rw [runBody_eq, if_pos h]

section
variable (hkind : kindFails s (clutchAt s x.cid) w x.ex i = false)
include hkind

theorem runBody_of_pairing : runBody s x w i c0 true body = takeTrap s x.cid cPairing ((encode i).getD 0) x.at_ x.at_ x.ia i := by
  rw [runBody_eq, hkind, if_neg Bool.false_ne_true, if_pos rfl]

theorem runBody_of_privFails (hpriv : x.ex ≠ 0 ∧ privFails (clutchAt s x.cid) i w = true) :
    runBody s x w i c0 false body = takeTrap s x.cid cPrivilege 0 x.at_ x.at_ x.ia i := by
  rw [runBody_eq, hkind, if_neg Bool.false_ne_true, if_neg Bool.false_ne_true, if_pos hpriv]

variable (hpriv : ¬ (x.ex ≠ 0 ∧ privFails (clutchAt s x.cid) i w = true))
include hpriv

theorem runBody_of_badRows (hrows : badRows s (clutchAt s x.cid) w i x.at_ x.ex = some m) :
    runBody s x w i c0 false body = takeTrap (freeD s).2 x.cid cPoison (freeD s).1 m x.at_ x.ia i := by
  rw [runBody_eq, hkind, if_neg Bool.false_ne_true, if_neg Bool.false_ne_true, if_neg hpriv, hrows]

theorem runBody_of_goodRows (hrows : badRows s (clutchAt s x.cid) w i x.at_ x.ex = none) :
    runBody s x w i c0 false body = hazardRules s x w i c0 body := by
  rw [runBody_eq, hkind, if_neg Bool.false_ne_true, if_neg Bool.false_ne_true, if_neg hpriv, hrows]

end

theorem hazardRules_of_hazard (hmode : (clutchAt s x.cid).fpmode.getLsbD 31 = true) (hr : hazardOf s (clutchAt s x.cid) w i x.ex = some r) :
    hazardRules s x w i c0 body = takeTrap s x.cid cHazard ((regCode r).setWidth 64) x.at_ x.at_ x.ia i := by
  rw [hazardRules, if_pos hmode, hr]
  rfl

theorem hazardRules_of_linkHazard (hmode : (clutchAt s x.cid).fpmode.getLsbD 31 = true)
    (hnone : hazardOf s (clutchAt s x.cid) w i x.ex = none) (hlink : linkHazard (clutchAt s x.cid) w x.ex = true) :
    hazardRules s x w i c0 body = takeTrap (freeD s).2 x.cid cHazard (freeD s).1 x.at_ x.at_ x.ia i := by
  simp only [hazardRules, hmode, hnone, hlink, Bool.and_self, if_true]

theorem hazardRules_of_none (hnone : (clutchAt s x.cid).fpmode.getLsbD 31 = true → hazardOf s (clutchAt s x.cid) w i x.ex = none)
    (hlink : (clutchAt s x.cid).fpmode.getLsbD 31 = true → linkHazard (clutchAt s x.cid) w x.ex = false) :
    hazardRules s x w i c0 body = regionRules s x w i c0 body := by
  unfold hazardRules
  cases hmode : (clutchAt s x.cid).fpmode.getLsbD 31 with
  | false => rfl
  | true =>
    rw [if_pos rfl, hnone hmode, hlink hmode]
    rfl

/-- A word that no lane executes reads no link word. -/
theorem linkHazard_none : linkHazard c w 0 = false := by
  have hlanes : lanesOf 0 = [] := by decide
  unfold linkHazard linkPlaces
  rw [hlanes]
  cases w.link <;> rfl

theorem regionRules_of_none (hregion : (clutchAt s x.cid).region = none) (hex : x.ex = 0) :
    regionRules s x w i c0 body = finish s x w c0 0 := by
  rw [regionRules, hregion]
  exact if_pos hex

theorem regionRules_of_length (hregion : (clutchAt s x.cid).region = some g) (hlen : 4096 ≤ g.words) :
    regionRules s x w i c0 body = regionAbort s x.cid stLength := by
  rw [regionRules, hregion]
  exact if_pos hlen

theorem regionRules_of_forbidden (hregion : (clutchAt s x.cid).region = some g) (hlen : g.words < 4096) (hex : x.ex ≠ 0)
    (hforbid : w.forbid = true) : regionRules s x w i c0 body = regionAbort s x.cid stIllegal := by
  rw [regionRules, hregion]
  exact (if_neg (Nat.not_le.2 hlen)).trans (if_pos ⟨hex, hforbid⟩)

/-- Settles O39: each check answers when those before it pass, and a region's rules come after them all. -/
theorem wordChecksInTheirOrder : Obligations.WordChecksInTheirOrder := by
  refine ⟨?checks, ?region⟩
  case' checks =>
    intro s x w i c0 pairing body c wd wrongCore low traps
    refine ⟨?kind, ?pairing, ?privilege, ?rows, ?hazard, ?passed⟩
  case kind => exact fun h => runBody_of_kindFails (kindFails_iff.2 h)
  case pairing =>
    rintro hkind rfl
    exact runBody_of_pairing (kindFails_eq_false_iff.2 hkind)
  case privilege =>
    rintro hkind rfl hlow
    exact runBody_of_privFails (kindFails_eq_false_iff.2 hkind) hlow
  case rows =>
    rintro hkind rfl hlow m hrows
    exact runBody_of_badRows (kindFails_eq_false_iff.2 hkind) hlow hrows
  case hazard =>
    rintro hkind rfl hlow hrows hmode
    have hbody : runBody s x w i c0 false body = _ := runBody_of_goodRows (kindFails_eq_false_iff.2 hkind) hlow hrows
    exact ⟨fun r hr => hbody.trans (hazardRules_of_hazard hmode hr),
      fun hnone hlink => hbody.trans (hazardRules_of_linkHazard hmode hnone hlink)⟩
  case passed =>
    rintro hkind rfl hlow hrows hnone hregion hex
    rw [runBody_of_goodRows (kindFails_eq_false_iff.2 hkind) hlow hrows,
      hazardRules_of_none hnone fun _ => hex ▸ linkHazard_none, regionRules_of_none hregion hex]
  case region =>
    intro s x w i c0 body g hregion hsimt hhost hpair hpriv hrows hmode
    have hkind : kindFails s (clutchAt s x.cid) w x.ex i = false := by
      rw [kindFails_eq_false_iff]
      rintro (⟨h, hc⟩ | ⟨h, hc⟩ | h)
      · simp [hsimt h] at hc
      · simp [hhost h] at hc
      · simp [hpair] at h
    have hoff : ∀ {q : Prop}, (clutchAt s x.cid).fpmode.getLsbD 31 = true → q := fun h => absurd (hmode.symm.trans h) Bool.false_ne_true
    rw [runBody_of_goodRows hkind (by simp [hpriv]) hrows, hazardRules_of_none hoff hoff]
    exact ⟨fun hlen => regionRules_of_length hregion hlen,
      fun hlen hex hforbid => regionRules_of_forbidden hregion hlen hex hforbid⟩

end Sys2Proof.Machine
end

section
/-! PROOF. Every act answers a next state (09 R326), and the machine stops only while its rails are removed (02 R78): O60. -/

namespace Sys2Proof.Machine

variable {s : State} {i : Instr}

/-- An act has an outcome that is a state: it is neither refused nor stopped. -/
def Answers (o : Out) : Prop := ∃ t, o = .next t

theorem answers_next {t : State} : Answers (.next t) := ⟨t, rfl⟩

theorem answers_word {body : Ctx → State → Res} : Answers (word i s body) := by
  unfold word
  split
  · exact answers_next
  · exact answers_next

theorem answers_runAs {f : State → Out} {cid : Nat} (hf : ∀ s, Answers (f s)) : Answers (runAs s cid f) := by
  obtain ⟨t, ht⟩ := hf { s with cur := cid }
  rw [runAs, ht]
  exact answers_next

theorem answers_namedWrite {r : Requester} {off : Nat} {v : Dword} : Answers (namedWrite s r off v) := by
  unfold namedWrite
  split
  · exact answers_next
  · exact answers_next

/-- A word runs by `word`, a wait that ends runs its word again, a named register is written by `namedWrite`; every other act is a tree
of tests with a next state at each leaf. -/
theorem exec_answers (i : Instr) (s : State) : Answers (exec i s) := by
  cases i
  case
      add | sub | addc | subb | mul | mulh | mad | div | rem | neg | abs | min | max | and | or | xor | not | andn | shl | shr |
      sar | rotl | clz | ctz | popc | brev | bfx | bfi | sel | cmp | isat | aset | aadv | aget | amov | mov | movi | movh | shfl |
      bcast | vote | redux | scan | pack | unpack | br | brx | call | callx | ret | exit | kjoin | kleave | kwait | kop | kcmp |
      yield | nop | ld | st | ldv | stv | prf | fence | cwb | cinv | qpush | qpop | qcfgSet | qcfgGet | ldx | atom | red | atxBegin
      | atxEnd | atxAbort | atxPin | atxStat | fadd | fsub | fmul | fma | fdiv | fsqrt | frcp | frsq | fex2 | flg2 | fsin | fcos |
      fmin | fmax | fcmp | fcls | frnd | fscl | fcvt | icvt | fdot2 | fdot4 | fpk | mjob | mcmp | mplane | mnplane | mscl | ringCfg
      | ringAcq | ringRel | cpy | astr | nmeGth | nmeRed | nmeCvt | winst | wqry | tlwait | tlget | tlgetClr | vfsend | vfrecv |
      vffree | leap | launch | join | barArr | barWait | sbarArr | sbarWait | waitaddr | wake | deqInit | deqPush | deqPop |
      deqSteal | sysr | sysw | scall | brk | tret | wfi | tlbinvVa | tlbinvCtx | tlbinvAll | icinvLine | icinvAll | halt | ipi =>
    unfold exec
    exact answers_word
  case
      kwaitRelease | timerExpiry | transientRequest | valvePass | mgmtLeaseExpiry | coreGate | coreUngate | reset | powerLoss |
      sensorRefresh =>
    exact answers_next
  case
      scrubCfgWrite | valveForceWrite | partMapWrite | partCfgWrite | devCapWrite | curLimWrite | govTjWrite | govTbWrite |
      mgmtSemAcquire | mgmtSemRelease | logClear | logIndexSet | hbmSplitLock | wearSetWrite | corePgWrite =>
    exact answers_namedWrite
  case ringAcqResume | tlwaitReturn | joinReturn | waitaddrReread | sbarWaitResume | barWaitResume | launchQueueResume | leapLand =>
    dsimp only [exec, execRingAcqResume, execTlwaitReturn, execJoinReturn, execWaitaddrReread, execSbarWaitResume, execBarWaitResume,
      execLaunchQueueResume, execLeapLand]
    split
    · exact answers_runAs fun _ => answers_word
    · exact answers_next
  case queueWaitResume | vfifoWaitResume =>
    dsimp only [exec, execQueueWaitResume, execVfifoWaitResume]
    split
    · exact answers_runAs fun _ => answers_word
    · exact answers_runAs fun _ => answers_word
    · exact answers_next
  all_goals
    dsimp only [exec, execDualWord, execIssueCycle, execLongResultWrite, execRegisterRecall, execWindowParking, execRegionCommit,
      execEngineAsyncDelivery, execInterruptEntry, execCopyChunk, execStreamElement, execNmeCommandRun, execMatrixTile,
      execMatrixJobComplete, execEngineCommandComplete, execInstallStart, execInstallUnitProgram, execInstallCommit,
      execInstallComplete, execReadingRoomFill, execCacheFill, execL1EvictTimeout, execCwqDrain, execTokenResponse,
      execTransientTimeout, execPersistentActivate, execPersistentDeactivate, execTokenWriteback, execSyncEngineAtomic,
      execPageWalk, execPagerRecord, execPgfDoneWrite, execPgfHeadWrite, execPromoGo, execPromotionComplete, execTokenEnqueue,
      execLaunchRecordCheck, execDependenceEvaluation, execPreTranslation, execGangReserve, execGangDispatch, execPreemption,
      execPreemptResume, execRequeue, execMigrationRequest, execMigration, execTaskTermination, execCtxRefresh, execCtxKill,
      execKillComplete, execLlCfgWrite, execCxlMemWrite, execCxlMemRead, execBar0Access, execUalinkRequest, execRegisterWrite,
      execVbusBeat, execVbusRepair, execBankRead, execBankPartialWrite, execPatrolScrub, execPowerEstimate, execWeightRefit,
      execCapLoopPass, execThermalStepDown, execThermalStepUp, execRampGuardTick, execBallastStop, execCoolantAlarm,
      execEmergencyBegin, execEmergencyEnd, execEmergencyTimeout, execCapFrame, execWidthChangeRequest, execWidthChange,
      execFirmwareImage, execSpdmRequest, execCxlCacheSnoop, orStay, hostToken, migrEnd, answerError, regRow]
    repeat' split
    all_goals exact answers_next

theorem act_answers (i : Instr) (s : State) : Answers (act i s) := by
  obtain ⟨t, ht⟩ := exec_answers i s
  rw [act, ht]
  exact answers_next

theorem issueNow_answers (s : State) : Answers (issueNow s) := by
  unfold issueNow
  dsimp only
  split
  · split
    · exact act_answers ..
    · exact answers_next
  · split
    · exact answers_next
    · split
      · exact answers_next
      · exact answers_next
    · split
      · exact act_answers ..
      · exact answers_next

theorem issueWord_answers (s : State) : Answers (issueWord s) := by
  unfold issueWord
  split
  · split
    · exact answers_next
    · exact issueNow_answers _
  · exact issueNow_answers _

theorem clutchStep_answers (s : State) : Answers (clutchStep s) := by
  unfold clutchStep
  dsimp only
  split
  · exact answers_next
  · split
    · exact act_answers ..
    · split
      · exact act_answers ..
      · split
        · split
          · exact answers_next
          · exact act_answers ..
        · exact issueWord_answers _

theorem stepNext_answers (hboot : s.boot ≠ .railsOff) : Answers (stepNext s) := by
  unfold stepNext
  split
  case h_1 h _ => exact absurd h hboot
  case h_2 h _ => exact absurd h hboot
  case h_3 => exact clutchStep_answers _
  case h_4 => exact clutchStep_answers _
  case h_5 => exact act_answers ..

/-- Without its rails the machine waits for a reset (02 R78). -/
theorem stepNext_railsOff (hboot : s.boot = .railsOff) (hagenda : s.agenda.head? ≠ some .reset) : stepNext s = .fault .railsOff := by
  unfold stepNext
  split
  next _ hlisted => exact absurd (congrArg List.head? hlisted) hagenda
  next => rfl
  next hb _ => exact absurd hboot hb
  next hb => exact absurd hboot hb
  next hb => exact absurd hboot hb

theorem forced_railsOff (hboot : s.boot = .railsOff) : forced s = none := by
  have hlive : live s = false := by rw [live, hboot]; rfl
  rw [forced, hlive]
  rfl

/-- Settles O60: an act that answers makes the step answer. -/
theorem noInstructionIsRefused : Obligations.NoInstructionIsRefused := by
  refine ⟨exec_answers, fun s hboot => ?_, fun s hboot hagenda => ?_⟩
  · cases hforced : forced (tick s) with
    | some i => exact step_of_forced hforced ▸ act_answers i (tick s)
    | none => exact step_of_unforced hforced ▸ stepNext_answers hboot
  · rw [step_of_unforced (forced_railsOff hboot)]
    exact stepNext_railsOff hboot hagenda

end Sys2Proof.Machine
end
